-- ==== Sys2Proof/Word.lean ====
section
/-! DEFINITION. The word types of the machine (R3 to R5): bytes, 32-, 64- and 96-bit words. -/

namespace Sys2Proof

/-- A byte is 8 bits (R5). -/
abbrev Byte := BitVec 8

/-- The data of a token and of a general register (R160, R164). -/
abbrev Word := BitVec 64

/-- An unqualified word of the manual: 32 bits (R5). -/
abbrev Half := BitVec 32

/-- A block header or instruction word (R5). -/
abbrev Word96 := BitVec 96

end Sys2Proof
end

