-- ==== Sys2Proof/Config.lean ====
section
/-! DEFINITION. What the manual leaves open and this model leaves free: opaque constants with no body, so that
no proof can see a value of one. -/

namespace Sys2Proof.Config

/-- The free result of a special function (R240): `form` numbers the special functions 0 to 8 (OP of R181), `x` is the
FP32 operand.  A result inside the bound of R240 is taken as it is.  One value per operand, because R43 and R240 fix
the result bit for bit by the operand (log entry 6). -/
opaque sfuResult : (form : Nat) → (x : BitVec 32) → BitVec 32

/-- Bytes of a signature with the identity key (R459): the key never leaves the management processor (log entry 6). -/
opaque signatureByte : (stream : Nat) → (index : Nat) → BitVec 8

/-- A measured digest of the boot (R457): the images are not part of the manual (log entry 6). -/
opaque measurement : (index : Nat) → BitVec 512

/-- A bounded wait's free length or a victim's free choice, drawn by `freeCtr` (log entry 6). -/
opaque freeChoice : (draw : Nat) → Nat

/-- A byte of a save section whose layout or value the manual leaves open (R385, R387): `stamp` draws afresh for each
save (log entry 10). -/
opaque savedByte : (stamp offset : Nat) → BitVec 8

/-- Which of the routes on the grid between two dies that are not adjacent the network takes (R17, log entry 6). -/
opaque routePick : (a b : Nat) → Nat

/-- Routers beyond the first that a message crosses between two places of the module (R435): the manual gives the routers no
layout (log entry 34). -/
opaque routerHops : (source destination : Nat) → Nat

/-- Bytes of HBM that an access of a line at its home moves (R435), drawn at each access: it depends on what the slice's L2
holds, which the model does not keep (log entry 34). -/
opaque hbmBytes : (line draw : Nat) → Nat

/-- Flits beyond the first that carry the answer to an uncached access of a line (R88, R435), drawn at each access: the manual gives
such messages no size (log entry 34). -/
opaque uncachedFlits : (line draw : Nat) → Nat

/-- Which slice of its die holds the table that a flattened walk of a context's address reads at a level (R406, log entry 34). -/
opaque stageSlice : (context ipa level : Nat) → Nat

/-- Die of an agent that the manual places nowhere: 0 the beacon port, 1 the hawser links, 2 the context controller (R435, log entry
34). -/
opaque agentDie : (agent : Nat) → Nat

/-- Bytes of the hardware areas of a die that hold other things than flattened-stage tables (R57, R406, log entry 75). -/
opaque tablesTaken : (die : Nat) → Nat

/-- The page, counted within software memory, at which the boot firmware builds the capability list (R455, log entry 6). -/
opaque capsPage : Nat

/-- The virtual address, in context 0's space, of the first capability record (R26, R455, log entry 6). -/
opaque capsVa : Nat

/-- Hawser links that train at boot: bit i for link i (R453, R455, log entry 6). -/
opaque linksTrained : Nat

/-- Which of the bollards of the kind it needs the placer gives to an instruction of the block at a base address (R18, R216,
R375). -/
opaque placement : (block index : Nat) → Nat

end Sys2Proof.Config
end

