-- ==== Sys2Proof/Syntax.lean ====
section
/-! DEFINITION. The abstract syntax: one constructor of `Instr` per row of spec/opcode_table.json.
Rows 1 to 171 are the forms of instruction words (R175 to R183); the other rows are steps of the hardware that no word
encodes (spec/95_what_each_step_holds.md), and their arguments name the object they act on. -/

namespace Sys2Proof

/-- Port of an instruction (R174, R176). -/
inductive Port where
  | a | b | g
  deriving DecidableEq, Repr, Inhabited

/-- Operand field F0, F1 or F2 (R176). -/
inductive Operand where
  | empty
  | target (idx : BitVec 7) (port : Port)
  | slot (n : BitVec 5)
  | imm (v : BitVec 20)
  deriving DecidableEq, Repr, Inhabited

/-- GMODE and GPRED (R175). -/
inductive Guard where
  | none
  | ifTrue (p : BitVec 6)
  | ifFalse (p : BitVec 6)
  | port
  deriving DecidableEq, Repr, Inhabited

/-- The fields common to every instruction word (R175). -/
structure Fields where
  guard : Guard
  lat : BitVec 2
  grp : BitVec 4
  f0 : Operand
  f1 : Operand
  f2 : Operand
  deriving DecidableEq, Repr, Inhabited

/-- Integer type code TI (R181). -/
inductive IntTy where
  | s32 | n32 | s64 | n64 | s16 | n16 | s8 | n8
  deriving DecidableEq, Repr, Inhabited

/-- Signed type codes of `ineg` and `iabs` (R181). -/
inductive SIntTy where
  | s32 | s64 | s16 | s8
  deriving DecidableEq, Repr, Inhabited

/-- Width code W (R181). -/
inductive Width where
  | b32 | b64
  deriving DecidableEq, Repr, Inhabited

/-- Relation of `icmp` (R213). -/
inductive Cmp where
  | eq | ne | lt | le | gt | ge
  deriving DecidableEq, Repr, Inhabited

/-- Relation of `fcmp` (R226). -/
inductive FCmp where
  | eq | ne | lt | le | gt | ge | un | or
  deriving DecidableEq, Repr, Inhabited

/-- Mode letter of `frnd` (R228). -/
inductive RndLetter where
  | n | z | p | m
  deriving DecidableEq, Repr, Inhabited

/-- Index type of `lea` (R206). -/
inductive LeaTy where
  | s32 | n32
  deriving DecidableEq, Repr, Inhabited

/-- Type of `iaddc` (R207). -/
inductive CarryTy where
  | n32 | n64
  deriving DecidableEq, Repr, Inhabited

/-- Format of `hadd2`, `hmul2`, `hfma2` and `dot2` (R181). -/
inductive HalfFmt where
  | f16 | bf16
  deriving DecidableEq, Repr, Inhabited

/-- Activation format of `dotds` (R233). -/
inductive ActFmt where
  | f8a | f8b
  deriving DecidableEq, Repr, Inhabited

/-- Format codes 0x0 to 0xC of class 0x5 (R182). -/
inductive CvtFmt where
  | s32 | n32 | s64 | n64 | s16 | n16 | s8 | n8 | f32 | f16 | bf16 | f8a | f8b
  deriving DecidableEq, Repr, Inhabited

/-- Format of `pack2` and `unpack2` (R182). -/
inductive PackFmt where
  | f16 | bf16 | f8a | f8b
  deriving DecidableEq, Repr, Inhabited

/-- Address space of class 0x8 (R183). -/
inductive Space where
  | g | v | vl | k | l
  deriving DecidableEq, Repr, Inhabited

/-- Address space of a store (R183: no .k). -/
inductive StSpace where
  | g | v | vl | l
  deriving DecidableEq, Repr, Inhabited

/-- Address space of class 0x9 (R183). -/
inductive AtSpace where
  | g | v | vl
  deriving DecidableEq, Repr, Inhabited

/-- SIZE of class 0x8 (R183). -/
inductive Size where
  | b8 | b16 | b32 | b64
  deriving DecidableEq, Repr, Inhabited

/-- Load result type: SIZE with zero extension, or .s8 to .s32 (R183). -/
inductive LdTy where
  | n8 | n16 | n32 | n64 | s8 | s16 | s32
  deriving DecidableEq, Repr, Inhabited

/-- TYPE of the integer atomics (R183). -/
inductive AtTy where
  | s32 | n32 | s64 | n64
  deriving DecidableEq, Repr, Inhabited

/-- Type of a `gred` (R181). -/
inductive GredTy where
  | f32 | s32
  deriving DecidableEq, Repr, Inhabited

/-- Element type of a reducing collective (R181). -/
inductive CollTy where
  | bf16 | f32
  deriving DecidableEq, Repr, Inhabited

/-- Where a context operation stands (R403): fired in a block, or at the head of the context controller's work,
`n` being its position in the controller's queue. -/
inductive CtxSite where
  | fire (w : Fields)
  | perform (n : Nat)
  deriving DecidableEq, Repr, Inhabited

/-- Metadata that travels with a line (R60): line scale, format tag, poison. -/
structure LineMeta where
  lam : BitVec 8 := 0
  tag : BitVec 4 := 0
  poison : Bool := false
  deriving DecidableEq, Repr, Inhabited

/-- Bytes at a position of what moves, with the metadata of the line they come from (R60, R119). -/
structure Piece where
  pos : Nat
  bytes : List Byte
  md : LineMeta := {}
  deriving DecidableEq, Repr, Inhabited

/-- A collective as one rank issues it (R127, R290): the group list, the operation (0 and 1 all-reduce of BF16 and FP32, 2
and 3 reduce-scatter, 4 all-gather, 5 broadcast), LEN, the root, and whether its ranges pass the end of the vault. -/
structure CollDesc where
  list : List Nat
  func : Nat
  len : Nat
  root : Nat
  past : Bool
  deriving DecidableEq, Repr, Inhabited

/-- What modules tell one another of a collective (R127, R128, R452; log entry 58): a rank issued or left, a rank's part of a
chunk, the sums of a chunk, the end of a list's operation at every rank with a status, due to a rank and after its chunks have
begun or before, and a rank whose own list is bad. -/
inductive CollMsg where
  | issue (quay op : Nat) (d : CollDesc)
  | leave (quay op : Nat)
  | part (list : List Nat) (chunk rank : Nat) (pieces : List Piece)
  | sum (list : List Nat) (chunk : Nat) (pieces : List Piece)
  | ended (src : Nat) (list : List Nat) (status : Nat) (begun : Bool)
  | bad (src : Nat) (list : List Nat)
  deriving DecidableEq, Repr, Inhabited

/-- What a frame from a peer module carries (R450 to R452, R71, R97): an answer, with the poison of its data; a frozen line
with its generation and metadata; a refusal, with the generation the home holds where it was stale (R104); any frame but a
request that is on its way to another module (R449). -/
inductive LinkBody where
  | keepAlive
  | crcError
  | answer (tag : Nat) (data : List Byte) (md : LineMeta)
  | fdata (tag : Nat) (gen : BitVec 8) (data : List Byte) (md : LineMeta)
  | refusal (tag : Nat) (cause : BitVec 8) (stale : Option (BitVec 8))
  | swack (page : Nat)
  | breakHold (tag : Nat)
  | coll (m : CollMsg)
  | transit (dst : Nat) (data : List Byte)
  deriving DecidableEq, Repr, Inhabited

/-- What a request arriving over hawser links asks for (R450, R88): the end of a hold carries the writes that its commit
makes in the held line, none at a discard (R272); a page is frozen or thawed at its home (R293). -/
inductive RemoteAsk where
  | load (size : Nat)
  | store (data : List Byte) (poison : Bool)
  | atomic (size : Nat)
  | endHold (writes : List (Nat × List Byte))
  | replica
  | sweep (gen : Nat)
  | page (thaw : Bool)
  deriving DecidableEq, Repr, Inhabited

/-- A request arriving over hawser links (R450). -/
structure RemoteReq where
  src : Nat
  tag : Nat
  pa : Nat
  gen : Nat
  ask : RemoteAsk
  deriving DecidableEq, Repr, Inhabited

/-- What a patrol scrub finds in a line (R72). -/
inductive ScrubFind where
  | clean | corrected | uncorrectable
  deriving DecidableEq, Repr, Inhabited

/-- An agent that answers a collector (R379). -/
inductive StopAgent where
  | fabric (quay : Nat)
  | engines (quay : Nat)
  | queueProcessor (die : Nat)
  deriving DecidableEq, Repr, Inhabited

/-- The steps of the part: one constructor per row of the opcode table. -/
inductive Instr where
  -- class 0x0: control (R324)
  | br (w : Fields)
  | bri (w : Fields)
  | call (w : Fields)
  | ret (w : Fields)
  | exit (w : Fields)
  | trap (w : Fields)
  -- class 0x1: integer arithmetic (R203)
  | iadd (t : IntTy) (w : Fields)
  | isub (t : IntTy) (w : Fields)
  | imul (t : IntTy) (w : Fields)
  | imulhi (t : IntTy) (w : Fields)
  | imad (t : IntTy) (w : Fields)
  | idiv (t : IntTy) (w : Fields)
  | irem (t : IntTy) (w : Fields)
  | ineg (t : SIntTy) (w : Fields)
  | iabs (t : SIntTy) (w : Fields)
  | imin (t : IntTy) (w : Fields)
  | imax (t : IntTy) (w : Fields)
  | lea (t : LeaTy) (sc : BitVec 2) (w : Fields)
  | iaddc (t : CarryTy) (w : Fields)
  | iaddSat (t : IntTy) (w : Fields)
  | isubSat (t : IntTy) (w : Fields)
  -- class 0x2: logic, bit, compare, predicate (R203)
  | and (n : Width) (w : Fields)
  | or (n : Width) (w : Fields)
  | xor (n : Width) (w : Fields)
  | andn (n : Width) (w : Fields)
  | not (n : Width) (w : Fields)
  | shl (n : Width) (w : Fields)
  | shr (n : Width) (w : Fields)
  | sar (n : Width) (w : Fields)
  | rotl (n : Width) (w : Fields)
  | rotr (n : Width) (w : Fields)
  | popc (n : Width) (w : Fields)
  | clz (n : Width) (w : Fields)
  | ctz (n : Width) (w : Fields)
  | brev (n : Width) (w : Fields)
  | bfx (n : Width) (w : Fields)
  | bfi (n : Width) (w : Fields)
  | bperm (n : Width) (w : Fields)
  | icmp (c : Cmp) (t : IntTy) (w : Fields)
  | isel (n : Width) (w : Fields)
  | pand (w : Fields)
  | por (w : Fields)
  | pxor (w : Fields)
  | pnot (w : Fields)
  | pset (w : Fields)
  | pmov (w : Fields)
  | ppack (w : Fields)
  -- class 0x3: FP32 (R222)
  | fadd (w : Fields)
  | fsub (w : Fields)
  | fmul (w : Fields)
  | ffma (w : Fields)
  | fmin (w : Fields)
  | fmax (w : Fields)
  | fabs (w : Fields)
  | fneg (w : Fields)
  | fcmp (c : FCmp) (w : Fields)
  | fsel (w : Fields)
  | fclass (w : Fields)
  | frnd (mode : RndLetter) (w : Fields)
  | fscale (w : Fields)
  | fcopysign (w : Fields)
  -- class 0x4: packed narrow FP and dot products (R222)
  | hadd2 (t : HalfFmt) (w : Fields)
  | hmul2 (t : HalfFmt) (w : Fields)
  | hfma2 (t : HalfFmt) (w : Fields)
  | dot2 (t : HalfFmt) (w : Fields)
  | dot4 (w : Fields)
  | dotds (t : ActFmt) (w : Fields)
  -- class 0x5: conversion (R182)
  | cvt (dst src : CvtFmt) (w : Fields)
  | cvtF32Ds8 (w : Fields)
  | dsenc (w : Fields)
  | pack2 (t : PackFmt) (w : Fields)
  | unpack2 (t : PackFmt) (w : Fields)
  -- class 0x6: special functions (R222)
  | rcp (w : Fields)
  | rsq (w : Fields)
  | sqrt (w : Fields)
  | div (w : Fields)
  | exp2 (w : Fields)
  | log2 (w : Fields)
  | sin (w : Fields)
  | cos (w : Fields)
  | tanh (w : Fields)
  -- class 0x7: data movement (R203)
  | mov (w : Fields)
  | movi (w : Fields)
  | movh (w : Fields)
  | fan (w : Fields)
  | null (w : Fields)
  | sreg (w : Fields)
  -- class 0x8: loads and stores (R260)
  | ld (t : LdTy) (sp : Space) (w : Fields)
  | st (n : Size) (sp : StSpace) (w : Fields)
  | ldv (sp : Space) (w : Fields)
  | stv (sp : StSpace) (w : Fields)
  | ldNc (n : Size) (w : Fields)
  | pf (w : Fields)
  -- class 0x9: atomics and fences (R261)
  | atomAdd (t : AtTy) (sp : AtSpace) (w : Fields)
  | atomSub (t : AtTy) (sp : AtSpace) (w : Fields)
  | atomMin (t : AtTy) (sp : AtSpace) (w : Fields)
  | atomMax (t : AtTy) (sp : AtSpace) (w : Fields)
  | atomAnd (n : Width) (sp : AtSpace) (w : Fields)
  | atomOr (n : Width) (sp : AtSpace) (w : Fields)
  | atomXor (n : Width) (sp : AtSpace) (w : Fields)
  | atomExch (n : Width) (sp : AtSpace) (w : Fields)
  | atomInc (t : AtTy) (sp : AtSpace) (w : Fields)
  | atomDec (t : AtTy) (sp : AtSpace) (w : Fields)
  | atomFaddF32 (sp : AtSpace) (w : Fields)
  | atomFadd2Bf16 (sp : AtSpace) (w : Fields)
  | cas (n : Width) (sp : AtSpace) (w : Fields)
  | casB128 (sp : AtSpace) (w : Fields)
  | fence (w : Fields)
  -- class 0xA: synchronisation and group reductions (R324, R249)
  | bar (w : Fields)
  | barArrive (w : Fields)
  | barWait (w : Fields)
  | coInit (w : Fields)
  | coArrive (w : Fields)
  | coWait (w : Fields)
  | elect (w : Fields)
  | gredAdd (t : GredTy) (w : Fields)
  | gredMin (t : GredTy) (w : Fields)
  | gredMax (t : GredTy) (w : Fields)
  -- class 0xB: engines and freeze (R281)
  | cpG2v (w : Fields)
  | cpV2g (w : Fields)
  | cpV2v (w : Fields)
  | cpMc (w : Fields)
  | seal (w : Fields)
  | unseal (w : Fields)
  | vmap (w : Fields)
  | vunmap (w : Fields)
  | vflush (w : Fields)
  | gath (w : Fields)
  | collAllred (t : CollTy) (w : Fields)
  | collRedsc (t : CollTy) (w : Fields)
  | collAllgath (w : Fields)
  | collBcast (w : Fields)
  | seqGemm (w : Fields)
  | seqAttn (w : Fields)
  | frz (w : Fields)
  | thaw (w : Fields)
  | qpost (w : Fields)
  -- class 0xC: matrix (R249)
  | mmaCfg (w : Fields)
  | mma (w : Fields)
  | mmaRel (w : Fields)
  | mmaClr (w : Fields)
  -- class 0xD: system, contexts, energy (R394, R324)
  | srd (w : Fields)
  | swr (w : Fields)
  | trapRet (w : Fields)
  | trapSub (w : Fields)
  | ctxNew (at' : CtxSite)
  | ctxGiveQuays (at' : CtxSite)
  | ctxGiveMemory (at' : CtxSite)
  | ctxGiveQueue (at' : CtxSite)
  | ctxGiveEnergy (at' : CtxSite)
  | ctxTakeQuays (at' : CtxSite)
  | ctxTakeMemory (at' : CtxSite)
  | ctxTakeQueue (at' : CtxSite)
  | ctxTakeEnergy (at' : CtxSite)
  | ctxMap (at' : CtxSite)
  | ctxUnmap (at' : CtxSite)
  | ctxUnmapRenewal (at' : CtxSite)
  | ctxRun (at' : CtxSite)
  | ctxStop (at' : CtxSite)
  | ctxStopEnd (at' : CtxSite)
  | ctxStopRelease (at' : CtxSite)
  | enRead (w : Fields)
  | enQuota (at' : CtxSite)
  | launch (w : Fields)
  | spawn (w : Fields)
  | joinPut (w : Fields)
  | pgreqAckRetry (w : Fields)
  | pgreqAckRefuse (w : Fields)
  | dlogStart (at' : CtxSite)
  | dlogStop (at' : CtxSite)
  | partChg (at' : CtxSite)
  -- queue commands: the command at the front of queue `q` of context `c` (R350)
  | cmdLaunch (c q : Nat)
  | cmdWait (c q : Nat)
  | waitReread (c q : Nat)
  | cmdSignalWrite (c q : Nat)
  | cmdSignalAdd (c q : Nat)
  | cmdCopyG2v (c q : Nat)
  | cmdCopyV2g (c q : Nat)
  | cmdCopyV2v (c q : Nat)
  | cmdCopyMc (c q : Nat)
  | cmdCollAllredBf16 (c q : Nat)
  | cmdCollAllredF32 (c q : Nat)
  | cmdCollRedscBf16 (c q : Nat)
  | cmdCollRedscF32 (c q : Nat)
  | cmdCollAllgath (c q : Nat)
  | cmdCollBcast (c q : Nat)
  | cmdFreeze (c q : Nat)
  | cmdThaw (c q : Nat)
  | queueWake (c q : Nat)
  -- beacon messages: message `n` of the inbox (R446)
  | mrd (n : Nat)
  | mwr (n : Nat)
  | qpostMessage (n : Nat)
  | ctxop (n : Nat)
  | pgack (n : Nat)
  | enread (n : Nat)
  | attest (n : Nat)
  -- coherence messages: message `n` of those in flight (R81)
  | gets (n : Nat)
  | getm (n : Nat)
  | data (n : Nat) (victim : Option Nat)
  | tok (n : Nat)
  | inv (n : Nat)
  | fwds (n : Nat)
  | wb (n : Nat)
  | put (n : Nat)
  | collect (n : Nat)
  | done (n : Nat)
  | persistentRequest (holder line : Nat)
  | preq (n : Nat)
  | pact (n : Nat)
  | pdone (n : Nat)
  | pdeact (n : Nat)
  | fdata (n : Nat)
  | refuse (n : Nat)
  | sweep (n : Nat)
  | swack (n : Nat)
  | uncachedAccess (n : Nat)
  | remoteRequest (r : RemoteReq)
  -- translation (R105 to R111)
  | walkStart (die : Nat)
  | walkComplete (die n : Nat)
  | pgreqAppend (n : Nat)
  | translationExpiry (quay n : Nat)
  | generationIncrement (n : Nat)
  -- scheduling (R356 to R362, R191)
  | planeChoose (quay plane : Nat)
  | blockConfigure (quay plane : Nat)
  | threadAdmit (quay plane slot : Nat)
  | blockResolve
  | commit
  | entryAged (quay entry : Nat)
  | coalesceHoldEnd (quay entry : Nat)
  | runOpenTimeout (quay plane : Nat)
  | drainTimeout (quay plane : Nat)
  | bollardWeightUpdate (quay bollard : Nat) (waiting : List Nat)
  | bollardUncorrectable (quay bollard : Nat)
  | storePerform (quay slot : Nat)
  | holdBreak (n : Nat)
  | barrierArrival (quay slot : Nat)
  | coWaitWake (quay slot : Nat)
  | coWaitPoll (quay slot : Nat)
  | workgroupDispatch (n : Nat) (quays : List Nat)
  | workgroupComplete (n : Nat)
  | launchComplete (n : Nat)
  -- engines (R121 to R146, R289 to R293)
  | copyChunkDone (op : Nat)
  | scoreboardRetire (quay n : Nat)
  | completionRaise (op : Nat)
  | gatherRow (op : Nat)
  | collChunkReduce (n : Nat)
  | seqStep (op : Nat)
  | mappedFill (quay line : Nat)
  | vflushDone (op : Nat)
  | vunmapDone (op : Nat)
  | sealDone (op : Nat)
  | unsealDone (op : Nat)
  | freezePage (op : Nat)
  | pageFrozen (page : Nat)
  | thawPage (op : Nat)
  -- matrix (R250 to R256)
  | matrixQueueHead (pair : Nat)
  | endOfRow (pair : Nat)
  | nodeRelease (pair : Nat)
  | endOfOperation (pair : Nat)
  -- control window (R63 to R66, R131, R449)
  | fmtRegionEnable (die region : Nat) (v : Word)
  | fmtRegionDisable (die region : Nat) (v : Word)
  | fmtRegionBusyClear (die region : Nat)
  | netpolWrite (part : Nat) (v : Word)
  | controlWindowWrite (die off : Nat) (v : Word)
  -- contexts and pre-emption (R151, R377 to R393, R403)
  | contextOpDone (n : Nat)
  | vaultHandover (n : Nat)
  | preemptStopReached (n : Nat) (agent : StopAgent)
  | preemptDrainLimit (n : Nat)
  | preemptionComplete (n : Nat)
  | saveChunk (n : Nat)
  | restore (n : Nat)
  | timeSliceEnd (part : Nat)
  | lamplighterArrival
  -- energy, power, reliability, links (R24, R71, R72, R441, R442, R451, R463)
  | tick
  | exhaustionPreempt (c : Nat)
  | powerWindow (milliwatts : Nat)
  | thermalThrottle (die celsius : Nat)
  | thermalTrip (die celsius : Nat)
  | patrolScrub (slice : Nat) (find : ScrubFind)
  | linkFrame (peer : Nat) (body : LinkBody)
  | flitRetransmit
  | keepalive
  | peerLost (peer : Nat)
  | swackTimeout (page peer : Nat)
  | powerOnReset (failStep : Nat)
  | blockPinned (quay entry : Nat)
  | malformedMessage (n : Nat)
  deriving DecidableEq, Repr, Inhabited

end Sys2Proof
end

