-- ==== Sys2Proof/Machine/Forms.lean ====
section
/-! DEFINITION. The form of each instruction word: class and function code (R180 to R183), the ports it reads, what an
F2 immediate does, whether it produces a result, is a member of the branch set, bears an LSID
(R177, R189, R194, R203, R222, R249, R260, R261, R281, R324, R394). -/

namespace Sys2Proof.Machine

/-- How an immediate is widened to a token (R177, R201, R221). -/
inductive Ext where
  | sext | zext | fp32
  deriving DecidableEq, Repr, Inhabited

/-- What F2 holds besides targets (R177, R325): nothing, an optional immediate for a port, an immediate the form must
supply itself, a branch offset, the scope and offset of `co.wait`, or an LSID with its fields. -/
inductive ImmUse where
  | no
  | opt (p : Port) (e : Ext)
  | own (p : Port) (e : Ext)
  | offset
  | scopeOffset
  | lsid
  deriving DecidableEq, Repr, Inhabited

/-- Load-class and store-class LSIDs (R189). -/
inductive LsidKind where
  | none | load | store
  deriving DecidableEq, Repr, Inhabited

/-- The form of an instruction word. -/
structure Form where
  cls : BitVec 4
  func : BitVec 8
  ra : Bool
  rb : Bool
  rg : Bool
  imm : ImmUse
  result : Bool
  branch : Bool
  kind : LsidKind
  f2Plain : Bool
  deriving DecidableEq, Repr, Inhabited

/-- FUNC = 8 × OP + VAR (R181). -/
def opVar (op : Nat) (var : BitVec 3) : BitVec 8 := BitVec.ofNat 5 op ++ var

/-- TI (R181). -/
def IntTy.code : IntTy → BitVec 3
  | .s32 => 0 | .n32 => 1 | .s64 => 2 | .n64 => 3 | .s16 => 4 | .n16 => 5 | .s8 => 6 | .n8 => 7

/-- TI, signed codes only (R181). -/
def SIntTy.code : SIntTy → BitVec 3
  | .s32 => 0 | .s64 => 2 | .s16 => 4 | .s8 => 6

/-- W (R181). -/
def Width.code : Width → BitVec 3
  | .b32 => 0 | .b64 => 1

/-- VAR of `iaddc` (R181). -/
def CarryTy.code : CarryTy → BitVec 3
  | .n32 => 1 | .n64 => 3

/-- VAR bit 86 of `lea` (R181). -/
def LeaTy.code : LeaTy → BitVec 1
  | .s32 => 0 | .n32 => 1

/-- VAR of .f16 and .bf16 (R181). -/
def HalfFmt.code : HalfFmt → BitVec 3
  | .f16 => 0 | .bf16 => 1

/-- VAR of `dotds` (R181). -/
def ActFmt.code : ActFmt → BitVec 3
  | .f8a => 0 | .f8b => 1

/-- VAR of `fcmp` (R226). -/
def FCmp.code : FCmp → BitVec 3
  | .eq => 0 | .ne => 1 | .lt => 2 | .le => 3 | .gt => 4 | .ge => 5 | .un => 6 | .or => 7

/-- OP of `icmp`, 17 to 22 (R181). -/
def Cmp.op : Cmp → Nat
  | .eq => 17 | .ne => 18 | .lt => 19 | .le => 20 | .gt => 21 | .ge => 22

/-- VAR of `frnd` (R181). -/
def RndLetter.code : RndLetter → BitVec 3
  | .n => 0 | .z => 1 | .p => 2 | .m => 3

/-- Format code of class 0x5 (R182). -/
def CvtFmt.code : CvtFmt → BitVec 4
  | .s32 => 0 | .n32 => 1 | .s64 => 2 | .n64 => 3 | .s16 => 4 | .n16 => 5 | .s8 => 6 | .n8 => 7
  | .f32 => 8 | .f16 => 9 | .bf16 => 10 | .f8a => 11 | .f8b => 12

/-- Format code of `pack2` and `unpack2` (R182). -/
def PackFmt.code : PackFmt → BitVec 4
  | .f16 => 9 | .bf16 => 10 | .f8a => 11 | .f8b => 12

/-- SPACE of class 0x8 (R183). -/
def Space.code : Space → BitVec 3
  | .g => 0 | .v => 1 | .vl => 2 | .k => 3 | .l => 4

/-- SPACE of a store (R183). -/
def StSpace.code : StSpace → BitVec 3
  | .g => 0 | .v => 1 | .vl => 2 | .l => 4

/-- SPACE of class 0x9 (R183). -/
def AtSpace.code : AtSpace → BitVec 2
  | .g => 0 | .v => 1 | .vl => 2

/-- SIZE (R183). -/
def Size.code : Size → BitVec 2
  | .b8 => 0 | .b16 => 1 | .b32 => 2 | .b64 => 3

/-- OP bit 89 and SIZE of a load (R183). -/
def LdTy.code : LdTy → BitVec 3 × BitVec 2
  | .n8 => (0, 0) | .n16 => (0, 1) | .n32 => (0, 2) | .n64 => (0, 3)
  | .s8 => (1, 0) | .s16 => (1, 1) | .s32 => (1, 2)

/-- TYPE of the integer atomics (R183). -/
def AtTy.code : AtTy → BitVec 2
  | .s32 => 0 | .n32 => 1 | .s64 => 2 | .n64 => 3

/-- TYPE of the bitwise atomics and `cas` (R183). -/
def Width.atCode : Width → BitVec 2
  | .b32 => 0 | .b64 => 2

/-- VAR of `gred` (R181). -/
def GredTy.code : GredTy → BitVec 3
  | .f32 => 0 | .s32 => 1

/-- VAR of the reducing collectives (R181). -/
def CollTy.code : CollTy → BitVec 3
  | .bf16 => 0 | .f32 => 1

/-- Whether a `cvt` source format is read as an integer, as FP32 or as a narrow pattern (R221). -/
def CvtFmt.ext : CvtFmt → Ext
  | .f32 => .fp32
  | .f16 | .bf16 | .f8a | .f8b => .zext
  | .s32 | .n32 | .s64 | .n64 | .s16 | .n16 | .s8 | .n8 => .sext

/-- A form of one data port. -/
def form1 (cls : BitVec 4) (func : BitVec 8) (imm : ImmUse) : Form :=
  ⟨cls, func, true, false, false, imm, true, false, .none, false⟩

/-- A form of two data ports. -/
def form2 (cls : BitVec 4) (func : BitVec 8) (imm : ImmUse) : Form :=
  ⟨cls, func, true, true, false, imm, true, false, .none, false⟩

/-- A form of three data ports. -/
def form3 (cls : BitVec 4) (func : BitVec 8) (imm : ImmUse) : Form :=
  ⟨cls, func, true, true, true, imm, true, false, .none, false⟩

/-- A form of no data port. -/
def form0 (cls : BitVec 4) (func : BitVec 8) (plain : Bool) : Form :=
  ⟨cls, func, false, false, false, .no, true, false, .none, plain⟩

/-- A member of the branch set (R194). -/
def formBr (cls : BitVec 4) (func : BitVec 8) (ra rb : Bool) (imm : ImmUse) : Form :=
  ⟨cls, func, ra, rb, false, imm, false, true, .none, true⟩

/-- A form that bears an LSID (R177). -/
def formMem (cls : BitVec 4) (func : BitVec 8) (ra rb rg result : Bool) (kind : LsidKind) : Form :=
  ⟨cls, func, ra, rb, rg, .lsid, result, false, kind, true⟩

/-- FUNC of class 0x8 (R260). -/
def func8 (op : BitVec 3) (sp : BitVec 3) (sz : BitVec 2) : BitVec 8 := op ++ sp ++ sz

/-- FUNC of class 0x9 (R261). -/
def func9 (op : BitVec 4) (sp ty : BitVec 2) : BitVec 8 := op ++ sp ++ ty

/-- A context operation (R394): port a the descriptor, port b the completion operand. -/
def formCtx (op : Nat) : Form := form2 0xD (opVar op 0) (.opt .b .zext)

/-- The form of each instruction word; `none` for the steps no word encodes. -/
def Instr.form : Instr → Option Form
  | .br _ => some (formBr 0x0 0x00 false false .offset)
  | .bri _ => some (formBr 0x0 0x08 true false .no)
  | .call _ => some (formBr 0x0 0x10 false false .offset)
  | .ret _ => some (formBr 0x0 0x18 false false .no)
  | .exit _ => some (formBr 0x0 0x20 true false (.opt .a .zext))
  | .trap _ => some ⟨0x0, 0x28, true, false, false, .opt .a .zext, true, false, .none, true⟩
  | .iadd t _ => some (form2 0x1 (opVar 0 (IntTy.code t)) (.opt .b .sext))
  | .isub t _ => some (form2 0x1 (opVar 1 (IntTy.code t)) (.opt .b .sext))
  | .imul t _ => some (form2 0x1 (opVar 2 (IntTy.code t)) (.opt .b .sext))
  | .imulhi t _ => some (form2 0x1 (opVar 3 (IntTy.code t)) (.opt .b .sext))
  | .imad t _ => some (form3 0x1 (opVar 4 (IntTy.code t)) (.opt .b .sext))
  | .idiv t _ => some (form2 0x1 (opVar 5 (IntTy.code t)) (.opt .b .sext))
  | .irem t _ => some (form2 0x1 (opVar 6 (IntTy.code t)) (.opt .b .sext))
  | .ineg t _ => some (form1 0x1 (opVar 7 (SIntTy.code t)) (.opt .a .sext))
  | .iabs t _ => some (form1 0x1 (opVar 8 (SIntTy.code t)) (.opt .a .sext))
  | .imin t _ => some (form2 0x1 (opVar 9 (IntTy.code t)) (.opt .b .sext))
  | .imax t _ => some (form2 0x1 (opVar 10 (IntTy.code t)) (.opt .b .sext))
  | .lea t sc _ => some (form2 0x1 (opVar 11 (LeaTy.code t ++ sc)) (.opt .b .sext))
  | .iaddc t _ => some (form3 0x1 (opVar 12 (CarryTy.code t)) (.opt .b .sext))
  | .iaddSat t _ => some (form2 0x1 (opVar 13 (IntTy.code t)) (.opt .b .sext))
  | .isubSat t _ => some (form2 0x1 (opVar 14 (IntTy.code t)) (.opt .b .sext))
  | .and n _ => some (form2 0x2 (opVar 0 (Width.code n)) (.opt .b .zext))
  | .or n _ => some (form2 0x2 (opVar 1 (Width.code n)) (.opt .b .zext))
  | .xor n _ => some (form2 0x2 (opVar 2 (Width.code n)) (.opt .b .zext))
  | .andn n _ => some (form2 0x2 (opVar 3 (Width.code n)) (.opt .b .zext))
  | .not n _ => some (form1 0x2 (opVar 4 (Width.code n)) (.opt .a .zext))
  | .shl n _ => some (form2 0x2 (opVar 5 (Width.code n)) (.opt .b .zext))
  | .shr n _ => some (form2 0x2 (opVar 6 (Width.code n)) (.opt .b .zext))
  | .sar n _ => some (form2 0x2 (opVar 7 (Width.code n)) (.opt .b .zext))
  | .rotl n _ => some (form2 0x2 (opVar 8 (Width.code n)) (.opt .b .zext))
  | .rotr n _ => some (form2 0x2 (opVar 9 (Width.code n)) (.opt .b .zext))
  | .popc n _ => some (form1 0x2 (opVar 10 (Width.code n)) (.opt .a .zext))
  | .clz n _ => some (form1 0x2 (opVar 11 (Width.code n)) (.opt .a .zext))
  | .ctz n _ => some (form1 0x2 (opVar 12 (Width.code n)) (.opt .a .zext))
  | .brev n _ => some (form1 0x2 (opVar 13 (Width.code n)) (.opt .a .zext))
  | .bfx n _ => some (form2 0x2 (opVar 14 (Width.code n)) (.opt .b .zext))
  | .bfi n _ => some (form3 0x2 (opVar 15 (Width.code n)) (.opt .b .zext))
  | .bperm n _ => some (form2 0x2 (opVar 16 (Width.code n)) (.opt .b .zext))
  | .icmp c t _ => some (form2 0x2 (opVar (Cmp.op c) (IntTy.code t)) (.opt .b .sext))
  | .isel n _ => some (form3 0x2 (opVar 23 (Width.code n)) (.opt .b .zext))
  | .pand _ => some (form2 0x2 0xC0 (.opt .b .zext))
  | .por _ => some (form2 0x2 0xC8 (.opt .b .zext))
  | .pxor _ => some (form2 0x2 0xD0 (.opt .b .zext))
  | .pnot _ => some (form1 0x2 0xD8 (.opt .a .zext))
  | .pset _ => some (form1 0x2 0xE0 (.opt .a .zext))
  | .pmov _ => some (form1 0x2 0xE8 (.opt .a .zext))
  | .ppack _ => some (form2 0x2 0xF0 (.opt .b .zext))
  | .fadd _ => some (form2 0x3 0x00 (.opt .b .fp32))
  | .fsub _ => some (form2 0x3 0x08 (.opt .b .fp32))
  | .fmul _ => some (form2 0x3 0x10 (.opt .b .fp32))
  | .ffma _ => some (form3 0x3 0x18 (.opt .b .fp32))
  | .fmin _ => some (form2 0x3 0x20 (.opt .b .fp32))
  | .fmax _ => some (form2 0x3 0x28 (.opt .b .fp32))
  | .fabs _ => some (form1 0x3 0x30 (.opt .a .fp32))
  | .fneg _ => some (form1 0x3 0x38 (.opt .a .fp32))
  | .fcmp c _ => some (form2 0x3 (opVar 8 (FCmp.code c)) (.opt .b .fp32))
  | .fsel _ => some (form3 0x3 0x48 (.opt .b .fp32))
  | .fclass _ => some (form1 0x3 0x50 (.opt .a .fp32))
  | .frnd r _ => some (form1 0x3 (opVar 11 (RndLetter.code r)) (.opt .a .fp32))
  | .fscale _ => some (form2 0x3 0x60 (.opt .b .sext))
  | .fcopysign _ => some (form2 0x3 0x68 (.opt .b .fp32))
  | .hadd2 t _ => some (form2 0x4 (opVar 0 (HalfFmt.code t)) .no)
  | .hmul2 t _ => some (form2 0x4 (opVar 1 (HalfFmt.code t)) .no)
  | .hfma2 t _ => some (form3 0x4 (opVar 2 (HalfFmt.code t)) .no)
  | .dot2 t _ => some (form3 0x4 (opVar 3 (HalfFmt.code t)) .no)
  | .dot4 _ => some (form3 0x4 0x20 .no)
  | .dotds t _ => some (form3 0x4 (opVar 5 (ActFmt.code t)) .no)
  | .cvt d s _ => some (form1 0x5 (CvtFmt.code d ++ CvtFmt.code s) (.opt .a (CvtFmt.ext s)))
  | .cvtF32Ds8 _ => some (form1 0x5 0x8D (.opt .a .zext))
  | .dsenc _ => some (form1 0x5 0xD8 (.opt .a .fp32))
  | .pack2 t _ => some (form2 0x5 (0xE#4 ++ PackFmt.code t) (.opt .b .fp32))
  | .unpack2 t _ => some (form2 0x5 (0xF#4 ++ PackFmt.code t) (.opt .b .zext))
  | .rcp _ => some (form1 0x6 0x00 (.opt .a .fp32))
  | .rsq _ => some (form1 0x6 0x08 (.opt .a .fp32))
  | .sqrt _ => some (form1 0x6 0x10 (.opt .a .fp32))
  | .div _ => some (form2 0x6 0x18 (.opt .b .fp32))
  | .exp2 _ => some (form1 0x6 0x20 (.opt .a .fp32))
  | .log2 _ => some (form1 0x6 0x28 (.opt .a .fp32))
  | .sin _ => some (form1 0x6 0x30 (.opt .a .fp32))
  | .cos _ => some (form1 0x6 0x38 (.opt .a .fp32))
  | .tanh _ => some (form1 0x6 0x40 (.opt .a .fp32))
  | .mov _ => some (form1 0x7 0x00 (.opt .a .zext))
  | .movi _ => some (form1 0x7 0x08 (.own .a .sext))
  | .movh _ => some (form2 0x7 0x10 (.opt .b .zext))
  | .fan _ => some (form1 0x7 0x18 (.opt .a .zext))
  | .null _ => some (form0 0x7 0x20 false)
  | .sreg _ => some (form1 0x7 0x28 (.own .a .zext))
  | .ld t sp _ => some (formMem 0x8 (func8 (LdTy.code t).1 (Space.code sp) (LdTy.code t).2) true false false true .load)
  | .st n sp _ => some (formMem 0x8 (func8 2 (StSpace.code sp) (Size.code n)) true true false false .store)
  | .ldv sp _ => some (formMem 0x8 (func8 3 (Space.code sp) 0) true false false true .load)
  | .stv sp _ => some (formMem 0x8 (func8 4 (StSpace.code sp) 0) true true true false .store)
  | .ldNc n _ => some (formMem 0x8 (func8 5 0 (Size.code n)) true false false true .load)
  | .pf _ => some (formMem 0x8 0xC0 true false false false .load)
  | .atomAdd t sp _ => some (formMem 0x9 (func9 0 (AtSpace.code sp) (AtTy.code t)) true true false true .store)
  | .atomSub t sp _ => some (formMem 0x9 (func9 1 (AtSpace.code sp) (AtTy.code t)) true true false true .store)
  | .atomMin t sp _ => some (formMem 0x9 (func9 2 (AtSpace.code sp) (AtTy.code t)) true true false true .store)
  | .atomMax t sp _ => some (formMem 0x9 (func9 3 (AtSpace.code sp) (AtTy.code t)) true true false true .store)
  | .atomAnd n sp _ => some (formMem 0x9 (func9 4 (AtSpace.code sp) (Width.atCode n)) true true false true .store)
  | .atomOr n sp _ => some (formMem 0x9 (func9 5 (AtSpace.code sp) (Width.atCode n)) true true false true .store)
  | .atomXor n sp _ => some (formMem 0x9 (func9 6 (AtSpace.code sp) (Width.atCode n)) true true false true .store)
  | .atomExch n sp _ => some (formMem 0x9 (func9 7 (AtSpace.code sp) (Width.atCode n)) true true false true .store)
  | .atomInc t sp _ => some (formMem 0x9 (func9 8 (AtSpace.code sp) (AtTy.code t)) true true false true .store)
  | .atomDec t sp _ => some (formMem 0x9 (func9 9 (AtSpace.code sp) (AtTy.code t)) true true false true .store)
  | .atomFaddF32 sp _ => some (formMem 0x9 (func9 10 (AtSpace.code sp) 0) true true false true .store)
  | .atomFadd2Bf16 sp _ => some (formMem 0x9 (func9 11 (AtSpace.code sp) 0) true true false true .store)
  | .cas n sp _ => some (formMem 0x9 (func9 12 (AtSpace.code sp) (Width.atCode n)) true true true true .store)
  | .casB128 sp _ => some (formMem 0x9 (func9 12 (AtSpace.code sp) 1) true true false true .store)
  | .fence _ => some (formMem 0x9 0xD0 false false false false .store)
  | .bar _ => some (formBr 0xA 0x00 true false .offset)
  | .barArrive _ => some ⟨0xA, 0x08, true, false, false, .opt .a .zext, true, false, .none, true⟩
  | .barWait _ => some (formBr 0xA 0x10 true false .offset)
  | .coInit _ => some (formMem 0xA 0x18 true true false true .store)
  | .coArrive _ => some (formMem 0xA 0x20 true true false true .store)
  | .coWait _ => some (formBr 0xA 0x28 true true .scopeOffset)
  | .elect _ => some (form0 0xA 0x30 true)
  | .gredAdd t _ => some (form2 0xA (opVar 7 (GredTy.code t)) (.opt .b .zext))
  | .gredMin t _ => some (form2 0xA (opVar 8 (GredTy.code t)) (.opt .b .zext))
  | .gredMax t _ => some (form2 0xA (opVar 9 (GredTy.code t)) (.opt .b .zext))
  | .cpG2v _ => some (formMem 0xB 0x00 true true false true .store)
  | .cpV2g _ => some (formMem 0xB 0x08 true true false true .store)
  | .cpV2v _ => some (formMem 0xB 0x10 true true false true .store)
  | .cpMc _ => some (formMem 0xB 0x18 true true false true .store)
  | .seal _ => some (formMem 0xB 0x20 true true false true .store)
  | .unseal _ => some (formMem 0xB 0x28 true true false true .store)
  | .vmap _ => some (formMem 0xB 0x30 true true false true .store)
  | .vunmap _ => some (formMem 0xB 0x38 true true false true .store)
  | .vflush _ => some (formMem 0xB 0x40 true true false true .store)
  | .gath _ => some (formMem 0xB 0x48 true true false true .store)
  | .collAllred t _ => some (formMem 0xB (opVar 10 (CollTy.code t)) true true false true .store)
  | .collRedsc t _ => some (formMem 0xB (opVar 11 (CollTy.code t)) true true false true .store)
  | .collAllgath _ => some (formMem 0xB 0x62 true true false true .store)
  | .collBcast _ => some (formMem 0xB 0x6A true true false true .store)
  | .seqGemm _ => some (formMem 0xB 0x70 true true false true .store)
  | .seqAttn _ => some (formMem 0xB 0x78 true true false true .store)
  | .frz _ => some (formMem 0xB 0x80 true true false true .store)
  | .thaw _ => some (formMem 0xB 0x88 true true false true .store)
  | .qpost _ => some (formMem 0xB 0x90 true true false true .store)
  | .mmaCfg _ => some (form2 0xC 0x00 (.opt .b .zext))
  | .mma _ => some (form2 0xC 0x08 (.opt .b .zext))
  | .mmaRel _ => some (form1 0xC 0x10 (.opt .a .zext))
  | .mmaClr _ => some (form1 0xC 0x18 (.opt .a .zext))
  | .srd _ => some (form1 0xD 0x00 (.own .a .zext))
  | .swr _ => some (form2 0xD 0x08 (.own .b .zext))
  | .trapRet _ => some (formBr 0xD 0x10 false false .no)
  | .trapSub _ => some (form2 0xD 0x18 (.opt .b .zext))
  | .ctxNew (.fire _) => some (formCtx 4)
  | .ctxGiveQuays (.fire _) | .ctxGiveMemory (.fire _) | .ctxGiveQueue (.fire _) | .ctxGiveEnergy (.fire _) =>
    some (formCtx 5)
  | .ctxTakeQuays (.fire _) | .ctxTakeMemory (.fire _) | .ctxTakeQueue (.fire _) | .ctxTakeEnergy (.fire _) =>
    some (formCtx 6)
  | .ctxMap (.fire _) => some (formCtx 7)
  | .ctxUnmap (.fire _) | .ctxUnmapRenewal (.fire _) => some (formCtx 8)
  | .ctxRun (.fire _) => some (formCtx 9)
  | .ctxStop (.fire _) | .ctxStopEnd (.fire _) | .ctxStopRelease (.fire _) => some (formCtx 10)
  | .enRead _ => some (form2 0xD (opVar 11 0) (.opt .b .zext))
  | .enQuota (.fire _) => some (formCtx 12)
  | .launch _ => some (formMem 0xD 0x68 true false false true .store)
  | .spawn _ => some (formMem 0xD 0x70 true true true true .store)
  | .joinPut _ => some (formMem 0xD 0x78 true true true true .store)
  | .pgreqAckRetry _ | .pgreqAckRefuse _ => some (form2 0xD (opVar 16 0) (.opt .b .zext))
  | .dlogStart (.fire _) | .dlogStop (.fire _) => some (formCtx 17)
  | .partChg (.fire _) => some (formCtx 18)
  | _ => none

/-- The fields of a word form. -/
def Instr.fields : Instr → Option Fields
  | .br w | .bri w | .call w | .ret w | .exit w | .trap w => some w
  | .iadd _ w | .isub _ w | .imul _ w | .imulhi _ w | .imad _ w | .idiv _ w | .irem _ w => some w
  | .ineg _ w | .iabs _ w | .imin _ w | .imax _ w | .lea _ _ w | .iaddc _ w | .iaddSat _ w | .isubSat _ w => some w
  | .and _ w | .or _ w | .xor _ w | .andn _ w | .not _ w | .shl _ w | .shr _ w | .sar _ w | .rotl _ w => some w
  | .rotr _ w | .popc _ w | .clz _ w | .ctz _ w | .brev _ w | .bfx _ w | .bfi _ w | .bperm _ w => some w
  | .icmp _ _ w | .isel _ w | .pand w | .por w | .pxor w | .pnot w | .pset w | .pmov w | .ppack w => some w
  | .fadd w | .fsub w | .fmul w | .ffma w | .fmin w | .fmax w | .fabs w | .fneg w | .fcmp _ w | .fsel w => some w
  | .fclass w | .frnd _ w | .fscale w | .fcopysign w => some w
  | .hadd2 _ w | .hmul2 _ w | .hfma2 _ w | .dot2 _ w | .dot4 w | .dotds _ w => some w
  | .cvt _ _ w | .cvtF32Ds8 w | .dsenc w | .pack2 _ w | .unpack2 _ w => some w
  | .rcp w | .rsq w | .sqrt w | .div w | .exp2 w | .log2 w | .sin w | .cos w | .tanh w => some w
  | .mov w | .movi w | .movh w | .fan w | .null w | .sreg w => some w
  | .ld _ _ w | .st _ _ w | .ldv _ w | .stv _ w | .ldNc _ w | .pf w => some w
  | .atomAdd _ _ w | .atomSub _ _ w | .atomMin _ _ w | .atomMax _ _ w | .atomAnd _ _ w | .atomOr _ _ w => some w
  | .atomXor _ _ w | .atomExch _ _ w | .atomInc _ _ w | .atomDec _ _ w | .atomFaddF32 _ w => some w
  | .atomFadd2Bf16 _ w | .cas _ _ w | .casB128 _ w | .fence w => some w
  | .bar w | .barArrive w | .barWait w | .coInit w | .coArrive w | .coWait w | .elect w => some w
  | .gredAdd _ w | .gredMin _ w | .gredMax _ w => some w
  | .cpG2v w | .cpV2g w | .cpV2v w | .cpMc w | .seal w | .unseal w | .vmap w | .vunmap w | .vflush w => some w
  | .gath w | .collAllred _ w | .collRedsc _ w | .collAllgath w | .collBcast w | .seqGemm w | .seqAttn w => some w
  | .frz w | .thaw w | .qpost w | .mmaCfg w | .mma w | .mmaRel w | .mmaClr w => some w
  | .srd w | .swr w | .trapRet w | .trapSub w | .enRead w | .launch w | .spawn w | .joinPut w => some w
  | .pgreqAckRetry w | .pgreqAckRefuse w => some w
  | .ctxNew (.fire w) | .ctxGiveQuays (.fire w) | .ctxGiveMemory (.fire w) | .ctxGiveQueue (.fire w) => some w
  | .ctxGiveEnergy (.fire w) | .ctxTakeQuays (.fire w) | .ctxTakeMemory (.fire w) | .ctxTakeQueue (.fire w) => some w
  | .ctxTakeEnergy (.fire w) | .ctxMap (.fire w) | .ctxUnmap (.fire w) | .ctxUnmapRenewal (.fire w) => some w
  | .ctxRun (.fire w) | .ctxStop (.fire w) | .ctxStopEnd (.fire w) | .ctxStopRelease (.fire w) => some w
  | .enQuota (.fire w) | .dlogStart (.fire w) | .dlogStop (.fire w) | .partChg (.fire w) => some w
  | _ => none

/-- The instruction that the decoder reads from a word shared by several rows (log entry 7): `ctx.give`, `ctx.take`,
`ctx.unmap`, `ctx.stop` and `dlog` differ only by their descriptor (R407, R408, R410, R412, R415), `pgreq.ack` by
bit 0 of port b (R414). -/
def Instr.canonical : Instr → Instr
  | .ctxGiveMemory (.fire w) | .ctxGiveQueue (.fire w) | .ctxGiveEnergy (.fire w) => .ctxGiveQuays (.fire w)
  | .ctxTakeMemory (.fire w) | .ctxTakeQueue (.fire w) | .ctxTakeEnergy (.fire w) => .ctxTakeQuays (.fire w)
  | .ctxUnmapRenewal (.fire w) => .ctxUnmap (.fire w)
  | .ctxStopEnd (.fire w) | .ctxStopRelease (.fire w) => .ctxStop (.fire w)
  | .dlogStop (.fire w) => .dlogStart (.fire w)
  | .pgreqAckRefuse w => .pgreqAckRetry w
  | i => i

/-- Energy class of a firing (R505). -/
def Instr.energyClass (i : Instr) : Nat :=
  match i with
  | .gredAdd .f32 _ | .gredMin .f32 _ | .gredMax .f32 _ => 1
  | .coInit _ | .coArrive _ | .coWait _ => 4
  | i =>
    match Instr.form i with
    | none => 0
    | some f =>
      match f.cls.toNat with
      | 3 | 4 => 1
      | 5 => 2
      | 6 => 3
      | 8 | 9 | 11 | 12 | 13 => 4
      | _ => 0

end Sys2Proof.Machine
end

