-- ==== Sys2Proof/WellFormed.lean ====
section
/-! DEFINITION. Which instructions are well formed: for a word, the rules of R175 to R179, R184 and the form tables
that concern the word alone; for a step of the hardware, that the objects it names exist. -/

namespace Sys2Proof.Machine

/-- Kind of an operand field (R176). -/
def Operand.kind : Operand → BitVec 2
  | .empty => 0 | .target _ _ => 1 | .slot _ => 2 | .imm _ => 3

/-- The 20-bit immediate of a field, 0 for another kind. -/
def Operand.immOr0 : Operand → BitVec 20
  | .imm v => v
  | _ => 0

/-- A predicate guard names p0 to p47 (R175). -/
def Guard.predOk : Guard → Bool
  | .ifTrue p | .ifFalse p => p.toNat < 48
  | _ => true

/-- GMODE 11 needs port g free (R184). -/
def guardPortOk (f : Form) (w : Fields) : Bool := !(w.guard == .port && f.rg)

/-- An immediate stands in F2 only (R176). -/
def immPlaceOk (w : Fields) : Bool := Operand.kind w.f0 != 3 && Operand.kind w.f1 != 3

/-- A field that names a destination. -/
def Operand.isDest (o : Operand) : Bool := Operand.kind o == 1 || Operand.kind o == 2

/-- A form with no result names no destination (R176). -/
def destOk (f : Form) (w : Fields) : Bool :=
  f.result || !(Operand.isDest w.f0 || Operand.isDest w.f1 || Operand.isDest w.f2)

/-- F2 holds what the form allows there (R177, R325). -/
def f2Ok (f : Form) (w : Fields) : Bool :=
  match f.imm with
  | .no => Operand.kind w.f2 != 3 && (!f.f2Plain || w.f2 == .empty)
  | .opt _ _ => !f.f2Plain || !Operand.isDest w.f2
  | .own _ _ | .offset | .scopeOffset | .lsid => Operand.kind w.f2 == 3

/-- The rules shared by every form. -/
def fieldsOk (f : Form) (w : Fields) : Bool :=
  Guard.predOk w.guard && guardPortOk f w && immPlaceOk w && destOk f w && f2Ok f w

/-- Bits 11:0 of F2 are 0 (R282, R325). -/
def lowOk (w : Fields) : Bool := (Operand.immOr0 w.f2).extractLsb' 0 12 == 0

/-- The selector of `srd` (R396): code in bits 3:0, word in bits 12:8, other bits 0, the word 0 except for code 2. -/
def srdSelOk (w : Fields) : Bool :=
  let v := Operand.immOr0 w.f2
  let code := (v.extractLsb' 0 4).toNat
  let word := (v.extractLsb' 8 5).toNat
  v.extractLsb' 4 4 == 0 && v.extractLsb' 13 7 == 0 && code ≤ 9 && (if code = 2 then word ≤ 23 else word = 0)

/-- The selector of `swr` (R396). -/
def swrSelOk (w : Fields) : Bool :=
  let v := Operand.immOr0 w.f2
  v.extractLsb' 4 16 == 0 && (v.extractLsb' 0 4).toNat ≤ 9

/-- The rules of single forms: reserved F2 bits, selectors, `cvt` formats (R179, R182, R219, R282, R325, R396). -/
def Instr.extraOk : Instr → Bool
  | .cvt d s _ => d != s
  | .sreg w => (Operand.immOr0 w.f2).toNat ≤ 16
  | .fence w => (Operand.immOr0 w.f2).extractLsb' 0 10 == 0
  | .srd w => srdSelOk w
  | .swr w => swrSelOk w
  | .coInit w | .coArrive w | .launch w | .spawn w | .joinPut w => lowOk w
  | .cpG2v w | .cpV2g w | .cpV2v w | .cpMc w | .seal w | .unseal w | .vmap w | .vunmap w | .vflush w => lowOk w
  | .gath w | .collAllred _ w | .collRedsc _ w | .collAllgath w | .collBcast w | .seqGemm w | .seqAttn w => lowOk w
  | .frz w | .thaw w | .qpost w => lowOk w
  | _ => true

/-- The objects a step of the hardware names exist: quays 0 to 255, planes 0 to 3, slots 0 to 4095, dies 0 to 7,
contexts 0 to 4095, queues 0 to 63, partitions 0 to 31, pairs 0 to 127, format regions 0 to 15, slices 0 to 127,
waiting-vector entries 0 to 63 (R13, R14, R61, R160, R345, R357, R416, R422). -/
def Instr.eventOk : Instr → Bool
  | .cmdLaunch c q | .cmdWait c q | .waitReread c q | .cmdSignalWrite c q | .cmdSignalAdd c q | .cmdCopyG2v c q
  | .cmdCopyV2g c q | .cmdCopyV2v c q | .cmdCopyMc c q | .cmdCollAllredBf16 c q | .cmdCollAllredF32 c q
  | .cmdCollRedscBf16 c q | .cmdCollRedscF32 c q | .cmdCollAllgath c q | .cmdCollBcast c q | .cmdFreeze c q
  | .cmdThaw c q | .queueWake c q => c < 4096 && q < 64
  | .persistentRequest h _ => h < 520
  | .walkStart d | .walkComplete d _ => d < 8
  | .translationExpiry q _ => q < 256
  | .planeChoose q p | .blockConfigure q p | .runOpenTimeout q p | .drainTimeout q p => q < 256 && p < 4
  | .threadAdmit q p s => q < 256 && p < 4 && s < 4096
  | .entryAged q e | .coalesceHoldEnd q e | .blockPinned q e => q < 256 && e < 64
  | .bollardWeightUpdate q b _ | .bollardUncorrectable q b => q < 256 && b < 68
  | .storePerform q s | .barrierArrival q s | .coWaitWake q s | .coWaitPoll q s => q < 256 && s < 4096
  | .scoreboardRetire q _ | .mappedFill q _ => q < 256
  | .workgroupDispatch _ qs => qs.all (· < 256)
  | .matrixQueueHead p | .endOfRow p | .nodeRelease p | .endOfOperation p => p < 128
  | .fmtRegionEnable d r _ | .fmtRegionDisable d r _ | .fmtRegionBusyClear d r => d < 8 && r < 16
  | .netpolWrite p _ => p < 32
  | .controlWindowWrite d _ _ | .thermalThrottle d _ | .thermalTrip d _ => d < 8
  | .timeSliceEnd p => p < 32
  | .exhaustionPreempt c => c < 4096
  | .patrolScrub sl _ => sl < 128
  | .linkFrame p _ | .peerLost p | .swackTimeout _ p => p < 256
  | .powerOnReset f => f ≤ 7
  | .preemptStopReached _ (.fabric q) | .preemptStopReached _ (.engines q) => q < 256
  | .preemptStopReached _ (.queueProcessor d) => d < 8
  | _ => true

/-- A well-formed instruction. -/
def Instr.wf (i : Instr) : Bool :=
  match Instr.form i, Instr.fields i with
  | some f, some w => fieldsOk f w && Instr.extraOk i
  | _, _ => Instr.eventOk i

end Sys2Proof.Machine
end

