-- ==== Sys2Proof/Decode.lean ====
section
/-! DEFINITION. Decoding of 96-bit instruction words, total, refusing by name (R175 to R183), and the encoder. -/

namespace Sys2Proof.Machine

/-- Why a word is no instruction (R184). -/
inductive DecodeError where
  | class14
  | headerMark
  | unassigned (cls : BitVec 4) (func : BitVec 8)
  | reservedBits
  | gpredNotZero
  | gpredRange
  | guardPortInUse
  | fieldReserved (field : Nat)
  | portEleven (field : Nat)
  | immediatePlace
  | destinationOfNoResult
  | f2Kind
  | formRule
  deriving DecidableEq, Repr, Inhabited

/-- TI (R181). -/
def IntTy.ofCode (v : BitVec 3) : IntTy :=
  match v.toNat with
  | 0 => .s32 | 1 => .n32 | 2 => .s64 | 3 => .n64 | 4 => .s16 | 5 => .n16 | 6 => .s8 | _ => .n8

/-- Signed TI (R181). -/
def SIntTy.ofCode (v : BitVec 3) : Option SIntTy :=
  match v.toNat with
  | 0 => some .s32 | 2 => some .s64 | 4 => some .s16 | 6 => some .s8 | _ => none

/-- W (R181). -/
def Width.ofCode (v : BitVec 3) : Option Width :=
  match v.toNat with
  | 0 => some .b32 | 1 => some .b64 | _ => none

/-- Relation of `fcmp` (R226). -/
def FCmp.ofCode (v : BitVec 3) : FCmp :=
  match v.toNat with
  | 0 => .eq | 1 => .ne | 2 => .lt | 3 => .le | 4 => .gt | 5 => .ge | 6 => .un | _ => .or

/-- Mode of `frnd` (R181). -/
def RndLetter.ofCode (v : BitVec 3) : Option RndLetter :=
  match v.toNat with
  | 0 => some .n | 1 => some .z | 2 => some .p | 3 => some .m | _ => none

/-- Half formats (R181). -/
def HalfFmt.ofCode (v : BitVec 3) : Option HalfFmt :=
  match v.toNat with
  | 0 => some .f16 | 1 => some .bf16 | _ => none

/-- Format codes of class 0x5 (R182). -/
def CvtFmt.ofCode (v : BitVec 4) : Option CvtFmt :=
  match v.toNat with
  | 0 => some .s32 | 1 => some .n32 | 2 => some .s64 | 3 => some .n64 | 4 => some .s16 | 5 => some .n16
  | 6 => some .s8 | 7 => some .n8 | 8 => some .f32 | 9 => some .f16 | 10 => some .bf16 | 11 => some .f8a
  | 12 => some .f8b | _ => none

/-- Formats of `pack2` and `unpack2` (R182). -/
def PackFmt.ofCode (v : BitVec 4) : Option PackFmt :=
  match v.toNat with
  | 9 => some .f16 | 10 => some .bf16 | 11 => some .f8a | 12 => some .f8b | _ => none

/-- SPACE of class 0x8 (R183). -/
def Space.ofCode (v : BitVec 3) : Option Space :=
  match v.toNat with
  | 0 => some .g | 1 => some .v | 2 => some .vl | 3 => some .k | 4 => some .l | _ => none

/-- SPACE of a store (R183). -/
def StSpace.ofCode (v : BitVec 3) : Option StSpace :=
  match v.toNat with
  | 0 => some .g | 1 => some .v | 2 => some .vl | 4 => some .l | _ => none

/-- SPACE of class 0x9 (R183). -/
def AtSpace.ofCode (v : BitVec 2) : Option AtSpace :=
  match v.toNat with
  | 0 => some .g | 1 => some .v | 2 => some .vl | _ => none

/-- SIZE (R183). -/
def Size.ofCode (v : BitVec 2) : Size :=
  match v.toNat with
  | 0 => .b8 | 1 => .b16 | 2 => .b32 | _ => .b64

/-- TYPE of the integer atomics (R183). -/
def AtTy.ofCode (v : BitVec 2) : AtTy :=
  match v.toNat with
  | 0 => .s32 | 1 => .n32 | 2 => .s64 | _ => .n64

/-- TYPE of the bitwise atomics (R183). -/
def Width.ofAtCode (v : BitVec 2) : Option Width :=
  match v.toNat with
  | 0 => some .b32 | 2 => some .b64 | _ => none

/-- VAR 000 alone (R181). -/
def only (v : BitVec 3) (i : Instr) : Option Instr := if v = 0 then some i else none

/-- Class 0x0 (R181). -/
def decode0 (op : Nat) (v : BitVec 3) (w : Fields) : Option Instr :=
  match op with
  | 0 => only v (.br w) | 1 => only v (.bri w) | 2 => only v (.call w) | 3 => only v (.ret w)
  | 4 => only v (.exit w) | 5 => only v (.trap w)
  | _ => none

/-- Class 0x1 (R181). -/
def decode1 (op : Nat) (v : BitVec 3) (w : Fields) : Option Instr :=
  match op with
  | 0 => some (.iadd (IntTy.ofCode v) w)
  | 1 => some (.isub (IntTy.ofCode v) w)
  | 2 => some (.imul (IntTy.ofCode v) w)
  | 3 => some (.imulhi (IntTy.ofCode v) w)
  | 4 => some (.imad (IntTy.ofCode v) w)
  | 5 => some (.idiv (IntTy.ofCode v) w)
  | 6 => some (.irem (IntTy.ofCode v) w)
  | 7 => (SIntTy.ofCode v).map (.ineg · w)
  | 8 => (SIntTy.ofCode v).map (.iabs · w)
  | 9 => some (.imin (IntTy.ofCode v) w)
  | 10 => some (.imax (IntTy.ofCode v) w)
  | 11 => some (.lea (if v.extractLsb' 2 1 = 0 then .s32 else .n32) (v.extractLsb' 0 2) w)
  | 12 => if v = 1 then some (.iaddc .n32 w) else if v = 3 then some (.iaddc .n64 w) else none
  | 13 => some (.iaddSat (IntTy.ofCode v) w)
  | 14 => some (.isubSat (IntTy.ofCode v) w)
  | _ => none

/-- Class 0x2 (R181). -/
def decode2 (op : Nat) (v : BitVec 3) (w : Fields) : Option Instr :=
  match op with
  | 0 => (Width.ofCode v).map (.and · w)
  | 1 => (Width.ofCode v).map (.or · w)
  | 2 => (Width.ofCode v).map (.xor · w)
  | 3 => (Width.ofCode v).map (.andn · w)
  | 4 => (Width.ofCode v).map (.not · w)
  | 5 => (Width.ofCode v).map (.shl · w)
  | 6 => (Width.ofCode v).map (.shr · w)
  | 7 => (Width.ofCode v).map (.sar · w)
  | 8 => (Width.ofCode v).map (.rotl · w)
  | 9 => (Width.ofCode v).map (.rotr · w)
  | 10 => (Width.ofCode v).map (.popc · w)
  | 11 => (Width.ofCode v).map (.clz · w)
  | 12 => (Width.ofCode v).map (.ctz · w)
  | 13 => (Width.ofCode v).map (.brev · w)
  | 14 => (Width.ofCode v).map (.bfx · w)
  | 15 => (Width.ofCode v).map (.bfi · w)
  | 16 => (Width.ofCode v).map (.bperm · w)
  | 17 => some (.icmp .eq (IntTy.ofCode v) w)
  | 18 => some (.icmp .ne (IntTy.ofCode v) w)
  | 19 => some (.icmp .lt (IntTy.ofCode v) w)
  | 20 => some (.icmp .le (IntTy.ofCode v) w)
  | 21 => some (.icmp .gt (IntTy.ofCode v) w)
  | 22 => some (.icmp .ge (IntTy.ofCode v) w)
  | 23 => (Width.ofCode v).map (.isel · w)
  | 24 => only v (.pand w) | 25 => only v (.por w) | 26 => only v (.pxor w) | 27 => only v (.pnot w)
  | 28 => only v (.pset w) | 29 => only v (.pmov w) | 30 => only v (.ppack w)
  | _ => none

/-- Class 0x3 (R181). -/
def decode3 (op : Nat) (v : BitVec 3) (w : Fields) : Option Instr :=
  match op with
  | 0 => only v (.fadd w) | 1 => only v (.fsub w) | 2 => only v (.fmul w) | 3 => only v (.ffma w)
  | 4 => only v (.fmin w) | 5 => only v (.fmax w) | 6 => only v (.fabs w) | 7 => only v (.fneg w)
  | 8 => some (.fcmp (FCmp.ofCode v) w)
  | 9 => only v (.fsel w) | 10 => only v (.fclass w)
  | 11 => (RndLetter.ofCode v).map (.frnd · w)
  | 12 => only v (.fscale w) | 13 => only v (.fcopysign w)
  | _ => none

/-- Class 0x4 (R181). -/
def decode4 (op : Nat) (v : BitVec 3) (w : Fields) : Option Instr :=
  match op with
  | 0 => (HalfFmt.ofCode v).map (.hadd2 · w)
  | 1 => (HalfFmt.ofCode v).map (.hmul2 · w)
  | 2 => (HalfFmt.ofCode v).map (.hfma2 · w)
  | 3 => (HalfFmt.ofCode v).map (.dot2 · w)
  | 4 => only v (.dot4 w)
  | 5 => if v = 0 then some (.dotds .f8a w) else if v = 1 then some (.dotds .f8b w) else none
  | _ => none

/-- Class 0x5 (R182). -/
def decode5 (dst src : BitVec 4) (w : Fields) : Option Instr :=
  if dst = 0xE then (PackFmt.ofCode src).map (.pack2 · w)
  else if dst = 0xF then (PackFmt.ofCode src).map (.unpack2 · w)
  else if dst = 8 ∧ src = 0xD then some (.cvtF32Ds8 w)
  else if dst = 0xD ∧ src = 8 then some (.dsenc w)
  else if dst = src then none
  else
    match CvtFmt.ofCode dst, CvtFmt.ofCode src with
    | some d, some s => some (.cvt d s w)
    | _, _ => none

/-- Class 0x6 (R181). -/
def decode6 (op : Nat) (v : BitVec 3) (w : Fields) : Option Instr :=
  match op with
  | 0 => only v (.rcp w) | 1 => only v (.rsq w) | 2 => only v (.sqrt w) | 3 => only v (.div w)
  | 4 => only v (.exp2 w) | 5 => only v (.log2 w) | 6 => only v (.sin w) | 7 => only v (.cos w)
  | 8 => only v (.tanh w)
  | _ => none

/-- Class 0x7 (R181). -/
def decode7 (op : Nat) (v : BitVec 3) (w : Fields) : Option Instr :=
  match op with
  | 0 => only v (.mov w) | 1 => only v (.movi w) | 2 => only v (.movh w) | 3 => only v (.fan w)
  | 4 => only v (.null w) | 5 => only v (.sreg w)
  | _ => none

/-- Sign-extending loads (R183). -/
def signedLd (sz : BitVec 2) : Option LdTy :=
  match sz.toNat with
  | 0 => some .s8 | 1 => some .s16 | 2 => some .s32 | _ => none

/-- Zero-extending loads (R183). -/
def unsignedLd (sz : BitVec 2) : LdTy :=
  match sz.toNat with
  | 0 => .n8 | 1 => .n16 | 2 => .n32 | _ => .n64

/-- Class 0x8 (R183). -/
def decode8 (op : BitVec 3) (sp : BitVec 3) (sz : BitVec 2) (w : Fields) : Option Instr :=
  match op.toNat with
  | 0 => (Space.ofCode sp).map (.ld (unsignedLd sz) · w)
  | 1 =>
    match signedLd sz with
    | some t => (Space.ofCode sp).map (.ld t · w)
    | none => none
  | 2 => (StSpace.ofCode sp).map (.st (Size.ofCode sz) · w)
  | 3 => if sz = 0 then (Space.ofCode sp).map (.ldv · w) else none
  | 4 => if sz = 0 then (StSpace.ofCode sp).map (.stv · w) else none
  | 5 => if sp = 0 then some (.ldNc (Size.ofCode sz) w) else none
  | 6 => if sp = 0 ∧ sz = 0 then some (.pf w) else none
  | _ => none

/-- Class 0x9 (R183). -/
def decode9 (op : BitVec 4) (sp ty : BitVec 2) (w : Fields) : Option Instr :=
  match op.toNat with
  | 0 => (AtSpace.ofCode sp).map (.atomAdd (AtTy.ofCode ty) · w)
  | 1 => (AtSpace.ofCode sp).map (.atomSub (AtTy.ofCode ty) · w)
  | 2 => (AtSpace.ofCode sp).map (.atomMin (AtTy.ofCode ty) · w)
  | 3 => (AtSpace.ofCode sp).map (.atomMax (AtTy.ofCode ty) · w)
  | 4 => match Width.ofAtCode ty with | some n => (AtSpace.ofCode sp).map (.atomAnd n · w) | none => none
  | 5 => match Width.ofAtCode ty with | some n => (AtSpace.ofCode sp).map (.atomOr n · w) | none => none
  | 6 => match Width.ofAtCode ty with | some n => (AtSpace.ofCode sp).map (.atomXor n · w) | none => none
  | 7 => match Width.ofAtCode ty with | some n => (AtSpace.ofCode sp).map (.atomExch n · w) | none => none
  | 8 => (AtSpace.ofCode sp).map (.atomInc (AtTy.ofCode ty) · w)
  | 9 => (AtSpace.ofCode sp).map (.atomDec (AtTy.ofCode ty) · w)
  | 10 => if ty = 0 then (AtSpace.ofCode sp).map (.atomFaddF32 · w) else none
  | 11 => if ty = 0 then (AtSpace.ofCode sp).map (.atomFadd2Bf16 · w) else none
  | 12 =>
    if ty = 1 then (AtSpace.ofCode sp).map (.casB128 · w)
    else match Width.ofAtCode ty with | some n => (AtSpace.ofCode sp).map (.cas n · w) | none => none
  | 13 => if sp = 0 ∧ ty = 0 then some (.fence w) else none
  | _ => none

/-- `gred` types (R181). -/
def gredTy (v : BitVec 3) : Option GredTy := if v = 0 then some .f32 else if v = 1 then some .s32 else none

/-- Reducing collective types (R181). -/
def collTy (v : BitVec 3) : Option CollTy := if v = 0 then some .bf16 else if v = 1 then some .f32 else none

/-- Class 0xA (R181). -/
def decodeA (op : Nat) (v : BitVec 3) (w : Fields) : Option Instr :=
  match op with
  | 0 => only v (.bar w) | 1 => only v (.barArrive w) | 2 => only v (.barWait w) | 3 => only v (.coInit w)
  | 4 => only v (.coArrive w) | 5 => only v (.coWait w) | 6 => only v (.elect w)
  | 7 => (gredTy v).map (.gredAdd · w)
  | 8 => (gredTy v).map (.gredMin · w)
  | 9 => (gredTy v).map (.gredMax · w)
  | _ => none

/-- Class 0xB (R181). -/
def decodeB (op : Nat) (v : BitVec 3) (w : Fields) : Option Instr :=
  match op with
  | 0 => only v (.cpG2v w) | 1 => only v (.cpV2g w) | 2 => only v (.cpV2v w) | 3 => only v (.cpMc w)
  | 4 => only v (.seal w) | 5 => only v (.unseal w) | 6 => only v (.vmap w) | 7 => only v (.vunmap w)
  | 8 => only v (.vflush w) | 9 => only v (.gath w)
  | 10 => (collTy v).map (.collAllred · w)
  | 11 => (collTy v).map (.collRedsc · w)
  | 12 => if v = 2 then some (.collAllgath w) else none
  | 13 => if v = 2 then some (.collBcast w) else none
  | 14 => only v (.seqGemm w) | 15 => only v (.seqAttn w) | 16 => only v (.frz w) | 17 => only v (.thaw w)
  | 18 => only v (.qpost w)
  | _ => none

/-- Class 0xC (R181). -/
def decodeC (op : Nat) (v : BitVec 3) (w : Fields) : Option Instr :=
  match op with
  | 0 => only v (.mmaCfg w) | 1 => only v (.mma w) | 2 => only v (.mmaRel w) | 3 => only v (.mmaClr w)
  | _ => none

/-- Class 0xD (R181): a word shared by several rows of the table gives the row of `Instr.canonical`. -/
def decodeD (op : Nat) (v : BitVec 3) (w : Fields) : Option Instr :=
  match op with
  | 0 => only v (.srd w) | 1 => only v (.swr w) | 2 => only v (.trapRet w) | 3 => only v (.trapSub w)
  | 4 => only v (.ctxNew (.fire w)) | 5 => only v (.ctxGiveQuays (.fire w)) | 6 => only v (.ctxTakeQuays (.fire w))
  | 7 => only v (.ctxMap (.fire w)) | 8 => only v (.ctxUnmap (.fire w)) | 9 => only v (.ctxRun (.fire w))
  | 10 => only v (.ctxStop (.fire w)) | 11 => only v (.enRead w) | 12 => only v (.enQuota (.fire w))
  | 13 => only v (.launch w) | 14 => only v (.spawn w) | 15 => only v (.joinPut w)
  | 16 => only v (.pgreqAckRetry w) | 17 => only v (.dlogStart (.fire w)) | 18 => only v (.partChg (.fire w))
  | _ => none

/-- The instruction of a class and function (R180 to R183). -/
def decodeOp (cls : BitVec 4) (func : BitVec 8) (w : Fields) : Except DecodeError Instr :=
  let op := (func.extractLsb' 3 5).toNat
  let v := func.extractLsb' 0 3
  let r : Option Instr :=
    match cls.toNat with
    | 0 => decode0 op v w | 1 => decode1 op v w | 2 => decode2 op v w | 3 => decode3 op v w
    | 4 => decode4 op v w | 5 => decode5 (func.extractLsb' 4 4) (func.extractLsb' 0 4) w | 6 => decode6 op v w
    | 7 => decode7 op v w
    | 8 => decode8 (func.extractLsb' 5 3) (func.extractLsb' 2 3) (func.extractLsb' 0 2) w
    | 9 => decode9 (func.extractLsb' 4 4) (func.extractLsb' 2 2) (func.extractLsb' 0 2) w
    | 10 => decodeA op v w | 11 => decodeB op v w | 12 => decodeC op v w | 13 => decodeD op v w
    | _ => none
  if cls = 14 then .error .class14
  else if cls = 15 then .error .headerMark
  else
    match r with
    | some i => .ok i
    | none => .error (.unassigned cls func)

/-- Port code of a target (R176): 11 is refused. -/
def Port.ofCode (v : BitVec 2) : Option Port :=
  match v.toNat with
  | 0 => some .a | 1 => some .b | 2 => some .g | _ => none

/-- Port code (R176). -/
def Port.code : Port → BitVec 2
  | .a => 0 | .b => 1 | .g => 2

/-- An operand field (R176). -/
def decodeOperand (n : Nat) (v : BitVec 22) : Except DecodeError Operand :=
  match (v.extractLsb' 20 2).toNat with
  | 0 => if v.extractLsb' 0 20 = 0 then .ok .empty else .error (.fieldReserved n)
  | 1 =>
    if v.extractLsb' 19 1 = 0 ∧ v.extractLsb' 0 10 = 0 then
      match Port.ofCode (v.extractLsb' 10 2) with
      | some p => .ok (.target (v.extractLsb' 12 7) p)
      | none => .error (.portEleven n)
    else .error (.fieldReserved n)
  | 2 => if v.extractLsb' 5 15 = 0 then .ok (.slot (v.extractLsb' 0 5)) else .error (.fieldReserved n)
  | _ => .ok (.imm (v.extractLsb' 0 20))

/-- GMODE and GPRED (R175). -/
def decodeGuard (mode : BitVec 2) (p : BitVec 6) : Except DecodeError Guard :=
  match mode.toNat with
  | 0 => if p = 0 then .ok .none else .error .gpredNotZero
  | 1 => if p.toNat < 48 then .ok (.ifTrue p) else .error .gpredRange
  | 2 => if p.toNat < 48 then .ok (.ifFalse p) else .error .gpredRange
  | _ => if p = 0 then .ok .port else .error .gpredNotZero

/-- The fields of a word (R175). -/
def decodeFields (w : Word96) : Except DecodeError Fields :=
  if w.extractLsb' 66 4 = 0 then
    match decodeGuard (w.extractLsb' 82 2) (w.extractLsb' 76 6), decodeOperand 0 (w.extractLsb' 44 22),
      decodeOperand 1 (w.extractLsb' 22 22), decodeOperand 2 (w.extractLsb' 0 22) with
    | .ok g, .ok f0, .ok f1, .ok f2 => .ok ⟨g, w.extractLsb' 74 2, w.extractLsb' 70 4, f0, f1, f2⟩
    | .error e, _, _, _ => .error e
    | _, .error e, _, _ => .error e
    | _, _, .error e, _ => .error e
    | _, _, _, .error e => .error e
  else .error .reservedBits

/-- The rules of a form that a decoded word must meet (R176, R177, R184). -/
def checkForm (i : Instr) : Except DecodeError Instr :=
  match Instr.form i, Instr.fields i with
  | some f, some w =>
    if guardPortOk f w = false then .error .guardPortInUse
    else if immPlaceOk w = false then .error .immediatePlace
    else if destOk f w = false then .error .destinationOfNoResult
    else if f2Ok f w = false then .error .f2Kind
    else if Instr.extraOk i = false then .error .formRule
    else .ok i
  | _, _ => .error .formRule

/-- The instruction of a 96-bit word, or the reason there is none. -/
def decodeWord (w : Word96) : Except DecodeError Instr :=
  match decodeFields w with
  | .error e => .error e
  | .ok fs =>
    match decodeOp (w.extractLsb' 92 4) (w.extractLsb' 84 8) fs with
    | .error e => .error e
    | .ok i => checkForm i

/-- GMODE and GPRED (R175). -/
def Guard.bits : Guard → BitVec 2 × BitVec 6
  | .none => (0, 0) | .ifTrue p => (1, p) | .ifFalse p => (2, p) | .port => (3, 0)

/-- An operand field (R176). -/
def Operand.bits : Operand → BitVec 22
  | .empty => 0
  | .target i p => 1#2 ++ 0#1 ++ i ++ Port.code p ++ 0#10
  | .slot n => 2#2 ++ 0#15 ++ n
  | .imm v => 3#2 ++ v

/-- A word from its class, function and fields (R175). -/
def encodeFields (cls : BitVec 4) (func : BitVec 8) (w : Fields) : Word96 :=
  cls ++ func ++ (Guard.bits w.guard).1 ++ (Guard.bits w.guard).2 ++ w.lat ++ w.grp ++ 0#4 ++
    Operand.bits w.f0 ++ Operand.bits w.f1 ++ Operand.bits w.f2

/-- The word of an instruction; `none` for the steps no word encodes. -/
def Instr.encode (i : Instr) : Option Word96 :=
  match Instr.form i, Instr.fields i with
  | some f, some w => some (encodeFields f.cls f.func w)
  | _, _ => none

/-- Little-endian number of a byte list (R4). -/
def leNat : List Byte → Nat
  | [] => 0
  | b :: bs => b.toNat + 256 * leNat bs

/-- The `n` low bytes of a number, little-endian (R4). -/
def leBytes : Nat → Nat → List Byte
  | 0, _ => []
  | n + 1, v => BitVec.ofNat 8 v :: leBytes n (v / 256)

/-- A 96-bit word from its twelve bytes in memory: bits 31:0 at the lowest address, then 63:32, then 95:64 (R4, R5). -/
def wordOfBytes (b : List Byte) : Word96 := BitVec.ofNat 96 (leNat (b.take 12))

/-- The twelve bytes of a word in memory (R4, R5). -/
def bytesOfWord (w : Word96) : List Byte := leBytes 12 w.toNat

end Sys2Proof.Machine

namespace Sys2Proof

/-- What the decoder reads from a word whose table bits are `w`: the row's `nbits` bits, zeros above, laid out as the
machine stores them and read back (log entry 7 for words shared by several rows). -/
def decodeTableWord (nbits w : Nat) : Option Instr :=
  match Machine.decodeWord (Machine.wordOfBytes (Machine.leBytes 12 (w % 2 ^ nbits))) with
  | .ok i => some i
  | .error _ => none

end Sys2Proof
end

