-- ==== Sys2Proof/Machine/State.lean ====
section
/-! DEFINITION. The state of the module: plain data, everything the manual gives the machine (INVENTORY.md lists the
rule of each field), and the state after reset (R454). -/

namespace Sys2Proof.Machine

/-- Why the machine stops. -/
inductive Fault where
  /-- Raised by `step` when a configured plane holds a word that is no instruction (R184 refuses such a block at
  configuration, so only a state that no configuration produces reaches it): safe. -/
  | illegalWord
  deriving DecidableEq, Repr, Inhabited

/-- Why an instruction has no meaning. -/
inductive Refusal where
  /-- Raised by an arm of `exec` whose instruction has no meaning yet; safe. -/
  | notModelled (mnemonic : String)
  deriving DecidableEq, Repr, Inhabited

/-- Bytes of a memory, addresses strictly rising, none equal to the byte an unlisted address reads as. -/
abbrev Mem := List Host.Cell

/-- A token (R164): the tag is that of the pass it belongs to. -/
structure Tok where
  data : Word := 0
  null : Bool := false
  notReady : Bool := false
  poison : Bool := false
  deriving DecidableEq, Repr, Inhabited

/-! ### Blocks and passes -/

/-- A block as fetched (R171): headers, read entries, write entries, instruction words. -/
structure Block where
  h0 : Word96 := 0
  h1 : Word96 := 0
  reads : List (BitVec 32) := []
  writes : List (BitVec 32) := []
  words : List Word96 := []
  deriving DecidableEq, Repr, Inhabited

/-- What has reached a data or guard port (R186): the first non-null token and the nulls so far. -/
structure PortCell where
  idx : Nat
  port : Port
  val : Option Tok := none
  nulls : Nat := 0
  deriving DecidableEq, Repr, Inhabited

/-- What has reached a write slot (R186): also the highest producer index that delivered non-null, and whether a second
non-null token came. -/
structure SlotCell where
  k : Nat
  val : Option Tok := none
  nulls : Nat := 0
  high : Nat := 0
  many : Bool := false
  deriving DecidableEq, Repr, Inhabited

/-- A recorded trap (R366, R367). -/
structure TrapNote where
  cause : BitVec 8
  idx : Nat := 0x7F
  code : BitVec 16 := 0
  addr : Word := 0
  word : BitVec 8 := 0
  opv : BitVec 3 := 0
  opa : Word := 0
  opb : Word := 0
  opg : Word := 0
  fpx : BitVec 5 := 0
  deriving DecidableEq, Repr, Inhabited

/-- A location of memory (R56, R135): a global physical address or a byte of a vault. -/
inductive Loc where
  | glob (pa : Nat)
  | vault (quay off : Nat)
  deriving DecidableEq, Repr, Inhabited

/-- A write of a thread that leaves at commit (R270, R335, R336, R339, R340, R343, R414). -/
inductive WriteKind where
  | store
  | coInit (setting : Word)
  | coArrive (status : BitVec 8)
  | spawn (code counts : Word)
  | joinPut (slot : Nat) (value : Half)
  | launch
  | pgAck (reqid : BitVec 16) (refuse : Bool)
  | barArrive (b : Nat)
  | remoteHold (tag : Nat) (last : Bool)
  deriving DecidableEq, Repr, Inhabited

/-- A write waiting in the block store buffer, or released and not yet performed: `release` where it keeps a hold past
its commit (R508), `atom` where it is an atomic's, which later accesses of its thread follow (R301). -/
structure PendWrite where
  id : Nat := 0
  kind : WriteKind
  lsid : Nat := 0
  idx : Nat := 0
  loc : Loc := .glob 0
  va : Word := 0
  gen : BitVec 8 := 0
  bytes : List Byte := []
  poison : Bool := false
  scope : BitVec 3 := 0
  release : Bool := false
  atom : Bool := false
  ctx : Nat := 0
  waiting : Bool := false
  deriving DecidableEq, Repr, Inhabited

/-- A shadow of a location held by an atomic (R272). -/
structure Shadow where
  lsid : Nat := 0
  idx : Nat := 0
  loc : Loc := .glob 0
  va : Word := 0
  gen : BitVec 8 := 0
  bytes : List Byte := []
  since : Nat := 0
  release : Bool := false
  scope : BitVec 3 := 0
  deriving DecidableEq, Repr, Inhabited

/-- Which branch fired (R194). -/
inductive BranchKind where
  | plain
  | call (ra : Word)
  | ret
  | exit (status : BitVec 8)
  | bar (b : Nat)
  | barWait (b : Nat)
  | coWait (obj : Word) (loc : Loc) (old : Bool) (scope : BitVec 3)
  | trapRet
  deriving DecidableEq, Repr, Inhabited

/-- A branch that fired non-null (R193). -/
structure Fired where
  idx : Nat
  target : Word
  kind : BranchKind
  deriving DecidableEq, Repr, Inhabited

/-- Engine operations and others that hold an operation-table entry (R116, R244, R343, R403). -/
inductive OpKind where
  | cpG2v | cpV2g | cpV2v | cpMc
  | seal | unseal | vmap | vunmap | vflush
  | gath
  | allred (t : CollTy) | redsc (t : CollTy) | allgath | bcast
  | seqGemm | seqAttn
  | frz | thaw
  | qpost
  | mmaCfg | mma | mmaRel | mmaClr
  | ctx (func : BitVec 8)
  | launch
  deriving DecidableEq, Repr, Inhabited

/-- An operation captured by a pass until its commit (R192 step 4). -/
structure Captured where
  idx : Nat
  kind : OpKind
  lsid : Nat := 0
  a : Word := 0
  b : Word := 0
  desc : BitVec 256 := 0
  ext : BitVec 512 := 0
  scope : BitVec 3 := 0
  revoked : Bool := false
  deriving DecidableEq, Repr, Inhabited

/-- A `gred` captured until commit (R258, R259): the offset its record may be written at, and any other that it named. -/
structure GredArrive where
  idx : Nat
  op : Nat
  flt : Bool
  rnd : BitVec 3
  ftz : Bool
  val : Option Half
  off : Option Nat
  named : Option Nat := none
  deriving DecidableEq, Repr, Inhabited

/-- System registers as they stood at block entry (R397). -/
structure SysSnap where
  ctxw : Word := 0
  trapvec : Word := 0
  traprec : BitVec 512 := 0
  fpctl : Word := 0
  scopepol : Word := 0
  caps : Word := 0
  pgreq : Word := 0
  dlog : Word := 0
  trapped : BitVec 1024 := 0
  deriving DecidableEq, Repr, Inhabited

/-- One pass of a block by one thread (R185 to R192); `reads` holds what its loads found in memory, by LSID
(R298), `remoteHeld` the lines of other modules it holds with the tag of each hold (R272, R508); `leaving` how far one that
ends in `exit` is: 1 once its writes have left, 2 once it has committed and only waits for them (R271, R328); `unplaced` one
that was restored and whose block is still to be refetched (R381, R390). -/
structure Pass where
  live : Bool := false
  quay : Nat := 0
  slot : Nat := 0
  plane : Nat := 0
  tag : Nat := 0
  ctx : Nat := 0
  blk : Word := 0
  block : Block := {}
  cur : Nat := 0
  done : List Nat := []
  ports : List PortCell := []
  slots : List SlotCell := []
  lsids : List (Nat × Option Nat) := []
  stores : List PendWrite := []
  shadows : List Shadow := []
  remoteHeld : List (Nat × Nat) := []
  reads : List (Nat × Loc × List Byte) := []
  trap : Option TrapNote := none
  raised : BitVec 5 := 0
  fired : List Fired := []
  captured : List Captured := []
  greds : List GredArrive := []
  arrives : List Nat := []
  swrs : List (Nat × Nat × Word) := []
  subs : List (Nat × BitVec 7 × Word) := []
  b128 : List (Nat × Nat × List Byte) := []
  snap : SysSnap := {}
  preds : BitVec 48 := 0
  notReady : Bool := false
  poison : Bool := false
  blockedOnWalk : Bool := false
  stalled : Bool := false
  resolved : Bool := false
  commitWait : Option Nat := none
  waitLoc : Option Loc := none
  leaving : Nat := 0
  unplaced : Bool := false
  deriving DecidableEq, Repr, Inhabited

/-! ### Threads -/

/-- Slot state (R163). -/
inductive SlotSt where
  | free | waiting | active | blocked | idle
  deriving DecidableEq, Repr, Inhabited

/-- What a BLOCKED thread waits for (R163, R330, R337); one whose trap is being delivered waits for an entry of a handler
table (R370). -/
inductive BlockedOn where
  | none
  | fault
  | barrier (b : Nat)
  | object (va : Word) (loc : Loc) (old : Bool) (scope : BitVec 3) (last : Nat)
  | delivery (n : TrapNote) (blk : Word)
  deriving DecidableEq, Repr, Inhabited

/-- A thread slot and the live-value store behind it (R160, R367, R372). -/
structure Thread where
  quay : Nat := 0
  slot : Nat := 0
  st : SlotSt := .free
  on : BlockedOn := .none
  budget : Nat := 64
  x : List Word := List.replicate 64 0
  p : BitVec 48 := 0
  nba : Word := 0
  fpctl : Word := 0
  traprec : BitVec 512 := 0
  ih : Bool := false
  hctx : Nat := 0
  subs : List (BitVec 7 × Word) := []
  stack : List Word := List.replicate 8 0
  csd : Nat := 0
  bars : List (BitVec 2) := List.replicate 16 0
  stamp : BitVec 16 := 0
  drift : Bool := false
  ctx : Nat := 0
  group : Nat := 0
  gid : Nat := 0
  tid : Nat := 0
  levels : List Nat := []
  param : Word := 0
  psize : Nat := 0
  lbase : Word := 0
  lsize : Nat := 0
  regPoison : BitVec 112 := 0
  poisonBlk : Word := 0
  poisonRuns : Nat := 0
  late : List TrapNote := []
  released : List PendWrite := []
  prio : Nat := 0
  subBlk : Word := 0
  exitStatus : BitVec 8 := 0
  deriving DecidableEq, Repr, Inhabited

/-- A waiting-vector entry (R357); VEC is the list of slots, POP its length; `arrived` are those that had arrived before a
pre-emption and keep their stamps when the block is pinned again (R356). -/
structure WvEntry where
  quay : Nat := 0
  e : Nat := 0
  ba : Word := 0
  fctx : Nat := 0
  closed : Bool := false
  lplv : Bool := false
  lpl : Nat := 0
  pinned : Bool := false
  bytes : List Byte := []
  vec : List Nat := []
  arrived : List Nat := []
  deriving DecidableEq, Repr, Inhabited

/-- Run state of a plane (R387). -/
inductive PlaneSt where
  | free | admitting | draining | aged
  deriving DecidableEq, Repr, Inhabited

/-- A configuration plane (R165, R358 to R360). -/
structure Plane where
  quay : Nat := 0
  plane : Nat := 0
  st : PlaneSt := .free
  configured : Bool := false
  entry : Nat := 0
  ba : Word := 0
  fctx : Nat := 0
  block : Block := {}
  tags : List (Nat × Nat) := []
  opened : Nat := 0
  turnedBack : Nat := 0
  drainSince : Nat := 0
  mustAdmit : List Nat := []
  deriving DecidableEq, Repr, Inhabited

/-- A barrier of a workgroup (R331). -/
structure Barrier where
  b : Nat := 0
  count : Nat := 0
  phase : BitVec 32 := 0
  deriving DecidableEq, Repr, Inhabited

/-- A resident workgroup or task group (R152, R169, R342), or one that `ended` with its saved context (R412). -/
structure Group where
  id : Nat := 0
  quay : Nat := 0
  ctx : Nat := 0
  launch : Option Nat := none
  number : Nat := 0
  nthr : Nat := 0
  slots : List Nat := []
  nexit : Nat := 0
  nlost : Nat := 0
  smax : BitVec 8 := 0
  sor : BitVec 8 := 0
  estat : Bool := false
  efault : Bool := false
  bars : List Barrier := []
  prio : Nat := 0
  ended : Bool := false
  deriving DecidableEq, Repr, Inhabited

/-- One arrived `gred` instance (R258, R259). -/
structure GredCell where
  quay : Nat := 0
  group : Nat := 0
  blk : Word := 0
  idx : Nat := 0
  op : Nat := 0
  flt : Bool := false
  rnd : BitVec 3 := 0
  ftz : Bool := false
  arrived : List Nat := []
  vals : List Half := []
  contribOff : Option Nat := none
  anyOff : Option Nat := none
  offs : List Nat := []
  ctx : Nat := 0
  refused : Bool := false
  deriving DecidableEq, Repr, Inhabited

/-! ### Launch queues and launches -/

/-- A launch queue of a context (R345, R348, R352); `errDue` is the code of a halt whose ERR is still to be written. -/
structure Queue where
  n : Nat := 0
  desc : Word := 0
  withdrawn : Option Word := none
  lentTo : Option (Nat × Nat) := none
  halted : Bool := false
  refused : Bool := false
  cmd : Option (BitVec 1024) := none
  cmdSlot : Nat := 0
  started : Bool := false
  waitOp : Option Nat := none
  running : List (Nat × Nat) := []
  nextRead : Nat := 0
  errDue : Option Nat := none
  notify : List Nat := []
  deriving DecidableEq, Repr, Inhabited

/-- A launch in progress (R153, R353 to R355); `die` is that of the queue processor which reads its records (R506). -/
structure Launch where
  id : Nat := 0
  ctx : Nat := 0
  prio : Nat := 0
  queue : Option (Nat × Nat) := none
  record : BitVec 1024 := 0
  total : Nat := 0
  placed : Nat := 0
  completed : Nat := 0
  nexit : Nat := 0
  nlost : Nat := 0
  smax : BitVec 8 := 0
  sor : BitVec 8 := 0
  estat : Bool := false
  efault : Bool := false
  wgfault : Bool := false
  nonres : Bool := false
  since : Nat := 0
  check : Nat := 0
  bindRead : Bool := false
  bindRefused : Bool := false
  bind : List Nat := []
  quays : List (Nat × Nat) := []
  die : Nat := 0
  deriving DecidableEq, Repr, Inhabited

/-- A task's continuation record in a ready queue (R166, R354). -/
structure Ready where
  record : BitVec 256 := 0
  prio : Nat := 0
  die : Nat := 0
  deriving DecidableEq, Repr, Inhabited

/-! ### Contexts -/

/-- A leaf of a flattened stage (R101, R409; log entry 8). -/
structure Leaf where
  ipa : Nat
  size : Nat
  pa : Nat
  w : Bool
  x : Bool
  gen : BitVec 8
  grant : Nat := 0
  deriving DecidableEq, Repr, Inhabited

/-- A memory grant (R407). -/
structure Grant where
  idx : Nat
  va : Nat
  ipa : Nat
  len : Nat
  w : Bool
  x : Bool
  deriving DecidableEq, Repr, Inhabited

/-- A context (R396, R399, R400, R406). -/
structure Ctx where
  num : Nat := 0
  parent : Nat := 0
  depth : Nat := 0
  vf : Bool := false
  invf : Bool := false
  vfctx : Nat := 0
  run : Bool := false
  lost : Bool := false
  trapvec : Word := 0
  pgreq : Word := 0
  allow : BitVec 8 := 0xFF
  caps : Word := 0
  used : BitVec 64 := 0
  expl : Bool := false
  remain : Nat := 0
  dlog : Word := 0
  ownRoot : Nat := 0
  leaves : List Leaf := []
  grants : List Grant := []
  queues : List Queue := []
  save : Nat := 0
  maxq : Nat := 0
  qtab : List (Option Nat) := []
  nogrants : Nat := 0
  deriving DecidableEq, Repr, Inhabited

/-! ### Quay tables -/

/-- State of a vault region (R138). -/
inductive RegionSt where
  | active | flushing | unmapping | sealing | sealed | unsealing
  deriving DecidableEq, Repr, Inhabited

/-- An entry of the vault region table (R138). -/
structure Region where
  quay : Nat := 0
  mapped : Bool := false
  st : RegionSt := .active
  ctx : Nat := 0
  w : Bool := false
  refs : Nat := 0
  vpg : Nat := 0
  npg : Nat := 0
  gva : Nat := 0
  deriving DecidableEq, Repr, Inhabited

/-- A live range-scoreboard entry (R147). -/
structure Score where
  quay : Nat := 0
  n : Nat := 0
  first : Nat := 0
  last : Nat := 0
  op : Nat := 0
  deriving DecidableEq, Repr, Inhabited

/-- An entry of an operation table (R116, R117); `idxs` is the group list of a collective once it is read (R290), `lost` the
vault lines whose fill was refused to a release, with the status of each (R141, R256); `ended` one that ended with its saved
context and only raises its object yet (R412). -/
structure EngOp where
  id : Nat := 0
  quay : Nat := 0
  kind : OpKind := .launch
  ctx : Nat := 0
  group : Option Nat := none
  slot : Option Nat := none
  desc : BitVec 256 := 0
  ext : BitVec 512 := 0
  a : Word := 0
  co : Word := 0
  scope : BitVec 3 := 0
  next : Nat := 0
  status : Nat := 0
  finished : Bool := false
  waiting : Bool := false
  refsAt : List Nat := []
  parent : Option Nat := none
  phase : Nat := 0
  report : Nat := 0
  sealRefused : Bool := false
  claimed : Option Nat := none
  queue : Option (Nat × Nat) := none
  data : List Byte := []
  idxs : List Nat := []
  lost : List (Nat × Nat) := []
  ended : Bool := false
  lineAt : Option Nat := none
  deriving DecidableEq, Repr, Inhabited

/-- A thread group waiting on a completion object through a quay's wait table (R337); `woken` are those that a write of the
object woke and that have not read it again. -/
structure WaitEntry where
  quay : Nat := 0
  loc : Loc := .glob 0
  slots : List Nat := []
  woken : List Nat := []
  deriving DecidableEq, Repr, Inhabited

/-- Metadata of a vault line (R134). -/
structure VLine where
  key : Nat := 0
  lam : BitVec 8 := 0
  tag : BitVec 4 := 0
  poison : Bool := false
  v : Bool := false
  d : Bool := false
  deriving DecidableEq, Repr, Inhabited

/-- An accumulator node of a quay (R248): sums by rows, an empty list where every sum is +0. -/
structure Node where
  quay : Nat := 0
  n : Nat := 0
  cfg : Word := 0x33000000
  tgt : Word := 0x80000000
  sums : List (BitVec 32) := []
  k : Nat := 0
  seq : BitVec 32 := 0
  exc : BitVec 5 := 0
  mism : Bool := false
  pois : Bool := false
  deriving DecidableEq, Repr, Inhabited

/-- The matrix unit of a pair (R244, R245, R255, R257): queued operation ids, head first; `busy` while the head acts and
`running` while it is an `mma`, with its descriptor, row indexes and K position; the actions due; whether the leader's and the
follower's tiles are fed by a poisoned descriptor or index vector (R254). -/
structure MatrixUnit where
  pair : Nat := 0
  queue : List Nat := []
  busy : Bool := false
  running : Bool := false
  desc : BitVec 256 := 0
  idxs : List Nat := []
  kpos : Nat := 0
  tileDue : Option (Nat × Nat) := none
  endDue : Bool := false
  status : Nat := 0
  poisL : Bool := false
  poisF : Bool := false
  deriving DecidableEq, Repr, Inhabited

/-- A row of a gather latch (R126). -/
structure LatchRow where
  quay : Nat := 0
  buf : Nat := 0
  row : Nat := 0
  bytes : List Byte := []
  deriving DecidableEq, Repr, Inhabited

/-- Kinds of bollards (R18). -/
inductive BollardKind where
  | arithmetic | memoryPort | converter | special | accumulator
  deriving DecidableEq, Repr, Inhabited

/-- A remapped bollard or an operator weight (R362, R375): the spare that stands in for it, and how many spares it has `used`. -/
structure Bollard where
  quay : Nat := 0
  n : Nat := 0
  weights : List Nat := [1, 1, 1, 1]
  spare : Option Nat := none
  used : Nat := 0
  deriving DecidableEq, Repr, Inhabited

/-- Who waits for a walk, a page request, a line or another module: a thread's instruction, a block fetch, an engine
operation, a released write, a queue, a launch, a completion wait, the fill of a vault line, a watch line, a message of the
control node (by context and tag), a page request's append, a group's completion record, a trap's delivery, the reads of
tables by walks (R107), a page of a context's dirty log (R115). -/
inductive Waiter where
  | thread (quay slot : Nat) (blk : Word) (idx : Nat)
  | fetch (quay entry : Nat)
  | op (id : Nat)
  | write (quay slot : Nat)
  | queue (ctx q : Nat)
  | launch (id : Nat)
  | object (quay slot : Nat)
  | fill (quay line : Nat)
  | watch (die : Nat)
  | node (fn tag : Nat)
  | append (id : Nat)
  | group (id : Nat)
  | handler (quay slot : Nat)
  | tables (ctx : Nat)
  | dlog (ctx page : Nat)
  deriving DecidableEq, Repr, Inhabited

/-- A vault line that the map unit of its quay fills (R141), and the accesses that wait for that one fill. -/
structure Fill where
  quay : Nat
  line : Nat
  who : List Waiter := []
  deriving DecidableEq, Repr, Inhabited

/-! ### Coherence -/

/-- A directory entry (R78). -/
structure DirEntry where
  line : Nat
  mode : Bool := false
  ownh : Bool := true
  htok : Nat := 512
  wip : Bool := false
  hold : BitVec 48 := 0
  deriving DecidableEq, Repr, Inhabited

/-- A copy of a line in a coherent cache (R75, R76), with the metadata it was filled with or its writes left (R60, R71), and the
accesses that it came for (R85, R86). -/
structure Copy where
  holder : Nat
  line : Nat
  tokens : Nat
  owner : Bool := false
  dirty : Bool := false
  md : LineMeta := {}
  due : List Waiter := []
  deriving DecidableEq, Repr, Inhabited

/-- An outstanding request of a coherent cache (R85, R86): `who` are the accesses that asked (none for a prefetch). -/
structure CohReq where
  holder : Nat
  line : Nat
  write : Bool
  gen : BitVec 8 := 0
  ctx : Nat := 0
  quay : Nat := 0
  issued : Nat := 0
  inv : Option Nat := none
  pers : Bool := false
  noalloc : Bool := false
  who : List Waiter := []
  deriving DecidableEq, Repr, Inhabited

/-- A refusal that reached the access that asked (R104, R266), or its one-use read (R84). -/
structure CohAns where
  holder : Nat
  line : Nat
  who : Waiter
  cause : BitVec 8 := 0
  stale : Bool := false
  gen : BitVec 8 := 0
  oneUse : Bool := false
  md : LineMeta := {}
  deriving DecidableEq, Repr, Inhabited

/-- A frozen replica (R92) with the metadata its FDATA brought (R502); of a line of another module (R452) also the bytes. -/
structure Replica where
  holder : Nat
  line : Nat
  gen : BitVec 8
  md : LineMeta := {}
  bytes : List Byte := []
  deriving DecidableEq, Repr, Inhabited

/-- What an uncached access does at the home (R88). -/
inductive UncBody where
  | load (size : Nat)
  | store (bytes : List Byte) (poison : Bool)
  | atomic (size : Nat)
  deriving DecidableEq, Repr, Inhabited

/-- Body of a coherence message (R81). -/
inductive NetBody where
  | gets (gen : BitVec 8) (ctx quay : Nat)
  | getm (gen : BitVec 8) (ctx quay : Nat)
  | data (tokens : Nat) (owner : Bool) (md : LineMeta)
  | tok (tokens : Nat)
  | inv (writer : Nat)
  | fwds
  | wb (md : LineMeta)
  | put (tokens : Nat) (owner : Bool) (md : LineMeta)
  | collect
  | done
  | preq
  | pact (requester : Nat)
  | pdone
  | pdeact
  | fdata (gen : BitVec 8) (md : LineMeta)
  | refuse (write : Bool) (cause : BitVec 8) (stale : Bool) (gen : BitVec 8)
  | sweep (die : Nat) (gen : BitVec 8)
  | swack (die : Nat)
  | farSweep (src : Nat)
  | uncached (body : UncBody) (pa : Nat) (src tag : Nat) (gen : BitVec 8) (since : Nat)
  deriving DecidableEq, Repr, Inhabited

/-- A message in flight: its line (for a sweep, its page), the cache at one end, its body. -/
structure NetMsg where
  line : Nat
  holder : Nat := 0
  body : NetBody
  payer : Nat := 0
  deriving DecidableEq, Repr, Inhabited

/-- Freeze state of a page (R90). -/
inductive FrzSt where
  | normal | freezing | frozen | thawing
  deriving DecidableEq, Repr, Inhabited

/-- An entry of a page freeze table or view freeze table (R90), by page number. -/
structure FrzEntry where
  page : Nat
  st : FrzSt := .normal
  count : BitVec 8 := 0
  deriving DecidableEq, Repr, Inhabited

/-- An entry of a page generation table (R103), with the time of its last increment (R105). -/
structure GenEntry where
  page : Nat
  gen : BitVec 8 := 0
  last : Nat := 0
  deriving DecidableEq, Repr, Inhabited

/-- A sweep whose answers are outstanding (R94, R420). -/
structure Sweep where
  page : Nat
  gen : BitVec 8
  dies : List Nat := []
  peers : List (Nat × Nat) := []
  thaw : Bool := true
  deriving DecidableEq, Repr, Inhabited

/-- A persistent table entry (R86). -/
structure Pers where
  line : Nat
  holder : Nat
  active : Bool := false
  deriving DecidableEq, Repr, Inhabited

/-- A format region's registers (R63). -/
structure FmtRegion where
  die : Nat
  r : Nat
  ctl : Word := 0
  store : Word := 0
  size : Word := 0
  scale : Word := 0
  turningOn : Bool := false
  deriving DecidableEq, Repr, Inhabited

/-! ### Translation -/

/-- Kind of an access in a page request (R112). -/
inductive AccKind where
  | load | store | atomic | fetch | engRead | engWrite | committed | walkRead
  deriving DecidableEq, Repr, Inhabited

/-- A translation cache entry (R106). -/
structure TlbEntry where
  quay : Nat
  ctx : Nat
  va : Nat
  size : Nat
  pa : Nat
  ipa : Nat := 0
  w : Bool
  x : Bool
  gen : BitVec 8
  seen : Bool := false
  filled : Nat := 0
  used : Nat := 0
  deriving DecidableEq, Repr, Inhabited

/-- A miss that a walk serves (R107): who waits, at which quay, for what access of which address; after a stale refusal
(R104) the generation refused. -/
structure Miss where
  who : Waiter
  quay : Nat
  kind : AccKind
  va : Nat
  refused : Option (BitVec 8) := none
  deriving DecidableEq, Repr, Inhabited

/-- A walk queued or under way (R107), and the misses of the die it serves. -/
structure Walk where
  die : Nat
  ctx : Nat
  page : Nat
  misses : List Miss := []
  running : Bool := false
  deriving DecidableEq, Repr, Inhabited

/-- A pending page request (R110 to R113), and who waits on it with the address that faulted there: `step` counts the steps
of its append that are performed (R111, R510), `acked` tells that it was answered before the last of them. -/
structure PgReq where
  id : Nat := 0
  quay : Nat
  ctx : Nat
  owner : Nat
  stage2 : Bool
  page : Nat
  addr : Word
  kind : AccKind
  cause : BitVec 4
  level : Nat
  who : List (Waiter × Word)
  queue : Option Nat := none
  pgreg : Word := 0
  reqid : Option (BitVec 16) := none
  toNode : Bool := false
  step : Nat := 0
  acked : Bool := false
  deriving DecidableEq, Repr, Inhabited

/-! ### Context operations and pre-emption -/

/-- Where a context operation's answer goes (R403, R447). -/
inductive CtxSrc where
  | op (id : Nat)
  | node (tag : BitVec 16)
  deriving DecidableEq, Repr, Inhabited

/-- A context operation at the controller (R403, R405): `reach` orders those whose descriptor has been read; `list` is the
change list of a `part.chg` that has passed its check (R427, R428), `hands` the quays that it moves, of a `ctx.map` twice each
replaced page that is being emptied, and one more once it is swept (R420). -/
structure CtxOp where
  func : BitVec 8
  issuer : Nat
  quay : Nat := 0
  desc : BitVec 512 := 0
  src : CtxSrc
  reach : Nat := 0
  phase : Nat := 0
  code : Nat := 0
  count : Nat := 0
  target : Nat := 0
  waits : List Nat := []
  hands : List Nat := []
  pages : List (Nat × Bool) := []
  list : List (BitVec 256) := []
  deriving DecidableEq, Repr, Inhabited

/-- A vault hand-over in progress (R151, R391). -/
structure Handover where
  quay : Nat
  old : Nat
  new : Nat
  phase : Nat := 0
  restore : Bool := false
  part : Option Nat := none
  deriving DecidableEq, Repr, Inhabited

/-- A pre-emption in progress (R377 to R379, R391): `since` tells when each quay's intake stopped, `todo` the quays the
lamplighter token has not reached, `saved` those whose save is ordered, `ending` that every save is. -/
structure Preempt where
  id : Nat
  root : Nat
  quays : List Nat := []
  drain : Bool := true
  since : List (Nat × Nat) := []
  awaiting : List StopAgent := []
  todo : List Nat := []
  saved : List Nat := []
  ending : Bool := false
  slice : Bool := false
  only : Bool := false
  retire : Bool := false
  deriving DecidableEq, Repr, Inhabited

/-- A save operation (R382): one quay's state to or from one section; `frags` is what remains to be written, by offset
in the section, or what a restore that has `begun` has read, `chunks` the ranges it has still to read; `bad` the offsets of lines whose content could not be read (R393), and `owner` the pre-emption, hand-over or
context operation that ordered it. -/
structure SaveOp where
  ctx : Nat
  quay : Nat
  sect : Nat
  restore : Bool
  frags : List (Nat × List Byte) := []
  begun : Bool := false
  chunks : List (Nat × Nat) := []
  owner : Nat := 0
  held : Option Nat := none
  bad : List Nat := []
  deriving DecidableEq, Repr, Inhabited

/-- A saved section's content beside its bytes in memory (log entry 10): `tokens` are those of its token records, in their
order, each with its place and its tag (R387). -/
structure Section where
  ctx : Nat
  sect : Nat
  quay : Nat
  since : Nat := 0
  threads : List Thread := []
  passes : List Pass := []
  entries : List WvEntry := []
  planes : List Plane := []
  groups : List Group := []
  greds : List GredCell := []
  nodes : List Node := []
  units : List MatrixUnit := []
  ops : List EngOp := []
  scores : List Score := []
  regions : List Region := []
  frames : List (Nat × Nat) := []
  waits : List WaitEntry := []
  reqs : List PgReq := []
  bollards : List Bollard := []
  tokens : List (Nat × Nat × PortCell) := []
  hasVault : Bool := false
  deriving DecidableEq, Repr, Inhabited

/-- A quota change waiting for the tick (R441). -/
inductive QuotaChange where
  | set (ctx : Nat) (expl : Bool) (remain : Nat)
  | grow (ctx amount : Nat)
  | shrink (ctx amount : Nat)
  deriving DecidableEq, Repr, Inhabited

/-! ### Outside -/

/-- A message of the beacon port (R445): header and body; of one that is being performed how far it has come, the slot it has
claimed (R347), the pieces of its data that have been read or written, and the bytes read. -/
structure BMsg where
  hdr : Word := 0
  body : List Byte := []
  phase : Nat := 0
  claimed : Nat := 0
  pos : Nat := 0
  data : List Byte := []
  deriving DecidableEq, Repr, Inhabited

/-- A frame sent over a hawser link (R450 to R452); one of another module goes on as it came (R449). -/
inductive LinkOut where
  | keepAlive (peer : Nat)
  | replay
  | request (peer tag pa : Nat) (gen : BitVec 8) (ask : RemoteAsk)
  | answer (peer tag : Nat) (bytes : List Byte) (md : LineMeta)
  | fdata (peer tag : Nat) (gen : BitVec 8) (bytes : List Byte) (md : LineMeta)
  | refusal (peer tag : Nat) (cause : BitVec 8) (stale : Option (BitVec 8))
  | sweep (peer page : Nat) (gen : BitVec 8)
  | swack (peer page : Nat)
  | breakHold (peer tag : Nat)
  | coll (peer : Nat) (m : CollMsg)
  | forward (dst : Nat) (req : RemoteReq)
  | transit (src dst : Nat) (data : List Byte)
  deriving DecidableEq, Repr, Inhabited

/-- A remote access outstanding (R450): its tag, peer, address and size, who waits for it, whether it writes or holds, whether
it installs nothing (R268), and once it came its answer with the metadata of the data (R60), its refusal, or the generation at
the home where it was stale (R104). -/
structure Remote where
  tag : Nat
  peer : Nat
  pa : Nat
  size : Nat := 0
  who : Waiter
  write : Bool := false
  noalloc : Bool := false
  answer : Option (List Byte) := none
  md : LineMeta := {}
  cause : Option (BitVec 8) := none
  stale : Option (BitVec 8) := none
  deriving DecidableEq, Repr, Inhabited

/-- A location that an atomic of another module holds at its home here (R272): source module, the tag of its request, line,
since when, and whether its module has been told that the hold is broken (R273). -/
structure RemoteHold where
  src : Nat
  tag : Nat
  line : Nat
  since : Nat := 0
  told : Bool := false
  deriving DecidableEq, Repr, Inhabited

/-- An error that has come about physically (R71, R374): of a line in a coherent cache or engine buffer, in the L2 or the HBM
of the home, in a vault, of a thread's register, corrected or not; of a bollard's buffers, corrected (log entry 71). -/
inductive Upset where
  | cache (holder line : Nat) (corrected : Bool)
  | memory (line : Nat) (corrected : Bool)
  | vault (quay line : Nat) (corrected : Bool)
  | register (quay slot reg : Nat) (corrected : Bool)
  | bollard (quay bollard : Nat)
  deriving DecidableEq, Repr, Inhabited

/-- A page that another module's `frz` or `thaw` has brought to its home here (R293, R450): its own number, who asked, and
how far it has come. -/
structure FarPage where
  id : Nat
  src : Nat
  tag : Nat
  pa : Nat
  gen : BitVec 8
  thaw : Bool
  phase : Nat := 0
  deriving DecidableEq, Repr, Inhabited

/-- Ranks that a collective's failure still has to end (R127, R290): the rank it is due to, the list, the ranks of this
module that have not yet ended, and the status.  While `first` is set the list is not known: it is that of the first
collective that names the rank (log entry 58). -/
structure Doom where
  src : Nat
  list : List Nat := []
  left : List Nat := []
  status : Nat := 9
  first : Bool := false
  deriving DecidableEq, Repr, Inhabited

/-- A collective that a rank on another module has issued (R127, R452). -/
structure FarRank where
  mod : Nat
  quay : Nat
  op : Nat
  desc : CollDesc
  deriving DecidableEq, Repr, Inhabited

/-- Domain registers (R449). -/
structure Domain where
  en : Bool := false
  mod : BitVec 8 := 0
  routes : List (Nat × Word) := []
  rmask : List (Nat × BitVec 256) := []
  lastFrame : List (Nat × Nat) := []
  kept : Nat := 0
  deriving DecidableEq, Repr, Inhabited

/-- Fused values (R31, R444, R458, R460). -/
structure Fuses where
  serial : Word := 0
  step : BitVec 8 := 0
  calver : BitVec 16 := 0
  pubkey : BitVec 512 := 0
  weights : List Nat := [1200, 2000, 1500, 6000, 4000, 1638400, 1802240, 1638400, 60, 20000, 8000, 3000, 12000, 5000,
    2500, 100]
  qsw : Nat := 2500
  slsw : Nat := 800
  netsw : Nat := 40000
  othsw : Nat := 60000
  spq : List (Nat × Nat) := []
  present : BitVec 256 := BitVec.allOnes 256
  deriving DecidableEq, Repr, Inhabited

/-- Error log counters (R461). -/
structure ErrLog where
  cecc : Nat := 0
  uecc : Nat := 0
  scrubfix : Nat := 0
  netrtx : Nat := 0
  poison : Nat := 0
  spares : Nat := 0
  replays : Nat := 0
  retired : Nat := 0
  deriving DecidableEq, Repr, Inhabited

/-- The management processor's state (R24, R455 to R463). -/
structure Device where
  bootStep : Nat := 0
  failStep : Nat := 0
  meas : List (BitVec 512) := [0, 0, 0, 0]
  fuses : Fuses := {}
  err : ErrLog := {}
  throttle : Nat := 0
  thrcyc : Nat := 0
  hot : List Nat := []
  tripped : Bool := false
  inReset : Bool := false
  ticks : Nat := 0
  linkup : Word := 0
  lreplay : Nat := 0
  capsAt : Option Nat := none
  scrub : List (Nat × Nat) := []
  nodeReqs : Nat := 0
  deriving DecidableEq, Repr, Inhabited

/-- The state of the module. -/
structure State where
  agenda : List Instr := []
  freeCtr : Nat := 0
  turn : Nat := 0
  clock : Nat := 0
  nextId : Nat := 1
  dev : Device := {}
  -- fabric
  pass : Pass := {}
  parked : List Pass := []
  threads : List Thread := []
  entries : List WvEntry := []
  planes : List Plane := []
  groups : List Group := []
  greds : List GredCell := []
  waits : List WaitEntry := []
  bollards : List Bollard := []
  weighed : Nat := 0
  -- engines and matrix
  ops : List EngOp := []
  scores : List Score := []
  regions : List Region := []
  latch : List LatchRow := []
  nodes : List Node := []
  units : List MatrixUnit := []
  -- memory
  mem : Mem := []
  poisoned : List Nat := []
  vmem : Mem := []
  vlines : List VLine := []
  presence : List Nat := []
  vwritten : List Nat := []
  fills : List Fill := []
  framePrio : List (Nat × Nat) := []
  holdWaits : List (Waiter × Loc) := []
  -- homes
  dir : List DirEntry := []
  copies : List Copy := []
  reqs : List CohReq := []
  answers : List CohAns := []
  replicas : List Replica := []
  net : List NetMsg := []
  homeWait : List NetMsg := []
  collecting : List Nat := []
  recalls : List (Nat × Nat) := []
  pers : List Pers := []
  frz : List FrzEntry := []
  gens : List GenEntry := []
  genWait : List Nat := []
  sweeps : List Sweep := []
  pageOrder : List (Nat × Nat) := []
  paying : Nat := 0
  farPages : List FarPage := []
  dooms : List Doom := []
  fmt : List FmtRegion := []
  sliceOwner : List (Nat × Nat) := []
  quayPart : List (Nat × Nat) := []
  absent : List Nat := []
  partOwner : List (Nat × Nat) := []
  partNet : List (Nat × BitVec 60) := [(0, 0x808808808808808)]
  netpol : List (Nat × Word) := []
  -- translation
  tlb : List TlbEntry := []
  walks : List Walk := []
  pgreqs : List PgReq := []
  -- contexts
  ctxs : List Ctx := [{ num := 0, caps := 0x100000000000000 }]
  quayCtx : List (Nat × Nat) := []
  ctxq : List CtxOp := []
  handovers : List Handover := []
  preempts : List Preempt := []
  saves : List SaveOp := []
  areaDue : List (Nat × List Byte) := []
  sections : List Section := []
  quota : List QuotaChange := []
  meters : List (Nat × Nat × Nat) := []
  -- launches
  launches : List Launch := []
  ready : List Ready := []
  lastQueue : List (Nat × Nat) := []
  -- outside
  inbox : List BMsg := []
  outbox : List BMsg := []
  links : List LinkOut := []
  remotes : List Remote := []
  remoteHolds : List RemoteHold := []
  farRanks : List FarRank := []
  collIn : List (Nat × CollMsg) := []
  domain : Domain := {}
  upsets : List Upset := []
  deriving DecidableEq, Repr, Inhabited

/-- The module right after reset (R454): every cache, directory entry, translation cache and block cache invalid, every
generation and freeze entry 0, partition 0 holding everything, the domain off, only context 0, nothing in flight.
Values the manual does not give: log entries 1, 4, 5, 6. -/
def State.reset : State := {}

end Sys2Proof.Machine
end

