-- ==== Sys2Proof/Machine/Caps.lean ====
section
/-! DEFINITION. The capability list as the boot firmware builds it (R27 to R31, R73, R132, R434, R444, R453, R458, R460,
R461): its records lie one behind the other in the order of their numbers (log entry 16). -/

namespace Sys2Proof.Machine

/-- A record: number, length in bytes, and its fields above the header as (lowest bit, value). -/
structure CapRecord where
  id : Nat
  len : Nat
  fields : List (Nat × Nat) := []

/-- The bits of a record with its header (R27). -/
def CapRecord.bits (r : CapRecord) (next : Nat) : Nat :=
  r.fields.foldl (fun n f => n + f.2 * 2 ^ f.1) (r.id + 2 ^ 16 + r.len * 2 ^ 32 + next * 2 ^ 64)

/-- Spare bollards in use on a quay: those fused and those moved in since (R375, R460). -/
def State.spq (s : State) (q : Nat) : Nat :=
  ((s.dev.fuses.spq.find? fun x => x.1 == q).map (·.2)).getD 0 +
    ((s.bollards.filter fun b => b.quay == q).map (·.used)).foldl (· + ·) 0

/-- PRESENT: the quays fused as present and not retired (R376, R460). -/
def State.present (s : State) : Nat :=
  (s.absent.foldl (fun m q => m &&& ~~~((1#256) <<< q)) s.dev.fuses.present).toNat

/-- The records in order (R29). -/
def State.capRecords (s : State) : List CapRecord :=
  let d := s.dev
  let f := d.fuses
  let e := d.err
  [{ id := 1, len := 48, fields := [(160, 48000), (192, f.step.toNat), (200, 16), (208, 32), (216, 8), (224, 3300000),
                                    (256, 0x303231312D4E5A4F), (320, f.serial.toNat)] },
   { id := 2, len := 304, fields := (896, s.present) :: (List.range 256).map fun q => (1408 + 4 * q, s.spq q % 16) },
   { id := 3, len := 48, fields := [(192, 7), (200, 16), (208, 4), (216, 16), (256, 12), (288, 6000), (320, 5905580032)] },
   { id := 4, len := 48, fields := [(128, 0x24448), (192, 0x24866), (256, 0x2423C), (320, 0xC4224)] },
   { id := 5, len := 80, fields := ([e.cecc, e.uecc, e.scrubfix, e.netrtx, e.poison, e.spares, e.replays, e.retired].zipIdx.map
                                     fun x => (128 + 64 * x.2, x.1 % 2 ^ 64)) },
   { id := 6, len := 128, fields := [(224, f.othsw), (256, f.slsw), (288, f.qsw), (320, f.netsw), (352, f.calver.toNat), (368, 300),
                                     (384, 4000), (416, 1000), (448, d.thrcyc % 2 ^ 64)] ++
                                    (List.range 16).map fun j => (512 + 32 * j, f.weights.getD j 0 % 2 ^ 32) },
   { id := 7, len := 48, fields := [(128, d.linkup.toNat), (192, d.lreplay % 2 ^ 64), (256, 250), (288, 256), (304, 36), (312, 4),
                                    (320, 800), (336, 200)] },
   { id := 8, len := 48, fields := [(128, 4096), (144, 32), (152, 8), (160, 8), (168, 128), (176, 64), (184, 256), (200, 0x2100),
                                    (216, 0x2200), (232, 0x2300)] },
   { id := 9, len := 352, fields := [(128, 4), (136, 1), (2304, f.pubkey.toNat)] ++
                                    d.meas.zipIdx.map fun x => (512 * x.2 + 256, x.1.toNat) }]

/-- Bytes of the list. -/
def capsLen : Nat := 1104

/-- A byte of a list of records. -/
def capsFind : List CapRecord → Nat → BitVec 8
  | [], _ => 0
  | r :: rest, k =>
    if k < r.len then BitVec.ofNat 8 (r.bits (if rest.isEmpty then 0 else r.len) / 256 ^ k) else capsFind rest (k - r.len)

/-- A byte of the capability list. -/
def State.capsByte (s : State) (k : Nat) : BitVec 8 := capsFind s.capRecords k

end Sys2Proof.Machine
end

