-- ==== Sys2Proof/Machine/Flags.lean ====
section
/-! DEFINITION. Floating-point values, rounding and the five exceptions (R34 to R49, R220): exact values, one rounding,
flags as in R50 bits 4:0. -/

namespace Sys2Proof.Machine

/-- Exception bits in the positions of R50 bits 4:0. -/
abbrev Exc := BitVec 5

/-- Invalid (R49). -/
def exNV : Exc := 1
/-- Divide-by-zero (R49). -/
def exDZ : Exc := 2
/-- Overflow (R49). -/
def exOF : Exc := 4
/-- Underflow (R49). -/
def exUF : Exc := 8
/-- Inexact (R49). -/
def exNX : Exc := 16

/-- Rounding modes (R44). -/
inductive Mode where
  | ne | z | p | m | na
  deriving DecidableEq, Repr, Inhabited

/-- Mode of H0 bits 68:66; configuration refuses codes 5 to 7 (R44). -/
def Mode.ofCode (c : BitVec 3) : Mode :=
  match c.toNat with
  | 0 => .ne | 1 => .z | 2 => .p | 3 => .m | _ => .na

/-- A floating-point format (R34): exponent and mantissa widths and bias; F8a has no infinity. -/
structure Fmt where
  ew : Nat
  mw : Nat
  bias : Nat
  noInf : Bool := false
  deriving DecidableEq, Repr, Inhabited

/-- FP32 (R34). -/
def fmtF32 : Fmt := ⟨8, 23, 127, false⟩
/-- F16 (R34). -/
def fmtF16 : Fmt := ⟨5, 10, 15, false⟩
/-- BF16 (R34). -/
def fmtBF16 : Fmt := ⟨8, 7, 127, false⟩
/-- F8a (R34). -/
def fmtF8a : Fmt := ⟨4, 3, 7, true⟩
/-- F8b (R34). -/
def fmtF8b : Fmt := ⟨5, 2, 15, false⟩

/-- Width in bits. -/
def Fmt.width (f : Fmt) : Nat := 1 + f.ew + f.mw

/-- Bytes of an element. -/
def Fmt.bytes (f : Fmt) : Nat := f.width / 8

/-- FTZ acts on FP32 and F16 only (R47). -/
def Fmt.flushes (f : Fmt) : Bool := f == fmtF32 || f == fmtF16

/-- An exact value: NaN, an infinity, or (−1)^neg · m · 2^e (a signed zero when m = 0). -/
inductive FVal where
  | nan
  | inf (neg : Bool)
  | fin (neg : Bool) (m : Nat) (e : Int)
  deriving DecidableEq, Repr, Inhabited

/-- Fields of a pattern. -/
def Fmt.sign (f : Fmt) (x : Nat) : Bool := x / 2 ^ (f.ew + f.mw) % 2 = 1
/-- Exponent field. -/
def Fmt.expo (f : Fmt) (x : Nat) : Nat := x / 2 ^ f.mw % 2 ^ f.ew
/-- Mantissa field. -/
def Fmt.mant (f : Fmt) (x : Nat) : Nat := x % 2 ^ f.mw

/-- NaN patterns (R34). -/
def Fmt.isNan (f : Fmt) (x : Nat) : Bool :=
  f.expo x = 2 ^ f.ew - 1 && (if f.noInf then f.mant x = 2 ^ f.mw - 1 else f.mant x != 0)

/-- Infinity patterns (R34). -/
def Fmt.isInf (f : Fmt) (x : Nat) : Bool := f.expo x = 2 ^ f.ew - 1 && !f.noInf && f.mant x = 0

/-- Signalling NaN: the top mantissa bit is 0; the NaNs of F8a are quiet (R36). -/
def Fmt.isSnan (f : Fmt) (x : Nat) : Bool := f.isNan x && !f.noInf && f.mant x / 2 ^ (f.mw - 1) = 0

/-- Subnormal patterns. -/
def Fmt.isSub (f : Fmt) (x : Nat) : Bool := f.expo x = 0 && f.mant x != 0

/-- The value of a pattern (R34). -/
def Fmt.value (f : Fmt) (x : Nat) : FVal :=
  if f.isNan x then .nan
  else if f.isInf x then .inf (f.sign x)
  else if f.expo x = 0 then .fin (f.sign x) (f.mant x) (1 - (f.bias : Int) - f.mw)
  else .fin (f.sign x) (2 ^ f.mw + f.mant x) ((f.expo x : Int) - f.bias - f.mw)

/-- Pattern of the sign bit. -/
def Fmt.signBit (f : Fmt) (neg : Bool) : Nat := if neg then 2 ^ (f.ew + f.mw) else 0

/-- Canonical NaN (R35). -/
def Fmt.canonNan (f : Fmt) : Nat :=
  if f.noInf then 2 ^ (f.ew + f.mw) - 1 else (2 ^ f.ew - 1) * 2 ^ f.mw + 2 ^ (f.mw - 1)

/-- Largest finite magnitude (R35). -/
def Fmt.maxFin (f : Fmt) : Nat :=
  if f.noInf then 2 ^ (f.ew + f.mw) - 2 else (2 ^ f.ew - 1) * 2 ^ f.mw - 1

/-- The pattern of an infinity; F8a gives the NaN of that sign (R46). -/
def Fmt.infBits (f : Fmt) (neg : Bool) : Nat :=
  f.signBit neg + (if f.noInf then 2 ^ (f.ew + f.mw) - 1 else (2 ^ f.ew - 1) * 2 ^ f.mw)

/-- Whether a discarded fraction rounds the magnitude up (R44): `q` the kept part, `r` of `2^d` discarded. -/
def roundsUp (mode : Mode) (neg : Bool) (q r half2 : Nat) : Bool :=
  match mode with
  | .ne => 2 * r > half2 || (2 * r = half2 && q % 2 = 1)
  | .na => 2 * r ≥ half2
  | .z => false
  | .p => !neg && r != 0
  | .m => neg && r != 0

/-- Integer part of m · 2^e rounded by mode, and whether it was inexact (R44). -/
def roundInt (mode : Mode) (neg : Bool) (m : Nat) (e : Int) : Nat × Bool :=
  match e with
  | .ofNat k => (m * 2 ^ k, false)
  | .negSucc k =>
    let h := 2 ^ (k + 1)
    let q := m / h
    let r := m % h
    (if roundsUp mode neg q r h then q + 1 else q, r != 0)

/-- A rounded pattern and the exceptions it raised. -/
abbrev FRes := Nat × Exc

/-- What an overflow delivers (R46, and R48 where `sat` asks for it). -/
def overflowBits (f : Fmt) (mode : Mode) (sat neg : Bool) : Nat :=
  let toMax := sat || mode == .z || (mode == .p && neg) || (mode == .m && !neg)
  if toMax then f.signBit neg + f.maxFin else f.infBits neg

/-- Rounding of (−1)^neg · m · 2^e to a format (R46), with the exceptions of R49. -/
def roundFin (f : Fmt) (mode : Mode) (sat neg : Bool) (m : Nat) (e : Int) : FRes :=
  if m = 0 then (f.signBit neg, 0)
  else
    let emin : Int := 1 - (f.bias : Int) - f.mw
    let top : Int := (Nat.log2 m : Int) + e - f.mw
    let q : Int := if top < emin then emin else top
    let (n, inexact) := roundInt mode neg m (e - q)
    let (n, q) := if n = 2 ^ (f.mw + 1) then (2 ^ f.mw, q + 1) else (n, q)
    let mag : Nat := if n < 2 ^ f.mw then n else ((q + f.mw + f.bias).toNat) * 2 ^ f.mw + (n - 2 ^ f.mw)
    if mag > f.maxFin then (overflowBits f mode sat neg, exOF ||| exNX)
    else
      (f.signBit neg + mag,
        if inexact then (if n < 2 ^ f.mw then exUF ||| exNX else exNX) else 0)

/-- `fp_in` (R220): flush, then the value, with invalid for a signalling NaN. -/
def fpIn (f : Fmt) (ftz : Bool) (v : Nat) : FVal × Exc :=
  let x := v % 2 ^ f.width
  let x := if ftz && f.flushes && f.isSub x then f.signBit (f.sign x) else x
  (f.value x, if f.isSnan x then exNV else 0)

/-- `fp_out` (R220): canonical NaN, rounding, flush of a subnormal result (R47). -/
def fpOut (f : Fmt) (mode : Mode) (ftz sat : Bool) : FVal → FRes
  | .nan => (f.canonNan, 0)
  | .inf s => (f.infBits s, 0)
  | .fin s m e =>
    let r := roundFin f mode sat s m e
    if ftz && f.flushes && f.isSub r.1 then (f.signBit s, r.2 ||| exUF ||| exNX) else r

/-- Negation of a value. -/
def FVal.neg : FVal → FVal
  | .nan => .nan
  | .inf s => .inf (!s)
  | .fin s m e => .fin (!s) m e

/-- Signed integer of a finite value at exponent `e0 ≤ e`. -/
def signedAt (s : Bool) (m : Nat) (e e0 : Int) : Int :=
  let v : Int := (m * 2 ^ (e - e0).toNat : Nat)
  if s then -v else v

/-- Exact sum of two finite values; the sign of a zero sum by R46. -/
def addFin (mode : Mode) (s1 : Bool) (m1 : Nat) (e1 : Int) (s2 : Bool) (m2 : Nat) (e2 : Int) : FVal :=
  let e0 := if e1 ≤ e2 then e1 else e2
  let t := signedAt s1 m1 e1 e0 + signedAt s2 m2 e2 e0
  if t = 0 then .fin (if s1 == s2 then s1 else mode == .m) 0 e0
  else .fin (decide (t < 0)) t.natAbs e0

/-- x + y (R223): NaN, or infinities of unlike sign raise invalid. -/
def fAdd (mode : Mode) : FVal → FVal → FVal × Exc
  | .nan, _ => (.nan, 0)
  | _, .nan => (.nan, 0)
  | .inf s, .inf t => if s == t then (.inf s, 0) else (.nan, exNV)
  | .inf s, .fin _ _ _ => (.inf s, 0)
  | .fin _ _ _, .inf t => (.inf t, 0)
  | .fin s1 m1 e1, .fin s2 m2 e2 => (addFin mode s1 m1 e1 s2 m2 e2, 0)

/-- x × y (R223): 0 × ∞ raises invalid. -/
def fMul : FVal → FVal → FVal × Exc
  | .nan, _ => (.nan, 0)
  | _, .nan => (.nan, 0)
  | .inf s, .inf t => (.inf (s != t), 0)
  | .inf s, .fin t m _ => if m = 0 then (.nan, exNV) else (.inf (s != t), 0)
  | .fin t m _, .inf s => if m = 0 then (.nan, exNV) else (.inf (s != t), 0)
  | .fin s1 m1 e1, .fin s2 m2 e2 => (.fin (s1 != s2) (m1 * m2) (e1 + e2), 0)

/-- x × y + z, exact (R223). -/
def fFma (mode : Mode) (x y z : FVal) : FVal × Exc :=
  let p := fMul x y
  let r := fAdd mode p.1 z
  (r.1, p.2 ||| r.2)

/-- Sum of a list of values, the last first; a zero sum takes the common sign of its terms, else the sign of R46. -/
def sumTerms (mode : Mode) : List FVal → FVal
  | [] => .fin false 0 0
  | [x] => x
  | x :: xs => (fAdd mode x (sumTerms mode xs)).1

/-- Exact sum of a list of values (R53, R231, R233, R259): invalid where infinities of unlike sign are among its terms,
whether or not a term is a NaN and wherever it stands (DESIGN CHOICE, log entry 49). -/
def fSum (mode : Mode) (l : List FVal) : FVal × Exc :=
  if l.contains (.inf false) && l.contains (.inf true) then (.nan, exNV) else (sumTerms mode l, 0)

/-- Exact quotient, correctly roundable: a quotient of at least 2 bits beyond any format, the last bit sticky. -/
def divFin (s : Bool) (m1 : Nat) (e1 : Int) (m2 : Nat) (e2 : Int) : FVal :=
  let k := 40 + Nat.log2 m2
  let n := m1 * 2 ^ k
  .fin s (2 * (n / m2) + (if n % m2 = 0 then 0 else 1)) (e1 - e2 - k - 1)

/-- x / y with R241's special cases. -/
def fDiv : FVal → FVal → FVal × Exc
  | .nan, _ => (.nan, 0)
  | _, .nan => (.nan, 0)
  | .inf _, .inf _ => (.nan, exNV)
  | .inf s, .fin t _ _ => (.inf (s != t), 0)
  | .fin s _ _, .inf t => (.fin (s != t) 0 0, 0)
  | .fin s m1 e1, .fin t m2 e2 =>
    if m2 = 0 then (if m1 = 0 then (.nan, exNV) else (.inf (s != t), exDZ))
    else if m1 = 0 then (.fin (s != t) 0 0, 0)
    else (divFin (s != t) m1 e1 m2 e2, 0)

/-- Integer square root, bit by bit. -/
def isqrtAux (n : Nat) : Nat → Nat → Nat
  | 0, acc => acc
  | b + 1, acc =>
    let c := acc + 2 ^ b
    isqrtAux n b (if c * c ≤ n then c else acc)

/-- Integer square root of n. -/
def isqrt (n : Nat) : Nat := isqrtAux n (Nat.log2 n / 2 + 1) 0

/-- √ of m · 2^e with a sticky last bit, m > 0. -/
def sqrtFin (m : Nat) (e : Int) : FVal :=
  let (m, e) := if e % 2 = 0 then (m, e) else (2 * m, e - 1)
  let n := m * 2 ^ 80
  let r := isqrt n
  .fin false (2 * r + (if r * r = n then 0 else 1)) (e / 2 - 40 - 1)

/-- √x (R241). -/
def fSqrt : FVal → FVal × Exc
  | .nan => (.nan, 0)
  | .inf s => if s then (.nan, exNV) else (.inf false, 0)
  | .fin s m e => if m = 0 then (.fin s 0 e, 0) else if s then (.nan, exNV) else (sqrtFin m e, 0)

/-- Comparison of two values that are not NaN: −1, 0 or 1. -/
def FVal.cmp : FVal → FVal → Int
  | .inf s, .inf t => if s == t then 0 else if s then -1 else 1
  | .inf s, _ => if s then -1 else 1
  | _, .inf t => if t then 1 else -1
  | .fin s1 m1 e1, .fin s2 m2 e2 =>
    let e0 := if e1 ≤ e2 then e1 else e2
    let a := signedAt s1 m1 e1 e0
    let b := signedAt s2 m2 e2 e0
    if a < b then -1 else if b < a then 1 else 0
  | _, _ => 0

/-- NaN test. -/
def FVal.isNan : FVal → Bool
  | .nan => true
  | _ => false

/-- Sign of a value. -/
def FVal.sign : FVal → Bool
  | .nan => false
  | .inf s => s
  | .fin s _ _ => s

/-! ### Shift formats (R37 to R40) -/

/-- Value of a term nibble in units of 1/64 (R37). -/
def dsTerm (n : Nat) : Int :=
  let k := n % 8
  if k = 7 then 0 else if n / 8 % 2 = 1 then -((2 ^ (6 - k) : Nat) : Int) else ((2 ^ (6 - k) : Nat) : Int)

/-- Value of a DS8 code in units of 1/64 (R37, R38). -/
def ds8Units (c : Nat) : Int := dsTerm (c / 16 % 16) + dsTerm (c % 16)

/-- A DS8 code as an exact value; zero is +0 (R37). -/
def ds8Value (c : Nat) : FVal :=
  let v := ds8Units c
  .fin (decide (v < 0)) v.natAbs (-6)

/-- First pair (k1, k2), k1 < k2, of a list that `f` accepts. -/
def pairs7 : List (Nat × Nat) :=
  (List.range 7).flatMap fun i => (List.range 7).filterMap fun j => if i < j then some (i, j) else none

/-- Canonical code of a magnitude in units of 1/64 with a sign (R39); `none` outside the value set. -/
def dsCanon (neg : Bool) (v : Nat) : Option Nat :=
  let sg := if neg then 8 else 0
  if v = 0 then some 0x77
  else
    match (List.range 7).find? (fun k => 2 ^ (6 - k) = v) with
    | some k => some ((sg + k) * 16 + 7)
    | none =>
      if v = 128 then some (sg * 16 + sg)
      else
        match pairs7.find? (fun p => 2 ^ (6 - p.1) + 2 ^ (6 - p.2) = v) with
        | some p => some ((sg + p.1) * 16 + (sg + p.2))
        | none =>
          match pairs7.find? (fun p => 2 ^ (6 - p.1) - 2 ^ (6 - p.2) = v) with
          | some p => some ((sg + p.1) * 16 + ((8 - sg) + p.2))
          | none => none

/-- Nearest member at or below a magnitude, searching down. -/
def dsBelow : Nat → Nat
  | 0 => 0
  | n + 1 => if (dsCanon false (n + 1)).isSome then n + 1 else dsBelow n

/-- Nearest member at or above, searching up within `fuel`. -/
def dsAbove : Nat → Nat → Nat
  | 0, n => n
  | fuel + 1, n => if (dsCanon false n).isSome then n else dsAbove fuel (n + 1)

/-- Trailing zero bits of a nonzero number, within `fuel`. -/
def trailing : Nat → Nat → Nat
  | 0, _ => 0
  | fuel + 1, n => if n % 2 = 0 then 1 + trailing fuel (n / 2) else 0

/-- `dsenc` of a value (R237). -/
def dsenc (mode : Mode) (sat : Bool) : FVal → FRes
  | .nan => (0x77, exNV)
  | .inf s => if sat then (if s then 0x88 else 0x00, 0) else (0x77, exNV)
  | .fin s m e =>
    -- |x| in units of 1/64 is m * 2^(e+6) = whole + r/h
    let e6 := e + 6
    let (whole, r, h) : Nat × Nat × Nat :=
      match e6 with
      | .ofNat k => (m * 2 ^ k, 0, 1)
      | .negSucc k => (m / 2 ^ (k + 1), m % 2 ^ (k + 1), 2 ^ (k + 1))
    if whole > 128 ∨ (whole = 128 ∧ r ≠ 0) then
      if mode = .z ∨ (mode = .p ∧ s = true) ∨ (mode = .m ∧ s = false) ∨ sat = true then
        (if s then 0x88 else 0x00, exOF ||| exNX)
      else (0x77, exNV)
    else if r = 0 ∧ (dsCanon s whole).isSome then ((dsCanon s whole).getD 0x77, 0)
    else
      let lo := dsBelow whole
      let hi := dsAbove 128 (whole + 1)
      let toHi : Bool :=
        match mode with
        | .z => false
        | .p => !s
        | .m => s
        | .ne =>
          let d := 2 * (whole * h + r)
          let mid := (lo + hi) * h
          if d = mid then
            (lo != 0) && (decide (trailing 8 hi > trailing 8 lo))
          else decide (d > mid)
        | .na => decide (2 * (whole * h + r) ≥ (lo + hi) * h)
      ((dsCanon s (if toHi then hi else lo)).getD 0x77, exNX)

end Sys2Proof.Machine
end

