-- ==== Sys2Proof/Machine/Ops.lean ====
section
/-! DEFINITION. The named operations over registers, memory, vaults, contexts and translation, taking a trap and
returning from one. -/

namespace Sys2Proof.Machine

/-- What a meaning answers. -/
abbrev Out := Host.Outcome State Fault Refusal

/-! ### Tables: lists of records found by a key -/

/-- First record that matches, or a default. -/
def tget (p : α → Bool) (d : α) (l : List α) : α := (l.find? p).getD d

/-- Replace the first record that matches, or append. -/
def tset (p : α → Bool) (v : α) : List α → List α
  | [] => [v]
  | x :: xs => if p x then v :: xs else x :: tset p v xs

/-- Change every record that matches. -/
def tmod (p : α → Bool) (f : α → α) (l : List α) : List α := l.map fun x => if p x then f x else x

/-- Drop every record that matches. -/
def tdel (p : α → Bool) (l : List α) : List α := l.filter fun x => !p x

/-- A value kept only where it differs from a default. -/
def kvGet (k d : Nat) (l : List (Nat × Nat)) : Nat := ((l.find? fun x => x.1 == k).map (·.2)).getD d

/-- Set a keyed value. -/
def kvSet (k : Nat) (v : β) (l : List (Nat × β)) : List (Nat × β) := tset (fun x => x.1 == k) (k, v) l

/-- Add a number to a list of numbers once. -/
def addOnce (n : Nat) (l : List Nat) : List Nat := if l.contains n then l else l ++ [n]

/-- Bits `lo + len - 1` to `lo` of a number. -/
def bitsOf (v lo len : Nat) : Nat := v / 2 ^ lo % 2 ^ len

/-! ### Places of the module (R13, R75) -/

/-- Pair of a quay (R13). -/
def pairOf (q : Nat) : Nat := q / 2
/-- Basin of a quay (R13). -/
def basinOf (q : Nat) : Nat := q / 8
/-- Die of a quay (R13). -/
def dieOf (q : Nat) : Nat := q / 32

/-! ### Memory bytes -/

/-- The byte at an address; an unlisted one reads 0 (log entry 4). -/
def Mem.read : Mem → Nat → Byte
  | [], _ => 0
  | (k, v) :: t, a => if k = a then v else Mem.read t a

/-- Write one byte, keeping the canonical form. -/
def Mem.write : Mem → Nat → Byte → Mem
  | [], a, v => if v = 0 then [] else [(a, v)]
  | (k, w) :: t, a, v =>
    if a < k then (if v = 0 then (k, w) :: t else (a, v) :: (k, w) :: t)
    else if a = k then (if v = 0 then t else (a, v) :: t)
    else (k, w) :: Mem.write t a v

/-- Every address of the list is above `b`, strictly rising, no byte is 0. -/
def Mem.above : Nat → Mem → Bool
  | _, [] => true
  | b, (k, v) :: t => decide (b ≤ k) && v != 0 && Mem.above (k + 1) t

/-- The canonical form: addresses strictly rising, no entry equal to what an unlisted address reads as. -/
def Mem.wf (m : Mem) : Bool := Mem.above 0 m

/-- `n` bytes from an address. -/
def Mem.readN (m : Mem) (a : Nat) : Nat → List Byte
  | 0 => []
  | n + 1 => Mem.read m a :: Mem.readN m (a + 1) n

/-- Write bytes from an address on. -/
def Mem.writeN (m : Mem) (a : Nat) : List Byte → Mem
  | [] => m
  | b :: bs => Mem.writeN (Mem.write m a b) (a + 1) bs

/-- Little-endian number of `n` bytes (R4). -/
def Mem.nat (m : Mem) (a n : Nat) : Nat := leNat (Mem.readN m a n)

/-! ### Identifiers, free values -/

/-- A fresh identifier of the model. -/
def State.fresh (s : State) : Nat × State := (s.nextId, { s with nextId := s.nextId + 1 })

/-- A free choice (log entry 6): the next value of `Config.freeChoice`. -/
def State.choose (s : State) : Nat × State := (Config.freeChoice s.freeCtr, { s with freeCtr := s.freeCtr + 1 })

/-- Bits 15:0 of %clock (R356). -/
def State.stamp (s : State) : BitVec 16 := BitVec.ofNat 16 s.clock

/-! ### Contexts -/

/-- Context `c`; a number that is free reads as an empty record of that number. -/
def State.ctx (s : State) (c : Nat) : Ctx := tget (fun x => x.num == c) { num := c } s.ctxs

/-- Whether `c` is a live context (R416). -/
def State.ctxLive (s : State) (c : Nat) : Bool := s.ctxs.any fun x => x.num == c

/-- Replace a live context's record. -/
def State.setCtx (s : State) (c : Ctx) : State := { s with ctxs := tmod (fun x => x.num == c.num) (fun _ => c) s.ctxs }

/-- Parent of a context, none for the root (R416). -/
def State.parentOf (s : State) (c : Nat) : Option Nat := if c = 0 then none else some (s.ctx c).parent

/-- Whether `a` is `c` or an ancestor of `c`; the tree has at most eight levels (R416). -/
def State.isAncestor (s : State) (a c : Nat) : Nat → Bool
  | 0 => a == c
  | n + 1 => a == c || (c != 0 && s.isAncestor a (s.ctx c).parent n)

/-- Whether `d` lies in the subtree of `c` (R405). -/
def State.inSubtree (s : State) (c d : Nat) : Bool := s.isAncestor c d 8

/-- Whether a context and all its ancestors have their run bits set (R411). -/
def State.runs (s : State) (c : Nat) : Nat → Bool
  | 0 => false
  | n + 1 => (s.ctx c).run && (c == 0 || s.runs (s.ctx c).parent n)

/-- The context a quay is assigned to: the root until a `ctx.give` (R417). -/
def State.assignee (s : State) (q : Nat) : Nat := kvGet q 0 s.quayCtx

/-- Whether a context holds a quay: it is assigned to the context or to a descendant (R417). -/
def State.holdsQuay (s : State) (c q : Nat) : Bool := s.inSubtree c (s.assignee q)

/-- A quay is on its way to a context at the end of a slice: accesses that may reach its vault wait at their ports (R391). -/
def State.vaultComing (s : State) (c : Nat) : Bool :=
  s.handovers.any (fun h => h.restore && s.inSubtree c h.new) ||
    s.preempts.any fun p => p.slice && s.sections.any fun y =>
      (p.todo.contains y.quay || (p.quays.contains y.quay && !p.saved.contains y.quay)) && s.assignee y.quay != y.ctx &&
        s.inSubtree c y.ctx && s.runs y.ctx 9

/-- Partition of a quay (R426). -/
def State.partOfQuay (s : State) (q : Nat) : Nat := kvGet q 0 s.quayPart

/-- Partition of slice `i` of a die, slices numbered 16 · die + i (R69). -/
def State.partOfSlice (s : State) (sl : Nat) : Nat := kvGet sl 0 s.sliceOwner

/-- Whether scope `sc` is permitted to a context (R159). -/
def State.scopeOk (s : State) (c : Nat) (sc : BitVec 3) : Bool := (s.ctx c).allow.getLsbD sc.toNat || sc == 0

/-- A queue of a context (R345). -/
def State.queue (s : State) (c q : Nat) : Queue := tget (fun x => x.n == q) { n := q } (s.ctx c).queues

/-- Replace a queue of a context. -/
def State.setQueue (s : State) (c : Nat) (q : Queue) : State :=
  let x := s.ctx c
  s.setCtx { x with queues := tset (fun y => y.n == q.n) q x.queues }

/-- EN of a queue descriptor: the queue is held (R345). -/
def Queue.en (q : Queue) : Bool := q.desc.getLsbD 63

/-! ### Threads and groups -/

/-- The thread in a slot; a slot nobody placed is FREE. -/
def State.thread (s : State) (q sl : Nat) : Thread :=
  tget (fun t => t.quay == q && t.slot == sl) { quay := q, slot := sl } s.threads

/-- Replace a slot. -/
def State.setThread (s : State) (t : Thread) : State :=
  { s with threads := tset (fun u => u.quay == t.quay && u.slot == t.slot) t s.threads }

/-- A resident group. -/
def State.group (s : State) (g : Nat) : Group := tget (fun x => x.id == g) { id := g } s.groups

/-- Change a resident group. -/
def State.modGroup (s : State) (g : Nat) (f : Group → Group) : State :=
  { s with groups := tmod (fun x => x.id == g) f s.groups }

/-- The context a thread runs in: hctx during a handler (R370). -/
def Thread.runCtx (t : Thread) : Nat := if t.ih then t.hctx else t.ctx

/-- Register code 0 to 63 x, 64 to 111 p (R174): its value (R160). -/
def Thread.reg (t : Thread) (r : Nat) : Word :=
  if r < 64 then t.x.getD r 0 else if t.p.getLsbD (r - 64) then 1 else 0

/-- Write a register code; a predicate stores bit 0 (R160). -/
def Thread.setReg (t : Thread) (r : Nat) (v : Word) : Thread :=
  if r < 64 then { t with x := t.x.set r v, regPoison := t.regPoison &&& ~~~(1#112 <<< r) }
  else
    let m := 1#48 <<< (r - 64)
    { t with p := if v.getLsbD 0 then t.p ||| m else t.p &&& ~~~m,
             regPoison := t.regPoison &&& ~~~(1#112 <<< r) }

/-- A field of the trap record (R367). -/
def Thread.recField (t : Thread) (lo len : Nat) : Nat := (t.traprec.extractLsb' lo len).toNat

/-- VALID of the trap record (R367). -/
def Thread.trapValid (t : Thread) : Bool := t.traprec.getLsbD 63

/-! ### Energy (R435 to R440) -/

/-- Meter of a quay. -/
def meterQuay (q : Nat) : Nat := q
/-- Meter of an L2 slice. -/
def meterSlice (sl : Nat) : Nat := 1000 + sl
/-- Meter of a slice's channel group. -/
def meterChan (sl : Nat) : Nat := 2000 + sl
/-- Meter of the routers of a die. -/
def meterNet (die : Nat) : Nat := 3000 + die
/-- Meter of the links. -/
def meterLink : Nat := 4000
/-- Residue of the shared static costs (R439, R504). -/
def meterStatic : Nat := 5000

/-- Weight of an event class (R435, R436). -/
def State.weight (s : State) (cls : Nat) : Nat := s.dev.fuses.weights.getD cls 0

/-- Charge femtojoules at a meter to a context (R437). -/
def State.chargeFj (s : State) (meter c fj : Nat) : State :=
  let key := fun (x : Nat × Nat × Nat) => x.1 == meter && x.2.1 == c
  let old := (tget key (meter, c, 0) s.meters).2.2
  { s with meters := tset key (meter, c, old + fj) s.meters }

/-- Charge `n` events of a class (R435). -/
def State.charge (s : State) (meter c cls n : Nat) : State := s.chargeFj meter c (s.weight cls * n)

/-! ### The on-chip network (R17, R81, R132, R435) -/

/-- The die boundaries (R17): dies adjacent in a row or a column of the 2 × 4 grid. -/
def boundaries : List (Nat × Nat) := [(0, 1), (1, 2), (2, 3), (4, 5), (5, 6), (6, 7), (0, 4), (1, 5), (2, 6), (3, 7)]

/-- The routes on the grid from die `a` to die `b` that meet no die twice: the boundaries each crosses, in order. -/
def routesTo (b : Nat) : Nat → List Nat → Nat → List (List Nat)
  | 0, _, a => if a = b then [[]] else []
  | fuel + 1, met, a =>
    if a = b then [[]]
    else
      boundaries.zipIdx.flatMap fun x =>
        let next := if x.1.1 = a then some x.1.2 else if x.1.2 = a then some x.1.1 else none
        match next with
        | some d => if met.contains d then [] else (routesTo b fuel (d :: met) d).map (x.2 :: ·)
        | none => []

/-- Boundaries of the hardware's route between two dies (R17): their own where they are adjacent, else those of a route on the
grid that the network chooses (log entry 6). -/
def routeOf (a b : Nat) : List Nat :=
  if a = b then []
  else
  match boundaries.findIdx? fun x => x == (min a b, max a b) with
  | some k => [k]
  | none =>
    let rs := routesTo (max a b) 7 [min a b] (min a b)
    (rs[Config.routePick (min a b) (max a b) % rs.length]?).getD []

/-- Die of a place of the network: quays 0 to 255, then slices 256 + 16 · die + i. -/
def placeDie (t : Nat) : Nat := if t < 256 then t / 32 else (t - 256) / 16

/-- Charge the flits of a message between two places (R132, R435): routers in class 11, die boundaries in class 12. -/
def State.chargeWay (s : State) (c source dest flits : Nat) : State :=
  let n := (routeOf (placeDie source) (placeDie dest)).length
  (s.charge (meterNet (placeDie dest)) c 11 (flits * (1 + Config.routerHops source dest))).charge
    (meterNet (placeDie source)) c 12 (flits * n)

/-- Charge bytes that an operation moves from a quay to another: five flits a line. -/
def State.chargeMove (s : State) (c source dest n : Nat) : State :=
  if source = dest then s else s.chargeWay c source dest (5 * ((n + 127) / 128))

/-- Flits of a coherence message (R81). -/
def NetBody.flits : NetBody → Nat
  | .data _ _ _ | .wb _ | .fdata _ _ => 5
  | .put _ owner _ => if owner then 5 else 1
  | _ => 1

/-- Place of a coherent cache (R75). -/
def holderPlace (h : Nat) : Nat := if h < 512 then h % 256 else 32 * (h % 8)

/-- Whether a coherence message goes from a cache to the home; the others go the other way (R81). -/
def NetBody.toHome : NetBody → Bool
  | .gets _ _ _ | .getm _ _ _ | .wb _ | .put _ _ _ | .done | .preq | .pdone | .swack _ => true
  | _ => false

/-- Context that a coherence message is charged to (R132, R438): that of the access that asks, else of what it is sent for. -/
def State.payer (s : State) (m : NetMsg) : Nat :=
  match m.body with
  | .gets _ c _ | .getm _ c _ => c
  | .uncached _ _ _ _ _ _ | .farSweep _ => 0
  | .preq => ((s.reqs.find? fun r => r.line == m.line && r.holder == m.holder).map (·.ctx)).getD 0
  | _ => s.paying

/-- The coherence messages sent from here on are sent for context `c` (R438). -/
def State.payBy (s : State) (c : Nat) : State := { s with paying := c }

/-- Charge a coherence message for its way (R132, R435, R438): a sweep goes to each die and back. -/
def State.chargeMsg (s : State) (m : NetMsg) (home : Nat) : State :=
  let cache := match m.body with
    | .sweep d _ | .swack d => 32 * d
    | _ => holderPlace m.holder
  let c := s.payer m
  s.chargeWay c (if m.body.toHome then cache else home) (if m.body.toHome then home else cache) m.body.flits

/-! ### Physical addresses (R56, R57, R61, R62) -/

/-- What a physical address names (R56). -/
inductive PaKind where
  | hbm (slice off : Nat)
  | view (die r off : Nat)
  | control (die off : Nat)
  | remote (mod : Nat)
  | none
  deriving DecidableEq, Repr, Inhabited

/-- Format region `r` of a die (R61). -/
def State.region (s : State) (die r : Nat) : FmtRegion :=
  tget (fun x => x.die == die && x.r == r) { die := die, r := r } s.fmt

/-- EN of a format region (R63). -/
def FmtRegion.en (g : FmtRegion) : Bool := g.ctl.getLsbD 63
/-- BUSY of a format region (R63). -/
def FmtRegion.busy (g : FmtRegion) : Bool := g.ctl.getLsbD 62
/-- FMT (R63). -/
def FmtRegion.fmtc (g : FmtRegion) : Nat := (g.ctl.extractLsb' 8 4).toNat
/-- GS (R63). -/
def FmtRegion.gs (g : FmtRegion) : Nat := (g.ctl.extractLsb' 4 4).toNat
/-- SBASE (R63). -/
def FmtRegion.sbase (g : FmtRegion) : Nat := (g.store.extractLsb' 0 52).toNat
/-- VPAGES (R63). -/
def FmtRegion.vpages (g : FmtRegion) : Nat := (g.size.extractLsb' 0 18).toNat
/-- CBASE (R63). -/
def FmtRegion.cbase (g : FmtRegion) : Nat := (g.scale.extractLsb' 0 52).toNat
/-- Bytes of the stored range (R63). -/
def FmtRegion.storedLen (g : FmtRegion) : Nat := if g.fmtc = 6 then g.vpages * 32768 else g.vpages * 65536
/-- Bytes of the scale region (R63). -/
def FmtRegion.scaleLen (g : FmtRegion) : Nat := (g.vpages * 512 + (2 ^ g.gs - 1)) / 2 ^ g.gs

/-- End of the software memory of a slice (R57). -/
def softEnd : Nat := 0x160000000
/-- End of the hardware area (R57). -/
def hardEnd : Nat := 0x165A0BC00

/-- Decode a physical address (R56, R57, R62); a module outside any domain has MOD 0 of its own (log entry 5). -/
def State.paKind (s : State) (pa : Nat) : PaKind :=
  let mod := bitsOf pa 44 8
  if mod ≠ s.domain.mod.toNat then .remote mod
  else
    let die := bitsOf pa 37 3
    match bitsOf pa 40 4 with
    | 0 => .hbm (die * 16 + bitsOf pa 33 4) (bitsOf pa 0 33)
    | 8 => .view die (bitsOf pa 33 4) (bitsOf pa 0 33)
    | 15 => .control die (bitsOf pa 0 37)
    | _ => .none

/-- Address of the stored byte behind a view offset (R68). -/
def FmtRegion.stored (g : FmtRegion) (off : Nat) : Nat :=
  if g.fmtc = 6 then g.sbase + off / 2 else g.sbase + off

/-- A byte of global memory as a local read returns it: HBM bytes, the filled view line (R57, R68), or the capability
list that the management processor keeps (R27, R30). -/
def State.gbyte (s : State) (pa : Nat) : Byte :=
  match s.paKind pa with
  | .view die r off =>
    let g := s.region die r
    let b := Mem.read s.mem (g.stored off)
    if g.fmtc = 6 then
      let c := if off % 2 = 0 then b.extractLsb' 0 4 else b.extractLsb' 4 4
      c ++ 7#4
    else b
  | _ =>
    match s.dev.capsAt with
    | some p => if p ≤ pa ∧ pa < p + capsLen then s.capsByte (pa - p) else Mem.read s.mem pa
    | none => Mem.read s.mem pa

/-- `n` bytes of global memory. -/
def State.gbytes (s : State) (pa : Nat) : Nat → List Byte
  | 0 => []
  | n + 1 => s.gbyte pa :: s.gbytes (pa + 1) n

/-- Metadata of a global line at its home (R60, R68, R502): a view line's come from its region. -/
def State.gmeta (s : State) (line : Nat) : LineMeta :=
  match s.paKind (line * 128) with
  | .view die r off =>
    let g := s.region die r
    let j := off / 128
    let sa := g.cbase + j / 2 ^ g.gs
    ⟨Mem.read s.mem sa, BitVec.ofNat 4 g.fmtc,
      s.poisoned.contains (g.stored off / 128) || s.poisoned.contains (sa / 128)⟩
  | _ => ⟨0, 0, s.poisoned.contains line⟩

/-- Count a line newly poisoned (R461). -/
def State.countPoison (s : State) (p : Bool) : State :=
  if p then { s with dev := { s.dev with err := { s.dev.err with poison := s.dev.err.poison + 1 } } } else s

/-- Set or clear the poison of a global line at its home (R71), counting a line newly poisoned. -/
def State.setPoison (s : State) (line : Nat) (p : Bool) : State :=
  if p then
    if s.poisoned.contains line then s else { s with poisoned := s.poisoned ++ [line] }.countPoison true
  else { s with poisoned := s.poisoned.filter (· != line) }

/-- Write bytes of global memory that lie in one line (R71, R502): a whole line takes the poison of its data, a part
keeps the line poisoned if it was. -/
def State.gwrite (s : State) (pa : Nat) (bs : List Byte) (poison : Bool) : State :=
  let line := pa / 128
  let whole := bs.length == 128 && pa % 128 == 0
  let s := { s with mem := Mem.writeN s.mem pa bs }
  if whole then s.setPoison line poison
  else if poison then s.setPoison line true else s

/-- Slice that homes a physical address, 16 · die + i (R57, R61). -/
def State.homeSlice (s : State) (pa : Nat) : Nat :=
  match s.paKind pa with
  | .hbm sl _ => sl
  | .view die r off =>
    let g := s.region die r
    bitsOf (g.stored off) 37 3 * 16 + bitsOf (g.stored off) 33 4
  | _ => 0

/-- Charge an access of a slice (R435, R438): one of its L2, and the HBM bytes it moves. -/
def State.chargeSlice (s : State) (sl line c : Nat) : State :=
  (s.charge (meterSlice sl) c 9 1).charge (meterChan sl) c 10 (Config.hbmBytes line s.clock)

/-- Charge an access of a line at its home. -/
def State.chargeHome (s : State) (line c : Nat) : State := s.chargeSlice (s.homeSlice (line * 128)) line c

/-- Charge an uncached access of a slice by an agent (R88, R435): the request on its way, the answer, the access. -/
def State.chargeUncached (s : State) (place sl line c : Nat) : State :=
  ((s.chargeWay c place (256 + sl) 1).chargeWay c (256 + sl) place (1 + Config.uncachedFlits line s.clock)).chargeSlice sl line c

/-- Charge an uncached access of a line. -/
def State.chargeAt (s : State) (place line c : Nat) : State := s.chargeUncached place (s.homeSlice (line * 128)) line c

/-- Charge uncached accesses of the lines of a range of memory. -/
def State.chargeLines (s : State) (place pa n c : Nat) : State :=
  (List.range ((pa % 128 + n + 127) / 128)).foldl (fun s k => s.chargeAt place (pa / 128 + k) c) s

/-- A place on the die of an agent that the manual places nowhere (log entry 34). -/
def agentPlace (agent : Nat) : Nat := 32 * (Config.agentDie agent % 8)

/-- Charge bytes of a vault that are read or written (R435). -/
def State.chargeVault (s : State) (q c n : Nat) : State := s.charge (meterQuay q) c 8 n

/-- Whether ranges [a, a+n) and [b, b+m) meet. -/
def overlaps (a n b m : Nat) : Bool := a < b + m && b < a + n

/-- Enabled format regions whose stored range or scale region meets a range (R67). -/
def State.regionOver (s : State) (pa n : Nat) (f : FmtRegion → Bool) : Bool :=
  s.fmt.any fun g => f g && (overlaps pa n g.sbase g.storedLen || overlaps pa n g.cbase g.scaleLen)

/-! ### Page tables at the homes -/

/-- Freeze entry of a page (R90). -/
def State.frzOf (s : State) (page : Nat) : FrzEntry := tget (fun x => x.page == page) { page := page } s.frz

/-- Replace a freeze entry. -/
def State.setFrz (s : State) (e : FrzEntry) : State := { s with frz := tset (fun x => x.page == e.page) e s.frz }

/-- Generation of a page at its home (R103). -/
def State.genOf (s : State) (page : Nat) : BitVec 8 := (tget (fun x => x.page == page) { page := page } s.gens).gen

/-! ### Vaults (R133 to R151) -/

/-- End of a vault (R133). -/
def vaultEnd : Nat := 0xC00000

/-- Key of a vault byte. -/
def vkey (q off : Nat) : Nat := q * 2 ^ 24 + off

/-- Key of a vault line. -/
def vline (q off : Nat) : Nat := vkey q off / 128

/-- Metadata of a vault line (R134). -/
def State.vmeta (s : State) (key : Nat) : VLine := tget (fun x => x.key == key) { key := key } s.vlines

/-- Replace a vault line's metadata. -/
def State.setVmeta (s : State) (l : VLine) : State := { s with vlines := tset (fun x => x.key == l.key) l s.vlines }

/-- Region of a quay's vault that covers an offset (R138). -/
def State.regionAt (s : State) (q off : Nat) : Option Region :=
  s.regions.find? fun r => r.quay == q && decide (r.vpg * 4096 ≤ off) && decide (off < (r.vpg + r.npg + 1) * 4096)

/-- Bytes of a vault. -/
def State.vread (s : State) (q off n : Nat) : List Byte := Mem.readN s.vmem (vkey q off) n

/-- Whether any line of a vault range is poisoned. -/
def State.vpoison (s : State) (q off n : Nat) : Bool :=
  s.vlines.any fun l => l.poison && decide (vline q off ≤ l.key) && decide (l.key ≤ vline q (off + n - 1))

/-- Entries of the wait tables that a write of an object wakes (R337). -/
def State.wakeWaits (s : State) (sel : WaitEntry → Bool) : State :=
  { s with waits := tmod sel (fun w => { w with woken := w.slots }) s.waits }

/-- Clear presence bits of the 32-bit words a write touches (R149), set the written bit of its unit (R389), and wake the
wait tables of the die that name an object there (R337). -/
def State.vtouch (s : State) (q off n : Nat) : State :=
  let s := s.wakeWaits fun w => dieOf w.quay == dieOf q &&
    match w.loc with
    | .vault r o => r == q && overlaps off n o 16
    | .glob _ => false
  { s with presence := s.presence.filter fun w => w < vkey q off / 4 || vkey q (off + n - 1) / 4 < w,
           vwritten := addOnce (vkey q off / 4096) s.vwritten }

/-- A fabric store, or an engine write of part of a line (R134): λ and tag 0, poison kept or gained; D of a mapped
line (R142). -/
def State.vstore (s : State) (q off : Nat) (bs : List Byte) (poison : Bool) : State :=
  let s := (s.vtouch q off bs.length)
  let l := s.vmeta (vline q off)
  let mapped := (s.regionAt q off).any (·.mapped)
  let s := s.setVmeta { l with lam := 0, tag := 0, poison := l.poison || poison, d := l.d || mapped }
  { s with vmem := Mem.writeN s.vmem (vkey q off) bs }

/-- A whole-line write with given metadata (R134); into a mapped line that has not been filled it sets V, and W does not bar
an engine (R142, log entry 72). -/
def State.vstoreLine (s : State) (q off : Nat) (bs : List Byte) (lam : BitVec 8) (tag : BitVec 4) (poison : Bool) :
    State :=
  let s := (s.vtouch q off 128)
  let l := s.vmeta (vline q off)
  let mapped := (s.regionAt q off).any (·.mapped)
  let s := s.setVmeta { l with lam := lam, tag := tag, poison := poison, v := l.v || mapped, d := l.d || mapped }
  { s with vmem := Mem.writeN s.vmem (vkey q off) bs }

/-- Zero a whole vault (R151 step 4): data, metadata, presence bits, written bits, regions. -/
def State.vzero (s : State) (q : Nat) : State :=
  { s with vmem := s.vmem.filter (fun c => c.1 / 2 ^ 24 != q),
           vlines := s.vlines.filter (fun l => l.key / 2 ^ 17 != q),
           presence := s.presence.filter (fun w => w / 2 ^ 22 != q),
           vwritten := s.vwritten.filter (fun u => u / 2 ^ 12 != q),
           framePrio := s.framePrio.filter (fun f => f.1 / 2 ^ 24 != q),
           regions := s.regions.filter (fun r => r.quay != q) }

/-- Whether a live scoreboard entry of a vault overlaps a byte range (R148). -/
def State.scored (s : State) (q off n : Nat) : Bool :=
  s.scores.any fun e => e.quay == q && decide (e.first ≤ off + n - 1) && decide (off ≤ e.last)

/-! ### Translation (R98 to R102, R107) -/

/-- A translation: physical address, log2 of the page size, permissions, generation, intermediate address, and log2 of the
size of the leaf that the generation is of (R102). -/
structure Xlate where
  pa : Nat
  size : Nat
  w : Bool
  x : Bool
  gen : BitVec 8
  ipa : Nat
  gsize : Nat := 16
  deriving DecidableEq, Repr, Inhabited

/-- Where and why a walk failed (R107, R112). -/
structure WalkFail where
  stage2 : Bool
  level : Nat
  cause : BitVec 4
  walkRead : Bool
  addr : Nat
  deriving DecidableEq, Repr, Inhabited

/-- Outcome of a walk: a translation, a failure, a table whose home holds the read back for now (R93, R96), or an entry that
another module has still to be asked for (R450). -/
inductive WalkRes where
  | ok (t : Xlate)
  | fail (f : WalkFail)
  | held
  | far (mod pa : Nat) (gen : BitVec 8)
  deriving DecidableEq, Repr, Inhabited

/-- log2 of the span of an entry of a level: T4 48, T3 39, T2 30, T1 21, T0 16 (R100). -/
def levelShift : Nat → Nat
  | 0 => 16 | 1 => 21 | 2 => 30 | 3 => 39 | _ => 48

/-- Entries of a table of a level (R100). -/
def levelEntries : Nat → Nat
  | 0 => 32 | 4 => 256 | _ => 512

/-- Level at which a flattened walk of an unmapped address fails: the first with no leaf under its entry (R107). -/
def flatLevel (leaves : List Leaf) (ipa : Nat) : Nat → Nat
  | 0 => 0
  | l + 1 =>
    if leaves.any fun x => x.ipa / 2 ^ levelShift (l + 1) == ipa / 2 ^ levelShift (l + 1) then flatLevel leaves ipa l
    else l + 1

/-- Leaf of a flattened stage that covers an address. -/
def Ctx.leafAt (c : Ctx) (ipa : Nat) : Option Leaf :=
  c.leaves.find? fun x => decide (x.ipa ≤ ipa) && decide (ipa < x.ipa + 2 ^ x.size)

/-- Level of a leaf of a size (R100). -/
def leafLevel (size : Nat) : Nat := if size ≥ 30 then 2 else if size ≥ 21 then 1 else 0

/-- Translate an intermediate address: context 0's is physical (R98, R99). -/
def State.flat (s : State) (c : Nat) (ipa : Nat) (needW needX walkRead : Bool) : WalkRes :=
  if c = 0 then .ok ⟨ipa, 30, true, true, 0, ipa, 30⟩
  else
    match (s.ctx c).leafAt ipa with
    | none => .fail ⟨true, flatLevel (s.ctx c).leaves ipa 4, 0, walkRead, ipa⟩
    | some l =>
      if (needW && !l.w) || (needX && !l.x) then
        .fail ⟨true, leafLevel l.size, 1, walkRead, ipa⟩
      else .ok ⟨l.pa + (ipa - l.ipa), l.size, l.w, l.x, l.gen, ipa, l.size⟩

/-- Whether a table may lie at a physical address (R107): software memory only; that of another module is judged at its home
(R56, R450). -/
def State.tableOk (s : State) (pa : Nat) : Bool :=
  match s.paKind pa with
  | .hbm _ off => off < softEnd
  | .remote _ => true
  | _ => false

/-- Whether a valid entry obeys every "must" of R101. -/
def entryOk (level : Nat) (e : Word) : Bool :=
  let leaf := e.getLsbD 62
  let addr := (e.extractLsb' 8 44).toNat * 256
  e.extractLsb' 60 2 == 0 && e.extractLsb' 2 6 == 0 &&
    (if leaf then level < 3 && decide (addr % 2 ^ levelShift level = 0)
     else level != 0 && decide (addr % (8 * levelEntries (level - 1)) = 0) && !e.getLsbD 0 && !e.getLsbD 1)

/-- View offset served: the region enabled and the offset inside SIZE (R62). -/
def State.viewServed (s : State) (die r off : Nat) : Bool := (s.region die r).en && off < (s.region die r).vpages * 65536

/-! ### Fault causes at the home (R70, R81, R93) -/

/-- Cause codes used by the memory system (R366). -/
def cNoMem : BitVec 8 := 0x18
/-- "partition refused". -/
def cPart : BitVec 8 := 0x19
/-- "control-window access". -/
def cCtl : BitVec 8 := 0x1A
/-- "write to format region". -/
def cFmt : BitVec 8 := 0x1B
/-- "write to frozen". -/
def cFrozen : BitVec 8 := 0x1C
/-- "non-canonical address". -/
def cNonCanon : BitVec 8 := 0x11

/-- What a home answers to a request of a quay in a context, before any token moves (R66, R67, R70, R81, R91 to R93). -/
inductive HomeSays where
  | serve
  | replica
  | hold
  | refuse (cause : BitVec 8)
  | stale (gen : BitVec 8)
  deriving DecidableEq, Repr, Inhabited

/-- A range that is being recalled before a new state stands (R96). -/
def State.recalled (s : State) (pa n : Nat) : Bool := s.recalls.any fun r => overlaps pa n r.1 r.2

/-- An address in the stored range, scale region or view of a region that is being enabled or disabled (R65). -/
def State.regionMoving (s : State) (pa : Nat) : Bool :=
  s.regionOver pa 1 (·.busy) || match s.paKind pa with | .view d r _ => (s.region d r).busy | _ => false

/-- Virtual function a context belongs to, 0 outside any (R399, R418). -/
def State.functionOf (s : State) (c : Nat) : Nat := if (s.ctx c).vf then c else (s.ctx c).vfctx

/-- Whether the home of an address counts as a context's own for an access that no quay makes (R70): such a request comes
from no quay, so a partition that the context's function owns, or with a quay the context holds, counts (log entry 13). -/
def State.ownsHome (s : State) (c pa : Nat) (write : Bool) : Bool :=
  let part := s.partOfSlice (s.homeSlice pa)
  c == 0 || kvGet part 0 s.partOwner == s.functionOf c || (!write && (s.frzOf (pa / 65536)).st == .frozen) ||
    (List.range 256).any fun q => s.partOfQuay q == part && s.holdsQuay c q

/-- The quay of an access that no quay makes: the hardware's own in a context's name. -/
def noQuay : Nat := 256

/-- Whether the partition rule lets a request through (R70): context 0's, one of a quay of the home's partition, a read of a
frozen page, or one of no quay by a context whose own the home is. -/
def State.partOk (s : State) (pa : Nat) (write : Bool) (c q : Nat) : Bool :=
  c == 0 || (!write && (s.frzOf (pa / 65536)).st == .frozen) ||
    if q < noQuay then s.partOfSlice (s.homeSlice pa) == s.partOfQuay q else s.ownsHome c pa write

/-- The checks of R81 in their order: populated memory, generation, partition, format region, freeze state; a range being
recalled holds every request until the new state stands (R96). -/
def State.homeCheck (s : State) (pa : Nat) (write : Bool) (gen : BitVec 8) (c q : Nat) : HomeSays :=
  let page := pa / 65536
  let go : HomeSays :=
    let f := s.frzOf page
    if s.recalled pa 1 then .hold
    else if s.genOf page ≠ gen then .stale (s.genOf page)
    else if s.partOk pa write c q = false then .refuse cPart
    else if s.regionMoving pa then .hold
    else if write && ((match s.paKind pa with | .view _ _ _ => true | _ => false) || s.regionOver pa 1 (·.en)) then
      .refuse cFmt
    else
      match f.st with
      | .normal => .serve
      | .freezing => .hold
      | .frozen => if write then .refuse cFrozen else .replica
      | .thawing => if write then .hold else .serve
  match s.paKind pa with
  | .none => .refuse cNoMem
  | .control _ _ => .refuse cCtl
  | .remote _ => .refuse cNoMem
  | .hbm _ off => if off < softEnd then go else .refuse cNoMem
  | .view d r off => if s.viewServed d r off || (s.region d r).busy then go else .refuse cNoMem

/-- Whether a module is reachable (R449): in a domain, with a valid route. -/
def State.reachable (s : State) (mod : Nat) : Bool :=
  s.domain.en && ((s.domain.routes.find? fun x => x.1 == mod).map (fun x => x.2.getLsbD 63)).getD false

/-! ### Walks (R98 to R102, R107) -/

/-- What the home of a translated address says to an access in a context's name (R70, R81, R102). -/
def State.homeSays (s : State) (c : Nat) (t : Xlate) (write : Bool) : HomeSays := s.homeCheck t.pa write t.gen c noQuay

/-- The failure of an access whose leaf's generation is stale (R104). -/
def Xlate.staleFail (t : Xlate) (c va : Nat) (walkRead : Bool) : WalkFail :=
  ⟨c != 0, leafLevel t.gsize, 2, walkRead, if c = 0 then va else t.ipa⟩

/-- What an entry of a table of a level gives (R100, R101, R107): the outcome, or the next table. -/
def State.entrySays (s : State) (c va : Nat) (needW needX : Bool) (level : Nat) (e : Word) : Except Nat WalkRes :=
  if e.getLsbD 63 = false then .ok (.fail ⟨false, level, 0, false, va⟩)
  else if entryOk level e = false then .ok (.fail ⟨false, level, 3, false, va⟩)
  else
    let addr := (e.extractLsb' 8 44).toNat * 256
    if e.getLsbD 62 then
      if (needW && !e.getLsbD 1) || (needX && !e.getLsbD 0) then .ok (.fail ⟨false, level, 1, false, va⟩)
      else
        let sh := levelShift level
        let ipa := addr + va % 2 ^ sh
        if c = 0 then .ok (.ok ⟨ipa, sh, e.getLsbD 1, e.getLsbD 0, e.extractLsb' 52 8, ipa, sh⟩)
        else
          match s.flat c ipa needW needX false with
          | .ok t => .ok (.ok ⟨t.pa, min sh t.size, t.w && e.getLsbD 1, t.x && e.getLsbD 0, t.gen, ipa, t.size⟩)
          | r => .ok r
    else
      match s.flat c addr false false true with
      | .ok n => if s.tableOk n.pa then .error addr else .ok (.fail ⟨false, level, 3, false, va⟩)
      | _ => .error addr

/-- What the home of another module answered to the read of an entry there (R56, R107, R450): the entry, or that it has still
to be asked.  A home that refuses the read makes the entry a bad one (log entry 54). -/
def State.farEntry (s : State) (c va : Nat) (needW needX : Bool) (level mod : Nat) (t : Xlate) : Except Nat WalkRes :=
  let bad : Except Nat WalkRes := .ok (.fail ⟨false, level, 3, false, va⟩)
  match s.remotes.find? fun r => r.who == .tables c && r.pa == t.pa with
  | none => if s.reachable mod then .ok (.far mod t.pa t.gen) else bad
  | some r =>
    match r.answer, r.stale, r.cause with
    | some bs, _, _ => s.entrySays c va needW needX level (BitVec.ofNat 64 (leNat bs))
    | none, some g, _ => if c = 0 ∨ g = t.gen then .ok (.far mod t.pa g) else .ok (.fail (t.staleFail c va true))
    | none, none, some _ => bad
    | none, none, none => .ok (.far mod t.pa t.gen)

/-- One own-stage step at the table `tbl` of a level: the outcome, or the next table (R100, R107).  The entry is read at its
home under the checks of R81; a home that refuses the read makes the entry a bad one (log entry 54).  The manual does not say
that poison stops a walk: the entry is read whatever the poison of its line (DESIGN CHOICE, log entry 80). -/
def State.walkEntry (s : State) (c va : Nat) (needW needX : Bool) (tbl level : Nat) : Except Nat WalkRes :=
  let ea := tbl + 8 * (va / 2 ^ levelShift level % levelEntries level)
  match s.flat c ea false false true with
  | .ok t =>
    match s.paKind t.pa with
    | .remote m => s.farEntry c va needW needX level m t
    | _ =>
      if s.tableOk t.pa = false then .ok (.fail ⟨false, level, 3, false, va⟩)
      else
        let t := if c = 0 then { t with gen := s.genOf (t.pa / 65536) } else t
        match s.homeSays c t false with
        | .hold => .ok .held
        | .stale _ => .ok (.fail (t.staleFail c va true))
        | .refuse _ => .ok (.fail ⟨false, level, 3, false, va⟩)
        | .serve | .replica => s.entrySays c va needW needX level (BitVec.ofNat 64 (Mem.nat s.mem t.pa 8))
  | r => .ok r

/-- The line of the entry that a walk reads at a table of a level, where the home is asked for it. -/
def State.entryLine (s : State) (c va tbl level : Nat) : List Nat :=
  match s.flat c (tbl + 8 * (va / 2 ^ levelShift level % levelEntries level)) false false true with
  | .ok t =>
    match s.paKind t.pa with
    | .remote _ => []
    | _ => if s.tableOk t.pa then [t.pa / 128] else []
  | _ => []

/-- The lines of the entries that a walk reads from a table of a level down (R107, R438). -/
def State.walkLines (s : State) (c va : Nat) : Nat → Nat → List Nat
  | tbl, 0 => s.entryLine c va tbl 0
  | tbl, l + 1 =>
    s.entryLine c va tbl (l + 1) ++
      match s.walkEntry c va false false tbl (l + 1) with
      | .ok _ => []
      | .error next => s.walkLines c va next l

/-- Die whose hardware areas hold a context's flattened-stage tables: that of its save area (R406). -/
def Ctx.stageDie (c : Ctx) : Nat := c.save / 2 ^ 37 % 8

/-- Charge the entries that a flattened walk of an intermediate address reads (R107, R438): down to its leaf, or to where it fails. -/
def State.chargeStage (s : State) (place c payer ipa : Nat) : State :=
  let x := s.ctx c
  let last := match x.leafAt ipa with
    | some l => leafLevel l.size
    | none => flatLevel x.leaves ipa 4
  if c = 0 then s
  else (List.range (5 - last)).foldl (fun s k =>
    s.chargeUncached place (16 * x.stageDie + Config.stageSlice c ipa (4 - k) % 16) (ipa / 65536) payer) s

/-- Charge what a walk reads at a table of a level, its flattened walks among it; `down` goes on to the next level. -/
def State.chargeLevel (s : State) (place c payer va tbl level : Nat) (down : Nat → State → State) : State :=
  let s := s.chargeStage place c payer (tbl + 8 * (va / 2 ^ levelShift level % levelEntries level))
  let s := (s.entryLine c va tbl level).foldl (fun s line => s.chargeAt place line payer) s
  match s.walkEntry c va false false tbl level with
  | .error next => down next s
  | .ok (.ok t) => s.chargeStage place c payer t.ipa
  | .ok (.fail f) => if f.stage2 && !f.walkRead then s.chargeStage place c payer f.addr else s
  | .ok _ => s

/-- The same from a table of a level down. -/
def State.chargeFrom (place c payer va : Nat) : Nat → Nat → State → State
  | tbl, 0, s => s.chargeLevel place c payer va tbl 0 fun _ s => s
  | tbl, l + 1, s => s.chargeLevel place c payer va tbl (l + 1) fun next s => chargeFrom place c payer va next l s

/-- Charge the reads of a walk, made at a place, to a context (R107, R438). -/
def State.chargeWalk (s : State) (place c payer va : Nat) : State := State.chargeFrom place c payer va (s.ctx c).ownRoot 4 s

/-- The own-stage walk from a table of a level down (R100, R107). -/
def State.walkFrom (s : State) (c va : Nat) (needW needX : Bool) : Nat → Nat → WalkRes
  | tbl, 0 =>
    match s.walkEntry c va needW needX tbl 0 with
    | .ok r => r
    | .error _ => .fail ⟨false, 0, 3, false, va⟩
  | tbl, l + 1 =>
    match s.walkEntry c va needW needX tbl (l + 1) with
    | .ok r => r
    | .error next => s.walkFrom c va needW needX next l

/-- The full translation of a virtual address by a context (R99, R107). -/
def State.walk (s : State) (c va : Nat) (needW needX : Bool) : WalkRes :=
  s.walkFrom c va needW needX (s.ctx c).ownRoot 4

/-- Physical address of a virtual one by a walk, where there is one. -/
def State.pa? (s : State) (c va : Nat) (needW : Bool) : Option Nat :=
  if va ≥ 2 ^ 56 then none
  else
    match s.walk c va needW false with
    | .ok t => some t.pa
    | _ => none

/-! ### Memory touched by the hardware in a context's name -/

/-- What an access that no quay makes meets: an address with its generation and intermediate address, a failed walk, a
refusal, a page on the move, a table entry that another module has still to be asked for. -/
inductive HwSays where
  | pa (n : Nat) (gen : BitVec 8) (ipa : Nat)
  | remote (mod n : Nat) (gen : BitVec 8) (ipa : Nat)
  | miss (f : WalkFail)
  | refuse (cause : BitVec 8)
  | wait
  | table (mod pa : Nat) (gen : BitVec 8)
  deriving DecidableEq, Repr, Inhabited

/-- Translation and the home's checks for an access in a context's name (R70, R81, R104). -/
def State.hwSays (s : State) (c va : Nat) (write : Bool) : HwSays :=
  if va ≥ 2 ^ 56 then .refuse cNonCanon
  else
    match s.walk c va write false with
    | .fail f => .miss f
    | .held => .wait
    | .far m pa g => .table m pa g
    | .ok t =>
      match s.paKind t.pa with
      | .remote m => .remote m t.pa t.gen t.ipa
      | _ =>
        match s.homeSays c t write with
        | .serve | .replica => .pa t.pa t.gen t.ipa
        | .hold => .wait
        | .refuse k => .refuse k
        | .stale _ => .miss (t.staleFail c va false)

/-! ### The outside world -/

/-- Bytes of a frame on a link: a header of eight, and the data it carries (log entry 34). -/
def LinkOut.bytes (o : LinkOut) : Nat :=
  let asked := fun (a : RemoteAsk) =>
    match a with
    | .store bs _ => 8 + bs.length
    | .endHold ws => 8 + (ws.map fun w => w.2.length).foldl (· + ·) 0
    | _ => 8
  match o with
  | .request _ _ _ _ a => asked a
  | .forward _ r => asked r.ask
  | .transit _ _ bs => bs.length
  | .answer _ _ bs _ | .fdata _ _ _ bs _ => 8 + bs.length
  | .coll _ (.part _ _ _ ps) | .coll _ (.sum _ _ ps) => 8 + (ps.map fun p => p.bytes.length).foldl (· + ·) 0
  | _ => 8

/-- Send frames over hawser links, charged to a context (R435, R438). -/
def State.sendLinks (s : State) (c : Nat) (ms : List LinkOut) : State :=
  let s := ms.foldl (fun s m => s.charge meterLink c 13 m.bytes) s
  { s with links := s.links ++ ms }

/-- Context in whose name a waiter acts (R438). -/
def State.waiterCtx (s : State) (y : Waiter) : Nat :=
  match y with
  | .thread q sl _ _ | .write q sl | .object q sl | .handler q sl => (s.thread q sl).runCtx
  | .fetch q e => ((s.entries.find? fun x => x.quay == q && x.e == e).map (·.fctx)).getD 0
  | .op id => ((s.ops.find? fun o => o.id == id).map (·.ctx)).getD 0
  | .queue c _ => c
  | .launch id => ((s.launches.find? fun l => l.id == id).map (·.ctx)).getD 0
  | .fill q line => ((s.regionAt q (line * 128)).map (·.ctx)).getD 0
  | .watch _ => 0
  | .node fn _ => fn
  | .append id => ((s.pgreqs.find? fun r => r.id == id).map (·.ctx)).getD 0
  | .group id => ((s.groups.find? fun g => g.id == id).map (·.ctx)).getD 0
  | .tables c | .dlog c _ => c

/-- Send a message to the control node (R445). -/
def State.send (s : State) (op fn tag : Nat) (body : List Byte) : State :=
  let hdr : Word := BitVec.ofNat 64 (op % 256 + fn % 4096 * 2 ^ 8 + tag % 65536 * 2 ^ 20 + body.length * 2 ^ 36)
  let s := s.charge meterLink fn 13 (8 + body.length)
  { s with outbox := s.outbox ++ [{ hdr := hdr, body := body }] }

/-! ### Holds, and other modules (R272, R273, R449, R450) -/

/-- The unit a hold covers: the line of a global location, the 16-byte unit of a vault (R272). -/
def Loc.sameUnit : Loc → Loc → Bool
  | .glob a, .glob b => a / 128 == b / 128
  | .vault q a, .vault r b => q == r && a / 16 == b / 16
  | _, _ => false

/-- Locations a pass holds, with the time since when (R272): those of its shadows, and below a releasing one its own stores too
(R508). -/
def Pass.holdAges (p : Pass) : List (Loc × Nat) :=
  p.shadows.map (fun h => (h.loc, h.since)) ++ p.stores.filterMap fun r =>
    ((p.shadows.filter fun h => h.release && decide (r.lsid < h.lsid)).map (·.since)).min?.map fun t => (r.loc, t)

/-- Locations a pass holds (R272, R508). -/
def Pass.holds (p : Pass) : List Loc := p.holdAges.map (·.1)

/-- Passes in flight. -/
def State.passes (s : State) : List Pass := (if s.pass.live then [s.pass] else []) ++ s.parked

/-- A location held against the thread of a slot (R272, R508): by a pass or a released write of another thread, or by
another module. -/
def State.heldAgainst (s : State) (q sl : Nat) (l : Loc) : Bool :=
  (s.passes.any fun p => !(p.quay == q && p.slot == sl) && p.holds.any fun h => h.sameUnit l) ||
    (s.remoteHolds.any fun h => (Loc.glob (h.line * 128)).sameUnit l) ||
    s.threads.any fun t => !(t.quay == q && t.slot == sl) && t.released.any fun r => r.release && r.loc.sameUnit l

/-- A location held by anyone. -/
def State.heldAny (s : State) (l : Loc) : Bool := s.heldAgainst 1000 0 l

/-- An agent other than a pass waits on a held location (R273). -/
def State.waitHeld (s : State) (y : Waiter) (l : Loc) : State :=
  { s with holdWaits := tset (fun x => x.1 == y) (y, l) s.holdWaits }

/-- What came of a line that an agent asked for. -/
inductive LineSays where
  | ok (bytes : List Byte) (md : LineMeta) (s : State)
  | wait (s : State)
  | refused (cause : BitVec 8) (s : State)
  | stale (gen : BitVec 8) (s : State)

/-- Ask another module's home (R450), a read or a write, under a tag where one is given: the answer stays until the agent
drops it. -/
def State.askFar (s : State) (y : Waiter) (mod pa size : Nat) (gen : BitVec 8) (write : Bool) (tag? : Option Nat)
    (ask : RemoteAsk) : LineSays :=
  match s.remotes.find? fun r => r.who == y && r.pa == pa && r.write == write with
  | some r =>
    let drop : State := { s with remotes := s.remotes.erase r }
    match r.answer, r.stale, r.cause with
    | some bs, _, _ => .ok bs r.md s
    | none, some g, _ => .stale g drop
    | none, none, some c => .refused c drop
    | none, none, none => .wait s
  | none =>
    if s.reachable mod = false then .refused cNoMem s
    else
      let (tag, s) := match tag? with
        | some t => (t, s)
        | none => s.fresh
      let r : Remote := { tag := tag, peer := mod, pa := pa, size := size, who := y, write := write }
      .wait (({ s with remotes := s.remotes ++ [r] } : State).sendLinks (s.waiterCtx y) [.request mod tag pa gen ask])

/-- Drop the answers an agent has used. -/
def State.dropFar (s : State) (y : Waiter) : State := { s with remotes := s.remotes.filter fun r => r.who != y }

/-- Ask another module for an entry of a table of context `c`, for its walks (R107, R450): under the generation that its home
gave where the first was stale. -/
def State.askTable (s : State) (c mod pa : Nat) (gen : BitVec 8) : State :=
  let old := fun (r : Remote) => r.who == .tables c && r.pa == pa && r.stale.isSome
  match ({ s with remotes := s.remotes.filter fun r => !old r } : State).askFar (.tables c) mod pa 8 gen false none (.load 8) with
  | .ok _ _ s | .wait s | .refused _ s | .stale _ s => s

/-- What the outcome of a walk asks of other modules. -/
def WalkRes.ask (r : WalkRes) (c : Nat) (s : State) : State :=
  match r with
  | .far m pa g => s.askTable c m pa g
  | _ => s

/-- Read or change memory of another module for agent `y` (R104, R450): where it is stale it is asked again if the walk, made
afresh, gives the generation the home holds; else the answer is a page fault, whose cause is `stale`. -/
def State.farAgain (ask : State → BitVec 8 → LineSays) (s : State) (gen stale : BitVec 8) : LineSays :=
  match ask s gen with
  | .stale g s =>
    if g = gen then
      match ask s gen with
      | .stale _ s => .refused stale s
      | r => r
    else .refused stale s
  | r => r

/-! ### Traps (R366 to R371) -/

/-- Drop a thread from every waiting vector. -/
def State.leaveEntries (s : State) (q sl : Nat) : State :=
  { s with entries := tmod (fun e => e.quay == q) (fun e => { e with vec := e.vec.filter (· != sl) }) s.entries,
           waits := (tmod (fun e => e.quay == q)
             (fun e => { e with slots := e.slots.filter (· != sl), woken := e.woken.filter (· != sl) }) s.waits).filter
             fun e => !e.slots.isEmpty,
           planes := tmod (fun p => p.quay == q) (fun p => { p with mustAdmit := p.mustAdmit.filter (· != sl) }) s.planes }

/-- Virtual address of a context's handler table entry of a cause (R369). -/
def State.handlerVa (s : State) (c : Nat) (cause : BitVec 8) : Nat :=
  ((s.ctx c).trapvec.extractLsb' 12 44).toNat * 4096 + 16 * cause.toNat

/-- What a read of a context's handler table entry of a cause meets, in the context's name (R102, R369). -/
def State.handlerSays (s : State) (c : Nat) (cause : BitVec 8) : HwSays :=
  if (s.ctx c).trapvec.getLsbD 0 = false ∨ cause.toNat ≥ 64 then .refuse cNonCanon else s.hwSays c (s.handlerVa c cause) false

/-- A handler table entry (R369): HBLOCK, or none where R369 calls the entry empty; one in another module is what that
module answered to `y`. -/
def State.handler (s : State) (y : Waiter) (c : Nat) (cause : BitVec 8) : Option Word :=
  let entry := fun (bs : List Byte) (poison : Bool) =>
    let v := leNat bs
    let hb : Word := BitVec.ofNat 64 (v / 2 ^ 64)
    if v % 2 ^ 64 = 1 ∧ hb.extractLsb' 0 6 = 0 ∧ poison = false then some hb else none
  match s.handlerSays c cause with
  | .pa a _ _ => entry (s.gbytes a 16) (s.gmeta (a / 128)).poison
  | .remote _ a _ _ =>
    (s.remotes.find? fun r => r.who == y && r.pa == a && !r.write).bind fun r => r.answer.bind fun bs => entry bs r.md.poison
  | .wait | .miss _ | .refuse _ | .table _ _ _ => none

/-- The state that waits for a handler table entry, where it cannot be read yet: its page is on the move, its line is held
(R272), or another module has still to answer (R104, R450). -/
def State.handlerAsk (s : State) (y : Waiter) (c : Nat) (cause : BitVec 8) : Option State :=
  match s.handlerSays c cause with
  | .pa a _ _ => if s.heldAny (.glob a) then some (s.waitHeld y (.glob a)) else none
  | .wait => some s
  | .remote m a g _ =>
    match State.farAgain (fun s g => s.askFar y m a 16 g false none (.load 16)) s g cNoMem with
    | .wait s => some s
    | .ok _ _ _ | .refused _ _ | .stale _ _ => none
  | .table m a g => some (s.askTable c m a g)
  | .miss _ | .refuse _ => none

/-- Search for a handler from context `c` up the tree (R370): its context, block and the reflections made. -/
def State.findHandler (s : State) (y : Waiter) (cause : BitVec 8) : Option Nat → Nat → Nat → Option (Nat × Word × Nat)
  | none, _, _ => none
  | some _, _, 0 => none
  | some c, levels, fuel + 1 =>
    match s.handler y c cause with
    | some h => some (c, h, levels)
    | none => s.findHandler y cause (s.parentOf c) (levels + 1) fuel

/-- The state that waits for the first entry on the way of that search that cannot be read yet. -/
def State.searchAsk (s : State) (y : Waiter) (cause : BitVec 8) : Option Nat → Nat → Option State
  | none, _ => none
  | some _, 0 => none
  | some c, fuel + 1 =>
    match s.handlerAsk y c cause, s.handler y c cause with
    | some s, _ => some s
    | none, some _ => none
    | none, none => s.searchAsk y cause (s.parentOf c) fuel

/-- The place an agent's uncached accesses come from (R435). -/
def State.waiterPlace (s : State) (y : Waiter) : Nat :=
  match y with
  | .thread q _ _ _ | .fetch q _ | .write q _ | .object q _ | .fill q _ | .handler q _ => q
  | .op id => ((s.ops.find? fun o => o.id == id).map (·.quay)).getD 0
  | .queue c q => 32 * bitsOf (s.queue c q).desc.toNat 60 3
  | .launch id => ((s.launches.find? fun l => l.id == id).map (32 * ·.die)).getD 0
  | .watch d => 32 * d
  | .node _ _ => agentPlace 0
  | .append id => ((s.pgreqs.find? fun r => r.id == id).map (·.quay)).getD 0
  | .group id => ((s.groups.find? fun g => g.id == id).map (·.quay)).getD 0
  | .tables _ | .dlog _ _ => agentPlace 2

/-- Charge agent `y`'s access of a context's address, with its walk, to the context it acts for (R438). -/
def State.chargeLook (s : State) (y : Waiter) (c va : Nat) : State :=
  let p := s.waiterPlace y
  let d := s.waiterCtx y
  match s.hwSays c va false with
  | .pa a _ _ => (s.chargeWalk p c d va).chargeAt p (a / 128) d
  | _ => s

/-- Charge the entries that the search from context `c` up reads to the context that runs the thread (R438). -/
def State.chargeSearch (s : State) (y : Waiter) (cause : BitVec 8) (payer : Nat) : Option Nat → Nat → State
  | none, _ => s
  | some _, 0 => s
  | some c, fuel + 1 =>
    let next := match s.handler y c cause with
      | some _ => s
      | none => s.chargeSearch y cause payer (s.parentOf c) fuel
    match s.handlerSays c cause with
    | .pa a _ _ => (next.chargeWalk (s.waiterPlace y) c payer (s.handlerVa c cause)).chargeAt (s.waiterPlace y) (a / 128) payer
    | _ => next

/-- The 512-bit record of a trap (R367). -/
def trapRecord (n : TrapNote) (subcause : BitVec 8) (levels orig hctx clock : Nat) (blk : Word) (nsub : Nat) :
    BitVec 512 :=
  n.opg ++ n.opb ++ n.opa ++ n.addr ++ blk ++ BitVec.ofNat 64 clock ++ BitVec.ofNat 16 orig ++ BitVec.ofNat 16 hctx ++
    BitVec.ofNat 3 levels ++ 0#5 ++ subcause ++ n.code ++ 1#1 ++ BitVec.ofNat 7 n.idx ++ n.word ++ n.opv ++ n.fpx ++
    BitVec.ofNat 3 nsub ++ 0#29 ++ n.cause

/-- A thread leaves its barriers and `gred` instances when it ends (R168): its arrivals at barriers are withdrawn. -/
def Group.withdraw (g : Group) (t : Thread) : Group :=
  { g with bars := g.bars.map fun b => if t.bars.getD b.b 0 == 1 && !(t.released.any (·.kind == .barArrive b.b)) then { b with count := b.count - 1 } else b }

/-- Threads of a group that have not left (R168). -/
def State.remaining (s : State) (g : Group) : List Thread :=
  s.threads.filter fun t => t.quay == g.quay && t.group == g.id && t.st != .idle && t.st != .free

/-- Threads released from barrier `b` and those that pass it (R333). -/
def releaseBar (g b : Nat) (stamp : BitVec 16) (t : Thread) : Thread :=
  if t.group == g && t.bars.getD b 0 == 1 then
    if t.st == .blocked && t.on == .barrier b then
      { t with st := .waiting, on := .none, bars := t.bars.set b 0, stamp := stamp }
    else { t with bars := t.bars.set b 2 }
  else t

/-- Complete every barrier of a group whose arrivals reach the threads that remain (R333); `pend` is left of the list. -/
def State.settleBars (s : State) (gid : Nat) : List Barrier → State
  | [] => s
  | b :: bs =>
    let need := (s.remaining (s.group gid)).length
    if need ≠ 0 ∧ b.count = need then
      let s := s.modGroup gid fun g =>
        { g with bars := tmod (fun x => x.b == b.b) (fun x => { x with count := 0, phase := x.phase + 1 }) g.bars }
      let s := { s with threads := s.threads.map (releaseBar gid b.b s.stamp) }
      s.settleBars gid bs
    else s.settleBars gid bs

/-- A thread leaves the walks and page requests it waits for. -/
def State.dropWaits (s : State) (q sl : Nat) : State :=
  let gone := fun (y : Waiter) =>
    match y with
    | .thread a b _ _ | .object a b => a == q && b == sl
    | _ => false
  { s with walks := s.walks.map fun w => { w with misses := w.misses.filter fun m => !gone m.who },
           pgreqs := s.pgreqs.map fun r => { r with who := r.who.filter fun y => !gone y.1 } }

/-- End a thread (R168): it leaves vectors, drift set, barriers; its slot is IDLE; barriers its end completes release. -/
def State.endThread (s : State) (t : Thread) : State :=
  let s := (s.leaveEntries t.quay t.slot).dropWaits t.quay t.slot
  let s := s.modGroup t.group fun g => g.withdraw t
  let s := s.setThread { t with st := .idle, on := .none, drift := false, bars := List.replicate 16 0,
                                traprec := 0, subs := [], ih := false, late := [],
                                released := t.released.filter fun r => match r.kind with | .barArrive _ => false | _ => true }
  s.settleBars t.group (s.group t.group).bars

/-- `lose` (R371): the thread counts in NLOST, its slot becomes IDLE, its record goes to the control node. -/
def State.lose (s : State) (t : Thread) (r : BitVec 512) (report : Bool) : State :=
  let s := s.modGroup t.group fun g => { g with nlost := g.nlost + 1 }
  let s := s.endThread t
  if report then s.send 0x85 t.ctx 0 (leBytes 64 r.toNat) else s

/-- TAKING A TRAP (R370): the record is written whole, ih and hctx set, the thread WAITING at the handler's block; above
the root the thread is lost (R371); BLOCKED until then where an entry of a handler table cannot be read yet.  `blk` is the
block of the pass, `t` the thread as it stands. -/
def State.takeTrap (s : State) (t : Thread) (n : TrapNote) (blk : Word) : State :=
  let start := if t.ih then s.parentOf t.hctx else some t.ctx
  let levels0 := if t.ih then 1 else 0
  let cause := if t.ih then 0x26 else n.cause
  let sub : BitVec 8 := if t.ih then n.cause else 0
  let keep := if t.subBlk == blk then t.subs else []
  let y := Waiter.handler t.quay t.slot
  let s := (s.leaveEntries t.quay t.slot).dropWaits t.quay t.slot
  match s.searchAsk y cause start 9 with
  | some s => s.setThread { t with st := .blocked, on := .delivery n blk, drift := false }
  | none =>
    let note := { n with cause := cause }
    let found := s.findHandler y cause start levels0 9
    let s := (s.chargeSearch y cause t.runCtx start 9).dropFar y
    match found with
    | none =>
      s.lose t (trapRecord note sub ((s.ctx (t.runCtx)).depth + 1) t.ctx 0 s.clock blk keep.length) true
    | some (c, h, levels) =>
      s.setThread { t with st := .waiting, on := .none, nba := h, ih := true, hctx := c, stamp := s.stamp, drift := false,
                           traprec := trapRecord note sub levels t.ctx c s.clock blk keep.length,
                           subs := keep, subBlk := blk }

/-- RETURN FROM A TRAP (R401): VALID and ih cleared, the context back to ORIGCTX, the thread WAITING at BLOCK.  The
substitutions go where the thread returns to another block than the one they were made for (R372). -/
def Thread.trapReturn (t : Thread) (stamp : BitVec 16) : Thread :=
  let blk := t.traprec.extractLsb' 192 64
  { t with st := .waiting, on := .none, nba := blk, ih := false, hctx := 0, stamp := stamp, traprec := 0,
           subs := if t.subBlk == blk then t.subs else [] }

end Sys2Proof.Machine
end

