-- ==== Sys2Proof/Machine/Operands.lean ====
section
/-! DEFINITION. Operand forms: immediates, ports, guards, tokens, targets and write slots, and the firing rule
(R176, R177, R185 to R189, R201, R221, R372). -/

namespace Sys2Proof.Machine

/-- An immediate as a token's data (R177, R201, R221). -/
def extend (e : Ext) (v : BitVec 20) : Word :=
  match e with
  | .sext => v.signExtend 64
  | .zext => v.zeroExtend 64
  | .fp32 => (v ++ 0#12).zeroExtend 64

/-- The port F2 supplies and its value. -/
def immPort (f : Form) (w : Fields) : Option (Port × Word) :=
  match f.imm, w.f2 with
  | .opt p e, .imm v => some (p, extend e v)
  | .own p e, .imm v => some (p, extend e v)
  | _, _ => none

/-- Data ports a form reads, an immediate's included (R174, R324). -/
def Form.ports (f : Form) : List Port :=
  (if f.ra then [.a] else []) ++ (if f.rb then [.b] else []) ++ (if f.rg then [.g] else [])

/-- Data ports that tokens must supply. -/
def tokenPorts (f : Form) (w : Fields) : List Port :=
  match immPort f w with
  | some (p, _) => f.ports.filter (· != p)
  | none => f.ports

/-- Target of a 22-bit field (R176). -/
def fieldTarget (v : BitVec 22) : Option (Nat × BitVec 2) :=
  if v.extractLsb' 20 2 = 1 then some ((v.extractLsb' 12 7).toNat, v.extractLsb' 10 2) else none

/-- Write slot of a 22-bit field (R176). -/
def fieldSlot (v : BitVec 22) : Option Nat :=
  if v.extractLsb' 20 2 = 2 then some (v.extractLsb' 0 5).toNat else none

/-- The three operand fields of a word. -/
def wordFields (w : Word96) : List (BitVec 22) := [w.extractLsb' 44 22, w.extractLsb' 22 22, w.extractLsb' 0 22]

/-- A 9-bit target of a read entry (R174). -/
def readTarget (t : BitVec 9) : Option (Nat × BitVec 2) :=
  if t = 0x1FF then none else some ((t.extractLsb' 2 7).toNat, t.extractLsb' 0 2)

/-- Both targets of a read entry (R174). -/
def readTargets (e : BitVec 32) : List (Nat × BitVec 2) :=
  (readTarget (e.extractLsb' 16 9)).toList ++ (readTarget (e.extractLsb' 7 9)).toList

/-- Producers of a port (R185): read entries and fields that name it. -/
def Block.producers (b : Block) (idx : Nat) (p : Port) : Nat :=
  let c := Port.code p
  (b.reads.flatMap readTargets).countP (fun t => t.1 == idx && t.2 == c) +
    (b.words.flatMap wordFields).countP (fun f => fieldTarget f == some (idx, c))

/-- Producers of a write slot (R185). -/
def Block.slotProducers (b : Block) (k : Nat) : Nat :=
  (b.words.flatMap wordFields).countP (fun f => fieldSlot f == some k)

/-- Block rounding mode (R44, R172). -/
def Block.mode (b : Block) : Mode := Mode.ofCode (b.h0.extractLsb' 66 3)
/-- Flush-to-zero (R47). -/
def Block.ftz (b : Block) : Bool := b.h0.getLsbD 65
/-- Saturating narrowing (R48). -/
def Block.sat (b : Block) : Bool := b.h0.getLsbD 64
/-- HAND (R173). -/
def Block.hand (b : Block) : Bool := b.h1.getLsbD 85
/-- Instruction count N (R172). -/
def Block.n (b : Block) : Nat := (b.h0.extractLsb' 81 7).toNat + 1

/-! ### Ports and slots of a pass -/

/-- The cell of a port. -/
def Pass.cell (p : Pass) (idx : Nat) (port : Port) : PortCell :=
  tget (fun c => c.idx == idx && c.port == port) { idx := idx, port := port } p.ports

/-- The cell of a write slot. -/
def Pass.slotCell (p : Pass) (k : Nat) : SlotCell := tget (fun c => c.k == k) { k := k } p.slots

/-- What a port resolved to (R186): none while it waits, else a token, null when every producer delivered null. -/
def Pass.port (p : Pass) (idx : Nat) (port : Port) : Option Tok :=
  let c := p.cell idx port
  match c.val with
  | some t => some t
  | none => if p.block.producers idx port ≤ c.nulls then some { null := true } else none

/-- Record a trap, keeping that of the lowest index; a dataflow conflict stands before another trap of its index
(R186, R191, log entry 12). -/
def Pass.note (p : Pass) (n : TrapNote) : Pass :=
  match p.trap with
  | some o => if n.idx < o.idx || (n.idx == o.idx && n.cause == 0x02) then { p with trap := some n } else p
  | none => { p with trap := some n }

/-- Deliver a token to a port (R186). -/
def Pass.toPort (p : Pass) (idx : Nat) (port : Port) (t : Tok) : Pass :=
  let c := p.cell idx port
  let key := fun (x : PortCell) => x.idx == idx && x.port == port
  let p := { p with notReady := p.notReady || t.notReady, poison := p.poison || t.poison }
  if t.null then { p with ports := tset key { c with nulls := c.nulls + 1 } p.ports }
  else
    match c.val with
    | none => { p with ports := tset key { c with val := some t } p.ports }
    | some _ => p.note { cause := 0x02, idx := idx }

/-- Deliver a token to a write slot from producer `i` (R186): `many` where a second non-null token reached it, `high`
the highest index among the producers that delivered non-null. -/
def Pass.toSlot (p : Pass) (k i : Nat) (t : Tok) : Pass :=
  let c := p.slotCell k
  let key := fun (x : SlotCell) => x.k == k
  let p := { p with notReady := p.notReady || t.notReady, poison := p.poison || t.poison }
  if t.null then { p with slots := tset key { c with nulls := c.nulls + 1 } p.slots }
  else
    match c.val with
    | none => { p with slots := tset key { c with val := some t, high := i } p.slots }
    | some _ => { p with slots := tset key { c with high := max c.high i, many := true } p.slots }

/-- Deliver a token to what a field names (R176). -/
def Pass.deliver (p : Pass) (i : Nat) (t : Tok) : Operand → Pass
  | .target idx port => p.toPort idx.toNat port t
  | .slot k => p.toSlot k.toNat i t
  | .empty | .imm _ => p

/-- LSID of an LSID-bearing word (R177). -/
def Fields.lsid (w : Fields) : Nat := ((Operand.immOr0 w.f2).extractLsb' 15 5).toNat

/-- An instruction resolves: its LSID, where it bears one, receives a null or non-null token (R186, R189). -/
def Pass.finish (p : Pass) (i : Instr) (w : Fields) (nonNull : Bool) : Pass :=
  let p := { p with done := p.cur :: p.done, stalled := false }
  match (Instr.form i).map Form.kind with
  | some .store | some .load => { p with lsids := p.lsids ++ [(Fields.lsid w, if nonNull then some p.cur else none)] }
  | _ => p

/-- The second of a list of indexes in rising order. -/
def secondLowest (l : List Nat) : Option Nat :=
  match l.mergeSort fun a b => decide (a ≤ b) with
  | _ :: b :: _ => some b
  | _ => none

/-- The dataflow conflicts of write slots and LSIDs, read once every token has arrived (R186, R189): of a slot at the
highest producer that delivered non-null; of an LSID at the second-lowest of the instructions that delivered non-null,
which is where two of them meet first whatever their order (log entry 52). -/
def Pass.conflicts (p : Pass) : List TrapNote :=
  (p.slots.filter (·.many)).map (fun c => { cause := 0x02, idx := c.high }) ++
    (p.lsids.map (·.1)).eraseDups.filterMap fun l =>
      (secondLowest (p.lsids.filterMap fun x => if x.1 = l then x.2 else none)).map fun k => { cause := 0x02, idx := k }

/-- The trap of lowest index that a resolved pass has recorded, conflicts included (R191). -/
def Pass.recorded (p : Pass) : Option TrapNote := (p.conflicts.foldl Pass.note p).trap

/-- Emit one token on every field of the current instruction and resolve it (R176). -/
def State.emit (s : State) (i : Instr) (w : Fields) (t : Tok) : State :=
  let p := s.pass
  let p := p.deliver p.cur t w.f0
  let p := p.deliver p.cur t w.f1
  let p := p.deliver p.cur t w.f2
  { s with pass := p.finish i w (!t.null) }

/-- Emit null (R186). -/
def State.emitNull (s : State) (i : Instr) (w : Fields) : State := s.emit i w { null := true }

/-- Emit a not-ready token (R108, R187). -/
def State.emitNotReady (s : State) (i : Instr) (w : Fields) : State :=
  let s := s.emit i w { notReady := true }
  { s with pass := { s.pass with notReady := true } }

/-- Emit a value. -/
def State.emitVal (s : State) (i : Instr) (w : Fields) (v : Word) : State :=
  s.emit i w { data := v, poison := s.pass.poison }

/-- Record a trap at the current instruction and emit null (R186). -/
def State.trapHere (s : State) (i : Instr) (w : Fields) (cause : BitVec 8) (addr : Word) : State :=
  let s := { s with pass := s.pass.note { cause := cause, idx := s.pass.cur, addr := addr } }
  s.emitNull i w

/-- Data of the ports of a firing; a port the form does not read is 0. -/
structure PortVals where
  a : Word := 0
  b : Word := 0
  g : Word := 0
  deriving DecidableEq, Repr, Inhabited

/-- How an instruction stands for its pass (R186, R187). -/
inductive Firing where
  | wait
  | guardFalse
  | notReady
  | allNull
  | conflict
  | act (v : PortVals)
  deriving DecidableEq, Repr, Inhabited

/-- Guard of the current instruction: none while it waits (R175, R185); a mode 01 or 10 guard reads the predicate held
at entry. -/
def Pass.guardOf (p : Pass) : Guard → Option (Bool × Bool)
  | .none => some (true, false)
  | .ifTrue k => some (p.preds.getLsbD k.toNat, false)
  | .ifFalse k => some (!p.preds.getLsbD k.toNat, false)
  | .port =>
    match p.port p.cur .g with
    | none => none
    | some t => if t.notReady then some (false, true) else some (!t.null && t.data.getLsbD 0, false)

/-- The token of a data port: the immediate, or what the port resolved to. -/
def Pass.data (p : Pass) (f : Form) (w : Fields) (port : Port) : Option Tok :=
  match immPort f w with
  | some (q, v) => if q = port then some { data := v } else p.port p.cur port
  | none => p.port p.cur port

/-- Data of a port read, 0 when the form does not read it. -/
def Pass.dataOr0 (p : Pass) (f : Form) (w : Fields) (port : Port) : Word :=
  if f.ports.contains port then ((p.data f w port).map (·.data)).getD 0 else 0

/-- The firing decision of R186 and R187 for the current instruction. -/
def Pass.firing (p : Pass) (f : Form) (w : Fields) : Firing :=
  match p.guardOf w.guard with
  | none => .wait
  | some (_, true) => .notReady
  | some (false, false) => .guardFalse
  | some (true, false) =>
    let toks := (tokenPorts f w).map (p.port p.cur)
    if toks.any (fun t => t.any Tok.notReady) then .notReady
    else if toks.any Option.isNone then .wait
    else
      let nulls := toks.countP (fun t => t.any Tok.null)
      if nulls = 0 then .act ⟨p.dataOr0 f w .a, p.dataOr0 f w .b, p.dataOr0 f w .g⟩
      else if nulls = f.ports.length then .allNull
      else .conflict

/-- The substitution a thread holds for the current instruction of this block (R372). -/
def State.substitution (s : State) : Option Word :=
  let t := s.thread s.pass.quay s.pass.slot
  if t.ih || t.subBlk != s.pass.blk then none
  else (t.subs.find? fun x => x.1.toNat == s.pass.cur).map (·.2)

/-- Charge a firing to the context of the pass (R436, R438, R505). -/
def State.chargeFiring (s : State) (i : Instr) : State :=
  s.charge (meterQuay s.pass.quay) s.pass.ctx (Instr.energyClass i) 1

/-- A port still unresolved, or a memory access that waits: the pass is passed over (R186, R188). -/
def State.stall (s : State) : State := { s with pass := { s.pass with stalled := true } }

/-- The rule by which every instruction fires (R186, R187, R372, R436): `act` performs the effect the instruction
chapters give. -/
def State.fire (s : State) (i : Instr) (w : Fields) (act : PortVals → State → State) : State :=
  match Instr.form i with
  | none => s
  | some f =>
    match s.pass.firing f w with
    | .wait => s.stall
    | .guardFalse | .allNull => s.emitNull i w
    | .notReady => s.emitNotReady i w
    | .conflict =>
      match s.substitution with
      | some v => if f.result then s.emitVal i w v else s.emitNull i w
      | none => (s.chargeFiring i).trapHere i w 0x02 0
    | .act v =>
      match s.substitution with
      | some x => if f.result then s.emitVal i w x else s.emitNull i w
      | none => act v (s.chargeFiring i)

/-- A form that computes its result from its ports alone (R202). -/
def State.fireValue (s : State) (i : Instr) (w : Fields) (f : PortVals → Word) : State :=
  s.fire i w fun v s => s.emitVal i w (f v)

/-- Emit a floating-point result with its exceptions (R51, R52): an enabled exception traps, the others are raised.
R367 gives the record no field for the first enabled exception that R52 names; the model writes cause 0x05 and FPX, all
the exceptions raised, of which the first enabled one follows (DESIGN CHOICE, log entry 50). -/
def State.emitFp (s : State) (i : Instr) (w : Fields) (r : Word) (e : Exc) : State :=
  let enabled : BitVec 5 := s.pass.snap.fpctl.extractLsb' 8 5
  if enabled &&& e = 0 then
    let s := s.emitVal i w r
    { s with pass := { s.pass with raised := s.pass.raised ||| e } }
  else
    let s := { s with pass := s.pass.note { cause := 0x05, idx := s.pass.cur, fpx := e } }
    s.emitNull i w

/-- A form that computes an FP result and exceptions from its ports and the block's header bits (R220). -/
def State.fireFp (s : State) (i : Instr) (w : Fields) (f : Block → PortVals → Word × Exc) : State :=
  s.fire i w fun v s =>
    let r := f s.pass.block v
    s.emitFp i w r.1 r.2

/-- A fired branch (R193, R194). -/
def State.branch (s : State) (i : Instr) (w : Fields) (target : Word) (k : BranchKind) : State :=
  let p : Pass := { s.pass with fired := s.pass.fired ++ [⟨s.pass.cur, target, k⟩] }
  { s with pass := p.finish i w true }

/-! ### The words of a block -/

/-- The form of a word, from its class and function alone. -/
def wordInstr (w : Word96) : Option Instr :=
  match decodeWord w with
  | .ok i => some i
  | .error _ => none

/-- One word of a block as the order rules see it: index, instruction, form, fields. -/
structure WordInfo where
  idx : Nat
  instr : Instr
  form : Form
  w : Fields

/-- The words of a block that are instructions. -/
def Block.infos (b : Block) : List WordInfo :=
  b.words.zipIdx.filterMap fun x =>
    match wordInstr x.1 with
    | none => none
    | some i =>
      match Instr.form i, Instr.fields i with
      | some f, some w => some ⟨x.2, i, f, w⟩
      | _, _ => none

/-- Every instruction of the block has resolved (R191). -/
def Pass.allDone (p : Pass) : Bool := (List.range p.block.words.length).all p.done.contains

end Sys2Proof.Machine
end

