-- ==== Sys2Proof/Machine/Integer.lean ====
section
/-! DEFINITION. Integer arithmetic, class 0x1 (R200 to R207). -/

namespace Sys2Proof.Machine

/-- Width of a type in bits (R41). -/
def intWidth : IntTy → Nat
  | .s32 | .n32 => 32 | .s64 | .n64 => 64 | .s16 | .n16 => 16 | .s8 | .n8 => 8

/-- Signed types (R41). -/
def intSigned : IntTy → Bool
  | .s32 | .s64 | .s16 | .s8 => true
  | .n32 | .n64 | .n16 | .n8 => false

/-- The integer type of a signed type code (R181). -/
def sintTy : SIntTy → IntTy
  | .s32 => .s32 | .s64 => .s64 | .s16 => .s16 | .s8 => .s8

/-- `operand(v, T)` (R200). -/
def intOperand (t : IntTy) (v : Word) : Int :=
  let y := (v.toNat % 2 ^ intWidth t : Nat)
  if intSigned t && decide (2 ^ (intWidth t - 1) ≤ y) then (y : Int) - (2 ^ intWidth t : Nat) else y

/-- `write_result(x, T)` (R200): the value modulo 2^n; a signed result narrower than 32 bits is sign-extended to 32. -/
def intResult (t : IntTy) (x : Int) : Word :=
  let y := (x % ((2 ^ intWidth t : Nat) : Int)).toNat
  if intSigned t && decide (intWidth t < 32) && decide (2 ^ (intWidth t - 1) ≤ y) then
    BitVec.ofNat 64 (y + 2 ^ 32 - 2 ^ intWidth t)
  else BitVec.ofNat 64 y

/-- Least value of a type (R41). -/
def intLo (t : IntTy) : Int := if intSigned t then -((2 ^ (intWidth t - 1) : Nat) : Int) else 0
/-- Greatest value of a type (R41). -/
def intHi (t : IntTy) : Int := if intSigned t then ((2 ^ (intWidth t - 1) : Nat) : Int) - 1 else ((2 ^ intWidth t : Nat) : Int) - 1

/-- Clamp to the range of a type (R41). -/
def clampTo (t : IntTy) (x : Int) : Int := if x < intLo t then intLo t else if intHi t < x then intHi t else x

/-- Two operands of a type, an exact result, written back (R200, R204). -/
def int2 (t : IntTy) (f : Int → Int → Int) (v : PortVals) : Word :=
  intResult t (f (intOperand t v.a) (intOperand t v.b))

/-- Quotient of R205. -/
def idivVal (t : IntTy) (x y : Int) : Int :=
  if y = 0 then ((2 ^ intWidth t : Nat) : Int) - 1
  else if intSigned t = true ∧ x = intLo t ∧ y = -1 then x
  else x.tdiv y

/-- Remainder of R205. -/
def iremVal (t : IntTy) (x y : Int) : Int :=
  if y = 0 then x
  else if intSigned t = true ∧ x = intLo t ∧ y = -1 then 0
  else x - x.tdiv y * y

/-- `lea` (R206). -/
def leaVal (t : LeaTy) (sc : BitVec 2) (v : PortVals) : Word :=
  let i : BitVec 32 := v.b.extractLsb' 0 32
  let idx : Word := match t with
    | .s32 => i.signExtend 64
    | .n32 => i.zeroExtend 64
  v.a + (idx <<< sc.toNat)

/-- `iaddc` (R207). -/
def iaddcVal (t : CarryTy) (v : PortVals) : Word :=
  let c := v.g.toNat % 2
  match t with
  | .n32 => BitVec.ofNat 64 (v.a.toNat % 2 ^ 32 + v.b.toNat % 2 ^ 32 + c)
  | .n64 => BitVec.ofNat 64 ((v.a.toNat + v.b.toNat + c) / 2 ^ 64)

/-- `iadd` (R204). -/
def execIadd (t : IntTy) (w : Fields) (s : State) : Out := .next (s.fireValue (.iadd t w) w (int2 t (· + ·)))
/-- `isub` (R204). -/
def execIsub (t : IntTy) (w : Fields) (s : State) : Out := .next (s.fireValue (.isub t w) w (int2 t (· - ·)))
/-- `imul` (R204). -/
def execImul (t : IntTy) (w : Fields) (s : State) : Out := .next (s.fireValue (.imul t w) w (int2 t (· * ·)))
/-- `imulhi` (R204): ⌊x · y / 2^n⌋. -/
def execImulhi (t : IntTy) (w : Fields) (s : State) : Out :=
  .next (s.fireValue (.imulhi t w) w (int2 t fun x y => (x * y) / ((2 ^ intWidth t : Nat) : Int)))
/-- `imad` (R204): formed exactly, wrapped once. -/
def execImad (t : IntTy) (w : Fields) (s : State) : Out :=
  .next (s.fireValue (.imad t w) w fun v =>
    intResult t (intOperand t v.a * intOperand t v.b + intOperand t v.g))
/-- `idiv` (R205). -/
def execIdiv (t : IntTy) (w : Fields) (s : State) : Out := .next (s.fireValue (.idiv t w) w (int2 t (idivVal t)))
/-- `irem` (R205). -/
def execIrem (t : IntTy) (w : Fields) (s : State) : Out := .next (s.fireValue (.irem t w) w (int2 t (iremVal t)))
/-- `ineg` (R204). -/
def execIneg (t : SIntTy) (w : Fields) (s : State) : Out :=
  .next (s.fireValue (.ineg t w) w fun v => intResult (sintTy t) (-(intOperand (sintTy t) v.a)))
/-- `iabs` (R204). -/
def execIabs (t : SIntTy) (w : Fields) (s : State) : Out :=
  .next (s.fireValue (.iabs t w) w fun v => intResult (sintTy t) ((intOperand (sintTy t) v.a).natAbs : Int))
/-- `imin` (R204). -/
def execImin (t : IntTy) (w : Fields) (s : State) : Out := .next (s.fireValue (.imin t w) w (int2 t min))
/-- `imax` (R204). -/
def execImax (t : IntTy) (w : Fields) (s : State) : Out := .next (s.fireValue (.imax t w) w (int2 t max))
/-- `lea` (R206). -/
def execLea (t : LeaTy) (sc : BitVec 2) (w : Fields) (s : State) : Out :=
  .next (s.fireValue (.lea t sc w) w (leaVal t sc))
/-- `iaddc` (R207). -/
def execIaddc (t : CarryTy) (w : Fields) (s : State) : Out := .next (s.fireValue (.iaddc t w) w (iaddcVal t))
/-- `iadd.sat` (R204). -/
def execIaddSat (t : IntTy) (w : Fields) (s : State) : Out :=
  .next (s.fireValue (.iaddSat t w) w (int2 t fun x y => clampTo t (x + y)))
/-- `isub.sat` (R204). -/
def execIsubSat (t : IntTy) (w : Fields) (s : State) : Out :=
  .next (s.fireValue (.isubSat t w) w (int2 t fun x y => clampTo t (x - y)))

end Sys2Proof.Machine
end

