-- ==== Sys2Proof/Machine/Logic.lean ====
section
/-! DEFINITION. Logic, shifts, bits, compares and predicates, class 0x2 (R208 to R215). -/

namespace Sys2Proof.Machine

/-- Bits of a width code (R200). -/
def widthBits : Width → Nat
  | .b32 => 32 | .b64 => 64

/-- The low W bits of a value (R200). -/
def lowBits (n : Width) (v : Word) : Word :=
  match n with
  | .b32 => (v.extractLsb' 0 32).zeroExtend 64
  | .b64 => v

/-- A 64-bit 0 or 1. -/
def bit1 (b : Bool) : Word := if b then 1 else 0

/-- A bitwise form of two ports (R208). -/
def logic2 (n : Width) (f : Word → Word → Word) (v : PortVals) : Word := lowBits n (f v.a v.b)

/-- `shl` (R209). -/
def shlVal (n : Width) (v : PortVals) : Word :=
  if v.b.toNat < (widthBits n) then lowBits n (v.a <<< v.b.toNat) else 0

/-- `shr` (R209). -/
def shrVal (n : Width) (v : PortVals) : Word :=
  if v.b.toNat < (widthBits n) then lowBits n v.a >>> v.b.toNat else 0

/-- `sar` (R209): filled with bit W−1; all W bits equal to it when the amount is W or more. -/
def sarVal (n : Width) (v : PortVals) : Word :=
  match n with
  | .b32 => ((v.a.extractLsb' 0 32).sshiftRight (min v.b.toNat 31)).zeroExtend 64
  | .b64 => v.a.sshiftRight (min v.b.toNat 63)

/-- `rotl` (R209). -/
def rotlVal (n : Width) (v : PortVals) : Word :=
  match n with
  | .b32 => ((v.a.extractLsb' 0 32).rotateLeft (v.b.toNat % 32)).zeroExtend 64
  | .b64 => v.a.rotateLeft (v.b.toNat % 64)

/-- `rotr` (R209). -/
def rotrVal (n : Width) (v : PortVals) : Word :=
  match n with
  | .b32 => ((v.a.extractLsb' 0 32).rotateRight (v.b.toNat % 32)).zeroExtend 64
  | .b64 => v.a.rotateRight (v.b.toNat % 64)

/-- Number of 1 bits among the low `k` bits. -/
def popcount (x : Nat) : Nat → Nat
  | 0 => 0
  | k + 1 => x % 2 + popcount (x / 2) k

/-- The low `k` bits in reverse order. -/
def reverseBits (x : Nat) : Nat → Nat
  | 0 => 0
  | k + 1 => x % 2 * 2 ^ k + reverseBits (x / 2) k

/-- Zero bits below the lowest 1 bit, `k` for 0. -/
def trailingZeros (x : Nat) : Nat → Nat
  | 0 => 0
  | k + 1 => if x % 2 = 1 then 0 else 1 + trailingZeros (x / 2) k

/-- A count over the low W bits of port a (R210). -/
def countVal (n : Width) (f : Nat → Nat → Nat) (v : PortVals) : Word :=
  BitVec.ofNat 64 (f (lowBits n v.a).toNat (widthBits n))

/-- `clz` (R210). -/
def leadingZeros (x k : Nat) : Nat := trailingZeros (reverseBits x k) k

/-- Field position of R211. -/
def fieldPos (b : Word) : Nat := (b.extractLsb' 0 7).toNat
/-- Field length of R211, at most 64. -/
def fieldLen (b : Word) : Nat := min (b.extractLsb' 8 7).toNat 64

/-- `bfx` (R211). -/
def bfxVal (n : Width) (v : PortVals) : Word :=
  BitVec.ofNat 64 ((lowBits n v.a).toNat / 2 ^ fieldPos v.b % 2 ^ fieldLen v.b)

/-- `bfi` (R211). -/
def bfiVal (n : Width) (v : PortVals) : Word :=
  let m := (2 ^ fieldLen v.b - 1) * 2 ^ fieldPos v.b
  let mask := BitVec.ofNat 192 m
  let a := v.a.zeroExtend 192
  let g := (v.g.zeroExtend 192) <<< fieldPos v.b
  lowBits n (((a &&& ~~~mask) ||| (g &&& mask)).truncate 64)

/-- Byte `k` of a value. -/
def byteOf (v : Word) (k : Nat) : Nat := v.toNat / 2 ^ (8 * k) % 256

/-- `bperm` over the bytes `k - 1` to 0 (R212); nibbles of at least `top` give 0. -/
def bpermVal (top : Nat) (v : PortVals) : Nat → Nat
  | 0 => 0
  | k + 1 =>
    let nib := v.b.toNat / 2 ^ (4 * k) % 16
    (if nib < top then byteOf v.a nib else 0) * 2 ^ (8 * k) + bpermVal top v k

/-- `icmp` (R213). -/
def cmpHolds (c : Cmp) (x y : Int) : Bool :=
  match c with
  | .eq => decide (x = y) | .ne => decide (x ≠ y) | .lt => decide (x < y) | .le => decide (x ≤ y)
  | .gt => decide (x > y) | .ge => decide (x ≥ y)

/-- A predicate form of two ports (R215). -/
def pred2 (f : Bool → Bool → Bool) (v : PortVals) : Word := bit1 (f (v.a.getLsbD 0) (v.b.getLsbD 0))

/-- `and` (R208). -/
def execAnd (n : Width) (w : Fields) (s : State) : Out := .next (s.fireValue (.and n w) w (logic2 n (· &&& ·)))
/-- `or` (R208). -/
def execOr (n : Width) (w : Fields) (s : State) : Out := .next (s.fireValue (.or n w) w (logic2 n (· ||| ·)))
/-- `xor` (R208). -/
def execXor (n : Width) (w : Fields) (s : State) : Out := .next (s.fireValue (.xor n w) w (logic2 n (· ^^^ ·)))
/-- `andn` (R208). -/
def execAndn (n : Width) (w : Fields) (s : State) : Out :=
  .next (s.fireValue (.andn n w) w (logic2 n fun a b => a &&& ~~~b))
/-- `not` (R208). -/
def execNot (n : Width) (w : Fields) (s : State) : Out := .next (s.fireValue (.not n w) w fun v => lowBits n (~~~v.a))
/-- `shl` (R209). -/
def execShl (n : Width) (w : Fields) (s : State) : Out := .next (s.fireValue (.shl n w) w (shlVal n))
/-- `shr` (R209). -/
def execShr (n : Width) (w : Fields) (s : State) : Out := .next (s.fireValue (.shr n w) w (shrVal n))
/-- `sar` (R209). -/
def execSar (n : Width) (w : Fields) (s : State) : Out := .next (s.fireValue (.sar n w) w (sarVal n))
/-- `rotl` (R209). -/
def execRotl (n : Width) (w : Fields) (s : State) : Out := .next (s.fireValue (.rotl n w) w (rotlVal n))
/-- `rotr` (R209). -/
def execRotr (n : Width) (w : Fields) (s : State) : Out := .next (s.fireValue (.rotr n w) w (rotrVal n))
/-- `popc` (R210). -/
def execPopc (n : Width) (w : Fields) (s : State) : Out := .next (s.fireValue (.popc n w) w (countVal n popcount))
/-- `clz` (R210). -/
def execClz (n : Width) (w : Fields) (s : State) : Out := .next (s.fireValue (.clz n w) w (countVal n leadingZeros))
/-- `ctz` (R210). -/
def execCtz (n : Width) (w : Fields) (s : State) : Out := .next (s.fireValue (.ctz n w) w (countVal n trailingZeros))
/-- `brev` (R210). -/
def execBrev (n : Width) (w : Fields) (s : State) : Out := .next (s.fireValue (.brev n w) w (countVal n reverseBits))
/-- `bfx` (R211). -/
def execBfx (n : Width) (w : Fields) (s : State) : Out := .next (s.fireValue (.bfx n w) w (bfxVal n))
/-- `bfi` (R211). -/
def execBfi (n : Width) (w : Fields) (s : State) : Out := .next (s.fireValue (.bfi n w) w (bfiVal n))
/-- `bperm` (R212). -/
def execBperm (n : Width) (w : Fields) (s : State) : Out :=
  .next (s.fireValue (.bperm n w) w fun v => BitVec.ofNat 64 (bpermVal ((widthBits n) / 8) v ((widthBits n) / 8)))
/-- `icmp` (R213). -/
def execIcmp (c : Cmp) (t : IntTy) (w : Fields) (s : State) : Out :=
  .next (s.fireValue (.icmp c t w) w fun v => bit1 (cmpHolds c (intOperand t v.a) (intOperand t v.b)))
/-- `isel` (R214). -/
def execIsel (n : Width) (w : Fields) (s : State) : Out :=
  .next (s.fireValue (.isel n w) w fun v => lowBits n (if v.g.getLsbD 0 then v.a else v.b))
/-- `pand` (R215). -/
def execPand (w : Fields) (s : State) : Out := .next (s.fireValue (.pand w) w (pred2 (· && ·)))
/-- `por` (R215). -/
def execPor (w : Fields) (s : State) : Out := .next (s.fireValue (.por w) w (pred2 (· || ·)))
/-- `pxor` (R215). -/
def execPxor (w : Fields) (s : State) : Out := .next (s.fireValue (.pxor w) w (pred2 (· != ·)))
/-- `pnot` (R215). -/
def execPnot (w : Fields) (s : State) : Out := .next (s.fireValue (.pnot w) w fun v => bit1 (!v.a.getLsbD 0))
/-- `pset` (R215). -/
def execPset (w : Fields) (s : State) : Out := .next (s.fireValue (.pset w) w fun v => bit1 (v.a != 0))
/-- `pmov` (R215). -/
def execPmov (w : Fields) (s : State) : Out := .next (s.fireValue (.pmov w) w fun v => bit1 (v.a.getLsbD 0))
/-- `ppack` (R215). -/
def execPpack (w : Fields) (s : State) : Out :=
  .next (s.fireValue (.ppack w) w fun v => v.a * 2 + bit1 (v.b.getLsbD 0))

end Sys2Proof.Machine
end

