-- ==== Sys2Proof/Machine/Float.lean ====
section
/-! DEFINITION. FP32, packed narrow and dot-product instructions, classes 0x3 and 0x4 (R220 to R233). -/

namespace Sys2Proof.Machine

/-- `fp_in` of the low bits of a port (R220). -/
def Block.fin (b : Block) (f : Fmt) (v : Word) : FVal × Exc := fpIn f b.ftz v.toNat

/-- `fp_out` in the block's mode (R220). -/
def Block.fout (b : Block) (f : Fmt) (v : FVal) : FRes := fpOut f b.mode b.ftz false v

/-- Two operands, an exact result, one rounding (R223). -/
def fp2 (f : Fmt) (op : Mode → FVal → FVal → FVal × Exc) (b : Block) (x y : Word) : FRes :=
  let x := b.fin f x
  let y := b.fin f y
  let r := op b.mode x.1 y.1
  let o := b.fout f r.1
  (o.1, x.2 ||| y.2 ||| r.2 ||| o.2)

/-- x · y + z with one rounding (R223). -/
def fp3 (f : Fmt) (b : Block) (x y z : Word) : FRes :=
  let x := b.fin f x
  let y := b.fin f y
  let z := b.fin f z
  let r := fFma b.mode x.1 y.1 z.1
  let o := b.fout f r.1
  (o.1, x.2 ||| y.2 ||| z.2 ||| r.2 ||| o.2)

/-- A pattern as a token (R220). -/
def fword (r : FRes) : Word × Exc := (BitVec.ofNat 64 r.1, r.2)

/-- Difference of two values. -/
def fSub (m : Mode) (x y : FVal) : FVal × Exc := fAdd m x y.neg

/-- A port's FP32 pattern after `fp_in`'s flush. -/
def Block.flushed (b : Block) (v : Word) : Nat :=
  let x := v.toNat % 2 ^ 32
  if b.ftz && fmtF32.isSub x then fmtF32.signBit (fmtF32.sign x) else x

/-- Whether pattern x is less than y, −0 below +0, neither NaN (R224). -/
def patLess (x y : Nat) : Bool :=
  let c := (fmtF32.value x).cmp (fmtF32.value y)
  decide (c < 0) || (c == 0 && fmtF32.sign x && !fmtF32.sign y)

/-- `fmin` or `fmax` on patterns (R224). -/
def minMaxPat (isMin : Bool) (x y : Nat) : Nat :=
  if fmtF32.isNan x then (if fmtF32.isNan y then fmtF32.canonNan else y)
  else if fmtF32.isNan y then x
  else if patLess x y == isMin then x else y

/-- `fmin`, `fmax` (R224). -/
def fminmax (isMin : Bool) (b : Block) (v : PortVals) : Word × Exc :=
  let x := b.flushed v.a
  let y := b.flushed v.b
  (BitVec.ofNat 64 (minMaxPat isMin x y), (b.fin fmtF32 v.a).2 ||| (b.fin fmtF32 v.b).2)

/-- `fcmp` (R226). -/
def fcmpVal (c : FCmp) (b : Block) (v : PortVals) : Word × Exc :=
  let x := b.fin fmtF32 v.a
  let y := b.fin fmtF32 v.b
  let un := x.1.isNan || y.1.isNan
  let k := x.1.cmp y.1
  let holds : Bool :=
    match c with
    | .eq => !un && k == 0 | .ne => un || k != 0
    | .lt => !un && decide (k < 0) | .le => !un && decide (k ≤ 0)
    | .gt => !un && decide (k > 0) | .ge => !un && decide (k ≥ 0)
    | .un => un | .or => !un
  let quiet : Bool := match c with
    | .lt | .le | .gt | .ge => un
    | .eq | .ne | .un | .or => false
  (bit1 holds, x.2 ||| y.2 ||| (if quiet then exNV else 0))

/-- `fclass` (R227). -/
def fclassVal (v : PortVals) : Word :=
  let x := v.a.toNat % 2 ^ 32
  let neg := fmtF32.sign x
  let k :=
    if fmtF32.isSnan x then 8
    else if fmtF32.isNan x then 9
    else if fmtF32.isInf x then (if neg then 0 else 7)
    else if fmtF32.expo x != 0 then (if neg then 1 else 6)
    else if fmtF32.mant x != 0 then (if neg then 2 else 5)
    else if neg then 3 else 4
  BitVec.ofNat 64 (2 ^ k)

/-- Mode of a `frnd` letter (R228). -/
def rndMode : RndLetter → Mode
  | .n => .ne | .z => .z | .p => .p | .m => .m

/-- `frnd` (R228): an integral value of the operand's sign; raises NV for a signalling NaN only. -/
def frndVal (m : Mode) (b : Block) (v : PortVals) : Word × Exc :=
  let x := b.fin fmtF32 v.a
  let r :=
    match x.1 with
    | .nan => fmtF32.canonNan
    | .inf s => fmtF32.infBits s
    | .fin s k e => (roundFin fmtF32 .ne false s (roundInt m s k e).1 0).1
  (BitVec.ofNat 64 r, x.2)

/-- Scale of `fscale` clamped to ±400, beyond which every FP32 result is the same (R229). -/
def scaleBy (v : Word) : Int :=
  let n := intOperand .s32 v
  if n < -400 then -400 else if 400 < n then 400 else n

/-- `fscale` (R229). -/
def fscaleVal (b : Block) (v : PortVals) : Word × Exc :=
  let x := b.fin fmtF32 v.a
  let r := match x.1 with
    | .fin s m e => FVal.fin s m (e + scaleBy v.b)
    | y => y
  let o := b.fout fmtF32 r
  (BitVec.ofNat 64 o.1, x.2 ||| o.2)

/-- Format of a packed half (R181). -/
def halfFmt : HalfFmt → Fmt
  | .f16 => fmtF16 | .bf16 => fmtBF16

/-- 16-bit lane `k` of a port (R220). -/
def lane16 (v : Word) (k : Nat) : Word := (v >>> (16 * k)) &&& 0xFFFF

/-- Two packed lanes; the exceptions are ORed (R230). -/
def packed (f : Nat → FRes) : Word × Exc :=
  let l := f 0
  let h := f 1
  (BitVec.ofNat 64 (l.1 + h.1 * 2 ^ 16), l.2 ||| h.2)

/-- Exact sum of values rounded once to FP32 (R231, R233). -/
def sumOut (b : Block) (vals : List (FVal × Exc)) : Word × Exc :=
  let r := fSum b.mode (vals.map (·.1))
  let o := b.fout fmtF32 r.1
  (BitVec.ofNat 64 o.1, vals.foldl (fun e v => e ||| v.2) (r.2 ||| o.2))

/-- A product with the exceptions of its operands. -/
def prodOf (x y : FVal × Exc) : FVal × Exc :=
  let r := fMul x.1 y.1
  (r.1, x.2 ||| y.2 ||| r.2)

/-- `dot2` (R231). -/
def dot2Val (f : Fmt) (b : Block) (v : PortVals) : Word × Exc :=
  sumOut b [b.fin fmtF32 v.g, prodOf (b.fin f (lane16 v.a 0)) (b.fin f (lane16 v.b 0)),
    prodOf (b.fin f (lane16 v.a 1)) (b.fin f (lane16 v.b 1))]

/-- Byte `k` of a port as .s8. -/
def sbyte (v : Word) (k : Nat) : Int := intOperand .s8 (v >>> (8 * k))

/-- `dot4` (R232). -/
def dot4Val (v : PortVals) : Word :=
  intResult .s32 (intOperand .s32 v.g + sbyte v.a 0 * sbyte v.b 0 + sbyte v.a 1 * sbyte v.b 1 +
    sbyte v.a 2 * sbyte v.b 2 + sbyte v.a 3 * sbyte v.b 3)

/-- Format of a `dotds` activation. -/
def actFmt : ActFmt → Fmt
  | .f8a => fmtF8a | .f8b => fmtF8b

/-- `dotds` (R233). -/
def dotdsVal (f : Fmt) (b : Block) (v : PortVals) : Word × Exc :=
  sumOut b (b.fin fmtF32 v.g :: (List.range 4).map fun k =>
    prodOf (ds8Value (byteOf v.a k), 0) (b.fin f (v.b >>> (8 * k))))

/-- `fadd` (R223). -/
def execFadd (w : Fields) (s : State) : Out := .next (s.fireFp (.fadd w) w fun b v => fword (fp2 fmtF32 fAdd b v.a v.b))
/-- `fsub` (R223). -/
def execFsub (w : Fields) (s : State) : Out := .next (s.fireFp (.fsub w) w fun b v => fword (fp2 fmtF32 fSub b v.a v.b))
/-- `fmul` (R223). -/
def execFmul (w : Fields) (s : State) : Out :=
  .next (s.fireFp (.fmul w) w fun b v => fword (fp2 fmtF32 (fun _ => fMul) b v.a v.b))
/-- `ffma` (R223). -/
def execFfma (w : Fields) (s : State) : Out :=
  .next (s.fireFp (.ffma w) w fun b v => fword (fp3 fmtF32 b v.a v.b v.g))
/-- `fmin` (R224). -/
def execFmin (w : Fields) (s : State) : Out := .next (s.fireFp (.fmin w) w (fminmax true))
/-- `fmax` (R224). -/
def execFmax (w : Fields) (s : State) : Out := .next (s.fireFp (.fmax w) w (fminmax false))
/-- `fabs` (R225). -/
def execFabs (w : Fields) (s : State) : Out := .next (s.fireValue (.fabs w) w fun v => v.a &&& 0x7FFFFFFF)
/-- `fneg` (R225). -/
def execFneg (w : Fields) (s : State) : Out :=
  .next (s.fireValue (.fneg w) w fun v => (v.a &&& 0xFFFFFFFF) ^^^ 0x80000000)
/-- `fcmp` (R226). -/
def execFcmp (c : FCmp) (w : Fields) (s : State) : Out := .next (s.fireFp (.fcmp c w) w (fcmpVal c))
/-- `fsel` (R225). -/
def execFsel (w : Fields) (s : State) : Out :=
  .next (s.fireValue (.fsel w) w fun v => (if v.g.getLsbD 0 then v.a else v.b) &&& 0xFFFFFFFF)
/-- `fclass` (R227). -/
def execFclass (w : Fields) (s : State) : Out := .next (s.fireValue (.fclass w) w fclassVal)
/-- `frnd` (R228). -/
def execFrnd (mode : RndLetter) (w : Fields) (s : State) : Out :=
  .next (s.fireFp (.frnd mode w) w (frndVal (rndMode mode)))
/-- `fscale` (R229). -/
def execFscale (w : Fields) (s : State) : Out := .next (s.fireFp (.fscale w) w fscaleVal)
/-- `fcopysign` (R225). -/
def execFcopysign (w : Fields) (s : State) : Out :=
  .next (s.fireValue (.fcopysign w) w fun v => (v.a &&& 0x7FFFFFFF) ||| (v.b &&& 0x80000000))
/-- `hadd2` (R230). -/
def execHadd2 (t : HalfFmt) (w : Fields) (s : State) : Out :=
  .next (s.fireFp (.hadd2 t w) w fun b v => packed fun k => fp2 (halfFmt t) fAdd b (lane16 v.a k) (lane16 v.b k))
/-- `hmul2` (R230). -/
def execHmul2 (t : HalfFmt) (w : Fields) (s : State) : Out :=
  .next (s.fireFp (.hmul2 t w) w fun b v =>
    packed fun k => fp2 (halfFmt t) (fun _ => fMul) b (lane16 v.a k) (lane16 v.b k))
/-- `hfma2` (R230). -/
def execHfma2 (t : HalfFmt) (w : Fields) (s : State) : Out :=
  .next (s.fireFp (.hfma2 t w) w fun b v =>
    packed fun k => fp3 (halfFmt t) b (lane16 v.a k) (lane16 v.b k) (lane16 v.g k))
/-- `dot2` (R231). -/
def execDot2 (t : HalfFmt) (w : Fields) (s : State) : Out := .next (s.fireFp (.dot2 t w) w (dot2Val (halfFmt t)))
/-- `dot4` (R232). -/
def execDot4 (w : Fields) (s : State) : Out := .next (s.fireValue (.dot4 w) w dot4Val)
/-- `dotds` (R233). -/
def execDotds (t : ActFmt) (w : Fields) (s : State) : Out := .next (s.fireFp (.dotds t w) w (dotdsVal (actFmt t)))

end Sys2Proof.Machine
end

