-- ==== Sys2Proof/Machine/Homes.lean ====
section
/-! DEFINITION. Directory entries at the homes and the calls by which a home gathers tokens (R76 to R80, R96). -/

namespace Sys2Proof.Machine

/-! ### Directory entries (R78, R79) -/

/-- The entry of a line: a line with none has all 512 tokens at home (R78). -/
def State.dirOf (s : State) (line : Nat) : DirEntry := tget (fun e => e.line == line) { line := line } s.dir

/-- Whether a line has an entry. -/
def State.hasDir (s : State) (line : Nat) : Bool := s.dir.any fun e => e.line == line

/-- Replace an entry; one whose tokens are all at home is freed (R79). -/
def State.setDir (s : State) (e : DirEntry) : State :=
  if e.htok = 512 ∧ e.ownh = true then
    { s with dir := tdel (fun x => x.line == e.line) s.dir, collecting := s.collecting.filter (· != e.line) }
  else { s with dir := tset (fun x => x.line == e.line) e s.dir }

/-- Basin of a holder (R75). -/
def holderBasin (h : Nat) : Nat := if h < 256 then h / 8 else if h < 512 then (h - 256) / 8 else 4 * (h - 512)

/-- Holders of a basin (R75). -/
def basinHolders (b : Nat) : List Nat :=
  (List.range 8).map (8 * b + ·) ++ (List.range 8).map (256 + 8 * b + ·) ++ if b % 4 = 0 then [512 + b / 4] else []

/-- Slot `k` of an entry in pointer mode (R78). -/
def DirEntry.slot (e : DirEntry) (k : Nat) : Option Nat :=
  let v := e.hold.extractLsb' (12 * k) 12
  if v.getLsbD 11 then some (v.extractLsb' 0 10).toNat else none

/-- The holders an entry names (R78). -/
def DirEntry.holders (e : DirEntry) : List Nat :=
  if e.mode then (List.range 32).flatMap fun b => if e.hold.getLsbD b then basinHolders b else []
  else (List.range 4).filterMap e.slot

/-- An entry whose one holder is `h` (R79). -/
def DirEntry.only (e : DirEntry) (h : Nat) : DirEntry := { e with mode := false, hold := BitVec.ofNat 48 (2048 + h) }

/-- Add a holder (R79). -/
def DirEntry.add (e : DirEntry) (h : Nat) : DirEntry :=
  if e.mode then { e with hold := e.hold ||| (1#48 <<< holderBasin h) }
  else if e.holders.contains h then e
  else
    match (List.range 4).find? fun k => (e.slot k).isNone with
    | some k => { e with hold := e.hold ||| (BitVec.ofNat 48 (2048 + h) <<< (12 * k)) }
    | none =>
      { e with mode := true, hold := (e.holders ++ [h]).foldl (fun v x => v ||| (1#48 <<< holderBasin x)) 0 }

/-- Tokens of a cache, set; a copy with none is dropped, which wakes the objects watched through it: those at the line's
place in a page (R337). -/
def State.setCopy (s : State) (c : Copy) : State :=
  let key := fun (x : Copy) => x.holder == c.holder && x.line == c.line
  if c.tokens = 0 then
    let woken := fun (w : WaitEntry) => w.quay == c.holder &&
      match w.loc with
      | .glob va => va / 128 % 512 == c.line % 512
      | .vault _ _ => false
    { s with copies := tdel key s.copies }.wakeWaits woken
  else { s with copies := tset key c s.copies }

/-- The copy of a line in a cache. -/
def State.copyOf (s : State) (h line : Nat) : Copy :=
  tget (fun c => c.holder == h && c.line == line) { holder := h, line := line, tokens := 0 } s.copies

/-- Write bytes of one line in a cache that holds all its tokens (R71, R76, R502): the copy is dirty, λ and tag 0, poisoned
where the data is, or where a part of a poisoned line is written. -/
def State.cacheWrite (s : State) (h pa : Nat) (bs : List Byte) (poison : Bool) : State :=
  let c := s.copyOf h (pa / 128)
  let whole := bs.length == 128 && pa % 128 == 0
  let p := poison || (!whole && c.md.poison)
  let s : State := { s with mem := Mem.writeN s.mem pa bs }
  (s.setCopy { c with dirty := true, md := { poison := p } }).countPoison (p && !c.md.poison)

/-- A home takes back the data of a line with the owner token, its metadata with it (R71, R97): one access of its slice (R435). -/
def State.takeData (s : State) (line : Nat) (owner : Bool) (md : LineMeta) : State :=
  if owner then { s.chargeHome line s.paying with poisoned := if md.poison then addOnce line s.poisoned else s.poisoned.filter (· != line) }
  else s

/-! ### Calling tokens home (R80, R88, R96) -/

/-- Send a coherence message (R81): it is charged for its way (R438). -/
def State.post (s : State) (m : NetMsg) : State :=
  let page := match m.body with | .sweep _ _ | .swack _ => true | _ => false
  let s := s.chargeMsg m (256 + s.homeSlice (if page then m.line * 65536 else m.line * 128))
  { s with net := s.net ++ [{ m with payer := s.payer m }] }

/-- The requester of the active persistent request of a line (R86). -/
def State.activePers (s : State) (line : Nat) : Option Nat :=
  (s.pers.find? fun p => p.line == line && p.active).map (·.holder)

/-- Whether a message that calls or carries tokens of a line is under way. -/
def State.tokensMoving (s : State) (line : Nat) : Bool :=
  (s.net ++ s.homeWait).any fun m => m.line == line &&
    match m.body with
    | .collect | .put _ _ _ | .data _ _ _ | .tok _ | .wb _ | .fwds => true
    | _ => false

/-- Whether every token of a line is at its home; if not, COLLECT is sent to its holders, once. -/
def State.wantAll (s : State) (line : Nat) : Bool × State :=
  if s.hasDir line = false then (true, { s with collecting := s.collecting.filter (· != line) })
  else if (s.dirOf line).wip || (s.activePers line).isSome || s.tokensMoving line then
    (false, { s with collecting := addOnce line s.collecting })
  else
    let s := (s.dirOf line).holders.foldl (fun s h => s.post { line := line, holder := h, body := .collect }) s
    (false, { s with collecting := addOnce line s.collecting })

/-- Whether the owner token of a line is at its home; if not, FWDS is sent to its owner, once (R83). -/
def State.wantOwner (s : State) (line : Nat) : Bool × State :=
  let e := s.dirOf line
  if e.ownh then (true, s)
  else if e.wip || (s.activePers line).isSome || s.tokensMoving line then (false, s)
  else
    match e.slot 0 with
    | some h => (false, s.post { line := line, holder := h, body := .fwds })
    | none => (false, s)

/-- Whether RMASK admits a source module to the home of an address (R449, R450). -/
def State.rmaskAllows (s : State) (src pa : Nat) : Bool :=
  let p := s.partOfSlice (s.homeSlice pa)
  ((s.domain.rmask.find? fun x => x.1 == p).map fun x => x.2.getLsbD src).getD false

/-- Another module's atomic holds the line at its home (R272, R450). -/
def State.heldRemotely (s : State) (line : Nat) : Bool := s.remoteHolds.any fun h => h.line == line

/-- The lines of the tables that a walk of context `c` reads are read at their homes, which need their owner tokens (R88,
R107): whether all are there, each asked for. -/
def State.walkOwned (s : State) (c va : Nat) (payer : Nat := c) : Bool × State :=
  (s.walkLines c va (s.ctx c).ownRoot 4).foldl (fun r l => let x := r.2.wantOwner l; (r.1 && x.1, x.2)) (true, s.payBy payer)

/-- Gather every line of `n` lines from `lo` (R96): whether all are home, and none held by another module's atomic. -/
def State.wantRange (s : State) (lo n : Nat) : Bool × State :=
  (s.dir.filter fun e => decide (lo ≤ e.line) && decide (e.line < lo + n)).foldl (fun r e => (false, (r.2.wantAll e.line).2))
    (!s.remoteHolds.any (fun h => decide (lo ≤ h.line) && decide (h.line < lo + n)), s)

/-- Give a line's tokens back, with its data where the owner token is among them (R77, R87). -/
def State.putBack (s : State) (h line : Nat) : State :=
  let c := s.copyOf h line
  if c.tokens = 0 then s
  else (s.setCopy { c with tokens := 0 }).post { line := line, holder := h, body := .put c.tokens c.owner c.md }

/-- Requests that waited at a home are looked at again (R82). -/
def State.unpark (s : State) : State := { s with net := s.homeWait ++ s.net, homeWait := [] }

/-- A message that must wait at its home or holder. -/
def State.parkMsg (s : State) (m : NetMsg) : State := { s with homeWait := s.homeWait ++ [m] }

/-! ### Generations (R103, R105) -/

/-- Bump the generation of a page, or note that it waits 260 cycles after its last increment (R105). -/
def State.bumpGen (s : State) (page : Nat) : State := { s with genWait := s.genWait ++ [page] }

/-- Apply an increment. -/
def State.applyBump (s : State) (page : Nat) : State :=
  { s with gens := tset (fun g => g.page == page) { page := page, gen := s.genOf page + 1, last := s.clock } s.gens }

/-- Whether an increment of a page may be applied now (R105). -/
def State.bumpReady (s : State) (page : Nat) : Bool :=
  match s.gens.find? fun g => g.page == page with
  | some g => decide (s.clock ≥ g.last + 260)
  | none => true

end Sys2Proof.Machine
end

