-- ==== Sys2Proof/Machine/Access.lean ====
section
/-! DEFINITION. What every access of memory shares: the address it forms and its checks (R135, R263, R264), translation
at the memory port (R106, R108), permission at the L1 (R82 to R87, R92), vault regions and the range scoreboard
(R138 to R148), holds (R272), forwarding (R190), and the dirty log (R115). -/

namespace Sys2Proof.Machine

/-- Cause codes of R366 used by memory accesses. -/
def cScope : BitVec 8 := 0x10
/-- "misaligned address". -/
def cMisaligned : BitVec 8 := 0x12
/-- "parameter range". -/
def cParam : BitVec 8 := 0x13
/-- "local range". -/
def cLocal : BitVec 8 := 0x14
/-- "vault address". -/
def cVaultAddr : BitVec 8 := 0x15
/-- "vault refused". -/
def cVaultRef : BitVec 8 := 0x16
/-- "page fault". -/
def cPage : BitVec 8 := 0x17
/-- "write to read-only vault region". -/
def cReadOnly : BitVec 8 := 0x1D
/-- "write to sealed". -/
def cSealed : BitVec 8 := 0x1E
/-- "poisoned data". -/
def cPoison : BitVec 8 := 0x1F
/-- "store lost". -/
def cLost : BitVec 8 := 0x20

/-- A step of an access: a value to go on with, or the state in which the instruction stands for now (it trapped,
emitted not-ready, or waits). -/
inductive Got (α : Type) where
  | ok (v : α) (s : State)
  | stop (s : State)

/-- Go on with what was got. -/
def Got.andThen (g : Got α) (k : α → State → Got β) : Got β :=
  match g with
  | .ok v s => k v s
  | .stop s => .stop s

/-- End an access. -/
def Got.done (g : Got α) (k : α → State → State) : State :=
  match g with
  | .ok v s => k v s
  | .stop s => s

/-! ### Addresses -/

/-- A checked address: virtual, or a vault byte. -/
inductive Place where
  | virt (va : Word)
  | vault (quay off : Nat)
  deriving DecidableEq, Repr, Inhabited

/-- R135: the vault byte a 32-bit vault address names, from a quay of a die, for a context. -/
def State.vaultPlace (s : State) (v : BitVec 32) (q c n : Nat) (lateral : Bool) : Except (BitVec 8) Place :=
  let off := (v.extractLsb' 0 24).toNat
  let vq := (v.extractLsb' 24 5).toNat
  let tq := if lateral then dieOf q * 32 + vq else q
  if v.extractLsb' 29 3 ≠ 0 ∨ off + n > vaultEnd then .error cVaultAddr
  else if lateral ∧ s.holdsQuay c tq = false then .error cVaultRef
  else .ok (.vault tq off)

/-- R263, R264, R98: the place an access of `n` bytes names, `al` its alignment; a refusal carries the cause and the
address for the trap record. -/
def State.place (s : State) (sp : Space) (ea : Word) (n al : Nat) : Except (BitVec 8 × Word) Place :=
  let t := s.thread s.pass.quay s.pass.slot
  let virt (va : Word) : Except (BitVec 8 × Word) Place :=
    if va.extractLsb' 56 8 ≠ 0 then .error (cNonCanon, va)
    else if va.toNat % al ≠ 0 then .error (cMisaligned, va)
    else if va.toNat + n > 2 ^ 56 then .error (cNonCanon, 2 ^ 56)
    else .ok (.virt va)
  let vlt (lateral : Bool) : Except (BitVec 8 × Word) Place :=
    if ea.extractLsb' 32 32 ≠ 0 then .error (cVaultAddr, ea)
    else if ea.toNat % al ≠ 0 then .error (cMisaligned, ea)
    else
      match s.vaultPlace (ea.extractLsb' 0 32) s.pass.quay s.pass.ctx n lateral with
      | .ok p => .ok p
      | .error c => .error (c, ea)
  match sp with
  | .g => virt ea
  | .k => if ea.toNat + n > t.psize then .error (cParam, ea) else virt (t.param + ea)
  | .l =>
    if ea.toNat + n > t.lsize then .error (cLocal, ea)
    else virt (t.lbase + BitVec.ofNat 64 (t.gid * t.lsize) + ea)
  | .v => vlt false
  | .vl => vlt true

/-- Take a place or trap. -/
def State.gotPlace (s : State) (i : Instr) (w : Fields) (r : Except (BitVec 8 × Word) Place) : Got Place :=
  match r with
  | .ok p => .ok p s
  | .error (c, a) => .stop (s.trapHere i w c a)

/-! ### Memory read and written by the hardware in a context's name (R70, R81, R88) -/

/-- What came of a write by the hardware: done, held back for now, or not possible. -/
inductive HwDone where
  | done (s : State)
  | wait (s : State)
  | fault

/-- Go on after a write by the hardware. -/
def HwDone.andThen (d : HwDone) (k : State → HwDone) : HwDone :=
  match d with
  | .done s => k s
  | .wait s => .wait s
  | .fault => .fault

/-- Read bytes of one line for agent `y` in a context's name at its home, which needs the owner token (R70, R81, R88), or from
another module (R450).  A held line is waited for (R272). -/
def State.hwLook (s : State) (y : Waiter) (c va n : Nat) : LineSays :=
  match s.hwSays c va false with
  | .pa a _ _ =>
    if s.heldAny (.glob a) then .wait (s.waitHeld y (.glob a))
    else
      let w := s.walkOwned c va (s.waiterCtx y)
      let r := w.2.wantOwner (a / 128)
      if w.1 && r.1 then .ok (r.2.gbytes a n) (r.2.gmeta (a / 128)) (r.2.dropFar (.tables c)) else .wait r.2
  | .remote m a g _ => State.farAgain (fun s g => s.askFar y m a n g false none (.load n)) s g cPage
  | .wait => .wait s
  | .table m a g => .wait (s.askTable c m a g)
  | .miss _ => .refused cPage s
  | .refuse k => .refused k s

/-- The same, the access charged (R438). -/
def State.hwLoad (s : State) (y : Waiter) (c va n : Nat) : LineSays :=
  match s.hwLook y c va n with
  | .ok bs md t => .ok bs md (t.chargeLook y c va)
  | r => r

/-- Change bytes of one line for agent `y` in a context's name at its home, which needs all its tokens (R70, R81, R88, R272,
R438), or at another module's (R450); `log` goes before it, and where `strict` is set poisoned data is a fault (R71). -/
def State.hwPut (s : State) (y : Waiter) (c va : Nat) (log : State → Nat → HwDone) (here : State → Nat → State)
    (far : State → Nat → Nat → BitVec 8 → LineSays) (strict : Bool := false) : HwDone :=
  match s.hwSays c va true with
  | .pa a _ ipa =>
    if s.heldAny (.glob a) then .wait (s.waitHeld y (.glob a))
    else
      let w := s.walkOwned c va (s.waiterCtx y)
      let r := w.2.wantAll (a / 128)
      if w.1 && r.1 then
        if strict && (r.2.gmeta (a / 128)).poison then .fault
        else (log r.2 ipa).andThen fun s => .done ((here (s.chargeLook y c va) a).dropFar (.tables c))
      else .wait r.2
  | .remote m a g ipa =>
    (if s.remotes.any (fun r => r.who == y && r.pa == a && r.write) then .done s else log s ipa).andThen fun s =>
      match State.farAgain (fun s g => far s m a g) s g cPage with
      | .ok _ _ s => .done s
      | .wait s => .wait s
      | .refused _ _ | .stale _ _ => .fault
  | .wait => .wait s
  | .table m a g => .wait (s.askTable c m a g)
  | .miss _ | .refuse _ => .fault

/-! ### The dirty log (R114, R115) -/

/-- Read one 64-bit word of the log in the parent's space; 0 where it cannot be read (log entry 55). -/
def State.logRead (s : State) (y : Waiter) (p va : Nat) (k : Nat → State → HwDone) : HwDone :=
  match s.hwLook y p va 8 with
  | .ok bs _ s => k (leNat bs) s
  | .wait s => .wait s
  | .refused _ s | .stale _ s => k 0 s

/-- Write one 64-bit word of the log in the parent's space; dropped where it cannot be written, since the spec names no fault
for it (log entry 55). -/
def State.logPoke (s : State) (y : Waiter) (p va v : Nat) (k : State → HwDone) : HwDone :=
  match s.hwPut y p va (fun s _ => .done s) (fun s a => s.gwrite a (leBytes 8 v) false)
      fun s m a g => s.askFar y m a 8 g true none (.store (leBytes 8 v) false) with
  | .done s => k s
  | .wait s => .wait s
  | .fault => k s

/-- Log the page of an intermediate address of context `c` (R115), pages one at a time; its last write tells that the page is
logged, and until then the same steps are taken again. -/
def State.logPage (s : State) (c ipa : Nat) : HwDone :=
  let d := (s.ctx c).dlog
  let p := (s.ctx c).parent
  let base := (d.extractLsb' 6 50).toNat * 64
  let pg := ipa / 65536
  let y := Waiter.dlog c pg
  let other := fun (r : Remote) => match r.who with | .dlog x g => x == c && g != pg | _ => false
  if d.getLsbD 0 = false then .done s
  else if s.remotes.any other then .wait s
  else
    s.logRead y p base fun w0 s => s.logRead y p (base + 8) fun ln s => s.logRead y p (base + 24) fun ring s =>
      s.logRead y p (base + 32) fun head s => s.logRead y p (base + 40) fun tail s =>
        let logn := ln % 256
        if w0 / 2 % 2 = 0 ∧ tail - head < 2 ^ logn then
          s.logPoke y p (ring + 8 * (tail % 2 ^ logn)) pg fun s => s.logPoke y p (base + 40) (tail + 1) fun s =>
            .done ((s.chargeLook y p base).dropFar y)
        else
          s.logRead y p (base + 48) fun map s =>
            let a := map + pg / 32 / 64 * 8
            s.logPoke y p base (if w0 / 2 % 2 = 1 then w0 else w0 + 2) fun s => s.logRead y p a fun bits s =>
              s.logPoke y p a (bits ||| 2 ^ (pg / 32 % 64)) fun s => .done (((s.chargeLook y p base).chargeLook y p a).dropFar y)

/-- Change bytes of one line for agent `y` in a context's name, logged before it is performed (R115). -/
def State.hwChange (s : State) (y : Waiter) (c va : Nat) (here : State → Nat → State)
    (far : State → Nat → Nat → BitVec 8 → LineSays) (strict : Bool := false) : HwDone :=
  s.hwPut y c va (fun s ipa => s.logPage c ipa) here far strict

/-! ### Translation at a port (R102, R104 to R108) -/

/-- Cycles a cached translation lives (R105). -/
def tlbLife : Nat := 65536

/-- Cached translation of an address (R106): not older than R105 allows, with the permissions asked. -/
def State.tlbHit (s : State) (q c va : Nat) (needW : Bool) : Option TlbEntry :=
  s.tlb.find? fun e => e.quay == q && e.ctx == c && e.va / 2 ^ e.size == va / 2 ^ e.size && decide (s.clock < e.filled + tlbLife) &&
    (e.w || !needW)

/-- A cached entry is used, which its replacement follows (R106). -/
def State.touch (s : State) (e : TlbEntry) : State :=
  { s with tlb := s.tlb.map fun x => if x = e then { x with used := s.clock } else x }

/-- Physical address, generation and intermediate address through a cached entry. -/
def TlbEntry.xlate (e : TlbEntry) (va : Nat) : Xlate :=
  let o := va % 2 ^ e.size
  ⟨e.pa + o, e.size, e.w, e.x, e.gen, e.ipa + o, e.size⟩

/-- Queue a walk for a miss of context `c`, or join the die's walk of the same context and page (R107).  The list keeps
arrival order; what stands past the 64 entries of the miss queue waits at its port and enters in that order. -/
def State.addMiss (s : State) (c : Nat) (m : Miss) : State :=
  let same := fun (x : Walk) => x.die == dieOf m.quay && x.ctx == c && x.page == m.va / 65536
  if s.walks.any same then
    { s with walks := tmod same (fun x => if x.misses.contains m then x else { x with misses := x.misses ++ [m] }) s.walks }
  else { s with walks := s.walks ++ [{ die := dieOf m.quay, ctx := c, page := m.va / 65536, misses := [m] }] }

/-- First write through an entry of a logged context (R115): it waits while the log cannot be written. -/
def State.sawWrite (s : State) (q c : Nat) (e : TlbEntry) (va : Nat) : HwDone :=
  if (s.ctx c).dlog.getLsbD 0 && !e.seen then
    (s.logPage c (e.ipa + va % 2 ^ e.size)).andThen fun s =>
      .done { s with tlb := tmod (fun x => x.quay == q && x.ctx == c && x.va == e.va && x.size == e.size) (fun x => { x with seen := true }) s.tlb }
  else .done s

/-- Whether the thread of the pass waits at instruction `idx` of its block on a page request or on a walk. -/
def State.waitsAt (s : State) (idx : Nat) : Bool × Bool :=
  let me := fun (y : Waiter) => y == .thread s.pass.quay s.pass.slot s.pass.blk idx
  (s.pgreqs.any (fun r => r.who.any fun y => me y.1), s.walks.any (fun w => w.misses.any fun m => me m.who))

/-- The waiter that stands for the current instruction. -/
def State.me (s : State) : Waiter := .thread s.pass.quay s.pass.slot s.pass.blk s.pass.cur

/-- Translate an access in context `c` through the cache of quay `q` (R108): a hit, or a walk begun and a bubble emitted;
an access that waits for a walk after a stale refusal waits without a bubble (R104). -/
def State.portAt (s : State) (i : Instr) (w : Fields) (q c va : Nat) (needW : Bool) (kind : AccKind) : Got Xlate :=
  let (pg, wk) := s.waitsAt s.pass.cur
  if pg then .stop (s.emitNotReady i w)
  else if wk then .stop s.stall
  else
    match s.tlbHit q c va needW with
    | some e =>
      let s := s.touch e
      match (if needW then s.sawWrite q c e va else .done s) with
      | .done s => .ok (e.xlate va) s
      | .wait s => .stop s.stall
      | .fault => .stop s.stall
    | none => .stop ((s.addMiss c { who := s.me, quay := q, kind := kind, va := va }).emitNotReady i w)

/-- Translate at the memory port of the thread's own quay. -/
def State.port (s : State) (i : Instr) (w : Fields) (c va : Nat) (needW : Bool) (kind : AccKind) : Got Xlate :=
  s.portAt i w s.pass.quay c va needW kind

/-! ### Lines at the L1 (R82 to R87, R92) -/

/-- Holder number the model gives the replicas of an L2 slice (R92). -/
def sliceHolder (sl : Nat) : Nat := 1024 + sl

/-- The L2 slice a read's replica may lie in (R92): slice (line mod k) of those the quay's partition owns on its die. -/
def State.replicaSlice (s : State) (q line : Nat) : Option Nat :=
  let own := (List.range 16).filter fun i => s.partOfSlice (dieOf q * 16 + i) == s.partOfQuay q
  if own.isEmpty then none else (own[line % own.length]?).map (dieOf q * 16 + ·)

/-- Holder number of a quay's copy engine read buffer (R75). -/
def copyHolder (q : Nat) : Nat := 256 + q

/-- Tokens a cache holds. -/
def State.tokensOf (s : State) (h line : Nat) : Nat :=
  (tget (fun c => c.holder == h && c.line == line) { holder := h, line := line, tokens := 0 } s.copies).tokens

/-- A replica a cache may read a line from: its own, or that of the requester's replica slice (R92). -/
def State.replicaOf (s : State) (h q line : Nat) (gen : BitVec 8) : Option Replica :=
  s.replicas.find? fun r => r.line == line && r.gen == gen &&
    (r.holder == h || (s.replicaSlice q line).any (fun sl => r.holder == sliceHolder sl))

/-- A line may be read at a cache: a token, or a replica of the generation (R76, R92). -/
def State.readable (s : State) (h q line : Nat) (gen : BitVec 8) : Bool :=
  decide (s.tokensOf h line ≥ 1) || (s.replicaOf h q line gen).isSome

/-- Metadata of a readable line as a cache holds it (R60, R502). -/
def State.lineMeta (s : State) (h q line : Nat) (gen : BitVec 8) : LineMeta :=
  match s.copies.find? fun c => c.holder == h && c.line == line with
  | some c => c.md
  | none => ((s.replicaOf h q line gen).map (·.md)).getD {}

/-- A line may be written at a cache: all 512 tokens (R76). -/
def State.writable (s : State) (h line : Nat) : Bool := s.tokensOf h line == 512

/-- Request a line for a cache (R81): joined where a request of its kind is out; a read waits for a write request. -/
def State.request (s : State) (r : CohReq) : State :=
  let same := fun (x : CohReq) => x.holder == r.holder && x.line == r.line && x.write == r.write
  if s.reqs.any same then
    { s with reqs := tmod same (fun x => { x with who := x.who ++ r.who.filter fun y => !x.who.contains y,
                                                  noalloc := x.noalloc && r.noalloc }) s.reqs }
  else if s.reqs.any (fun x => x.holder == r.holder && x.line == r.line && x.write) then s
  else
    let body : NetBody := if r.write then .getm r.gen r.ctx r.quay else .gets r.gen r.ctx r.quay
    let s := { s with reqs := s.reqs ++ [{ r with issued := s.clock }] }
    s.post { line := r.line, holder := r.holder, body := body }

/-- What came for an access that was not tokens: a refusal, or a one-use read, which serves no write (R84). -/
def State.answerOf (s : State) (h line : Nat) (who : Waiter) (write : Bool) : Option CohAns :=
  s.answers.find? fun a => a.holder == h && a.line == line && a.who == who && !(a.oneUse && write)

/-- Drop an answer. -/
def State.clearAnswer (s : State) (a : CohAns) : State := { s with answers := s.answers.erase a }

/-- A quay drops its cached translations of an address (R104). -/
def State.dropTlb (s : State) (q c va : Nat) : State :=
  { s with tlb := s.tlb.filter fun e => !(e.quay == q && e.ctx == c && e.va / 2 ^ e.size == va / 2 ^ e.size) }

/-- A stale refusal of an access of `y` through the cache of quay `q` (R104): its cached translation is dropped and walked
again under the generation refused. -/
def State.rewalkFor (s : State) (y : Waiter) (q c va : Nat) (kind : AccKind) (gen : BitVec 8) : State :=
  (s.dropTlb q c va).addMiss c { who := y, quay := q, kind := kind, va := va, refused := some gen }

/-- A stale refusal at the port of the current instruction. -/
def State.rewalk (s : State) (c va : Nat) (kind : AccKind) (gen : BitVec 8) : State :=
  s.rewalkFor s.me s.pass.quay c va kind gen

/-- Read or write permission for a line at a holder (R76, R81), with the line's metadata: there, refused, or requested
and waited for. -/
def State.acquire (s : State) (i : Instr) (w : Fields) (c va : Nat) (x : Xlate) (h : Nat) (write alloc : Bool)
    (kind : AccKind) : Got LineMeta :=
  let q := s.pass.quay
  let line := x.pa / 128
  match s.answerOf h line s.me write with
  | some a =>
    let s := s.clearAnswer a
    if a.stale then .stop (s.rewalk c va kind a.gen).stall
    else if a.cause ≠ 0 then .stop (s.trapHere i w a.cause (BitVec.ofNat 64 va))
    else .ok a.md s
  | none =>
    if (if write then s.writable h line else s.readable h q line x.gen) then .ok (s.lineMeta h q line x.gen) s
    else
      .stop (s.request { holder := h, line := line, write := write, gen := x.gen, ctx := c, quay := q,
                         noalloc := !alloc, who := [s.me] }).stall

/-- Whether two ranges of bytes of locations meet. -/
def Loc.overlaps : Loc → Nat → Loc → Nat → Bool
  | .glob a, n, .glob b, m => Sys2Proof.Machine.overlaps a n b m
  | .vault q a, n, .vault r b, m => q == r && Sys2Proof.Machine.overlaps a n b m
  | _, _, _, _ => false

/-- A location held by a pass that is not the current one (R272), by another module, or past a commit (R508). -/
def State.heldByOther (s : State) (l : Loc) : Bool :=
  (s.parked.any fun p => p.holds.any fun h => h.sameUnit l) ||
    (s.remoteHolds.any fun h => (Loc.glob (h.line * 128)).sameUnit l) ||
    s.threads.any fun t => t.released.any fun r => r.release && r.loc.sameUnit l

/-- A location held by any pass of a quay. -/
def State.heldLine (s : State) (l : Loc) : Bool :=
  s.heldByOther l || s.pass.holds.any fun h => h.sameUnit l

/-- Bytes a waiting write touches from its location on. -/
def PendWrite.span (r : PendWrite) : Nat :=
  match r.kind with
  | .coArrive _ => 16
  | .joinPut k _ => 36 + 4 * k
  | .launch | .pgAck _ _ | .barArrive _ => 0
  | _ => r.bytes.length

/-- Wait on a location that another pass holds (R272, R273). -/
def State.stallOn (s : State) (l : Loc) : State := { s with pass := { s.pass with waitLoc := some l } }.stall

/-- A write of a thread's earlier blocks that is not yet performed and that an access follows: one at an overlapping
location, or an atomic's at a scope above 0 (R298, R301). -/
def Thread.pending (t : Thread) (l : Loc) (n : Nat) : Bool :=
  t.released.any fun r => r.atom && r.scope != 0 || r.loc.overlaps r.span l n

/-- Such a write of the thread of the pass. -/
def State.ownPending (s : State) (l : Loc) (n : Nat) : Bool := (s.thread s.pass.quay s.pass.slot).pending l n

/-- Byte `k` of a location. -/
def Loc.at (l : Loc) (k : Nat) : Loc :=
  match l with
  | .glob a => .glob (a + k)
  | .vault q o => .vault q (o + k)

/-- Byte of a write record that covers a location. -/
def coverByte (base : Loc) (bytes : List Byte) (l : Loc) : Option Byte :=
  match base, l with
  | .glob a, .glob b => if a ≤ b then bytes[b - a]? else none
  | .vault q a, .vault r b => if q = r ∧ a ≤ b then bytes[b - a]? else none
  | _, _ => none

/-- The byte a lower-LSID store or shadow of the pass gives (R190, R272): that of the highest LSID below `j`. -/
def Pass.forward (p : Pass) (j : Nat) (l : Loc) : Option Byte :=
  let a := p.stores.filterMap fun x => if x.lsid < j then (coverByte x.loc x.bytes l).map (x.lsid, ·) else none
  let b := p.shadows.filterMap fun x => if x.lsid < j then (coverByte x.loc x.bytes l).map (x.lsid, ·) else none
  ((a ++ b).foldl (fun (acc : Option (Nat × Byte)) x =>
    match acc with
    | some y => if y.1 ≤ x.1 then some x else some y
    | none => some x) none).map (·.2)

/-- Every byte of a range is forwarded. -/
def Pass.covered (p : Pass) (j : Nat) (l : Loc) (n : Nat) : Bool := (List.range n).all fun k => (p.forward j (l.at k)).isSome

/-- The byte that a load of a higher LSID, already performed, found at a location: a load below it takes what that load
found, so that the thread never reads an older value after a newer one (R298); the lowest such LSID counts. -/
def Pass.found (p : Pass) (j : Nat) (l : Loc) : Option Byte :=
  ((p.reads.filterMap fun x => if j < x.1 then (coverByte x.2.1 x.2.2 l).map (x.1, ·) else none).foldl
    (fun (acc : Option (Nat × Byte)) x =>
      match acc with
      | some y => if x.1 < y.1 then some x else some y
      | none => some x) none).map (·.2)

/-- A byte of a location as memory holds it. -/
def State.locByte (s : State) : Loc → Byte
  | .glob a => s.gbyte a
  | .vault q o => Mem.read s.vmem (vkey q o)

/-- Bytes of a range as a load of LSID `j` takes them: forwarded, else as found by a later load, else as memory holds
them. -/
def State.locRead (s : State) (j : Nat) (l : Loc) (n : Nat) : List Byte :=
  (List.range n).map fun k => (s.pass.forward j (l.at k)).getD ((s.pass.found j (l.at k)).getD (s.locByte (l.at k)))

/-- The same where another module's home gave the bytes (R450). -/
def Pass.merge (p : Pass) (j : Nat) (l : Loc) (bs : List Byte) : List Byte :=
  bs.zipIdx.map fun x => (p.forward j (l.at x.2)).getD ((p.found j (l.at x.2)).getD x.1)

/-- The aligned 16-byte unit of a location, in which every single-copy access lies (R299). -/
def Loc.unit : Loc → Loc
  | .glob a => .glob (a / 16 * 16)
  | .vault q o => .vault q (o / 16 * 16)

/-- The bytes of memory that a load of LSID `j` found at a unit. -/
def State.unitBytes (s : State) (j : Nat) (u : Loc) : List Byte :=
  (List.range 16).map fun k => (s.pass.found j (u.at k)).getD (s.locByte (u.at k))

/-- Remember what a load of LSID `j` found in memory (R298), by whole units; nothing where every byte was forwarded. -/
def State.noteRead (s : State) (j : Nat) (l : Loc) (n : Nat) : State :=
  if s.pass.covered j l n then s
  else
    let us := (List.range ((n + 15) / 16)).map fun k => l.unit.at (16 * k)
    { s with pass := { s.pass with reads := s.pass.reads ++ us.map fun u => (j, u, s.unitBytes j u) } }

/-- Poison of a range of a vault. -/
def State.locPoison (s : State) (l : Loc) (n : Nat) : Bool :=
  match l with
  | .glob a => (s.gmeta (a / 128)).poison
  | .vault q o => s.vpoison q o n

/-! ### Vault accesses (R141, R142, R144, R146, R148) -/

/-- The global address behind a line of a mapped region (R141). -/
def Region.vaOf (r : Region) (off : Nat) : Nat := r.gva * 128 + (off / 128 * 128 - r.vpg * 4096)

/-- Ask the map unit of a quay for a line; accesses during the fill wait for that one fill (R141). -/
def State.askFill (s : State) (q line : Nat) (y : Waiter) : State :=
  let same := fun (f : Fill) => f.quay == q && f.line == line
  if s.fills.any same then
    { s with fills := tmod same (fun f => if f.who.contains y then f else { f with who := f.who ++ [y] }) s.fills }
  else { s with fills := s.fills ++ [{ quay := q, line := line, who := [y] }] }

/-- Fill the line at an offset of a mapped region if it is invalid (R141): the map unit translates through its quay's cache
in the region's context; a miss is the touching thread's, as an engine read; a refusal of the home reaches the thread as
that of a load (log entry 56). -/
def State.needFill (s : State) (i : Instr) (w : Fields) (q off : Nat) : Got Unit :=
  match s.regionAt q off with
  | some r =>
    if r.mapped && r.st != .unmapping && !(s.vmeta (vline q off)).v then
      (s.portAt i w q r.ctx (r.vaOf off) false .engRead).andThen fun x s =>
        match s.answerOf (copyHolder q) (x.pa / 128) s.me false with
        | some a => .stop ((s.clearAnswer a).trapHere i w a.cause (BitVec.ofNat 64 (r.vaOf off)))
        | none => .stop (s.askFill q (vline q off) s.me).stall
    else .ok () s
  | none => .ok () s

/-- What holds a fabric access of a vault back (R142, R144, R146, R148). -/
def State.vaultReady (s : State) (i : Instr) (w : Fields) (q off n : Nat) (write : Bool) : Got Unit :=
  let here : Loc := .vault q off
  if s.scored q off n || s.ownPending here n then .stop s.stall
  else
    let regs := s.regions.filter fun r => r.quay == q && overlaps off n (r.vpg * 4096) ((r.npg + 1) * 4096)
    let va := BitVec.ofNat 64 (q % 32 * 2 ^ 24 + off)
    if write && regs.any (fun r => r.mapped && !r.w) then .stop (s.trapHere i w cReadOnly va)
    else if write && regs.any (fun r => !r.mapped && (r.st == .sealing || r.st == .sealed)) then
      .stop (s.trapHere i w cSealed va)
    else if write && regs.any (fun r => r.st == .unmapping || r.st == .unsealing) then .stop s.stall
    else if write && s.heldByOther here then .stop (s.stallOn here)
    else (s.needFill i w q off).andThen fun _ s => s.needFill i w q (off + n - 1)

/-! ### The control window for threads (R66), other modules (R450) -/

/-- Registers of the control window: EN and MOD of the domain at 0x4000, routes from 0x4100, RMASK from 0x4900 (R449),
region registers from 0x1000 (R63), slice owners from 0x2000 (R69), quay, partition and NET records (R426), NETPOL from
0x3000 (R131). -/
def State.controlRead (s : State) (die off : Nat) : Word :=
  if 0x1000 ≤ off ∧ off < 0x1200 then
    let r := s.region die ((off - 0x1000) / 32)
    match off % 32 with
    | 0 => r.ctl
    | 8 => r.store
    | 16 => r.size
    | 24 => r.scale
    | _ => 0
  else if 0x2000 ≤ off ∧ off < 0x2080 then BitVec.ofNat 64 (s.partOfSlice (die * 16 + (off - 0x2000) / 8))
  else if 0x2100 ≤ off ∧ off < 0x2200 then
    let q := die * 32 + (off - 0x2100) / 8
    BitVec.ofNat 64 (s.partOfQuay q + if s.absent.contains q then 256 else 0)
  else if 0x2200 ≤ off ∧ off < 0x2300 then BitVec.ofNat 64 (kvGet ((off - 0x2200) / 8) 0 s.partOwner)
  else if 0x2300 ≤ off ∧ off < 0x2400 then
    ((s.partNet.find? fun x => x.1 == (off - 0x2300) / 8).map (fun x => x.2.zeroExtend 64)).getD 0
  else if 0x3000 ≤ off ∧ off < 0x3100 then
    ((s.netpol.find? fun x => x.1 == (off - 0x3000) / 8).map (·.2)).getD 0
  else if off = 0x4000 then (if s.domain.en then 1#64 <<< 63 else 0) ||| s.domain.mod.zeroExtend 64
  else if 0x4100 ≤ off ∧ off < 0x4900 then
    ((s.domain.routes.find? fun x => x.1 == (off - 0x4100) / 8).map (·.2)).getD 0
  else if 0x4900 ≤ off ∧ off < 0x4D00 then
    let p := (off - 0x4900) / 32
    let v := ((s.domain.rmask.find? fun x => x.1 == p).map (·.2)).getD 0
    v.extractLsb' ((off - 0x4900) % 32 * 8) 64
  else 0

/-- The outstanding access of an instruction of the pass to a remote module. -/
def State.remoteOf (s : State) (idx pa : Nat) : Option Remote :=
  s.remotes.find? fun r => r.who == .thread s.pass.quay s.pass.slot s.pass.blk idx && r.pa == pa

/-- The tag of the hold a pass has on a line of another module (R272). -/
def Pass.heldTag (p : Pass) (line : Nat) : Option Nat := (p.remoteHeld.find? fun h => h.1 == line).map (·.2)

/-- Send an access to another module (R450): of instruction `idx` of the pass, under the tag of the hold the pass already
has on the line where it has one; `nc` where it is to install nothing (R268). -/
def State.remoteSend (s : State) (mod idx pa size : Nat) (gen : BitVec 8) (ask : RemoteAsk) (nc : Bool := false) : State :=
  let (tag, s) := match s.pass.heldTag (pa / 128) with
    | some t => (t, s)
    | none => s.fresh
  let r : Remote := { tag := tag, peer := mod, pa := pa, size := size, who := .thread s.pass.quay s.pass.slot s.pass.blk idx,
                      write := match ask with | .atomic _ => true | _ => false, noalloc := nc }
  ({ s with remotes := s.remotes ++ [r] } : State).sendLinks s.pass.ctx [.request mod tag pa gen ask]

/-- A pass notes a line that another module's home holds for it, with the tag of the hold (R272). -/
def Pass.hold (p : Pass) (line tag : Nat) : Pass :=
  if (p.heldTag line).isSome then p else { p with remoteHeld := p.remoteHeld ++ [(line, tag)] }

/-- Access memory of another module (R450): refused as "no memory" when unreachable (R449), else sent uncached; the
instruction waits for the answer; a stale one is walked again (R104), poisoned data traps (R71), which ends what it held. -/
def State.remoteAsk (s : State) (i : Instr) (w : Fields) (mod : Nat) (x : Xlate) (va : Word) (size : Nat) (kind : AccKind)
    (ask : RemoteAsk) (nc : Bool := false) : Got Remote :=
  if s.reachable mod = false then .stop (s.trapHere i w cNoMem va)
  else
    match s.remoteOf s.pass.cur x.pa with
    | some r =>
      let drop := { s with remotes := s.remotes.erase r }
      match r.answer, r.stale, r.cause with
      | some _, _, _ =>
        let got : State := if r.write then { drop with pass := drop.pass.hold (x.pa / 128) r.tag } else drop
        if r.md.poison then .stop (got.trapHere i w cPoison va) else .ok r got
      | none, some g, _ => .stop (drop.rewalk s.pass.ctx va.toNat kind g).stall
      | none, none, some c => .stop (drop.trapHere i w c va)
      | none, none, none => .stop s.stall
    | none => .stop (s.remoteSend mod s.pass.cur x.pa size x.gen ask nc).stall

/-- The aligned 16-byte unit that an access of another module lies in, as its translation. -/
def Xlate.unit (x : Xlate) : Xlate := { x with pa := x.pa / 16 * 16 }

/-- The bytes of a unit of another module, as a load of LSID `j` found them there, are remembered (R298): what a load of a
higher LSID had found stands before what the home gave. -/
def State.noteUnit (s : State) (j : Nat) (u : Loc) (bs : List Byte) : State :=
  let unit := bs.zipIdx.map fun x => (s.pass.found j (u.at x.2)).getD x.1
  { s with pass := { s.pass with reads := s.pass.reads ++ [(j, u, unit)] } }

/-- A load from another module by LSID `j`: from a frozen replica (R92, R452), else from its home.  Its whole aligned unit of 16
bytes is read at once, so that a load never mixes bytes of two reads (R299, log entry 81). -/
def State.remoteLoad (s : State) (i : Instr) (w : Fields) (mod : Nat) (x : Xlate) (va : Word) (n : Nat) (nc : Bool) :
    Got (List Byte) :=
  let u : Loc := .glob x.unit.pa
  let j := Fields.lsid w
  let take (bs : List Byte) (s : State) : Got (List Byte) := .ok ((bs.drop (x.pa % 16)).take n) (s.noteUnit j u bs)
  match s.replicaOf s.pass.quay s.pass.quay (x.pa / 128) x.gen with
  | some r =>
    if r.md.poison then .stop (s.trapHere i w cPoison va) else take ((r.bytes.drop (x.unit.pa % 128)).take 16) s
  | none => (s.remoteAsk i w mod x.unit va 16 .load (.load 16) nc).andThen fun r s => take (r.answer.getD []) s

/-! ### Lines read by an agent that is no thread: engines, map units, block fetch, queue processors -/

/-- Change `n` bytes at another module's home as one atomic (R272, R450): read and held there, then written; the answer is
the old bytes.  Where `strict` is set poisoned data ends it with nothing written (R71). -/
def State.farUpdate (s : State) (y : Waiter) (mod pa n : Nat) (gen : BitVec 8) (f : List Byte → List Byte)
    (strict : Bool := false) : LineSays :=
  match s.askFar y mod pa n gen false none (.atomic n) with
  | .ok bs md s =>
    let tag := (s.remotes.find? fun r => r.who == y && r.pa == pa && !r.write).map (·.tag)
    let bad := strict && md.poison
    match s.askFar y mod pa n gen true tag (.endHold (if bad then [] else [(pa, f bs)])) with
    | .ok _ _ s => if bad then .refused cPoison s else .ok bs md s
    | r => r
  | r => r

/-- Read `n` bytes of one line for an agent through the coherent cache `h` of quay `q` (R76, R87), a frozen replica (R92),
or the home of another module (R450). -/
def State.readLine (s : State) (y : Waiter) (h q c : Nat) (x : Xlate) (n : Nat) : LineSays :=
  let line := x.pa / 128
  match s.paKind x.pa with
  | .none => .refused cNoMem s
  | .control _ _ => .refused cCtl s
  | .remote mod =>
    match s.replicaOf h q line x.gen with
    | some r => .ok ((r.bytes.drop (x.pa % 128)).take n) r.md s
    | none => s.askFar y mod x.pa n x.gen false none (.load n)
  | _ =>
    match s.answerOf h line y false with
    | some a =>
      let s := s.clearAnswer a
      if a.stale then .stale a.gen s
      else if a.cause ≠ 0 then .refused a.cause s
      else .ok (s.gbytes x.pa n) a.md s
    | none =>
      if s.readable h q line x.gen then .ok (s.gbytes x.pa n) (s.lineMeta h q line x.gen) s
      else .wait (s.request { holder := h, line := line, write := false, gen := x.gen, ctx := c, quay := q, who := [y] })

/-! ### Fields of a descriptor (R284) -/

/-- SRC (R284). -/
def dSrc (d : BitVec 256) : Word := d.extractLsb' 192 64
/-- DST (R284). -/
def dDst (d : BitVec 256) : Word := d.extractLsb' 128 64
/-- LEN (R284). -/
def dLen (d : BitVec 256) : Nat := (d.extractLsb' 96 32).toNat
/-- AUX (R284). -/
def dAux (d : BitVec 256) : Nat := (d.extractLsb' 64 32).toNat
/-- XTRA (R284). -/
def dXtra (d : BitVec 256) : Word := d.extractLsb' 0 64

/-! ### Operands of engines, completion objects and frames (R283) -/

/-- What a vault operand names, or why it is refused. -/
inductive VaultOperand where
  | ok (quay off : Nat)
  | malformed
  | address
  | refused
  deriving DecidableEq, Repr, Inhabited

/-- A vault operand (R283, R135) of quay `q` in context `c`, `n` bytes accessed: VQ always names the quay. -/
def State.vaultOperand (s : State) (v : Word) (q c n : Nat) : VaultOperand :=
  let code := (v.extractLsb' 32 4).toNat
  if v.extractLsb' 36 28 ≠ 0 ∨ (code ≠ 0 ∧ code < 8) then .malformed
  else
    let die := if code = 0 then dieOf q else code - 8
    let off := (v.extractLsb' 0 24).toNat
    let tq := die * 32 + (v.extractLsb' 24 5).toNat
    if v.extractLsb' 29 3 ≠ 0 ∨ off + n > vaultEnd then .address
    else if s.holdsQuay c tq = false then .refused
    else .ok tq off

/-! ### Completion objects (R120, R121) -/

/-- The address of an object as a trap record names it (R367): virtual, or of 32 bits in a vault. -/
def objectAddr (va : Word) (l : Loc) : Word :=
  match l with
  | .glob _ => va
  | .vault _ _ => (va.extractLsb' 0 32).zeroExtend 64

/-- The raise of R121 on the 128 bits of an object; the first arrival of a phase finds COUNT 0.  With EXPECT 0, for which the
manual gives STATUS and PHASE only, COUNT stays and ERRS goes as at a first arrival (log entry 69). -/
def raiseObject (o : BitVec 128) (st : Nat) : BitVec 128 :=
  let expect := (o.extractLsb' 96 32).toNat
  let count := (o.extractLsb' 64 32).toNat
  let status := if count = 0 then 0 else (o.extractLsb' 56 8).toNat
  let errs := if count = 0 then 0 else (o.extractLsb' 40 16).toNat
  let rest : BitVec 39 := o.extractLsb' 1 39
  let phase : BitVec 1 := o.extractLsb' 0 1
  let build (c s e : Nat) (p : BitVec 1) : BitVec 128 :=
    BitVec.ofNat 32 expect ++ BitVec.ofNat 32 c ++ BitVec.ofNat 8 s ++ BitVec.ofNat 16 e ++ rest ++ p
  if expect = 0 then build count 10 errs phase
  else
    let status' := if st ≠ 0 ∧ status = 0 then st else status
    let errs' := if st ≠ 0 then min (errs + 1) 65535 else errs
    if count + 1 = expect then build 0 status' errs' (~~~phase) else build (count + 1) status' errs' phase

end Sys2Proof.Machine
end

