-- ==== Sys2Proof/Machine/Memory.lean ====
section
/-! DEFINITION. Loads, stores, prefetches: class 0x8 (R260 to R271). -/

namespace Sys2Proof.Machine

/-- Offset of a class 0x8 word (R178). -/
def Fields.off15 (w : Fields) : Word := ((Operand.immOr0 w.f2).extractLsb' 0 15).signExtend 64

/-- Bytes of a size code (R183). -/
def sizeBytes : Size → Nat
  | .b8 => 1 | .b16 => 2 | .b32 => 4 | .b64 => 8

/-- Bytes a load reads. -/
def ldBytes : LdTy → Nat
  | .n8 | .s8 => 1 | .n16 | .s16 => 2 | .n32 | .s32 => 4 | .n64 => 8

/-- Extension of a load's value (R260). -/
def ldExtend (t : LdTy) (bs : List Byte) : Word :=
  let v := leNat bs
  match t with
  | .s8 => (BitVec.ofNat 8 v).signExtend 64
  | .s16 => (BitVec.ofNat 16 v).signExtend 64
  | .s32 => (BitVec.ofNat 32 v).signExtend 64
  | _ => BitVec.ofNat 64 v

/-- A store space as an address space. -/
def stSpace : StSpace → Space
  | .g => .g | .v => .v | .vl => .vl | .l => .l

/-- Read `n` bytes of one line of global memory (R265, R267): translated, permitted, forwarded (R190).  The control window
refuses an access that is not its own kind whatever lies in the store buffer (R66). -/
def State.globalBytes (s : State) (i : Instr) (w : Fields) (va : Word) (n : Nat) (nc single : Bool) : Got (List Byte) :=
  (s.port i w s.pass.ctx va.toNat false .load).andThen fun x s =>
    let l : Loc := .glob x.pa
    let j := Fields.lsid w
    let window : Bool := match s.paKind x.pa with | .control _ _ => true | _ => false
    if window && !(s.pass.ctx == 0 && single && n == 8) then .stop (s.trapHere i w cCtl va)
    else if s.ownPending l n then .stop s.stall
    else if s.pass.covered j l n then .ok (s.locRead j l n) s
    else
      match s.paKind x.pa with
      | .control die off => .ok (leBytes 8 (s.controlRead die off).toNat) s
      | .remote mod => (s.remoteLoad i w mod x va n nc).andThen fun bs s => .ok (s.pass.merge j l bs) s
      | _ =>
        (s.acquire i w s.pass.ctx va.toNat x s.pass.quay false (!nc) .load).andThen fun md s =>
          if md.poison then .stop (s.trapHere i w cPoison va) else .ok (s.locRead j l n) (s.noteRead j l n)

/-- Read `n` bytes of a vault (R136, R148): held by the scoreboard, filled if the line is mapped. -/
def State.vaultBytes (s : State) (i : Instr) (w : Fields) (q off n : Nat) : Got (List Byte) :=
  (s.vaultReady i w q off n false).andThen fun _ s =>
    let l : Loc := .vault q off
    let j := Fields.lsid w
    if s.pass.covered j l n = false ∧ s.locPoison l n then
      .stop (s.trapHere i w cPoison (BitVec.ofNat 64 (q % 32 * 2 ^ 24 + off)))
    else
      let s' := (s.charge (meterQuay q) s.pass.ctx 8 n).chargeMove s.pass.ctx q s.pass.quay n
      .ok (s.locRead j l n) (s'.noteRead j l n)

/-- Read `n` bytes of a place, `n` at most 8 and inside one line. -/
def State.placeBytes (s : State) (i : Instr) (w : Fields) (p : Place) (n : Nat) (nc single : Bool) : Got (List Byte) :=
  match p with
  | .virt va => s.globalBytes i w va n nc single
  | .vault q off => s.vaultBytes i w q off n

/-- The second half of a 16-byte place (R264). -/
def Place.high : Place → Place
  | .virt va => .virt (va + 8)
  | .vault q off => .vault q (off + 8)

/-- A load whose lower-LSID store resolved not-ready (R190): a store-class LSID below `j` received a non-null token of
an instruction that left no record, in a pass that is not ready. -/
def Pass.lowerNotReady (p : Pass) (j : Nat) : Bool :=
  p.notReady && p.lsids.any fun x =>
    decide (x.1 < j) && x.2.any fun k =>
      !(p.stores.any (·.idx == k) || p.shadows.any (·.idx == k) || p.captured.any (·.idx == k))

/-- A load instruction (R263 to R267): place, bytes, then what it emits. -/
def State.load (s : State) (i : Instr) (w : Fields) (sp : Space) (a : Word) (n al : Nat) (nc : Bool)
    (k : List Byte → State → State) : State :=
  if s.pass.lowerNotReady (Fields.lsid w) then s.emitNotReady i w
  else
    ((s.gotPlace i w (s.place sp (a + Fields.off15 w) n al)).andThen fun p s =>
      if n ≤ 8 then s.placeBytes i w p n nc true
      else
        (s.placeBytes i w p 8 nc false).andThen fun lo s =>
          (s.placeBytes i w p.high 8 nc false).andThen fun hi s => .ok (lo ++ hi) s).done k

/-- `ld` (R260, R267). -/
def execLd (t : LdTy) (sp : Space) (w : Fields) (s : State) : Out :=
  let i := Instr.ld t sp w
  .next (s.fire i w fun v s => s.load i w sp v.a (ldBytes t) (ldBytes t) false fun bs s => s.emitVal i w (ldExtend t bs))

/-- `ld.nc` (R268): as `ld.g`, nothing installed. -/
def execLdNc (n : Size) (w : Fields) (s : State) : Out :=
  let i := Instr.ldNc n w
  .next (s.fire i w fun v s =>
    s.load i w .g v.a (sizeBytes n) (sizeBytes n) true fun bs s => s.emitVal i w (BitVec.ofNat 64 (leNat bs)))

/-- The two results of `ldv` (R262): the low half on F0, the high half on F1. -/
def State.emitPair (s : State) (i : Instr) (w : Fields) (lo hi : Word) : State :=
  let p := s.pass
  let p := p.deliver p.cur { data := lo, poison := p.poison } w.f0
  let p := p.deliver p.cur { data := hi, poison := p.poison } w.f1
  { s with pass := p.finish i w true }

/-- `ldv` (R262, R264): two halves, each atomic. -/
def execLdv (sp : Space) (w : Fields) (s : State) : Out :=
  let i := Instr.ldv sp w
  .next (s.fire i w fun v s =>
    s.load i w sp v.a 16 8 false fun bs s =>
      s.emitPair i w (BitVec.ofNat 64 (leNat (bs.take 8))) (BitVec.ofNat 64 (leNat (bs.drop 8))))

/-- A freeze that the thread itself issued earlier, and that has not come to the page of an address yet (R322; log entry 65). -/
def State.ownFreeze (s : State) (va : Nat) : Bool :=
  s.ops.any fun o => o.kind == .frz && !o.finished && o.quay == s.pass.quay && o.slot == some s.pass.slot && o.ctx == s.pass.ctx &&
    overlaps va 1 ((dSrc o.desc).toNat + 65536 * o.next) (dLen o.desc - 65536 * o.next)

/-- Step 1 of R270 for one part of a global store: translation with W, then write permission. -/
def State.globalStore (s : State) (i : Instr) (w : Fields) (va : Word) (bs : List Byte) (single : Bool) : Got PendWrite :=
  (s.port i w s.pass.ctx va.toNat true .store).andThen fun x s =>
    let rec' : PendWrite := { kind := .store, lsid := Fields.lsid w, idx := s.pass.cur, loc := .glob x.pa, va := va,
                              gen := x.gen, bytes := bs, ctx := s.pass.ctx }
    match s.paKind x.pa with
    | .control _ _ =>
      if s.pass.ctx = 0 ∧ single ∧ bs.length = 8 then .ok rec' s else .stop (s.trapHere i w cCtl va)
    | .remote mod => if s.reachable mod then .ok rec' s else .stop (s.trapHere i w cNoMem va)
    | _ =>
      if s.ownFreeze va.toNat then .stop s.stall
      else (s.acquire i w s.pass.ctx va.toNat x s.pass.quay true true .store).andThen fun _ s => .ok rec' s

/-- Step 1 of R270 for one part of a vault store. -/
def State.vaultStore (s : State) (i : Instr) (w : Fields) (q off : Nat) (bs : List Byte) : Got PendWrite :=
  (s.vaultReady i w q off bs.length true).andThen fun _ s =>
    .ok { kind := .store, lsid := Fields.lsid w, idx := s.pass.cur, loc := .vault q off,
          va := BitVec.ofNat 64 (q % 32 * 2 ^ 24 + off), bytes := bs, ctx := s.pass.ctx } s

/-- Step 1 of R270 for a part of a store. -/
def State.placeStore (s : State) (i : Instr) (w : Fields) (p : Place) (bs : List Byte) (single : Bool) : Got PendWrite :=
  match p with
  | .virt va => s.globalStore i w va bs single
  | .vault q off => s.vaultStore i w q off bs

/-- Put records in the block store buffer and resolve the instruction. -/
def State.buffer (s : State) (i : Instr) (w : Fields) (rs : List PendWrite) : State :=
  let p : Pass := { s.pass with stores := s.pass.stores ++ rs }
  { s with pass := p.finish i w true }

/-- `st` (R270): checked and given permission, then buffered until commit. -/
def execSt (n : Size) (sp : StSpace) (w : Fields) (s : State) : Out :=
  let i := Instr.st n sp w
  .next (s.fire i w fun v s =>
    ((s.gotPlace i w (s.place (stSpace sp) (v.a + Fields.off15 w) (sizeBytes n) (sizeBytes n))).andThen fun p s =>
      s.placeStore i w p (leBytes (sizeBytes n) v.b.toNat) true).done fun r s => s.buffer i w [r])

/-- `stv` (R262): port b to bytes 7:0, port g to bytes 15:8. -/
def execStv (sp : StSpace) (w : Fields) (s : State) : Out :=
  let i := Instr.stv sp w
  .next (s.fire i w fun v s =>
    ((s.gotPlace i w (s.place (stSpace sp) (v.a + Fields.off15 w) 16 8)).andThen fun p s =>
      (s.placeStore i w p (leBytes 8 v.b.toNat) false).andThen fun lo s =>
        (s.placeStore i w p.high (leBytes 8 v.g.toNat) false).andThen fun hi s => .ok [lo, hi] s).done
      fun rs s => s.buffer i w rs)

/-- `pf.g` (R266, R269): GETS for a line the L1 does not hold; dropped on a miss, never a trap. -/
def execPf (w : Fields) (s : State) : Out :=
  let i := Instr.pf w
  .next (s.fire i w fun v s =>
    let va := (v.a + Fields.off15 w).toNat
    let q := s.pass.quay
    let s : State :=
      match s.tlbHit q s.pass.ctx va false with
      | some e =>
        let s := s.touch e
        let x := e.xlate va
        match s.paKind x.pa with
        | .control _ _ | .remote _ => s
        | _ =>
          if decide (va < 2 ^ 56) && !s.readable q q (x.pa / 128) x.gen then
            s.request { holder := q, line := x.pa / 128, write := false, gen := x.gen, ctx := s.pass.ctx, quay := q }
          else s
      | none => s
    { s with pass := s.pass.finish i w true })

end Sys2Proof.Machine
end

