-- ==== Sys2Proof/Machine/Atomics.lean ====
section
/-! DEFINITION. Atomics, compare-and-swap and fences: class 0x9 (R261, R272 to R279). -/

namespace Sys2Proof.Machine

/-- Offset of a class 0x9 word (R179). -/
def Fields.off10 (w : Fields) : Word := ((Operand.immOr0 w.f2).extractLsb' 0 10).signExtend 64

/-- Scope of a word with LSID and scope (R179, R282, R325). -/
def Fields.scope (w : Fields) : BitVec 3 := (Operand.immOr0 w.f2).extractLsb' 12 3

/-- The order has a release: .rel or .ar (R179). -/
def Fields.releases (w : Fields) : Bool := (Operand.immOr0 w.f2).getLsbD 11

/-- Space of a class 0x9 word. -/
def atSpace : AtSpace → Space
  | .g => .g | .v => .v | .vl => .vl

/-- Integer type of an atomic. -/
def atTy : AtTy → IntTy
  | .s32 => .s32 | .n32 => .n32 | .s64 => .s64 | .n64 => .n64

/-- Bytes of an atomic type. -/
def atBytes (t : AtTy) : Nat := intWidth (atTy t) / 8

/-- Bytes of a width. -/
def widthBytes : Width → Nat
  | .b32 => 4 | .b64 => 8

/-- A scope the context may not use traps (R159). -/
def State.gotScope (s : State) (i : Instr) (w : Fields) (sc : BitVec 3) : Got Unit :=
  if s.scopeOk s.pass.ctx sc then .ok () s else .stop (s.trapHere i w cScope 0)

/-- Old bytes of a location of another module, which its home holds from the answer on (R272, R450): asked for once for
each line of a pass, then again under that hold where the bytes are not all forwarded. -/
def State.remoteOld (s : State) (i : Instr) (w : Fields) (mod : Nat) (x : Xlate) (va : Word) (n : Nat) :
    Got (List Byte) :=
  let l : Loc := .glob x.pa
  let j := Fields.lsid w
  if s.pass.covered j l n && (s.pass.heldTag (x.pa / 128)).isSome then .ok (s.locRead j l n) s
  else
    (s.remoteAsk i w mod x.unit va 16 .atomic (.atomic 16)).andThen fun r s =>
      let bs := r.answer.getD []
      let s := s.noteUnit j (.glob x.unit.pa) bs
      .ok (s.pass.merge j l ((bs.drop (x.pa % 16)).take n)) s

/-- Old bytes of a global location with write permission (R265, R272): held by nobody else. -/
def State.globalOld (s : State) (i : Instr) (w : Fields) (va : Word) (n : Nat) : Got (Loc × BitVec 8 × List Byte) :=
  (s.port i w s.pass.ctx va.toNat true .atomic).andThen fun x s =>
    let l : Loc := .glob x.pa
    let j := Fields.lsid w
    if s.ownPending l n then .stop s.stall
    else if s.heldByOther l then .stop (s.stallOn l)
    else
      match s.paKind x.pa with
      | .control _ _ => .stop (s.trapHere i w cCtl va)
      | .remote mod => (s.remoteOld i w mod x va n).andThen fun bs s => .ok (l, x.gen, bs) s
      | _ =>
        (s.acquire i w s.pass.ctx va.toNat x s.pass.quay true true .atomic).andThen fun md s =>
          if s.pass.covered j l n = false ∧ md.poison = true then .stop (s.trapHere i w cPoison va)
          else .ok (l, x.gen, s.locRead j l n) (s.noteRead j l n)

/-- Old bytes of a vault location, checked as a write (R142, R144). -/
def State.vaultOld (s : State) (i : Instr) (w : Fields) (q off n : Nat) : Got (Loc × BitVec 8 × List Byte) :=
  (s.vaultReady i w q off n true).andThen fun _ s =>
    let l : Loc := .vault q off
    let j := Fields.lsid w
    if s.pass.covered j l n = false ∧ s.locPoison l n then
      .stop (s.trapHere i w cPoison (BitVec.ofNat 64 (q % 32 * 2 ^ 24 + off)))
    else
      let s' := (s.charge (meterQuay q) s.pass.ctx 8 n).chargeMove s.pass.ctx q s.pass.quay n
      .ok (l, 0, s.locRead j l n) (s'.noteRead j l n)

/-- Virtual or vault address of a place, as a trap record holds it. -/
def Place.addr : Place → Word
  | .virt va => va
  | .vault q off => BitVec.ofNat 64 (q % 32 * 2 ^ 24 + off)

/-- Scope, place and old bytes of an atomic (R261 to R266, R272). -/
def State.atomicOld (s : State) (i : Instr) (w : Fields) (sp : AtSpace) (a : Word) (n : Nat) :
    Got (Place × Loc × BitVec 8 × List Byte) :=
  (s.gotScope i w (Fields.scope w)).andThen fun _ s =>
    (s.gotPlace i w (s.place (atSpace sp) (a + Fields.off10 w) n n)).andThen fun p s =>
      match p with
      | .virt va => (s.globalOld i w va n).andThen fun r s => .ok (p, r) s
      | .vault q off => (s.vaultOld i w q off n).andThen fun r s => .ok (p, r) s

/-- Hold a location with its new value in the shadow (R272). -/
def State.shadow (s : State) (w : Fields) (p : Place) (l : Loc) (gen : BitVec 8) (bs : List Byte) : State :=
  let h : Shadow := { lsid := Fields.lsid w, idx := s.pass.cur, loc := l, va := p.addr, gen := gen, bytes := bs,
                      since := s.clock, release := Fields.releases w && Fields.scope w != 0, scope := Fields.scope w }
  { s with pass := { s.pass with shadows := s.pass.shadows ++ [h] } }

/-- An atomic of `n` bytes (R272, R274, R275): `f` gives the new value from old and port b; the old one is returned. -/
def State.atomic (s : State) (i : Instr) (w : Fields) (sp : AtSpace) (n : Nat) (f : Word → Word → Word) : State :=
  s.fire i w fun v s =>
    (s.atomicOld i w sp v.a n).done fun r s =>
      let old := BitVec.ofNat 64 (leNat r.2.2.2)
      (s.shadow w r.1 r.2.1 r.2.2.1 (leBytes n (f old v.b).toNat)).emitVal i w old

/-- Integer atomics compute on `operand` of both values at the type's width (R274). -/
def atInt (t : AtTy) (f : Int → Int → Int) (old b : Word) : Word :=
  intResult (atTy t) (f (intOperand (atTy t) old) (intOperand (atTy t) b))

/-- `atom.add` (R274). -/
def execAtomAdd (t : AtTy) (sp : AtSpace) (w : Fields) (s : State) : Out :=
  .next (s.atomic (.atomAdd t sp w) w sp (atBytes t) (atInt t (· + ·)))
/-- `atom.sub` (R274). -/
def execAtomSub (t : AtTy) (sp : AtSpace) (w : Fields) (s : State) : Out :=
  .next (s.atomic (.atomSub t sp w) w sp (atBytes t) (atInt t (· - ·)))
/-- `atom.min` (R274). -/
def execAtomMin (t : AtTy) (sp : AtSpace) (w : Fields) (s : State) : Out :=
  .next (s.atomic (.atomMin t sp w) w sp (atBytes t) (atInt t min))
/-- `atom.max` (R274). -/
def execAtomMax (t : AtTy) (sp : AtSpace) (w : Fields) (s : State) : Out :=
  .next (s.atomic (.atomMax t sp w) w sp (atBytes t) (atInt t max))
/-- `atom.and` (R274). -/
def execAtomAnd (n : Width) (sp : AtSpace) (w : Fields) (s : State) : Out :=
  .next (s.atomic (.atomAnd n sp w) w sp (widthBytes n) (· &&& ·))
/-- `atom.or` (R274). -/
def execAtomOr (n : Width) (sp : AtSpace) (w : Fields) (s : State) : Out :=
  .next (s.atomic (.atomOr n sp w) w sp (widthBytes n) (· ||| ·))
/-- `atom.xor` (R274). -/
def execAtomXor (n : Width) (sp : AtSpace) (w : Fields) (s : State) : Out :=
  .next (s.atomic (.atomXor n sp w) w sp (widthBytes n) (· ^^^ ·))
/-- `atom.exch` (R274). -/
def execAtomExch (n : Width) (sp : AtSpace) (w : Fields) (s : State) : Out :=
  .next (s.atomic (.atomExch n sp w) w sp (widthBytes n) fun _ b => b)
/-- `atom.inc` (R274). -/
def execAtomInc (t : AtTy) (sp : AtSpace) (w : Fields) (s : State) : Out :=
  .next (s.atomic (.atomInc t sp w) w sp (atBytes t) (atInt t fun o b => if o ≥ b then 0 else o + 1))
/-- `atom.dec` (R274). -/
def execAtomDec (t : AtTy) (sp : AtSpace) (w : Fields) (s : State) : Out :=
  .next (s.atomic (.atomDec t sp w) w sp (atBytes t) (atInt t fun o b => if o = 0 ∨ o > b then b else o - 1))

/-- `round_fp32(old + b, ne)`, subnormals honoured, no flag (R275). -/
def atomFadd (old b : Word) : Word :=
  let x := fpIn fmtF32 false (old.toNat % 2 ^ 32)
  let y := fpIn fmtF32 false (b.toNat % 2 ^ 32)
  BitVec.ofNat 64 (fpOut fmtF32 .ne false false (fAdd .ne x.1 y.1).1).1

/-- One lane of `atom.fadd2.bf16` (R275). -/
def atomFaddLane (old b : Nat) : Nat :=
  let x := fpIn fmtBF16 false (old % 2 ^ 16)
  let y := fpIn fmtBF16 false (b % 2 ^ 16)
  (fpOut fmtBF16 .ne false false (fAdd .ne x.1 y.1).1).1

/-- Both lanes (R275). -/
def atomFadd2 (old b : Word) : Word :=
  BitVec.ofNat 64 (atomFaddLane (old.toNat / 2 ^ 16) (b.toNat / 2 ^ 16) * 2 ^ 16 + atomFaddLane old.toNat b.toNat)

/-- `atom.fadd.f32` (R275). -/
def execAtomFaddF32 (sp : AtSpace) (w : Fields) (s : State) : Out :=
  .next (s.atomic (.atomFaddF32 sp w) w sp 4 atomFadd)
/-- `atom.fadd2.bf16` (R275). -/
def execAtomFadd2Bf16 (sp : AtSpace) (w : Fields) (s : State) : Out :=
  .next (s.atomic (.atomFadd2Bf16 sp w) w sp 4 atomFadd2)

/-- A `cas` that fails holds nothing (R272): the hold it took at another module's home ends, unless a shadow of the pass
still needs it. -/
def State.noHold (s : State) (l : Loc) : State :=
  match l with
  | .vault _ _ => s
  | .glob a =>
    match s.pass.heldTag (a / 128) with
    | none => s
    | some tag =>
      if s.pass.shadows.any fun h => h.loc.sameUnit l then s
      else
        ({ s with pass := { s.pass with remoteHeld := s.pass.remoteHeld.filter fun h => h.1 != a / 128 } } : State).sendLinks
          s.pass.ctx [.request (bitsOf a 44 8) tag a 0 (.endHold [])]

/-- `cas` (R276): equal over its width, the shadow takes port g; else nothing is held.  The old value is returned. -/
def execCas (n : Width) (sp : AtSpace) (w : Fields) (s : State) : Out :=
  let i := Instr.cas n sp w
  let k := widthBytes n
  .next (s.fire i w fun v s =>
    (s.atomicOld i w sp v.a k).done fun r s =>
      let old := r.2.2.2
      let s := if old == leBytes k v.b.toNat then s.shadow w r.1 r.2.1 r.2.2.1 (leBytes k v.g.toNat)
        else s.noHold r.2.1
      s.emitVal i w (BitVec.ofNat 64 (leNat old)))

/-- The operand block of `cas.b128` (R276, R264): 32 bytes of the issuing quay's own vault, read as a .v load. -/
def State.casBlock (s : State) (i : Instr) (w : Fields) (b : Word) : Got (List Byte) :=
  let off := (b.extractLsb' 0 24).toNat
  if off % 32 ≠ 0 then .stop (s.trapHere i w cMisaligned b)
  else if off + 32 > vaultEnd then .stop (s.trapHere i w cVaultAddr b)
  else s.vaultBytes i w s.pass.quay off 32

/-- `cas.b128` (R276). -/
def execCasB128 (sp : AtSpace) (w : Fields) (s : State) : Out :=
  let i := Instr.casB128 sp w
  .next (s.fire i w fun v s =>
    ((s.gotScope i w (Fields.scope w)).andThen fun _ s => s.casBlock i w v.b).done fun blk s =>
      (s.atomicOld i w sp v.a 16).done fun r s =>
        let old := r.2.2.2
        let hit := old == blk.take 16
        let s := if hit then s.shadow w r.1 r.2.1 r.2.2.1 (blk.drop 16) else s.noHold r.2.1
        let s := { s with pass := { s.pass with
          b128 := s.pass.b128 ++ [(Fields.lsid w, (v.b.extractLsb' 0 24).toNat, old)] } }
        s.emitVal i w (if hit then 1 else 0))

/-- `fence` (R278, R279): its order acts through `State.orderOk` and the order in which a thread's writes leave. -/
def execFence (w : Fields) (s : State) : Out :=
  let i := Instr.fence w
  .next (s.fire i w fun _ s =>
    (s.gotScope i w (Fields.scope w)).done fun _ s => { s with pass := s.pass.finish i w true })

end Sys2Proof.Machine
end

