-- ==== Sys2Proof/Machine/Control.lean ====
section
/-! DEFINITION. Control, barriers, completion objects, `elect`, `gred`, tasks and `launch`: classes 0x0 and 0xA and
three forms of class 0xD, as they fire in a block (R258, R324 to R343).  What they do at commit is in Commit. -/

namespace Sys2Proof.Machine

/-- Target of an offset branch: the block's address + 64 · offset (R326). -/
def Pass.offsetTarget (p : Pass) (w : Fields) : Word := p.blk + ((Operand.immOr0 w.f2).signExtend 64 <<< 6)

/-- Target of `co.wait`: offset in bits 16:0 (R325). -/
def Pass.waitTarget (p : Pass) (w : Fields) : Word :=
  p.blk + (((Operand.immOr0 w.f2).extractLsb' 0 17).signExtend 64 <<< 6)

/-- `br` (R326). -/
def execBr (w : Fields) (s : State) : Out :=
  .next (s.fire (.br w) w fun _ s => s.branch (.br w) w (s.pass.offsetTarget w) .plain)

/-- `bri` (R326): bits 5:0 must be 0, bits 63:56 too. -/
def execBri (w : Fields) (s : State) : Out :=
  let i := Instr.bri w
  .next (s.fire i w fun v s =>
    if v.a.extractLsb' 0 6 ≠ 0 then s.trapHere i w 0x07 0
    else if v.a.extractLsb' 56 8 ≠ 0 then s.trapHere i w cNonCanon v.a
    else s.branch i w v.a .plain)

/-- Bytes of a block (R171). -/
def Block.bytes (b : Block) : Nat :=
  12 * (2 + (b.reads.length + 2) / 3 + (b.writes.length + 2) / 3 + b.words.length)

/-- Return address of a `call`: the first multiple of 64 at or after the block's end (R327). -/
def Pass.returnAddr (p : Pass) : Word := p.blk + BitVec.ofNat 64 ((p.block.bytes + 63) / 64 * 64)

/-- `call` (R327). -/
def execCall (w : Fields) (s : State) : Out :=
  let i := Instr.call w
  .next (s.fire i w fun _ s =>
    if (s.thread s.pass.quay s.pass.slot).csd ≥ 8 then s.trapHere i w 0x08 0
    else s.branch i w (s.pass.offsetTarget w) (.call s.pass.returnAddr))

/-- `ret` (R327). -/
def execRet (w : Fields) (s : State) : Out :=
  let i := Instr.ret w
  .next (s.fire i w fun _ s =>
    let t := s.thread s.pass.quay s.pass.slot
    if t.csd = 0 then s.trapHere i w 0x09 0 else s.branch i w (t.stack.getD (t.csd - 1) 0) .ret)

/-- `exit` (R328). -/
def execExit (w : Fields) (s : State) : Out :=
  let i := Instr.exit w
  .next (s.fire i w fun v s => s.branch i w 0 (.exit (v.a.extractLsb' 0 8)))

/-- `trap` (R329): the program code is bits 15:0 of port a. -/
def execTrap (w : Fields) (s : State) : Out :=
  let i := Instr.trap w
  .next (s.fire i w fun v s =>
    let s := { s with pass := s.pass.note { cause := 0x06, idx := s.pass.cur, code := v.a.extractLsb' 0 16 } }
    s.emitNull i w)

/-! ### Barriers (R331, R332) -/

/-- A barrier form (R331, R332): an operand above 15 traps, and a state it does not accept.  The state is the thread's own,
which changes only at commit: what another barrier form of the block will do does not show (log entry 53). -/
def State.barrier (s : State) (i : Instr) (w : Fields) (v : PortVals) (accept : BitVec 2 → Bool)
    (k : Nat → State → State) : State :=
  if v.a.toNat > 15 then s.trapHere i w 0x0A 0
  else
    let b := v.a.toNat
    if accept ((s.thread s.pass.quay s.pass.slot).bars.getD b 0) then k b s else s.trapHere i w 0x0B 0

/-- `bar` (R332). -/
def execBar (w : Fields) (s : State) : Out :=
  let i := Instr.bar w
  .next (s.fire i w fun v s =>
    s.barrier i w v (· == 0) fun b s => s.branch i w (s.pass.offsetTarget w) (.bar b))

/-- `bar.arrive` (R332): port a is the result. -/
def execBarArrive (w : Fields) (s : State) : Out :=
  let i := Instr.barArrive w
  .next (s.fire i w fun v s =>
    s.barrier i w v (· == 0) fun b s =>
      { s with pass := { s.pass with arrives := addOnce b s.pass.arrives } }.emitVal i w v.a)

/-- `bar.wait` (R332). -/
def execBarWait (w : Fields) (s : State) : Out :=
  let i := Instr.barWait w
  .next (s.fire i w fun v s =>
    s.barrier i w v (fun st => st == 1 || st == 2) fun b s => s.branch i w (s.pass.offsetTarget w) (.barWait b))

/-! ### Completion objects (R334 to R337) -/

/-- The object of a form of R334: nonzero, no reserved bit, canonical, aligned, and its vault checked; that the context does not
hold the vault is a trap only where `held` says so (R403). -/
def State.objectPlace (s : State) (i : Instr) (w : Fields) (o : Word) (held : Bool) : Got Place :=
  let q := s.pass.quay
  if o = 0 then .stop (s.trapHere i w 0x0C 0)
  else if o.getLsbD 63 then
    if o.extractLsb' 36 27 ≠ 0 then .stop (s.trapHere i w 0x0C 0)
    else
      let v := o.extractLsb' 0 36
      let addr : Word := (o.extractLsb' 0 32).zeroExtend 64
      if v.toNat % 16 ≠ 0 then .stop (s.trapHere i w cMisaligned addr)
      else
        match s.vaultOperand (v.zeroExtend 64) q s.pass.ctx 16 with
        | .ok tq off => .ok (.vault tq off) s
        | .malformed => .stop (s.trapHere i w 0x0C 0)
        | .address => .stop (s.trapHere i w cVaultAddr addr)
        | .refused => if held then .stop (s.trapHere i w cVaultRef addr) else .ok (.virt o) s
  else if o.extractLsb' 56 7 ≠ 0 then .stop (s.trapHere i w cNonCanon o)
  else if o.toNat % 16 ≠ 0 then .stop (s.trapHere i w cMisaligned o)
  else .ok (.virt o) s

/-- The object of `co.init`, `co.arrive` and `co.wait` (R334). -/
def State.gotObject (s : State) (i : Instr) (w : Fields) (o : Word) : Got Place := s.objectPlace i w o true

/-- Translation and write permission for an object, as a store takes them (R334, R270). -/
def State.objectWrite (s : State) (i : Instr) (w : Fields) (p : Place) (kind : WriteKind) (bs : List Byte) :
    Got PendWrite :=
  let fin (r : PendWrite) (s : State) : Got PendWrite :=
    .ok { r with kind := kind, bytes := bs, scope := Fields.scope w } s
  match p with
  | .virt va => (s.globalStore i w va (List.replicate 16 0) false).andThen fin
  | .vault q off => (s.vaultStore i w q off (List.replicate 16 0)).andThen fin

/-- `co.init` (R335): EXPECT is bits 31:0 of b, not 0, PHASE bit 32, bits 63:33 zero; the operands are tested before the scope
(DESIGN CHOICE, log entry 85). -/
def execCoInit (w : Fields) (s : State) : Out :=
  let i := Instr.coInit w
  .next (s.fire i w fun v s =>
    if v.b.extractLsb' 0 32 = 0 ∨ v.b.extractLsb' 33 31 ≠ 0 then s.trapHere i w 0x0C 0
    else
      ((s.gotObject i w v.a).andThen fun p s =>
        (s.gotScope i w (Fields.scope w)).andThen fun _ s =>
          let o : BitVec 128 := v.b.extractLsb' 0 32 ++ 0#95 ++ v.b.extractLsb' 32 1
          s.objectWrite i w p (.coInit v.b) (leBytes 16 o.toNat)).done fun r s =>
        { s with pass := { s.pass with stores := s.pass.stores ++ [r] } }.emitVal i w v.a)

/-- `co.arrive` (R336): status in bits 7:0 of b. -/
def execCoArrive (w : Fields) (s : State) : Out :=
  let i := Instr.coArrive w
  .next (s.fire i w fun v s =>
    if v.b.extractLsb' 8 56 ≠ 0 then s.trapHere i w 0x0C 0
    else
      ((s.gotObject i w v.a).andThen fun p s =>
        (s.gotScope i w (Fields.scope w)).andThen fun _ s =>
          s.objectWrite i w p (.coArrive (v.b.extractLsb' 0 8)) []).done fun r s =>
        { s with pass := { s.pass with stores := s.pass.stores ++ [r] } }.emitVal i w v.a)

/-- `co.wait` (R334, R337): scope in bits 19:17 of F2. -/
def execCoWait (w : Fields) (s : State) : Out :=
  let i := Instr.coWait w
  .next (s.fire i w fun v s =>
    let sc := (Operand.immOr0 w.f2).extractLsb' 17 3
    ((s.gotObject i w v.a).andThen fun p s => (s.gotScope i w sc).andThen fun _ s => .ok p s).done fun p s =>
      let l : Loc := match p with
        | .virt _ => .glob 0
        | .vault q off => .vault q off
      s.branch i w (s.pass.waitTarget w) (.coWait v.a l (v.b.getLsbD 0) sc))

/-- `elect` (R338): 1 for the lowest %tid among the threads that have not left. -/
def State.elected (s : State) : Bool :=
  let t := s.thread s.pass.quay s.pass.slot
  (s.remaining (s.group t.group)).all fun u => t.tid ≤ u.tid

/-- `elect` (R338). -/
def execElect (w : Fields) (s : State) : Out :=
  let i := Instr.elect w
  .next (s.fire i w fun _ s => s.emitVal i w (if s.elected then 1 else 0))

/-! ### `gred` (R258, R259) -/

/-- A `gred` as it fires: the record offset is checked, the contribution captured until commit. -/
def State.gred (s : State) (i : Instr) (w : Fields) (op : Nat) (t : GredTy) : State :=
  s.fire i w fun v s =>
    let off := (v.b.extractLsb' 0 24).toNat
    if off % 32 ≠ 0 then s.trapHere i w cMisaligned v.b
    else if off + 32 > vaultEnd then s.trapHere i w cVaultAddr v.b
    else
      let g : GredArrive := { idx := s.pass.cur, op := op, flt := t == .f32, rnd := s.pass.block.h0.extractLsb' 66 3,
                              ftz := s.pass.block.ftz, val := some (v.a.extractLsb' 0 32), off := some off }
      { s with pass := { s.pass with greds := s.pass.greds ++ [g] } }.emitVal i w v.b

/-- `gred.add` (R258, R259). -/
def execGredAdd (t : GredTy) (w : Fields) (s : State) : Out := .next (s.gred (.gredAdd t w) w 0 t)
/-- `gred.min` (R258, R259). -/
def execGredMin (t : GredTy) (w : Fields) (s : State) : Out := .next (s.gred (.gredMin t w) w 1 t)
/-- `gred.max` (R258, R259). -/
def execGredMax (t : GredTy) (w : Fields) (s : State) : Out := .next (s.gred (.gredMax t w) w 2 t)

/-! ### Tasks and launches (R339, R340, R343) -/

/-- A frame operand of `spawn` or `join.put` (R339, R340): malformed is "spawn operand". -/
def State.gotFrame (s : State) (i : Instr) (w : Fields) (f : Word) (n : Nat) : Got (Nat × Nat) :=
  let addr : Word := (f.extractLsb' 0 32).zeroExtend 64
  match s.vaultOperand f s.pass.quay s.pass.ctx n with
  | .malformed => .stop (s.trapHere i w 0x0D 0)
  | .address => .stop (s.trapHere i w cVaultAddr addr)
  | .refused => .stop (s.trapHere i w cVaultRef addr)
  | .ok q off => if off % 32 ≠ 0 then .stop (s.trapHere i w cMisaligned addr) else .ok (q, off) s

/-- Bits of port g that a `spawn` leaves free (R339). -/
def spawnReserved (g : Word) : Bool := g.extractLsb' 43 1 == 0 && g.extractLsb' 46 18 == 0

/-- The continuation record `spawn` writes (R166, R339). -/
def spawnRecord (ctx : Nat) (q off : Nat) (code g : Word) : BitVec 256 :=
  let frame : Nat := off + q % 32 * 2 ^ 24 + dieOf q * 2 ^ 32
  0#48 ++ BitVec.ofNat 16 ctx ++ 0#14 ++ g.extractLsb' 44 2 ++ 1#1 ++ 0#4 ++ g.extractLsb' 32 11 ++ g.extractLsb' 0 32 ++
    BitVec.ofNat 64 frame ++ code

/-- `spawn` (R339): the record is written after commit; here the operands are checked. -/
def execSpawn (w : Fields) (s : State) : Out :=
  let i := Instr.spawn w
  .next (s.fire i w fun v s =>
    let n := (v.g.extractLsb' 32 11).toNat
    if n = 0 ∨ n > 1024 ∨ v.b.extractLsb' 0 6 ≠ 0 ∨ spawnReserved v.g = false then s.trapHere i w 0x0D 0
    else
      ((s.gotFrame i w v.a 32).andThen fun f s =>
        (s.gotScope i w (Fields.scope w)).andThen fun _ s =>
          s.vaultStore i w f.1 f.2 (leBytes 32 (spawnRecord s.pass.ctx f.1 f.2 v.b v.g).toNat)).done fun r s =>
        let r : PendWrite := { r with kind := .spawn v.b v.g, scope := Fields.scope w }
        { s with pass := { s.pass with stores := s.pass.stores ++ [r] } }.emitVal i w v.a)

/-- `join.put` (R340): slot bits 15:0 of b, its address inside the vault; the writes of JOIN and of the slot are checked as
those of stores. -/
def execJoinPut (w : Fields) (s : State) : Out :=
  let i := Instr.joinPut w
  .next (s.fire i w fun v s =>
    let k := (v.b.extractLsb' 0 16).toNat
    ((s.gotFrame i w v.a 32).andThen fun f s =>
      if f.2 + 36 + 4 * k > vaultEnd then
        .stop (s.trapHere i w cVaultAddr ((v.a.extractLsb' 0 32).zeroExtend 64 + BitVec.ofNat 64 (32 + 4 * k)))
      else
        (s.gotScope i w (Fields.scope w)).andThen fun _ s =>
          (s.vaultReady i w f.1 (f.2 + 16) 4 true).andThen fun _ s =>
            (s.vaultReady i w f.1 (f.2 + 32 + 4 * k) 4 true).andThen fun _ s => .ok f s).done fun f s =>
      let r : PendWrite := { kind := .joinPut k (v.g.extractLsb' 0 32), lsid := Fields.lsid w, idx := s.pass.cur,
                             loc := .vault f.1 f.2, va := BitVec.ofNat 64 (f.1 % 32 * 2 ^ 24 + f.2),
                             scope := Fields.scope w, ctx := s.pass.ctx }
      { s with pass := { s.pass with stores := s.pass.stores ++ [r] } }.emitVal i w v.a)

/-- `launch` (R343): record address a multiple of 128, canonical; started after commit. -/
def execLaunch (w : Fields) (s : State) : Out :=
  let i := Instr.launch w
  .next (s.fire i w fun v s =>
    if v.a.toNat % 128 ≠ 0 then s.trapHere i w cMisaligned v.a
    else if v.a.extractLsb' 56 8 ≠ 0 then s.trapHere i w cNonCanon v.a
    else
      (s.gotScope i w (Fields.scope w)).done fun _ s =>
        let r : PendWrite := { kind := .launch, lsid := Fields.lsid w, idx := s.pass.cur, va := v.a,
                               scope := Fields.scope w, ctx := s.pass.ctx }
        { s with pass := { s.pass with stores := s.pass.stores ++ [r] } }.emitVal i w v.a)

end Sys2Proof.Machine
end

