-- ==== Sys2Proof/Machine/Engine.lean ====
section
/-! DEFINITION. Engine instructions, class 0xB, as they fire in a block (R281 to R294); the operations they issue at
commit run in Engines. -/

namespace Sys2Proof.Machine

/-- A vault operand whose form is right: bits 63:36 zero, die code 0 or 8 to 15 (R283). -/
def vOperandOk (v : Word) : Bool :=
  v.extractLsb' 36 28 == 0 && ((v.extractLsb' 32 4).toNat == 0 || decide ((v.extractLsb' 32 4).toNat ≥ 8))

/-- An own-vault offset whose form is right (R283). -/
def oOperandOk (v : Word) : Bool := v.extractLsb' 24 40 == 0

/-- A global address whose form is right (R98). -/
def gOperandOk (v : Word) : Bool := v.extractLsb' 56 8 == 0

/-- Longest vault length (R286). -/
def maxLen : Nat := 12582912

/-- The global addresses that R286 marks g for a form. -/
def globalFields (k : OpKind) (d : BitVec 256) (ext : BitVec 512) : List Word :=
  match k with
  | .cpG2v | .vmap | .frz | .thaw => [dSrc d]
  | .cpV2g => [dDst d]
  | .cpMc => if (dXtra d).getLsbD 0 then [] else [dSrc d]
  | .allred _ | .redsc _ | .allgath | .bcast => [dXtra d]
  | .seqGemm => [ext.extractLsb' 448 64]
  | .seqAttn => [ext.extractLsb' 448 64, ext.extractLsb' 288 64]
  | _ => []

/-- The limits of R286 and R291, but for canonical global addresses.  A SRC, XTRA or stride that is not aligned as R286 asks
breaks them like any other (DESIGN CHOICE, log entry 91). -/
def descOk (s : State) (c : Nat) (k : OpKind) (d : BitVec 256) (ext : BitVec 512) : Bool :=
  let len := dLen d
  let aux := dAux d
  let copyLen := decide (1 ≤ len) && decide (len ≤ maxLen)
  let pages := decide (0 < len) && len % 4096 == 0 && decide (len ≤ maxLen)
  match k with
  | .cpG2v => vOperandOk (dDst d) && copyLen && aux == 0 && dXtra d == 0
  | .cpV2g => vOperandOk (dSrc d) && copyLen && aux == 0 && dXtra d == 0
  | .cpV2v => vOperandOk (dSrc d) && vOperandOk (dDst d) && copyLen && aux == 0 && dXtra d == 0
  | .cpMc =>
    (!(dXtra d).getLsbD 0 || vOperandOk (dSrc d)) && vOperandOk (dDst d) && (dDst d).extractLsb' 24 5 == 0 && copyLen &&
      aux != 0 && (dXtra d).extractLsb' 1 63 == 0
  | .seal => dSrc d == 0 && oOperandOk (dDst d) && pages && aux == 0 && dXtra d == 0
  | .vmap => oOperandOk (dDst d) && pages && decide (aux < 2) && dXtra d == 0
  | .unseal | .vunmap | .vflush => dSrc d == 0 && oOperandOk (dDst d) && len == 0 && aux == 0 && dXtra d == 0
  | .gath =>
    vOperandOk (dSrc d) && oOperandOk (dDst d) && (len == 128 || len == 256) && decide (1 ≤ aux % 65536) &&
      decide (aux % 65536 ≤ 64) && decide (0 < aux / 65536) && (dXtra d).toNat % 16 == 0 &&
      (dXtra d).toNat / 2 ^ 32 % 16 == 0 && (dXtra d).extractLsb' 24 8 == 0 && (dXtra d).extractLsb' 56 8 == 0
  | .allred _ | .redsc _ | .allgath =>
    oOperandOk (dSrc d) && oOperandOk (dDst d) && decide (0 < len) && aux == 0 && (dXtra d).toNat % 8 == 0
  | .bcast => oOperandOk (dSrc d) && oOperandOk (dDst d) && decide (0 < len) && (dXtra d).toNat % 8 == 0
  | .seqGemm =>
    oOperandOk (dSrc d) && (dSrc d).toNat % 64 == 0 && dDst d == 0 && len == 0 && decide (aux < 4) && dXtra d == 0 &&
      ext.extractLsb' 256 96 == 0
  | .seqAttn => oOperandOk (dSrc d) && (dSrc d).toNat % 64 == 0 && dDst d == 0 && len == 0 && decide (aux < 16) && dXtra d == 0 &&
      oOperandOk ((ext.extractLsb' 256 32).zeroExtend 64)
  | .frz | .thaw =>
    (dSrc d).toNat % 65536 == 0 && dDst d == 0 && decide (0 < len) && len % 65536 == 0 && aux == 0
  | .qpost =>
    oOperandOk (dSrc d) && dDst d == 0 && (len == 32 || len == 64 || len == 128) && decide (aux < 64) &&
      dXtra d == 0 && (s.queue c aux).en
  | _ => true

/-- Why the descriptor and completion operand of an engine operation are refused before anything issues (R285, R286):
a cause and an address; `c` is the context.  The first check that fails gives the cause, in the model's order (DESIGN CHOICE,
log entry 92). -/
def engineRefusal (s : State) (c : Nat) (k : OpKind) (co : Word) (d : BitVec 256) (ext : BitVec 512) :
    Option (BitVec 8 × Word) :=
  let coBad : Option (BitVec 8 × Word) :=
    if co = 0 then none
    else if co.getLsbD 63 then
      if co.extractLsb' 36 27 ≠ 0 ∨ vOperandOk (co.extractLsb' 0 36 |>.zeroExtend 64) = false then some (0x0F, 0)
      else if co.toNat % 16 ≠ 0 then some (cMisaligned, (co.extractLsb' 0 32).zeroExtend 64)
      else none
    else if co.extractLsb' 56 7 ≠ 0 then some (cNonCanon, co)
    else if co.toNat % 16 ≠ 0 then some (cMisaligned, co)
    else none
  -- the object PCO of a `seq.attn` is checked as a completion object in a vault is (R285, R292)
  let pco := (ext.extractLsb' 256 32).zeroExtend 64
  let coBad := if coBad.isNone ∧ k = .seqAttn ∧ pco.toNat % 16 ≠ 0 then some (cMisaligned, pco) else coBad
  match coBad with
  | some r => some r
  | none =>
    match (globalFields k d ext).find? fun g => !gOperandOk g with
    | some g => some (cNonCanon, g)
    | none => if descOk s c k d ext then none else some (0x0F, 0)

/-- Sequences must be issued on a leader quay whose pair the context holds (R129, R243): a cause, or none. -/
def State.pairRefusal (s : State) : Option (BitVec 8) :=
  let q := s.pass.quay
  if q % 2 = 1 then some 0x21 else if s.holdsQuay s.pass.ctx (q + 1) = false then some 0x22 else none

/-- An engine instruction (R282, R285): the descriptor read as a .v load at its LSID, the operands checked, the
operation captured until commit; port b is the result. -/
def State.engine (s : State) (i : Instr) (w : Fields) (k : OpKind) : State :=
  s.fire i w fun v s =>
    let off := (v.a.extractLsb' 0 24).toNat
    let addr : Word := (v.a.extractLsb' 0 24).zeroExtend 64
    let isSeq := k == .seqGemm || k == .seqAttn
    if isSeq ∧ s.pairRefusal.isSome then s.trapHere i w (s.pairRefusal.getD 0) 0
    else if off % 32 ≠ 0 then s.trapHere i w cMisaligned addr
    else if off + 32 > vaultEnd then s.trapHere i w cVaultAddr addr
    else
      ((s.gotScope i w (Fields.scope w)).andThen fun _ s =>
        (s.vaultBytes i w s.pass.quay off 32).andThen fun bs s =>
          let d : BitVec 256 := BitVec.ofNat 256 (leNat bs)
          let so := (dSrc d).toNat
          if isSeq ∧ oOperandOk (dSrc d) ∧ so % 64 = 0 ∧ so + 64 ≤ vaultEnd then
            (s.vaultBytes i w s.pass.quay so 64).andThen fun e s => .ok (d, BitVec.ofNat 512 (leNat e)) s
          else .ok (d, 0) s).done fun r s =>
      match engineRefusal s s.pass.ctx k v.b r.1 r.2 with
      | some (c, a) => s.trapHere i w c a
      | none =>
        let x : Captured := { idx := s.pass.cur, kind := k, lsid := Fields.lsid w, a := addr, b := v.b, desc := r.1,
                              ext := r.2, scope := Fields.scope w }
        { s with pass := { s.pass with captured := s.pass.captured ++ [x] } }.emitVal i w v.b

/-- `cp.g2v` (R123, R287). -/
def execCpG2v (w : Fields) (s : State) : Out := .next (s.engine (.cpG2v w) w .cpG2v)
/-- `cp.v2g` (R123, R287). -/
def execCpV2g (w : Fields) (s : State) : Out := .next (s.engine (.cpV2g w) w .cpV2g)
/-- `cp.v2v` (R123, R287). -/
def execCpV2v (w : Fields) (s : State) : Out := .next (s.engine (.cpV2v w) w .cpV2v)
/-- `cp.mc` (R125, R287). -/
def execCpMc (w : Fields) (s : State) : Out := .next (s.engine (.cpMc w) w .cpMc)
/-- `seal` (R144, R288). -/
def execSeal (w : Fields) (s : State) : Out := .next (s.engine (.seal w) w .seal)
/-- `unseal` (R146, R288). -/
def execUnseal (w : Fields) (s : State) : Out := .next (s.engine (.unseal w) w .unseal)
/-- `vmap` (R140, R288). -/
def execVmap (w : Fields) (s : State) : Out := .next (s.engine (.vmap w) w .vmap)
/-- `vunmap` (R143, R288). -/
def execVunmap (w : Fields) (s : State) : Out := .next (s.engine (.vunmap w) w .vunmap)
/-- `vflush` (R143, R288). -/
def execVflush (w : Fields) (s : State) : Out := .next (s.engine (.vflush w) w .vflush)
/-- `gath` (R126, R289). -/
def execGath (w : Fields) (s : State) : Out := .next (s.engine (.gath w) w .gath)
/-- `coll.allred` (R127, R290). -/
def execCollAllred (t : CollTy) (w : Fields) (s : State) : Out := .next (s.engine (.collAllred t w) w (.allred t))
/-- `coll.redsc` (R127, R290). -/
def execCollRedsc (t : CollTy) (w : Fields) (s : State) : Out := .next (s.engine (.collRedsc t w) w (.redsc t))
/-- `coll.allgath` (R127, R290). -/
def execCollAllgath (w : Fields) (s : State) : Out := .next (s.engine (.collAllgath w) w .allgath)
/-- `coll.bcast` (R127, R290). -/
def execCollBcast (w : Fields) (s : State) : Out := .next (s.engine (.collBcast w) w .bcast)
/-- `seq.gemm` (R129, R291). -/
def execSeqGemm (w : Fields) (s : State) : Out := .next (s.engine (.seqGemm w) w .seqGemm)
/-- `seq.attn` (R129, R292). -/
def execSeqAttn (w : Fields) (s : State) : Out := .next (s.engine (.seqAttn w) w .seqAttn)
/-- `frz` (R91, R293). -/
def execFrz (w : Fields) (s : State) : Out := .next (s.engine (.frz w) w .frz)
/-- `thaw` (R94, R293). -/
def execThaw (w : Fields) (s : State) : Out := .next (s.engine (.thaw w) w .thaw)
/-- `qpost` (R294, R347). -/
def execQpost (w : Fields) (s : State) : Out := .next (s.engine (.qpost w) w .qpost)

end Sys2Proof.Machine
end

