-- ==== Sys2Proof/Machine/Matrix.lean ====
section
/-! DEFINITION. Matrix instructions, class 0xC, as they fire in a block (R243 to R252); what they do at the head of the
matrix queue is in MatrixUnits. -/

namespace Sys2Proof.Machine

/-- Group size G of a format pair, 0 for a pair that is refused (R246). -/
def groupSize (a b : Nat) : Nat :=
  if (a = 3 ∧ b = 3) ∨ (a = 4 ∧ b = 4) then 8
  else if (a = 1 ∨ a = 2) ∧ (b = 1 ∨ b = 2 ∨ b = 5) then 16
  else 0

/-- Bytes of an element of a release format (R248). -/
def relBytes (r : Nat) : Nat := if r = 0 then 4 else if r = 1 ∨ r = 2 then 1 else 2

/-- AFMT of a configuration word (R248). -/
def cfgA (c : Word) : Nat := (c.extractLsb' 28 4).toNat
/-- BFMT of a configuration word (R248). -/
def cfgB (c : Word) : Nat := (c.extractLsb' 24 4).toNat
/-- RFMT of a configuration word (R248). -/
def cfgR (c : Word) : Nat := (c.extractLsb' 20 4).toNat
/-- EOR of a configuration word (R248). -/
def cfgEor (c : Word) : Nat := (c.extractLsb' 32 24).toNat
/-- TILE of a target word (R248). -/
def tgtTile (t : Word) : Nat := (t.extractLsb' 0 24).toNat
/-- RCO of a target word, bits 31:24 ignored (R248). -/
def tgtRco (t : Word) : Nat := (t.extractLsb' 32 24).toNat
/-- NONE of a target word (R248). -/
def tgtNone (t : Word) : Bool := t.getLsbD 31

/-- The words `mma.cfg` accepts (R248). -/
def cfgOk (c t : Word) : Bool :=
  let g := groupSize (cfgA c) (cfgB c)
  c.extractLsb' 56 8 == 0 && c.extractLsb' 2 14 == 0 && decide (0 < g) &&
    (cfgR c == 0 || cfgR c == 1 || cfgR c == 2 || cfgR c == 3 || cfgR c == 4) && decide ((c.extractLsb' 17 3).toNat ≤ 4) &&
    cfgEor c % g == 0 && t.extractLsb' 24 7 == 0 &&
    (tgtNone t || decide (tgtTile t + 4096 * relBytes (cfgR c) + 16 ≤ vaultEnd)) && tgtTile t % 16 == 0 &&
    (t.extractLsb' 32 32).toNat % 16 == 0

/-- A matrix instruction as it fires: the pair checks of R243, its own check, then captured; port a is the result. -/
def State.matrix (s : State) (i : Instr) (w : Fields) (k : OpKind) (check : PortVals → Option (BitVec 8 × Word)) : State :=
  s.fire i w fun v s =>
    match s.pairRefusal with
    | some c => s.trapHere i w c 0
    | none =>
      match check v with
      | some (c, a) => s.trapHere i w c a
      | none =>
        let x : Captured := { idx := s.pass.cur, kind := k, a := v.a, b := v.b, scope := 4 }
        { s with pass := { s.pass with captured := s.pass.captured ++ [x] } }.emitVal i w v.a

/-- A node operand (R249). -/
def nodeCheck (n : Word) : Option (BitVec 8 × Word) := if n.toNat > 3 then some (0x23, 0) else none

/-- `mma.cfg` (R248, R250). -/
def execMmaCfg (w : Fields) (s : State) : Out :=
  .next (s.matrix (.mmaCfg w) w .mmaCfg fun v => if cfgOk v.a v.b then none else some (0x23, 0))

/-- `mma` (R252): the node, and a descriptor that would pass the vault's end, in this order (DESIGN CHOICE, log entry 88). -/
def execMma (w : Fields) (s : State) : Out :=
  .next (s.matrix (.mma w) w .mma fun v =>
    match nodeCheck v.b with
    | some r => some r
    | none => if (v.a.extractLsb' 0 24).toNat + 32 > vaultEnd then some (cVaultAddr, v.a) else none)

/-- `mma.rel` (R251). -/
def execMmaRel (w : Fields) (s : State) : Out := .next (s.matrix (.mmaRel w) w .mmaRel fun v => nodeCheck v.a)
/-- `mma.clr` (R251). -/
def execMmaClr (w : Fields) (s : State) : Out := .next (s.matrix (.mmaClr w) w .mmaClr fun v => nodeCheck v.a)

end Sys2Proof.Machine
end

