-- ==== Sys2Proof/Machine/Blocks.lean ====
section
/-! DEFINITION. A block as its bytes in memory, and the checks of the placer (R171 to R174, R184). -/

namespace Sys2Proof.Machine

/-- RC of H0 (R172). -/
def h0Rc (h : Word96) : Nat := (h.extractLsb' 75 6).toNat
/-- WC of H0 (R172). -/
def h0Wc (h : Word96) : Nat := (h.extractLsb' 69 6).toNat
/-- N of H0 (R172). -/
def h0N (h : Word96) : Nat := (h.extractLsb' 81 7).toNat + 1

/-- Words of a block, from H0 (R171). -/
def blockWords (h : Word96) : Nat := 2 + (h0Rc h + 2) / 3 + (h0Wc h + 2) / 3 + h0N h

/-- Word `k` of a block's bytes (R5). -/
def rawWord (bytes : List Byte) (k : Nat) : Word96 := wordOfBytes (bytes.drop (12 * k))

/-- Entry `k` of the entry words that begin at word `at` (R171). -/
def rawEntry (bytes : List Byte) (first k : Nat) : BitVec 32 :=
  (rawWord bytes (first + k / 3)).extractLsb' (32 * (k % 3)) 32

/-- A block read from its bytes. -/
def parseBlock (bytes : List Byte) : Block :=
  let h := rawWord bytes 0
  let r := (h0Rc h + 2) / 3
  let w := (h0Wc h + 2) / 3
  { h0 := h, h1 := rawWord bytes 1,
    reads := (List.range (h0Rc h)).map (rawEntry bytes 2),
    writes := (List.range (h0Wc h)).map (rawEntry bytes (2 + r)),
    words := (List.range (h0N h)).map fun k => rawWord bytes (2 + r + w + k) }

/-- Whether a port of an instruction is read by it and not supplied by its own immediate (R184): a data port, or the
guard port of GMODE 11. -/
def takesToken (i : Instr) (p : Port) : Bool :=
  match Instr.form i, Instr.fields i with
  | some f, some w => (tokenPorts f w).contains p || (w.guard == .port && p == .g)
  | _, _ => false

/-- The instruction that a word's class and function name, whatever its other fields hold (R180 to R183). -/
def opcodeInstr (word : Word96) : Option Instr :=
  match decodeOp (word.extractLsb' 92 4) (word.extractLsb' 84 8) ⟨.none, 0, 0, .empty, .empty, .empty⟩ with
  | .ok i => some i
  | .error _ => none

/-- Ports that a word takes from tokens, by its class, function, GMODE and the kind of its F2 alone (R175 to R177): a word
of no assigned form takes none (log entry 51). -/
def wordPorts (word : Word96) : List Port :=
  match (opcodeInstr word).bind Instr.form with
  | none => []
  | some f =>
    let own : Option Port :=
      match f.imm with
      | .opt p _ | .own p _ => if word.extractLsb' 20 2 == 3 then some p else none
      | _ => none
    f.ports.filter (fun p => some p != own) ++ (if word.extractLsb' 82 2 == 3 then [.g] else [])

/-- The port of a word that its own F2 alone may supply, by class and function: of `movi`, `sreg`, `srd` and `swr`. -/
def ownPort (word : Word96) : Option Port :=
  ((opcodeInstr word).bind Instr.form).bind fun f =>
    match f.imm with
    | .own p _ => some p
    | _ => none

/-- Whether a target names a port that its instruction takes from a token (R184).  A producer of a port that the instruction's
own F2 alone may supply refuses the block at the word of that instruction (R217, R219, R396, log entry 51). -/
def Block.targetOk (b : Block) (t : Nat × BitVec 2) : Bool :=
  match b.words[t.1]?, Port.ofCode t.2 with
  | some x, some p => ownPort x == some p || (wordPorts x).contains p
  | _, _ => false

/-- A read entry obeys R174 and R184. -/
def Block.readOk (b : Block) (e : BitVec 32) : Bool :=
  (e.extractLsb' 25 7).toNat < 112 && e.extractLsb' 0 7 == 0 && (readTargets e).all b.targetOk

/-- UMASK (R172). -/
def Block.umask (b : Block) : BitVec 32 := b.h0.extractLsb' 0 32
/-- SMASK (R172). -/
def Block.smask (b : Block) : BitVec 32 := b.h0.extractLsb' 32 32

/-- A write entry obeys R174 and R184: no other entry names its register, and some field names its slot. -/
def Block.writeOk (b : Block) (k : Nat) (e : BitVec 32) : Bool :=
  (e.extractLsb' 25 7).toNat < 112 && e.extractLsb' 0 25 == 0 &&
    b.writes.countP (fun x => x.extractLsb' 25 7 == e.extractLsb' 25 7) == 1 &&
    (b.words.flatMap wordFields).any (fun f => fieldSlot f == some k)

/-- One operand field of an instruction at index `idx` (R176, R184). -/
def Block.fieldOk (b : Block) (idx : Nat) : Operand → Bool
  | .target t p => decide (idx < t.toNat) && decide (t.toNat < b.words.length) && b.targetOk (t.toNat, Port.code p)
  | .slot k => decide (k.toNat < b.writes.length)
  | .empty | .imm _ => true

/-- LSID that a word uses, where its class and function are an LSID-bearing form's (R177, R184), whatever its other fields;
whether that form is of the load class. -/
def wordLsid (word : Word96) : Option (Nat × Bool) :=
  ((opcodeInstr word).bind Instr.form).bind fun f =>
    if f.kind != .none && word.extractLsb' 20 2 == 3 then some ((word.extractLsb' 15 5).toNat, f.kind == .load) else none

/-- LSID rules for one instruction (R177, R184, R189). -/
def Block.lsidWordOk (b : Block) (x : WordInfo) : Bool :=
  match x.form.kind with
  | .none => true
  | k =>
    let l := Fields.lsid x.w
    b.umask.getLsbD l && (b.smask.getLsbD l == (k == .store)) &&
      (k == .store || b.words.countP (fun y => wordLsid y == some (l, true)) == 1)

/-- One instruction of a block (R184). -/
def Block.instrOk (b : Block) (idx : Nat) (word : Word96) : Bool :=
  match wordInstr word with
  | none => false
  | some i =>
    match Instr.form i, Instr.fields i with
    | some f, some w =>
      b.fieldOk idx w.f0 && b.fieldOk idx w.f1 && b.fieldOk idx w.f2 && b.lsidWordOk ⟨idx, i, f, w⟩ &&
        (b.hand || match i with | .trapRet _ | .trapSub _ => false | _ => true) &&
        [Port.a, .b, .g].all (fun p => !takesToken i p || decide (0 < b.producers idx p)) &&
        (match immPort f w with | some (p, _) => b.producers idx p == 0 || (w.guard == .port && p == .g) | none => true)
    | _, _ => false

/-- Whether a word is a member of the branch set (R194), by class and function: a malformed one fails at its own word. -/
def isBranch (word : Word96) : Bool :=
  match opcodeInstr word with
  | some (.br _) | some (.bri _) | some (.call _) | some (.ret _) | some (.exit _) | some (.bar _) | some (.barWait _)
  | some (.coWait _) | some (.trapRet _) => true
  | _ => false

/-- H0 obeys R184. -/
def Block.h0Ok (b : Block) : Bool :=
  b.h0.extractLsb' 92 4 == 0xF && b.h0.extractLsb' 88 4 == 1 && decide (h0Rc b.h0 ≤ 32) && decide (h0Wc b.h0 ≤ 32) &&
    decide ((b.h0.extractLsb' 66 3).toNat ≤ 4) && (b.smask &&& ~~~b.umask) == 0 &&
    (List.range 32).all (fun l => !b.umask.getLsbD l || b.words.any (fun x => (wordLsid x).any (·.1 == l)))

/-- H1 obeys R184. -/
def Block.h1Ok (b : Block) : Bool :=
  b.h1.extractLsb' 0 85 == 0 && (!b.h1.getLsbD 87 || decide (b.words.length ≤ 32)) &&
    b.h1.getLsbD 86 == b.words.any (fun w => w.extractLsb' 92 4 == 0xB)

/-- Unused entry positions of the last word of `n` entries that begin at word `first` are zero (R171). -/
def tailOk (bytes : List Byte) (first n : Nat) : Bool :=
  n % 3 == 0 || (List.range (3 - n % 3)).all fun k => rawEntry bytes first (n + k) == 0

/-- Word index of the lowest failing word (R184), where there is one. -/
def checkBlock (bytes : List Byte) : Option Nat :=
  let b := parseBlock bytes
  let r := (b.reads.length + 2) / 3
  let w := (b.writes.length + 2) / 3
  let bad (k : Nat) (ok : Bool) : List Nat := if ok then [] else [k]
  let fails := bad 0 (b.h0Ok && b.words.any isBranch) ++ bad 1 b.h1Ok ++
    (b.reads.zipIdx.flatMap fun x => bad (2 + x.2 / 3) (b.readOk x.1)) ++ bad (1 + r) (tailOk bytes 2 b.reads.length) ++
    (b.writes.zipIdx.flatMap fun x => bad (2 + r + x.2 / 3) (b.writeOk x.2 x.1)) ++
    bad (1 + r + w) (tailOk bytes (2 + r) b.writes.length) ++
    (b.words.zipIdx.flatMap fun x => bad (2 + r + w + x.2) (b.instrOk x.2 x.1))
  fails.foldl (fun acc k => match acc with | some m => some (min m k) | none => some k) none

end Sys2Proof.Machine
end

