-- ==== Sys2Proof/Machine/Harbour.lean ====
section
/-! DEFINITION. The harbourmaster of a quay: arrivals, waiting vectors, the drift set, plane runs, block fetch and
configuration, admission (R330, R356 to R364, R160 to R165, R184, R185). -/

namespace Sys2Proof.Machine

/-! ### Entries and planes -/

/-- A waiting-vector entry. -/
def State.entry (s : State) (q e : Nat) : WvEntry :=
  tget (fun x => x.quay == q && x.e == e) { quay := q, e := e } s.entries

/-- Whether an entry is in use. -/
def State.entryValid (s : State) (q e : Nat) : Bool := s.entries.any fun x => x.quay == q && x.e == e

/-- Change an entry. -/
def State.modEntry (s : State) (q e : Nat) (f : WvEntry → WvEntry) : State :=
  { s with entries := tmod (fun x => x.quay == q && x.e == e) f s.entries }

/-- A plane. -/
def State.plane (s : State) (q p : Nat) : Plane :=
  tget (fun x => x.quay == q && x.plane == p) { quay := q, plane := p } s.planes

/-- Replace a plane. -/
def State.setPlane (s : State) (p : Plane) : State :=
  { s with planes := tset (fun x => x.quay == p.quay && x.plane == p.plane) p s.planes }

/-- A plane that admits from its entry holds it open. -/
def Plane.isOpen (p : Plane) : Bool := p.st == .admitting || p.st == .aged

/-- A thread's age (R356). -/
def State.ageOf (s : State) (t : Thread) : Nat := (s.stamp - t.stamp).toNat

/-- A thread of a cooperative launch that is not resident: some workgroup of it is saved or being saved (R430, R431). -/
def State.coopHeld (s : State) (t : Thread) : Bool :=
  match (s.group t.group).launch with
  | none => false
  | some id =>
    (s.launches.any fun l => l.id == id && l.record.getLsbD 17) &&
      ((s.sections.any fun x => x.groups.any fun g => g.launch == some id) ||
        s.groups.any fun g => g.launch == some id && s.preempts.any fun p => p.quays.contains g.quay)

/-- The threads of an entry that may be admitted: those of a launch that is not resident stay in their place, pre-empted, and
count for no choice (R170, R430). -/
def State.waiting (s : State) (e : WvEntry) : List Nat := e.vec.filter fun sl => !s.coopHeld (s.thread e.quay sl)

/-- Age of an entry: that of its oldest thread (R357). -/
def State.entryAge (s : State) (e : WvEntry) : Nat :=
  ((s.waiting e).map fun sl => s.ageOf (s.thread e.quay sl)).foldl max 0

/-- A valid pinned entry with waiting threads and age above 4,096 (R358). -/
def State.isAged (s : State) (e : WvEntry) : Bool := e.pinned && !(s.waiting e).isEmpty && decide (s.entryAge e > 4096)

/-- Some entry of the quay is aged. -/
def State.anyAged (s : State) (q : Nat) : Bool := s.entries.any fun e => e.quay == q && s.isAged e

/-- Whether an entry is open in some plane of its quay. -/
def State.openEntry (s : State) (q e : Nat) : Bool := s.planes.any fun p => p.quay == q && p.isOpen && p.entry == e

/-- The coalescing hold of R358. -/
def State.heldEntry (s : State) (e : WvEntry) : Bool :=
  decide ((s.waiting e).length < 8) && e.lplv && !(s.plane e.quay e.lpl).tags.isEmpty && decide (s.entryAge e ≤ 256)

/-! ### Arrival and the drift set (R330, R357, R361) -/

/-- Threads of the drift set of a quay. -/
def State.drifting (s : State) (q : Nat) : List Thread := s.threads.filter fun t => t.quay == q && t.drift

/-- Closing (R361): while threads drift and no entry is closed, the smallest entry that is not open closes. -/
def State.closeOne (s : State) (q : Nat) : State :=
  if (s.drifting q).isEmpty || s.entries.any (fun e => e.quay == q && e.closed) then s
  else
    let cand := s.entries.filter fun e => e.quay == q && !s.openEntry q e.e
    match cand with
    | [] => s
    | c :: cs =>
      let best := cs.foldl (fun b e =>
        if e.vec.length < b.vec.length || (e.vec.length == b.vec.length && decide (e.ba.toNat < b.ba.toNat)) then e else b) c
      s.modEntry q best.e fun e => { e with closed := true }

/-- The lowest entry number free at a quay. -/
def State.freeEntry (s : State) (q : Nat) : Option Nat := (List.range 64).find? fun e => !s.entryValid q e

/-- A thread that became WAITING is counted at its block, from a plane or from none (R330, R356, R357, R361). -/
def State.arrive (s : State) (q sl : Nat) (plane : Option Nat) : State :=
  let t := s.thread q sl
  if t.st ≠ .waiting then s
  else
    let from' := fun (e : WvEntry) =>
      match plane with
      | some p => { e with lplv := true, lpl := p }
      | none => e
    match s.entries.find? fun e => e.quay == q && e.ba == t.nba && e.fctx == t.runCtx with
    | some e =>
      if e.closed then (s.setThread { t with drift := true, stamp := s.stamp }).closeOne q
      else
        let s := s.modEntry q e.e fun e => { from' e with vec := addOnce sl e.vec }
        s.setThread { t with drift := false, stamp := s.stamp }
    | none =>
      match s.freeEntry q with
      | some n =>
        let s := s.setThread { t with drift := false, stamp := s.stamp }
        { s with entries := s.entries ++ [from' { quay := q, e := n, ba := t.nba, fctx := t.runCtx, vec := [sl] }] }
      | none => (s.setThread { t with drift := true, stamp := s.stamp }).closeOne q

/-- The drift thread with the oldest stamp. -/
def State.oldestDrift (s : State) (q : Nat) : Option Thread :=
  match s.drifting q with
  | [] => none
  | t :: ts => some (ts.foldl (fun b u => if s.ageOf u > s.ageOf b then u else b) t)

/-- Whether a drift thread is bound for the same block as another (R361, R364). -/
def sameTarget (t u : Thread) : Bool := u.quay == t.quay && u.drift && u.nba == t.nba && u.runCtx == t.runCtx

/-- Rebuild (R361): a free entry takes the oldest drift thread's block and every drift thread bound for it. -/
def State.rebuild (s : State) (q : Nat) : State :=
  match s.freeEntry q, s.oldestDrift q with
  | some n, some t =>
    let e : WvEntry := { quay := q, e := n, ba := t.nba, fctx := t.runCtx,
                         vec := (s.threads.filter (sameTarget t)).map (·.slot) }
    { s with threads := tmod (sameTarget t) (fun (u : Thread) => { u with drift := false, stamp := s.stamp }) s.threads,
             entries := s.entries ++ [e] }
  | _, _ => s

/-! ### Planes stop, drain and free (R359) -/

/-- Another entry than a plane's has threads that wait (R359). -/
def State.othersWait (s : State) (p : Plane) : Bool :=
  s.entries.any fun x => x.quay == p.quay && x.e != p.entry && !(s.waiting x).isEmpty

/-- A non-aged run has been open for 1,024 cycles while another entry waits (R359). -/
def State.openTooLong (s : State) (p : Plane) : Bool :=
  p.st == .admitting && decide (s.clock ≥ p.opened + 1024) && s.othersWait p

/-- Whether a plane stops admitting (R359). -/
def State.stops (s : State) (p : Plane) : Bool :=
  match p.st with
  | .admitting =>
    let e := s.entry p.quay p.entry
    s.anyAged p.quay || (s.waiting e).isEmpty && s.othersWait p
  | .aged => p.mustAdmit.isEmpty
  | _ => false

/-- A plane after its stop conditions: draining, or free once nothing is in flight. -/
def State.nextPlane (s : State) (p : Plane) : Plane :=
  let p := if s.stops p then { p with st := .draining, drainSince := s.clock } else p
  if p.st == .draining && p.tags.isEmpty then { quay := p.quay, plane := p.plane } else p

/-- Planes of a quay stop, drain and free; entries that no thread waits in and no plane holds open free, and the drift
set is served (R357, R359, R361). -/
def State.tidy (s : State) (q : Nat) : State :=
  let s : State := { s with planes := s.planes.map fun p => if p.quay == q then s.nextPlane p else p }
  let s : State := { s with entries := s.entries.filter fun e => !(e.quay == q && e.vec.isEmpty && !s.openEntry q e.e) }
  (s.rebuild q).closeOne q

/-! ### Choosing and configuring a block (R358, R364, R184) -/

/-- The better of two entries by a measure, ties by lower BA and then lower FCTX (R358). -/
def better (key : WvEntry → Nat) (a b : WvEntry) : WvEntry :=
  if key b > key a then b
  else if key b = key a ∧ (b.ba.toNat < a.ba.toNat ∨ (b.ba = a.ba ∧ b.fctx < a.fctx)) then b
  else a

/-- `choose` (R358): the entry and whether the run is aged. -/
def State.chooseEntry (s : State) (q : Nat) : Option (WvEntry × Bool) :=
  let mine := s.entries.filter fun e => e.quay == q && e.pinned && !(s.waiting e).isEmpty
  match mine.filter s.isAged with
  | a :: as => some (as.foldl (better s.entryAge) a, true)
  | [] =>
    match mine.filter fun e => !s.openEntry q e.e && !s.heldEntry e with
    | a :: as => some (as.foldl (better fun e => (s.waiting e).length) a, false)
    | [] => none

/-- A pre-emption covers a quay: at the end of a slice until the quay's own save is ordered (R391). -/
def Preempt.covers (p : Preempt) (q : Nat) : Bool := p.quays.contains q && !(p.slice && p.saved.contains q)

/-- State moves between a quay and save areas, or the quay goes to its next tenant: intake has not opened (R382, R390, R391). -/
def State.exchanging (s : State) (q : Nat) : Bool :=
  s.saves.any (fun v => v.quay == q) || s.handovers.any fun h => h.quay == q && h.restore

/-- The intake of a quay is closed: no plane chooses and none admits (R377, R390). -/
def State.fabricHalted (s : State) (q : Nat) : Bool :=
  s.absent.contains q || s.exchanging q || s.preempts.any fun p => p.covers q

/-- A pre-emption covers a quay: its engines begin no new unit (R378). -/
def State.engHalted (s : State) (q : Nat) : Bool := s.exchanging q || s.preempts.any fun p => p.covers q

/-- The engines of a quay have answered that they stand at their stop (R379). -/
def State.engStopped (s : State) (q : Nat) : Bool :=
  s.exchanging q || s.preempts.any fun p => p.covers q && !p.awaiting.contains (.engines q)

/-- The pair of `q` is halted: a pre-emption covers one of its quays or is on the way to it, or the state that a context which
runs has saved of one is still to come back (R257). -/
def State.pairHalted (s : State) (q : Nat) : Bool :=
  s.engHalted (2 * pairOf q) || s.engHalted (2 * pairOf q + 1) || s.preempts.any (fun p => p.todo.any fun r => pairOf r == pairOf q) ||
    s.sections.any fun y => pairOf y.quay == pairOf q && s.assignee y.quay == y.ctx && s.runs y.ctx 9

/-- PLANE_CHOOSE (R358): a free plane opens the chosen entry. -/
def execPlaneChoose (quay plane : Nat) (s : State) : Out :=
  .next <|
    if (s.plane quay plane).st ≠ .free ∨ s.fabricHalted quay = true then s
    else
      match s.chooseEntry quay with
      | none => s
      | some (e, aged) =>
        (s.setPlane { quay := quay, plane := plane, st := if aged then .aged else .admitting, entry := e.e, ba := e.ba,
                      fctx := e.fctx, opened := s.clock, mustAdmit := if aged then s.waiting e else [] }).tidy quay

/-- A cached translation that allows block fetch (R101, R106). -/
def State.fetchHit (s : State) (q c va : Nat) : Option TlbEntry :=
  s.tlb.find? fun e => e.quay == q && e.ctx == c && e.va / 2 ^ e.size == va / 2 ^ e.size &&
    decide (s.clock < e.filled + tlbLife) && e.x

/-- What a cached translation that allows block fetch gives (R101, R106). -/
def State.fetchXlate (s : State) (q c va : Nat) : Option Xlate := (s.fetchHit q c va).map fun e => e.xlate va

/-- The entry a block fetch translates through is used (R106). -/
def State.fetchUse (s : State) (q c va : Nat) : State :=
  match s.fetchHit q c va with
  | some e => s.touch e
  | none => s

/-- A thread traps as it enters a block (R191, R366): it leaves the vector first. -/
def State.trapAtEntry (s : State) (q sl : Nat) (blk : Word) (n : TrapNote) : State :=
  let s := s.leaveEntries q sl
  let s := s.takeTrap (s.thread q sl) n blk
  s.arrive q sl none

/-- Every thread of an entry traps. -/
def State.trapEntry (s : State) (e : WvEntry) (n : TrapNote) : State :=
  (e.vec.foldl (fun s sl => s.trapAtEntry e.quay sl e.ba n) s).tidy e.quay

/-- Total bytes pinned at a quay (R356). -/
def State.pinnedBytes (s : State) (q : Nat) : Nat :=
  ((s.entries.filter fun e => e.quay == q && e.pinned).map fun e => e.bytes.length).foldl (· + ·) 0

/-- Bytes of a block that lie in one line, read uncached at their home, which needs the owner token (R56, R65, R81, R88), or at
the home of another module (R450); a held line is waited for (R272). -/
def State.fetchLine (s : State) (y : Waiter) (x : Xlate) (c q n : Nat) : LineSays :=
  match s.paKind x.pa with
  | .remote mod => s.askFar y mod x.pa n x.gen false none (.load n)
  | _ =>
    match s.homeCheck x.pa false x.gen c q with
    | .refuse cause => .refused cause s
    | .stale g => .stale g s
    | .hold => .wait s
    | .serve | .replica =>
      if s.heldLine (.glob x.pa) then .wait (s.waitHeld y (.glob x.pa))
      else
        let r := (s.payBy c).wantOwner (x.pa / 128)
        if r.1 then .ok (r.2.gbytes x.pa n) (r.2.gmeta (x.pa / 128)) (r.2.chargeAt q (x.pa / 128) c) else .wait r.2

/-- Outcome of fetching a run of bytes: the bytes, the trap that refuses them, or the state in which the fetch stands. -/
inductive Fetched where
  | ok (bytes : List Byte) (s : State)
  | refused (n : TrapNote) (s : State)
  | stop (s : State)

/-- Fetch `n` bytes of an entry's block from an address on, line by line (R104, R108): a miss walks, a stale line is walked
again under the generation refused, a refused or poisoned one, or one past the end of the address space (R98), is a trap with
the address that faulted (R367). -/
def State.fetchBytes (s : State) (e : WvEntry) (va : Nat) : Nat → Nat → Fetched
  | 0, _ | _, 0 => .ok [] s
  | n, fuel + 1 =>
    let y : Waiter := .fetch e.quay e.e
    let miss (s : State) (g : Option (BitVec 8)) : Fetched :=
      .stop ((s.dropFar y).addMiss e.fctx { who := y, quay := e.quay, kind := .fetch, va := va, refused := g })
    let trap (s : State) (c : BitVec 8) : Fetched := .refused { cause := c, addr := BitVec.ofNat 64 va } (s.dropFar y)
    match (if va < 2 ^ 56 then s.fetchXlate e.quay e.fctx va else none) with
    | none => if va < 2 ^ 56 then miss s none else trap s cNonCanon
    | some x =>
      let k := min n (128 - va % 128)
      match (s.fetchUse e.quay e.fctx va).fetchLine y x e.fctx e.quay k with
      | .refused c s => trap s c
      | .stale g s => miss (s.dropTlb e.quay e.fctx va) (some g)
      | .ok bs md s =>
        if md.poison then trap s cPoison
        else
          match s.fetchBytes e (va + k) (n - k) fuel with
          | .ok rest s => .ok (bs ++ rest) s
          | r => r
      | .wait s =>
        match s.fetchBytes e (va + k) (n - k) fuel with
        | .ok _ s | .refused _ s | .stop s => .stop s

/-- A block fetch waits for a walk or a page request. -/
def State.fetchWaits (s : State) (y : Waiter) : Bool :=
  s.walks.any (fun w => w.misses.any fun m => m.who == y) || s.pgreqs.any fun r => r.who.any fun x => x.1 == y

/-- BLOCK_PINNED (R356, R364, R108): the block of an entry is fetched through the entry's context and pinned; its
threads arrive.  A fetch that misses waits for its walk; a refused one traps every waiting thread. -/
def execBlockPinned (quay entry : Nat) (s : State) : Out :=
  .next <|
    let e := s.entry quay entry
    let y : Waiter := .fetch quay entry
    if s.entryValid quay entry = false ∨ e.pinned = true ∨ s.fetchWaits y = true then s
    else if e.ba.extractLsb' 56 8 ≠ 0 then s.trapEntry e { cause := cNonCanon, addr := e.ba }
    else
      match s.fetchBytes e e.ba.toNat 12 2 with
      | .stop s => s
      | .refused n s => s.trapEntry e n
      | .ok h s =>
        let len := 12 * blockWords (wordOfBytes h)
        if s.pinnedBytes quay + len > 65536 then s
        else
          match s.fetchBytes e (e.ba.toNat + 12) (len - 12) 40 with
          | .stop s => s
          | .refused n s => s.trapEntry e n
          | .ok rest s =>
            let s := (s.dropFar y).modEntry quay entry fun e => { e with pinned := true, bytes := h ++ rest, arrived := [] }
            { s with threads := tmod (fun t => t.quay == quay && e.vec.contains t.slot && !e.arrived.contains t.slot)
                                  (fun t => { t with stamp := s.stamp }) s.threads }

/-! ### Admission (R160 to R165, R185, R359, R360, R397) -/

/-- `sy.ctx` of a context (R399). -/
def Ctx.word (c : Ctx) : Word :=
  BitVec.ofNat 64 (c.num + c.parent * 2 ^ 16 + c.depth * 2 ^ 37 + c.vfctx * 2 ^ 48 + if c.invf then 2 ^ 60 else 0)

/-- The trapped vector of a thread's workgroup (R368). -/
def State.trappedVec (s : State) (g : Nat) : BitVec 1024 :=
  s.threads.foldl (fun v t => if t.group == g && t.trapValid && t.st != .free then v ||| (1#1024 <<< t.tid) else v) 0

/-- System registers at block entry (R397). -/
def State.sysSnap (s : State) (t : Thread) : SysSnap :=
  let c := s.ctx t.runCtx
  { ctxw := c.word, trapvec := c.trapvec, traprec := t.traprec, fpctl := t.fpctl,
    scopepol := (c.allow ||| 1).zeroExtend 64, caps := c.caps, pgreq := c.pgreq, dlog := c.dlog,
    trapped := s.trappedVec t.group }

/-- The first register code of a block's entries that the thread may not name: budget 16, 32, 48 or 64 (R162). -/
def overBudget (b : Block) (t : Thread) : Option Nat :=
  ((b.reads ++ b.writes).map fun e => (e.extractLsb' 25 7).toNat).find? fun r => decide (r < 64) && decide (t.budget ≤ r)

/-- The first poisoned register a block reads (R374). -/
def poisonedRead (b : Block) (t : Thread) : Option Nat :=
  (b.reads.map fun e => (e.extractLsb' 25 7).toNat).find? fun r => t.regPoison.getLsbD r

/-- Deliver one read entry (R162, R185). -/
def deliverRead (t : Thread) (p : Pass) (e : BitVec 32) : Pass :=
  let v := t.reg (e.extractLsb' 25 7).toNat
  (readTargets e).foldl (fun p x =>
    match Port.ofCode x.2 with
    | some port => p.toPort x.1 port { data := v }
    | none => p) p

/-- The pass of a thread that enters a block (R185). -/
def State.newPass (s : State) (pl : Plane) (t : Thread) (tag : Nat) : Pass :=
  let p : Pass := { live := true, quay := pl.quay, slot := t.slot, plane := pl.plane, tag := tag, ctx := t.runCtx,
                    blk := pl.ba, block := pl.block, snap := s.sysSnap t, preds := t.p }
  pl.block.reads.foldl (deliverRead t) p

/-- Make a pass one of those in flight: the current one if there is none. -/
def State.addPass (s : State) (p : Pass) : State :=
  if s.pass.live then { s with parked := s.parked ++ [p] } else { s with pass := p }

/-- The pass of a plane's tag, removed from those in flight. -/
def State.dropPass (s : State) (q pl tag : Nat) : State :=
  let mine := fun (p : Pass) => p.live && p.quay == q && p.plane == pl && p.tag == tag
  let parked := s.parked.filter fun p => !mine p
  if mine s.pass then
    match parked with
    | p :: ps => { s with pass := p, parked := ps }
    | [] => { s with pass := {}, parked := [] }
  else { s with parked := parked }

/-- Return a tag (R165). -/
def State.freeTag (s : State) (q pl tag : Nat) : State :=
  let p := s.plane q pl
  s.setPlane { p with tags := p.tags.filter (·.1 != tag) }

/-- The accesses of other modules that a pass has under way, and the locations it holds there, end with it (R272): each
home is told the discard. -/
def State.endRemote (s : State) (p : Pass) : State :=
  let mine := fun (r : Remote) => match r.who with | .thread q sl _ _ => q == p.quay && sl == p.slot | _ => false
  let asked := (s.remotes.filter fun r => mine r && r.write).map fun r => (r.pa / 128, r.tag)
  let ends := (p.remoteHeld ++ asked).eraseDups.map fun h =>
    LinkOut.request (bitsOf (h.1 * 128) 44 8) h.2 (h.1 * 128) 0 (.endHold [])
  ({ s with remotes := s.remotes.filter fun r => !mine r } : State).sendLinks p.ctx ends

/-- What memory still owes the thread of a pass is dropped with the pass: requests stay, their answers serve nobody. -/
def State.forget (s : State) (p : Pass) : State :=
  let mine := fun (y : Waiter) => match y with | .thread q sl _ _ => q == p.quay && sl == p.slot | _ => false
  { s with reqs := s.reqs.map fun r => { r with who := r.who.filter fun y => !mine y },
           fills := s.fills.map fun f => { f with who := f.who.filter fun y => !mine y },
           answers := s.answers.filter fun a => !mine a.who }

/-- Turn back a thread in flight (R359): its pass ends uncommitted, it waits at the same block with a new stamp.  One whose
`exit` has sent its block's writes is past that (R271, R328). -/
def State.turnBack (s : State) (p : Pass) : State :=
  if p.leaving ≠ 0 then s
  else
    let s := (s.dropPass p.quay p.plane p.tag).freeTag p.quay p.plane p.tag
    let s := (s.endRemote p).forget p
    let s : State := { s with dev := { s.dev with err := { s.dev.err with replays := s.dev.err.replays + 1 } } }
    let t := s.thread p.quay p.slot
    (s.setThread { t with st := .waiting }).arrive p.quay p.slot (some p.plane)

/-- A plane gives up its block: the passes in flight are turned back, and it is free. -/
def State.unplane (s : State) (q p : Nat) : State :=
  ((((s.passes.filter fun x => x.quay == q && x.plane == p).foldl State.turnBack s).setPlane { quay := q, plane := p })).tidy q

/-- The passes of a restored plane go on in its block, refetched (R381, R390). -/
def State.replace (s : State) (q p : Nat) (b : Block) : State :=
  let f := fun (x : Pass) => if x.live && x.quay == q && x.plane == p then { x with unplaced := false, block := b } else x
  { s with pass := f s.pass, parked := s.parked.map f }

/-- The block of a restored plane with passes in flight is fetched through its context (R364, R381, R390); where that is
refused, or the block breaks R184, the passes are turned back, and meet the refusal as they wait for the block (R108). -/
def State.refetch (s : State) (p : Plane) : State :=
  let e : WvEntry := { quay := p.quay, e := 64 + p.plane, ba := p.ba, fctx := p.fctx }
  let y : Waiter := .fetch e.quay e.e
  let whole := fun (s : State) =>
    match s.fetchBytes e e.ba.toNat 12 2 with
    | .ok h s =>
      match s.fetchBytes e (e.ba.toNat + 12) (12 * blockWords (wordOfBytes h) - 12) 40 with
      | .ok bs s => Fetched.ok (h ++ bs) s
      | r => r
    | r => r
  if s.fetchWaits y then s
  else
    match whole s with
    | .stop s => s
    | .refused _ s => s.unplane p.quay p.plane
    | .ok bs s =>
      if (checkBlock bs).isSome then (s.dropFar y).unplane p.quay p.plane
      else
        let b := parseBlock bs
        (((s.dropFar y).setPlane { p with configured := true, block := b }).replace p.quay p.plane b).charge
          (meterQuay p.quay) p.fctx 14 b.words.length

/-- BLOCK_CONFIGURE (R184, R364, R390): the placer checks the block; a refused block traps every waiting thread with "illegal
block", an accepted one is configured and charged to the context of the oldest thread (R438); a restored plane's is refetched. -/
def execBlockConfigure (quay plane : Nat) (s : State) : Out :=
  .next <|
    let p := s.plane quay plane
    if p.st = .free ∨ p.configured = true then s
    else if s.passes.any fun x => x.quay == quay && x.plane == plane && x.unplaced then s.refetch p
    else if p.isOpen = false ∨ (s.entry quay p.entry).pinned = false then s
    else
      let e := s.entry quay p.entry
      match checkBlock e.bytes with
      | some k =>
        (s.setPlane { quay := quay, plane := plane }).trapEntry e
          { cause := 0x01, addr := e.ba, word := BitVec.ofNat 8 k }
      | none =>
        let b := parseBlock e.bytes
        let payer := match e.vec with
          | [] => e.fctx
          | sl :: sls =>
            (sls.foldl (fun b u => let u := s.thread quay u; if s.ageOf u > s.ageOf b then u else b) (s.thread quay sl)).runCtx
        (s.setPlane { p with configured := true, block := b }).charge (meterQuay quay) payer 14 b.words.length

/-- Whether an older thread is still to be admitted by an aged run: it admits in stamp order (R359). -/
def State.olderFirst (s : State) (p : Plane) (e : WvEntry) (t : Thread) : Bool :=
  e.vec.any fun u => p.mustAdmit.contains u && decide (s.ageOf t < s.ageOf (s.thread p.quay u))

/-- THREAD_ADMIT (R165, R185, R359, R360): a waiting thread of the plane's entry takes a tag and enters the block; a
delayed trap (R109, R271), a register over budget (R162) or a poisoned register (R374) traps it instead. While an entry is
aged, a non-aged run admits no one (R358). -/
def execThreadAdmit (quay plane slot : Nat) (s : State) : Out :=
  .next <|
    let pl := s.plane quay plane
    let e := s.entry quay pl.entry
    let aged := pl.st == .aged
    let t := s.thread quay slot
    if pl.isOpen = false ∨ pl.configured = false ∨ e.vec.contains slot = false ∨ s.fabricHalted quay = true ∨ s.coopHeld t = true ∨
        (aged = true ∧ (pl.mustAdmit.contains slot = false ∨ s.olderFirst pl e t = true)) ∨
        (aged = false ∧ (s.anyAged quay = true ∨ s.openTooLong pl = true)) then s
    else
      let limit := if aged then 256 else
        let n := (pl.block.h1.extractLsb' 88 8).toNat
        if n = 0 then 256 else n
      let before := s
      let admitted (s : State) : State :=
        let pl := s.plane quay plane
        s.setPlane { pl with mustAdmit := pl.mustAdmit.filter (· != slot) }
      let s := admitted s
      match t.late with
      | n :: ns => ((s.setThread { t with late := ns }).trapAtEntry quay slot e.ba n).tidy quay
      | [] =>
        match overBudget pl.block t, poisonedRead pl.block t with
        | some r, _ => (s.trapAtEntry quay slot e.ba { cause := 0x04, code := BitVec.ofNat 16 r }).tidy quay
        | none, some r => (s.trapAtEntry quay slot e.ba { cause := 0x24, code := BitVec.ofNat 16 r }).tidy quay
        | none, none =>
          -- an aged run takes the tag of its earliest thread in flight that can be turned back
          let s := if pl.tags.length < limit ∨ aged = false then s else
            match pl.tags.findSome? fun x => s.passes.find? fun p =>
                p.quay == quay && p.plane == plane && p.tag == x.1 && p.leaving == 0 with
            | some p => s.turnBack p
            | none => s
          let pl := s.plane quay plane
          if pl.tags.length ≥ limit then before
          else
            match (List.range 256).find? fun n => !pl.tags.any (·.1 == n) with
            | none => before
            | some tag =>
              let s := s.leaveEntries quay slot
              let p := s.newPass pl t tag
              let s := s.setThread { t with st := .active }
              let s := s.setPlane { pl with tags := pl.tags ++ [(tag, slot)] }
              (s.addPass p).tidy quay

/-- ENTRY_AGED (R358, R359): planes that hold another entry stop admitting. -/
def execEntryAged (quay entry : Nat) (s : State) : Out :=
  .next (if s.isAged (s.entry quay entry) then s.tidy quay else s)

/-- The lowest-numbered free plane of a quay. -/
def State.freePlane (s : State) (q : Nat) : Option Nat := (List.range 4).find? fun p => (s.plane q p).st == .free

/-- COALESCE_HOLD_END (R358): an entry that the hold no longer keeps back makes the lowest free plane choose. -/
def execCoalesceHoldEnd (quay entry : Nat) (s : State) : Out :=
  let e := s.entry quay entry
  if s.entryValid quay entry && e.pinned && !(s.waiting e).isEmpty && !s.heldEntry e && !s.openEntry quay entry then
    match s.freePlane quay with
    | some p => execPlaneChoose quay p s
    | none => .next s
  else .next s

/-- RUN_OPEN_TIMEOUT (R359): a non-aged run open for 1,024 cycles stops while another entry waits. -/
def execRunOpenTimeout (quay plane : Nat) (s : State) : Out :=
  let p := s.plane quay plane
  .next <|
    if s.openTooLong p = true then
      (s.setPlane { p with st := .draining, drainSince := s.clock }).tidy quay
    else s

/-- DRAIN_TIMEOUT (R359): a plane that has drained 1,024 cycles, or 32 while an entry is aged, turns back every thread
still in flight. -/
def execDrainTimeout (quay plane : Nat) (s : State) : Out :=
  let p := s.plane quay plane
  .next <|
    if p.st = .draining ∧ (s.clock ≥ p.drainSince + 1024 ∨ (s.anyAged quay = true ∧ s.clock ≥ p.drainSince + 32)) then
      ((s.passes.filter fun x => x.quay == quay && x.plane == plane).foldl State.turnBack s).tidy quay
    else s

/-- BOLLARD_WEIGHT_UPDATE (R362): each operator's weight is 1 + ⌊14 · o / m⌋ of the tokens that waited. -/
def execBollardWeightUpdate (quay bollard : Nat) (waiting : List Nat) (s : State) : Out :=
  let m := max 1 (waiting.foldl max 0)
  let b := tget (fun x => x.quay == quay && x.n == bollard) { quay := quay, n := bollard } s.bollards
  .next { s with bollards := tset (fun x => x.quay == quay && x.n == bollard)
                   { b with weights := waiting.map fun o => 1 + 14 * o / m } s.bollards }

end Sys2Proof.Machine
end

