-- ==== Sys2Proof/Machine/Window.lean ====
section
/-! DEFINITION. Writes of the control window: format regions (R63 to R65), NETPOL (R131), the domain registers (R449). -/

namespace Sys2Proof.Machine

/-! ### Format regions (R63 to R65) -/

/-- Replace a region. -/
def State.setRegion (s : State) (g : FmtRegion) : State :=
  { s with fmt := tset (fun x => x.die == g.die && x.r == g.r) g s.fmt }

/-- Set the ERR field of a region's CTL (R63). -/
def FmtRegion.withErr (g : FmtRegion) (code : Nat) : FmtRegion :=
  { g with ctl := (g.ctl &&& ~~~(0x3F#64 <<< 56)) ||| (BitVec.ofNat 64 code <<< 56) }

/-- Bits of CTL that software writes: EN, FMT, GS. -/
def ctlMask : Word := (1#64 <<< 63) ||| 0xFF0

/-- Whether a range lies in the software memory of a slice of die `die` of module `mod` (R57, R64). -/
def inSoftware (mod die pa n : Nat) : Bool :=
  (List.range 16).any fun a =>
    (List.range 16).any fun b =>
      let lo := mod * 2 ^ 44 + die * 2 ^ 37 + a * 2 ^ 33
      let hi := mod * 2 ^ 44 + die * 2 ^ 37 + b * 2 ^ 33
      a == b && decide (lo ≤ pa) && decide (pa + n ≤ hi + softEnd)

/-- Slice of an HBM address, 16 · die + i. -/
def sliceOf (pa : Nat) : Nat := bitsOf pa 37 3 * 16 + bitsOf pa 33 4

/-- ERR 4 to 8 of an enable (R64). -/
def State.enableErr (s : State) (g : FmtRegion) : Option Nat :=
  let sl := g.storedLen
  let cl := g.scaleLen
  let mod := s.domain.mod.toNat
  if g.vpages = 0 ∨ g.vpages > 131072 then some 4
  else if g.sbase % 65536 ≠ 0 ∨ inSoftware mod g.die g.sbase sl = false then some 5
  else if g.cbase % 128 ≠ 0 ∨ inSoftware mod g.die g.cbase cl = false then some 6
  else if overlaps g.sbase sl g.cbase cl ∨ s.regionOver g.sbase sl (·.en) = true ∨ s.regionOver g.cbase cl (·.en) = true then
    some 7
  else if s.partOfSlice (sliceOf g.sbase) ≠ s.partOfSlice (sliceOf g.cbase) then some 8
  else none

/-- First line number and number of lines of a region's view (R61). -/
def FmtRegion.viewLines (g : FmtRegion) (mod : Nat) : Nat × Nat :=
  ((mod * 2 ^ 44 + 8 * 2 ^ 40 + g.die * 2 ^ 37 + g.r * 2 ^ 33) / 128, g.vpages * 512)

/-- Whether a view page of the region has a freeze count above 0 (R64, ERR 9). -/
def State.viewFrozen (s : State) (g : FmtRegion) : Bool :=
  let v := g.viewLines s.domain.mod.toNat
  s.frz.any fun f => decide (v.1 ≤ f.page * 512) && decide (f.page * 512 < v.1 + v.2) && decide (0 < f.count.toNat)

/-- Freeze entries of the region's view pages are gone (R90): every entry of a disabled region reads 0. -/
def State.dropViewFrz (s : State) (g : FmtRegion) : State :=
  let v := g.viewLines s.domain.mod.toNat
  { s with frz := s.frz.filter fun f => !(decide (v.1 ≤ f.page * 512) && decide (f.page * 512 < v.1 + v.2)) }

/-- A write of CTL (R64): refused with a code, accepted, or the start of an enable or disable.  While EN is 1 a write counts as
one to FMT or GS where it changes their values (log entry 62). -/
def State.ctlWrite (s : State) (g : FmtRegion) (v : Word) : State :=
  let fmt := (v.extractLsb' 8 4).toNat
  let gs := (v.extractLsb' 4 4).toNat
  let want := v.getLsbD 63
  let new : FmtRegion := { g with ctl := (g.ctl &&& ~~~ctlMask &&& ~~~(0x3F#64 <<< 56)) ||| (v &&& ctlMask) }
  let hold : FmtRegion := { new with ctl := (new.ctl &&& ~~~(1#64 <<< 63)) ||| (1#64 <<< 62) ||| (g.ctl &&& (1#64 <<< 63)) }
  let refuse (c : Nat) : State := s.setRegion (g.withErr c)
  if g.busy then refuse 1
  else if v.extractLsb' 12 44 ≠ 0 ∨ v.extractLsb' 0 4 ≠ 0 then refuse 10
  else if g.en = true ∧ (fmt ≠ g.fmtc ∨ gs ≠ g.gs) then refuse 1
  else if fmt > 6 then refuse 2
  else if gs > 8 then refuse 3
  else if want = true ∧ g.en = false then
    match s.enableErr new with
    | some c => refuse c
    | none => s.setRegion { hold with turningOn := true }
  else if want = false ∧ g.en = true then
    if s.viewFrozen g then refuse 9 else s.setRegion { hold with turningOn := false }
  else s.setRegion new

/-- A write of STORE, SIZE or SCALE (R63, R64). -/
def State.regionWrite (s : State) (g : FmtRegion) (k : Nat) (v : Word) : State :=
  let bad : Bool := if k = 16 then v.extractLsb' 18 46 != 0 else v.extractLsb' 52 12 != 0
  if g.busy then s.setRegion (g.withErr 1)
  else if bad then s.setRegion (g.withErr 10)
  else if g.en then s.setRegion (g.withErr 1)
  else
    let g := g.withErr 0
    s.setRegion (match k with
      | 8 => { g with store := v }
      | 16 => { g with size := v }
      | _ => { g with scale := v })

/-- FMT_REGION_ENABLE (R64, R65): a write of CTL that asks for EN. -/
def execFmtRegionEnable (die region : Nat) (v : Word) (s : State) : Out :=
  .next (s.ctlWrite (s.region die region) (v ||| (1#64 <<< 63)))

/-- FMT_REGION_DISABLE (R64, R65): a write of CTL that withdraws EN. -/
def execFmtRegionDisable (die region : Nat) (v : Word) (s : State) : Out :=
  .next (s.ctlWrite (s.region die region) (v &&& ~~~(1#64 <<< 63)))

/-- FMT_REGION_BUSY_CLEAR (R65, R96): every line of the stored range and scale region, or of the view, is called home;
once all are there EN takes its new value and BUSY clears. -/
def execFmtRegionBusyClear (die region : Nat) (s : State) : Out :=
  .next <|
    let g := s.region die region
    if g.busy = false then s
    else
      let r : Bool × State :=
        if g.turningOn then
          let a := (s.payBy 0).wantRange (g.sbase / 128) (g.storedLen / 128)
          let b := a.2.wantRange (g.cbase / 128) ((g.scaleLen + 127) / 128)
          (a.1 && b.1, b.2)
        else
          let v := g.viewLines s.domain.mod.toNat
          (s.payBy 0).wantRange v.1 v.2
      if r.1 then
        let c := g.ctl &&& ~~~(3#64 <<< 62)
        let s := if g.turningOn then r.2 else r.2.dropViewFrz g
        (s.setRegion { g with ctl := if g.turningOn then c ||| (1#64 <<< 63) else c }).unpark
      else r.2

/-! ### NETPOL (R131) -/

/-- NETPOL_WRITE (R131): on every die; reserved bits or a preset above 3 make it ignored. -/
def execNetpolWrite (part : Nat) (v : Word) (s : State) : Out :=
  .next <|
    if v.extractLsb' 24 40 ≠ 0 ∨ (v.extractLsb' 20 4).toNat > 3 ∨ part ≥ 32 then s
    else { s with netpol := kvSet part v s.netpol }

/-! ### The module number (R56, R57, R449) -/

/-- A number of lines, pages or bytes under another module number: `sh` is log2 of the unit. -/
def atMod (old new sh k : Nat) : Nat :=
  if k / 2 ^ (44 - sh) = old then k % 2 ^ (44 - sh) + new * 2 ^ (44 - sh) else k

/-- A message in flight under another module number. -/
def NetMsg.atMod (old new : Nat) (m : NetMsg) : NetMsg :=
  let line := Machine.atMod old new 7
  match m.body with
  | .sweep _ _ => { m with line := Machine.atMod old new 16 m.line }
  | .swack _ => { m with line := Machine.atMod old new 16 m.line }
  | .uncached b pa src tag gen since => { m with line := line m.line, body := .uncached b (Machine.atMod old new 0 pa) src tag gen since }
  | _ => { m with line := line m.line }

/-- A format region at work under another module number; the registers of one that is off stay as they were written. -/
def FmtRegion.atMod (old new : Nat) (g : FmtRegion) : FmtRegion :=
  if g.en || g.busy then
    { g with store := BitVec.ofNat 64 (Machine.atMod old new 0 g.sbase), scale := BitVec.ofNat 64 (Machine.atMod old new 0 g.cbase) }
  else g

/-- The module takes another number (R449): what its slices and dies hold is found under the addresses of the new number
(R57); addresses in tables, translations and accesses under way stay what they are (log entry 63). -/
def State.moveMod (s : State) (new : Nat) : State :=
  let old := s.domain.mod.toNat
  let at0 := Machine.atMod old new 0
  let line := Machine.atMod old new 7
  let page := Machine.atMod old new 16
  { s with
    domain := { s.domain with mod := BitVec.ofNat 8 new },
    mem := s.mem.foldl (fun m c => Mem.write m (at0 c.1) c.2) [],
    poisoned := s.poisoned.map line,
    dir := s.dir.map fun e => { e with line := line e.line },
    copies := s.copies.map fun c => { c with line := line c.line },
    reqs := s.reqs.map fun r => { r with line := line r.line },
    answers := s.answers.map fun a => { a with line := line a.line },
    replicas := (s.replicas.filter fun r => bitsOf (r.line * 128) 44 8 != new).map fun r => { r with line := line r.line },
    net := s.net.map (NetMsg.atMod old new), homeWait := s.homeWait.map (NetMsg.atMod old new),
    collecting := s.collecting.map line,
    recalls := s.recalls.map fun r => (at0 r.1, r.2),
    pers := s.pers.map fun p => { p with line := line p.line },
    frz := s.frz.map fun f => { f with page := page f.page },
    gens := s.gens.map fun g => { g with page := page g.page },
    genWait := s.genWait.map page,
    sweeps := s.sweeps.map fun w => { w with page := page w.page },
    pageOrder := s.pageOrder.map fun p => (page p.1, p.2),
    farPages := s.farPages.map fun p => { p with pa := at0 p.pa },
    areaDue := s.areaDue.map fun x => (at0 x.1, x.2),
    remoteHolds := s.remoteHolds.map fun h => { h with line := line h.line },
    fmt := s.fmt.map (FmtRegion.atMod old new),
    ctxs := s.ctxs.map fun c => { c with save := at0 c.save },
    dev := { s.dev with capsAt := s.dev.capsAt.map at0 } }

/-- A write of the register of EN and MOD (R449): MOD changes only while EN is 0. -/
def State.domainWrite (s : State) (v : Word) : State :=
  let mod := (v.extractLsb' 0 8).toNat
  let s := if s.domain.en ∨ mod = s.domain.mod.toNat then s else s.moveMod mod
  { s with domain := { s.domain with en := v.getLsbD 63 } }

/-- A write of a module's route (R449); one that sets V begins the time in which the peer must be heard anew (log entry 96). -/
def State.routeWrite (s : State) (m : Nat) (v : Word) : State :=
  let r : Word := v &&& ((1#64 <<< 63) ||| 0x3F)
  let d := s.domain
  let heard := if r.getLsbD 63 && !(d.routes.any fun x => x.1 == m && x.2.getLsbD 63) then kvSet m s.clock d.lastFrame else d.lastFrame
  { s with domain := { d with routes := kvSet m r d.routes, lastFrame := heard } }

/-! ### The window as a whole (R66) -/

/-- Set 64 of a 256-bit mask. -/
def setQuarter (m : BitVec 256) (k : Nat) (v : Word) : BitVec 256 :=
  (m &&& ~~~((BitVec.allOnes 64).zeroExtend 256 <<< (64 * k))) ||| (v.zeroExtend 256 <<< (64 * k))

/-- A 64-bit write of the control window of a die (R63, R66, R131, R426, R449): offsets without a writable register
ignore it. -/
def State.controlWrite (s : State) (die off : Nat) (v : Word) : State :=
  if 0x1000 ≤ off ∧ off < 0x1200 then
    let g := s.region die ((off - 0x1000) / 32)
    match off % 32 with
    | 0 => s.ctlWrite g v
    | 8 => s.regionWrite g 8 v
    | 16 => s.regionWrite g 16 v
    | 24 => s.regionWrite g 24 v
    | _ => s
  else if 0x3000 ≤ off ∧ off < 0x3100 ∧ off % 8 = 0 then
    let part := (off - 0x3000) / 8
    if v.extractLsb' 24 40 ≠ 0 ∨ (v.extractLsb' 20 4).toNat > 3 then s else { s with netpol := kvSet part v s.netpol }
  else if off = 0x4000 then s.domainWrite v
  else if 0x4100 ≤ off ∧ off < 0x4900 ∧ off % 8 = 0 then s.routeWrite ((off - 0x4100) / 8) v
  else if 0x4900 ≤ off ∧ off < 0x4D00 ∧ off % 8 = 0 then
    let p := (off - 0x4900) / 32
    let old := ((s.domain.rmask.find? fun x => x.1 == p).map (·.2)).getD 0
    { s with domain := { s.domain with rmask := kvSet p (setQuarter old ((off - 0x4900) % 32 / 8) v) s.domain.rmask } }
  else s

/-- CONTROL_WINDOW_WRITE (R66). -/
def execControlWindowWrite (die off : Nat) (v : Word) (s : State) : Out := .next (s.controlWrite die off v)

end Sys2Proof.Machine
end

