-- ==== Sys2Proof/Machine/Banks.lean ====
section
/-! DEFINITION. Writes that reach memory outside a firing: the vault banks (R138 to R150), memory written by the
hardware in a context's name, and completion objects (R121). -/

namespace Sys2Proof.Machine

/-! ### Vault banks -/

/-- What a bank says to a write. -/
inductive BankSays where
  | go | wait
  | fill (line : Nat) (r : Region)
  | refuse (cause : BitVec 8)
  deriving DecidableEq, Repr, Inhabited

/-- Regions of a quay that meet a vault range. -/
def State.regionsOver (s : State) (q off n : Nat) : List Region :=
  s.regions.filter fun r => r.quay == q && overlaps off n (r.vpg * 4096) ((r.npg + 1) * 4096)

/-- A line of the range that must be filled first (R141): in a mapped region, with V = 0. -/
def State.lineToFill (s : State) (q off n : Nat) : Option (Nat × Region) :=
  let try1 := fun (o : Nat) =>
    match s.regionAt q o with
    | some r => if r.mapped && r.st != .unmapping && !(s.vmeta (vline q o)).v then some (vline q o, r) else none
    | none => none
  match try1 off with
  | some x => some x
  | none => try1 (off + n - 1)

/-- The checks of a write of `n` bytes at a bank (R142, R144, R146, R272): `fabric` for stores and atomics, `refs` for an
operation that holds a reference on a buffer of the range (R146), `held` where another hold covers it, `mine` the buffers
whose seal waits for this very write (R144). -/
def State.bankWrite (s : State) (q off n : Nat) (fabric refs held : Bool) (mine : Region → Bool := fun _ => false) :
    BankSays :=
  let rs := (s.regionsOver q off n).filter fun r => !(r.st == .sealing && mine r)
  if fabric && rs.any (fun r => r.mapped && !r.w) then .refuse cReadOnly
  else if rs.any (fun r => !r.mapped && (r.st == .sealing || r.st == .sealed || (refs && r.st == .unsealing))) then
    .refuse cSealed
  else if rs.any (fun r => r.st == .unmapping || r.st == .unsealing) || held then .wait
  else
    match s.lineToFill q off n with
    | some (l, r) => if n = 128 ∧ off % 128 = 0 then .go else .fill l r
    | none => .go

/-- What the banks of several parts of one write say: a refusal first, then a wait, then a fill. -/
def allSay (l : List BankSays) : BankSays :=
  let rank := fun (b : BankSays) => match b with | .refuse _ => 3 | .wait => 2 | .fill _ _ => 1 | .go => 0
  l.foldl (fun a b => if rank a < rank b then b else a) .go

/-- Offset of a vault line key within its quay's vault. -/
def lineOff (key : Nat) : Nat := key % 2 ^ 17 * 128

/-- Quay of a vault line key. -/
def lineQuay (key : Nat) : Nat := key / 2 ^ 17

/-- Raise an object in a vault (R121, R150): 16 bytes read and 16 written, for a context (R435, R438). -/
def State.vRaise (s : State) (q off c st : Nat) : State :=
  let o : BitVec 128 := BitVec.ofNat 128 (leNat (s.vread q off 16))
  (s.charge (meterQuay q) c 8 32).vstore q off (leBytes 16 (raiseObject o st).toNat) false

/-- Raise an object in global memory (R121). -/
def State.gRaise (s : State) (pa st : Nat) : State :=
  let o : BitVec 128 := BitVec.ofNat 128 (leNat (s.gbytes pa 16))
  s.gwrite pa (leBytes 16 (raiseObject o st).toNat) false

/-! ### Memory written by the hardware in a context's name -/

/-- Write bytes that lie in one line. -/
def State.hwWrite (s : State) (y : Waiter) (c va : Nat) (bs : List Byte) : HwDone :=
  s.hwChange y c va (fun s a => s.gwrite a bs false) fun s m a g => s.askFar y m a bs.length g true none (.store bs false)

/-- Change `n` bytes that lie in one line as one atomic; where `strict` is set poisoned data is a fault (R71). -/
def State.hwUpdate (s : State) (y : Waiter) (c va n : Nat) (f : List Byte → List Byte) (strict : Bool := false) : HwDone :=
  s.hwChange y c va (fun s a => s.gwrite a (f (s.gbytes a n)) false) (fun s m a g => s.farUpdate y m a n g f strict) strict

/-- The bytes of a completion object after a raise (R121). -/
def raisedBytes (st : Nat) (bs : List Byte) : List Byte :=
  leBytes 16 (raiseObject (BitVec.ofNat 128 (leNat bs)) st).toNat

/-- Raise an object of a context's space. -/
def State.hwRaise (s : State) (y : Waiter) (c va st : Nat) : HwDone := s.hwUpdate y c va 16 (raisedBytes st)

end Sys2Proof.Machine
end

