-- ==== Sys2Proof/Machine/Translation.lean ====
section
/-! DEFINITION. Walks, page requests and their answers, translation caches, generations (R103 to R113, R510). -/

namespace Sys2Proof.Machine

/-! ### Waiters -/

/-- Whether anything still waits for a walk or a page request on behalf of `y`. -/
def State.someWait (s : State) (y : Waiter → Bool) : Bool :=
  s.walks.any (fun w => w.misses.any fun m => y m.who) || s.pgreqs.any fun r => r.who.any fun x => y x.1

/-- A waiter that is the thread of a slot. -/
def ofThread (q sl : Nat) (y : Waiter) : Bool :=
  match y with
  | .thread a b _ _ => a == q && b == sl
  | .object a b => a == q && b == sl
  | _ => false

/-- Ask for the fill of a vault line for an access that is no instruction of a pass (R141): a miss walks, and a refusal of
the home is the answer; none while the fill is on its way. -/
def State.fillFor (s : State) (y : Waiter) (line : Nat) (g : Region) : Option (BitVec 8) × State :=
  let va := g.vaOf (lineOff line)
  let vq := lineQuay line
  match s.tlbHit vq g.ctx va false with
  | some x =>
    match s.answerOf (copyHolder vq) ((x.xlate va).pa / 128) y false with
    | some a => (some a.cause, s.clearAnswer a)
    | none => (none, (s.touch x).askFill vq line y)
  | none =>
    (none, if s.someWait (· == y) then s else s.addMiss g.ctx { who := y, quay := vq, kind := .engRead, va := va })

/-- The offset at which the record is written (R259). -/
def GredCell.offset (c : GredCell) : Option Nat := match c.contribOff with | some o => some o | none => c.anyOff

/-- Whether a cell's record waits for the page of a virtual address: that of the mapped line it is written in. -/
def State.gredAt (s : State) (c : GredCell) (va : Nat) : Bool :=
  c.offset.any fun off => (s.regionAt c.quay off).any fun r => r.mapped && r.vaOf off / 65536 == va / 65536

/-- A thread blocked on a fault becomes WAITING once nothing holds it any more (R163, R108). -/
def State.unblock (s : State) (q sl : Nat) : State :=
  let t := s.thread q sl
  if t.st = .blocked ∧ t.on = .fault ∧ s.someWait (ofThread q sl) = false then
    (s.setThread { t with st := .waiting, on := .none }).arrive q sl none
  else s

/-- Every stalled pass looks again. -/
def State.wakePasses (s : State) : State :=
  { s with pass := { s.pass with stalled := false, waitLoc := none },
           parked := s.parked.map fun p => { p with stalled := false, waitLoc := none } }

/-- Change the pass of a slot, in flight. -/
def State.modPass (s : State) (q sl : Nat) (f : Pass → Pass) : State :=
  let mine := fun (p : Pass) => p.live && p.quay == q && p.slot == sl
  { s with pass := if mine s.pass then f s.pass else s.pass, parked := tmod mine f s.parked }

/-- Let a released write that waited for its translation go on. -/
def State.modHead (s : State) (q sl : Nat) (f : PendWrite → PendWrite) : State :=
  let t := s.thread q sl
  match t.released with
  | r :: rs => s.setThread { t with released := f r :: rs }
  | [] => s

/-- Change an engine operation. -/
def State.modOp (s : State) (id : Nat) (f : EngOp → EngOp) : State := { s with ops := tmod (fun o => o.id == id) f s.ops }

/-! ### Walks (R107) -/

/-- Accesses that need W (R101). -/
def AccKind.needsW : AccKind → Bool
  | .store | .atomic | .engWrite | .committed => true
  | _ => false

/-- Code of a KIND (R112). -/
def AccKind.code : AccKind → Nat
  | .load => 0 | .store => 1 | .atomic => 2 | .fetch => 3 | .engRead => 4 | .engWrite => 5 | .committed => 6
  | .walkRead => 7

/-- WALK_START (R107): a free walker of the die takes the oldest miss. -/
def execWalkStart (die : Nat) (s : State) : Out :=
  .next <|
    if (s.walks.countP fun w => w.die == die && w.running) ≥ 4 then s
    else
      match s.walks.find? fun w => w.die == die && !w.running with
      | none => s
      | some w =>
        { s with walks := tset (fun x => x.die == die && !x.running) { w with running := true } s.walks }

/-- Install a translation (R106): 256 entries a quay, the least recently used one making room. -/
def State.fillTlb (s : State) (q c va : Nat) (x : Xlate) : State :=
  let size := if (s.ctx c).dlog.getLsbD 0 then min 16 x.size else x.size
  let o := va % 2 ^ size
  let e : TlbEntry := { quay := q, ctx := c, va := va - o, size := size, pa := x.pa - o, ipa := x.ipa - o, w := x.w,
                        x := x.x, gen := x.gen, filled := s.clock, used := s.clock }
  let rest := s.tlb.filter fun y => !(y.quay == q && y.ctx == c && y.va == e.va && y.size == e.size)
  let rest :=
    if (rest.countP fun y => y.quay == q) ≥ 256 then
      match rest.filter fun y => y.quay == q with
      | [] => rest
      | y :: ys => rest.erase (ys.foldl (fun a b => if b.used < a.used then b else a) y)
    else rest
  { s with tlb := rest ++ [e] }

/-- What the walk gives a miss, `held` while a home holds it back (R104, R107). -/
def State.walkEnd (s : State) (c : Nat) (m : Miss) : WalkRes :=
  match s.walk c m.va m.kind.needsW (m.kind == .fetch) with
  | .ok t =>
    match m.refused with
    | some g => if t.gen = g then .ok t else .fail (t.staleFail c m.va false)
    | none => .ok t
  | .fail f => .fail { f with cause := if m.refused.isSome && f.cause == 0 then 2 else f.cause }
  | .held | .far _ _ _ => .held

/-- A write goes on with the page that a walk found, which is logged first (R115): it waits while the log cannot be written. -/
def State.relocate (s : State) (c : Nat) (m : Miss) (k : State → State) : HwDone :=
  ((s.tlbHit m.quay c m.va true).elim (.done s) fun e => s.sawWrite m.quay c e m.va).andThen fun s => .done (k s)

/-- A buffered store of an instruction, at the place that a walk after a stale refusal found (R104). -/
def PendWrite.moved (r : PendWrite) (idx va : Nat) (x : Xlate) : PendWrite :=
  if r.idx = idx ∧ r.va.toNat = va then { r with loc := .glob x.pa, gen := x.gen } else r

/-- A waiter goes on after a walk that gave `x` (R104, R108, R109): a store that was stale, committed or in its commit step, takes
the page the walk found. -/
def State.goOn (s : State) (c : Nat) (m : Miss) (x : Xlate) : HwDone :=
  match m.who with
  | .thread q sl _ idx =>
    let s := s.unblock q sl
    if m.refused.isSome && s.passes.any (fun p => p.quay == q && p.slot == sl && p.stores.any fun r => r.idx == idx && r.va.toNat == m.va)
    then s.relocate c m fun s => s.modPass q sl fun p => { p with stores := p.stores.map fun r => r.moved idx m.va x }
    else .done s
  | .write q sl =>
    match m.kind with
    | .committed => s.relocate c m fun s => s.modHead q sl fun r => { r with loc := .glob x.pa, gen := x.gen, waiting := false }
    | _ => .done (s.modHead q sl fun r => { r with waiting := false })
  | .op id => .done (s.modOp id fun o => { o with waiting := false })
  | .object _ _ | .fetch _ _ | .queue _ _ | .launch _ | .fill _ _ | .watch _ | .node _ _ | .append _ | .group _ | .handler _ _
  | .tables _ | .dlog _ _ => .done s

/-- A queue processor's access, whose page request is its own alone (R506). -/
def Waiter.processor : Waiter → Bool
  | .queue _ _ | .launch _ => true
  | _ => false

/-- Open or join a page request for a miss (R110): none where the quay's 64 trackers are in use. -/
def State.openRequest (s : State) (c : Nat) (m : Miss) (f : WalkFail) : Option State :=
  let owner := if f.stage2 then (s.ctx c).parent else c
  let me : Waiter × Word := (m.who, BitVec.ofNat 64 f.addr)
  let key := fun (r : PgReq) =>
    r.quay == m.quay && r.owner == owner && r.stage2 == f.stage2 && r.page == f.addr / 65536 && !r.acked &&
      r.who.all fun y => if m.who.processor || y.1.processor then y.1 == m.who else true
  if s.pgreqs.any key then
    some { s with pgreqs := tmod key (fun r => if r.who.contains me then r else { r with who := r.who ++ [me] }) s.pgreqs }
  else if (s.pgreqs.countP fun r => r.quay == m.quay) ≥ 64 then none
  else
    let (id, s) := s.fresh
    let r : PgReq := { id := id, quay := m.quay, ctx := c, owner := owner, stage2 := f.stage2, page := f.addr / 65536,
                       addr := BitVec.ofNat 64 f.addr, kind := if f.walkRead then .walkRead else m.kind, cause := f.cause,
                       level := f.level, who := [me] }
    some { s with pgreqs := s.pgreqs ++ [r] }

/-- A store that was stale in the commit step and now waits on a page request (R104, R108): its pass does not commit. -/
def State.bubble (s : State) (m : Miss) : State :=
  match m.who with
  | .thread q sl _ _ =>
    if m.refused.isSome then
      s.modPass q sl fun p => if p.resolved && p.leaving == 0 then { p with notReady := true, resolved := false, stalled := false } else p
    else s
  | _ => s

/-- One miss of a walk that ended: served, or left for later. -/
def State.serveMiss (c : Nat) (r : State × List Miss) (m : Miss) : State × List Miss :=
  match r.1.walkEnd c m with
  | .held | .far _ _ _ => (r.1, r.2 ++ [m])
  | .ok x =>
    match (r.1.fillTlb m.quay c m.va x).goOn c m x with
    | .done s => (s, r.2)
    | .wait s => (s, r.2 ++ [m])
    | .fault => (r.1, r.2 ++ [m])
  | .fail f =>
    match r.1.openRequest c m f with
    | some s => (s.bubble m, r.2)
    | none => (r.1, r.2 ++ [m])

/-- The `n`-th running walk of a die. -/
def State.runningWalk (s : State) (die n : Nat) : Option Walk :=
  (s.walks.filter fun w => w.die == die && w.running)[n]?

/-- The misses of a walk that has ended (R104, R106 to R110). -/
def State.endWalk (s : State) (w : Walk) : State :=
  let s : State := { s with walks := s.walks.erase w }
  let s := match w.misses with
    | [] => s
    | m :: _ => s.chargeWalk (32 * w.die) w.ctx w.ctx m.va
  let (s, left) := w.misses.foldl (State.serveMiss w.ctx) (s, [])
  ((if left.isEmpty then s else { s with walks := s.walks ++ [{ w with misses := left, running := false }] }).dropFar
    (.tables w.ctx)).wakePasses

/-- WALK_COMPLETE (R88, R104, R106 to R110): once each entry is read at its home, with the owner token there, or at another
module's: for each miss merged into the walk, a translation fills its quay's cache and the waiter goes on, or a failure opens or
joins a page request; what finds no free tracker or a held page walks again. -/
def execWalkComplete (die n : Nat) (s : State) : Out :=
  .next <|
    match s.runningWalk die n with
    | none => s
    | some w =>
      let va := (w.misses.headD default).va
      let o := s.walkOwned w.ctx va
      if o.1 = false ∧ w.misses.isEmpty = false then o.2
      else
        match s.walk w.ctx va false false with
        | .far m pa g => if w.misses.isEmpty then s.endWalk w else s.askTable w.ctx m pa g
        | _ => s.endWalk w

/-! ### Page requests (R111, R112, R510) -/

/-- The threads that wait on a request (R112): those of an entry whose block is fetched, the thread of an operation or a
write; each once. -/
def State.waitingThreads (s : State) (r : PgReq) : List (Nat × Nat) :=
  (r.who.flatMap fun y =>
    match y.1 with
    | .thread q sl _ _ | .object q sl | .write q sl => [(q, sl)]
    | .fetch q e => if e < 64 then (s.entry q e).vec.map fun sl => (q, sl) else (s.plane q (e - 64)).tags.map fun x => (q, x.2)
    | .op id => (s.ops.filter fun o => o.id == id).filterMap fun o => o.slot.map fun sl => (o.quay, sl)
    | .queue _ _ | .launch _ | .fill _ _ | .watch _ | .node _ _ | .append _ | .group _ | .handler _ _ | .tables _ | .dlog _ _ =>
      []).eraseDups

/-- The record of R112. -/
def PgReq.record (r : PgReq) (threads reqid clock : Nat) : BitVec 256 :=
  r.addr ++ BitVec.ofNat 16 r.ctx ++ BitVec.ofNat 16 r.owner ++ BitVec.ofNat 16 reqid ++ BitVec.ofNat 8 r.quay ++
    BitVec.ofNat 4 r.kind.code ++ r.cause ++ (if r.stage2 then 1#1 else 0#1) ++
    BitVec.ofNat 13 (min 4096 (max 1 threads)) ++ 0#47 ++ BitVec.ofNat 3 r.level ++ BitVec.ofNat 64 clock

/-- Replace a page request. -/
def State.setReq (s : State) (r : PgReq) : State := { s with pgreqs := tset (fun x => x.id == r.id) r s.pgreqs }

/-- The context whose queue takes the requests of `c`: itself or its nearest ancestor with an enabled queue (R111). -/
def State.pgTarget (s : State) : Option Nat → Nat → Option Nat
  | none, _ | some _, 0 => none
  | some c, fuel + 1 => if (s.ctx c).pgreq.getLsbD 0 then some c else s.pgTarget (s.parentOf c) fuel

/-- A step of an append faults (R111): the owner's EN is cleared and the request goes on up the tree.  The steps already
performed stand (log entry 57). -/
def State.appendFault (s : State) (c : Nat) (r : PgReq) : State :=
  let x := s.ctx c
  ((s.dropFar (.append r.id)).setCtx { x with pgreq := x.pgreq &&& ~~~1#64 }).setReq
    { r with queue := none, reqid := none, step := 0 }

/-- The register that an append goes by: that of its owner as it began (R398). -/
def PgReq.register (r : PgReq) (s : State) (c : Nat) : Word := if r.step = 0 then (s.ctx c).pgreq else r.pgreg

/-- The next of the three steps of an append at context `c` (R111, R510): the record, then TAIL, then the object; each is a write
for which its home gathers every token (R85, R88), and begins once the one before it is performed. -/
def State.appendStep (s : State) (c : Nat) (r : PgReq) : State :=
  let y : Waiter := .append r.id
  let pg := r.register s c
  let base := (pg.extractLsb' 12 44).toNat * 4096
  let n := 2 ^ ((pg.extractLsb' 8 4).toNat + 4)
  let fin (d : HwDone) (f : PgReq → PgReq) : State :=
    match d with
    | .done s => (s.dropFar y).setReq (f r)
    | .wait s => s
    | .fault => s.appendFault c r
  match r.step with
  | 0 =>
    match s.hwLook y c base 8 with
    | .wait s => s
    | .refused _ s | .stale _ s => s.appendFault c r
    | .ok tb _ s =>
      match s.hwLook y c (base + 0x80) 8 with
      | .wait s => s
      | .refused _ s | .stale _ s => s.appendFault c r
      | .ok hb _ s =>
        let tail := leNat tb
        if tail - leNat hb ≥ n then s.dropFar y
        else
          fin (s.hwWrite y c (base + 0x100 + 32 * (tail % n))
              (leBytes 32 (r.record (s.waitingThreads r).length tail s.clock).toNat) |>.andThen fun s =>
                .done ((s.chargeLook y c base).chargeLook y c (base + 0x80)))
            fun r => { r with queue := some c, pgreg := pg, reqid := some (BitVec.ofNat 16 tail), step := 1 }
  | 1 => fin (s.hwUpdate y c base 8 fun bs => leBytes 8 (leNat bs + 1)) fun r => { r with step := 2 }
  | _ =>
    let s' := fin (s.hwRaise y c (base + 0xF0) 0) fun r => { r with step := 3 }
    if r.acked then { s' with pgreqs := s'.pgreqs.filter fun x => !(x.id == r.id && x.step == 3) } else s'

/-- A request above the root goes to the control node (R111, R447). -/
def State.appendNode (s : State) (r : PgReq) : State :=
  if (s.pgreqs.countP (·.toNode)) ≥ 256 then s
  else
    let n := s.dev.nodeReqs
    let s : State := { s with dev := { s.dev with nodeReqs := n + 1 } }
    let s := s.setReq { r with toNode := true, reqid := some (BitVec.ofNat 16 n), step := 3 }
    s.send 0x83 r.owner 0 (leBytes 32 (r.record (s.waitingThreads r).length n s.clock).toNat)

/-- Requests whose append is not yet complete, oldest first. -/
def State.openAppends (s : State) : List PgReq := s.pgreqs.filter fun r => r.step < 3

/-- PGREQ_APPEND (R111, R112, R510): the next step of the `n`-th request not yet appended; at one queue the requests are
appended one at a time in the order they arrived.  An append is not begun while its quay is saved. -/
def execPgreqAppend (n : Nat) (s : State) : Out :=
  .next <|
    match s.openAppends[n]? with
    | none => s
    | some r =>
      match r.queue with
      | some c => s.appendStep c r
      | none =>
        let target := s.pgTarget (some r.owner) 9
        let ahead := s.openAppends.any (fun x => x.queue == target && target.isSome) ||
          (s.openAppends.take n).any fun x => x.queue.isNone && s.pgTarget (some x.owner) 9 == target
        if ahead || s.engStopped r.quay then s
        else
          match target with
          | some c => s.appendStep c r
          | none => s.appendNode r

/-! ### Answers (R113, R109) -/

/-- The trap of a refused page request at the address that faulted (R113, R367). -/
def PgReq.note (r : PgReq) (idx : Nat) (addr : Word) : TrapNote :=
  { cause := cPage, idx := idx, addr := addr,
    code := BitVec.ofNat 16 (r.cause.toNat + r.kind.code * 16 + (if r.stage2 then 256 else 0) + r.level * 512) }

/-- A refusal reaches a waiter (R109, R113, R507); a thread that traps waits for nothing else. -/
def State.refuseWaiter (s : State) (r : PgReq) (y : Waiter × Word) : State :=
  match y.1 with
  | .thread q sl blk idx =>
    let t := s.thread q sl
    if t.st = .active then (s.setThread { t with late := t.late ++ [r.note idx y.2] }).dropWaits q sl
    else if t.st = .blocked ∧ t.on = .fault then (s.takeTrap t (r.note idx y.2) blk).arrive q sl none
    else s
  | .object q sl =>
    let t := s.thread q sl
    match t.on with
    | .object va l _ _ _ => (s.takeTrap t (r.note 0x7F (objectAddr va l)) t.nba).arrive q sl none
    | _ => s
  | .fetch q e => if e < 64 then s.trapEntry (s.entry q e) (r.note 0x7F y.2) else s.unplane q (e - 64)
  | .write q sl =>
    let t := s.thread q sl
    match t.released with
    | w :: ws => s.setThread { t with released := ws, late := t.late ++ [{ cause := cLost, idx := 0x7F, addr := w.va }] }
    | [] => s
  | .op id => s.modOp id fun o => { o with waiting := false, status := 5 }
  | .queue c q =>
    let x := s.queue c q
    s.setQueue c { x with refused := true }
  | .launch id => { s with launches := tmod (fun l => l.id == id) (fun l => { l with bindRefused := true }) s.launches }
  | .group id =>
    { s with greds := tmod (fun g => g.group == id && s.gredAt g y.2.toNat) (fun g => { g with refused := true }) s.greds }
  | .fill _ _ | .watch _ | .node _ _ | .append _ | .handler _ _ | .tables _ | .dlog _ _ => s

/-- A retry reaches a waiter (R113): it walks afresh. -/
def State.retryWaiter (s : State) (y : Waiter) : State :=
  match y with
  | .thread q sl _ _ => s.unblock q sl
  | .write q sl =>
    match (s.thread q sl).released with
    | w :: _ =>
      match w.loc with
      | .glob _ => s.addMiss w.ctx { who := y, quay := q, kind := .committed, va := w.va.toNat }
      | .vault _ _ => s.modHead q sl fun r => { r with waiting := false }
    | [] => s
  | .op id => s.modOp id fun o => { o with waiting := false }
  | .fetch _ _ | .queue _ _ | .object _ _ | .launch _ | .fill _ _ | .watch _ | .node _ _ | .append _ | .group _ | .handler _ _
  | .tables _ | .dlog _ _ => s

/-- An answer that reaches a saved waiter (R113, R385): a refusal is delivered once the thread is restored. -/
def Section.refused (x : Section) (r : PgReq) (y : Waiter × Word) : Section :=
  match y.1 with
  | .thread _ sl _ i => { x with threads := tmod (fun t => t.slot == sl) (fun t => { t with late := t.late ++ [r.note i y.2] }) x.threads }
  | .object _ sl =>
    let hit : Thread → Thread := fun t =>
      match t.on with
      | .object va l _ _ _ => { t with late := t.late ++ [r.note 0x7F (objectAddr va l)], on := .fault }
      | _ => t
    { x with threads := tmod (fun t => t.slot == sl) hit x.threads }
  | .fetch _ e =>
    let vec := (x.entries.filter fun y => y.e == e).flatMap (·.vec)
    { x with threads := tmod (fun t => vec.contains t.slot) (fun t => { t with late := t.late ++ [r.note 0x7F y.2] }) x.threads }
  | .op id => { x with ops := tmod (fun o => o.id == id) (fun o => { o with status := 5 }) x.ops }
  | .write _ sl =>
    let hit : Thread → Thread := fun t =>
      match t.released with
      | w :: ws => { t with released := ws, late := t.late ++ [{ cause := cLost, idx := 0x7F, addr := w.va }] }
      | [] => t
    { x with threads := tmod (fun t => t.slot == sl) hit x.threads }
  | .queue _ _ | .launch _ | .fill _ _ | .watch _ | .node _ _ | .append _ | .group _ | .handler _ _ | .tables _ | .dlog _ _ => x

/-- An answer to a request that is saved with its quay. -/
def State.ackSaved (s : State) (sel : PgReq → Bool) (refuse : Bool) : State :=
  { s with sections := s.sections.map fun x =>
      match x.reqs.find? sel with
      | none => x
      | some r =>
        let x : Section := { x with reqs := x.reqs.erase r }
        if refuse then r.who.foldl (fun x y => x.refused r y) x else x }

/-- The answer of R113 to the request that `sel` picks; one that names none changes nothing.  A request whose append has
still to raise its object stays for that. -/
def State.ackRequest (s : State) (sel : PgReq → Bool) (refuse : Bool) : State :=
  let sel := fun (r : PgReq) => sel r && !r.acked && decide (2 ≤ r.step)
  match s.pgreqs.find? sel with
  | none => s.ackSaved sel refuse
  | some r =>
    let s : State := { s with pgreqs := if r.step = 2 then tset (fun x => x.id == r.id) { r with who := [], acked := true } s.pgreqs
                                         else s.pgreqs.erase r }
    (r.who.foldl (fun s y => if refuse then s.refuseWaiter r y else s.retryWaiter y.1) s).wakePasses

/-! ### Caches and generations (R103, R105) -/

/-- TRANSLATION_EXPIRY (R105): the `n`-th entry of a quay's cache is dropped once it is 65,536 cycles old. -/
def execTranslationExpiry (quay n : Nat) (s : State) : Out :=
  .next <|
    match (s.tlb.filter fun e => e.quay == quay)[n]? with
    | none => s
    | some e => if s.clock ≥ e.filled + tlbLife then { s with tlb := s.tlb.erase e } else s

/-- GENERATION_INCREMENT (R103, R105): the `n`-th increment asked for, 260 cycles after the page's last. -/
def execGenerationIncrement (n : Nat) (s : State) : Out :=
  .next <|
    match s.genWait[n]? with
    | none => s
    | some p => if s.bumpReady p then ({ s with genWait := s.genWait.eraseIdx n } : State).applyBump p else s

end Sys2Proof.Machine
end

