-- ==== Sys2Proof/Machine/Perform.lean ====
section
/-! DEFINITION. Released writes reaching their point of performance (R109, R167, R265, R270, R271, R335, R336, R339,
R340, R343, R414). -/

namespace Sys2Proof.Machine

/-- What came of performing a write. -/
inductive Perf where
  | done (s : State)
  | refused (cause : BitVec 8) (addr : Word) (s : State)
  | stale (gen : BitVec 8) (s : State)
  | wait (s : State)

/-- Bytes a write leaves at its location, which now holds `old` (R335, R336). -/
def PendWrite.result (r : PendWrite) (old : List Byte) : List Byte :=
  match r.kind with
  | .coArrive st => leBytes 16 (raiseObject (BitVec.ofNat 128 (leNat old)) st.toNat).toNat
  | _ => r.bytes

/-- Bytes of a write at its location. -/
def PendWrite.size (r : PendWrite) : Nat :=
  match r.kind with
  | .coArrive _ => 16
  | _ => r.bytes.length

/-- A stale refusal of a committed write (R104, R109): its translation is dropped and walked again. -/
def State.rewalkWrite (s : State) (q sl : Nat) (r : PendWrite) (gen : BitVec 8) : State :=
  let va := r.va.toNat
  let s := s.dropTlb q r.ctx va
  (s.modHead q sl fun r => { r with waiting := true }).addMiss r.ctx
    { who := .write q sl, quay := q, kind := .committed, va := va, refused := some gen }

/-- Send a write to another module's home, or take its answer (R450, R451).  A raise goes as an atomic of 16 bytes whose hold
ends with the raised object (R272); a write of a line held there goes under its hold, which ends with the last one. -/
def State.performRemote (s : State) (y : Waiter) (r : PendWrite) (pa mod : Nat) : Perf :=
  if r.waiting then .wait s
  else
    match (match r.kind with
      | .coArrive _ => s.farUpdate y mod pa 16 r.gen r.result
      | .remoteHold t last =>
        s.askFar y mod pa r.bytes.length r.gen true (some t) (if last then .endHold [(pa, r.bytes)] else .store r.bytes r.poison)
      | _ => s.askFar y mod pa r.bytes.length r.gen true none (.store r.bytes r.poison)) with
    | .ok _ _ s => .done (s.dropFar y)
    | .stale g s => .stale g (s.dropFar y)
    | .refused c s => .refused c r.va (s.dropFar y)
    | .wait s => .wait s

/-- A write of global memory at its point of R265: with all 512 tokens of the line, held by nobody else; `y` waits for it. -/
def State.performGlobal (s : State) (y : Waiter) (q sl : Nat) (r : PendWrite) (pa : Nat) : Perf :=
  match s.paKind pa with
  | .control die off => .done (s.controlWrite die off (BitVec.ofNat 64 (leNat r.bytes)))
  | .remote mod => s.performRemote y r pa mod
  | _ =>
    if r.waiting ∨ s.heldAgainst q sl (.glob pa) = true then .wait s
    else
      match s.answerOf q (pa / 128) y true with
      | some a =>
        let s := s.clearAnswer a
        if a.stale then .stale a.gen s else .refused a.cause r.va s
      | none =>
        if s.writable q (pa / 128) then .done (s.cacheWrite q pa (r.result (s.gbytes pa r.size)) r.poison)
        else
          .wait (s.request { holder := q, line := pa / 128, write := true, gen := r.gen, ctx := r.ctx, quay := q,
                             who := [y] })

/-- Read a 32-bit vault word. -/
def State.vword (s : State) (q off : Nat) : Nat := leNat (s.vread q off 4)

/-- Die ready queue entry of a task record (R166, R354). -/
def taskReady (q prio : Nat) (rec : BitVec 256) : Ready :=
  { record := rec, prio := prio, die := dieOf q }

/-- The frame part of a `join.put` (R167, R340): slot written and presence set, JOIN lowered; an overrun is refused.  The
record that becomes ready runs at the priority of its spawner (R342). -/
def State.joinAt (s : State) (q sl tq off k : Nat) (v : Half) (r : PendWrite) : Perf :=
  let so := off + 32 + 4 * k
  let word := vkey tq so / 4
  let sa := BitVec.ofNat 64 (tq % 32 * 2 ^ 24 + so)
  if s.presence.contains word then .refused 0x0E sa s
  else
    let s := s.vstore tq so (leBytes 4 v.toNat) r.poison
    let s : State := { s with presence := s.presence ++ [word] }
    let join := s.vword tq (off + 16)
    if join = 0 then .refused 0x0E sa s
    else
      let s := s.vstore tq (off + 16) (leBytes 4 (join - 1)) false
      if join = 1 then
        let rec' : BitVec 256 := BitVec.ofNat 256 (leNat (s.vread tq off 32))
        let key := vkey tq off
        let prio := kvGet key (s.group (s.thread q sl).group).prio s.framePrio
        .done { s.chargeVault tq r.ctx 44 with
          ready := s.ready ++ [taskReady tq prio rec'], framePrio := tdel (fun f => f.1 == key) s.framePrio }
      else .done (s.chargeVault tq r.ctx 12)

/-- A live scoreboard entry that a released write waits for (R148): not that of a copy which the same thread issued after
the write in program order, since that copy waits for the write (R118, R306). -/
def State.scoredFor (s : State) (q sl id tq off n : Nat) : Bool :=
  s.scores.any fun e => e.quay == tq && decide (e.first ≤ off + n - 1) && decide (off ≤ e.last) &&
    !s.ops.any fun o => o.id == e.op && o.quay == q && o.slot == some sl && decide (id < o.id)

/-- A buffer that the same thread seals by an operation issued after the write (R144): its seal waits for the write. -/
def State.sealAfter (s : State) (q sl id : Nat) (g : Region) : Bool :=
  s.ops.any fun o => o.kind == .seal && o.quay == q && o.slot == some sl && decide (id < o.id) && o.quay == g.quay &&
    (dDst o.desc).toNat == g.vpg * 4096

/-- The bytes a write of a vault touches: of a `join.put` JOIN and its slot (R340). -/
def PendWrite.parts (r : PendWrite) (off : Nat) : List (Nat × Nat) :=
  match r.kind with
  | .joinPut k _ => [(off + 16, 4), (off + 32 + 4 * k, 4)]
  | _ => [(off, max r.size r.span)]

/-- A write of a vault at its bank (R148, R265, R271). -/
def State.performVault (s : State) (y : Waiter) (q sl : Nat) (r : PendWrite) (tq off : Nat) : Perf :=
  let n := r.size
  let parts := r.parts off
  let told := parts.map fun p =>
    s.bankWrite tq p.1 p.2 true false (s.heldAgainst q sl (.vault tq p.1)) (s.sealAfter q sl r.id)
  if s.holdsQuay r.ctx tq = false then .refused cVaultRef r.va s
  else if r.waiting ∨ (parts.any fun p => s.scoredFor q sl r.id tq p.1 p.2) = true then .wait s
  else
    match allSay told with
    | .refuse c => .refused c r.va s
    | .wait => .wait s
    | .fill l g =>
      match s.fillFor y l g with
      | (some c, s) => .refused c r.va s
      | (none, s) => .wait s
    | .go =>
      match r.kind with
      | .joinPut k v => (s.chargeMove r.ctx q tq 4).joinAt q sl tq off k v r
      | .spawn code g =>
        let rec' : BitVec 256 := BitVec.ofNat 256 (leNat r.bytes)
        let s := ((s.chargeVault tq r.ctx 32).chargeMove r.ctx q tq 32).vstore tq off r.bytes r.poison
        let _ := code
        let prio := (s.group (s.thread q sl).group).prio
        if g.extractLsb' 0 32 = 0 then .done { s with ready := s.ready ++ [taskReady tq prio rec'] }
        else .done { s with framePrio := kvSet (vkey tq off) prio s.framePrio }
      | _ =>
        let s := (s.charge (meterQuay tq) r.ctx 8 n).chargeMove r.ctx q tq n
        .done (s.vstore tq off (r.result (s.vread tq off n)) r.poison)

/-- Entries of a quay's operation table in use (R116). -/
def State.opsUsed (s : State) (q : Nat) : Nat := s.ops.countP fun o => o.quay == q && !o.ended

/-- Perform one write of a slot, for which `y` waits: the slot's oldest released write, or an instruction of its commit step. -/
def State.perform (s : State) (y : Waiter) (q sl : Nat) (r : PendWrite) : Perf :=
  match r.kind with
  | .barArrive _ => .wait s
  | .launch =>
    if s.opsUsed q ≥ 128 || s.passes.any (fun p => p.quay == q && p.commitWait.isSome) then .wait s
    else
      let (id, s) := s.fresh
      let t := s.thread q sl
      .done { s with ops := s.ops ++ [{ id := id, quay := q, kind := .launch, ctx := r.ctx, group := some t.group,
                                        slot := some sl, a := r.va, scope := r.scope }] }
  | .pgAck reqid refuse =>
    let mine := fun (o : EngOp) => o.quay == q && o.slot == some sl && decide (o.id < r.id) &&
      match o.kind with
      | .ctx _ => true
      | _ => false
    if s.ops.any mine then .wait s
    else .done (s.ackRequest (fun x => x.queue == some r.ctx && x.reqid == some reqid) refuse)
  | _ =>
    match r.loc with
    | .glob pa => s.performGlobal y q sl r pa
    | .vault tq off => s.performVault y q sl r tq off

end Sys2Proof.Machine
end

