-- ==== Sys2Proof/Machine/System.lean ====
section
/-! DEFINITION. System, context and energy instructions, class 0xD, as they fire in a block (R394 to R415).  Context
operations are performed in Contexts. -/

namespace Sys2Proof.Machine

/-- All ones where the quota is inherited, else REMAIN with EXPL (R400). -/
def Ctx.quotaWord (c : Ctx) : Word :=
  if c.expl then (1#64 <<< 63) ||| BitVec.ofNat 64 (c.remain % 2 ^ 63) else BitVec.ofNat 64 (2 ^ 63 - 1)

/-- A system register's value (R396, R397): `sy.energy` and `sy.quota` as they stand, the others as at block entry. -/
def State.sysReg (s : State) (code word : Nat) : Word :=
  let n := s.pass.snap
  match code with
  | 0 => n.ctxw
  | 1 => n.trapvec
  | 2 => if word < 8 then n.traprec.extractLsb' (64 * word) 64 else n.trapped.extractLsb' (64 * (word - 8)) 64
  | 3 => n.fpctl
  | 4 => n.scopepol
  | 5 => (s.ctx s.pass.ctx).used
  | 6 => (s.ctx s.pass.ctx).quotaWord
  | 7 => n.caps
  | 8 => n.pgreq
  | _ => n.dlog

/-- `srd` (R396, R397): code in bits 3:0 of the selector, word in bits 12:8. -/
def execSrd (w : Fields) (s : State) : Out :=
  let i := Instr.srd w
  .next (s.fire i w fun v s =>
    s.emitVal i w (s.sysReg (v.a.extractLsb' 0 4).toNat (v.a.extractLsb' 8 5).toNat))

/-- Why a `swr` traps (R398). -/
def swrRefusal (code : Nat) (v : Word) : Option (BitVec 8) :=
  match code with
  | 1 => if v.extractLsb' 56 8 ≠ 0 ∨ v.extractLsb' 1 11 ≠ 0 then some 0x28 else none
  | 3 => none
  | 8 => if (v.extractLsb' 8 4).toNat ≥ 9 then some 0x28 else none
  | _ => some 0x27

/-- `swr` (R398): checked, captured until commit; the value at block entry is the result. -/
def execSwr (w : Fields) (s : State) : Out :=
  let i := Instr.swr w
  .next (s.fire i w fun v s =>
    let code := (v.b.extractLsb' 0 4).toNat
    match swrRefusal code v.a with
    | some c => s.trapHere i w c 0
    | none =>
      { s with pass := { s.pass with swrs := s.pass.swrs ++ [(s.pass.cur, code, v.a)] } }.emitVal i w (s.sysReg code 0))

/-- `trap.ret` (R401): without VALID it traps with 0x29. -/
def execTrapRet (w : Fields) (s : State) : Out :=
  let i := Instr.trapRet w
  .next (s.fire i w fun _ s =>
    let t := s.thread s.pass.quay s.pass.slot
    if t.trapValid then s.branch i w (t.traprec.extractLsb' 192 64) .trapRet else s.trapHere i w 0x29 0)

/-- `trap.sub` (R402, R372). -/
def execTrapSub (w : Fields) (s : State) : Out :=
  let i := Instr.trapSub w
  .next (s.fire i w fun v s =>
    let t := s.thread s.pass.quay s.pass.slot
    let held := t.subs.length + s.pass.subs.length
    let idx : BitVec 7 := v.b.extractLsb' 0 7
    if v.b.extractLsb' 7 57 ≠ 0 then s.trapHere i w 0x31 0
    else if t.trapValid = false ∨ held ≥ 4 ∨ (t.subs.any (·.1 == idx) || s.pass.subs.any (·.2.1 == idx)) = true then
      s.trapHere i w 0x29 0
    else
      { s with pass := { s.pass with subs := s.pass.subs ++ [(s.pass.cur, idx, v.a)] } }.emitVal i w v.a)

/-- `en.read` (R413): a counter of the issuing context or of a descendant, at the last tick. -/
def execEnRead (w : Fields) (s : State) : Out :=
  let i := Instr.enRead w
  .next (s.fire i w fun v s =>
    let c := (v.a.extractLsb' 0 12).toNat
    if v.a.extractLsb' 12 52 ≠ 0 ∨ s.ctxLive c = false ∨ s.inSubtree s.pass.ctx c = false ∨ v.b.toNat > 1 then
      s.trapHere i w 0x31 0
    else s.emitVal i w (if v.b = 0 then (s.ctx c).used else (s.ctx c).quotaWord))

/-- `pgreq.ack` (R414): the answer is captured with the writes that leave after every store of the block. -/
def State.pgreqAck (s : State) (i : Instr) (w : Fields) : State :=
  s.fire i w fun v s =>
    if v.b.extractLsb' 1 63 ≠ 0 then s.trapHere i w 0x31 0
    else
      let r : PendWrite := { kind := .pgAck (v.a.extractLsb' 0 16) (v.b.getLsbD 0), lsid := 32 + s.pass.cur,
                             idx := s.pass.cur, ctx := s.pass.ctx }
      { s with pass := { s.pass with stores := s.pass.stores ++ [r] } }.emitVal i w v.a

/-- `pgreq.ack` that retries: port b bit 0 is 0 (R113, R414). -/
def execPgreqAckRetry (w : Fields) (s : State) : Out := .next (s.pgreqAck (.pgreqAckRetry w) w)
/-- `pgreq.ack` that refuses: port b bit 0 is 1 (R113, R414). -/
def execPgreqAckRefuse (w : Fields) (s : State) : Out := .next (s.pgreqAck (.pgreqAckRefuse w) w)

/-- A context operation as it fires (R403): descriptor offset and completion operand checked, captured until commit (a vault
object that is not held is none of the traps listed there);
`part.chg` outside context 0 traps with "root only" (R395).  Port b is the result. -/
def State.ctxFire (s : State) (i : Instr) (w : Fields) (func : BitVec 8) : State :=
  s.fire i w fun v s =>
    let off := (v.a.extractLsb' 0 24).toNat
    let addr : Word := (v.a.extractLsb' 0 24).zeroExtend 64
    if func = 0x90 ∧ s.pass.ctx ≠ 0 then s.trapHere i w 0x30 0
    else if off % 64 ≠ 0 then s.trapHere i w cMisaligned addr
    else if off + 64 > vaultEnd then s.trapHere i w cVaultAddr addr
    else
      (s.objectPlace i w v.b false).done fun _ s =>
        let x : Captured := { idx := s.pass.cur, kind := .ctx func, a := addr, b := v.b, scope := 5 }
        { s with pass := { s.pass with captured := s.pass.captured ++ [x] } }.emitVal i w v.b

end Sys2Proof.Machine
end

