-- ==== Sys2Proof/Machine/Commit.lean ====
section
/-! DEFINITION. Resolution and commit of a block (R191 to R194), what a commit issues (R116, R147, R244), reductions
(R258, R259), holds (R273), barriers and completion waits (R330 to R337). -/

namespace Sys2Proof.Machine

/-! ### Reductions (R258, R259) -/

/-- Data of a port as the trap record holds it (R367). -/
def Pass.captured? (p : Pass) (idx : Nat) (port : Port) : Option Word :=
  let imm := match p.block.words[idx]?.bind wordInstr with
    | some i =>
      match Instr.form i, Instr.fields i with
      | some f, some w => (immPort f w).bind fun x => if x.1 = port then some x.2 else none
      | _, _ => none
    | none => none
  match imm with
  | some v => some v
  | none => (p.cell idx port).val.map (·.data)

/-- Operation and type of a `gred` word. -/
def gredOf : Instr → Option (Nat × Bool)
  | .gredAdd t _ => some (0, t == .f32)
  | .gredMin t _ => some (1, t == .f32)
  | .gredMax t _ => some (2, t == .f32)
  | _ => none

/-- The arrivals a commit brings: one for each `gred` of the block, without a contribution where it emitted null. -/
def Pass.arrivals (p : Pass) : List GredArrive :=
  p.block.words.zipIdx.filterMap fun x =>
    match (wordInstr x.1).bind gredOf with
    | none => none
    | some (op, flt) =>
      match p.greds.find? fun g => g.idx == x.2 with
      | some g => some g
      | none =>
        -- an offset that breaks R258 is named by the arrival, and never used
        let named := (p.captured? x.2 .b).map fun v => (v.extractLsb' 0 24).toNat
        let off := named.filter fun o => o % 32 == 0 && decide (o + 32 ≤ vaultEnd)
        some { idx := x.2, op := op, flt := flt, rnd := p.block.h0.extractLsb' 66 3, ftz := p.block.ftz, val := none,
               off := off, named := named }

/-- The cell of an instance. -/
def GredCell.isOf (c : GredCell) (q g : Nat) (blk : Word) (idx : Nat) : Bool :=
  c.quay == q && c.group == g && c.blk == blk && c.idx == idx

/-- Whether the arrivals of a commit find their cells: no open instance the thread arrived at, and a free cell of the
four bollards of 16 for each new one (R258, R259).  The bollard of an instance is its instruction index modulo 4 (DESIGN
CHOICE, log entry 90). -/
def State.gredReady (s : State) (p : Pass) (g : Nat) : Bool :=
  let as := p.arrivals
  as.all fun a =>
    match s.greds.find? fun c => c.isOf p.quay g p.blk a.idx with
    | some c => !c.arrived.contains p.slot
    | none =>
      let used := s.greds.countP fun c => c.quay == p.quay && c.idx % 4 == a.idx % 4
      let fresh := as.countP fun b => decide (b.idx ≤ a.idx) && b.idx % 4 == a.idx % 4 &&
        !s.greds.any fun c => c.isOf p.quay g p.blk b.idx
      decide (used + fresh ≤ 16)

/-- One arrival (R258). -/
def State.gredArrive (s : State) (p : Pass) (g : Nat) (a : GredArrive) : State :=
  let key := fun (c : GredCell) => c.isOf p.quay g p.blk a.idx
  let c := tget key { quay := p.quay, group := g, blk := p.blk, idx := a.idx, op := a.op, flt := a.flt, rnd := a.rnd,
                      ftz := a.ftz, ctx := p.ctx } s.greds
  let first := fun (o : Option Nat) => match o with | some x => some x | none => a.off
  let c' : GredCell :=
    { c with arrived := c.arrived ++ [p.slot], vals := c.vals ++ a.val.toList,
             contribOff := if a.val.isSome then first c.contribOff else c.contribOff, anyOff := first c.anyOff,
             offs := c.offs ++ (a.named.orElse fun _ => a.off).toList }
  { s with greds := tset key c' s.greds }

/-- The 32-bit result and exceptions of an instance (R259). -/
def GredCell.value (c : GredCell) : Nat × Exc :=
  let mode := Mode.ofCode c.rnd
  if c.flt then
    let flush := fun (v : Half) =>
      let x := v.toNat
      if c.ftz && fmtF32.isSub x then fmtF32.signBit (fmtF32.sign x) else x
    let ins := c.vals.map fun v => fpIn fmtF32 c.ftz v.toNat
    let raised := ins.foldl (fun e v => e ||| v.2) 0
    if c.op = 0 then
      let r := fSum mode (ins.map (·.1))
      let o := fpOut fmtF32 mode c.ftz false r.1
      (o.1, (raised ||| r.2 ||| o.2) &&& ~~~exDZ)
    else
      match c.vals.map flush with
      | [] => (fmtF32.canonNan, 0)
      | v :: vs => (vs.foldl (minMaxPat (c.op == 1)) (minMaxPat (c.op == 1) v v), raised &&& ~~~exDZ)
  else
    let ints := c.vals.map BitVec.toInt
    match c.op with
    | 0 => ((BitVec.ofInt 32 (ints.foldl (· + ·) 0)).toNat, 0)
    | 1 => ((BitVec.ofInt 32 (ints.foldl min (2 ^ 31 - 1))).toNat, 0)
    | _ => ((BitVec.ofInt 32 (ints.foldl max (-(2 ^ 31)))).toNat, 0)

/-- Bits 255:128 of the record at offset `o` (R259). -/
def GredCell.record (c : GredCell) (o : Nat) : BitVec 128 :=
  let r := c.value
  BitVec.ofNat 32 c.arrived.length ++ BitVec.ofNat 32 c.vals.length ++ 0#26 ++
    (if c.offs.any (· != o) then 1#1 else 0#1) ++ r.2 ++ BitVec.ofNat 32 r.1

/-- Every thread of the workgroup that has not left has arrived (R258). -/
def State.gredComplete (s : State) (c : GredCell) : Bool :=
  (s.remaining (s.group c.group)).all fun t => c.arrived.contains t.slot

/-- GRED_COMPLETE (R259): record and object written at the bank, charged to the context (R438); a bank that refuses marks the workgroup (R150). -/
def State.gredFinish (s : State) (c : GredCell) : State :=
  let drop : State := { s with greds := s.greds.filter fun x => !x.isOf c.quay c.group c.blk c.idx }
  match c.offset with
  | none => drop
  | some o =>
    match s.bankWrite c.quay o 32 false false (s.heldAny (.vault c.quay o) || s.heldAny (.vault c.quay (o + 16))) with
    | .go => ((drop.charge (meterQuay c.quay) c.ctx 8 16).vstore c.quay (o + 16) (leBytes 16 (c.record o).toNat)
      false).vRaise c.quay o c.ctx 0
    | .wait => s
    | .fill l g =>
      if c.refused then drop.modGroup c.group fun g => { g with efault := true }
      else
        match s.fillFor (.group c.group) l g with
        | (some _, s) => { s with greds := drop.greds }.modGroup c.group fun g => { g with efault := true }
        | (none, s) => s
    | .refuse _ => drop.modGroup c.group fun g => { g with efault := true }

/-- Complete every instance that can be completed. -/
def State.settleGreds (s : State) : State :=
  (s.greds.filter s.gredComplete).foldl State.gredFinish s

/-! ### What a commit issues (R116, R147, R244) -/

/-- A captured operation of class 0xC acts after the engine operations of its thread (R244). -/
def Captured.matrix (x : Captured) : Bool :=
  match x.kind with
  | .mmaCfg | .mma | .mmaRel | .mmaClr => true
  | _ => false

/-- Bytes of a collective's element (R290). -/
def collBytes (k : OpKind) : Nat :=
  match k with
  | .allred .f32 | .redsc .f32 => 4
  | .allred .bf16 | .redsc .bf16 => 2
  | _ => 1

/-- Bytes of a collective's output (R290). -/
def collOutLen (k : OpKind) (n len : Nat) : Nat :=
  match k with
  | .allred _ => len * collBytes k
  | .redsc _ => len / max 1 n * collBytes k
  | .allgath => n * len
  | _ => len

/-- The most bytes a collective's output can have, before its list is read (R147, R290). -/
def collMost (k : OpKind) (len : Nat) : Nat :=
  match k with
  | .allgath => 4096 * len
  | _ => len * collBytes k

/-- Quays of a `cp.mc`: the mask on the die of DST (R125). -/
def mcQuays (q : Nat) (d : BitVec 256) : List Nat :=
  let code := ((dDst d).extractLsb' 32 4).toNat
  let die := if code = 0 then dieOf q else code - 8
  ((List.range 32).filter fun b => (dAux d).testBit b).map (die * 32 + ·)

/-- Vault ranges an operation writes that get a scoreboard entry (R147): quay, offset, length. -/
def State.scoredDests (s : State) (q c : Nat) (k : OpKind) (d : BitVec 256) : List (Nat × Nat × Nat) :=
  let one := fun (v : Word) (n : Nat) =>
    match s.vaultOperand v q c n with
    | .ok tq off => [(tq, off, n)]
    | _ => []
  match k with
  | .cpG2v | .cpV2v => one (dDst d) (dLen d)
  | .cpMc =>
    let qs := mcQuays q d
    let off := ((dDst d).extractLsb' 0 24).toNat
    if qs.all (s.holdsQuay c) && decide (off + dLen d ≤ vaultEnd) then qs.map fun tq => (tq, off, dLen d) else []
  | .allred _ | .redsc _ | .allgath | .bcast =>
    let off := (dDst d).toNat
    let n := collMost k (dLen d)
    if off + 1 ≤ vaultEnd ∧ 0 < n then [(q, off, min n (vaultEnd - off))] else []
  | _ => []

/-- Sealed buffers in STATE 01 that a range meets (R145). -/
def State.sealedOver (s : State) (q off n : Nat) : List Region :=
  s.regions.filter fun r => r.quay == q && !r.mapped && r.st == .sealed && overlaps off n (r.vpg * 4096) ((r.npg + 1) * 4096)

/-- A buffer that wholly holds a range. -/
def Region.within (r : Region) (off n : Nat) : Bool :=
  decide (r.vpg * 4096 ≤ off) && decide (off + n ≤ (r.vpg + r.npg + 1) * 4096)

/-- Vault ranges an operation may read (R145): quay, offset, length; those of a gather are its index vector and every row
that an index below the row count names; a broadcast reads at its root, which only its list tells (log entry 59). -/
def State.refSources (s : State) (q c : Nat) (k : OpKind) (d : BitVec 256) : List (Nat × Nat × Nat) :=
  let one := fun (v : Word) (n : Nat) =>
    match s.vaultOperand v q c 0 with
    | .ok tq off => [(tq, off, n)]
    | _ => []
  match k with
  | .cpV2g | .cpV2v => one (dSrc d) (dLen d)
  | .cpMc => if (dXtra d).getLsbD 0 then one (dSrc d) (dLen d) else []
  | .gath =>
    let stride := ((dXtra d).extractLsb' 32 24).toNat
    (q, ((dXtra d).extractLsb' 0 24).toNat, 2 * (dAux d % 65536)) ::
      one (dSrc d) ((dAux d / 65536 - 1) * stride + dLen d)
  | .allred _ | .redsc _ => [(q, (dSrc d).toNat, dLen d * collBytes k)]
  | .allgath | .bcast => [(q, (dSrc d).toNat, dLen d)]
  | _ => []

/-- The buffers an operation takes a reference on at issue (R145, R146): a copy only one that wholly holds its source (R287). -/
def State.refBuffers (s : State) (q c : Nat) (k : OpKind) (d : BitVec 256) : List Region :=
  let copy : Bool := match k with | .cpV2g | .cpV2v | .cpMc => true | _ => false
  ((s.refSources q c k d).flatMap fun y =>
    (s.sealedOver y.1 y.2.1 y.2.2).filter fun r => !copy || r.within y.2.1 y.2.2).eraseDups

/-- Key of a region: quay and first page. -/
def Region.key (r : Region) : Nat := r.quay * 4096 + r.vpg

/-- Change the region of a key. -/
def State.modRegion (s : State) (key : Nat) (f : Region → Region) : State :=
  { s with regions := tmod (fun r => r.key == key) f s.regions }

/-- A new region (R139): none where a rule of R139 is broken. -/
def State.addRegion (s : State) (r : Region) (off len : Nat) : Option State :=
  if off % 4096 ≠ 0 ∨ len % 4096 ≠ 0 ∨ len = 0 ∨ off + len > vaultEnd ∨ (s.regionsOver r.quay off len).isEmpty = false ∨
      (s.regions.countP fun x => x.quay == r.quay) ≥ 32 then none
  else some { s with regions := s.regions ++ [{ r with vpg := off / 4096, npg := len / 4096 - 1 }] }

/-- The region of a kind that starts at DST (R288). -/
def State.regionOf (s : State) (o : EngOp) (mapped : Bool) : Option Region :=
  s.regions.find? fun r => r.quay == o.quay && r.mapped == mapped && r.vpg * 4096 == (dDst o.desc).toNat

/-- Issue an operation under its identifier (R116, R147, R244): its entry of the operation table, its scoreboard entries and references, the
region of a `vmap`, the state an `unseal` sets, its place in the matrix queue or at the context controller. -/
def State.issueOp (s : State) (base : EngOp) : State :=
  let id := base.id
  let q := base.quay
  let c := base.ctx
  let d := base.desc
  let dests := s.scoredDests q c base.kind d
  let s : State := { s with scores := s.scores ++ dests.map fun y =>
    { quay := y.1, n := id, first := y.2.1 / 128 * 128, last := (y.2.1 + y.2.2 - 1) / 128 * 128 + 127, op := id } }
  let held := (s.refBuffers q c base.kind d).map Region.key
  let s := held.foldl (fun s k => s.modRegion k fun r => { r with refs := r.refs + 1 }) s
  let o : EngOp := { base with refsAt := held }
  match base.kind with
  | .vmap =>
    let off := (dDst d).toNat
    let r : Region := { quay := q, mapped := true, ctx := c, w := (dAux d) % 2 == 1, gva := (dSrc d).toNat / 128 }
    let r' := if (dSrc d).toNat % 128 = 0 then s.addRegion r off (dLen d) else none
    match r' with
    | some s =>
      let lo := vline q off
      let n := dLen d / 128
      let clear := fun (l : VLine) => if lo ≤ l.key ∧ l.key < lo + n then { l with v := false, d := false } else l
      let s : State := { s with vlines := s.vlines.map clear }
      { s with ops := s.ops ++ [{ o with finished := true }] }
    | none => { s with ops := s.ops ++ [{ o with finished := true, status := 8 }] }
  | .unseal =>
    match s.regionOf o false with
    | some r =>
      if r.st == .sealed then
        { (s.modRegion r.key fun r => { r with st := .unsealing }) with ops := s.ops ++ [{ o with phase := 1 }] }
      else { s with ops := s.ops ++ [o] }
    | none => { s with ops := s.ops ++ [o] }
  | .mmaCfg | .mma | .mmaRel | .mmaClr =>
    let pr := pairOf q
    let u := tget (fun u => u.pair == pr) { pair := pr } s.units
    { s with ops := s.ops ++ [o], units := tset (fun u => u.pair == pr) { u with queue := u.queue ++ [id] } s.units }
  | .ctx func =>
    { s with ops := s.ops ++ [o], ctxq := s.ctxq ++ [{ func := func, issuer := c, quay := q, src := .op id }] }
  | _ => { s with ops := s.ops ++ [o] }

/-- Identifiers of what a commit releases and issues stand in program order (R296): by LSID, then the operations without
one by index. -/
def leaveId (base lsid idx : Nat) : Option OpKind → Nat
  | some (.ctx _) | some .mmaCfg | some .mma | some .mmaRel | some .mmaClr => base + 64 + idx
  | _ => base + lsid

/-- Issue one captured operation (R192 step 4). -/
def State.issue (s : State) (p : Pass) (t : Thread) (base : Nat) (x : Captured) : State :=
  s.issueOp { id := leaveId base x.lsid x.idx (some x.kind), quay := p.quay, kind := x.kind, ctx := p.ctx, group := some t.group, slot := some p.slot, desc := x.desc,
              ext := x.ext, a := x.a, co := x.b, scope := x.scope, status := if x.revoked then 11 else 0 }

/-- Whether a quay's operation table and the scoreboards have room for operations (R116, R147). -/
def State.roomFor (s : State) (q n : Nat) (dests : List (Nat × Nat × Nat)) : Bool :=
  decide (s.opsUsed q + n ≤ 128) &&
    dests.all fun d => decide ((s.scores.countP fun e => e.quay == d.1) + (dests.countP fun e => e.1 == d.1) ≤ 128)

/-- The same for work that is no waiting commit: entries that a commit waits for are kept for it (R116). -/
def State.roomNow (s : State) (q n : Nat) (dests : List (Nat × Nat × Nat)) : Bool :=
  s.roomFor q n dests && !s.passes.any fun p => p.quay == q && p.commitWait.isSome

/-- Captured operations in the order they issue. -/
def Pass.toIssue (p : Pass) : List Captured :=
  let le := fun (a b : Captured) => decide (a.idx ≤ b.idx)
  (p.captured.filter fun x => !x.matrix).mergeSort le ++ (p.captured.filter fun x => x.matrix).mergeSort le

/-! ### Registers, flags and the next block -/

/-- Write slots that resolved non-null (R162, R192 step 1). -/
def Thread.applySlots (t : Thread) (p : Pass) : Thread :=
  p.block.writes.zipIdx.foldl (fun t e =>
    match (p.slotCell e.2).val with
    | some tok => t.setReg (e.1.extractLsb' 25 7).toNat tok.data
    | none => t) t

/-- One `swr` takes effect (R50, R111, R369, R398). -/
def State.applySwr (s : State) (q sl c : Nat) (code : Nat) (v : Word) : State :=
  match code with
  | 1 => let x := s.ctx c; s.setCtx { x with trapvec := v }
  | 3 => s.setThread { s.thread q sl with fpctl := v &&& 0x1F1F }
  | 8 => let x := s.ctx c; s.setCtx { x with pgreq := v &&& ((1#64 <<< 56) - 0x1000 + 0xF01) }
  | _ => s

/-- NSUB of the trap record follows the substitutions held (R367). -/
def Thread.withSubs (t : Thread) (subs : List (BitVec 7 × Word)) : Thread :=
  let m : BitVec 512 := 7#512 <<< 37
  { t with subs := subs, traprec := (t.traprec &&& ~~~m) ||| (BitVec.ofNat 512 (subs.length % 8) <<< 37) }

/-- Substitutions after a commit (R372): those a handler made join in index order; those of the committed block go. -/
def Thread.afterCommit (t : Thread) (p : Pass) : Thread :=
  let made := (p.subs.mergeSort fun a b => decide (a.1 ≤ b.1)).map fun x => (x.2.1, x.2.2)
  let t := if made.isEmpty then t else t.withSubs (t.subs ++ made)
  if !t.ih && t.subBlk == p.blk then { t with subs := [] } else t

/-- The wait table takes a waiter where it has room (R337). -/
def State.watch (s : State) (q sl : Nat) (l : Loc) : State :=
  let key := fun (w : WaitEntry) => w.quay == q && w.loc == l
  if s.waits.any key then
    { s with waits := tmod key (fun w => { w with slots := addOnce sl w.slots }) s.waits }
  else if (s.waits.countP fun w => w.quay == q) < 64 then
    { s with waits := s.waits ++ [{ quay := q, loc := l, slots := [sl] }] }
  else s

/-- Key of a completion object in the wait table: its address. -/
def waitKey (va : Word) (l : Loc) : Loc :=
  match l with
  | .glob _ => .glob va.toNat
  | l => l

/-- Release an arrival at a barrier: it is counted once every earlier write has been performed (R332). -/
def Thread.arriveBar (t : Thread) (b id : Nat) : Thread :=
  { t with bars := t.bars.set b 1, released := t.released ++ [{ id := id, kind := .barArrive b }] }

/-- `exit` (R168, R328): counted with its status, the slot IDLE. -/
def State.exitThread (s : State) (q sl : Nat) (st : BitVec 8) : State :=
  let t := s.thread q sl
  let s := s.modGroup t.group fun g =>
    { g with nexit := g.nexit + 1, smax := if g.smax.toNat < st.toNat then st else g.smax, sor := g.sor ||| st }
  s.endThread { t with exitStatus := st }

/-- The branch takes effect (R192 step 5, R326 to R337, R401). -/
def State.takeBranch (s : State) (p : Pass) (f : Fired) : State :=
  let q := p.quay
  let sl := p.slot
  let t := s.thread q sl
  match f.kind with
  | .plain => s.setThread { t with st := .waiting, nba := f.target }
  | .call ra => s.setThread { t with st := .waiting, nba := f.target, stack := t.stack.set t.csd ra, csd := t.csd + 1 }
  | .ret => s.setThread { t with st := .waiting, nba := f.target, csd := t.csd - 1 }
  | .trapRet => s.setThread (t.trapReturn s.stamp)
  | .exit st => s.exitThread q sl st
  | .bar b =>
    let (id, s) := s.fresh
    let t := if p.arrives.contains b then t else t.arriveBar b id
    s.setThread { t with st := .blocked, on := .barrier b, nba := f.target }
  | .barWait b =>
    if t.bars.getD b 0 = 2 then s.setThread { t with st := .waiting, nba := f.target, bars := t.bars.set b 0 }
    else s.setThread { t with st := .blocked, on := .barrier b, nba := f.target }
  | .coWait va l old sc =>
    (s.setThread { t with st := .blocked, on := .object va l old sc 0, nba := f.target }).watch q sl (waitKey va l)

/-! ### Writes at commit (R192 step 3, R272, R276, R508) -/

/-- The writes of a pass in LSID order: stores, shadows, and the old values of `cas.b128` (R276); beside each the shadow
it is of. -/
def Pass.writes (p : Pass) : List (PendWrite × Option Shadow) :=
  let st := p.stores.map fun r => (r, none)
  let sh := p.shadows.map fun h =>
    (({ kind := .store, lsid := h.lsid, idx := h.idx, loc := h.loc, va := h.va, gen := h.gen, bytes := h.bytes,
        scope := h.scope, atom := true, ctx := p.ctx } : PendWrite), some h)
  let ob := p.b128.map fun x =>
    (({ kind := .store, lsid := x.1, loc := .vault p.quay x.2.1, va := BitVec.ofNat 64 x.2.1, bytes := x.2.2,
        ctx := p.ctx } : PendWrite), none)
  (st ++ sh ++ ob).mergeSort fun a b => decide (a.1.lsid ≤ b.1.lsid)

/-- Whether the write of a shadow must follow every access below it: its atomic releases, or a releasing fence of a lower
LSID fired (R277, R278). -/
def Pass.releases (p : Pass) (h : Shadow) : Bool :=
  h.release || p.block.infos.any fun x => x.form.cls == 9 && x.form.func == 0xD0 && Fields.releases x.w &&
    Fields.scope x.w != 0 && decide (Fields.lsid x.w < h.lsid) && p.lsids.contains (Fields.lsid x.w, some x.idx)

/-- Highest LSID among the shadows that `sel` picks. -/
def Pass.topShadow (p : Pass) (sel : Shadow → Bool) : Option Nat :=
  (p.shadows.filter sel).foldl (fun m h => some (match m with | some x => max x h.lsid | none => h.lsid)) none

/-- A write of memory, as against a barrier arrival, a launch or an acknowledgement. -/
def PendWrite.onMemory (r : PendWrite) : Bool :=
  match r.kind with
  | .store | .coInit _ | .coArrive _ | .spawn _ _ | .joinPut _ _ | .remoteHold _ _ => true
  | .launch | .pgAck _ _ | .barArrive _ => false

/-- The module whose memory a write goes to, where it is another one (R272, R508). -/
def State.remoteMod (s : State) (r : PendWrite) : Option Nat :=
  match r.loc with
  | .glob a => if r.onMemory then (match s.paKind a with | .remote m => some m | _ => none) else none
  | .vault _ _ => none

/-- The stores of a pass that another module must hold before the commit (R508): plain ones below an atomic that
releases, whose line the pass does not hold yet. -/
def State.toHold (s : State) (p : Pass) : List (PendWrite × Nat) :=
  match p.topShadow p.releases with
  | none => []
  | some top =>
    p.stores.filterMap fun r =>
      match s.remoteMod r, r.loc with
      | some m, .glob a => if decide (r.lsid < top) && (p.heldTag (a / 128)).isNone then some (r, m) else none
      | _, _ => none

/-- Whether a releasing fence of the block that fired lies between two LSIDs (R278, R301). -/
def Pass.fencedBetween (p : Pass) (lo hi : Nat) : Bool :=
  p.block.infos.any fun x => x.form.cls == 9 && x.form.func == 0xD0 && Fields.releases x.w && Fields.scope x.w != 0 &&
    decide (lo < Fields.lsid x.w) && decide (Fields.lsid x.w < hi) && p.lsids.contains (Fields.lsid x.w, some x.idx)

/-- The writes, of a list in LSID order, that are performed only after the commit step: those to another module, and each that
must follow one of them: it overlaps it, releases, or stands above a releasing fence (R278, R301, R508). -/
def State.laterOf (s : State) (p : Pass) (later : List (PendWrite × Option Shadow)) :
    List (PendWrite × Option Shadow) → List (PendWrite × Option Shadow)
  | [] => later
  | x :: xs =>
    let after := fun (y : PendWrite × Option Shadow) =>
      y.1.loc.overlaps y.1.span x.1.loc x.1.span || x.2.any p.releases || p.fencedBetween y.1.lsid x.1.lsid
    s.laterOf p (if (s.remoteMod x.1).isSome || later.any after then later ++ [x] else later) xs

/-- Writes performed in the commit step: up to the highest shadow (R272, R508), or all that can be where the thread leaves
(R328); those of this module. -/
def State.atOnce (s : State) (p : Pass) (exits : Bool) : List (PendWrite × Option Shadow) :=
  let ws := p.writes.filter fun x => x.1.onMemory
  let later := s.laterOf p [] ws
  let top := p.topShadow fun _ => true
  ws.filter fun x => !later.contains x && (exits || top.any fun k => decide (x.1.lsid ≤ k))

/-- What came of asking whether the writes of a commit can be performed. -/
inductive CanPerform where
  | yes
  | wait (s : State)
  | refused (r : PendWrite) (cause : BitVec 8) (addr : Word)

/-- The access of the commit step that a write of a pass is. -/
def Pass.waiter (p : Pass) (r : PendWrite) : Waiter := .thread p.quay p.slot p.blk r.idx

/-- What performing a write of the commit step asks for, where it cannot be performed yet: permission, a fill, or after a stale
refusal a new walk (R104, R270). -/
def State.asked (s : State) (p : Pass) (r : PendWrite) : State :=
  match s.perform (p.waiter r) p.quay p.slot r with
  | .wait s => s
  | .stale g s => s.rewalkFor (p.waiter r) p.quay r.ctx r.va.toNat (if r.atom then .atomic else .store) g
  | .done _ | .refused _ _ _ => s

/-- Whether a refusal leaves nothing performed: all but that of a `join.put` which found JOIN at 0 (R167). -/
def PendWrite.nothingDone (r : PendWrite) (before after : State) : Bool :=
  match r.kind with
  | .joinPut _ _ => before.presence == after.presence
  | _ => true

/-- Whether the writes of the commit step can be performed one after the other, `acc` being the state that those before leave;
else what is asked for, or the refusal by which the block does not commit: that of an atomic (R508), or of any write where the
thread leaves (R271). -/
def State.canPerform (s : State) (p : Pass) (exits : Bool) (acc : State) : List (PendWrite × Option Shadow) → CanPerform
  | [] => .yes
  | (r, _) :: rest =>
    if s.someWait (· == p.waiter r) then .wait s
    else
      match acc.perform (p.waiter r) p.quay p.slot r with
      | .done acc => s.canPerform p exits acc rest
      | .wait _ | .stale _ _ => .wait (s.asked p r)
      | .refused c a acc' =>
        if r.atom || exits && r.nothingDone acc acc' then .refused r c a else s.canPerform p exits acc' rest

/-- Perform the writes of the commit step. -/
def State.performAll (s : State) (p : Pass) (ws : List (PendWrite × Option Shadow)) : State :=
  let q := p.quay
  let sl := p.slot
  ws.foldl (fun s x =>
    match s.perform (p.waiter x.1) q sl x.1 with
    | .done s => s
    | .wait s | .stale _ s =>
      s.setThread { s.thread q sl with released := (s.thread q sl).released ++ [{ x.1 with release := x.2.isSome }] }
    | .refused c a s =>
      let t := s.thread q sl
      s.setThread { t with late := t.late ++ [{ cause := c, idx := 0x7F, addr := a }] }) s

/-- Release the rest of a commit's writes in LSID order: those of a line held at another module go under its hold, which ends with
the last of them (R272); an atomic's write that waits behind such ones keeps its hold (R508). -/
def State.releaseAll (s : State) (p : Pass) (base : Nat) (ws : List (PendWrite × Option Shadow)) : State :=
  let t := s.thread p.quay p.slot
  let rs := ws.zipIdx.map fun e =>
    let x := e.1
    let r : PendWrite := { x.1 with id := match x.1.kind with | .pgAck _ _ => base + 64 + x.1.idx | _ => base + x.1.lsid,
                                    release := x.2.isSome && (s.remoteMod x.1).isNone }
    match s.remoteMod x.1, x.1.loc with
    | some _, .glob a =>
      match p.heldTag (a / 128) with
      | some tag =>
        let more := (ws.drop (e.2 + 1)).any fun y => match y.1.loc with | .glob b => b / 128 == a / 128 && y.1.onMemory | _ => false
        { r with kind := .remoteHold tag (!more) }
      | none => r
    | _, _ => r
  s.setThread { t with released := t.released ++ rs }

/-! ### Resolution (R191) -/

/-- A trap with its operands (R367). -/
def Pass.withOperands (p : Pass) (n : TrapNote) : TrapNote :=
  let a := p.captured? n.idx .a
  let b := p.captured? n.idx .b
  let g := p.captured? n.idx .g
  { n with opv := (if g.isSome then 4 else 0) + (if b.isSome then 2 else 0) + (if a.isSome then 1 else 0),
           opa := a.getD 0, opb := b.getD 0, opg := g.getD 0 }

/-- The second-lowest index among the branches that fired, 0x7F where none did (R193). -/
def Pass.conflictIdx (p : Pass) : Nat := (secondLowest (p.fired.map (·.idx))).getD 0x7F

/-- Take the current pass out of the fabric: tag returned, holds ended, its remote accesses withdrawn (R165, R272). -/
def State.discard (s : State) (p : Pass) : State :=
  let s := (s.dropPass p.quay p.plane p.tag).freeTag p.quay p.plane p.tag
  ((s.endRemote p).forget p).wakePasses

/-- A pass that ends in a trap (R191, R370). -/
def State.trapPass (s : State) (p : Pass) (n : TrapNote) : State :=
  let s := s.discard p
  (((s.takeTrap (s.thread p.quay p.slot) n p.blk).arrive p.quay p.slot (some p.plane)).tidy p.quay).settleGreds

/-- Count a replay (R375, R461). -/
def State.countReplay (s : State) : State :=
  { s with dev := { s.dev with err := { s.dev.err with replays := s.dev.err.replays + 1 } } }

/-- BLOCK_RESOLVE (R191, R193, R108, R376): not-ready waits or replays, poison replays and traps at the fourth time in
succession, a recorded trap is taken, other than one branch is a conflict; else the pass may commit. -/
def execBlockResolve (s : State) : Out :=
  .next <|
    let p := s.pass
    if p.live = false ∨ p.resolved = true ∨ p.allDone = false then s
    else
      let t := s.thread p.quay p.slot
      if p.notReady then
        let s := s.discard p
        let t := s.thread p.quay p.slot
        if s.someWait (ofThread p.quay p.slot) then (s.setThread { t with st := .blocked, on := .fault }).tidy p.quay
        else (((s.setThread { t with st := .waiting }).arrive p.quay p.slot (some p.plane)).tidy p.quay)
      else if p.poison then
        let runs := if t.poisonBlk = p.blk then t.poisonRuns + 1 else 1
        let s := s.countReplay
        if runs ≥ 4 then
          (s.setThread { t with poisonRuns := 0 }).trapPass p { cause := 0x25, idx := 0x7F }
        else
          let s := (s.setThread { t with poisonBlk := p.blk, poisonRuns := runs }).discard p
          ((s.setThread { s.thread p.quay p.slot with st := .waiting }).arrive p.quay p.slot (some p.plane)).tidy p.quay
      else
        match p.recorded with
        | some n => s.trapPass p (p.withOperands n)
        | none =>
          if p.fired.length ≠ 1 then s.trapPass p (p.withOperands { cause := 0x03, idx := p.conflictIdx })
          else { s with pass := { p with resolved := true } }

/-! ### Commit (R192) -/

/-- Whether the quay's operation table and the scoreboards have room for what the pass issues, and no earlier waiter
needs it (R116, R147). -/
def State.entriesReady (s : State) (p : Pass) : Bool :=
  let dests := p.captured.flatMap fun x => s.scoredDests p.quay p.ctx x.kind x.desc
  let earlier := s.parked.any fun o => o.quay == p.quay &&
    o.commitWait.any fun n => match p.commitWait with | some m => decide (n < m) | none => true
  p.captured.isEmpty ||
    (!earlier && s.roomFor p.quay p.captured.length dests)

/-- Take a place among the commits that wait for entries (R116). -/
def State.queueCommit (s : State) : State :=
  match s.pass.commitWait with
  | some _ => s.stall
  | none =>
    let (id, s) := s.fresh
    { s with pass := { s.pass with commitWait := some id } }.stall

/-- Whether the branch is an `exit` (R328). -/
def Fired.exits (f : Fired) : Bool := match f.kind with | .exit _ => true | _ => false

/-- The pass is over: its tag goes back, its branch takes effect (R165, R192 step 5). -/
def State.endPass (s : State) (p : Pass) (f : Fired) : State :=
  let s := (s.dropPass p.quay p.plane p.tag).freeTag p.quay p.plane p.tag
  let s := s.takeBranch p f
  ((((s.forget p).arrive p.quay p.slot (some p.plane)).tidy p.quay).settleGreds).wakePasses

/-- Whether writes of a slot that have left their block are still to be performed, barrier arrivals aside (R271, R328). -/
def Thread.writesOut (t : Thread) : Bool := t.released.any fun r => match r.kind with | .barArrive _ => false | _ => true

/-- The commit itself, taken whole (R192).  A thread that leaves does so once nothing that the commit released is outstanding
(R271). -/
def State.commitPass (s : State) (p : Pass) (f : Fired) : State :=
  let q := p.quay
  let sl := p.slot
  let t := ((s.thread q sl).applySlots p).afterCommit p
  let s := s.setThread { t with poisonRuns := 0 }
  let s := (p.swrs.mergeSort fun a b => decide (a.1 ≤ b.1)).foldl (fun s x => s.applySwr q sl p.ctx x.2.1 x.2.2) s
  let t := s.thread q sl
  let s := s.setThread { t with fpctl := t.fpctl ||| p.raised.zeroExtend 64 }
  let now := s.atOnce p f.exits
  let rest := p.writes.filter fun x => !now.contains x
  let base := s.nextId
  let s : State := { s.performAll p now with nextId := base + 512 }
  let s := s.releaseAll p base rest
  let s := p.toIssue.foldl (fun s x => s.issue p (s.thread q sl) base x) s
  let s := p.arrivals.foldl (fun s a => s.gredArrive p (s.thread q sl).group a) s
  let s := p.arrives.foldl (fun s b =>
    let (id, s) := s.fresh
    s.setThread ((s.thread q sl).arriveBar b id)) s
  if f.exits && (s.thread q sl).writesOut then ({ s with pass := { p with leaving := 2 } } : State).stall else s.endPass p f

/-- The memory writes of a block that holds `exit` leave before it commits (R271, R328): those of this module are performed, the
others sent. -/
def State.sendWrites (s : State) (p : Pass) : State :=
  let now := s.atOnce p true
  let rest := p.writes.filter fun x => x.1.onMemory && !now.contains x
  let base := s.nextId
  let s : State := { s.performAll p now with nextId := base + 512 }
  let s := s.releaseAll p base rest
  { s with pass := { p with stores := p.stores.filter fun r => !r.onMemory, shadows := [], b128 := [], remoteHeld := [], leaving := 1 } }

/-- A block that holds `exit` (R271, R328): its writes leave; it commits once all of them are performed, and traps where one was
refused, also where that is one it sent to another module (DEDUCED, log entry 93). -/
def State.commitExit (s : State) (p : Pass) (f : Fired) : State :=
  let s := s.sendWrites p
  let t := s.thread p.quay p.slot
  if t.writesOut then s.stall
  else
    match t.late with
    | n :: ns => (s.setThread { t with late := ns }).trapPass s.pass (p.withOperands { n with idx := f.idx })
    | [] => s.commitPass s.pass f

/-- What holds at other modules before the commit (R508): the first store that must, asked for; `none` once all are held.  A stale
one is walked again, and the page of a store that faults traps as that store's (R104, R113). -/
def State.holdRemote (s : State) (p : Pass) : Option State :=
  match s.toHold p with
  | [] => none
  | (r, m) :: _ =>
    match r.loc with
    | .vault _ _ => none
    | .glob a =>
      let own := r.idx
      let y := p.waiter r
      if s.someWait (· == y) then some s.stall
      else
        match s.remoteOf own a with
        | none =>
          if s.reachable m then some (s.remoteSend m own a r.bytes.length r.gen (.atomic r.bytes.length)).stall
          else some (s.trapPass p (p.withOperands { cause := cNoMem, idx := own, addr := r.va }))
        | some x =>
          let drop : State := { s with remotes := s.remotes.erase x }
          match x.answer, x.stale, x.cause with
          | some _, _, _ => some { drop with pass := p.hold (a / 128) x.tag }
          | none, some g, _ => some (drop.rewalkFor y p.quay r.ctx r.va.toNat .store g).stall
          | none, none, some c => some (drop.trapPass p (p.withOperands { cause := c, idx := own, addr := r.va }))
          | none, none, none => some s.stall

/-- COMMIT (R116, R192, R258, R271, R277, R328, R508): waits while the block's entries, reduction cells or order require it,
then takes effect whole. -/
def execCommit (s : State) : Out :=
  .next <|
    let p := s.pass
    match p.fired with
    | [f] =>
      if p.live = false ∨ p.resolved = false then s
      else
        let t := s.thread p.quay p.slot
        if p.leaving = 2 then if t.writesOut then s.stall else s.endPass p f
        else if (f.exits || !p.shadows.isEmpty) && t.writesOut then s.stall
        else
          match if f.exits then t.late else [] with
          | n :: ns => (s.setThread { t with late := ns }).trapPass p (p.withOperands { n with idx := f.idx })
          | [] =>
            if s.gredReady p t.group = false then s.stall
            else if s.entriesReady p = false then s.queueCommit
            else
              match s.holdRemote p with
              | some s => s
              | none =>
                match s.canPerform p f.exits s (s.atOnce p f.exits) with
                | .wait s => s.stall
                | .refused r c a =>
                  s.trapPass p (p.withOperands { cause := c, idx := if f.exits then f.idx else r.idx, addr := a })
                | .yes => if f.exits then s.commitExit p f else s.commitPass p f
    | _ => s

/-! ### Released writes reaching their point (R270, R271) -/

/-- STORE_PERFORM (R109, R270, R271): the oldest released write of a slot is performed, or walked again, or refused: dropped, and
its thread traps at its next block entry. -/
def execStorePerform (quay slot : Nat) (s : State) : Out :=
  .next <|
    match (s.thread quay slot).released with
    | [] => s
    | r :: rest =>
      match s.perform (.write quay slot) quay slot r with
      | .wait s => s
      | .stale g s => s.rewalkWrite quay slot r g
      | .done s => (s.setThread { s.thread quay slot with released := rest }).wakePasses
      | .refused c a s =>
        let t := s.thread quay slot
        let late := if t.st == .idle || t.st == .free then t.late else t.late ++ [{ cause := c, idx := 0x7F, addr := a }]
        (s.setThread { t with released := rest, late := late }).wakePasses

/-! ### Holds (R273) -/

/-- Whether a request waits on a location that a pass of a slot holds: of another pass or a released write, of an engine or
another agent, or of a cache by coherence. -/
def State.locWanted (s : State) (q sl : Nat) (l : Loc) : Bool :=
  (s.passes.any fun o => !(o.quay == q && o.slot == sl) && !o.notReady && o.waitLoc.any (·.sameUnit l)) ||
    (s.threads.any fun t => !(t.quay == q && t.slot == sl) && (t.released.head?.any fun r => r.loc.sameUnit l)) ||
    (s.holdWaits.any fun x => x.2.sameUnit l) ||
    (match l with
      | .glob a => (s.net ++ s.homeWait).any fun m => m.line == a / 128 && m.holder == q &&
          (match m.body with | .inv _ | .collect | .fwds | .pact _ => true | _ => false)
      | .vault _ _ => false)

/-- End the holds of a pass: its shadows go, it is not ready (R273). -/
def Pass.break (p : Pass) : Pass := { p with shadows := [], remoteHeld := [], notReady := true, resolved := false, stalled := false }

/-- Break the holds of a pass in flight (R273): each home of another module is told the discard. -/
def State.breakPass (s : State) (p : Pass) : State :=
  (((s.endRemote p).modPass p.quay p.slot Pass.break).unpark).wakePasses

/-- Whether a request other than a read waits at its home for a location that another module's atomic holds (R272, R273). -/
def State.homeWanted (s : State) (h : RemoteHold) : Bool :=
  s.locWanted 1000 0 (.glob (h.line * 128)) ||
    (s.net ++ s.homeWait).any fun m => m.line == h.line &&
      match m.body with
      | .gets _ _ _ | .getm _ _ _ | .preq => true
      | .uncached b _ src tag _ _ => !(src == h.src && tag == h.tag) && (match b with | .load _ => false | _ => true)
      | _ => false

/-- The home of a location that another module's atomic holds tells that module that the hold is broken, once (R273): 2,048 cycles
old with a request waiting, or at a persistent request. -/
def State.homeBreak (s : State) (h : RemoteHold) : State :=
  let pers := (s.net ++ s.homeWait).any (fun m => m.line == h.line && m.body == .preq) || s.pers.any (·.line == h.line)
  if !h.told && ((decide (s.clock ≥ h.since + 2048) && s.homeWanted h) || pers) then
    ({ s with remoteHolds := tmod (· == h) (fun h => { h with told := true }) s.remoteHolds } : State).sendLinks 0 [.breakHold h.src h.tag]
  else s

/-- HOLD_BREAK (R273): the hold of the `n`-th pass in flight after 2,048 cycles with a request waiting on that same location; past
the passes, the `n`-th hold of another module's atomic here. -/
def execHoldBreak (n : Nat) (s : State) : Out :=
  .next <|
    let s : State := { s with holdWaits := s.holdWaits.filter fun x => s.heldAny x.2 }
    match s.passes[n]? with
    | none =>
      match s.remoteHolds[n - s.passes.length]? with
      | some h => s.homeBreak h
      | none => s
    | some p => if p.holdAges.any fun h => decide (s.clock ≥ h.2 + 2048) && s.locWanted p.quay p.slot h.1 then s.breakPass p else s

/-- Another module's home breaks the hold that a pass has there under a tag (R273). -/
def State.brokenHold (s : State) (peer tag : Nat) : State :=
  let far := fun (line t : Nat) => t == tag && bitsOf (line * 128) 44 8 == peer
  let hit := fun (p : Pass) => p.leaving == 0 && ((p.remoteHeld.any fun h => far h.1 h.2) ||
    s.remotes.any fun r => r.write && far (r.pa / 128) r.tag &&
      match r.who with | .thread q sl _ _ => q == p.quay && sl == p.slot | _ => false)
  match s.passes.find? hit with
  | some p => s.breakPass p
  | none => s

/-! ### Barriers and completion waits (R332, R333, R337, R507) -/

/-- BARRIER_ARRIVAL (R332, R333): the arrival at the head of a slot's released writes is counted. -/
def execBarrierArrival (quay slot : Nat) (s : State) : Out :=
  .next <|
    let t := s.thread quay slot
    match t.released with
    | { kind := .barArrive b, .. } :: rest =>
      let s := s.setThread { t with released := rest }
      let s := s.modGroup t.group fun g =>
        if g.bars.any (fun x => x.b == b) then
          { g with bars := tmod (fun x => x.b == b) (fun x => { x with count := x.count + 1 }) g.bars }
        else { g with bars := g.bars ++ [{ b := b, count := 1 }] }
      (s.settleBars t.group (s.group t.group).bars).wakePasses
    | _ => s

/-- Outcome of a read of a completion object. -/
inductive CoRead where
  | value (o : BitVec 128) (s : State)
  | trap (cause : BitVec 8) (s : State)
  | wait (s : State)

/-- An acquire read of the object a BLOCKED thread waits for (R337, R507), after the thread's own earlier writes of it
(R296, R298). -/
def State.coRead (s : State) (t : Thread) (va : Word) (l : Loc) : CoRead :=
  let q := t.quay
  let c := t.runCtx
  let y : Waiter := .object q t.slot
  match l with
  | .vault tq off =>
    if s.holdsQuay c tq = false then (if s.vaultComing c then .wait s else .trap cVaultRef s)
    else if s.scored tq off 16 || t.pending l 16 then .wait s
    else
      match s.lineToFill tq off 16 with
      | some (ln, g) =>
        match s.fillFor y ln g with
        | (some k, s) => .trap k s
        | (none, s) => .wait s
      | none =>
        if s.vpoison tq off 16 then .trap cPoison s
        else .value (BitVec.ofNat 128 (leNat (s.vread tq off 16))) (s.chargeVault tq c 16)
  | .glob _ =>
    if s.someWait (ofThread q t.slot) then .wait s
    else
      match s.tlbHit q c va.toNat false with
      | none => .wait (s.addMiss c { who := y, quay := q, kind := .load, va := va.toNat })
      | some e =>
        let x := e.xlate va.toNat
        if t.pending (.glob x.pa) 16 then .wait s
        else
          match (s.touch e).readLine y q q c x 16 with
          | .ok bs md s => if md.poison then .trap cPoison s else .value (BitVec.ofNat 128 (leNat bs)) (s.dropFar y)
          | .wait s => .wait s
          | .refused k s => .trap k s
          | .stale g s => .wait (s.rewalkFor y q c va.toNat .load g)

/-- One turn of the loop of R337. -/
def State.coTurn (s : State) (q sl : Nat) : State :=
  let t := s.thread q sl
  match t.st, t.on with
  | .blocked, .object va l old sc _ =>
    match s.coRead t va l with
    | .trap c s =>
      ((s.dropFar (.object q sl)).takeTrap t { cause := c, idx := 0x7F, addr := objectAddr va l } t.nba).arrive q sl none
    | .wait s => s
    | .value o s =>
      if o.getLsbD 0 == old then s.setThread { t with on := .object va l old sc s.clock }
      else
        let s := s.leaveEntries q sl
        (s.setThread { t with st := .waiting, on := .none }).arrive q sl none
  | _, _ => s

/-- CO_WAIT_WAKE (R337): a wake of the wait table: the object is read again. -/
def execCoWaitWake (quay slot : Nat) (s : State) : Out :=
  .next <|
    let mine := fun (w : WaitEntry) => w.quay == quay && w.woken.contains slot
    if s.waits.any mine then
      let awake := tmod mine (fun w => { w with woken := w.woken.filter (· != slot) }) s.waits
      match (s.thread quay slot).on with
      | .object va l old sc _ =>
        ({ s with waits := awake }.setThread { s.thread quay slot with on := .object va l old sc 0 }).coTurn quay slot
      | _ => { s with waits := awake }
    else s

/-- CO_WAIT_POLL (R337): a waiter reads its object again after 256 cycles. -/
def execCoWaitPoll (quay slot : Nat) (s : State) : Out :=
  .next <|
    match (s.thread quay slot).on with
    | .object _ _ _ _ last => if last = 0 ∨ s.clock ≥ last + 256 then s.coTurn quay slot else s
    | _ => s

end Sys2Proof.Machine
end

