-- ==== Sys2Proof/Machine/Engines.lean ====
section
/-! DEFINITION. Engine operations at work: copies, seals, mapped regions, gathers, collectives, freezes, and the raise of
a completion object (R116 to R150, R287 to R293). -/

namespace Sys2Proof.Machine

/-! ### Operations -/

/-- An operation by its number. -/
def State.op? (s : State) (id : Nat) : Option EngOp := s.ops.find? fun o => o.id == id

/-- Accesses of an operation at other modules are under way. -/
def State.opFar (s : State) (id : Nat) : Bool := s.remotes.any fun r => r.who == .op id

/-- Accesses at other modules of the waiters `mine` are withdrawn; a hold that one may have there ends (R272). -/
def State.withdrawFar (s : State) (mine : Waiter → Bool) : State :=
  let rs := s.remotes.filter fun r => mine r.who
  let rs := rs.filter fun r => !r.write
  let ends := rs.map fun r => LinkOut.request r.peer r.tag r.pa 0 (.endHold [])
  let s : State := { s with remotes := s.remotes.filter fun r => !mine r.who }
  (rs.zip ends).foldl (fun s x => s.sendLinks (s.waiterCtx x.1.who) [x.2]) s

/-- Whether a pre-emption holds an operation back (R124, R129, R378): until its quay's engines stand at their stop the chunk
an operation has begun at another module goes on, as do the steps of a sequence, and `seq.attn` to the end of its tile. -/
def State.opHalted (s : State) (o : EngOp) : Bool :=
  !o.ended && (s.engStopped o.quay || s.vaultComing o.ctx ||
    match o.kind with
    | .seqGemm => s.pairHalted o.quay
    | .seqAttn => s.pairHalted o.quay && o.phase == 0
    | _ => s.engHalted o.quay && o.parent.isNone && !s.opFar o.id)

/-- Writes an operation must observe (R118): the earlier stores of its thread are not yet performed. -/
def State.storesPending (s : State) (o : EngOp) : Bool :=
  match o.slot with
  | none => false
  | some sl =>
    (s.thread o.quay sl).released.any fun r =>
      decide (r.id < o.id) &&
        match r.kind with
        | .pgAck _ _ | .barArrive _ | .launch => false
        | _ => true

/-- An operation may take a step now, whatever stores of its thread are still to come. -/
def State.opAwake (s : State) (o : EngOp) : Bool := !o.finished && !o.waiting && !s.opHalted o

/-- An operation may take a step now (R118). -/
def State.opRuns (s : State) (o : EngOp) : Bool := s.opAwake o && !s.storesPending o

/-- An operation keeps its references on the buffers that it may still read, where `left` are the vault ranges it has yet to
read; the others go (R145). -/
def State.keepRefs (s : State) (id : Nat) (left : List (Nat × Nat × Nat)) : State :=
  match s.op? id with
  | none => s
  | some o =>
    let kept := fun (k : Nat) => s.regions.any fun r => r.key == k &&
      left.any fun y => y.1 == r.quay && overlaps y.2.1 y.2.2 (r.vpg * 4096) ((r.npg + 1) * 4096)
    ((o.refsAt.filter fun k => !kept k).foldl (fun s k => s.modRegion k fun r => { r with refs := r.refs - 1 }) s).modOp id fun o =>
      { o with refsAt := o.refsAt.filter kept }

/-- The references an operation holds go (R145). -/
def State.dropRefs (s : State) (id : Nat) : State := s.keepRefs id []

/-- An operation ends its work with a status (R122): the references it holds go (R145). -/
def State.endOp (s : State) (id st : Nat) : State :=
  (s.dropRefs id).modOp id fun o => { o with finished := true, status := if st = 0 then o.status else st }

/-- Poisoned data was read: status 1, and the operation goes on (R122). -/
def State.markPoison (s : State) (id : Nat) : State := s.modOp id fun o => { o with status := if o.status = 0 then 1 else o.status }

/-- The status a refusal of the home gives (R122). -/
def causeStatus (c : BitVec 8) : Nat :=
  if c = cFmt then 2 else if c = cFrozen then 3 else if c = cPart then 4 else 7

/-! ### Global lines (R119, R87) -/

/-- Outcome of asking for something on behalf of an operation. -/
inductive Asked (α : Type) where
  | ok (v : α) (s : State)
  | wait (s : State)
  | fail (status : Nat) (s : State)

/-- Go on with what was asked. -/
def Asked.andThen (a : Asked α) (k : α → State → Asked β) : Asked β :=
  match a with
  | .ok v s => k v s
  | .wait s => .wait s
  | .fail st s => .fail st s

/-- Translate for an operation (R108): a miss walks and the operation waits at its chunk. -/
def State.opXlate (s : State) (o : EngOp) (q c va : Nat) (write : Bool) (refused : Option (BitVec 8)) : Asked Xlate :=
  let s := s.payBy c
  let walk (s : State) : Asked Xlate :=
    .wait ((s.addMiss c { who := .op o.id, quay := q, kind := if write then .engWrite else .engRead, va := va,
                          refused := refused }).modOp o.id fun o => { o with waiting := true })
  if va ≥ 2 ^ 56 then .fail 5 s
  else
    match refused with
    | some _ => walk (s.dropTlb q c va)
    | none =>
      match s.tlbHit q c va write with
      | some e =>
        let s := s.touch e
        match (if write then s.sawWrite q c e va else .done s) with
        | .done s => .ok (e.xlate va) s
        | .wait s => .wait s
        | .fault => .wait s
      | none => walk s

/-- Go on with what was read of a line on behalf of an operation; a stale one is walked again (R104). -/
def LineSays.asked (r : LineSays) (o : EngOp) (q c va : Nat) (write : Bool) : Asked (List Byte × LineMeta) :=
  match r with
  | .ok bs md s => .ok (bs, md) s
  | .wait s => .wait s
  | .refused k s => .fail (causeStatus k) s
  | .stale g s => (s.opXlate o q c va write (some g)).andThen fun _ s => .wait s

/-- Drop the answers an operation has used. -/
def State.dropRemotes (s : State) (o : EngOp) : State := s.dropFar (.op o.id)

/-- Bytes of one global line for an operation, through the copy engine read buffer of quay `q` (R87, R119). -/
def State.opRead (s : State) (o : EngOp) (q c va n pos : Nat) : Asked Piece :=
  (s.opXlate o q c va false none).andThen fun x s =>
    ((s.readLine (.op o.id) (copyHolder q) q c x n).asked o q c va false).andThen fun r s =>
      .ok { pos := pos, bytes := r.1, md := r.2 } s

/-- A global line that an operation may write: all its tokens in the buffer of quay `q` (R85, R87, R119), held by nobody
(R272), or a line of another module. -/
def State.opLine (s : State) (o : EngOp) (q c va : Nat) : Asked Xlate :=
  (s.opXlate o q c va true none).andThen fun x s =>
    let line := x.pa / 128
    let h := copyHolder q
    match s.paKind x.pa with
    | .control _ _ | .none => .fail 7 s
    | .remote _ => .ok x s
    | _ =>
      match s.answerOf h line (.op o.id) true with
      | some a =>
        let s := s.clearAnswer a
        if a.stale then s.opXlate o q c va true (some a.gen) else .fail (causeStatus a.cause) s
      | none =>
        if s.writable h line then if s.heldAny (.glob x.pa) then .wait (s.waitHeld (.op o.id) (.glob x.pa)) else .ok x s
        else
          .wait (s.request { holder := h, line := line, write := true, gen := x.gen, ctx := c, quay := q, who := [.op o.id] })

/-- Send a write of an operation to another module's home (R450); nothing to do for a line of this module. -/
def State.opSend (s : State) (o : EngOp) (q c va : Nat) (x : Xlate) (bs : List Byte) (poison : Bool) : Asked Unit :=
  match s.paKind x.pa with
  | .remote mod =>
    ((s.askFar (.op o.id) mod x.pa bs.length x.gen true none (.store bs poison)).asked o q c va true).andThen fun _ s => .ok () s
  | _ => .ok () s

/-- Write bytes of a line of this module that `opLine` gave (R85, R502). -/
def State.opWrite (s : State) (q : Nat) (x : Xlate) (bs : List Byte) (poison : Bool) : State :=
  match s.paKind x.pa with
  | .remote _ => s
  | _ => s.cacheWrite (copyHolder q) x.pa bs poison

/-- Cut a range into parts that do not cross a boundary of `unit`: position and length of each. -/
def cutAt (unit a pos : Nat) : Nat → Nat → List (Nat × Nat)
  | _, 0 => []
  | 0, _ => []
  | len, fuel + 1 =>
    let n := min len (unit - a % unit)
    (pos, n) :: cutAt unit (a + n) (pos + n) (len - n) fuel

/-- Ask for each part of a list; the requests of all parts go out together. -/
def askEach (f : State → β → Asked α) : List β → State → Asked (List α)
  | [], s => .ok [] s
  | p :: ps, s =>
    match f s p with
    | .ok v s => (askEach f ps s).andThen fun vs s => .ok (v :: vs) s
    | .fail st s => .fail st s
    | .wait s =>
      match askEach f ps s with
      | .ok _ s | .wait s => .wait s
      | .fail st s => .fail st s

/-! ### Vault ranges for operations -/

/-- Fill what an engine read of a vault range needs (R141): a miss is an engine read of the operation. -/
def State.opFill (s : State) (o : EngOp) (q off n : Nat) : Asked Unit :=
  match s.lineToFill q off n with
  | none => .ok () s
  | some (l, r) =>
    let va := r.vaOf (lineOff l)
    (s.opXlate o q r.ctx va false none).andThen fun x s =>
      match s.answerOf (copyHolder q) (x.pa / 128) (.op o.id) false with
      | some a => .fail (causeStatus a.cause) (s.clearAnswer a)
      | none => .wait (s.askFill q l (.op o.id))

/-- Read part of a vault line (R134, R141). -/
def State.opVault (s : State) (o : EngOp) (q off n pos : Nat) : Asked Piece :=
  (s.opFill o q off n).andThen fun _ s =>
    let l := s.vmeta (vline q off)
    .ok { pos := pos, bytes := s.vread q off n, md := ⟨l.lam, l.tag, l.poison⟩ } s

/-- Whether an operation holds a reference on a buffer of a range (R146). -/
def State.holdsRef (s : State) (o : EngOp) (q off n : Nat) : Bool :=
  (s.regionsOver q off n).any fun r => o.refsAt.contains r.key

/-- Whether anyone holds a 16-byte unit of a vault range (R272). -/
def State.heldRange (s : State) (q off n : Nat) : Bool :=
  (List.range ((off % 16 + n + 15) / 16)).any fun k => s.heldAny (.vault q (off / 16 * 16 + 16 * k))

/-- An operation notes the first unit of a vault range that is held (R273). -/
def State.noteHeld (s : State) (o : EngOp) (q off n : Nat) : State :=
  match (List.range ((off % 16 + n + 15) / 16)).find? fun k => s.heldAny (.vault q (off / 16 * 16 + 16 * k)) with
  | some k => s.waitHeld (.op o.id) (.vault q (off / 16 * 16 + 16 * k))
  | none => s

/-- Whether an engine write of part of a vault line may be made (R144, R146, R142). -/
def State.opBank (s : State) (o : EngOp) (q off n : Nat) : Asked Unit :=
  match s.bankWrite q off n false (s.holdsRef o q off n) (s.heldRange q off n) with
  | .go => .ok () s
  | .wait => .wait (s.noteHeld o q off n)
  | .refuse _ => .fail 6 s
  | .fill _ _ =>
    match s.opFill o q off n with
    | .ok _ s => .wait s
    | a => a

/-- Bytes of the pieces, in order. -/
def piecesBytes (ps : List Piece) : List Byte := ps.flatMap (·.bytes)

/-- Whether any byte of a part came from poisoned data. -/
def poisonedPart (ps : List Piece) (pos n : Nat) : Bool :=
  ps.any fun p => p.md.poison && overlaps pos n p.pos p.bytes.length

/-- Write part of a vault line from pieces read (R134, R119): a whole line from one source line keeps its metadata. -/
def State.vaultPart (s : State) (q off : Nat) (ps : List Piece) (all : List Byte) (p : Nat × Nat) : State :=
  let bs := (all.drop p.1).take p.2
  let poison := poisonedPart ps p.1 p.2
  if p.2 = 128 then
    match ps.find? fun x => x.pos == p.1 && x.bytes.length == 128 with
    | some x => s.vstoreLine q off bs x.md.lam x.md.tag poison
    | none => s.vstoreLine q off bs 0 0 poison
  else s.vstore q off bs poison

/-! ### Copies (R123 to R125, R287) -/

/-- The chunk a copy is at (R124): its length from position `o.next`. -/
def chunkLen (o : EngOp) (dst : Nat) : Nat := min (dLen o.desc - o.next) (4096 - (dst + o.next) % 4096)

/-- Source of a copy read for a chunk. -/
def State.readChunk (s : State) (o : EngOp) (n : Nat) : Asked (List Piece) :=
  let fromVault : Bool := match o.kind with
    | .cpV2g | .cpV2v => true
    | .cpMc => (dXtra o.desc).getLsbD 0
    | _ => false
  if fromVault then
    match s.vaultOperand (dSrc o.desc) o.quay o.ctx (dLen o.desc) with
    | .ok q off =>
      askEach (fun s p => s.opVault o q (off + o.next + p.1) p.2 p.1) (cutAt 128 (off + o.next) 0 n 40) s
    | .refused => .fail 4 s
    | _ => .fail 8 s
  else
    let va := (dSrc o.desc).toNat + o.next
    askEach (fun s p => s.opRead o o.quay o.ctx (va + p.1) p.2 p.1) (cutAt 128 va 0 n 40) s

/-- Destination vaults of a copy: quays and offset, or a status (R125, R285). -/
def State.copyVaults (s : State) (o : EngOp) : Except Nat (List Nat × Nat) :=
  let off := ((dDst o.desc).extractLsb' 0 24).toNat
  match o.kind with
  | .cpMc =>
    let qs := mcQuays o.quay o.desc
    if (dDst o.desc).extractLsb' 29 3 ≠ 0 then .error 8
    else if qs.all (s.holdsQuay o.ctx) = false then .error 4
    else if off + dLen o.desc > vaultEnd then .error 8
    else .ok (qs, off)
  | _ =>
    match s.vaultOperand (dDst o.desc) o.quay o.ctx (dLen o.desc) with
    | .ok q off => .ok ([q], off)
    | .refused => .error 4
    | _ => .error 8

/-- Lines that a quay's buffer holds for an operation go back to their homes, at its context's cost (R87, R132). -/
def State.returnLines (s : State) (o : EngOp) : State :=
  ((s.copies.filter fun c => c.holder == copyHolder o.quay).map (·.line)).foldl (fun s l => s.putBack (copyHolder o.quay) l)
    (s.payBy o.ctx)

/-- The quay whose vault an operation reads, or the one whose copy engine does. -/
def State.sourceQuay (s : State) (o : EngOp) : Nat :=
  let vault : Bool := match o.kind with
    | .cpV2g | .cpV2v | .gath => true
    | .cpMc => (dXtra o.desc).getLsbD 0
    | _ => false
  match s.vaultOperand (dSrc o.desc) o.quay o.ctx 0 with
  | .ok q _ => if vault then q else o.quay
  | _ => o.quay

/-- Charge a chunk for its way to the quays it goes to (R125, R132, R435): it crosses each die boundary once, to the first of
them, and fans out from there on their die. -/
def State.chargeChunk (s : State) (o : EngOp) (dests : List Nat) (n : Nat) : State :=
  match dests with
  | [] => s
  | q :: rest => rest.foldl (fun s d => s.chargeMove o.ctx q d n) (s.chargeMove o.ctx (s.sourceQuay o) q n)

/-- After a chunk: progress, poison, energy, and the tokens of its lines. -/
def State.chunkEnd (s : State) (o : EngOp) (n : Nat) (poison : Bool) (vaultBytes : Nat) : State :=
  let s := (s.dropRemotes o).returnLines o
  let s := s.charge (meterQuay o.quay) o.ctx 8 vaultBytes
  let s := if poison then s.markPoison o.id else s
  let s := s.modOp o.id fun o => { o with next := o.next + n }
  if o.next + n ≥ dLen o.desc then s.endOp o.id 0 else s

/-- A failed or waiting step of an operation. -/
def Asked.settle (a : Asked State) (o : EngOp) : State :=
  match a with
  | .ok s _ => s
  | .wait s => s
  | .fail st s => ((s.dropRemotes o).returnLines o).endOp o.id st

/-- One chunk of a copy into vaults. -/
def State.chunkToVaults (s : State) (o : EngOp) : Asked State :=
  match s.copyVaults o with
  | .error st => .fail st s
  | .ok (qs, off) =>
    let n := chunkLen o off
    let d := off + o.next
    let parts := cutAt 128 d 0 n 40
    (s.readChunk o n).andThen fun ps s =>
      let bank := qs.flatMap fun q => parts.map fun p => (q, p)
      let ready := bank.foldl (fun (a : Asked Unit) x => a.andThen fun _ s => s.opBank o x.1 (d + x.2.1) x.2.2) (.ok () s)
      ready.andThen fun _ s =>
        let all := piecesBytes ps
        let s := bank.foldl (fun s x => s.vaultPart x.1 (d + x.2.1) ps all x.2) s
        .ok ((s.chargeChunk o qs n).chunkEnd o n (ps.any (·.md.poison)) (n * (qs.length + 1))) s

/-- One chunk of `cp.v2g` (R119, R502). -/
def State.chunkToGlobal (s : State) (o : EngOp) : Asked State :=
  let va := (dDst o.desc).toNat
  let n := chunkLen o va
  let d := va + o.next
  let parts := cutAt 128 d 0 n 40
  (s.readChunk o n).andThen fun ps s =>
    let all := piecesBytes ps
    let bytes := fun (p : Nat × Nat) => (all.drop p.1).take p.2
    (askEach (fun s p => (s.opLine o o.quay o.ctx (d + p.1)).andThen fun x s => .ok (x, p) s) parts s).andThen fun xs s =>
      (askEach (fun s y => (s.opSend o o.quay o.ctx (d + y.2.1) y.1 (bytes y.2) (poisonedPart ps y.2.1 y.2.2)).andThen fun _ s =>
        .ok y s) xs s).andThen fun xs s =>
        let s := xs.foldl (fun s y => s.opWrite o.quay y.1 (bytes y.2) (poisonedPart ps y.2.1 y.2.2)) s
        .ok ((s.chargeChunk o [o.quay] n).chunkEnd o n (ps.any (·.md.poison)) n) s

/-- COPY_CHUNK_DONE (R122 to R125, R134, R287): the next 4 KiB chunk of a copy is read and written. -/
def execCopyChunkDone (op : Nat) (s : State) : Out :=
  .next <|
    match s.op? op with
    | none => s
    | some o =>
      if s.opRuns o = false then s
      else if o.status > 1 then s.endOp op 0
      else
        match o.kind with
        | .cpG2v | .cpV2v | .cpMc => (s.chunkToVaults o).settle o
        | .cpV2g => (s.chunkToGlobal o).settle o
        | _ => s

/-- SCOREBOARD_RETIRE (R147, R148): entry `n` of a quay's scoreboard once its operation has written its last or stopped. -/
def execScoreboardRetire (quay n : Nat) (s : State) : Out :=
  .next <|
    let mine := fun (e : Score) => e.quay == quay && e.n == n
    if s.scores.any fun e => mine e && ((s.op? e.op).all fun o => o.finished) then
      { s with scores := tdel mine s.scores }.wakePasses
    else s

/-! ### Completion raises (R121, R150, R169) -/

/-- An operation leaves the table (R116, R117); its group keeps its status (R169). -/
def State.joinOp (s : State) (o : EngOp) (st : Nat) (failed : Bool) : State :=
  let s := match o.group with
    | some g => s.modGroup g fun g => { g with estat := g.estat || st != 0, efault := g.efault || failed }
    | none => s
  -- a step of a sequence hands its status on (R129)
  let s := match o.parent with
    | some p => s.modOp p fun x => { x with status := if x.status ≤ 1 then max x.status st else x.status }
    | none => s
  { s with ops := tdel (fun x => x.id == o.id) s.ops }.wakePasses

/-- The raise itself: the object written, waited for, or refused. -/
def State.raiseAt (s : State) (o : EngOp) (st : Nat) : Asked State :=
  if o.co = 0 then .ok s s
  else if o.co.getLsbD 63 then
    match s.vaultOperand (o.co.extractLsb' 0 36 |>.zeroExtend 64) o.quay o.ctx 16 with
    | .ok q off => (s.opBank { o with refsAt := [] } q off 16).andThen fun _ s => .ok (s.vRaise q off o.ctx st) s
    | _ => .fail 8 s
  else
    (s.opLine o o.quay o.ctx o.co.toNat).andThen fun x s =>
      match s.paKind x.pa with
      | .remote mod =>
        ((s.farUpdate (.op o.id) mod x.pa 16 x.gen (raisedBytes st)).asked o o.quay o.ctx o.co.toNat true).andThen fun _ s =>
          Asked.ok (s.dropRemotes o) (s.dropRemotes o)
      | _ =>
        let s := s.cacheWrite (copyHolder o.quay) x.pa (raisedBytes st (s.gbytes x.pa 16)) false
        Asked.ok (s.putBack (copyHolder o.quay) (x.pa / 128)) s

/-- Write the report of `frz` or `thaw` into XTRA of its descriptor (R293), an engine write at the bank (R144, R146). -/
def State.writeReport (s : State) (o : EngOp) : Asked Unit :=
  match o.kind, o.queue with
  | .frz, none | .thaw, none =>
    let why := if o.status ≠ 0 then 3 else o.report
    if s.holdsQuay o.ctx o.quay = false then .fail 4 s
    else (s.opBank o o.quay o.a.toNat 8).andThen fun _ s =>
      .ok () ((s.chargeVault o.quay o.ctx 8).vstore o.quay o.a.toNat (leBytes 8 (o.next + why * 2 ^ 32)) false)
  | _, _ => .ok () s

/-- COMPLETION_RAISE (R121, R147, R150, R306): after the work, its scoreboard entries and the earlier stores of its thread,
the object is raised once. -/
def execCompletionRaise (op : Nat) (s : State) : Out :=
  .next <|
    match s.op? op with
    | none => s
    | some o =>
      if o.finished = false ∨ o.waiting = true ∨ s.opHalted o = true ∨ s.storesPending o = true ∨
          (s.scores.any fun e => e.op == op) = true then s
      else if o.phase < 100 then
        -- the status so far is kept aside, so that a refusal of the raise itself is told apart
        let aside (s : State) (st : Nat) : State := s.modOp op fun o => { o with phase := 100 + st, status := 0, report := 0 }
        match s.writeReport o with
        | .ok _ s => aside s o.status
        | .wait s => s
        | .fail st s => aside s (if o.status = 0 then st else o.status)
      else
        let st := o.phase - 100
        if o.status ≠ 0 then s.joinOp o st true
        else
          match s.raiseAt o st with
          | .ok s _ => s.joinOp o st false
          | .wait s => s
          | .fail _ s => s.joinOp o st true

/-! ### Mapped regions (R140 to R143) -/

/-- MAPPED_FILL (R141): line `line` of a quay's vault is filled from its global address with the line's metadata.  A home
that refuses the read refuses it to each access that waits; a stale one is walked again for each (R104). -/
def execMappedFill (quay line : Nat) (s : State) : Out :=
  .next <|
    match s.fills.find? fun f => f.quay == quay && f.line == line with
    | none => s
    | some f =>
      let y : Waiter := .fill quay line
      let drop (s : State) : State := ({ s with fills := s.fills.erase f }.dropFar y).wakePasses
      let off := lineOff line
      match s.regionAt quay off with
      | none => drop s
      | some r =>
        if !r.mapped || r.st == .unmapping || (s.vmeta line).v then drop s
        else
          let va := r.vaOf off
          match s.tlbHit quay r.ctx va false with
          | none => drop s
          | some e =>
            let x := e.xlate va
            let h := copyHolder quay
            match ((s.touch e).payBy r.ctx).readLine y h quay r.ctx x 128 with
            | .wait s => s
            | .refused k s =>
              drop { s with answers := s.answers ++ f.who.map fun w => { holder := h, line := x.pa / 128, who := w, cause := k } }
            | .stale g s =>
              drop (f.who.foldl (fun s w => s.addMiss r.ctx { who := w, quay := quay, kind := .engRead, va := va, refused := some g })
                (s.dropTlb quay r.ctx va))
            | .ok bs md s =>
              let s := (s.chargeVault quay r.ctx 128).vstoreLine quay off bs md.lam md.tag md.poison
              drop ((s.setVmeta { s.vmeta line with v := true, d := false }).putBack h (x.pa / 128))

/-- The lowest dirty line of a region from its `n`-th line on. -/
def State.dirtyLine (s : State) (r : Region) (n : Nat) : Option VLine :=
  let lo := vline r.quay (r.vpg * 4096)
  (s.vlines.filter fun l => l.v && l.d && decide (lo + n ≤ l.key) && decide (l.key < lo + (r.npg + 1) * 32)).foldl
    (fun b l =>
      match b with
      | some x => if l.key < x.key then some l else some x
      | none => some l) none

/-- The bank reads a line for write-back: its D is cleared, and the write-back stands past it (R143). -/
def State.lineRead (s : State) (o : EngOp) (r : Region) (key : Nat) (busy : Option Nat) : State :=
  (s.setVmeta { s.vmeta key with d := false }).modOp o.id fun o =>
    { o with next := key + 1 - vline r.quay (r.vpg * 4096), claimed := busy, lineAt := none }

/-- The failure of a line's write-back: the line is dropped, the first status kept. -/
def State.lineLost (s : State) (o : EngOp) (r : Region) (key st : Nat) : State :=
  ((s.dropRemotes o).lineRead o r key none).modOp o.id fun o => { o with status := 0, report := if o.report = 0 then st else o.report }

/-- One line of a write-back (R143): written whole with W; a line that faults is dropped and the status kept.  A line of
another module is read at the bank when its store is sent. -/
def State.writeBackLine (s : State) (o : EngOp) (r : Region) (l : VLine) : State :=
  let off := lineOff l.key
  if o.status ≠ 0 then s.lineLost o r l.key o.status
  else
    match s.opLine o r.quay r.ctx (r.vaOf off) with
    | .wait s => s.modOp o.id fun o => { o with lineAt := some l.key }
    | .fail st s => s.lineLost o r l.key st
    | .ok x s =>
      let sent := o.claimed.isSome
      match s.opSend o r.quay r.ctx (r.vaOf off) x (s.vread r.quay off 128) l.poison with
      | .wait s => if sent then s else s.lineRead o r l.key (some l.key)
      | .fail st s => if sent then (s.dropRemotes o).modOp o.id fun o => { o with claimed := none, report := if o.report = 0 then st else o.report }
                      else s.lineLost o r l.key st
      | .ok _ s =>
        let s := s.chargeVault r.quay o.ctx 128
        if sent then (s.dropRemotes o).modOp o.id fun o => { o with claimed := none }
        else ((s.opWrite r.quay x (s.vread r.quay off 128) l.poison).putBack (copyHolder r.quay) (x.pa / 128)).lineRead o r l.key none

/-- `vflush` or `vunmap` at work (R143): its state is taken, then each dirty line is written once, in order, then `after` is
done. -/
def State.writeBack (s : State) (o : EngOp) (st : RegionSt) (after : State → Region → State) : State :=
  match s.regionOf o true with
  | none => s.endOp o.id (if o.phase = 0 then 8 else o.report)
  | some r =>
    if o.phase = 0 then
      if r.st == .active then
        (s.modRegion r.key fun r => { r with st := st }).modOp o.id fun o => { o with phase := 1 }
      else s
    else
      -- the line it waits with stays the one it is at
      match (match o.claimed.or o.lineAt with | some k => some (s.vmeta k) | none => s.dirtyLine r o.next) with
      | some l => s.writeBackLine o r l
      | none => ((after s r).endOp o.id o.report).wakePasses

/-- VFLUSH_DONE (R143): one line of a `vflush`, or its end. -/
def execVflushDone (op : Nat) (s : State) : Out :=
  .next <|
    match s.op? op with
    | some o =>
      if s.opRuns o && o.kind == .vflush then
        -- the write-back of a hand-over leaves the region's state (R151)
        s.writeBack o .flushing fun s r => if o.ended then s else s.modRegion r.key fun r => { r with st := .active }
      else s
    | none => s

/-- VUNMAP_DONE (R143): one line of a `vunmap`, or its end: the entry is freed. -/
def execVunmapDone (op : Nat) (s : State) : Out :=
  .next <|
    match s.op? op with
    | some o =>
      if s.opRuns o && o.kind == .vunmap then
        s.writeBack o .unmapping fun s r => { s with regions := s.regions.filter fun x => x.key != r.key }
      else s
    | none => s

/-! ### Seals (R144, R146) -/

/-- SEAL_DONE (R139, R144): the entry is made; when the thread's earlier stores are performed and no scoreboard entry
overlaps the range any more the buffer is sealed. -/
def execSealDone (op : Nat) (s : State) : Out :=
  .next <|
    match s.op? op with
    | none => s
    | some o =>
      let off := (dDst o.desc).toNat
      if s.opAwake o = false ∨ o.kind ≠ .seal then s
      else if o.phase = 0 then
        match s.addRegion { quay := o.quay, st := .sealing, ctx := o.ctx } off (dLen o.desc) with
        | none => s.endOp op 8
        | some s => s.modOp op fun o => { o with phase := 1 }
      else if s.storesPending o || s.scored o.quay off (dLen o.desc) then s
      else
        match s.regionOf o false with
        | none => s.endOp op 8
        | some r => (s.modRegion r.key fun r => { r with st := .sealed }).endOp op 0

/-- UNSEAL_DONE (R146): a sealed buffer turns unsealing, and is freed once no reference is left. -/
def execUnsealDone (op : Nat) (s : State) : Out :=
  .next <|
    match s.op? op with
    | none => s
    | some o =>
      if s.opRuns o = false ∨ o.kind ≠ .unseal then s
      else
        match s.regionOf o false with
        | none => s.endOp op (if o.phase = 0 then 8 else 0)
        | some r =>
          if o.phase = 0 then
            if r.st == .sealed then
              (s.modRegion r.key fun r => { r with st := .unsealing }).modOp op fun o => { o with phase := 1 }
            else s
          else if r.refs = 0 then
            ({ s with regions := s.regions.filter fun x => x.key != r.key }.endOp op 0).wakePasses
          else s

/-! ### Gathers (R126, R289) -/

/-- Bytes of an element of a format code. -/
def codeBytes (c : Nat) : Nat := if c = 3 ∨ c = 4 then 2 else 1

/-- A node of a quay. -/
def State.node (s : State) (q n : Nat) : Node := tget (fun x => x.quay == q && x.n == n) { quay := q, n := n } s.nodes

/-- The matrix unit of a pair. -/
def State.unit (s : State) (p : Nat) : MatrixUnit := tget (fun u => u.pair == p) { pair := p } s.units

/-- Node operand of an operation (R249). -/
def EngOp.nodeNo (o : EngOp) : Nat :=
  match o.kind with
  | .mma => o.co.toNat % 4
  | _ => o.a.toNat % 4

/-- K indices that a latch buffer holds of a row: 256 bytes (R126). -/
def segK (sa : Nat) : Nat := 256 / sa

/-- The latch buffer that a gather of a pair fills (R126): while the array drains one of the two, the other. -/
def State.gatherBuf (s : State) (p : Nat) : Nat :=
  let u := s.unit p
  match u.queue.head?.bind s.op? with
  | some o => if u.running then (u.kpos / segK (codeBytes (cfgA (s.node o.quay o.nodeNo).cfg)) + 1) % 2 else 0
  | none => 0

/-- Vault ranges that a gather has yet to read (R145): its index vector from entry `i` on, and the rows that these name, known
where a reference keeps the vector as it is. -/
def State.gatherLeft (s : State) (o : EngOp) (i : Nat) : List (Nat × Nat × Nat) :=
  let n := dAux o.desc % 65536
  let nrows := dAux o.desc / 65536
  let io := ((dXtra o.desc).extractLsb' 0 24).toNat
  let stride := ((dXtra o.desc).extractLsb' 32 24).toNat
  let fixed := s.regions.any fun r => o.refsAt.contains r.key && r.quay == o.quay && r.within io (2 * n)
  let rows := match s.vaultOperand (dSrc o.desc) o.quay o.ctx 0 with
    | .ok q off =>
      if fixed then
        (((List.range n).drop i).map fun j => leNat (s.vread o.quay (io + 2 * j) 2)).filterMap fun k =>
          if k < nrows then some (q, off + k * stride, dLen o.desc) else none
      else [(q, off, (nrows - 1) * stride + dLen o.desc)]
    | _ => []
  (o.quay, io + 2 * i, 2 * (n - i)) :: rows

/-- One row of a gather as its source reads it: zeros, a row with its metadata, or a status; whether the index was out of
range, and whether the index vector's line is poisoned (R122). -/
def State.gatherSource (s : State) (o : EngOp) (i : Nat) : Asked (List Piece × Bool × Bool) :=
  let len := dLen o.desc
  let nrows := dAux o.desc / 65536
  let zero := (List.range (len / 128)).map fun k => ({ pos := 128 * k, bytes := List.replicate 128 0 } : Piece)
  let io := ((dXtra o.desc).extractLsb' 0 24).toNat + 2 * i
  if io + 2 > vaultEnd then .fail 8 s
  else
    (s.opVault o o.quay io 2 0).andThen fun ix s =>
      let k := leNat ix.bytes
      if k = 0xFFFF then .ok (zero, false, ix.md.poison) s
      else if k ≥ nrows then .ok (zero, true, ix.md.poison) s
      else
        let stride := ((dXtra o.desc).extractLsb' 32 24).toNat
        match s.vaultOperand (dSrc o.desc) o.quay o.ctx 0 with
        | .ok q off =>
          let a := off + k * stride
          if a + len > vaultEnd then .fail 8 s
          else
            (askEach (fun s (p : Nat × Nat) => s.opVault o q (a + p.1) p.2 p.1) (cutAt 128 a 0 len 8) s).andThen fun ps s =>
              .ok (ps, false, ix.md.poison) s
        | .refused => .fail 4 s
        | _ => .fail 8 s

/-- The quay that a vault operand names, whoever holds it (R283). -/
def operandQuay (v : Word) (q : Nat) : Nat :=
  let code := (v.extractLsb' 32 4).toNat
  (if code = 0 then dieOf q else code - 8) * 32 + (v.extractLsb' 24 5).toNat

/-- One row of a gather (R289); it fills the latch buffer that the array does not drain (R126, log entry 66). -/
def State.gatherStep (s : State) (o : EngOp) : Asked State :=
  let len := dLen o.desc
  let rows := dAux o.desc % 65536
  let i := o.next
  let d := (dDst o.desc).toNat + i * len
  if basinOf (operandQuay (dSrc o.desc) o.quay) ≠ basinOf o.quay then .fail 4 s
  else
    (s.gatherSource o i).andThen fun r s =>
      if d + len > vaultEnd then .fail 8 s
      else
        let parts := cutAt 128 d 0 len 8
        (parts.foldl (fun (a : Asked Unit) p => a.andThen fun _ s => s.opBank o o.quay (d + p.1) p.2) (.ok () s)).andThen fun _ s =>
          let all := piecesBytes r.1
          let s := parts.foldl (fun s p => s.vaultPart o.quay (d + p.1) r.1 all p) s
          let buf := s.gatherBuf (pairOf o.quay)
          let key := fun (y : LatchRow) => y.quay == o.quay && y.buf == buf && y.row == i
          let s : State := { s with latch := tset key { quay := o.quay, buf := buf, row := i, bytes := all } s.latch }
          let s := (s.chargeVault o.quay o.ctx (2 * len + 2)).chargeChunk o [o.quay] len
          let s := if r.2.2 || r.1.any (·.md.poison) then s.markPoison o.id else s
          let s := s.modOp o.id fun o => { o with next := i + 1, report := if r.2.1 then 8 else o.report }
          let bad := r.2.1 || o.report == 8
          .ok (if i + 1 ≥ rows then s.endOp o.id (if bad then 8 else 0) else s.keepRefs o.id (s.gatherLeft o (i + 1))) s

/-- GATHER_ROW (R126, R245, R289): the next row of a gather; a follower's waits while an `mma` runs on its pair, between two
rows too (DESIGN CHOICE, log entry 86). -/
def execGatherRow (op : Nat) (s : State) : Out :=
  .next <|
    match s.op? op with
    | none => s
    | some o =>
      if s.opRuns o = false ∨ o.kind ≠ .gath ∨
          (o.quay % 2 = 1 ∧ (s.units.any fun u => u.pair == pairOf o.quay && u.running) = true) then s
      else if o.status > 1 then s.endOp op 0
      else (s.gatherStep o).settle o

/-! ### Collectives (R55, R127, R128, R290) -/

/-- Whether an operation is a collective. -/
def OpKind.isColl : OpKind → Bool
  | .allred _ | .redsc _ | .allgath | .bcast => true
  | _ => false

/-- The group list an operation names, read in the issuer's space (R290): header and entries, and whether any of it is
poisoned (R122). -/
def State.groupList (s : State) (o : EngOp) : Asked (Nat × List Nat × Bool) :=
  let va := (dXtra o.desc).toNat
  (s.opRead o o.quay o.ctx va 8 0).andThen fun h s =>
    let n := leNat h.bytes
    if n < 2 ∨ n > 4096 then .ok (n, [], h.md.poison) s
    else
      (askEach (fun s (p : Nat × Nat) => s.opRead o o.quay o.ctx (va + 8 + p.1) p.2 p.1) (cutAt 128 (va + 8) 0 (2 * n) 80) s).andThen
        fun ps s =>
          let bs := piecesBytes ps
          .ok (n, (List.range n).map (fun r => leNat ((bs.drop (2 * r)).take 2)), h.md.poison || ps.any (·.md.poison)) s

/-- The entry by which a group list names a quay of this module (R290). -/
def State.rankEntry (s : State) (q : Nat) : Nat := s.domain.mod.toNat * 256 + q

/-- The module of a rank entry (R290). -/
def entryMod (e : Nat) : Nat := e / 256

/-- The collective of a quay that a list names: its oldest one not yet finished whose list has been read as that. -/
def State.collOf (s : State) (q : Nat) (l : List Nat) : Option EngOp :=
  s.ops.find? fun o => o.quay == q && o.kind.isColl && !o.finished && o.idxs == l

/-- The oldest collective of a quay whose list has been read. -/
def State.oldestColl (s : State) (q : Nat) : Option EngOp :=
  s.ops.find? fun o => o.quay == q && o.kind.isColl && !o.finished && !o.idxs.isEmpty

/-- The same for a rank on another module. -/
def State.farColl (s : State) (e : Nat) (l : List Nat) : Option FarRank :=
  s.farRanks.find? fun f => f.mod == entryMod e && f.quay == e % 256 && f.desc.list == l

/-- The oldest collective of a rank on another module. -/
def State.oldestFar (s : State) (e : Nat) : Option FarRank :=
  s.farRanks.find? fun f => f.mod == entryMod e && f.quay == e % 256

/-- The modules of a list other than this one. -/
def State.farMods (s : State) (l : List Nat) : List Nat :=
  ((l.map entryMod).filter (· != s.domain.mod.toNat)).eraseDups

/-- Tell other modules of a collective. -/
def State.tell (s : State) (c : Nat) (mods : List Nat) (m : CollMsg) : State :=
  s.sendLinks c (mods.map fun p => LinkOut.coll p m)

/-- Peers of the load-store domain (R94). -/
def State.peers (s : State) : List Nat :=
  if s.domain.en then (s.domain.routes.filter fun r => r.2.getLsbD 63 && r.1 != s.domain.mod.toNat).map (·.1) else []

/-- End every operation of a collective. -/
def State.endAll (s : State) (os : List EngOp) (st : Nat) : State := os.foldl (fun s o => s.endOp o.id st) s

/-- What other modules sent of the chunks of a list goes with its run. -/
def State.dropParts (s : State) (l : List Nat) : State :=
  { s with collIn := s.collIn.filter fun x => match x.2 with | .part k _ _ _ | .sum k _ _ => k != l | _ => true }

/-- A rank that leaves a collective is no longer doomed with its list. -/
def State.undoom (s : State) (me : Nat) (l : List Nat) : State :=
  let out := fun (d : Doom) => if d.list == l && !d.first then { d with left := d.left.filter (· != me) } else d
  { s with dooms := (s.dooms.map out).filter fun d => d.first || !d.left.isEmpty }

/-- Forget what other modules told of one run of a collective. -/
def State.dropFars (s : State) (fs : List FarRank) : State := { s with farRanks := s.farRanks.filter fun f => !fs.contains f }

/-- Widening of a contribution to FP32 (R55). -/
def collIn (k : OpKind) (v : Nat) : FVal :=
  match k with
  | .allred .f32 | .redsc .f32 => fmtF32.value v
  | _ => fmtBF16.value v

/-- The sum of R55 of one element. -/
def collSum (k : OpKind) (vs : List Nat) : Nat :=
  let round := fun (v : FVal) => (fpOut fmtF32 .ne false false v).1
  let acc := match vs with
    | [] => 0
    | v :: rest => rest.foldl (fun acc x => round (fAdd .ne (fmtF32.value acc) (collIn k x)).1) (round (collIn k v))
  match k with
  | .allred .f32 | .redsc .f32 => acc
  | _ => (fpOut fmtBF16 .ne false false (fmtF32.value acc)).1

/-- Cut bytes into elements. -/
def elements (sz : Nat) : List Byte → Nat → List Nat
  | _, 0 => []
  | bs, n + 1 => leNat (bs.take sz) :: elements sz (bs.drop sz) n

/-- Element-wise sums over the ranks, in rank order. -/
def collReduce (k : OpKind) (sz n : Nat) (ranks : List (List Byte)) : List Byte :=
  let cols := ranks.map fun bs => elements sz bs n
  (List.range n).flatMap fun i => leBytes sz (collSum k (cols.map fun c => c.getD i 0))

/-- Bytes of the chunked data of a collective (R128): the reduced data, the concatenation, or the root's data. -/
def collTotal (o : EngOp) (n : Nat) : Nat :=
  match o.kind with
  | .allgath => n * dLen o.desc
  | k => dLen o.desc * collBytes k

/-- Input and output bytes of a rank (R290). -/
def collLens (o : EngOp) (n : Nat) : Nat × Nat :=
  (dLen o.desc * collBytes o.kind, collOutLen o.kind n (dLen o.desc))

/-- The number of a collective's kind in what modules tell one another. -/
def collFunc (k : OpKind) : Nat :=
  match k with
  | .allred .bf16 => 0 | .allred .f32 => 1 | .redsc .bf16 => 2 | .redsc .f32 => 3 | .allgath => 4 | _ => 5

/-- A collective as its issuer, of rank entry `me`, tells it (R127, R290); of a broadcast the root alone reads its input. -/
def collDesc (o : EngOp) (me : Nat) (l : List Nat) : CollDesc :=
  let ls := collLens o l.length
  let reads : Bool := match o.kind with
    | .bcast => l[dAux o.desc]? == some me
    | _ => true
  { list := l, func := collFunc o.kind, len := dLen o.desc, root := if o.kind == .bcast then dAux o.desc else 0,
    past := (reads && decide ((dSrc o.desc).toNat + ls.1 > vaultEnd)) || decide ((dDst o.desc).toNat + ls.2 > vaultEnd) }

/-- The checks of R290 over the ranks of a collective: status 9 at every rank, or 8 at those whose ranges pass the vault and
9 at the others; `ds` are what every rank issued, `os` this module's operations with theirs. -/
def State.collCheck (s : State) (n : Nat) (ds : List CollDesc) (os : List (EngOp × CollDesc)) : Option State :=
  match ds with
  | [] => none
  | d :: _ =>
    let same := ds.all fun x => x.func == d.func && x.len == d.len && x.root == d.root
    let redsc : Bool := (d.func == 2 || d.func == 3) && d.len % n != 0
    let root : Bool := d.func == 5 && decide (d.root ≥ n)
    if !same || redsc || root then some (s.endAll (os.map (·.1)) 9)
    else if ds.any (·.past) then some (os.foldl (fun s x => s.endOp x.1.id (if x.2.past then 8 else 9)) s)
    else none

/-- Vault ranges a chunk reads and writes at rank `r`, from byte `a` of the chunked data, `m` bytes: source and
destination offsets with their lengths. -/
def collRanges (o : EngOp) (n r a m : Nat) : List (Nat × Nat) × List (Nat × Nat) :=
  let src := (dSrc o.desc).toNat
  let dst := (dDst o.desc).toNat
  let len := dLen o.desc
  let clip := fun (lo hi : Nat) => (max lo a, min hi (a + m))
  match o.kind with
  | .allgath =>
    let c := clip (r * len) ((r + 1) * len)
    (if c.1 < c.2 then [(src + (c.1 - r * len), c.2 - c.1)] else [], [(dst + a, m)])
  | .bcast => (if dAux o.desc = r then [(src + a, m)] else [], [(dst + a, m)])
  | .redsc _ =>
    let share := len / max 1 n * collBytes o.kind
    let c := clip (r * share) ((r + 1) * share)
    ([(src + a, m)], if c.1 < c.2 then [(dst + (c.1 - r * share), c.2 - c.1)] else [])
  | _ => ([(src + a, m)], [(dst + a, m)])

/-- Whether a collective sums. -/
def OpKind.reduces : OpKind → Bool
  | .allred _ | .redsc _ => true
  | _ => false

/-- A chunk's data with the lines it comes from: the sums, which are poisoned where any addend is and carry no scale or
format (R134), or the bytes of the ranks that send (R127). -/
def collData (k : OpKind) (m : Nat) (ins : List (List Piece)) : List Byte × List Piece :=
  if k.reduces then
    (collReduce k (collBytes k) (m / collBytes k) (ins.map piecesBytes),
      ins.flatten.map fun p => { p with md := { poison := p.md.poison } })
  else
    let ps := ins.flatten
    (piecesBytes ps, ps)

/-- Write a byte range of a chunk into a vault, line by line (R134): `pos` is where it lies in the chunk's data. -/
def State.collWrite (s : State) (q off pos n : Nat) (data : List Byte × List Piece) : State :=
  let ps := data.2.map fun p => { p with pos := p.pos - pos, bytes := p.bytes.drop (pos - p.pos) }
  (cutAt 128 off 0 n (n + 1)).foldl (fun s p => s.vaultPart q (off + p.1) ps (data.1.drop pos) p) s

/-- The bytes a rank of this module gives to a chunk, by lines, at their places in the chunk. -/
def State.collInput (s : State) (o : EngOp) (n r a m : Nat) : List Piece :=
  (collRanges o n r a m).1.flatMap fun y =>
    let pos := match o.kind with
      | .allgath => r * dLen o.desc + (y.1 - (dSrc o.desc).toNat) - a
      | _ => 0
    (cutAt 128 y.1 0 y.2 1100).map fun p =>
      let l := s.vmeta (vline o.quay (y.1 + p.1))
      { pos := pos + p.1, bytes := s.vread o.quay (y.1 + p.1) p.2, md := ⟨l.lam, l.tag, l.poison⟩ }

/-- The banks and fills of the ranks of this module for a chunk (R141, R144, R146). -/
def State.collReady (s : State) (os : List (EngOp × Nat)) (n a m : Nat) : Asked Unit :=
  os.foldl (fun (acc : Asked Unit) x => acc.andThen fun _ s =>
    let g := collRanges x.1 n x.2 a m
    let rd := g.1.foldl (fun (acc : Asked Unit) y => acc.andThen fun _ s =>
      (cutAt 128 y.1 0 y.2 1100).foldl (fun (acc : Asked Unit) p => acc.andThen fun _ s =>
        s.opFill x.1 x.1.quay (y.1 + p.1) p.2) (.ok () s)) (.ok () s)
    g.2.foldl (fun (acc : Asked Unit) y => acc.andThen fun _ s =>
      (cutAt 128 y.1 0 y.2 1100).foldl (fun (acc : Asked Unit) p => acc.andThen fun _ s =>
        s.opBank x.1 x.1.quay (y.1 + p.1) p.2) (.ok () s)) rd) (.ok () s)

/-- What another module told of a chunk: a rank's part. -/
def State.farPart (s : State) (l : List Nat) (chunk rank : Nat) : Option (Nat × CollMsg) :=
  s.collIn.find? fun x => match x.2 with | .part l' c r _ => l' == l && c == chunk && r == rank | _ => false

/-- What another module told of a chunk: its sums. -/
def State.farSum (s : State) (l : List Nat) (chunk : Nat) : Option (Nat × CollMsg) :=
  s.collIn.find? fun x => match x.2 with | .sum l' c _ => l' == l && c == chunk | _ => false

/-- The pieces of a message. -/
def msgPieces : CollMsg → List Piece
  | .part _ _ _ ps | .sum _ _ ps => ps
  | _ => []

/-- Ranks that give bytes to a chunk. -/
def collGivers (o : EngOp) (n a m : Nat) : List Nat := (List.range n).filter fun r => !(collRanges o n r a m).1.isEmpty

/-- One chunk of a collective whose ranks have all issued (R128): chunk `c` is summed at rank `c mod n`, or goes from the
ranks that send to every rank.  `os` are the ranks of this module; what comes from other modules is waited for.  A failure at
one rank's vault ends every rank with its status (log entry 70). -/
def State.collChunk (s : State) (l : List Nat) (os : List (EngOp × Nat)) (o : EngOp) (fars : List FarRank) : State :=
  let n := l.length
  let total := collTotal o n
  let c := o.next
  let a := 65536 * c
  let m := min 65536 (total - a)
  let home := entryMod (l.getD (c % n) 0)
  let here := home == s.domain.mod.toNat
  match s.collReady os n a m with
  | .wait s => s
  | .fail st s =>
    (((s.tell o.ctx (s.farMods l) (.ended (s.rankEntry o.quay) l st true)).dropParts l).dropFars fars).endAll (os.map (·.1)) st
  | .ok _ s =>
    -- the parts of this module's ranks go where the chunk is summed, or to every module
    let mine := (collGivers o n a m).filterMap fun r => (os.find? fun x => x.2 == r).map fun x => (r, s.collInput x.1 n r a m)
    let s :=
      if o.claimed = some c then s
      else
        let peers := if o.kind.reduces then (if here then [] else [home]) else s.farMods l
        let s := mine.foldl (fun s x => s.tell o.ctx peers (.part l c x.1 x.2)) s
        os.foldl (fun s x => s.modOp x.1.id fun y => { y with claimed := some c }) s
    let parts := (collGivers o n a m).map fun r =>
      match mine.find? fun x => x.1 == r with
      | some x => some x.2
      | none => (s.farPart l c r).map fun (x : Nat × CollMsg) => msgPieces x.2
    let got : Option (List Byte × List Piece) :=
      if o.kind.reduces && !here then
        (s.farSum l c).map fun (x : Nat × CollMsg) =>
          ((((msgPieces x.2).head?.map (·.bytes)).getD []), (msgPieces x.2).drop 1)
      else (parts.mapM id).map fun ps => collData o.kind m ps
    match got with
    | none => s
    | some data =>
      let used := (collGivers o n a m).filterMap (s.farPart l c) ++ (s.farSum l c).toList
      let s : State := { s with collIn := used.foldl (fun ms x => ms.erase x) s.collIn }
      let s := if o.kind.reduces && here then s.tell o.ctx (s.farMods l) (.sum l c ({ pos := 0, bytes := data.1 } :: data.2)) else s
      let s := os.foldl (fun s x =>
        (collRanges x.1 n x.2 a m).2.foldl (fun s y =>
          let pos := match x.1.kind with
            | .redsc _ => x.2 * (dLen o.desc / max 1 n * collBytes o.kind) + (y.1 - (dDst x.1.desc).toNat) - a
            | _ => 0
          s.collWrite x.1.quay y.1 pos y.2 data) s) s
      let poison := data.2.any (·.md.poison)
      -- a chunk goes to the quay of the rank that sums it, and from there (R128)
      let root := l.getD (c % n) 0 % 256
      let s := os.foldl (fun s x =>
        let g := collRanges x.1 n x.2 a m
        let moved := ((g.1 ++ g.2).map (·.2)).foldl (· + ·) 0
        let s := (s.charge (meterQuay x.1.quay) x.1.ctx 8 moved).chargeMove x.1.ctx x.1.quay root moved
        let s := if poison then s.markPoison x.1.id else s
        let left := (collRanges x.1 n x.2 (a + m) (total - (a + m))).1.map fun y => (x.1.quay, y)
        (s.modOp x.1.id fun y => { y with next := y.next + 1, claimed := none }).keepRefs x.1.id left) s
      if a + m ≥ total then (s.dropFars fars).endAll (os.map (·.1)) 0 else s

/-- The list of an operation is known: its scoreboard entry shrinks to its output (R147), poison of the list is read (R122),
other modules are told of it (R452). -/
def State.collAnnounce (s : State) (o : EngOp) (l : List Nat) (poison : Bool) : State :=
  let d := collDesc o (s.rankEntry o.quay) l
  let len := collOutLen o.kind l.length (dLen o.desc)
  let off := (dDst o.desc).toNat
  let cut := fun (e : Score) => { e with last := min e.last ((off + max 1 len - 1) / 128 * 128 + 127) }
  let s : State := { s with scores := tmod (fun e => e.op == o.id && e.quay == o.quay) cut s.scores }
  let s := if poison then s.markPoison o.id else s
  let reads := o.kind != .bcast || l[dAux o.desc]? == some (s.rankEntry o.quay)
  let s := if reads then s else s.dropRefs o.id
  (s.tell o.ctx (s.farMods l) (.issue o.quay o.id d)).modOp o.id fun o => { o with phase := 1, idxs := l }

/-- The operations of a list's ranks, where every rank has issued it: those here with their ranks, and those elsewhere. -/
def State.collRanks (s : State) (l : List Nat) : Option (List (EngOp × Nat) × List FarRank) :=
  let here := l.zipIdx.filter fun e => entryMod e.1 == s.domain.mod.toNat
  let away := l.filter fun e => entryMod e != s.domain.mod.toNat
  match here.mapM fun e => (s.collOf (e.1 % 256) l).map fun o => (o, e.2), away.mapM fun e => s.farColl e l with
  | some os, some fs => some (os, fs)
  | _, _ => none

/-- Ranks whose lists differ (R290; log entry 58): the oldest collective of every quay that the list names also names the
issuer, and not all have this list. -/
def State.collDiffers (s : State) (o : EngOp) (l : List Nat) : Bool :=
  let me := s.rankEntry o.quay
  (s.oldestColl o.quay).any (fun x => x.id == o.id) &&
    l.all fun e =>
      if entryMod e = s.domain.mod.toNat then (s.oldestColl (e % 256)).any fun x => x.idxs.contains me
      else (s.oldestFar e).any fun f => f.desc.list.contains me

/-- The operation of list `l` ends with a status at every rank of this module, now or when it issues, because of what rank
`src` issued (R127, R290): a rank whose own collective is another one that names `src` is not of this list's. -/
def State.doomList (s : State) (src : Nat) (l : List Nat) (st : Nat) : State :=
  let here := fun (e : Nat) => entryMod e == s.domain.mod.toNat
  let other := fun (e : Nat) => (s.oldestColl (e % 256)).any fun x => x.idxs != l && x.idxs.contains src
  let d : Doom := { src := src, list := l, left := l.eraseDups.filter fun e => here e && !other e, status := st }
  let s : State := { s with dooms := s.dooms.filter fun x => !(x.src == src && x.first) }
  if d.left.isEmpty then s else { s with dooms := s.dooms ++ [d] }

/-- The same at every module, so that none waits for another list's. -/
def State.doomAll (s : State) (c src : Nat) (l : List Nat) (st : Nat) : State :=
  (s.tell c s.peers (.ended src l st false)).doomList src l st

/-- Rank `src` issued a collective whose own list is bad (R290; log entry 58): the oldest waiting one that names the rank ends
with status 9 at all its ranks, else the first that comes, or that of the bad list itself. -/
def State.doomBad (s : State) (c src : Nat) (l : List Nat) : State :=
  match s.ops.find? fun x => x.kind.isColl && !x.finished && x.idxs.contains src && x.idxs != l with
  | some x => s.doomAll c src x.idxs 9
  | none =>
    if s.dooms.any fun d => d.src == src && !d.first then s
    else
      let left := l.eraseDups.filter fun e => entryMod e == s.domain.mod.toNat && e != src
      { s with dooms := s.dooms ++ [{ src := src, list := l, left := left, first := true }] }

/-- Every rank of lists that differ ends with status 9 (R127, R290). -/
def State.endDiffering (s : State) (o : EngOp) (l : List Nat) : State :=
  let os := l.filterMap fun e => if entryMod e = s.domain.mod.toNat then s.oldestColl (e % 256) else none
  let fs := l.filterMap fun e => if entryMod e = s.domain.mod.toNat then none else s.oldestFar e
  let lists := ((o :: os).map (·.idxs) ++ fs.map (·.desc.list)).eraseDups
  let mods := s.farMods lists.flatten
  let src := s.rankEntry o.quay
  lists.foldl (fun s k => (s.tell o.ctx mods (.ended src k 9 false)).doomList src k 9) s

/-- What a collective of list `l` at a rank is doomed to: its own list's end, or that of the first that names a bad rank. -/
def State.doomOf (s : State) (me : Nat) (l : List Nat) : Option Doom :=
  s.dooms.find? fun d => (d.list == l && d.left.contains me) || (d.first && l.contains d.src)

/-- A doomed collective ends with its status; one that the first rule dooms takes all ranks of its list with it. -/
def State.takeDoom (s : State) (o : EngOp) (d : Doom) : State :=
  let me := s.rankEntry o.quay
  if d.list == o.idxs && d.left.contains me then
    let left := d.left.filter (· != me)
    let rest := s.dooms.erase d
    let s : State := { s with dooms := if left.isEmpty then rest else rest ++ [{ d with left := left, first := false }] }
    (s.tell o.ctx (s.farMods o.idxs) (.leave o.quay o.id)).endOp o.id d.status
  else s.doomAll o.ctx d.src o.idxs d.status

/-- COLL_CHUNK_REDUCE (R127, R128, R290, R451, R452): the collective of operation `n` reads its list, tells the other modules
of it, and takes its next chunk once every rank has issued and none is stopped. -/
def execCollChunkReduce (n : Nat) (s : State) : Out :=
  .next <|
    match s.op? n with
    | none => s
    | some o =>
      if s.opRuns o = false ∨ o.kind.isColl = false then s
      else if o.status > 1 then s.endOp n 0
      else if o.phase = 0 then
        match s.groupList o with
        | .wait s => s
        | .fail st s => ((s.dropRemotes o).returnLines o).endOp n st
        | .ok g s =>
          let s := (s.dropRemotes o).returnLines o
          let l := g.2.1
          let me := s.rankEntry o.quay
          if l.isEmpty ∨ l.eraseDups ≠ l ∨ l.contains me = false then
            ((s.tell o.ctx s.peers (.bad me l)).doomBad o.ctx me l).endOp n 9
          else if l.any fun e => entryMod e != s.domain.mod.toNat && !s.reachable (entryMod e) then s.endOp n 7
          else s.collAnnounce o l g.2.2
      else
        let l := o.idxs
        match s.doomOf (s.rankEntry o.quay) l with
        | some d => s.takeDoom o d
        | none =>
          match s.collRanks l with
          | none =>
            if s.collDiffers o l then s.endDiffering o l else s
          | some (os, fs) =>
            if os.any fun x => !(s.opRuns x.1) then s
            else
              let mine := fun (x : EngOp × Nat) => collDesc x.1 (s.rankEntry x.1.quay) l
              match s.collCheck l.length (os.map mine ++ fs.map (·.desc)) (os.map fun x => (x.1, mine x)) with
              | some s => s.dropFars fs
              | none => s.collChunk l os o fs

/-! ### Freezes and thaws (R90 to R95, R293) -/

/-- The page an operation is at, translated; a view page needs only read (R293).  One of another module goes on to its home
there (R450). -/
def State.frzPage (s : State) (o : EngOp) : Asked Nat :=
  let va := (dSrc o.desc).toNat + 65536 * o.next
  let go (x : Xlate) (s : State) : Asked Nat :=
    let page := x.pa / 65536
    match s.paKind x.pa with
    | .control _ _ | .none => .fail 7 s
    | .remote _ => .ok page s
    | _ =>
      if s.genOf page ≠ x.gen then
        (s.opXlate o o.quay o.ctx va false (some (s.genOf page))).andThen fun _ s => .wait s
      else
        match s.homeCheck x.pa false x.gen o.ctx o.quay with
        | .refuse c => .fail (causeStatus c) s
        | _ =>
          if s.recalled (page * 65536) 65536 || s.regionMoving x.pa then .wait s
          else if !(o.ctx == 0 || s.partOfSlice (s.homeSlice x.pa) == s.partOfQuay o.quay) then .fail 4 s else .ok page s
  match s.tlbHit o.quay o.ctx va false with
  | some e =>
    let s := s.touch e
    let view := bitsOf (e.xlate va).pa 40 4 == 8
    if view || e.w then go (e.xlate va) s else (s.opXlate o o.quay o.ctx va true none).andThen go
  | none => (s.opXlate o o.quay o.ctx va false none).andThen go

/-- An operation has reached the home of a page (R293): whether it is the first of those there, which act in the order they
arrived. -/
def State.pageTurn (s : State) (id page : Nat) : Bool × State :=
  let s := if s.pageOrder.contains (page, id) then s else { s with pageOrder := s.pageOrder ++ [(page, id)] }
  let open' := fun (i : Nat) => (s.op? i).any (fun x => !x.finished) || s.farPages.any fun p => p.id == i
  ((s.pageOrder.find? fun e => e.1 == page && open' e.2).any fun e => e.2 == id, s)

/-- The operation has done a page. -/
def State.pageNext (s : State) (o : EngOp) : State :=
  let known := fun (i : Nat) => (s.op? i).isSome || s.farPages.any fun p => p.id == i
  let s : State := { s with pageOrder := s.pageOrder.filter fun e => e.2 != o.id && known e.2 }
  let s := s.modOp o.id fun o => { o with next := o.next + 1, phase := 0 }
  if 65536 * (o.next + 1) ≥ dLen o.desc then s.endOp o.id 0 else s

/-- Steps 2 and 3 of a thaw (R94): the generation moves on, the sweeps go out. -/
def State.startSweep (s : State) (c page : Nat) : State :=
  let s := (s.payBy c).applyBump page
  let g := s.genOf page
  let s := (List.range 8).foldl (fun s d => s.post { line := page, body := .sweep d g }) s
  let w : Sweep := { page := page, gen := g, dies := List.range 8, peers := s.peers.map fun p => (p, s.clock) }
  ({ s with sweeps := s.sweeps ++ [w] } : State).sendLinks c (s.peers.map fun p => LinkOut.sweep p page g)

/-- What a `frz` or `thaw` meets at a page's home: it waits, its phase there moves on, the page is done, or it stops with a
cause of the report (R293). -/
inductive PageSays where
  | wait (s : State)
  | at (phase : Nat) (s : State)
  | done (s : State)
  | stop (cause : Nat) (s : State)

/-- A page to freeze at its home (R90, R91, R93), for the operation `id` in its turn. -/
def State.freezeAt (s : State) (page id phase : Nat) : PageSays :=
  let f := s.frzOf page
  let (first, s) := s.pageTurn id page
  if phase = 1 then if f.st == .freezing then .wait s else .done s
  else if first = false then .wait s
  else
    match f.st with
    | .normal => .at 1 (s.setFrz { f with st := .freezing })
    | .freezing | .thawing => .wait s
    | .frozen => if f.count = 255 then .stop 1 s else .done (s.setFrz { f with count := f.count + 1 })

/-- A page to thaw at its home (R90, R94, R105), for the operation `id` of context `c` in its turn. -/
def State.thawAt (s : State) (c page id phase : Nat) : PageSays :=
  let f := s.frzOf page
  if phase = 2 then if s.bumpReady page then .at 1 (s.startSweep c page) else .wait s
  else if phase = 1 then if f.st == .thawing then .wait s else .done s
  else
    let (first, s) := s.pageTurn id page
    if first = false then .wait s
    else if f.count = 0 then .stop 2 s
    else if f.count = 1 then .at 2 (s.setFrz { f with count := 0, st := .thawing })
    else .done (s.setFrz { f with count := f.count - 1 })

/-- What the home of a page of this module gave an operation. -/
def PageSays.settle (r : PageSays) (o : EngOp) (page : Nat) : State :=
  match r with
  | .wait s => s
  | .at k s => s.modOp o.id fun o => { o with phase := k, claimed := some page }
  | .done s => (s.modOp o.id fun o => { o with claimed := none }).pageNext o
  | .stop cause s => (s.modOp o.id fun o => { o with report := cause }).endOp o.id 0

/-- A page of another module goes to its home there, which answers with a cause of the report, 0 where the page is done
(R293, R450). -/
def State.pageFar (s : State) (o : EngOp) (mod page : Nat) : State :=
  let va := (dSrc o.desc).toNat + 65536 * o.next
  match s.tlbHit o.quay o.ctx va false with
  | none => s
  | some e =>
    match (s.askFar (.op o.id) mod (page * 65536) 1 (e.xlate va).gen true none (.page (o.kind == .thaw))).asked o o.quay o.ctx va
        false with
    | .wait s => s
    | .fail st s => s.endOp o.id st
    | .ok r s =>
      let s := s.dropRemotes o
      if leNat r.1 = 0 then s.pageNext o else (PageSays.stop (leNat r.1) s).settle o page

/-- A `frz` or `thaw` at its next page: translated, then handled at the page's home. -/
def State.pageStep (s : State) (o : EngOp) (home : State → Nat → PageSays) : State :=
  if o.status ≠ 0 then s.endOp o.id 0
  else
    match o.claimed with
    | some page => (home s page).settle o page
    | none =>
      match s.frzPage o with
      | .wait s => s
      | .fail st s => s.endOp o.id st
      | .ok page s =>
        match s.paKind (page * 65536) with
        | .remote mod => s.pageFar o mod page
        | _ => (home s page).settle o page

/-- A page that another module's operation has brought here (R293, R450): the checks of an access of that module first, then
as a page of this module's. -/
def State.farPageTurn (s : State) (id : Nat) : State :=
  match s.farPages.find? fun p => p.id == id with
  | none => s
  | some p =>
    let page := p.pa / 65536
    let gone (s : State) : State :=
      { s with farPages := s.farPages.filter fun x => x.id != id, pageOrder := s.pageOrder.filter fun e => e.2 != id }
    let go : State :=
      match if p.thaw then s.thawAt 0 page id p.phase else s.freezeAt page id p.phase with
      | .wait s => s
      | .at k s => { s with farPages := tmod (fun x => x.id == id) (fun x => { x with phase := k }) s.farPages }
      | .done s => (gone s).sendLinks 0 [.answer p.src p.tag [0] {}]
      | .stop cause s => (gone s).sendLinks 0 [.answer p.src p.tag [BitVec.ofNat 8 cause] {}]
    let refuse (k : BitVec 8) (stale : Option (BitVec 8)) : State := (gone s).sendLinks 0 [.refusal p.src p.tag k stale]
    if p.phase ≠ 0 then go
    else
      match s.homeCheck p.pa false p.gen 0 0 with
      | .refuse k => refuse k none
      | .stale g => refuse cPage (some g)
      | _ =>
        if s.rmaskAllows p.src p.pa = false then refuse cPart none
        else if s.recalled (page * 65536) 65536 || s.regionMoving p.pa then s
        else go

/-- FREEZE_PAGE (R91, R293): a `frz` at its next page, or a page that another module has sent here. -/
def execFreezePage (op : Nat) (s : State) : Out :=
  .next <|
    match s.op? op with
    | none => s.farPageTurn op
    | some o =>
      if s.opRuns o = false ∨ o.kind ≠ .frz then s else s.pageStep o fun s page => s.freezeAt page op o.phase

/-- PAGE_FROZEN (R65, R91, R93): every line of a freezing page is at its home: the page is frozen, its waiters are served; a
page of a region on the move waits for it. -/
def execPageFrozen (page : Nat) (s : State) : Out :=
  .next <|
    let f := s.frzOf page
    if f.st ≠ .freezing ∨ s.regionMoving (page * 65536) = true then s
    else
      let payer := ((s.pageOrder.find? fun e => e.1 == page).bind fun e => s.op? e.2).map (·.ctx)
      let r := (s.payBy (payer.getD 0)).wantRange (page * 512) 512
      if r.1 then (r.2.setFrz { f with st := .frozen, count := 1 }).unpark else r.2

/-- THAW_PAGE (R94, R105, R293): a `thaw` at its next page, or a page that another module has sent here. -/
def execThawPage (op : Nat) (s : State) : Out :=
  .next <|
    match s.op? op with
    | none => s.farPageTurn op
    | some o =>
      if s.opRuns o = false ∨ o.kind ≠ .thaw then s else s.pageStep o fun s page => s.thawAt o.ctx page op o.phase

end Sys2Proof.Machine
end

