-- ==== Sys2Proof/Machine/Launch.lean ====
section
/-! DEFINITION. Launch queues, launches, the dispatch and completion of workgroups and tasks (R152 to R169, R294, R342
to R355, R430, R431, R506). -/

namespace Sys2Proof.Machine

/-! ### Launch records (R153 to R156) -/

/-- A field of a launch record. -/
def recBits (r : BitVec 1024) (lo len : Nat) : Nat := (r.extractLsb' lo len).toNat

/-- LEVELj. -/
def recLevel (r : BitVec 1024) (j : Nat) : Nat := recBits r (512 + 64 * j) 64
/-- EXTENT of level j. -/
def lvlExtent (r : BitVec 1024) (j : Nat) : Nat := recLevel r j / 2 ^ 8 % 2 ^ 32
/-- SCOPE of level j. -/
def lvlScope (r : BitVec 1024) (j : Nat) : Nat := recLevel r j / 2 ^ 4 % 8
/-- DOMAIN of level j. -/
def lvlDomain (r : BitVec 1024) (j : Nat) : Nat := recLevel r j % 8
/-- NLEV. -/
def recNlev (r : BitVec 1024) : Nat := recBits r 20 4
/-- BUDGET code. -/
def recBudget (r : BitVec 1024) : Nat := recBits r 18 2
/-- COOP. -/
def recCoop (r : BitVec 1024) : Bool := r.getLsbD 17
/-- FOLLOW. -/
def recFollow (r : BitVec 1024) : Bool := r.getLsbD 16
/-- DONE. -/
def recDone (r : BitVec 1024) : Nat := recBits r 64 64
/-- PSIZE. -/
def recPsize (r : BitVec 1024) : Nat := recBits r 128 32
/-- LSIZE. -/
def recLsize (r : BitVec 1024) : Nat := recBits r 160 32
/-- BIND. -/
def recBind (r : BitVec 1024) : Nat := recBits r 192 64
/-- WGCOMP. -/
def recWgcomp (r : BitVec 1024) : Nat := recBits r 256 64

/-- S j: threads of a unit of level j (R155). -/
def unitThreads (r : BitVec 1024) : Nat → Nat
  | 0 => lvlExtent r 0
  | j + 1 => unitThreads r j * lvlExtent r (j + 1)

/-- Slots of a quay at a BUDGET code (R19). -/
def budgetSlots (b : Nat) : Nat := if b = 0 then 4096 else if b = 1 then 4096 else if b = 2 then 2730 else 2048

/-- Quays of a DOMAIN code (R155). -/
def domainQuays (d : Nat) : Nat := match d with | 1 => 1 | 2 => 2 | 3 => 8 | 4 => 32 | _ => 256

/-- Workgroups of a cluster (R156). -/
def clusterSize (r : BitVec 1024) : Nat :=
  match ((List.range (recNlev r)).filter fun j => decide (1 ≤ j) && decide (lvlDomain r j ≤ 3)).reverse with
  | j :: _ => unitThreads r j / lvlExtent r 0
  | [] => 1

/-- Workgroups of a launch (R155). -/
def recGroups (r : BitVec 1024) : Nat := unitThreads r (recNlev r - 1) / lvlExtent r 0

/-- The code of the first failing check of R155, 0 where all pass. -/
def State.checkRecord (s : State) (c : Nat) (r : BitVec 1024) : Nat :=
  let n := recNlev r
  let js := List.range n
  let up := js.filter fun j => decide (1 ≤ j)
  if recBits r 0 8 ≠ 1 ∨ recBits r 24 40 ≠ 0 ∨ recBits r 8 8 ≠ 0 ∨
      ((List.range 8).any fun j => recLevel r j / 2 ^ 40 != 0 || (recLevel r j).testBit 7 || (recLevel r j).testBit 3) then 1
  else if n = 0 ∨ n > 8 ∨ ((List.range 8).any fun j => decide (n ≤ j) && recLevel r j != 0) = true then 2
  else if lvlDomain r 0 ≠ 1 ∨ lvlExtent r 0 = 0 ∨ lvlExtent r 0 > 1024 then 3
  else if up.any fun j => lvlExtent r j == 0 || lvlDomain r j == 7 || decide (lvlDomain r j < lvlDomain r (j - 1)) ||
      decide (lvlScope r j < lvlScope r (j - 1)) then 4
  else if js.any fun j => decide (lvlScope r j < lvlDomain r j) then 5
  else if (js.any fun j => decide (unitThreads r j > budgetSlots (recBudget r) * domainQuays (lvlDomain r j))) = true ∨
      unitThreads r (n - 1) > 2 ^ 32 then 6
  else if clusterSize r > 8 then 7
  else if js.any fun j => !s.scopeOk c (BitVec.ofNat 3 (lvlScope r j)) then 8
  else if recBits r 448 64 % 64 ≠ 0 ∨ recWgcomp r % 32 ≠ 0 ∨ recLsize r % 16 ≠ 0 ∨ recLsize r > 1048576 ∨
      recPsize r > 65536 then 9
  else 0

/-! ### Accesses of a queue processor (R506) -/

/-- First quay of a die: the QUAY of the processor's page requests (R506). -/
def procQuay (die : Nat) : Nat := die * 32

/-- Whether a page request or walk is out for a waiter. -/
def State.waitsFor (s : State) (y : Waiter) : Bool := s.someWait (· == y)

/-- Holder number of the watch lines of a die's queue processor (R75, R87). -/
def watchHolder (die : Nat) : Nat := 512 + die

/-- What a processor meets at an address of context `c`; a failed walk opens a page request (R111, R506). -/
def State.procPa (s : State) (y : Waiter) (die c va : Nat) (write : Bool) : Asked HwSays :=
  if s.waitsFor y then .wait s
  else
    match s.hwSays c va write with
    | .wait => .wait s
    | .refuse k => .fail k.toNat s
    | .miss f =>
      .wait ((s.openRequest c { who := y, quay := procQuay die, kind := if write then .store else .load, va := va } f).getD s)
    | h => .ok h s

/-- What was read for a processor: poisoned data is refused with its cause (R71, R352). -/
def LineSays.proc (r : LineSays) : Asked (List Byte) :=
  match r with
  | .ok bs md s => if md.poison then .fail cPoison.toNat s else .ok bs s
  | .wait s | .stale _ s => .wait s
  | .refused k s => .fail k.toNat s

/-- Read bytes of one line for a processor, through its watch line where it watches (R87, R348, R350). -/
def State.procLine (s : State) (y : Waiter) (die c va n : Nat) (watch : Bool) : Asked (List Byte) :=
  (s.procPa y die c va false).andThen fun h s =>
    match h with
    | .pa a g ipa =>
      let w := s.walkOwned c va
      if w.1 = false then .wait w.2
      else if watch then (w.2.readLine y (watchHolder die) noQuay c ⟨a, 16, false, false, g, ipa, 16⟩ n).proc
      else (s.hwLoad y c va n).proc
    | _ => (s.hwLoad y c va n).proc

/-- Read bytes for a processor, line by line. -/
def State.procRead (s : State) (y : Waiter) (die c va n : Nat) : Asked (List Byte) :=
  (askEach (fun s (p : Nat × Nat) => s.procLine y die c (va + p.1) p.2 false) (cutAt 128 va 0 n (n + 1)) s).andThen fun bs s =>
    .ok bs.flatten s

/-- Change bytes of one line for a processor (R506). -/
def State.procChange (s : State) (y : Waiter) (die c va : Nat) (f : State → HwDone) : Asked Unit :=
  (s.procPa y die c va true).andThen fun _ s =>
    match f s with
    | .done s => .ok () s
    | .wait s => .wait s
    | .fault => .fail cNoMem.toNat s

/-- A completion record written by the hardware, whole (R153, R169, R353): where it lies in two lines, the first is written once the
second can be. -/
def State.recordWrite (s : State) (y : Waiter) (c va : Nat) (bs : List Byte) : Asked Unit :=
  let n := 128 - va % 128
  let first (s : State) : HwDone := s.hwWrite y c va (bs.take n)
  let rest (s : State) : HwDone := if bs.length ≤ n then .done s else s.hwWrite y c (va + n) (bs.drop n)
  let both : HwDone :=
    match first s with
    | .done t =>
      match rest t with
      | .done t => .done t
      | .fault => .fault
      | .wait _ => (match rest s with | .done t => first t | d => d)
    | d => d
  match both with
  | .done s => .ok () (s.dropFar y)
  | .wait s => .wait s
  | .fault => .fail 0 (s.dropFar y)

/-! ### Launches (R153, R343, R353, R355) -/

/-- A launch by its number. -/
def State.launch? (s : State) (id : Nat) : Option Launch := s.launches.find? fun l => l.id == id

/-- Change a launch. -/
def State.modLaunch (s : State) (id : Nat) (f : Launch → Launch) : State :=
  { s with launches := tmod (fun l => l.id == id) f s.launches }

/-- Start a launch from its record (R155): checked; one that fails runs no thread. -/
def State.startLaunch (s : State) (c prio die : Nat) (queue : Option (Nat × Nat)) (r : BitVec 1024) : Nat × State :=
  let (id, s) := s.fresh
  let check := s.checkRecord c r
  let l : Launch := { id := id, ctx := c, prio := prio, die := die, queue := queue, record := r, check := check,
                      total := if check = 0 then recGroups r else 0, bindRead := check != 0 || recBind r == 0 }
  (id, { s with launches := s.launches ++ [l] })

/-- Whether a binding table's entries stand as R355 asks. -/
def State.bindOk (s : State) (c size : Nat) (es : List Nat) : Bool :=
  es.all (fun e => e.testBit 15 && e / 2 ^ 8 % 2 ^ 7 == 0 && kvGet (s.partOfQuay (e % 256)) 0 s.partOwner == s.functionOf c) &&
    es.zipIdx.all fun x => basinOf (x.1 % 256) == basinOf ((es.getD (x.2 / size * size) 0) % 256)

/-- Read a launch's binding table (R355). -/
def State.bindTurn (s : State) (l : Launch) : State :=
  if l.bindRead then s
  else
    let fail (s : State) : State := s.modLaunch l.id fun l => { l with bindRead := true, check := 10, total := 0 }
    if l.bindRefused then fail s
    else
      match s.procRead (.launch l.id) l.die l.ctx (recBind l.record) (2 * l.total) with
      | .wait s => s
      | .fail _ s => fail (s.dropFar (.launch l.id))
      | .ok bs s =>
        let s := s.dropFar (.launch l.id)
        let es := (List.range l.total).map fun w => leNat ((bs.drop (2 * w)).take 2)
        if s.bindOk l.ctx (clusterSize l.record) es then
          s.modLaunch l.id fun l => { l with bindRead := true, bind := es.map (· % 256) }
        else fail s

/-- The completion record of a launch (R353). -/
def Launch.doneRecord (l : Launch) (clock : Nat) : BitVec 256 :=
  let b := fun (x : Bool) => if x then 1#1 else 0#1
  BitVec.ofNat 64 clock ++ BitVec.ofNat 32 l.completed ++ BitVec.ofNat 32 l.nexit ++ BitVec.ofNat 32 l.nlost ++ 0#56 ++
    BitVec.ofNat 8 l.check ++ 0#8 ++ 1#1 ++ 0#3 ++ b l.wgfault ++ b l.nonres ++ b l.efault ++ b l.estat ++ l.smax ++ l.sor

/-- A workgroup completion record (R169). -/
def Group.record (g : Group) (clock : Nat) : BitVec 256 :=
  let b := fun (x : Bool) => if x then 1#1 else 0#1
  BitVec.ofNat 64 clock ++ BitVec.ofNat 32 g.number ++ BitVec.ofNat 32 g.nexit ++ BitVec.ofNat 32 g.nlost ++ 0#72 ++ 1#1 ++
    0#5 ++ b g.efault ++ b g.estat ++ g.smax ++ g.sor

/-! ### Queues (R345 to R352) -/

/-- Base of a queue's area (R345, R346). -/
def Queue.base (q : Queue) : Nat := (q.desc.extractLsb' 12 44).toNat * 4096
/-- Slots of a queue (R345). -/
def Queue.slots (q : Queue) : Nat := 2 ^ (q.desc.extractLsb' 8 4).toNat
/-- Die of the processor that serves a queue (R345). -/
def Queue.die (q : Queue) : Nat := (q.desc.extractLsb' 60 3).toNat
/-- Priority of a queue (R345). -/
def Queue.prio (q : Queue) : Nat := (q.desc.extractLsb' 58 2).toNat

/-- Whether a pre-emption stops the queues of a context that a die serves (R378, R379): those of its subtree, or of the contexts
whose quays on the die it covers. -/
def State.stopsQueue (s : State) (p : Preempt) (c die : Nat) : Bool :=
  if p.only then p.quays.any fun q => p.covers q && s.assignee q == c && dieOf q == die else s.inSubtree p.root c

/-- A queue's command has an access at another module under way: its processor is not between commands (R378). -/
def State.midCommand (s : State) (c q : Nat) : Bool := s.remotes.any fun r => r.who == .queue c q

/-- Whether a queue is served: held, not halted, its context running and not stopped, or the command not done (R345, R352,
R378). -/
def State.serves (s : State) (c q : Nat) : Bool :=
  let x := s.queue c q
  x.en && !x.halted &&
    (s.midCommand c q || (s.runs c 9 && !s.preempts.any fun p => !p.ending && s.stopsQueue p c x.die))

/-- Write ERR of a halted queue (R352), once its page lets it; a write that faults, or whose page request is refused, is given
up. -/
def State.writeErr (s : State) (c q : Nat) : State :=
  let x := s.queue c q
  let y : Waiter := .queue c q
  match x.errDue with
  | none => s
  | some code =>
    let done (s : State) : State := (s.dropFar y).setQueue c { x with errDue := none }
    if x.refused then (s.dropFar y).setQueue c { x with errDue := none, refused := false }
    else
      match s.procChange y x.die c (x.base + 0x180)
          (fun s => s.hwWrite y c (x.base + 0x180) (leBytes 8 (x.cmdSlot % 2 ^ 32 + code * 2 ^ 32))) with
      | .ok _ s | .fail _ s => done s
      | .wait s => s

/-- Halt a queue at its command with a code (R352). -/
def State.haltQueue (s : State) (c q code : Nat) : State :=
  let x := s.queue c q
  (s.setQueue c { x with halted := true, refused := false, cmd := none, started := false, waitOp := none, errDue := some code }).writeErr c q

/-- Halt a queue at the slot HEAD names, which could not be copied (R352): HEAD is read first. -/
def State.haltAtHead (s : State) (c q code : Nat) : State :=
  let x := s.queue c q
  let y : Waiter := .queue c q
  match s.hwLoad y c (x.base + 0x100) 8 with
  | .ok hb _ s => ((s.dropFar y).setQueue c { s.queue c q with cmdSlot := leNat hb }).haltQueue c q code
  | .wait s => s
  | .refused _ s | .stale _ s => (s.dropFar y).haltQueue c q code

/-- Send the NOTIFY of a complete command, where it was asked for (R446). -/
def State.notifyDone (s : State) (c q slot : Nat) : State :=
  let x := s.queue c q
  if x.notify.contains slot then
    (s.setQueue c { x with notify := x.notify.filter (· != slot) }).send 0x84 c 0 (leBytes 8 q ++ leBytes 8 slot)
  else s

/-- The command in hand is complete (R350). -/
def State.commandDone (s : State) (c q : Nat) : State :=
  let x := s.queue c q
  (s.setQueue c { x with cmd := none, started := false, waitOp := none, refused := false }).notifyDone c q x.cmdSlot

/-- Launches of a queue whose records are written, with every launch they followed on, are complete (R350, R351). -/
def State.settleLaunches (s : State) (c q : Nat) : List (Nat × Nat) → State
  | [] => s
  | (id, slot) :: rest =>
    if (s.launch? id).isSome then s
    else
      let x := s.queue c q
      ((s.setQueue c { x with running := rest }).notifyDone c q slot).settleLaunches c q rest

/-- Commands of a queue that are complete leave it; an operation saved with its quay is not (R385). -/
def State.settleQueue (s : State) (c q : Nat) : State :=
  let s := s.settleLaunches c q (s.queue c q).running
  let saved := fun (id : Nat) => s.sections.any fun x => x.ops.any fun o => o.id == id
  match (s.queue c q).waitOp with
  | some id => if (s.op? id).isNone && !saved id then s.commandDone c q else s
  | none => s

/-- Header fields of a command (R349). -/
def cmdBits (m : BitVec 1024) (lo len : Nat) : Nat := (m.extractLsb' lo len).toNat
/-- The 64-bit word of a command at byte `o`. -/
def cmdWord (m : BitVec 1024) (o : Nat) : Word := m.extractLsb' (8 * o) 64

/-- The engine operation of a command, where it is one (R350). -/
def cmdKind (op sub : Nat) : Option OpKind :=
  match op, sub with
  | 4, 0 => some .cpG2v | 4, 1 => some .cpV2g | 4, 2 => some .cpV2v | 4, 3 => some .cpMc
  | 5, 0 => some (.allred .bf16) | 5, 1 => some (.allred .f32) | 5, 2 => some (.redsc .bf16) | 5, 3 => some (.redsc .f32)
  | 5, 4 => some .allgath | 5, 5 => some .bcast
  | 6, 0 => some .frz | 7, 0 => some .thaw
  | _, _ => none

/-- The descriptor a COPY, COLL, FREEZE or THAW carries (R350). -/
def cmdDesc (m : BitVec 1024) : BitVec 256 := m.extractLsb' 256 256

/-- The code with which a command halts its queue as it stands, 0 for a command that may be carried out (R352). -/
def State.checkCommand (s : State) (c : Nat) (m : BitVec 1024) : Nat :=
  let op := cmdBits m 0 8
  let size := cmdBits m 8 2
  let scope := cmdBits m 10 3
  let sub := cmdBits m 13 3
  let w64 := m.getLsbD 16
  let quay := cmdBits m 17 8
  let engine := cmdKind op sub
  let waits := op == 2 || op == 3
  if op = 0 ∨ op > 7 then 1
  else if cmdBits m 25 39 ≠ 0 ∨ size ≠ (if op ≤ 3 then 0 else 1) ∨ scope < 4 ∨ (w64 && !waits) = true ∨
      (op ≤ 3 ∧ quay ≠ 0) then 2
  else if (op = 1 ∧ sub ≠ 0) ∨ (op = 2 ∧ sub > 3) ∨ (op = 3 ∧ sub > 1) ∨ (4 ≤ op ∧ engine = none) then 2
  else if op = 1 ∧ (cmdWord m 16 ≠ 0 ∨ cmdWord m 24 ≠ 0 ∨ (cmdWord m 8).toNat % 128 ≠ 0) then 2
  else if waits = true ∧ (cmdWord m 24 ≠ 0 ∨ (cmdWord m 8).toNat % (if w64 then 8 else 4) ≠ 0) then 2
  else
    let bad : Bool := match engine with
      | some k => cmdWord m 16 != 0 || cmdWord m 24 != 0 || (engineRefusal s c k (cmdWord m 8) (cmdDesc m) 0).isSome
      | none => false
    if bad then 2
    else if (4 ≤ op ∧ s.holdsQuay c quay = false) ∨ s.scopeOk c (BitVec.ofNat 3 scope) = false then 3
    else 0

/-- A follow-on launch may start: the launch before it has dispatched its last workgroup (R351). -/
def State.mayFollow (s : State) (x : Queue) : Bool :=
  match x.running.getLast? with
  | some (id, _) => (s.launch? id).all fun l => l.bindRead && decide (l.placed ≥ l.total)
  | none => true

/-- Whether the command in hand has its turn by stream order (R351); a LAUNCH may follow on, as its record says. -/
def State.hasTurn (s : State) (c q : Nat) : Bool :=
  let x := s.queue c q
  match x.cmd with
  | none => false
  | some m => s.serves c q && (x.running.isEmpty || (cmdBits m 0 8 == 1 && s.mayFollow x))

/-- QUEUE_WAKE (R348, R351, R352): commands that are complete leave; the next slot is copied whole and HEAD moves past it;
a command that cannot be carried out halts the queue when its turn comes. -/
def execQueueWake (c q : Nat) (s : State) : Out :=
  .next <|
    let s := s.settleQueue c q
    let x := s.queue c q
    if x.errDue.isSome then s.writeErr c q
    else if s.serves c q = false then s
    else
      match x.cmd with
      | some m =>
        if x.started = false ∧ x.running.isEmpty = true ∧ s.checkCommand c m ≠ 0 then s.haltQueue c q (s.checkCommand c m)
        else s
      | none =>
        if x.refused then s.haltAtHead c q 4
        else
          let y := Waiter.queue c q
          let r := (s.procLine y x.die c x.base 8 true).andThen fun tb s =>
            (s.procLine y x.die c (x.base + 0x100) 8 false).andThen fun hb s =>
              let tail := leNat tb
              let head := leNat hb
              if head ≥ tail then .ok s s
              else
                (s.procRead y x.die c (x.base + 0x200 + 128 * (head % x.slots)) 128).andThen fun bs s =>
                  (s.procChange y x.die c (x.base + 0x100) fun s => s.hwWrite y c (x.base + 0x100) (leBytes 8 (head + 1))).andThen
                    fun _ s =>
                      let s := s.setQueue c { s.queue c q with cmd := some (BitVec.ofNat 1024 (leNat bs)), cmdSlot := head,
                                                               started := false }
                      Asked.ok s s
          match r with
          | .ok s _ => s.dropFar y
          | .wait s => s
          | .fail _ s => ((s.dropFar y).setQueue c { s.queue c q with refused := true }).haltAtHead c q 4

/-- Run the command in hand, if it is one of `op` and `sub` and has its turn; a command that cannot be carried out halts
its queue (R351, R352). -/
def State.runCommand (s : State) (c q op sub : Nat) (f : Queue → BitVec 1024 → State → State) : State :=
  let s := s.settleQueue c q
  let x := s.queue c q
  match x.cmd with
  | none => s
  | some m =>
    if s.hasTurn c q = false ∨ cmdBits m 0 8 ≠ op ∨ cmdBits m 13 3 ≠ sub ∨ x.waitOp.isSome = true then s
    else if s.checkCommand c m ≠ 0 then (if x.running.isEmpty then s.haltQueue c q (s.checkCommand c m) else s)
    else if x.refused then s.haltQueue c q 5
    else f x m s

/-- Settle an access of a command. -/
def settleCmd (a : Asked State) (c q : Nat) : State :=
  match a with
  | .ok s _ => s.dropFar (.queue c q)
  | .wait s => s
  | .fail _ s => (s.dropFar (.queue c q)).haltQueue c q 5

/-- Write a launch's completion record and remove it (R353); a queue whose record could not be written halts (code 6). -/
def State.finishLaunch (s : State) (l : Launch) : State :=
  match s.recordWrite (.launch l.id) l.ctx (recDone l.record) (leBytes 32 (l.doneRecord s.clock).toNat) with
  | .wait s => s
  | .ok _ s =>
    let s : State := { s with launches := tdel (fun x => x.id == l.id) s.launches }
    match l.queue with
    | some (c, q) => s.settleQueue c q
    | none => s
  | .fail _ s =>
    let s : State := { s with launches := tdel (fun x => x.id == l.id) s.launches }
    match l.queue with
    | some (c, q) =>
      let x := s.queue c q
      let slot := ((x.running.find? fun r => r.1 == l.id).map (·.2)).getD x.cmdSlot
      (s.setQueue c { x with cmdSlot := slot, running := x.running.filter fun r => r.1 != l.id }).haltQueue c q 6
    | none => s

/-- Whether the record of a LAUNCH has FOLLOW = 1, by which it may start before the launch ahead of it is complete (R351): a record
in another module is read for it. -/
def State.recordFollows (s : State) (c va : Nat) : Bool :=
  match s.hwSays c va false with
  | .pa a _ _ => (s.gbyte (a + 2)).getLsbD 0
  | .remote _ _ _ _ => true
  | _ => false

/-- CMD_LAUNCH (R153, R155, R350, R351, R355, R506): when the launch starts its record is read and checked, the launch begun; one
that fails a check writes its completion record at once. -/
def execCmdLaunch (c q : Nat) (s : State) : Out :=
  .next <| s.runCommand c q 1 0 fun x m s =>
    if x.running.isEmpty = false ∧ s.recordFollows c (cmdWord m 8).toNat = false then s
    else
    let r := (s.procRead (.queue c q) x.die c (cmdWord m 8).toNat 128).andThen fun bs s =>
      let rec' : BitVec 1024 := BitVec.ofNat 1024 (leNat bs)
      if x.running.isEmpty = false ∧ recFollow rec' = false then Asked.wait s
      else
        let (id, s) := s.startLaunch c x.prio x.die (some (c, q)) rec'
        let s := s.setQueue c { s.queue c q with cmd := none, started := false, running := (s.queue c q).running ++ [(id, x.cmdSlot)] }
        match s.launch? id with
        | none => .ok s s
        | some l =>
          let s := s.bindTurn l
          match s.launch? id with
          | some l => if l.check ≠ 0 then .ok (s.finishLaunch l) s else .ok s s
          | none => .ok s s
    settleCmd r c q

/-- The relation of a WAIT between memory and value (R350). -/
def waitHolds (sub mem v : Nat) : Bool :=
  match sub with
  | 0 => mem == v
  | 1 => mem != v
  | 2 => decide (mem ≥ v)
  | _ => decide (mem < v)

/-- One acquire read of a WAIT (R350); a read that has begun goes on until its value comes. -/
def State.waitRead (s : State) (c q : Nat) (x : Queue) (m : BitVec 1024) : State :=
  let n := if m.getLsbD 16 then 8 else 4
  let va := (cmdWord m 8).toNat
  let v := (cmdWord m 16).toNat % 2 ^ (8 * n)
  let r := (s.procLine (.queue c q) x.die c va n true).andThen fun bs s =>
    if waitHolds (cmdBits m 13 3) (leNat bs) v then .ok (s.commandDone c q) s
    else .ok (s.setQueue c { s.queue c q with started := true, nextRead := s.clock + 256 }) s
  match r with
  | .wait s => s.setQueue c { s.queue c q with nextRead := 0 }
  | r => settleCmd r c q

/-- CMD_WAIT (R350): the first read. -/
def execCmdWait (c q : Nat) (s : State) : Out :=
  .next <|
    let sub := ((s.queue c q).cmd.map fun m => cmdBits m 13 3).getD 0
    s.runCommand c q 2 sub fun x m s => if x.started then s else s.waitRead c q x m

/-- The processor's watch token of an address has been taken (R87, R350). -/
def State.tokenTaken (s : State) (die c va : Nat) : Bool :=
  match s.hwSays c va false with
  | .pa a g _ => !s.readable (watchHolder die) noQuay (a / 128) g
  | _ => false

/-- WAIT_REREAD (R350): the watch token was taken, or 256 cycles have passed: the WAIT reads again. -/
def execWaitReread (c q : Nat) (s : State) : Out :=
  .next <|
    let sub := ((s.queue c q).cmd.map fun m => cmdBits m 13 3).getD 0
    s.runCommand c q 2 sub fun x m s =>
      if x.started && (decide (s.clock ≥ x.nextRead) || s.tokenTaken x.die c (cmdWord m 8).toNat) then s.waitRead c q x m else s

/-- A SIGNAL, a release performed at the location (R350): `add` reads the old value first, which poison refuses (R71, R352). -/
def State.signal (s : State) (c q : Nat) (x : Queue) (m : BitVec 1024) (add : Bool) : State :=
  let n := if m.getLsbD 16 then 8 else 4
  let va := (cmdWord m 8).toNat
  let v := (cmdWord m 16).toNat
  let y : Waiter := .queue c q
  let r := (s.procChange y x.die c va fun s =>
    if add then s.hwUpdate y c va n (fun old => leBytes n ((leNat old + v) % 2 ^ (8 * n))) true
    else s.hwWrite y c va (leBytes n (v % 2 ^ (8 * n)))).andThen fun _ s => .ok (s.commandDone c q) s
  settleCmd r c q

/-- CMD_SIGNAL_WRITE (R350). -/
def execCmdSignalWrite (c q : Nat) (s : State) : Out := .next (s.runCommand c q 3 0 fun x m s => s.signal c q x m false)
/-- CMD_SIGNAL_ADD (R350). -/
def execCmdSignalAdd (c q : Nat) (s : State) : Out := .next (s.runCommand c q 3 1 fun x m s => s.signal c q x m true)

/-- An engine command issues as if a thread of QUAY had issued it (R350), once the tables have room (R116, R147). -/
def State.cmdEngine (s : State) (c q op sub : Nat) : State :=
  s.runCommand c q op sub fun x m s =>
    match cmdKind op sub with
    | none => s
    | some k =>
      let quay := cmdBits m 17 8
      let d := cmdDesc m
      if s.roomNow quay 1 (s.scoredDests quay c k d) = false then s
      else
        let (id, s) := s.fresh
        let s := s.issueOp { id := id, quay := quay, kind := k, ctx := c, desc := d, co := cmdWord m 8,
                             scope := BitVec.ofNat 3 (cmdBits m 10 3), queue := some (c, q) }
        s.setQueue c { x with started := true, waitOp := some id }

/-- CMD_COPY_G2V (R350). -/
def execCmdCopyG2v (c q : Nat) (s : State) : Out := .next (s.cmdEngine c q 4 0)
/-- CMD_COPY_V2G (R350). -/
def execCmdCopyV2g (c q : Nat) (s : State) : Out := .next (s.cmdEngine c q 4 1)
/-- CMD_COPY_V2V (R350). -/
def execCmdCopyV2v (c q : Nat) (s : State) : Out := .next (s.cmdEngine c q 4 2)
/-- CMD_COPY_MC (R350). -/
def execCmdCopyMc (c q : Nat) (s : State) : Out := .next (s.cmdEngine c q 4 3)
/-- CMD_COLL_ALLRED_BF16 (R350). -/
def execCmdCollAllredBf16 (c q : Nat) (s : State) : Out := .next (s.cmdEngine c q 5 0)
/-- CMD_COLL_ALLRED_F32 (R350). -/
def execCmdCollAllredF32 (c q : Nat) (s : State) : Out := .next (s.cmdEngine c q 5 1)
/-- CMD_COLL_REDSC_BF16 (R350). -/
def execCmdCollRedscBf16 (c q : Nat) (s : State) : Out := .next (s.cmdEngine c q 5 2)
/-- CMD_COLL_REDSC_F32 (R350). -/
def execCmdCollRedscF32 (c q : Nat) (s : State) : Out := .next (s.cmdEngine c q 5 3)
/-- CMD_COLL_ALLGATH (R350). -/
def execCmdCollAllgath (c q : Nat) (s : State) : Out := .next (s.cmdEngine c q 5 4)
/-- CMD_COLL_BCAST (R350). -/
def execCmdCollBcast (c q : Nat) (s : State) : Out := .next (s.cmdEngine c q 5 5)
/-- CMD_FREEZE (R350). -/
def execCmdFreeze (c q : Nat) (s : State) : Out := .next (s.cmdEngine c q 6 0)
/-- CMD_THAW (R350). -/
def execCmdThaw (c q : Nat) (s : State) : Out := .next (s.cmdEngine c q 7 0)

/-! ### Dispatch (R152, R156, R166, R342, R354, R355) -/

/-- Bytes of the live-value store that the threads of a quay take (R19, R161). -/
def State.storeBytes (s : State) (q : Nat) : Nat :=
  (s.threads.filter fun t => t.quay == q && t.st != .free).foldl (fun n t => n + 8 * t.budget) 0

/-- Slots of a quay in use. -/
def State.usedSlots (s : State) (q : Nat) : Nat := s.threads.countP fun t => t.quay == q && t.st != .free

/-- Whether a quay has room for threads of a budget, beside some already counted on (R19). -/
def State.hasRoom (s : State) (q n budget more moreBytes : Nat) : Bool :=
  decide (s.usedSlots q + more + n ≤ 4096) && decide (s.storeBytes q + moreBytes + n * 8 * budget ≤ 1048576)

/-- The quays that a `ctx.give` of its issuer names (R407): QMASK, read from the vault while the controller has not read it. -/
def State.givenQuays (s : State) (o : CtxOp) : List Nat :=
  let d : BitVec 512 :=
    match o.src with
    | .op id =>
      match s.op? id with
      | some e => if o.reach = 0 then BitVec.ofNat 512 (leNat (s.vread e.quay e.a.toNat 64)) else o.desc
      | none => o.desc
    | .node _ => o.desc
  if (d.extractLsb' 128 2).toNat = 0 then
    (List.range 256).filter fun q => d.getLsbD (256 + q)
  else []

/-- An operation of the context controller keeps work of context `c` from a quay: a `ctx.give` of it from its issue (R407), a
`ctx.take` of it from the pre-emption to the hand-over (R408), a change list that names it (R429). -/
def State.ctxBars (s : State) (q c : Nat) : Bool :=
  s.ctxq.any fun o =>
    (o.func == 0x28 && o.issuer == c && o.phase != 9 && (s.givenQuays o).contains q) ||
      (o.func == 0x30 && 0 < o.phase && o.phase != 9 && o.hands.contains q) ||
      (c != 0 && o.func == 0x90 && o.phase == 2 && o.hands.contains q)

/-- Whether work of a context may be dispatched onto a quay (R378, R407, R411, R417). -/
def State.takesWork (s : State) (q c : Nat) : Bool :=
  decide (q < 256) && s.assignee q == c && s.runs c 9 && !s.absent.contains q && !s.exchanging q &&
    !s.handovers.any (fun h => h.quay == q) && !s.ctxBars q c &&
    !s.preempts.any (fun p => p.covers q || (!p.only && s.inSubtree p.root c))

/-- The lowest free slots of a quay. -/
def State.freeSlots (s : State) (q : Nat) : Nat → Nat → Nat → List Nat
  | 0, _, _ => []
  | _, 0, _ => []
  | fuel + 1, n + 1, sl =>
    if s.threads.any fun t => t.quay == q && t.slot == sl && t.st != .free then s.freeSlots q fuel (n + 1) (sl + 1)
    else sl :: s.freeSlots q fuel n (sl + 1)

/-- A thread placed in a slot (R160). -/
def placed (base : Thread) (sl tid gid : Nat) (levels : List Nat) (x0 : Word) : Thread :=
  { base with slot := sl, st := .waiting, tid := tid, gid := gid, levels := levels, x := (List.replicate 64 0).set 0 x0 }

/-- %lvl0 to %lvl7 of a thread (R157). -/
def levelsOf (r : BitVec 1024) (gid : Nat) : List Nat :=
  (List.range 8).map fun j =>
    if j < recNlev r then gid / (if j = 0 then 1 else unitThreads r (j - 1)) % max 1 (lvlExtent r j) else 0

/-- Place the threads of a group and count their arrivals (R160, R163). -/
def State.placeGroup (s : State) (g : Group) (ts : List Thread) : State :=
  let s : State := { s with groups := s.groups ++ [{ g with slots := ts.map (·.slot) }] }
  let s := ts.foldl State.setThread s
  ts.foldl (fun s t => s.arrive t.quay t.slot none) s

/-- Registers of a BUDGET code (R153). -/
def budgetRegs (b : Nat) : Nat := 16 * (b + 1)

/-- Fields of a task record (R166). -/
def taskThreads (r : BitVec 256) : Nat := (r.extractLsb' 160 11).toNat
/-- BUDGET of a task record. -/
def taskBudget (r : BitVec 256) : Nat := budgetRegs (r.extractLsb' 176 2).toNat
/-- CTX of a task record. -/
def taskCtx (r : BitVec 256) : Nat := (r.extractLsb' 192 12).toNat

/-- The KIND 0 record of workgroup `w` of a launch (R166, R354): a started launch has one in the ready queue for each of its
workgroups not yet placed, in ascending order, so the queue is what the launch itself says.  The manual does not number the launch
slots: FRAME bits 63:32 are the launch's own number (DESIGN CHOICE, log entry 84). -/
def Launch.wgRecord (l : Launch) (w : Nat) : BitVec 256 :=
  0#48 ++ BitVec.ofNat 16 l.ctx ++ 0#14 ++ BitVec.ofNat 2 (recBudget l.record) ++ 0#1 ++ 0#4 ++
    BitVec.ofNat 11 (lvlExtent l.record 0) ++ 0#32 ++ BitVec.ofNat 32 l.id ++ BitVec.ofNat 32 w ++
    BitVec.ofNat 64 (recBits l.record 448 64)

/-- Dispatch one workgroup of a launch onto a quay, from its record. -/
def State.placeWorkgroup (s : State) (l : Launch) (q i : Nat) : State :=
  let (id, s) := s.fresh
  let r := l.record
  let k := l.wgRecord i
  let w := (k.extractLsb' 64 32).toNat
  let n := taskThreads k
  let base : Thread := { quay := q, budget := taskBudget k, nba := k.extractLsb' 0 64, ctx := taskCtx k,
                         group := id, param := BitVec.ofNat 64 (recBits r 384 64), psize := recPsize r,
                         lbase := BitVec.ofNat 64 (recBits r 320 64), lsize := recLsize r, prio := l.prio }
  let ts := (s.freeSlots q 4096 n 0).zipIdx.map fun x => placed base x.1 x.2 (w * n + x.2) (levelsOf r (w * n + x.2)) 0
  let g : Group := { id := id, quay := q, ctx := l.ctx, launch := some l.id, number := w, nthr := n, prio := l.prio }
  (s.placeGroup g ts).modLaunch l.id fun l => { l with placed := l.placed + 1, quays := l.quays ++ [(w, q)] }

/-- Dispatch a task onto a quay (R160, R342). -/
def State.placeTask (s : State) (k : Ready) (q : Nat) : State :=
  let (id, s) := s.fresh
  let r := k.record
  let c := taskCtx r
  let n := taskThreads r
  let base : Thread := { quay := q, budget := taskBudget r, nba := r.extractLsb' 0 64, ctx := c, group := id, prio := k.prio }
  let x0 : Word := (r.extractLsb' 64 32).zeroExtend 64
  let ts := (s.freeSlots q 4096 n 0).zipIdx.map fun x => placed base x.1 x.2 x.2 (List.replicate 8 0) x0
  s.placeGroup { id := id, quay := q, ctx := c, nthr := n, prio := k.prio } ts

/-- Instance of a DOMAIN that a quay lies in (R154). -/
def instanceOf (d q : Nat) : Nat := match d with | 1 => q | 2 => pairOf q | 3 => basinOf q | 4 => dieOf q | _ => 0

/-- Whether workgroup `w` may lie on a quay: every unit it belongs to stays in one instance of its domain (R154), and the
binding table names the quay (R355). -/
def Launch.fits (l : Launch) (w q : Nat) (before : List (Nat × Nat)) : Bool :=
  let r := l.record
  let n := lvlExtent r 0
  let unit := fun (j v : Nat) => v * n / unitThreads r j
  (l.bind.isEmpty || l.bind[w]? == some q) &&
    (List.range (recNlev r)).all fun j => (l.quays ++ before).all fun x =>
      unit j x.1 != unit j w || instanceOf (lvlDomain r j) x.2 == instanceOf (lvlDomain r j) q

/-- Whether quays can take the workgroups from `w` on, one each, together. -/
def State.canPlace (s : State) (l : Launch) (w : Nat) (before : List (Nat × Nat)) : List Nat → Bool
  | [] => true
  | q :: qs =>
    let b := budgetRegs (recBudget l.record)
    let n := lvlExtent l.record 0
    let here := before.countP fun x => x.2 == q
    s.takesWork q l.ctx && s.hasRoom q n b (here * n) (here * n * 8 * b) && l.fits w q before &&
      s.canPlace l (w + 1) (before ++ [(w, q)]) qs

/-- How many workgroups a turn of a launch takes: a cluster, or all of a cooperative launch (R354). -/
def Launch.turn (l : Launch) : Nat := if recCoop l.record then l.total - l.placed else clusterSize l.record

/-- The workgroups of one turn lie, cluster by cluster, in one basin each (R152). -/
def Launch.basinsOk (l : Launch) (qs : List Nat) : Bool :=
  let k := max 1 (clusterSize l.record)
  qs.zipIdx.all fun x => basinOf x.1 == basinOf (qs.getD (x.2 / k * k) 0)

/-- Quays of a basin a cluster may be searched on, `q` first. -/
def basinFrom (q : Nat) : List Nat := q :: ((List.range 8).map (basinOf q * 8 + ·)).filter (· != q)

/-- Lay workgroups out one after another on quays of the lists that take them together: the first layout there is. -/
def State.layOut (s : State) (l : Launch) (cand : Nat → List Nat) (w : Nat) (before : List (Nat × Nat)) : Nat → Option (List Nat)
  | 0 => some []
  | n + 1 =>
    (cand w).findSome? fun q =>
      let b := budgetRegs (recBudget l.record)
      let m := lvlExtent l.record 0
      let here := before.countP fun x => x.2 == q
      if s.takesWork q l.ctx && s.hasRoom q m b (here * m) (here * m * 8 * b) && l.fits w q before &&
          l.basinsOk ((before.map (·.2)) ++ [q]) then
        (s.layOut l cand (w + 1) (before ++ [(w, q)]) n).map (q :: ·)
      else none

/-- A layout of the next turn of a launch whose first workgroup lies on quay `q`, the others on quays that `free` admits. -/
def State.layFrom (s : State) (l : Launch) (q : Nat) (free : Nat → Bool) : Option (List Nat) :=
  let first := l.placed
  let cand := fun (w : Nat) =>
    if w = first then [q]
    else (if recCoop l.record then basinFrom q ++ (List.range 256).filter (fun x => basinOf x != basinOf q)
      else basinFrom q).filter free
  s.layOut l cand first [] l.turn

/-- Whether a quay can hold a workgroup of the next turn of a launch (R354). -/
def State.canHold (s : State) (l : Launch) (q : Nat) : Bool :=
  let all := fun (_ : Nat) => true
  (s.layFrom l q all).isSome || (basinFrom q).any fun p => (s.layFrom l p all).any (·.contains q)

/-- Whether a launch still waits for dispatch. -/
def Launch.waits (l : Launch) : Bool := l.bindRead && l.check == 0 && decide (l.placed < l.total)

/-- Whether a launch can take its next turn on quays: placed together, each cluster in one basin. -/
def State.launchTakes (s : State) (l : Launch) (qs : List Nat) : Bool :=
  l.waits && decide (qs.length = l.turn) && l.basinsOk qs && s.canPlace l l.placed [] qs

/-- Whether a task can be taken by a quay (R166). -/
def State.taskTakes (s : State) (k : Ready) (q : Nat) : Bool :=
  s.takesWork q (taskCtx k.record) && dieOf q == k.die && s.hasRoom q (taskThreads k.record) (taskBudget k.record) 0 0

/-- Rank of a launch among those of its priority: the number of its queue, counted on from the queue served last; a
launch that `launch` started is a queue of its own (R354). -/
def State.turnRank (s : State) (q : Nat) (l : Launch) : Nat :=
  let key := match l.queue with | some (c, n) => c * 64 + n | none => 2 ^ 18 + l.id
  let last := kvGet (s.partOfQuay q * 4 + l.prio) 0 s.lastQueue
  if key > last then key - last else key + 2 ^ 64

/-- Work of higher rank that the quay could take instead (R354): a task of the same or a higher priority, a launch of a
higher priority, or one whose queue has its turn earlier. -/
def State.higherWork (s : State) (q prio : Nat) (rank : Option Nat) (before : List Ready) : Bool :=
  (s.ready.any fun k => s.taskTakes k q && (decide (k.prio > prio) || (rank.isSome && k.prio == prio))) ||
    (before.any fun k => s.taskTakes k q && k.prio == prio) ||
    s.launches.any fun m => m.waits && s.canHold m q &&
      (decide (m.prio > prio) || rank.any fun r => m.prio == prio && decide (s.turnRank q m < r))

/-- WORKGROUP_DISPATCH (R152, R160, R163, R166, R342, R354, R355, R417): the `n`-th task ready, or after the tasks the
next turn of the `n`-th launch, is taken by quays that have room, if none of them could take anything of higher rank. -/
def execWorkgroupDispatch (n : Nat) (quays : List Nat) (s : State) : Out :=
  .next <|
    let q := quays.headD 0
    match s.ready[n]? with
    | some k =>
      if quays.length = 1 ∧ s.taskTakes k q = true ∧ s.higherWork q k.prio none (s.ready.take n) = false then
        ({ s with ready := s.ready.eraseIdx n } : State).placeTask k q
      else s
    | none =>
      match s.launches[n - s.ready.length]? with
      | none => s
      | some l =>
        if l.bindRead = false then s.bindTurn l
        else if s.launchTakes l quays = true ∧ quays.all (fun x => !s.higherWork x l.prio (some (s.turnRank q l)) []) = true then
          let key := match l.queue with | some (c, n) => c * 64 + n | none => 2 ^ 18 + l.id
          let s : State := { s with lastQueue := kvSet (s.partOfQuay q * 4 + l.prio) key s.lastQueue }
          quays.zipIdx.foldl (fun s x => s.placeWorkgroup l x.1 (l.placed + x.2)) s
        else if recCoop l.record && l.waits then s.modLaunch l.id fun l => { l with nonres := true }
        else s

/-! ### Completion (R163, R168, R169, R342, R353) -/

/-- Whether a group has ended: every thread IDLE, every operation joined, every write performed (R163, R169). -/
def State.groupEnded (s : State) (g : Group) : Bool :=
  (s.threads.all fun t => t.group != g.id || t.st == .free || (t.st == .idle && t.released.isEmpty)) &&
    !(s.ops.any fun o => o.group == some g.id) && !(s.greds.any fun c => c.group == g.id)

/-- The slots of a group become FREE together (R163). -/
def State.freeGroup (s : State) (g : Group) : State :=
  { s with threads := s.threads.filter fun t => t.group != g.id, groups := s.groups.filter fun x => x.id != g.id }

/-- A group's record is settled: its launch counts it (R353) and its slots become FREE. -/
def State.countGroup (s : State) (g : Group) (fault : Bool) : State :=
  let s := s.freeGroup g
  match g.launch with
  | none => s
  | some id =>
    s.modLaunch id fun l =>
      { l with completed := l.completed + 1, nexit := l.nexit + g.nexit, nlost := l.nlost + g.nlost,
               smax := if l.smax.toNat < g.smax.toNat then g.smax else l.smax, sor := l.sor ||| g.sor,
               estat := l.estat || g.estat, efault := l.efault || g.efault, wgfault := l.wgfault || fault }

/-- WORKGROUP_COMPLETE (R163, R169, R342): the record of a workgroup that has ended is written at WGCOMP + 32 · w; a
task's group writes none. -/
def execWorkgroupComplete (n : Nat) (s : State) : Out :=
  .next <|
    match s.groups[n]? with
    | none => s
    | some g =>
      if s.groupEnded g = false then s
      else
        match g.launch.bind s.launch? with
        | none => s.countGroup g false
        | some l =>
          let wg := recWgcomp l.record
          if wg = 0 then s.countGroup g false
          else
            match s.recordWrite (.group g.id) l.ctx (wg + 32 * g.number) (leBytes 32 (g.record s.clock).toNat) with
            | .ok _ s => s.countGroup g false
            | .fail _ s => s.countGroup g true
            | .wait s => s

/-- LAUNCH_COMPLETE (R353): every workgroup record is written, so the launch's is. -/
def execLaunchComplete (n : Nat) (s : State) : Out :=
  .next <|
    match s.launches[n]? with
    | none => s
    | some l => if l.bindRead = true ∧ l.completed ≥ l.total then s.finishLaunch l else s

/-! ### Operations of the queue processor's side: `launch` and `qpost` (R294, R343, R347) -/

/-- A `launch` instruction's turn (R343): the record is read, the entry given back. -/
def State.launchTurn (s : State) (o : EngOp) : State :=
  if s.engHalted o.quay || s.storesPending o then s
  else if o.status ≠ 0 then s.joinOp o 0 false
  else
    match s.procRead (.op o.id) (dieOf o.quay) o.ctx o.a.toNat 128 with
    | .wait s => s
    | .fail _ s => (s.dropRemotes o).joinOp o 0 false
    | .ok bs s =>
      let s := s.dropRemotes o
      let prio := ((o.group.map fun g => (s.group g).prio)).getD 0
      let (id, s) := s.startLaunch o.ctx prio (dieOf o.quay) none (BitVec.ofNat 1024 (leNat bs))
      let s := s.joinOp o 0 false
      match s.launch? id with
      | none => s
      | some l =>
        let s := s.bindTurn l
        match s.launch? id with
        | some l => if l.check ≠ 0 then s.finishLaunch l else s
        | none => s

/-- Change bytes of a queue's area for a `qpost` (R347): the old bytes are the answer. -/
def State.postChange (s : State) (o : EngOp) (va n : Nat) (poison : Bool) (f : List Byte → List Byte) : Asked (List Byte) :=
  (s.opLine o o.quay o.ctx va).andThen fun x s =>
    match s.paKind x.pa with
    | .remote mod =>
      ((s.farUpdate (.op o.id) mod x.pa n x.gen f).asked o o.quay o.ctx va true).andThen fun r s => .ok r.1 (s.dropRemotes o)
    | _ =>
      let old := s.gbytes x.pa n
      .ok old ((s.opWrite o.quay x (f old) poison).returnLines o)

/-- Steps 2 to 4 of R347 for a claimed slot, one after the other. -/
def State.publishSlot (s : State) (o : EngOp) (x : Queue) (n : Nat) : Asked State :=
  let rd := fun (s : State) (va : Nat) =>
    (s.opRead o o.quay o.ctx va 8 0).andThen fun p s => Asked.ok (leNat p.bytes) ((s.dropRemotes o).returnLines o)
  let next := fun (s : State) (k : Nat) => let s := s.modOp o.id fun o => { o with phase := k }; Asked.ok s s
  match o.phase with
  | 0 => (rd s (x.base + 0x100)).andThen fun head s => if head + x.slots ≤ n then .wait s else next s 1
  | 1 => (s.postChange o (x.base + 0x200 + 128 * (n % x.slots)) o.data.length (o.status == 1) fun _ => o.data).andThen fun _ s => next s 2
  | 2 => (rd s x.base).andThen fun tail s => if tail ≠ n then .wait s else next s 3
  | _ => (s.postChange o x.base 8 false fun _ => leBytes 8 (n + 1)).andThen fun _ s => let s := s.endOp o.id 0; .ok s s

/-- A `qpost`'s turn (R294): scope, revocation, the record at issue, the claim, the slot and the tail. -/
def State.qpostTurn (s : State) (o : EngOp) : State :=
  if s.opRuns o = false then s
  else if o.status > 1 then (s.withdrawFar (· == .op o.id)).endOp o.id 0
  else
    let x := s.queue o.ctx (dAux o.desc)
    if o.scope.toNat < 4 then s.endOp o.id 4
    else if x.en = false then (s.withdrawFar (· == .op o.id)).endOp o.id 11
    else if o.data.isEmpty then
      let off := (dSrc o.desc).toNat
      if off + dLen o.desc > vaultEnd then s.endOp o.id 8
      else
        match askEach (fun s (p : Nat × Nat) => s.opVault o o.quay (off + p.1) p.2 p.1) (cutAt 128 off 0 (dLen o.desc) 4) s with
        | .ok ps s =>
          let s := if ps.any (·.md.poison) then s.markPoison o.id else s
          (s.chargeVault o.quay o.ctx (dLen o.desc)).modOp o.id fun o => { o with data := piecesBytes ps }
        | .wait s => s
        | .fail st s => s.endOp o.id st
    else
      let r := match o.claimed with
        | none =>
          (s.postChange o (x.base + 0x80) 8 false fun bs => leBytes 8 ((leNat bs + 1) % 2 ^ 64)).andThen fun bs s =>
            let s := s.modOp o.id fun o => { o with claimed := some (leNat bs) }
            .ok s s
        | some n => s.publishSlot o x n
      r.settle o

end Sys2Proof.Machine
end

