-- ==== Sys2Proof/Machine/MatrixUnits.lean ====
section
/-! DEFINITION. The matrix unit of a pair: its queue, the sums of the nodes, releases, the end of an operation (R53, R54,
R244 to R257), and the sequencer that issues copies and `mma` steps (R129, R291, R292). -/

namespace Sys2Proof.Machine

/-! ### Elements and group sums (R42, R53, R54, R246, R247) -/

/-- Format of a floating-point format code (R63). -/
def codeFmt : Nat → Fmt
  | 1 => fmtF8a
  | 2 => fmtF8b
  | 3 => fmtBF16
  | 4 => fmtF16
  | _ => fmtF32

/-- The value of an element, with NV for a signalling NaN (R34, R38, R256). -/
def elemVal (c x : Nat) : FVal × Exc := if c = 5 then (ds8Value x, 0) else fpIn (codeFmt c) false x

/-- A group of elements of an A row or a B column, with what R134 keeps of its line. -/
structure GroupIn where
  lam : Int := 0
  elems : List (FVal × Exc) := []
  pois : Bool := false
  mism : Bool := false
  deriving DecidableEq, Repr, Inhabited

/-- `n` elements of format code `c` at an offset of a vault (R247): tag 0 always matches, and 0x6 matches DS8. -/
def State.groupIn (s : State) (c q off n : Nat) : GroupIn :=
  let l := s.vmeta (vline q off)
  { lam := l.lam.toInt, elems := (elements (codeBytes c) (s.vread q off (n * codeBytes c)) n).map (elemVal c),
    pois := l.poison, mism := l.tag.toNat != 0 && l.tag.toNat != c && !(l.tag.toNat == 6 && c == 5) }

/-- A group of zeros: the row of index 0xFFFF, or of one out of range (R126). -/
def zeroGroup (n : Nat) : GroupIn := { elems := List.replicate n (.fin false 0 0, 0) }

/-- A value times 2^k. -/
def FVal.scale : FVal → Int → FVal
  | .fin s m e, k => .fin s m (e + k)
  | v, _ => v

/-- s of R53 with its exceptions (R256): products exact, summed exactly, scaled by both line scales. -/
def groupSum (a b : GroupIn) : FVal × Exc :=
  let ps := List.zipWith (fun x y => let p := fMul x.1 y.1; (p.1, x.2 ||| y.2 ||| p.2)) a.elems b.elems
  let pos := ps.any fun p => p.1 == .inf false
  let neg := ps.any fun p => p.1 == .inf true
  let exc := ps.foldl (fun e p => e ||| p.2) 0
  let both := pos && neg
  if both || ps.any (·.1.isNan) then (.nan, if both then exc ||| exNV else exc)
  else if pos || neg then (.inf neg, exc)
  else ((fSum .ne (ps.map (·.1))).1.scale (a.lam + b.lam), exc)

/-- c + s, rounded once (R53, R54). -/
def accumulate (c : BitVec 32) (g : FVal × Exc) : BitVec 32 × Exc :=
  let t := fAdd .ne (fmtF32.value c.toNat) g.1
  let r := fpOut fmtF32 .ne false false t.1
  (BitVec.ofNat 32 r.1, g.2 ||| t.2 ||| r.2)

/-- The sums of a node, row by row (R248). -/
def Node.all (n : Node) : List (BitVec 32) := if n.sums.isEmpty then List.replicate 4096 0 else n.sums

/-- A group added to every element of a node (R53, R253). -/
def Node.addGroup (n : Node) (rows cols : List GroupIn) (g : Nat) : Node :=
  let gs := rows.flatMap fun r => cols.map fun c => groupSum r c
  let out := List.zipWith accumulate n.all gs
  { n with sums := out.map (·.1), k := (n.k + g) % 2 ^ 32, exc := out.foldl (fun e x => e ||| x.2) n.exc,
           pois := n.pois || (rows ++ cols).any (·.pois), mism := n.mism || (rows ++ cols).any (·.mism) }

/-! ### Nodes and units -/

/-- Replace a node. -/
def State.setNode (s : State) (x : Node) : State := { s with nodes := tset (fun y => y.quay == x.quay && y.n == x.n) x s.nodes }

/-- A node cleared (R251, R256); `mma.clr` clears EXC, POIS and MISM with the sums and the counter (DESIGN CHOICE, log entry
87). -/
def Node.clear (n : Node) : Node := { n with sums := [], k := 0, exc := 0, mism := false, pois := false }

/-- Replace a matrix unit. -/
def State.setUnit (s : State) (u : MatrixUnit) : State := { s with units := tset (fun x => x.pair == u.pair) u s.units }

/-- The operation at the head of a unit's queue, where the array may act (R244, R257): at a stop of the pair only a
sequence's, whose marker is still carried out (R129). -/
def State.headOp (s : State) (u : MatrixUnit) : Option EngOp :=
  match u.queue with
  | [] => none
  | id :: _ =>
    (s.op? id).filter fun o => !s.engStopped (2 * u.pair) && !s.engStopped (2 * u.pair + 1) &&
      (!s.pairHalted (2 * u.pair) || o.parent.isSome)

/-- Whether a stop of the pair keeps an operation from beginning or from a further K-step (R129, R257): all but the steps of
a `seq.attn`, which go on to the end of their tile. -/
def State.stepHalted (s : State) (o : EngOp) : Bool :=
  s.pairHalted o.quay && !((o.parent.bind s.op?).any fun p => p.kind == .seqAttn)

/-- An own-vault offset as a completion operand (R283). -/
def ownCo (q off : Nat) : Word := if off = 0 then 0 else BitVec.ofNat 64 (2 ^ 63 + q % 32 * 2 ^ 24 + off % 2 ^ 24)

/-! ### Descriptors (R252) -/

/-- OPCO of a descriptor. -/
def mmaOpco (d : BitVec 256) : Nat := (d.extractLsb' 224 32).toNat
/-- IDX of a descriptor. -/
def mmaIdx (d : BitVec 256) : Nat := (d.extractLsb' 192 32).toNat
/-- BBASE of a descriptor. -/
def mmaB (d : BitVec 256) : Nat := (d.extractLsb' 160 32).toNat
/-- BSTRIDE of a descriptor. -/
def mmaBStride (d : BitVec 256) : Nat := (d.extractLsb' 144 16).toNat
/-- ASTRIDE of a descriptor. -/
def mmaAStride (d : BitVec 256) : Nat := (d.extractLsb' 128 16).toNat
/-- ABASEL or ABASEF of a descriptor. -/
def mmaABase (d : BitVec 256) (half : Nat) : Nat := (d.extractLsb' (64 + 32 * half) 32).toNat
/-- NROWS of a descriptor. -/
def mmaRows (d : BitVec 256) : Nat := (d.extractLsb' 48 16).toNat
/-- K of a descriptor. -/
def mmaK (d : BitVec 256) : Nat := (d.extractLsb' 0 20).toNat

/-- Bytes between columns of B: of a sequence's step the product of R291, which its EXT holds, else BSTRIDE. -/
def EngOp.bStride (o : EngOp) (d : BitVec 256) : Nat := if o.parent.isSome then o.ext.toNat else mmaBStride d

/-- The vault completion object an operation raises, as a completion operand: that of port b, or OPCO for an `mma`. -/
def State.objectOf (s : State) (o : EngOp) : Word :=
  match o.kind with
  | .mmaCfg | .mmaRel | .mmaClr => 0
  | .mma =>
    let off := (o.a.extractLsb' 0 24).toNat
    let d : BitVec 256 := if o.parent.isSome then o.desc else BitVec.ofNat 256 (leNat (s.vread o.quay off 32))
    ownCo o.quay (mmaOpco d)
  | _ => o.co

/-- The quay and first offset of a half's A rows (R252): a quay that fails R135, or lies outside the basin that the
gather unit reaches (R126), is none. -/
def State.mmaSource (s : State) (o : EngOp) (d : BitVec 256) (half : Nat) : Option (Nat × Nat) :=
  match s.vaultOperand (BitVec.ofNat 64 (mmaABase d half)) o.quay o.ctx 0 with
  | .ok q off => if basinOf q = basinOf o.quay then some (q, off) else none
  | _ => none

/-- The checks of R252 on a descriptor and its 128 indexes, `sa` and `sb` bytes an element. -/
def State.mmaOk (s : State) (o : EngOp) (d : BitVec 256) (ix : List Nat) (sa sb : Nat) : Bool :=
  let k := mmaK d
  let bs := o.bStride d
  let rowOk := fun (half i : Nat) =>
    match s.mmaSource o d half with
    | none => false
    | some (_, off) =>
      i == 0xFFFF || decide (i ≥ mmaRows d) ||
        (let a := off + i * mmaAStride d
         a % 16 == 0 && decide (a + k * sa ≤ vaultEnd))
  d.extractLsb' 20 28 == 0 && decide (0 < k) && bs % 16 == 0 && mmaB d % 16 == 0 && (mmaOpco d == 0 || decide (mmaOpco d + 16 ≤ vaultEnd)) &&
    decide (mmaB d + 63 * bs + k * sb ≤ vaultEnd) && (s.mmaSource o d 0).isSome && (s.mmaSource o d 1).isSome &&
    ix.zipIdx.all fun x => rowOk (x.2 / 64) x.1

/-! ### The head of the queue (R244, R250 to R252) -/

/-- An `mma` begins: descriptor and index vector are read and checked. -/
def State.mmaStart (s : State) (u : MatrixUnit) (o : EngOp) : Asked State :=
  let off := (o.a.extractLsb' 0 24).toNat
  let got : Asked (BitVec 256 × Bool) :=
    if o.parent.isSome then .ok (o.desc, false) s
    else if u.desc ≠ 0 then .ok (u.desc, u.poisL) s
    else
      (askEach (fun s (p : Nat × Nat) => s.opVault o o.quay (off + p.1) p.2 p.1) (cutAt 128 off 0 32 8) s).andThen fun ps s =>
        .ok (BitVec.ofNat 256 (leNat (piecesBytes ps)), ps.any (·.md.poison)) s
  got.andThen fun r s =>
    let d := r.1
    let s := s.setUnit { u with desc := d, poisL := r.2 }
    let cfg := (s.node o.quay o.nodeNo).cfg
    let sa := codeBytes (cfgA cfg)
    let sb := codeBytes (cfgB cfg)
    let bad (s : State) : Asked State := .ok (s.setUnit { u with busy := true, desc := d, status := 8, endDue := true }) s
    if mmaIdx d + 256 > vaultEnd then bad s
    else
      -- a sequence that reads rows in order carries them in its step's data (R292)
      let idx : Asked (List Nat × Bool × Bool) :=
        if o.data.isEmpty then
          (askEach (fun s (p : Nat × Nat) => s.opVault o o.quay (mmaIdx d + p.1) p.2 p.1) (cutAt 128 (mmaIdx d) 0 256 8)
            s).andThen fun ps s =>
              .ok (elements 2 (piecesBytes ps) 128, poisonedPart ps 0 128, poisonedPart ps 128 128) s
        else .ok (o.data.map BitVec.toNat, false, false) s
      idx.andThen fun x s =>
        if s.mmaOk o d x.1 sa sb = false then bad s
        else
          let out := x.1.any fun i => i != 0xFFFF && decide (i ≥ mmaRows d)
          let ix := x.1.map fun i => if i ≥ mmaRows d then 0xFFFF else i
          let st := if out then 8 else if r.2 || x.2.1 || x.2.2 then 1 else 0
          let s := s.chargeVault o.quay o.ctx (if o.parent.isSome then 256 else 288)
          .ok (s.setUnit { u with busy := true, running := true, desc := d, idxs := ix, kpos := 0, status := st,
                                  poisL := r.2 || x.2.1, poisF := r.2 || x.2.2 }) s

/-- MATRIX_QUEUE_HEAD (R244, R250 to R252): the operation at the head of the pair's queue begins: it observes the earlier
stores of its thread (R254). -/
def execMatrixQueueHead (pair : Nat) (s : State) : Out :=
  .next <|
    let u := s.unit pair
    if u.busy then s
    else
      match s.headOp u with
      | none => s
      | some o =>
        if s.opRuns o = false ∨ s.stepHalted o = true then s
        else
          let refused (s : State) (st : Nat) : State :=
            (s.setUnit { s.unit pair with busy := true, status := st, endDue := true }).modOp o.id fun o => { o with status := 0 }
          if o.status > 1 then refused s o.status
          else
          match o.kind with
          | .mma =>
            match s.mmaStart u o with
            | .ok s _ => s
            | .wait s => s
            | .fail st s => refused s st
          | .mmaRel => s.setUnit { u with busy := true, tileDue := some (o.nodeNo, 2), endDue := true }
          | .mmaCfg =>
            let due := if (s.node o.quay o.nodeNo).k = 0 then none else some (o.nodeNo, 3)
            s.setUnit { u with busy := true, tileDue := due, endDue := true }
          | _ =>
            let s := (s.setNode (s.node o.quay o.nodeNo).clear).setNode (s.node (o.quay + 1) o.nodeNo).clear
            s.setUnit { u with busy := true, endDue := true }

/-! ### K-steps (R20, R53, R126, R247, R253, R255) -/

/-- Row address of one half's row `i` (R252); none for a zero row. -/
def State.rowAt (s : State) (o : EngOp) (u : MatrixUnit) (half i : Nat) : Option (Nat × Nat) :=
  let k := u.idxs.getD (64 * half + i) 0xFFFF
  if k = 0xFFFF then none else (s.mmaSource o u.desc half).map fun x => (x.1, x.2 + k * mmaAStride u.desc)

/-- What a mapped region still owes a group's reads (R141). -/
def State.groupFill (s : State) (o : EngOp) (at' : List (Nat × Nat)) (n : Nat) : Asked Unit :=
  at'.foldl (fun (a : Asked Unit) x => a.andThen fun _ s => s.opFill o x.1 x.2 n) (.ok () s)

/-- Rows of a latch buffer as the gather units fill it for the array, and its return when they are used (R126, R255): `kpos`
is the K position after a group, which came from the buffer of the K before it. -/
def State.fillLatch (s : State) (o : EngOp) (u : MatrixUnit) (sa kpos : Nat) : State :=
  let b := (kpos - 1) / segK sa % 2
  let k0 := (kpos - 1) / segK sa * segK sa
  let n := min 256 ((mmaK u.desc - k0) * sa)
  let rows := (List.range 128).map fun r =>
    let bytes := match s.rowAt o u (r / 64) (r % 64) with
      | some (q, a) => s.vread q (a + k0 * sa) n
      | none => List.replicate n 0
    ({ quay := o.quay + r / 64, buf := b, row := r % 64, bytes := bytes } : LatchRow)
  let other := s.latch.filter fun l => !(pairOf l.quay == pairOf o.quay && l.buf == b)
  { s with latch := if kpos % segK sa = 0 ∨ kpos = mmaK u.desc then other else other ++ rows }

/-- One group: read, summed into node n of both quays, charged; the markers it brings are set (R53, R253, R255). -/
def State.groupStep (s : State) (o : EngOp) (u : MatrixUnit) : Asked MatrixUnit :=
  let n := o.nodeNo
  let cfg := (s.node o.quay n).cfg
  let ca := cfgA cfg
  let cb := cfgB cfg
  let sa := codeBytes ca
  let sb := codeBytes cb
  let g := min (groupSize ca cb) (mmaK u.desc - u.kpos)
  let rowsAt := (List.range 128).map fun r => (s.rowAt o u (r / 64) (r % 64)).map fun x => (x.1, x.2 + u.kpos * sa)
  let colsAt := (List.range 64).map fun j => (o.quay, mmaB u.desc + j * o.bStride u.desc + u.kpos * sb)
  -- a quay whose rows were taken from the context meanwhile (R408)
  if (s.mmaSource o u.desc 0).isNone || (s.mmaSource o u.desc 1).isNone then .fail 11 s
  else (s.groupFill o (rowsAt.filterMap id) (g * sa)).andThen fun _ s =>
    (s.groupFill o colsAt (g * sb)).andThen fun _ s =>
      let row := fun (x : Option (Nat × Nat)) =>
        match x with
        | some (q, a) => s.groupIn ca q a g
        | none => zeroGroup g
      let cols := colsAt.map fun x => s.groupIn cb x.1 x.2 g
      let rows := rowsAt.map row
      let poison := (rows ++ cols).any (·.pois)
      let lead := (s.node o.quay n).addGroup (rows.take 64) cols g
      let foll := (s.node (o.quay + 1) n).addGroup (rows.drop 64) cols g
      -- a poisoned line marks the tile it feeds (R254)
      let s := (s.setNode { lead with pois := lead.pois || u.poisL }).setNode { foll with pois := foll.pois || u.poisF }
      let cls := if cb = 5 then 7 else if sa = 1 then 6 else 5
      let perCycle := if cb = 5 then 4 else if sa = 1 then 2 else 1
      let steps := (g + perCycle - 1) / perCycle
      let s := (s.charge (meterQuay o.quay) o.ctx cls steps).charge (meterQuay (o.quay + 1)) o.ctx cls steps
      let live := fun (l : List (Option (Nat × Nat))) => l.countP Option.isSome
      let s := s.charge (meterQuay o.quay) o.ctx 8 (g * (live (rowsAt.take 64) * sa + 64 * sb))
      let s := s.charge (meterQuay (o.quay + 1)) o.ctx 8 (g * live (rowsAt.drop 64) * sa)
      let k := u.kpos + g
      let eor := cfgEor cfg
      let tile := if eor ≠ 0 ∧ lead.k ≥ eor then some (n, 1) else none
      .ok { u with kpos := k, tileDue := tile, endDue := decide (k ≥ mmaK u.desc),
                   status := if poison && u.status == 0 then 1 else u.status } (s.fillLatch o u sa k)

/-- Groups until a marker: at most those of one latch buffer. -/
def State.runGroups (s : State) (o : EngOp) (u : MatrixUnit) (sa : Nat) : Nat → Asked MatrixUnit
  | 0 => .ok u s
  | n + 1 =>
    match s.groupStep o u with
    | .ok u s => if u.tileDue.isSome || u.endDue || u.kpos % segK sa == 0 then .ok u s else s.runGroups o u sa n
    | .wait s => .wait (s.setUnit u)
    | .fail st s => .fail st (s.setUnit u)

/-- END_OF_ROW (R253, R255): the array works through the groups of a latch buffer, as far as the next marker; a buffer
whose last K is used goes back to the gather unit. -/
def execEndOfRow (pair : Nat) (s : State) : Out :=
  .next <|
    let u := s.unit pair
    if u.running = false ∨ u.tileDue.isSome = true ∨ u.endDue = true then s
    else
      match s.headOp u with
      | none => s
      | some o =>
        if o.waiting || s.stepHalted o then s
        else if o.status > 1 then
          (s.setUnit { u with status := o.status, endDue := true }).modOp o.id fun o => { o with status := 0 }
        else
          match s.runGroups o u (codeBytes (cfgA (s.node o.quay o.nodeNo).cfg)) 16 with
          | .ok u s => s.setUnit u
          | .wait s => s
          | .fail st s => s.setUnit { s.unit pair with status := st, endDue := true }

/-! ### Releases (R248, R255, R256) -/

/-- Conversion of a sum to a release format (R46, R48, R256): its bits and exceptions. -/
def releaseVal (rfmt : Nat) (mode : Mode) (sat : Bool) (c : BitVec 32) : FRes :=
  if rfmt = 0 then (c.toNat, 0)
  else
    let f := codeFmt rfmt
    match fmtF32.value c.toNat with
    | .inf g => if f.noInf then (if sat then (f.signBit g + f.maxFin, 0) else (f.infBits g, exNV)) else (f.infBits g, 0)
    | v => fpOut f mode false sat v

/-- A node's tile, row by row, and the exceptions of its conversion. -/
def Node.tile (n : Node) : List Byte × Exc :=
  let rf := cfgR n.cfg
  let mode := Mode.ofCode (n.cfg.extractLsb' 17 3)
  let out := n.all.map (releaseVal rf mode (n.cfg.getLsbD 16))
  (out.flatMap fun x => leBytes (relBytes rf) x.1, out.foldl (fun e x => e ||| x.2) 0)

/-- The release record (R256). -/
def Node.record (n : Node) (reason : Nat) (conv : Exc) : BitVec 128 :=
  (n.seq + 1) ++ BitVec.ofNat 32 n.k ++ BitVec.ofNat 32 reason ++ 0#24 ++ (if n.pois then 1#1 else 0#1) ++
    (if n.mism then 1#1 else 0#1) ++ 0#1 ++ ((n.exc ||| conv) &&& ~~~exDZ)

/-- The bank's answer to a write of a release or of a raise of the array (R141, R144, R146): a refusal of the fill that it
needs is kept, and stays the answer for that line. -/
def State.relBank (s : State) (o : EngOp) (q off n : Nat) : Asked Unit :=
  match s.bankWrite q off n false false (s.heldRange q off n) with
  | .fill l _ =>
    match o.lost.find? fun x => x.1 == l with
    | some x => .fail x.2 s
    | none =>
      let lose (s : State) (st : Nat) : Asked Unit :=
        .wait (s.modOp o.id fun o => { o with lost := o.lost ++ [(l, st)], status := 0 })
      if o.status > 1 then lose s o.status
      else
        match s.opFill o q off n with
        | .fail st s => lose s st
        | .ok _ s | .wait s => .wait s
  | _ => s.opBank { o with refsAt := [] } q off n

/-- Which parts of a release may be written (R141, R142, R144, R146): those that may not be give their status, the first
counting. -/
def State.releaseParts (s : State) (o : EngOp) (q off : Nat) (parts : List (Nat × Nat)) : Asked (List (Nat × Nat) × Nat) :=
  parts.foldl (fun (a : Asked (List (Nat × Nat) × Nat)) p => a.andThen fun r s =>
    match s.relBank o q (off + p.1) p.2 with
    | .ok _ s => .ok (r.1 ++ [p], r.2) s
    | .wait s => .wait s
    | .fail st s => .ok (r.1, if r.2 = 0 then st else r.2) s) (.ok ([], 0) s)

/-- One part of a release: λ 0, the release format as tag, poison with the tile (R71, R254, R256). -/
def State.releaseWrite (s : State) (q off : Nat) (bs : List Byte) (rfmt : Nat) (poison : Bool) (p : Nat × Nat) : State :=
  let part := (bs.drop p.1).take p.2
  let tag := BitVec.ofNat 4 rfmt
  if p.2 = 128 then s.vstoreLine q (off + p.1) part 0 tag poison
  else
    let s := s.vstore q (off + p.1) part poison
    let l := s.vmeta (vline q (off + p.1))
    s.setVmeta { l with lam := 0, tag := tag }

/-- Tile and record of one half (R256): written unless NONE is 1; the status for RCO. -/
def State.releaseHalf (s : State) (o : EngOp) (n : Node) (reason : Nat) : Asked Nat :=
  if tgtNone n.tgt then .ok 0 s
  else
    let t := n.tile
    let len := t.1.length
    let at' := tgtTile n.tgt
    let parts := cutAt 128 at' 0 len 130
    (s.releaseParts o n.quay at' parts).andThen fun r s =>
      (s.releaseParts o n.quay (at' + len) (cutAt 128 (at' + len) 0 16 2)).andThen fun r' s =>
        let s := r.1.foldl (fun s p => s.releaseWrite n.quay at' t.1 (cfgR n.cfg) n.pois p) s
        let rec' := leBytes 16 (n.record reason t.2).toNat
        let s := r'.1.foldl (fun s p => s.releaseWrite n.quay (at' + len) rec' (cfgR n.cfg) false p) s
        .ok (if r.2 = 0 then r'.2 else r.2) (s.charge (meterQuay n.quay) o.ctx 8 (len + 16))

/-- The raise of an object in the leader's vault (R120, R121, R150); false where the raise is refused. -/
def State.raiseOwn (s : State) (o : EngOp) (off st : Nat) : Asked Bool :=
  if off = 0 then .ok true s
  else if off % 16 ≠ 0 ∨ off + 16 > vaultEnd then .ok false s
  else
    match s.relBank o o.quay off 16 with
    | .ok _ s => .ok true (s.vRaise o.quay off o.ctx st)
    | .wait s => .wait s
    | .fail _ s => .ok false s

/-- Mark the workgroup of an operation (R150). -/
def State.engFault (s : State) (o : EngOp) (bad : Bool) : State :=
  match o.group with
  | some g => if bad then s.modGroup g fun g => { g with efault := true } else s
  | none => s

/-- A node after its release (R256). -/
def Node.released (n : Node) : Node := { n.clear with seq := n.seq + 1 }

/-- Both halves are written, then RCO is raised once, then both nodes are cleared (R256).  A fill of a mapped line that is
refused marks the workgroup as well (DESIGN CHOICE, log entry 89). -/
def State.release (s : State) (o : EngOp) (n reason : Nat) : Asked State :=
  let lead := s.node o.quay n
  let foll := s.node (o.quay + 1) n
  (s.releaseHalf o lead reason).andThen fun st s =>
    (s.releaseHalf o foll reason).andThen fun st' s =>
      let status := if st = 0 then st' else st
      (s.raiseOwn o (tgtRco lead.tgt) status).andThen fun ok s =>
        let s := (s.setNode lead.released).setNode foll.released
        let s := s.engFault o (!ok || status != 0)
        .ok s s

/-- Whether every bank that a release writes is ready, with what was asked for on its behalf. -/
def State.releaseReady (s : State) (o : EngOp) (n : Nat) : Asked Unit :=
  let half := fun (s : State) (x : Node) =>
    if tgtNone x.tgt then Asked.ok ([], 0) s
    else s.releaseParts o x.quay (tgtTile x.tgt) (cutAt 128 (tgtTile x.tgt) 0 (4096 * relBytes (cfgR x.cfg) + 16) 132)
  (half s (s.node o.quay n)).andThen fun _ s =>
    (half s (s.node (o.quay + 1) n)).andThen fun _ s =>
      let co := tgtRco (s.node o.quay n).tgt
      if co = 0 ∨ co + 16 > vaultEnd then .ok () s
      else
        match s.relBank o o.quay co 16 with
        | .wait s => .wait s
        | .ok _ s | .fail _ s => .ok () s

/-- NODE_RELEASE (R255, R256): rank 2 of a marker: the release that is due. A release that waits for a bank changes
nothing yet. -/
def execNodeRelease (pair : Nat) (s : State) : Out :=
  .next <|
    let u := s.unit pair
    match u.tileDue, s.headOp u with
    | some (n, reason), some o =>
      if o.waiting then s
      else
        match s.releaseReady o n with
        | .ok _ s =>
          match s.release o n reason with
          | .ok t _ => (t.setUnit { u with tileDue := none }).modOp o.id fun o => { o with lost := [] }
          | .wait s | .fail _ s => s
        | .wait s | .fail _ s => s
    | _, _ => s

/-! ### The end of an operation (R250, R255) -/

/-- The words of an `mma.cfg` take effect in node n of both quays (R250). -/
def State.installNode (s : State) (o : EngOp) : State :=
  let put := fun (s : State) (q : Nat) => s.setNode { quay := q, n := o.nodeNo, cfg := o.a, tgt := o.co }
  put (put s o.quay) (o.quay + 1)

/-- END_OF_OPERATION (R244, R250, R255): rank 3 of a marker, after every release: OPCO is raised, the table entry and the
follower are freed; an `mma.cfg` installs its words. -/
def execEndOfOperation (pair : Nat) (s : State) : Out :=
  .next <|
    let u := s.unit pair
    if u.busy = false ∨ u.endDue = false ∨ u.tileDue.isSome = true then s
    else
      match s.headOp u with
      | none => s
      | some o =>
        let done (s : State) (st : Nat) (bad : Bool) : State :=
          (s.setUnit { pair := pair, queue := u.queue.drop 1 }).joinOp o st bad
        match o.kind with
        | .mma =>
          match s.raiseOwn o (if o.parent.isSome then 0 else mmaOpco u.desc) u.status with
          | .ok ok s => done s u.status (!ok)
          | .wait s | .fail _ s => s
        | .mmaCfg => done (if u.status = 0 then s.installNode o else s) u.status false
        | _ => done s u.status false

/-! ### The sequencer (R129, R291, R292) -/

/-- BG of a sequence descriptor (R291). -/
def seqBg (x : BitVec 512) : Nat := (x.extractLsb' 448 64).toNat
/-- BGSTR of a sequence descriptor. -/
def seqStride (x : BitVec 512) : Nat := (x.extractLsb' 416 32).toNat
/-- KC of a sequence descriptor. -/
def seqKc (x : BitVec 512) : Nat := (x.extractLsb' 400 16).toNat
/-- SCR0 or SCR1 of a sequence descriptor. -/
def seqScr (x : BitVec 512) (k : Nat) : Nat := (x.extractLsb' (352 + 24 * k) 24).toNat
/-- VG of a sequence descriptor (R292). -/
def seqVg (x : BitVec 512) : Nat := (x.extractLsb' 288 64).toNat
/-- PCO of a sequence descriptor (R292). -/
def seqPco (x : BitVec 512) : Nat := (x.extractLsb' 256 32).toNat
/-- MD of a sequence descriptor. -/
def seqMd (x : BitVec 512) : BitVec 256 := x.extractLsb' 0 256

/-- Steps of a sequence in flight (R129). -/
def State.stepsOf (s : State) (id : Nat) (mmas : Bool) : Nat :=
  s.ops.countP fun o => o.parent == some id && (o.kind == .mma) == mmas

/-- Issue a step (R129): it takes an entry of the leader's table; none where there is no room. -/
def State.seqIssue (s : State) (o x : EngOp) : Option State :=
  let y : EngOp := { x with quay := o.quay, ctx := o.ctx, group := o.group, slot := o.slot, scope := o.scope, parent := some o.id }
  if s.stepsOf o.id true + s.stepsOf o.id false ≥ 16 then none
  else if s.roomNow o.quay 1 (s.scoredDests y.quay y.ctx y.kind y.desc) = false then none
  else
    let (id, s) := s.fresh
    some (s.issueOp { y with id := id })

/-- One column's copy: `n` bytes from a global address into the leader's vault (R291); a range past the vault names no vault
address, so that its copy ends with status 8 (R135). -/
def seqCopy (o : EngOp) (src dst n : Nat) : EngOp :=
  let v := if dst + n ≤ vaultEnd then o.quay % 32 * 2 ^ 24 + dst else 2 ^ 29
  let d : BitVec 256 := BitVec.ofNat 64 src ++ BitVec.ofNat 64 v ++ BitVec.ofNat 32 n ++ 0#96
  { kind := .cpG2v, desc := d }

/-- An `mma` of a sequence (R291): MD with its bases, strides and K replaced. -/
def seqMma (node al af astride b bstride nrows k idx : Nat) (rows : List Byte) : EngOp :=
  let d : BitVec 256 := 0#32 ++ BitVec.ofNat 32 idx ++ BitVec.ofNat 32 b ++ 0#16 ++ BitVec.ofNat 16 astride ++
    BitVec.ofNat 32 af ++ BitVec.ofNat 32 al ++ BitVec.ofNat 16 nrows ++ 0#28 ++ BitVec.ofNat 20 k
  { kind := .mma, desc := d, ext := BitVec.ofNat 512 bstride, co := BitVec.ofNat 64 node, data := rows }

/-- The sequence stops with a status (R129). -/
def State.seqEnd (s : State) (o : EngOp) (st : Nat) : State := (s.modOp o.id fun o => { o with phase := 0 }).endOp o.id st

/-- Sizes of the operands of a node, and its group. -/
def State.seqSizes (s : State) (o : EngOp) (n : Nat) : Nat × Nat × Nat :=
  let cfg := (s.node o.quay n).cfg
  (codeBytes (cfgA cfg), codeBytes (cfgB cfg), groupSize (cfgA cfg) (cfgB cfg))

/-- Whether a sequence descriptor keeps to R291 and R292. -/
def State.seqOk (s : State) (o : EngOp) (n : Nat) : Bool :=
  let x := o.ext
  let g := (s.seqSizes o n).2.2
  let kc := seqKc x
  let md := seqMd x
  let form := o.kind == .seqGemm || mmaK md % 64 == 0
  form && seqStride x % 16 == 0 && kc % max 1 g == 0 && decide (g ≤ kc) && md.extractLsb' 20 28 == 0 && decide (0 < mmaK md)

/-- `seq.gemm` at work (R291): phase 0 begins a chunk, 1 to 64 issue its copies, 65 waits for them and issues its `mma`. -/
def State.gemmStep (s : State) (o : EngOp) : State :=
  let x := o.ext
  let n := dAux o.desc % 4
  let z := s.seqSizes o n
  let md := seqMd x
  let kc := seqKc x
  let k := o.next
  if s.seqOk o n = false then s.seqEnd o 8
  else if k ≥ mmaK md then (if s.stepsOf o.id true = 0 then s.seqEnd o 0 else s)
  else
    let c := k / kc
    let last := (c + 1) * kc
    let stop := min last (mmaK md)
    let buf := seqScr x (c % 2)
    let inner := (k - c * kc) * z.2.1
    if o.phase = 0 then (if s.stepsOf o.id true ≤ 1 then s.modOp o.id fun o => { o with phase := 1 } else s)
    else if o.phase ≤ 64 then
      let j := o.phase - 1
      match s.seqIssue o (seqCopy o (seqBg x + j * seqStride x + k * z.2.1) (buf + j * kc * z.2.1 + inner) ((last - k) * z.2.1)) with
      | some s => s.modOp o.id fun o => { o with phase := o.phase + 1 }
      | none => s
    else if s.stepsOf o.id false ≠ 0 then s
    else
      let m := seqMma n (mmaABase md 0 + k * z.1) (mmaABase md 1 + k * z.1) (mmaAStride md) (buf + inner) (kc * z.2.1)
        (mmaRows md) (stop - k) (mmaIdx md) []
      match s.seqIssue o m with
      | some s => s.modOp o.id fun o => { o with phase := 0, next := stop }
      | none => s

/-- Phase of PCO (R120, R292). -/
def State.pcoPhase (s : State) (o : EngOp) : Nat := if (s.vread o.quay (seqPco o.ext) 16).headD 0 |>.getLsbD 0 then 1 else 0

/-- `seq.attn` at work (R292): phase 0 begins a tile, 1 to 64 copy its keys, 65 issues the query rows into node s, 66 waits
for a phase of PCO, 67 to 98 copy the values two columns a step, 99 issues the weights into node o. -/
def State.attnStep (s : State) (o : EngOp) : State :=
  let x := o.ext
  let ns := dAux o.desc % 4
  let no := dAux o.desc / 4 % 4
  let z := s.seqSizes o ns
  let zo := s.seqSizes o no
  let md := seqMd x
  let kc := seqKc x
  let tile := o.next
  let buf := seqScr x 0
  let copy (s : State) (base stride col len : Nat) : Option State :=
    s.seqIssue o (seqCopy o (base + (64 * tile + col) * seqStride x) (buf + col * stride) len)
  if s.seqOk o ns = false ∨ seqPco x % 16 ≠ 0 ∨ seqPco x + 16 > vaultEnd then s.seqEnd o 8
  else if 64 * tile ≥ mmaK md then (if s.stepsOf o.id true = 0 then s.seqEnd o 0 else s)
  else if o.phase = 0 then
    if s.stepsOf o.id true = 0 then s.modOp o.id fun o => { o with phase := 1, report := s.pcoPhase o } else s
  else if o.phase ≤ 64 then
    match copy s (seqBg x) (kc * z.2.1) (o.phase - 1) (kc * z.2.1) with
    | some s => s.modOp o.id fun o => { o with phase := o.phase + 1 }
    | none => s
  else if o.phase = 65 then
    if s.stepsOf o.id false ≠ 0 then s
    else
      match s.seqIssue o (seqMma ns (mmaABase md 0) (mmaABase md 1) (mmaAStride md) buf (kc * z.2.1) (mmaRows md) kc (mmaIdx md) []) with
      | some s => s.modOp o.id fun o => { o with phase := 66 }
      | none => s
  else if o.phase = 66 then
    if s.stepsOf o.id true ≠ 0 ∨ s.pcoPhase o = o.report then s else s.modOp o.id fun o => { o with phase := 67 }
  else if o.phase ≤ 98 then
    let col := 2 * (o.phase - 67)
    if s.stepsOf o.id false + 2 > 16 then s
    else
      match (copy s (seqVg x) (64 * zo.2.1) col (64 * zo.2.1)).bind fun s => copy s (seqVg x) (64 * zo.2.1) (col + 1) (64 * zo.2.1) with
      | some s => s.modOp o.id fun o => { o with phase := o.phase + 1 }
      | none => s
  else if s.stepsOf o.id false ≠ 0 then s
  else
    let rows := (List.range 128).map fun i => (BitVec.ofNat 8 (i % 64) : Byte)
    let a := fun (q : Nat) => q % 32 * 2 ^ 24 + seqScr x 1
    match s.seqIssue o (seqMma no (a o.quay) (a (o.quay + 1)) 128 buf (64 * zo.2.1) 64 64 0 rows) with
    | some s => s.modOp o.id fun o => { o with phase := 0, next := tile + 1 }
    | none => s

/-- An operation waits for the answer to a page request, or for room to make one, which a stop does not wait for. -/
def State.pageWait (s : State) (o : EngOp) : Bool :=
  o.waiting && (s.pgreqs.any (fun r => r.who.any fun y => y.1 == .op o.id) || decide ((s.pgreqs.countP fun r => r.quay == o.quay) ≥ 64))

/-- A step that no turn of its own brings further for now: it waits for a page, or stands behind another operation. -/
def State.stepStuck (s : State) (o : EngOp) : Bool :=
  let u := s.unit (pairOf o.quay)
  s.pageWait o || o.kind == .mma && !(u.busy && u.queue.head? == some o.id)

/-- Whether an operation stands at its stop (R129, R378): a chunk at another module is complete; `seq.gemm` has no step but
its `mma`s, whose markers are carried out; `seq.attn` stands between tiles, or waits for a phase of PCO, or its steps wait
for pages (log entry 73). -/
def State.opAtStop (s : State) (o : EngOp) : Bool :=
  let u := s.unit (pairOf o.quay)
  let steps := s.ops.filter fun x => x.parent == some o.id
  match o.kind with
  | .seqGemm =>
    steps.all fun x => s.pageWait x ||
      x.kind == .mma && !(u.queue.head? == some x.id && (u.tileDue.isSome || u.endDue))
  | .seqAttn => if steps.isEmpty then o.phase == 0 || o.phase == 66 && s.pcoPhase o == o.report else steps.all s.stepStuck
  | _ => s.pageWait o || o.parent.isSome || !s.opFar o.id

/-- Whether an operation is a sequence. -/
def EngOp.isSequence (o : EngOp) : Bool := o.kind == .seqGemm || o.kind == .seqAttn

/-- What a stop leaves of a `seq.gemm` (R122, R129, R291): its steps join with the status they have, and its progress is the
first K index not yet added. -/
def State.cutGemm (s : State) (o : EngOp) : State :=
  let steps := s.ops.filter fun x => x.parent == some o.id
  let mine := fun (id : Nat) => steps.any fun x => x.id == id
  let u := s.unit (pairOf o.quay)
  let added := if u.running && u.queue.head?.any mine then u.kpos else 0
  let left := ((steps.filter fun x => x.kind == .mma).map fun x => mmaK x.desc).foldl (· + ·) 0
  let queue := u.queue.filter fun id => !mine id
  let s := if u.queue.any mine then s.setUnit (if u.queue.head?.any mine then { pair := u.pair, queue := queue } else { u with queue := queue })
           else s
  let s : State := { s with ops := s.ops.filter fun x => !mine x.id, scores := s.scores.filter fun e => !mine e.op }
  let read := (u.busy && u.queue.head?.any mine && u.status == 1) || steps.any fun x => x.status == 1
  s.modOp o.id fun o => { o with phase := 0, next := o.next - left + added, status := if read && o.status == 0 then 1 else o.status }

/-- SEQ_STEP (R129, R291, R292): the sequencer advances by one step; a step that failed ends the sequence once the steps in
flight have joined. -/
def execSeqStep (op : Nat) (s : State) : Out :=
  .next <|
    match s.op? op with
    | none => s
    | some o =>
      if s.opRuns o = false then s
      else if o.status > 1 then
        (if s.stepsOf op true + s.stepsOf op false = 0 then s.seqEnd o 0 else s)
      else
        match o.kind with
        | .seqGemm => s.gemmStep o
        | .seqAttn => s.attnStep o
        | _ => s

end Sys2Proof.Machine
end

