-- ==== Sys2Proof/Machine/Preempt.lean ====
section
/-! DEFINITION. Pre-emption, save areas, saves and restores, the hand-over of a vault, the lamplighter token, and errors
of bollards (R151, R371 to R393, R442). -/

namespace Sys2Proof.Machine

/-! ### Bollards (R18, R216, R375, R505) -/

/-- Kind of a placed bollard: 44, 8, 4, 4 and 4 of the kinds in the order of R18 (log entry 64). -/
def bollardKind (k : Nat) : BollardKind :=
  if k < 44 then .arithmetic else if k < 52 then .memoryPort else if k < 56 then .converter
  else if k < 60 then .special else .accumulator

/-- Kind of bollard that a form is placed on (R18, R505); `fan` and `null` go on any (R216, R218). -/
def Instr.onBollard (i : Instr) (k : BollardKind) : Bool :=
  match i with
  | .fan _ | .null _ => true
  | .gredAdd _ _ | .gredMin _ _ | .gredMax _ _ => k == .accumulator
  | i =>
    match Instr.energyClass i with
    | 4 => k == .memoryPort
    | 2 => k == .converter
    | 3 => k == .special
    | _ => k == .arithmetic

/-- The placed bollard of an instruction of the block at a base address: one of those of its kind, as the placer chose. -/
def placedAt (base : Nat) (x : WordInfo) : Nat :=
  let ks := (List.range 64).filter fun k => Instr.onBollard x.instr (bollardKind k)
  ks.getD (Config.placement base x.idx % max 1 ks.length) 0

/-- The placed bollard whose operators a bollard of a quay holds: a spare those that were moved onto it (R18, R375). -/
def State.bollardAt (s : State) (quay k : Nat) : Option Nat :=
  if k < 64 then some k else (s.bollards.find? fun b => b.quay == quay && b.spare == some k).map (·.n)

/-- The bollard that holds the operators of a placed one: itself, or the spare they were moved onto (R375). -/
def State.bollardFor (s : State) (quay n : Nat) : Nat :=
  ((s.bollards.find? fun b => b.quay == quay && b.n == n).bind (·.spare)).getD n

/-- Whether a block has an operator on a placed bollard. -/
def Block.onBollard (b : Block) (base k : Nat) : Bool := b.infos.any fun x => placedAt base x == k

/-! ### The save area (R381, R383, R384) -/

/-- Offset of section `j` (R384). -/
def sectOff (j : Nat) : Nat := 0x1000 + 0x1100000 * j

/-- Bytes of a context's save area (R406). -/
def Ctx.areaLen (c : Ctx) : Nat := if c.maxq = 0 then 0 else 4096 + 17825792 * c.maxq

/-- The context whose save area holds an address (R438). -/
def State.areaCtx (s : State) (pa : Nat) : Nat :=
  ((s.ctxs.find? fun c => decide (c.save ≤ pa) && decide (pa < c.save + c.areaLen)).map (·.num)).getD 0

/-- Where the traffic of an address of a save area comes from (R435): the quay of its section, the controller for a header. -/
def State.areaPlace (s : State) (pa : Nat) : Nat :=
  match s.ctxs.find? fun c => decide (c.save + 4096 ≤ pa) && decide (pa < c.save + c.areaLen) with
  | some c => (c.qtab.getD ((pa - c.save - 4096) / 17825792) none).getD (agentPlace 2)
  | none => agentPlace 2

/-- The writes of save areas that are due are performed through the homes (R299, R309, R381), those of a line in order: each
once every token of its line is at home, none held there, and its page is in STATE 00 (log entry 94). -/
def State.areaTurn (s : State) : State :=
  s.areaDue.foldl (fun s x =>
    let line := x.1 / 128
    let later (s : State) : State := { s with areaDue := s.areaDue ++ [x] }
    if s.areaDue.any (fun y => y.1 / 128 == line) || (s.frzOf (x.1 / 65536)).st != .normal || s.heldRemotely line then later s
    else
      let r := (s.payBy (s.areaCtx x.1)).wantAll line
      if r.1 then (r.2.chargeAt (s.areaPlace x.1) line (s.areaCtx x.1)).gwrite x.1 x.2 false else later r.2) ({ s with areaDue := [] } : State)

/-- Write bytes of a save area by physical address (R381). -/
def State.areaWrite (s : State) (pa : Nat) (bs : List Byte) : State :=
  ({ s with areaDue := s.areaDue ++
      (cutAt 128 pa 0 bs.length (bs.length + 1)).map fun p => (pa + p.1, (bs.drop p.1).take p.2) } : State).areaTurn

/-- Bytes of a save area as the writes ordered so far leave them. -/
def State.areaRead (s : State) (pa n : Nat) : List Byte :=
  if s.areaDue.isEmpty then s.gbytes pa n
  else (s.gbytes pa n).zipIdx.map fun b =>
    s.areaDue.foldl (fun v x => if x.1 ≤ pa + b.2 ∧ pa + b.2 < x.1 + x.2.length then x.2.getD (pa + b.2 - x.1) 0 else v) b.1

/-- Writes of a context's save area are still due. -/
def State.areaPending (s : State) (c : Ctx) : Bool :=
  s.areaDue.any fun x => decide (c.save ≤ x.1) && decide (x.1 < c.save + c.areaLen)

/-- Gather the owner tokens of a range that is read by physical address (R83): whether all are at home, and none held. -/
def State.areaOwned (s : State) (pa n : Nat) : Bool × State :=
  let inside := fun (l : Nat) => decide (pa / 128 ≤ l) && decide (l ≤ (pa + n - 1) / 128)
  ((s.dir.filter fun e => inside e.line).map (·.line)).foldl (fun r l => let x := r.2.wantOwner l; (r.1 && x.1, x.2))
    (!s.remoteHolds.any (fun h => inside h.line), s.payBy (s.areaCtx pa))

/-- The poisoned lines of a range of memory. -/
def State.areaPoison (s : State) (pa n : Nat) : List Nat :=
  s.poisoned.filter fun l => decide (pa / 128 ≤ l) && decide (l ≤ (pa + n - 1) / 128)

/-- SECT of a context's header: bit `j` where section `j` holds state (R384). -/
def State.sectBits (s : State) (c : Ctx) : Nat := if c.maxq = 0 then 0 else leNat (s.areaRead (c.save + 0x10) 32)

/-- Whether section `j` of a context holds state. -/
def State.holdsSect (s : State) (c : Ctx) (j : Nat) : Bool := (s.sectBits c).testBit j

/-- Write fields of a context's header. -/
def State.header (s : State) (c : Ctx) (off : Nat) (bs : List Byte) : State :=
  if c.maxq = 0 then s else s.areaWrite (c.save + off) bs

/-- Bytes of QTAB (R383, R384). -/
def Ctx.qtabBytes (c : Ctx) : List Byte :=
  (List.range 256).map fun j => match c.qtab.getD j none with | some q => BitVec.ofNat 8 q | none => 0xFF

/-- Set or clear a bit of SECT, and copy the quay table (R383, R384). -/
def State.markSect (s : State) (c j : Nat) (on : Bool) : State :=
  let x := s.ctx c
  let v := s.sectBits x
  let v' := if on then v ||| 2 ^ j else if v.testBit j then v - 2 ^ j else v
  (s.header x 0x10 (leBytes 32 v')).header x 0x100 x.qtabBytes

/-- Slot of a context's quay table that names a quay (R383). -/
def Ctx.slotOf (c : Ctx) (q : Nat) : Option Nat := c.qtab.findIdx? (· == some q)

/-- Slots whose quay is no longer assigned to the context and whose section holds no state become empty (R383). -/
def State.freeSlotsOf (s : State) (c : Nat) : State :=
  let x := s.ctx c
  let keep := fun (y : Option Nat × Nat) =>
    match y.1 with
    | some q => if s.assignee q == c || s.holdsSect x y.2 then some q else none
    | none => none
  s.setCtx { x with qtab := x.qtab.zipIdx.map keep }

/-! ### What a section holds (R385 to R388) -/

/-- Code of a slot state (R388). -/
def SlotSt.code : SlotSt → Nat
  | .free => 0 | .waiting => 1 | .active => 2 | .blocked => 3 | .idle => 4

/-- Slot state of a code. -/
def SlotSt.ofCode : Nat → SlotSt
  | 1 => .waiting | 2 => .active | 3 => .blocked | 4 => .idle | _ => .free

/-- Word at +0x18 of a slot record (R388). -/
def Thread.stateWord (t : Thread) : Nat :=
  t.st.code + (if t.drift then 8 else 0) + t.stamp.toNat * 2 ^ 4 + t.csd % 16 * 2 ^ 20 + (if t.ih then 2 ^ 24 else 0) +
    t.hctx % 2 ^ 16 * 2 ^ 25

/-- The 256-byte head and the registers of a slot record (R388). -/
def Thread.slotRecord (t : Thread) : List Byte :=
  let sub := fun (k : Nat) =>
    match t.subs[k]? with
    | some x => leBytes 8 x.1.toNat ++ leBytes 8 x.2.toNat
    | none => leBytes 16 0
  let bars := t.bars.zipIdx.foldl (fun n b => n + b.1.toNat * 4 ^ b.2) 0
  leBytes 8 t.nba.toNat ++ leBytes 8 t.p.toNat ++ leBytes 8 t.fpctl.toNat ++ leBytes 8 t.stateWord ++
    t.stack.flatMap (fun x => leBytes 8 x.toNat) ++ leBytes 64 t.traprec.toNat ++ (List.range 4).flatMap sub ++ leBytes 32 bars ++
    (t.x.take t.budget).flatMap fun x => leBytes 8 x.toNat

/-- Read a slot record back over what the section keeps of the thread beside it (R390). -/
def Thread.fromRecord (t : Thread) (bs : List Byte) (d : Nat) : Thread :=
  let rd := fun (o n : Nat) => leNat ((bs.drop o).take n)
  let w := rd 0x18 8
  let n := if t.subs.isEmpty then rd 0x60 64 / 2 ^ 37 % 8 else t.subs.length
  let b := rd 0xE0 4
  { t with nba := BitVec.ofNat 64 (rd 0 8), p := BitVec.ofNat 48 (rd 8 8), fpctl := BitVec.ofNat 64 (rd 0x10 8),
           st := SlotSt.ofCode (w % 8), drift := w.testBit 3, stamp := BitVec.ofNat 16 (bitsOf w 4 16 + d),
           csd := bitsOf w 20 4, ih := w.testBit 24, hctx := bitsOf w 25 16 % 4096,
           stack := (List.range 8).map (fun k => BitVec.ofNat 64 (rd (0x20 + 8 * k) 8)),
           traprec := BitVec.ofNat 512 (rd 0x60 64),
           subs := (List.range (min n 4)).map (fun k => (BitVec.ofNat 7 (rd (0xA0 + 16 * k) 8), BitVec.ofNat 64 (rd (0xA8 + 16 * k) 8))),
           bars := (List.range 16).map (fun k => BitVec.ofNat 2 (b / 4 ^ k)),
           x := (List.range 64).map fun k => if k < t.budget then BitVec.ofNat 64 (rd (256 + 8 * k) 8) else 0 }

/-- Read an entry back over what the section keeps beside it (R390): its block is to be pinned again. -/
def WvEntry.fromBytes (e : WvEntry) (bs : List Byte) : WvEntry :=
  let v := leNat bs
  { e with ba := BitVec.ofNat 64 (v / 2 ^ 4160), lpl := bitsOf v 4129 2, closed := v.testBit 4127, fctx := bitsOf v 4115 12,
           lplv := v.testBit 4114, vec := (List.range 4096).filter v.testBit, pinned := false, bytes := [],
           arrived := if e.pinned then e.vec else e.arrived }

/-- A waiting-vector entry in the layout of R357. -/
def State.entryBytes (s : State) (e : WvEntry) : List Byte :=
  let old := e.vec.foldl (fun (m : Nat × Nat) sl =>
    let t := s.thread e.quay sl
    if m.1 ≤ s.ageOf t then (s.ageOf t, t.stamp.toNat) else m) (0, 0)
  let vec := e.vec.foldl (fun n sl => n ||| 2 ^ sl) 0
  leBytes 528 (e.ba.toNat * 2 ^ 4160 + e.vec.length * 2 ^ 4147 + old.2 * 2 ^ 4131 + e.lpl * 2 ^ 4129 + 2 ^ 4128 +
    (if e.closed then 2 ^ 4127 else 0) + e.fctx * 2 ^ 4115 + (if e.lplv then 2 ^ 4114 else 0) + vec)

/-- Code of a run state (R387). -/
def PlaneSt.code : PlaneSt → Nat
  | .free => 0 | .admitting => 1 | .draining => 2 | .aged => 3

/-- A run state of a code. -/
def PlaneSt.ofCode : Nat → PlaneSt
  | 1 => .admitting | 2 => .draining | 3 => .aged | _ => .free

/-- Free bytes of a section: a layout or value the manual leaves open. -/
def freeBytes (stamp off n : Nat) : List Byte := (List.range n).map fun k => Config.savedByte stamp (off + k)

/-- Whether an access of a waiter is under way anywhere. -/
def State.underWay (s : State) (y : Waiter) : Bool :=
  s.someWait (· == y) || s.reqs.any (fun r => r.who.contains y) || s.fills.any (fun f => f.who.contains y) ||
    s.remotes.any (fun r => r.who == y) || s.holdWaits.any fun h => h.1 == y

/-- The lowest LSID of the loads of a pass that have not returned their data, and are withdrawn (R377, R387). -/
def State.withdrawnLsid (s : State) (p : Pass) : Option Nat :=
  (p.block.infos.filterMap fun w =>
    if w.form.kind == .load && s.underWay (.thread p.quay p.slot p.blk w.idx) then some (Fields.lsid w.w) else none).min?

/-- A tag table entry (R387): where no load is withdrawn bits 26:22 are free. -/
def State.tagWord (s : State) (p : Plane) (stamp : Nat) (x : Nat × Nat) : Nat :=
  let ps := tget (fun (y : Pass) => y.quay == p.quay && y.plane == p.plane && y.tag == x.1) {} s.passes
  let idx := match ps.trap with | some n => n.idx | none => 0
  let l := (s.withdrawnLsid ps).getD (Config.savedByte stamp (2 ^ 32 + p.plane * 256 + x.1)).toNat
  x.2 + (if ps.notReady then 2 ^ 12 else 0) + (if ps.poison then 2 ^ 13 else 0) + (if ps.trap.isSome then 2 ^ 14 else 0) +
    idx % 128 * 2 ^ 15 + l % 32 * 2 ^ 22

/-- The tokens that wait in the port buffers of a quay's passes, in the order of their records (R387): each with its place
12 · bollard + 3 · operator + port, the operator being the plane's, and its tag. -/
def State.waitingTokens (s : State) (ps : List Pass) : List (Nat × Nat × PortCell) :=
  (ps.flatMap fun p => p.block.infos.flatMap fun w =>
    (p.ports.filter fun c => c.idx == w.idx && c.val.isSome && !p.done.contains c.idx).map fun c =>
      (12 * s.bollardFor p.quay (placedAt p.blk.toNat w) + 3 * p.plane + (match c.port with | .a => 0 | .b => 1 | .g => 2), p.tag, c)).mergeSort
    fun a b => decide (a.1 ≤ b.1)

/-- A token record (R387): `pos` is its position in its buffer. -/
def tokenRecord (x : Nat × Nat × PortCell) (pos : Nat) : List Byte :=
  let t := x.2.2.val.getD {}
  let b := fun (v : Bool) (k : Nat) => if v then 2 ^ k else 0
  leBytes 16 (t.data.toNat + x.2.1 % 256 * 2 ^ 64 + b t.null 72 + b t.notReady 73 + b t.poison 74 + x.1 / 12 * 2 ^ 75 +
    x.1 % 12 / 3 * 2 ^ 82 + x.1 % 3 * 2 ^ 84 + pos % 4 * 2 ^ 86)

/-- The token records of a section (R387). -/
def tokenRecords (ts : List (Nat × Nat × PortCell)) : List Byte :=
  ts.zipIdx.flatMap fun x => tokenRecord x.1 ((ts.take x.2).countP fun y => y.1 == x.1.1)

/-- A token's record read back (R390). -/
def Tok.ofRecord (bs : List Byte) : Tok :=
  let v := leNat bs
  { data := BitVec.ofNat 64 v, null := v.testBit 72, notReady := v.testBit 73, poison := v.testBit 74 }

/-- Put a token that was read back into its port. -/
def Pass.withToken (p : Pass) (x : Nat × Nat × PortCell) (t : Tok) : Pass :=
  if p.plane == x.1 % 12 / 3 && p.tag == x.2.1 then
    { p with ports := tmod (fun c => c.idx == x.2.2.idx && c.port == x.2.2.port) (fun c => { c with val := some t }) p.ports }
  else p

/-- A plane record's parts (R387), by offset in it: 4 KiB (R390), of which what holds nothing is free. -/
def State.planeBytes (s : State) (p : Plane) (stamp : Nat) : List (Nat × List Byte) :=
  let used := p.tags.foldl (fun n x => n ||| 2 ^ x.1) 0
  let w := p.st.code + p.entry * 2 ^ 8 + p.fctx * 2 ^ 16
  let free := freeBytes stamp (0x17000 + 4096 * p.plane)
  let entry := fun (k : Nat) =>
    match p.tags.find? fun x => x.1 == k with
    | some x => leBytes 4 (s.tagWord p stamp x)
    | none => freeBytes stamp (0x17400 + 4096 * p.plane + 4 * k) 4
  [(0, leBytes 8 p.ba.toNat ++ leBytes 8 w ++ leBytes 32 (2 ^ 256 - 1 - used)), (0x30, (free 0x400).drop 0x30),
   (0x400, (List.range 256).flatMap entry), (0x800, (free 0x1000).drop 0x800)]

/-- Read a plane record back over what the section keeps beside it (R390): its block is to be refetched and configured. -/
def Plane.fromRecord (p : Plane) (bs : List Byte) : Plane :=
  let w := leNat ((bs.drop 8).take 8)
  let used := fun (t : Nat) => !(leNat ((bs.drop 0x10).take 32)).testBit t
  { p with ba := BitVec.ofNat 64 (leNat (bs.take 8)), st := PlaneSt.ofCode (w % 4), entry := bitsOf w 8 6, fctx := bitsOf w 16 12,
           configured := false, block := {},
           tags := (p.tags.filter fun x => used x.1).map fun x => (x.1, leNat ((bs.drop (0x400 + 4 * x.1)).take 4) % 4096) }

/-- Number of a group's barrier set: its lowest slot (log entry 10). -/
def Group.barSet (g : Group) : Nat := g.slots.foldl min 4095

/-- A barrier set: 16 barriers of 8 bytes (R385). -/
def Group.barBytes (g : Group) : List Byte :=
  (List.range 16).flatMap fun b =>
    let x := tget (fun (y : Barrier) => y.b == b) {} g.bars
    leBytes 4 x.count ++ leBytes 4 x.phase.toNat

/-- A barrier set read back (R390). -/
def barsOf (bs : List Byte) : List Barrier :=
  (List.range 16).map fun b =>
    { b := b, count := leNat ((bs.drop (8 * b)).take 4), phase := BitVec.ofNat 32 (leNat ((bs.drop (8 * b + 4)).take 4)) }

/-- A changed row of a node (R385, R386). -/
def Node.rowBytes (n : Node) (row : Nat) : List Byte :=
  (List.range 64).flatMap fun k => leBytes 4 (n.sums.getD (row * 64 + k) 0).toNat

/-- Changed rows of a node (R386): a group is added to every row at once, so all 64 or none. -/
def Node.changed (n : Node) : List Nat := if n.k = 0 then [] else List.range 64

/-- Store entries of a section (R386). -/
def Section.storeCount (x : Section) : Nat := (x.passes.map fun p => p.stores.length).foldl (· + ·) 0

/-- The section header (R386) without VPRES, and what follows it. -/
def Section.headBytes (x : Section) (drain : Bool) : List (Nat × List Byte) :=
  let bits := fun (l : List Nat) => l.foldl (fun n k => n ||| 2 ^ k) 0
  [(0, leBytes 8 (x.quay + if drain then 256 else 0) ++ leBytes 8 (bits (x.entries.map (·.e))) ++ leBytes 2 x.tokens.length ++
      leBytes 2 x.storeCount ++ leBytes 4 0 ++ leBytes 102 (bits (x.tokens.map (·.1)))),
   (0x7E, leBytes 2 0), (0x80, leBytes 32 (bits (x.nodes.flatMap fun n => n.changed.map fun r => 64 * n.n + r))),
   (0xA0, leBytes 512 (bits (x.threads.map (·.slot)))), (0x2A0, leBytes 512 (bits (x.groups.map Group.barSet))),
   (0x620, leBytes 0x9E0 0)]

/-- The parts of a section that a save writes, by offset (R385): those without a fixed layout hold free bytes. -/
def State.sectionFrags (s : State) (x : Section) (drain : Bool) (stamp : Nat) : List (Nat × List Byte) :=
  x.headBytes drain ++
    x.entries.map (fun e => (0x1000 + 528 * e.e, s.entryBytes e)) ++ [(0x9400, freeBytes stamp 0x9400 56320)] ++
    x.planes.flatMap (fun p => (s.planeBytes p stamp).map fun y => (0x17000 + 4096 * p.plane + y.1, y.2)) ++
    [(0x1B000, tokenRecords x.tokens), (0x27C00, freeBytes stamp 0x27C00 (32 * x.storeCount))] ++
    (List.range 112).map (fun k => (0x1090000 + 4096 * k, List.replicate 4096 0)) ++
    x.nodes.flatMap (fun n => n.changed.map fun r => (0x40000 + 16384 * n.n + 256 * r, n.rowBytes r)) ++
    x.groups.map (fun g => (0x50000 + 128 * g.barSet, g.barBytes)) ++
    x.threads.map fun t => (0xD0000 + 768 * t.slot, t.slotRecord)

/-- Metadata word of a vault line (R389). -/
def State.metaWord (s : State) (key : Nat) : Nat :=
  let l := s.vmeta key
  let pres := (List.range 32).foldl (fun n k => if s.presence.contains (key * 32 + k) then n + 2 ^ k else n) 0
  l.lam.toNat + l.tag.toNat * 2 ^ 8 + (if l.poison then 2 ^ 12 else 0) + (if l.v then 2 ^ 13 else 0) +
    (if l.d then 2 ^ 14 else 0) + pres * 2 ^ 32

/-- Written units of a quay's vault (R389). -/
def State.writtenUnits (s : State) (q : Nat) : List Nat := (s.vwritten.filter fun u => u / 2 ^ 12 == q).map (· % 2 ^ 12)

/-- The parts of a section that the vault's save writes (R389): written units, their metadata, and VPRES. -/
def State.vaultFrags (s : State) (q base : Nat) : List (Nat × List Byte) :=
  let us := s.writtenUnits q
  let vp := us.foldl (fun n u => n ||| 2 ^ u) (leNat (s.areaRead (base + 0x4A0) 384))
  [(0x4A0, leBytes 384 vp)] ++
    us.map (fun u => (0x3D0000 + 256 * u, (List.range 32).flatMap fun k => leBytes 8 (s.metaWord (vline q (4096 * u) + k)))) ++
    us.map fun u => (0x490000 + 4096 * u, s.vread q (4096 * u) 4096)

/-- What a restore reads of a section, by offset and length (R385, R386, R389): the header, the records that it and the plane
records mark, and the vault where it is to be loaded. -/
def State.sectionParts (s : State) (x : Section) (base : Nat) (vault : Bool) : List (Nat × Nat) :=
  let bits := fun (off n : Nat) => (List.range (8 * n)).filter (leNat (s.areaRead (base + off) n)).testBit
  let budget := fun (sl : Nat) => (tget (fun (t : Thread) => t.slot == sl) {} x.threads).budget
  [(0, 4096), (0x9400, 56320), (0x1B000, 16 * leNat (s.areaRead (base + 0x10) 2)),
    (0x27C00, 32 * leNat (s.areaRead (base + 0x12) 2))] ++
    (bits 8 8).map (fun e => (0x1000 + 528 * e, 528)) ++ x.planes.map (fun p => (0x17000 + 4096 * p.plane, 4096)) ++
    (bits 0x80 32).map (fun r => (0x40000 + 256 * r, 256)) ++ (bits 0x2A0 512).map (fun g => (0x50000 + 128 * g, 128)) ++
    (bits 0xA0 512).map (fun sl => (0xD0000 + 768 * sl, 256 + 8 * budget sl)) ++
    if vault then (bits 0x4A0 384).flatMap fun u => [(0x3D0000 + 256 * u, 256), (0x490000 + 4096 * u, 4096)] else []

/-- Cut ranges at 4 KiB chunks, in ascending order (R382). -/
def chunkedParts (ps : List (Nat × Nat)) : List (Nat × Nat) :=
  (ps.flatMap fun p => (cutAt 4096 p.1 p.1 p.2 (p.2 + 1))).mergeSort fun a b => decide (a.1 ≤ b.1)

/-- Bytes of a section that a restore has read. -/
def SaveOp.read (v : SaveOp) (off n : Nat) : List Byte :=
  (cutAt 4096 off off n (n + 1)).flatMap fun p =>
    match v.frags.find? fun f => decide (f.1 ≤ p.1) && decide (p.1 + p.2 ≤ f.1 + f.2.length) with
    | some f => (f.2.drop (p.1 - f.1)).take p.2
    | none => List.replicate p.2 0

/-- Cut parts at 4 KiB chunks, in ascending order (R382). -/
def chunked (fs : List (Nat × List Byte)) : List (Nat × List Byte) :=
  let le := fun (a b : Nat × List Byte) => decide (a.1 ≤ b.1)
  (fs.flatMap fun f => (cutAt 4096 f.1 0 f.2.length (f.2.length + 1)).map fun p => (f.1 + p.1, (f.2.drop p.1).take p.2)).mergeSort le

/-! ### Capture and installation (R377, R378, R390) -/

/-- Whether a quay holds anything to save. -/
def State.quayBusy (s : State) (q : Nat) : Bool :=
  (s.threads.any fun t => t.quay == q && t.st != .free) || (s.ops.any fun o => o.quay == q && !o.ended) ||
    (s.groups.any fun g => g.quay == q && !g.ended) || s.nodes.any fun n => n.quay == q

/-- Take a waiter's quay to another. -/
def Waiter.moved (a b : Nat) : Waiter → Waiter
  | .thread q sl blk i => .thread (if q = a then b else q) sl blk i
  | .fetch q e => .fetch (if q = a then b else q) e
  | .write q sl => .write (if q = a then b else q) sl
  | .object q sl => .object (if q = a then b else q) sl
  | .fill q l => .fill q l
  | .op n => .op n
  | .queue c n => .queue c n
  | .launch n => .launch n
  | .watch d => .watch d
  | .node f t => .node f t
  | .append n => .append n
  | .group n => .group n
  | .handler q sl => .handler (if q = a then b else q) sl
  | .tables c => .tables c
  | .dlog c p => .dlog c p

/-- Take a location of a vault to another quay. -/
def Loc.moved (a b : Nat) : Loc → Loc
  | .vault q o => .vault (if q = a then b else q) o
  | l => l

/-- A pass that is saved: its holds broken, its waiting accesses withdrawn (R377). -/
def Pass.saved (p : Pass) : Pass :=
  if p.shadows.isEmpty && p.remoteHeld.isEmpty then { p with stalled := false, waitLoc := none } else p.break

/-- What a pass has under way in memory ends with it (R272, R377). -/
def State.withdraw (s : State) (p : Pass) : State := (s.endRemote p).forget p

/-- Take everything a quay holds out of it, but for its vault, whose regions stay with it and are noted in the section as well
(R138, R377, R378): in drain mode no plane is kept; `since` is when the intake stopped. -/
def State.capture (s : State) (c j q : Nat) (drain : Bool) (since : Nat) : Section × State :=
  let s := (s.ops.filter fun o => o.quay == q && o.kind == .seqGemm && !o.finished).foldl State.cutGemm s
  let ofQ := fun (p : Pass) => p.live && p.quay == q
  let ofOp := fun (o : EngOp) => o.quay == q && !o.ended
  let ofGroup := fun (g : Group) => g.quay == q && !g.ended
  let mine := fun (w : Waiter) =>
    match w with
    | .thread a _ _ _ | .fetch a _ | .write a _ | .object a _ | .handler a _ => a == q
    | .op id => s.ops.any fun o => o.id == id && ofOp o
    | .group id => s.groups.any fun g => g.id == id && ofGroup g
    | .queue _ _ | .launch _ | .fill _ _ | .watch _ | .node _ _ | .append _ | .tables _ | .dlog _ _ => false
  let ps := s.passes.filter ofQ
  let s := (ps.foldl State.withdraw s).withdrawFar mine
  let rest := s.passes.filter fun p => !ofQ p
  let gone := fun (r : PgReq) => r.quay == q && !r.who.isEmpty && r.who.all fun y => mine y.1
  let x : Section :=
    { ctx := c, sect := j, quay := q, since := since, threads := s.threads.filter (fun t => t.quay == q && t.st != .free),
      passes := ps.map Pass.saved, entries := s.entries.filter (fun e => e.quay == q),
      planes := if drain then [] else s.planes.filter (fun p => p.quay == q && p.st != .free),
      groups := s.groups.filter ofGroup, tokens := s.waitingTokens ps,
      greds := s.greds.filter (fun g => g.quay == q), nodes := s.nodes.filter (fun n => n.quay == q),
      units := s.units.filter (fun u => u.pair == pairOf q && q % 2 == 0), ops := s.ops.filter ofOp,
      scores := s.scores.filter (fun e => s.ops.any fun o => o.id == e.op && ofOp o),
      regions := s.regions.filter (fun r => r.quay == q), frames := s.framePrio.filter (fun f => f.1 / 2 ^ 24 == q),
      waits := s.waits.filter (fun w => w.quay == q), reqs := s.pgreqs.filter gone,
      bollards := s.bollards.filter (fun b => b.quay == q) }
  let s : State :=
    { s with pass := rest.headD {}, parked := rest.drop 1, threads := s.threads.filter (fun t => t.quay != q),
             entries := s.entries.filter (fun e => e.quay != q), planes := s.planes.filter (fun p => p.quay != q),
             groups := s.groups.filter (fun g => !ofGroup g), greds := s.greds.filter (fun g => g.quay != q),
             nodes := s.nodes.filter (fun n => n.quay != q), ops := s.ops.filter (fun o => !ofOp o),
             units := s.units.filter (fun u => !(u.pair == pairOf q && q % 2 == 0)),
             scores := s.scores.filter (fun e => !(x.scores.contains e)), waits := s.waits.filter (fun w => w.quay != q),
             pgreqs := s.pgreqs.filter (fun r => !gone r), latch := s.latch.filter (fun l => l.quay != q),
             answers := s.answers.filter (fun a => !mine a.who),
             walks := s.walks.map (fun w => { w with misses := w.misses.filter fun m => !mine m.who }) }
  (x, s)

/-- A thread that waits for nothing any more goes on (R108, R113). -/
def State.unblockAll (s : State) (q : Nat) : State :=
  (s.threads.filter fun t => t.quay == q && t.st == .blocked && t.on == .fault).foldl (fun s t => s.unblock q t.slot) s

/-- Install a section on a quay (R390): what R357 and R386 to R388 lay out as the area holds it, the rest as it was saved (log
entry 10); planes are to be configured again; stamps are rebased (R356). -/
def State.install (s : State) (x : Section) (b : Nat) (rd : Nat → Nat → List Byte) : State :=
  let a := x.quay
  let d := s.clock - x.since
  let bits := leNat (rd 0xA0 512)
  let slots := (List.range 4096).filter bits.testBit
  let wv := leNat (rd 8 8)
  let acc := leNat (rd 0x80 32)
  let toks := x.tokens.zipIdx.map fun y => (y.1, Tok.ofRecord (rd (0x1B000 + 16 * y.2) 16))
  let node := fun (n : Node) =>
    { n with quay := b, sums := if (List.range 64).any fun r => acc.testBit (64 * n.n + r) then
        (List.range 4096).map fun k =>
          if acc.testBit (64 * n.n + k / 64) then
            BitVec.ofNat 32 (leNat (rd (0x40000 + 16384 * n.n + 256 * (k / 64) + 4 * (k % 64)) 4)) else 0
      else [] }
  let c := s.ctx x.ctx
  let th := fun (sl : Nat) =>
    let t := tget (fun (t : Thread) => t.slot == sl) { slot := sl, ctx := c.num } x.threads
    -- a completion wait reads its object first of all (R344)
    let on := match t.on with
      | .object va l old sc _ => .object va l old sc 0
      | x => x
    { t.fromRecord (rd (0xD0000 + 768 * sl) (256 + 8 * t.budget)) d with quay := b, on := on }
  -- weights come back with the planes (R362); which spares stand in belongs to the quay itself (R375)
  let restoreWeights := fun (l : List Bollard) (k : Bollard) =>
    let old := tget (fun (y : Bollard) => y.quay == b && y.n == k.n) { quay := b, n := k.n } l
    tset (fun (y : Bollard) => y.quay == b && y.n == k.n) { old with weights := k.weights } l
  let mv := fun (p : Pass) =>
    let p := toks.foldl (fun p y => p.withToken y.1 y.2) p
    { p with quay := b, unplaced := p.leaving == 0, stores := p.stores.map (fun r => { r with loc := r.loc.moved a b }),
             waitLoc := p.waitLoc.map (Loc.moved a b) }
  let s : State :=
    { s with threads := s.threads ++ slots.map th, parked := s.parked ++ x.passes.map mv,
             entries := s.entries ++ (x.entries.filter fun e => wv.testBit e.e).map fun e =>
               { e.fromBytes (rd (0x1000 + 528 * e.e) 528) with quay := b },
             planes := s.planes.filter (fun p => p.quay != b) ++ x.planes.map fun p =>
               { p.fromRecord (rd (0x17000 + 4096 * p.plane) 4096) with quay := b, opened := s.clock, drainSince := s.clock },
             groups := s.groups ++ x.groups.map (fun g =>
               { g with quay := b, bars := if g.bars.isEmpty then [] else barsOf (rd (0x50000 + 128 * g.barSet) 128) }),
             greds := s.greds ++ x.greds.map (fun g => { g with quay := b }),
             nodes := s.nodes.filter (fun n => n.quay != b) ++ x.nodes.map node,
             units := if x.units.isEmpty then s.units else
               s.units.filter (fun u => u.pair != pairOf b) ++ x.units.map fun u => { u with pair := pairOf b },
             ops := s.ops ++ x.ops.map (fun o => { o with quay := b, waiting := false }),
             scores := s.scores ++ x.scores.map (fun e => { e with quay := if e.quay = a then b else e.quay }),
             waits := s.waits ++ x.waits.map (fun w => { w with quay := b }),
             pgreqs := s.pgreqs ++ x.reqs.map (fun r => { r with quay := b, who := r.who.map fun y => (y.1.moved a b, y.2) }),
             bollards := x.bollards.foldl restoreWeights (s.bollards),
             framePrio := x.frames.foldl (fun l f => kvSet (vkey b (f.1 % 2 ^ 24)) f.2 l) s.framePrio }
  let s := if s.pass.live then s else
    match s.parked with
    | p :: ps => { s with pass := p, parked := ps }
    | [] => s
  (s.unblockAll b).wakePasses

/-- Load a vault from a section (R389): units of VPRES are loaded, the others zeroed; no unit counts as written. -/
def State.loadVault (s : State) (q : Nat) (rd : Nat → Nat → List Byte) : State :=
  let vp := leNat (rd 0x4A0 384)
  let us := (List.range 3072).filter vp.testBit
  let regions := s.regions
  let s := s.vzero q
  let s : State := { s with regions := regions }
  let s := us.foldl (fun s u =>
    let s : State := { s with vmem := Mem.writeN s.vmem (vkey q (4096 * u)) (rd (0x490000 + 4096 * u) 4096) }
    (List.range 32).foldl (fun s k =>
      let key := vline q (4096 * u) + k
      let w := leNat (rd (0x3D0000 + 256 * u + 8 * k) 8)
      let s := s.setVmeta { key := key, lam := BitVec.ofNat 8 w, tag := BitVec.ofNat 4 (w / 2 ^ 8), poison := w.testBit 12,
                            v := w.testBit 13, d := w.testBit 14 }
      { s with presence := s.presence ++ ((List.range 32).filter fun i => w.testBit (32 + i)).map (key * 32 + ·) }) s) s
  { s with vwritten := s.vwritten.filter fun u => u / 2 ^ 12 != q }

/-! ### Threads and operations that end with their context (R371, R393, R412) -/

/-- End what a section holds (R412): its operations end with status 11 and raise their objects, its threads count in NLOST,
and the completion records of its groups are written as those of any other. -/
def State.endSection (s : State) (x : Section) : State :=
  let s : State := { s with sections := s.sections.filter fun y => !(y.ctx == x.ctx && y.sect == x.sect) }
  let s := x.ops.foldl (fun s o =>
    let s := if o.idxs.isEmpty then s
      else (s.tell o.ctx (s.farMods o.idxs) (.leave o.quay o.id)).undoom (s.rankEntry o.quay) o.idxs
    o.refsAt.foldl (fun s k => s.modRegion k fun r => { r with refs := r.refs - 1 }) s) s
  let op := fun (o : EngOp) =>
    let co := s.objectOf o
    if o.finished then { o with ended := true, waiting := false }
    else { o with ended := true, finished := true, waiting := false, phase := 0, status := 11, refsAt := [], co := co }
  let group := fun (g : Group) =>
    { g with ended := true, nlost := g.nlost + x.threads.countP fun t => t.group == g.id && t.st != .idle && t.st != .free }
  let waits := fun (o : CtxOp) =>
    match o.src with
    | .op id => o.reach == 0 && x.ops.any fun y => y.id == id
    | .node _ => false
  { s with ops := s.ops ++ x.ops.map op, groups := s.groups ++ x.groups.map group, ctxq := s.ctxq.filter fun o => !waits o }

/-- What ended with a subtree has still to raise an object or write a record (R412). -/
def State.endingIn (s : State) (root : Nat) : Bool :=
  (s.ops.any fun o => o.ended && s.inSubtree root o.ctx) || s.groups.any fun g => g.ended && s.inSubtree root g.ctx

/-- Sections of a subtree. -/
def State.sectionsOf (s : State) (root : Nat) : List Section := s.sections.filter fun x => s.inSubtree root x.ctx

/-- A context is lost (R393): STATE 3 and ERR in its header, with a cause of R384 (0 where no error lost it), its threads counted
in NLOST. -/
def State.loseContext (s : State) (c quay off cause : Nat) : State :=
  let x := s.ctx c
  let s := if x.lost then s else s.header x 0 (leBytes 8 3)
  let s := if x.lost || cause == 0 then s else
    s.header x 0x30 (leBytes 8 (cause + quay * 256) ++ leBytes 8 off ++ leBytes 8 s.clock ++ leBytes 8 0)
  let s := s.setCtx { x with lost := true, run := false }
  let s := (s.sections.filter fun y => y.ctx == c).foldl State.endSection s
  (s.threads.filter fun t => t.ctx == c && t.st != .idle && t.st != .free).foldl (fun s t => s.lose t 0 false) s

/-! ### Pre-emption (R377 to R379) -/

/-- Quays assigned to contexts of a subtree (R417). -/
def State.subtreeQuays (s : State) (root : Nat) : List Nat := (List.range 256).filter fun q => s.inSubtree root (s.assignee q)

/-- The agents a pre-emption of quays waits for (R379). -/
def stopAgents (qs : List Nat) : List StopAgent :=
  qs.flatMap (fun q => [StopAgent.fabric q, StopAgent.engines q]) ++ ((qs.map dieOf).eraseDups).map StopAgent.queueProcessor

/-- Cycle 0 of a pre-emption: intake stops; the headers of the contexts read STATE 1 (R377, R384). -/
def State.beginPreempt (s : State) (root : Nat) (qs : List Nat) (drain only : Bool) : Nat × State :=
  let (id, s) := s.fresh
  let p : Preempt := { id := id, root := root, quays := qs, drain := drain, only := only,
                       since := qs.map (fun q => (q, s.clock)), awaiting := stopAgents qs }
  let s : State := { s with preempts := s.preempts ++ [p] }
  let cs := ((qs.map s.assignee) ++ (if only then [] else [root])).eraseDups
  (id, cs.foldl (fun s c =>
    let x := s.ctx c
    if x.lost then s else (s.header x 0 (leBytes 8 1)).header x 8 (leBytes 8 (if drain then 1 else 0))) s)

/-- Whether an agent has reached its stop (R377 to R379): a draining fabric has no pass in flight, every released write of
the quay is performed or refused, and every trap delivered; the engines stand at their units, and no page request of the quay is half
appended; the queue processor stands between commands. -/
def State.agentStopped (s : State) (p : Preempt) (a : StopAgent) : Bool :=
  match a with
  | .fabric q =>
    (!p.drain || !s.passes.any (fun x => x.quay == q)) && s.threads.all fun t =>
      t.quay != q || (t.released.isEmpty && match t.on with | .delivery _ _ => false | _ => true)
  | .engines q =>
    (s.ops.all fun o => o.ended || pairOf o.quay != pairOf q || (o.quay != q && !o.isSequence) || s.opAtStop o) &&
      s.pgreqs.all fun r => r.quay != q || r.step = 0 || r.step = 3
  | .queueProcessor d =>
    s.ctxs.all fun c => c.queues.all fun x => x.die != d || !s.stopsQueue p c.num d || !s.midCommand c.num x.n

/-- Change a pre-emption. -/
def State.modPreempt (s : State) (id : Nat) (f : Preempt → Preempt) : State :=
  { s with preempts := tmod (fun p => p.id == id) f s.preempts }

/-- A new tenant of a quay at the end of a slice (R391): the next context, in turn, that runs and has state saved for it
(log entry 14). -/
def State.nextTenant (s : State) (q : Nat) : Option Nat :=
  let cur := s.assignee q
  let cand := (s.sections.filter fun x =>
    x.quay == q && x.ctx != cur && s.runs x.ctx 9 && s.holdsSect (s.ctx x.ctx) x.sect).map (·.ctx)
  let pick := fun (l : List Nat) => match l with | [] => none | c :: cs => some (cs.foldl min c)
  match pick (cand.filter (· > cur)) with
  | some c => some c
  | none => pick cand

/-- Order the restore of a section onto a quay (R382, R390). -/
def State.addRestore (s : State) (c j q owner : Nat) (held : Option Nat) : State :=
  { s with saves := s.saves ++ [{ ctx := c, quay := q, sect := j, restore := true, owner := owner, held := held }] }

/-- Order the restore of the section that a context holds for a quay, if it holds one and runs (R382, R390). -/
def State.orderRestore (s : State) (c q : Nat) : State :=
  match (s.ctx c).slotOf q with
  | some j => if s.holdsSect (s.ctx c) j && s.runs c 9 then s.addRestore c j q 0 none else s
  | none => s

/-- A quay's save of a slice's end is written (R391): the next tenant's state is loaded, and the vault handed over; or the
quay goes back to its own tenant. -/
def State.sliceSaved (s : State) (q : Nat) : State :=
  match s.nextTenant q with
  | some c =>
    ({ s with handovers := s.handovers ++ [{ quay := q, old := s.assignee q, new := c, restore := true }] } : State).orderRestore c q
  | none => s.orderRestore (s.assignee q) q

/-- Offsets in a section of the lines that hold a poisoned register or predicate of a thread (R374, R388, R393). -/
def Thread.badLines (t : Thread) : List Nat :=
  ((List.range 64).filter t.regPoison.getLsbD).map (fun r => (0xD0000 + 768 * t.slot + 256 + 8 * r) / 128 * 128) ++
    if (List.range 48).any fun k => t.regPoison.getLsbD (64 + k) then [(0xD0000 + 768 * t.slot + 8) / 128 * 128] else []

/-- Save one quay: its state leaves it for a section, and a save operation is ordered (R377, R382, R383, R389); one whose state is
in its section already keeps that.  A save that an operation of the quay holds goes on as one of this pre-emption, beside that
which stands until its operation is restored (R392). -/
def State.saveQuay (s : State) (p : Preempt) (q : Nat) : State :=
  let c := s.assignee q
  let s : State := { s with saves := s.saves.filter fun v => !(v.restore && v.quay == q) }
  match (s.ctx c).slotOf q with
  | none => if p.retire then (s.threads.filter fun t => t.quay == q && t.st != .idle && t.st != .free).foldl
      (fun s t => s.lose t 0 false) s else s
  | some j =>
    if s.quayBusy q = false && (s.holdsSect (s.ctx c) j || s.sections.any fun y => y.ctx == c && y.sect == j) then s
    else
      let stamp := s.freeCtr
      let s : State := { s with freeCtr := s.freeCtr + 1 }
      let bad := (s.threads.filter fun t => t.quay == q).flatMap Thread.badLines
      let since := ((p.since.find? fun x => x.1 == q).map (·.2)).getD s.clock
      let r := s.capture c j q p.drain since
      let frags := chunked (s.sectionFrags r.1 p.drain stamp)
      let held := s.ctxq.findSome? fun o =>
        match o.src with
        | .op id => if o.waits.contains p.id then some id else none
        | .node _ => none
      let v : SaveOp := { ctx := c, quay := q, sect := j, restore := false, frags := frags, owner := p.id, held := held,
                          bad := bad.eraseDups }
      let others := (r.2.saves.filter fun v => !v.restore && v.held.any fun id => r.1.ops.any fun o => o.id == id).map
        fun v => { v with owner := p.id, held := none }
      { r.2 with saves := r.2.saves ++ v :: others,
                 sections := r.2.sections.filter (fun y => !(y.ctx == c && y.sect == j)) ++ [r.1] }

/-- The quays of a pre-emption that have stopped and whose save is still to be ordered: each for itself as the lamplighter token
sweeps, all together otherwise (R379, R391). -/
def Preempt.due (p : Preempt) : List Nat :=
  if p.slice then p.quays.filter fun q => !p.saved.contains q && !p.awaiting.contains (.fabric q) && !p.awaiting.contains (.engines q)
  else if p.awaiting.isEmpty then p.quays.filter fun q => !p.saved.contains q
  else []

/-- Once its agents have stopped, the saves of a pre-emption begin (R379, R391). -/
def State.startSaves (s : State) (id : Nat) : State :=
  match s.preempts.find? fun p => p.id == id with
  | none => s
  | some p =>
    let qs := p.due
    let s := qs.foldl (fun s q =>
      let s := s.saveQuay p q
      if p.slice && !s.saves.any (fun v => v.quay == q && v.owner == id) then s.sliceSaved q else s) s
    s.modPreempt id fun p =>
      { p with saved := p.saved ++ qs, ending := p.ending || (p.awaiting.isEmpty && p.todo.isEmpty) }

/-- PREEMPT_STOP_REACHED (R378, R379): an agent answers its collector. -/
def execPreemptStopReached (n : Nat) (agent : StopAgent) (s : State) : Out :=
  .next <|
    match s.preempts[n]? with
    | none => s
    | some p =>
      if p.awaiting.contains agent ∧ s.agentStopped p agent = true then
        (s.modPreempt p.id fun p => { p with awaiting := p.awaiting.filter (· != agent) }).startSaves p.id
      else s

/-- PREEMPT_DRAIN_LIMIT (R377): threads still in flight 1,024 cycles after their quay's intake stopped are turned back. -/
def execPreemptDrainLimit (n : Nat) (s : State) : Out :=
  .next <|
    match s.preempts[n]? with
    | none => s
    | some p =>
      if p.drain = false then s
      else
        let late := p.since.filter fun x => decide (s.clock ≥ x.2 + 1024)
        let qs := late.map (·.1)
        let s := (s.passes.filter fun x => qs.contains x.quay).foldl State.turnBack s
        qs.foldl State.tidy s

/-- Whether every quay of a context has its state in a section (R384). -/
def State.allSaved (s : State) (c : Nat) : Bool :=
  (List.range 256).all fun q => s.assignee q != c || ((s.ctx c).slotOf q).any fun j => s.holdsSect (s.ctx c) j

/-- PREEMPTION_COMPLETE (R379, R384): every save is written; the headers read STATE 2, or 0 where the context still has a quay
that is not saved. -/
def execPreemptionComplete (n : Nat) (s : State) : Out :=
  .next <|
    match s.preempts[n]? with
    | none => s
    | some p =>
      let cs := ((p.quays.map s.assignee) ++ (if p.only then [] else [p.root])).eraseDups
      if p.ending = false ∨ (s.saves.any fun v => v.owner == p.id) = true ∨ (cs.any fun c => s.areaPending (s.ctx c)) = true then s
      else
        let s : State := { s with preempts := s.preempts.filter fun x => x.id != p.id }
        let s : State := if p.retire then
            { s with absent := p.quays.foldl (fun l q => addOnce q l) s.absent,
                     dev := { s.dev with err := { s.dev.err with retired := s.dev.err.retired + p.quays.length } } }
          else s
        cs.foldl (fun s c =>
          let x := s.ctx c
          if x.lost then s else s.header x 0 (leBytes 8 (if s.allSaved c then 2 else 0))) s

/-! ### Saves and restores (R382, R389, R390, R392, R393) -/

/-- Whether a save operation stands: the entry it is held by is itself saved (R382, R392). -/
def State.saveStopped (s : State) (v : SaveOp) : Bool := v.held.any fun id => (s.op? id).isNone

/-- The `n`-th save operation leaves. -/
def State.dropSave (s : State) (n : Nat) : State := { s with saves := s.saves.eraseIdx n }

/-- Replace the `n`-th save operation. -/
def State.setSave (s : State) (n : Nat) (v : SaveOp) : State := { s with saves := s.saves.set n v }

/-- The parts of a list that lie in the 4 KiB chunk of the first (R382), and the others. -/
def firstChunk (l : List (Nat × α)) : List (Nat × α) × List (Nat × α) :=
  match l with
  | [] => ([], [])
  | x :: _ => l.partition fun y => y.1 / 4096 == x.1 / 4096

/-- A line of a list of writes whose memory has an uncorrectable error (R393). -/
def State.badWrite (s : State) (base : Nat) (fs : List (Nat × List Byte)) : Option Nat :=
  s.upsets.findSome? fun u =>
    match u with
    | .memory l false => if fs.any fun f => overlaps (l * 128) 128 (base + f.1) f.2.length then some l else none
    | _ => none

/-- A save operation has ended (R391). -/
def State.saveEnded (s : State) (v : SaveOp) : State :=
  if s.preempts.any fun p => p.slice && p.id == v.owner then s.sliceSaved v.quay else s

/-- SAVE_CHUNK (R382, R384, R392, R393): the next 4 KiB chunk of a save is written; after the last the section holds
state, and one that could not be read or written whole is poisoned there and loses its context. -/
def execSaveChunk (n : Nat) (s : State) : Out :=
  .next <|
    match s.saves[n]? with
    | none => s
    | some v =>
      if v.restore = true ∨ s.saveStopped v = true then s
      else
        let base := (s.ctx v.ctx).save + sectOff v.sect
        let (now, rest) := firstChunk v.frags
        let bytes := (now.map fun f => f.2.length).foldl (· + ·) 0
        let fail := s.badWrite base now
        let s := (now.foldl (fun s f => s.areaWrite (base + f.1) f.2) s).charge (meterQuay v.quay) v.ctx 15 bytes
        match fail with
        | some l => (((s.setPoison l true).dropSave n).loseContext v.ctx v.quay (l * 128 - base) 2).saveEnded v
        | none =>
          if rest.isEmpty then
            let s := (s.dropSave n).markSect v.ctx v.sect true
            (match v.bad with
              | [] => s
              | o :: _ => (v.bad.foldl (fun (s : State) o => s.setPoison ((base + o) / 128) true) s).loseContext v.ctx v.quay o 1).saveEnded v
          else s.setSave n { v with frags := rest }

/-- The section that a restore takes: its content beside the area. -/
def State.sectionOf (s : State) (v : SaveOp) : Section :=
  tget (fun (y : Section) => y.ctx == v.ctx && y.sect == v.sect)
    { ctx := v.ctx, sect := v.sect, quay := v.quay, since := s.clock, hasVault := true } s.sections

/-- Whether a restore loads the vault (R389, R411): it was saved, or the section goes to another quay. -/
def SaveOp.loadsVault (v : SaveOp) (x : Section) : Bool := x.hasVault || x.quay != v.quay

/-- What a restore has read is loaded onto its quay (R390), and its intake opens; the context's header reads STATE 0 (R384). -/
def State.restoreEnd (s : State) (v : SaveOp) : State :=
  let x := s.ctx v.ctx
  let sec := s.sectionOf v
  let s : State := { s with sections := s.sections.filter fun y => !(y.ctx == v.ctx && y.sect == v.sect) }
  let s := s.setCtx { x with qtab := x.qtab.set v.sect (some v.quay) }
  let s := s.install sec v.quay v.read
  let s := if v.loadsVault sec then
      let s : State := { s with regions := s.regions.filter (fun r => r.quay != v.quay) ++
                                             sec.regions.map fun r => { r with quay := v.quay } }
      (s.loadVault v.quay v.read).chargeVault v.quay v.ctx vaultEnd
    else s
  (s.markSect v.ctx v.sect false).header (s.ctx v.ctx) 0 (leBytes 8 0)

/-- RESTORE (R382, R389 to R391, R393): the next 4 KiB chunk of a section is read, that of the vault after the hand-over; after
the last it is loaded onto its quay; one that cannot be read loses its context. -/
def execRestore (n : Nat) (s : State) : Out :=
  .next <|
    match s.saves[n]? with
    | none => s
    | some v =>
      let x := s.ctx v.ctx
      let base := x.save + sectOff v.sect
      let handed := s.handovers.any fun h => h.quay == v.quay
      if v.restore = false ∨ s.saveStopped v = true ∨ s.areaPending x = true then s
      else if s.runs v.ctx 9 = false then s.dropSave n
      else if v.begun = false then
        if s.holdsSect x v.sect = false then s.dropSave n
        else
          let sec := s.sectionOf v
          s.setSave n { v with begun := true, chunks := chunkedParts (s.sectionParts sec base (v.loadsVault sec)) }
      else
        let (now, rest) := firstChunk v.chunks
        match now with
        | [] => if handed then s else if s.quayBusy v.quay then s.dropSave n else (s.dropSave n).restoreEnd v
        | (off, _) :: _ =>
          if off ≥ 0x3D0000 ∧ handed = true then s
          else
            let ask := now.foldl (fun r p => let o := r.2.areaOwned (base + p.1) p.2; (r.1 && o.1, o.2)) (true, s)
            if ask.1 = false then ask.2
            else
              let s := ask.2.charge (meterQuay v.quay) v.ctx 15 ((now.map (·.2)).foldl (· + ·) 0)
              let s := now.foldl (fun s p => s.chargeLines v.quay (base + p.1) p.2 v.ctx) s
              match (now.flatMap fun p => s.areaPoison (base + p.1) p.2).min? with
              | some l => (s.dropSave n).loseContext v.ctx v.quay (l * 128 - base) 1
              | none =>
                s.setSave n { v with frags := v.frags ++ now.map (fun p => (p.1, s.areaRead (base + p.1) p.2)), chunks := rest }

/-! ### Hand-over of a vault (R151) -/

/-- Every mapped region of a quay is written back as by `vflush`, under its creating context (R143, R151 step 1): each by an
operation of no thread. -/
def State.flushQuay (s : State) (q : Nat) : State :=
  (s.regions.filter fun r => r.quay == q && r.mapped && s.ctxLive r.ctx).foldl (fun s r =>
    let (id, s) := s.fresh
    let desc : BitVec 256 := 0#64 ++ BitVec.ofNat 64 (r.vpg * 4096) ++ 0#128
    { s with ops := s.ops ++ [{ id := id, quay := q, kind := .vflush, ctx := r.ctx, desc := desc, phase := 1, ended := true }] }) s

/-- Whether a hand-over has to wait for a pre-emption: of the quay itself; at the end of a slice, for the answers of every quay of
the old tenant on the die (R151, R391). -/
def State.handoverWaits (s : State) (h : Handover) : Bool :=
  s.preempts.any fun p =>
    p.covers h.quay || h.restore && p.slice && (List.range 256).any fun r => dieOf r == dieOf h.quay && s.assignee r == h.old &&
      (p.todo.contains r || p.awaiting.contains (.fabric r) || p.awaiting.contains (.engines r))

/-- The operation-table entry that a vault's save holds: that of the context operation which hands the quay over (R382). -/
def State.handHeld (s : State) (q : Nat) : Option Nat :=
  s.ctxq.findSome? fun o =>
    match o.src with
    | .op id => if o.hands.contains q then some id else none
    | .node _ => none

/-- VAULT_HANDOVER (R151, R389, R391): write-back, references, the save of the vault beside the saved state, zeroing, and
the new holder, whose state on the quay comes back where it has any saved and runs (R431). -/
def execVaultHandover (n : Nat) (s : State) : Out :=
  .next <|
    match s.handovers[n]? with
    | none => s
    | some h =>
      let q := h.quay
      let step (s : State) (k : Nat) : State :=
        { s with handovers := tmod (fun x => x.quay == q) (fun x => { x with phase := k }) s.handovers }
      match h.phase with
      | 0 =>
        if (s.groups.any fun g => g.quay == q) = true ∨ (s.ops.any fun o => o.quay == q) = true ∨ s.handoverWaits h = true then s
        else step (s.flushQuay q) 1
      | 1 =>
        if (s.ops.any fun o => o.quay == q) || (s.regions.any fun r => r.quay == q && !r.mapped && r.refs != 0) then s
        else
          let x := s.ctx h.old
          match x.slotOf q with
          | none => step s 3
          | some j =>
            if s.holdsSect x j = false then step s 3
            else
              let frags := chunked (s.vaultFrags q (x.save + sectOff j))
              let s := s.chargeVault q h.old (4096 * (s.writtenUnits q).length)
              let regs := s.regions.filter fun r => r.quay == q
              let s : State := { s with sections := tmod (fun y => y.ctx == h.old && y.sect == j)
                                          (fun (y : Section) => { y with regions := regs, hasVault := true }) s.sections,
                                        saves := s.saves ++ [{ ctx := h.old, quay := q, sect := j, restore := false, frags := frags,
                                                               held := s.handHeld q }] }
              step s 2
      | 2 => if s.saves.any fun v => v.quay == q && !v.restore then s else step s 3
      | _ =>
        let s := s.vzero q
        let s := (s.charge (meterQuay q) h.new 8 vaultEnd)
        let s : State := { s with nodes := s.nodes.filter (fun n => n.quay != q), latch := s.latch.filter (fun l => l.quay != q) }
        let s : State := { s with quayCtx := kvSet q h.new s.quayCtx, handovers := s.handovers.filter fun x => x.quay != q,
                                  quayPart := match h.part with | some p => kvSet q p s.quayPart | none => s.quayPart }
        let s := s.freeSlotsOf h.old
        if s.saves.any fun v => v.quay == q && v.restore then s else s.orderRestore h.new q

/-! ### The lamplighter token (R391) -/

/-- TIME_SLICE_END (R391): the token sets out over the partition's quays, in ascending number; quays of context 0, which
has no save area, are passed. -/
def execTimeSliceEnd (part : Nat) (s : State) : Out :=
  .next <|
    let qs := (List.range 256).filter fun q => s.partOfQuay q == part && s.assignee q != 0 && !s.absent.contains q &&
      !s.exchanging q && !s.preempts.any (fun p => p.quays.contains q || p.todo.contains q)
    if qs.isEmpty then s
    else
      let (id, s) := s.fresh
      { s with preempts := s.preempts ++ [{ id := id, root := 0, todo := qs, only := true, slice := true }] }

/-- LAMPLIGHTER_ARRIVAL (R391, R377): the token reaches the next quay, whose intake stops in drain mode. -/
def execLamplighterArrival (s : State) : Out :=
  .next <|
    match s.preempts.find? fun p => !p.todo.isEmpty with
    | none => s
    | some p =>
      match p.todo with
      | [] => s
      | q :: rest =>
        if s.exchanging q then (s.modPreempt p.id fun p => { p with todo := rest }).startSaves p.id
        else
          let agents := (stopAgents [q]).filter fun a => !p.awaiting.contains a
          let x := s.ctx (s.assignee q)
          let s := if x.lost then s else (s.header x 0 (leBytes 8 1)).header x 8 (leBytes 8 1)
          s.modPreempt p.id fun p => { p with quays := p.quays ++ [q], todo := rest, since := p.since ++ [(q, s.clock)],
                                              awaiting := p.awaiting ++ agents }

/-! ### Errors of bollards (R375, R376), exhaustion (R442) -/

/-- BOLLARD_UNCORRECTABLE (R18, R375, R376): threads in flight in a plane with an operator on it are turned back and its
operators move to a spare; a quay with none free is pre-empted in save mode and retired. -/
def execBollardUncorrectable (quay bollard : Nat) (s : State) : Out :=
  .next <|
    let s : State := { s with dev := { s.dev with err := { s.dev.err with uecc := s.dev.err.uecc + 1 } } }
    let k := s.spq quay
    let hit := fun (x : Pass) => x.quay == quay && (s.bollardAt quay bollard).any fun n => x.block.onBollard x.blk.toNat n
    if k < 4 then
      let n := (s.bollardAt quay bollard).getD bollard
      let s := ((s.passes.filter hit).foldl State.turnBack s).tidy quay
      let b := tget (fun x => x.quay == quay && x.n == n) { quay := quay, n := n } s.bollards
      { s with bollards := tset (fun x => x.quay == quay && x.n == n) { b with spare := some (64 + k), used := b.used + 1 } s.bollards,
               dev := { s.dev with err := { s.dev.err with spares := s.dev.err.spares + 1 } } }
    else
      if s.preempts.any fun p => p.quays.contains quay && p.retire then s
      else
        -- the tokens of the faulty bollard are poisoned from now on (R374)
        let bad := fun (x : Pass) => if x.live && hit x then { x with poison := true } else x
        let s : State := { s with pass := bad s.pass, parked := s.parked.map bad }
        let r := s.beginPreempt (s.assignee quay) [quay] false true
        r.2.modPreempt r.1 fun p => { p with retire := true }

/-- A context is exhausted: EXPL 1 and REMAIN 0 (R441). -/
def Ctx.exhausted (c : Ctx) : Bool := c.expl && c.remain == 0

/-- EXHAUSTION_PREEMPT (R442, R447): the run bit is cleared, the subtree pre-empted in drain mode, and the control node
told. -/
def execExhaustionPreempt (c : Nat) (s : State) : Out :=
  .next <|
    let x := s.ctx c
    if c = 0 ∨ s.ctxLive c = false ∨ x.exhausted = false ∨ x.run = false then s
    else
      let s := s.setCtx { x with run := false }
      let s := (s.beginPreempt c (s.subtreeQuays c) true false).2
      s.send 0x86 c 0 (leBytes 8 c ++ leBytes 8 x.used.toNat ++ leBytes 8 s.clock)

end Sys2Proof.Machine
end

