-- ==== Sys2Proof/Machine/Contexts.lean ====
section
/-! DEFINITION. Context operations at the context controller (R403 to R432). -/

namespace Sys2Proof.Machine

/-! ### The controller's queue (R403, R405) -/

/-- Word `k` of an operation's descriptor (R403). -/
def CtxOp.word (o : CtxOp) (k : Nat) : Nat := (o.desc.extractLsb' (64 * k) 64).toNat
/-- TARGET (R403). -/
def CtxOp.targetOf (o : CtxOp) : Nat := o.word 0 % 4096
/-- The context whose subtree an operation acts on (R405). -/
def CtxOp.subject (o : CtxOp) : Nat := if o.func = 0x20 then o.issuer else o.targetOf

/-- Change the `n`-th element of a list. -/
def setAt (l : List α) (n : Nat) (f : α → α) : List α := l.zipIdx.map fun x => if x.2 = n then f x.1 else x.1

/-- Change the `n`-th operation of the controller. -/
def State.modCtxOp (s : State) (n : Nat) (f : CtxOp → CtxOp) : State := { s with ctxq := setAt s.ctxq n f }

/-- An operation has its result (R404). -/
def State.ctxEnd (s : State) (n code count : Nat) : State :=
  s.modCtxOp n fun o => { o with phase := 9, code := code, count := count }

/-- An operation has taken effect and waits for what it began. -/
def State.ctxAwait (s : State) (n : Nat) (f : CtxOp → CtxOp) : State := s.modCtxOp n fun o => { f o with phase := 1 }

/-- Whether two contexts lie one above the other, or are the same (R405). -/
def State.related (s : State) (a b : Nat) : Bool := s.inSubtree a b || s.inSubtree b a

/-- An operation leaves the controller. -/
def State.dropCtxOp (s : State) (n : Nat) : State := { s with ctxq := s.ctxq.eraseIdx n }

/-- Read the descriptor at issue (R403): after every earlier write of the thread, and past the range scoreboard; one that
cannot be read ends the operation (R122). -/
def State.ctxRead (s : State) (n : Nat) (o : CtxOp) : State :=
  match o.src with
  | .node _ => s
  | .op id =>
    match s.op? id with
    | none => s
    | some e =>
      let off := e.a.toNat
      if e.finished then s.dropCtxOp n
      else if s.opRuns e = false ∨ s.scored e.quay off 64 = true then s
      else if e.status > 1 then (s.dropCtxOp n).endOp id 0
      else
        match s.opVault e e.quay off 64 0 with
        | .ok p s =>
          let (r, s) := (s.chargeVault e.quay e.ctx 64).fresh
          s.modCtxOp n fun o => { o with desc := BitVec.ofNat 512 (leNat p.bytes), reach := r }
        | .wait s => s
        | .fail st s => (s.dropCtxOp n).endOp id st

/-- The agent in whose name an operation reads and writes memory. -/
def CtxOp.waiter (o : CtxOp) : Waiter :=
  match o.src with
  | .op id => .op id
  | .node tag => .node o.issuer tag.toNat

/-- What an operation reads of a line of a context's space; one that is stale there is walked again (R104). -/
def State.ctxLine (s : State) (o : CtxOp) (c va n : Nat) : Asked (List Byte) :=
  match s.hwLoad o.waiter c va n with
  | .ok bs _ s => .ok bs s
  | .wait s | .stale _ s => .wait s
  | .refused k s => .fail (causeStatus k) (s.dropFar o.waiter)

/-- Bytes that an operation reads of a context's space. -/
def State.ctxLoad (s : State) (o : CtxOp) (c va n : Nat) : Asked (List Byte) :=
  (askEach (fun s (p : Nat × Nat) => s.ctxLine o c (va + p.1) p.2) (cutAt 128 va 0 n (n / 128 + 2)) s).andThen fun bs s =>
    .ok bs.flatten s

/-- Whether an operation that reached the controller earlier acts on a related context (R405). -/
def State.ctxBlocked (s : State) (o : CtxOp) : Bool :=
  s.ctxq.any fun m => decide (0 < m.reach) && decide (m.reach < o.reach) && s.related m.subject o.subject

/-- Perform the `n`-th operation, if it is one of `func` that `sel` picks: its descriptor read, its turn come. -/
def State.ctxPerform (s : State) (n : Nat) (func : BitVec 8) (sel : CtxOp → Bool) (body : CtxOp → State → State) : State :=
  match s.ctxq[n]? with
  | none => s
  | some o =>
    if o.func ≠ func ∨ o.phase ≠ 0 then s
    else
      let s := if o.reach = 0 then s.ctxRead n o else s
      match s.ctxq[n]? with
      | none => s
      | some m =>
        if m.src ≠ o.src ∨ m.func ≠ func ∨ m.reach = 0 ∨ sel m = false ∨ s.ctxBlocked m = true then s else body m s

/-- Codes 1, 8 and 3 for TARGET (R404, R416): a child of the issuer, not lost unless `lost` is allowed. -/
def State.childCode (s : State) (o : CtxOp) (lost : Bool) : Nat :=
  let t := o.targetOf
  if s.ctxLive t = false ∨ t = 0 ∨ (s.ctx t).parent ≠ o.issuer then 1
  else if (s.ctx t).lost ∧ lost = false then 8
  else if o.word 0 / 4096 ≠ 0 then 3
  else 0

/-- Whether argument words other than those listed are 0 (R403). -/
def CtxOp.unused (o : CtxOp) (used : List Nat) : Bool :=
  ([2, 3, 4, 5, 6, 7].filter fun k => !used.contains k).all fun k => o.word k == 0

/-- The control node acts on context 0 as its parent (R447): a queue grant or withdrawal of CTXOP with FN 0 and TARGET 0
(log entry 15). -/
def CtxOp.nodeOnRoot (o : CtxOp) : Bool :=
  (match o.src with | .node _ => true | .op _ => false) && o.issuer == 0 && o.targetOf == 0

/-! ### `ctx.new` (R406) -/

/-- Whether `k` pages from a virtual address are present and writable for a context, in software memory, at physical
addresses that follow one another; the first address. -/
def State.pinned (s : State) (c va : Nat) : Nat → Option Nat
  | 0 => none
  | k + 1 =>
    match s.walk c va true false with
    | .fail _ | .held | .far _ _ _ => none
    | .ok t =>
      if s.tableOk t.pa = false then none
      else if k = 0 then some t.pa
      else
        match s.pinned c (va + 65536) k with
        | some n => if n = t.pa + 65536 then some t.pa else none
        | none => none

/-- The state that waits for a table entry on the way to one of `k` pages: held at its home (R93, R96), in another module, or
its owner token not there yet (R88, R107). -/
def State.walksWait (s : State) (c va k : Nat) (needW : Bool) : Option State :=
  (List.range k).findSome? fun j =>
    match s.walk c (va + 65536 * j) needW false with
    | .held => some s
    | .far m p g => some (s.askTable c m p g)
    | .ok _ | .fail _ => let o := s.walkOwned c (va + 65536 * j); if o.1 then none else some o.2

/-- The lowest free context number (R406). -/
def State.freeContext (s : State) : Option Nat := (List.range 4096).find? fun c => !s.ctxLive c

/-- Perform `ctx.new`. -/
def State.ctxNewAt (s : State) (n : Nat) (o : CtxOp) : State :=
  let w3 := o.word 3
  let maxq := w3 % 512
  let allow : BitVec 8 := BitVec.ofNat 8 (w3 / 2 ^ 16)
  let vf := w3.testBit 24
  let save := o.word 2
  let p := s.ctx o.issuer
  if o.word 0 / 4096 ≠ 0 ∨ o.unused [2, 3, 4, 5] = false ∨ save % 65536 ≠ 0 ∨ save ≥ 2 ^ 56 ∨ maxq = 0 ∨ maxq > 256 ∨
      bitsOf w3 9 7 ≠ 0 ∨ w3 / 2 ^ 25 ≠ 0 ∨ (vf = true ∧ o.issuer ≠ 0) ∨ o.word 4 % 2048 ≠ 0 ∨ o.word 4 ≥ 2 ^ 52 ∨
      o.word 5 ≥ 2 ^ 56 then s.ctxEnd n 3 0
  else
    match s.freeContext with
    | none => s.ctxEnd n 4 0
    | some c =>
      if p.depth ≥ 7 then s.ctxEnd n 4 0
      else
        let bytes := 4096 + 17825792 * maxq
        match (if save + bytes > 2 ^ 56 then none else s.walksWait o.issuer save ((bytes + 65535) / 65536) true) with
        | some s => s
        | none =>
        let found := if save + bytes > 2 ^ 56 then none else s.pinned o.issuer save ((bytes + 65535) / 65536)
        let s := s.dropFar (.tables o.issuer)
        match found with
        | none => s.ctxEnd n 5 0
        | some pa =>
          if allow &&& ~~~p.allow ≠ 0 then s.ctxEnd n 10 0
          else
            let x : Ctx := { num := c, parent := o.issuer, depth := p.depth + 1, vf := vf, invf := vf || p.invf,
                             vfctx := if vf then c else p.vfctx, allow := allow ||| 1,
                             caps := BitVec.ofNat 64 (2 ^ 56 + o.word 5), ownRoot := o.word 4, save := pa, maxq := maxq,
                             qtab := List.replicate maxq none }
            let s : State := { s with ctxs := s.ctxs ++ [x] }
            let s := s.areaWrite pa (leBytes 8 2 ++ leBytes 248 0 ++ x.qtabBytes ++ leBytes 3584 0)
            (s.modCtxOp n fun o => { o with target := c }).ctxEnd n 0 0

/-! ### `ctx.give` (R407, R423) -/

/-- KIND of a give or take. -/
def CtxOp.kind (o : CtxOp) : Nat := o.word 2 % 4

/-- Quays of QMASK (R407). -/
def CtxOp.quays (o : CtxOp) : List Nat := (List.range 256).filter fun q => (o.word (4 + q / 64)).testBit (q % 64)

/-- Give quays: each held by the issuer and by no other child, its partition owned rightly, not absent; each not named
yet finds an empty slot. -/
def State.giveQuays (s : State) (n : Nat) (o : CtxOp) : State :=
  let t := o.targetOf
  let x := s.ctx t
  let qs := o.quays
  let code := s.childCode o false
  let new := qs.filter fun q => !s.holdsQuay t q
  let fresh := new.filter fun q => (x.slotOf q).isNone
  if code ≠ 0 then s.ctxEnd n code 0
  else if o.word 2 > 3 ∨ o.unused [2, 4, 5, 6, 7] = false ∨ fresh.length > x.qtab.countP (·.isNone) then s.ctxEnd n 3 0
  else if qs.any fun q => s.absent.contains q || !s.holdsQuay o.issuer q || (s.handovers.any fun h => h.quay == q) ||
      kvGet (s.partOfQuay q) 0 s.partOwner != s.functionOf t || (!s.holdsQuay t q && s.assignee q != o.issuer) then
    s.ctxEnd n 2 0
  else
    let s := fresh.foldl (fun s q =>
      let x := s.ctx t
      match x.qtab.findIdx? (·.isNone) with
      | some j =>
        let s := s.setCtx { x with qtab := x.qtab.set j (some q) }
        if s.holdsSect x j then s else s.areaWrite (x.save + sectOff j + 0x4A0) (leBytes 384 0)
      | none => s) s
    let s : State := { s with handovers := s.handovers ++ new.map fun q => { quay := q, old := s.assignee q, new := t } }
    s.ctxAwait n fun o => { o with hands := new, count := qs.length }

/-- BMLIM of the dirty log of a context, where it is active (R114); 0 where it cannot be read (log entry 55). -/
def State.bmlim (s : State) (o : CtxOp) (c : Nat) : Asked (Option Nat) :=
  let d := (s.ctx c).dlog
  if d.getLsbD 0 then
    match s.ctxLine o (s.ctx c).parent ((d.extractLsb' 6 50).toNat * 64 + 56) 8 with
    | .ok bs s => .ok (some (leNat bs)) (s.dropFar o.waiter)
    | .wait s => .wait s
    | .fail _ s => .ok (some 0) s
  else .ok none s

/-- Give a range of memory (R407): recorded, nothing mapped. -/
def State.giveMemory (s : State) (n : Nat) (o : CtxOp) : State :=
  let t := o.targetOf
  let x := s.ctx t
  let code := s.childCode o false
  let va := o.word 3
  let ipa := o.word 4
  let len := o.word 5
  let w6 := o.word 6
  if code ≠ 0 then s.ctxEnd n code 0
  else if o.word 2 > 3 ∨ o.unused [2, 3, 4, 5, 6] = false ∨ len % 65536 ≠ 0 ∨ len = 0 ∨ va % 65536 ≠ 0 ∨ ipa % 65536 ≠ 0 ∨
      va + len > 2 ^ 56 ∨ ipa + len > 2 ^ 52 ∨ w6 > 3 ∨ (x.grants.any fun g => overlaps ipa len g.ipa g.len) = true ∨
      x.grants.length ≥ 64 then s.ctxEnd n 3 0
  else
    match s.bmlim o t with
    | .wait s | .fail _ s => s
    | .ok lim s =>
      if lim.any fun b => decide (ipa + len > b) then s.ctxEnd n 7 0
      else
        let idx := ((List.range 64).find? fun k => !x.grants.any (·.idx == k)).getD 0
        let g : Grant := { idx := idx, va := va, ipa := ipa, len := len, w := w6.testBit 1, x := w6.testBit 0 }
        (s.setCtx { x with grants := x.grants ++ [g] }).ctxEnd n 0 idx

/-- Whether a queue descriptor that is granted obeys R345. -/
def descriptorOk (d : Word) : Bool :=
  d.getLsbD 63 && d.extractLsb' 56 2 == 0 && d.extractLsb' 0 8 == 0 && decide (3 ≤ (d.extractLsb' 8 4).toNat) &&
    decide ((d.extractLsb' 8 4).toNat ≤ 12)

/-- The `qpost`s of a context that have fired for a queue of it, which is revoked: status 11 (R294). -/
def State.revokePosts (s : State) (c q : Nat) : State :=
  let op := fun (o : EngOp) =>
    if o.kind == .qpost && o.ctx == c && dAux o.desc == q && !o.finished then { o with status := 11, waiting := false } else o
  let cap := fun (x : Captured) => if x.kind == .qpost && dAux x.desc == q then { x with revoked := true } else x
  let pass := fun (p : Pass) => if p.ctx == c then { p with captured := p.captured.map cap } else p
  { s with ops := s.ops.map op, pass := pass s.pass, parked := s.parked.map pass,
           sections := s.sections.map fun x => { x with ops := x.ops.map op, passes := x.passes.map pass } }

/-- Give a queue (R345, R407): the issuer's is withdrawn, the child's is served afresh; TARGET keeps a queue that it has under the
number named (log entry 95). -/
def State.giveQueue (s : State) (n : Nat) (o : CtxOp) : State :=
  let t := o.targetOf
  let w3 := o.word 3
  let iq := w3 % 64
  let cq := bitsOf w3 8 6
  let d : Word := BitVec.ofNat 64 (o.word 4)
  let mine := s.queue o.issuer iq
  let new : Queue := { n := cq, desc := d }
  if o.nodeOnRoot then
    if o.word 2 > 3 ∨ descriptorOk d = false then s.ctxEnd n 3 0 else (s.setQueue 0 new).ctxEnd n 0 0
  else
    let code := s.childCode o false
    if code ≠ 0 then s.ctxEnd n code 0
    else if o.word 2 > 3 ∨ o.unused [2, 3, 4] = false ∨ bitsOf w3 6 2 ≠ 0 ∨ w3 / 2 ^ 14 ≠ 0 ∨ descriptorOk d = false then
      s.ctxEnd n 3 0
    else if mine.en = false then s.ctxEnd n 2 0
    else if new.prio > mine.prio ∨ (s.queue t cq).en = true ∨ (s.queue t cq).lentTo.isSome = true then s.ctxEnd n 3 0
    else
      let s := s.setQueue o.issuer { mine with desc := mine.desc &&& ~~~(1#64 <<< 63), withdrawn := some mine.desc,
                                               lentTo := some (t, cq) }
      ((s.setQueue t new).revokePosts o.issuer iq).ctxEnd n 0 0

/-- EXPL and REMAIN of a context as the changes that wait for the tick leave them, in their order (R441). -/
def State.quotaAfter (s : State) (c : Nat) : Bool × Nat :=
  s.quota.foldl (fun v k =>
    match k with
    | .set d e r => if d = c then (e, r) else v
    | .grow d a => if d = c ∧ v.1 = true then (v.1, v.2 + a) else v
    | .shrink d a => if d = c ∧ v.1 = true then (v.1, v.2 - a) else v) ((s.ctx c).expl, (s.ctx c).remain)

/-- Give energy (R407, R441): it reaches REMAIN at the tick. -/
def State.giveEnergy (s : State) (n : Nat) (o : CtxOp) : State :=
  let t := o.targetOf
  let x := s.quotaAfter t
  let code := s.childCode o false
  if code ≠ 0 then s.ctxEnd n code 0
  else if o.word 2 > 3 ∨ o.unused [2, 3] = false ∨ x.1 = false ∨ x.2 + o.word 3 > 2 ^ 63 - 1 then s.ctxEnd n 3 0
  else ({ s with quota := s.quota ++ [.grow t (o.word 3)] } : State).ctxEnd n 0 0

/-! ### Leaves and their withdrawal (R408 to R410, R419, R420) -/

/-- 64 KiB pages of a leaf. -/
def Leaf.pages (l : Leaf) : List Nat := (List.range (2 ^ (l.size - 16))).map (l.pa / 65536 + ·)

/-- Leaves of a smaller size that cover a leaf. -/
def Leaf.halves (l : Leaf) (size : Nat) : List Leaf :=
  (List.range (2 ^ (l.size - size))).map fun k => { l with ipa := l.ipa + k * 2 ^ size, pa := l.pa + k * 2 ^ size, size := size }

/-- What is left of a leaf of 64 KiB or 2 MiB when bad 64 KiB parts go, in leaves of the largest sizes (R409). -/
def Leaf.rest21 (l : Leaf) (bad : Leaf → Bool) : List Leaf :=
  let ps := if l.size = 16 then [l] else l.halves 16
  if ps.any bad then ps.filter fun p => !bad p else [l]

/-- What is left of any leaf. -/
def Leaf.rest (l : Leaf) (bad : Leaf → Bool) : List Leaf :=
  if l.size = 30 then
    let hs := l.halves 21
    if hs.any fun h => (h.halves 16).any bad then hs.flatMap fun h => h.rest21 bad else [l]
  else l.rest21 bad

/-- The bad 64 KiB parts of a leaf. -/
def Leaf.bad (l : Leaf) (bad : Leaf → Bool) : List Leaf := (l.halves 16).filter bad

/-- Bytes of the tables that hold leaves: a T4 table, and those of the lower levels that lead to a leaf (R100). -/
def tableBytes (ls : List Leaf) : Nat :=
  let tables := fun (below sh : Nat) => (((ls.filter fun l => decide (l.size < below)).map (·.ipa / 2 ^ sh)).eraseDups).length
  2048 + 4096 * (tables 31 48 + tables 31 39 + tables 30 30) + 256 * tables 21 21

/-- Bytes of a die's hardware areas for flattened-stage tables: 94,419,968 a slice (R57) less what other things take there, at
most 1 GiB (R406, log entry 75). -/
def tableSpace (die : Nat) : Nat := 16 * 94419968 - Config.tablesTaken die % 2 ^ 30

/-- Whether the tables of context `t` may hold leaves `ls` beside those of the other contexts of its die (R406). -/
def State.stageRoom (s : State) (t : Nat) (ls : List Leaf) : Bool :=
  let d := (s.ctx t).stageDie
  let others := (s.ctxs.filter fun c => c.num != 0 && c.num != t && c.stageDie == d).map fun c => tableBytes c.leaves
  decide (others.foldl (· + ·) (tableBytes ls) ≤ tableSpace d)

/-- Live contexts strictly below `c` (R405). -/
def State.below (s : State) (c : Nat) : List Nat := (s.ctxs.map (·.num)).filter fun d => d != c && s.inSubtree c d

/-- Clear parts of one context's leaves, and every leaf of its descendants on the same physical pages (R419); the pages
cleared. -/
def State.clearLeaves (s : State) (c : Nat) (bad : Leaf → Bool) : List Nat × State :=
  let x := s.ctx c
  let gone := (x.leaves.flatMap fun l => l.bad bad).map fun l => l.pa / 65536
  let s := s.setCtx { x with leaves := x.leaves.flatMap fun l => l.rest bad }
  if gone.isEmpty then ([], s)
  else
    let onPage := fun (l : Leaf) => gone.contains (l.pa / 65536)
    (gone, (s.below c).foldl (fun s d =>
      let y := s.ctx d
      s.setCtx { y with leaves := y.leaves.flatMap fun l => l.rest onPage }) s)

/-- Pages of a global range an operation works on, as its context translates them now. -/
def State.opPages (s : State) (o : EngOp) : List Nat :=
  (globalFields o.kind o.desc o.ext).flatMap fun va =>
    (List.range ((va.toNat % 65536 + dLen o.desc + 65535) / 65536)).filterMap fun k =>
      (s.pa? o.ctx (va.toNat / 65536 * 65536 + 65536 * k) false).map (· / 65536)

/-- Whether an operation stands in a pair's matrix queue or is a sequence, and so ends in its own turn (R129, R244). -/
def EngOp.endsInTurn (o : EngOp) : Bool :=
  o.isSequence || match o.kind with | .mma | .mmaCfg | .mmaRel | .mmaClr => true | _ => false

/-- Operations of a subtree in flight against a withdrawn resource end with status 11 (R408). -/
def State.revoke (s : State) (root : Nat) (hit : EngOp → Bool) : State :=
  (s.ops.filter fun o => s.inSubtree root o.ctx && !o.finished && hit o).foldl (fun s o =>
    let s := s.modOp o.id fun o => { o with waiting := false }
    if o.endsInTurn then s.modOp o.id fun o => { o with status := 11 } else s.endOp o.id 11) s

/-- Whether an operation reads or writes a vault of one of the quays: a matrix operation the tile of its follower, and at
work its rows. -/
def State.opTouches (s : State) (qs : List Nat) (o : EngOp) : Bool :=
  let u := s.unit (pairOf o.quay)
  let rows := u.running && u.queue.head? == some o.id &&
    [0, 1].any fun h => (s.mmaSource o u.desc h).any fun x => qs.contains x.1
  !qs.contains o.quay &&
    ((s.scoredDests o.quay o.ctx o.kind o.desc).any (fun d => qs.contains d.1) ||
      (s.refSources o.quay o.ctx o.kind o.desc).any (fun d => qs.contains d.1) ||
      o.endsInTurn && (qs.contains (o.quay + 1) || rows))

/-! ### `ctx.take` (R408, R430) -/

/-- A cooperative launch with a workgroup on a withdrawn quay becomes non-resident, now (R430). -/
def State.markNonres (s : State) (qs : List Nat) : State :=
  { s with launches := s.launches.map fun l =>
      if recCoop l.record && s.groups.any (fun g => g.launch == some l.id && qs.contains g.quay) then
        { l with nonres := true, since := s.clock } else l }

/-- Take quays (R408, R379, R151). -/
def State.takeQuays (s : State) (n : Nat) (o : CtxOp) : State :=
  let t := o.targetOf
  let code := s.childCode o false
  let qs := o.quays
  if code ≠ 0 then s.ctxEnd n code 0
  else if o.word 2 / 4 % 64 ≠ 0 ∨ o.word 2 / 2 ^ 9 ≠ 0 ∨ o.unused [2, 4, 5, 6, 7] = false then s.ctxEnd n 3 0
  else if qs.any fun q => !s.holdsQuay t q then s.ctxEnd n 2 0
  else
    let s := (s.markNonres qs).revoke t (s.opTouches qs)
    let r := s.beginPreempt t qs ((o.word 2).testBit 8) true
    r.2.ctxAwait n fun o => { o with waits := [r.1], hands := qs, count := qs.length }

/-- Take a grant of memory (R408, R419, R420). -/
def State.takeMemory (s : State) (n : Nat) (o : CtxOp) : State :=
  let t := o.targetOf
  let x := s.ctx t
  let code := s.childCode o false
  if code ≠ 0 then s.ctxEnd n code 0
  else if o.word 2 / 4 % 64 ≠ 0 ∨ o.word 2 / 2 ^ 9 ≠ 0 ∨ o.unused [2, 3] = false then s.ctxEnd n 3 0
  else
    match x.grants.find? fun g => g.idx == o.word 3 with
    | none => s.ctxEnd n 3 0
    | some g =>
      let bad := fun (l : Leaf) => l.grant == g.idx
      let gone := (x.leaves.flatMap fun l => l.bad bad).map fun l => l.pa / 65536
      let s := s.revoke t fun e => (s.opPages e).any gone.contains
      let r := s.clearLeaves t bad
      let y := r.2.ctx t
      let s := r.2.setCtx { y with grants := y.grants.filter fun k => k.idx != g.idx }
      let lost := (s.ctxs.filter fun d => d.num != 0 && !d.lost && gone.any fun p =>
        overlaps (p * 65536) 65536 d.save d.areaLen).map (·.num)
      let s := lost.foldl (fun s d => let z := s.ctx d; s.setCtx { z with run := false }) s
      let p := lost.foldl (fun (a : List Nat × State) d =>
        let b := a.2.beginPreempt d (a.2.subtreeQuays d) true false
        (a.1 ++ [b.1], b.2)) ([], s)
      p.2.ctxAwait n fun o => { o with waits := p.1, hands := lost, pages := r.1.map fun k => (k, false) }

/-- The holders of a queue down the tree: child, its queue, and those it was given on to. -/
def State.queueChain (s : State) (c q : Nat) : Nat → List (Nat × Nat)
  | 0 => [(c, q)]
  | k + 1 =>
    match (s.queue c q).lentTo with
    | some (d, r) => (c, q) :: s.queueChain d r k
    | none => [(c, q)]

/-- Take a queue (R408): served no more from the next command boundary; the issuer's own comes back. -/
def State.takeQueue (s : State) (n : Nat) (o : CtxOp) : State :=
  let t := o.targetOf
  let cq := bitsOf (o.word 3) 8 6
  let code := if o.nodeOnRoot then 0 else s.childCode o false
  let x := s.queue t cq
  let chain := s.queueChain t cq 8
  if code ≠ 0 then s.ctxEnd n code 0
  else if o.word 2 / 4 % 64 ≠ 0 ∨ o.word 2 / 2 ^ 9 ≠ 0 ∨ o.unused [2, 3] = false ∨ o.word 3 % 256 ≠ 0 ∨ o.word 3 / 2 ^ 14 ≠ 0 then
    s.ctxEnd n 3 0
  else if x.en = false ∧ x.lentTo = none then s.ctxEnd n 2 0
  else if chain.any fun y => (s.queue y.1 y.2).waitOp.isSome then s
  else
    let s := chain.foldl (fun s y => (s.setQueue y.1 { n := y.2 }).revokePosts y.1 y.2) s
    let back := (s.ctx o.issuer).queues.find? fun k => k.lentTo == some (t, cq)
    let s := match back with
      | some k => s.setQueue o.issuer { k with desc := k.withdrawn.getD 0, withdrawn := none, lentTo := none }
      | none => s
    s.ctxEnd n 0 0

/-- Take energy (R408, R441). -/
def State.takeEnergy (s : State) (n : Nat) (o : CtxOp) : State :=
  let code := s.childCode o false
  if code ≠ 0 then s.ctxEnd n code 0
  else if o.word 2 / 4 % 64 ≠ 0 ∨ o.word 2 / 2 ^ 9 ≠ 0 ∨ o.unused [2, 3] = false then s.ctxEnd n 3 0
  else ({ s with quota := s.quota ++ [.shrink o.targetOf (o.word 3)] } : State).ctxEnd n 0 0

/-! ### `ctx.map` and `ctx.unmap` (R409, R410) -/

/-- log2 of a page size from its code (R409). -/
def mapShift (code : Nat) : Nat := if code = 0 then 16 else if code = 1 then 21 else 30

/-- A range is recalled: requests for it wait for the new state (R96). -/
def State.recall (s : State) (lo n : Nat) : State := { s with recalls := if s.recalls.contains (lo, n) then s.recalls else s.recalls ++ [(lo, n)] }

/-- The new state of a range stands: the requests that waited are looked at again (R96). -/
def State.recallEnd (s : State) (lo n : Nat) : State := ({ s with recalls := s.recalls.filter (· != (lo, n)) } : State).unpark

/-- Steps 2 to 4 of R420 for a page, as far as its increment: lines home, replicas swept.  `some true` once it is empty and may
move on, `some false` where its sweep has just begun. -/
def State.emptyPage (s : State) (payer p : Nat) (swept : Bool) : Option Bool × State :=
  let r := ((s.recall (p * 65536) 65536).payBy payer).wantRange (p * 512) 512
  if r.1 = false then (none, r.2)
  else
    let s := r.2
    if (s.frzOf p).st == .frozen && !swept then
      let g := s.genOf p
      let s := (List.range 8).foldl (fun s d => s.post { line := p, body := .sweep d g }) s
      let w : Sweep := { page := p, gen := g, dies := List.range 8, peers := s.peers.map fun m => (m, s.clock), thaw := false }
      (some false, ({ s with sweeps := s.sweeps ++ [w] } : State).sendLinks payer (s.peers.map fun m => LinkOut.sweep m p g))
    else if s.sweeps.any (fun w => w.page == p) || !s.bumpReady p then (none, s)
    else (some true, s)

/-- Physical address and permissions of a page in the issuer's space: present, contiguous, aligned to its size; it allows what all
of its parts allow. -/
def State.mapSource (s : State) (c va size : Nat) : Option (Nat × Bool × Bool) :=
  match s.walk c va false false with
  | .fail _ | .held | .far _ _ _ => none
  | .ok t =>
    let parts := (List.range (2 ^ (size - 16))).map fun k => s.walk c (va + 65536 * k) false false
    let every := fun (f : Xlate → Bool) => parts.all fun r => match r with | .ok u => f u | .fail _ | .held | .far _ _ _ => false
    let same := parts.zipIdx.all fun x => match x.1 with | .ok u => u.pa == t.pa + 65536 * x.2 | .fail _ | .held | .far _ _ _ => false
    if same && t.pa % 2 ^ size == 0 && decide (va + 2 ^ size ≤ 2 ^ 56) then some (t.pa, every (·.w), every (·.x)) else none

/-- The page of `size` at intermediate address `p` of a larger leaf, after the split of R409. -/
def Leaf.piece (l : Leaf) (p size : Nat) : Leaf := { l with ipa := p, pa := l.pa + (p - l.ipa), size := size }

/-- The pages that a `ctx.map` both replaces and maps are emptied before they move on (R420); whether all are. -/
def State.emptyKept (s : State) (n : Nat) (o : CtxOp) (kept : List Nat) : Bool × State :=
  let note (s : State) (k : Nat) : State := s.modCtxOp n fun o => { o with hands := addOnce k o.hands }
  kept.foldl (fun r pg =>
    match r.2.emptyPage o.issuer pg (o.hands.contains (2 * pg + 1)) with
    | (some true, s) => (r.1, s)
    | (some false, s) => (false, note s (2 * pg + 1))
    | (none, s) => (false, note s (2 * pg))) (true, s)

/-- The pages that a `ctx.map` was emptying are recalled no longer (R96). -/
def State.keptEnd (s : State) (n : Nat) (o : CtxOp) (kept : List Nat) : State :=
  ((o.hands.map (· / 2) ++ kept).foldl (fun (s : State) pg => s.recallEnd (pg * 65536) 65536) s).modCtxOp n fun o => { o with hands := [] }

/-- Handle pages of a `ctx.map` in ascending order, as far as the spacing of R105 lets it: a larger leaf is split first (R409), a
leaf that then matches stays, another is replaced, a page that is both replaced and mapped moving on once (R420).  A larger page
takes the generation of its first 64 KiB page (log entry 60), `lim` is BMLIM of an active dirty log. -/
def State.mapPages (s : State) (n : Nat) (o : CtxOp) (lim : Option Nat) (size : Nat) (w x : Bool) : Nat → Nat → State
  | 0, k => s.ctxAwait n fun o => { o with count := k }
  | fuel + 1, k =>
    let t := o.targetOf
    let c := s.ctx t
    let p := o.word 2 + k * 2 ^ size
    let stop (s : State) (code : Nat) : State :=
      (s.keptEnd n o []).ctxAwait n fun o => { o with code := code, count := k }
    match c.grants.find? fun g => decide (g.ipa ≤ p) && decide (p + 2 ^ size ≤ g.ipa + g.len) with
    | none => stop s 2
    | some g =>
      match s.walksWait o.issuer (g.va + (p - g.ipa)) (2 ^ (size - 16)) false with
      | some s => s.modCtxOp n fun o => { o with count := k }
      | none =>
      let source := s.mapSource o.issuer (g.va + (p - g.ipa)) size
      let s := s.dropFar (.tables o.issuer)
      match source with
      | none => stop s 2
      | some (pa, pw, px) =>
        if (w && !(pw && g.w)) || (x && !(px && g.x)) then stop s 2
        else if lim.any fun b => decide (p ≥ b) then stop s 7
        else
          let inside := fun (l : Leaf) => decide (p ≤ l.ipa) && decide (l.ipa < p + 2 ^ size)
          let rest := c.leaves.flatMap fun l => l.rest inside
          let same := fun (l : Leaf) => l.ipa == p && l.size == size && l.pa == pa && l.w == w && l.x == x
          let split := (c.leaves.filter fun l => decide (l.size > size) && decide (l.ipa ≤ p) && decide (p < l.ipa + 2 ^ l.size)).map
            (·.piece p size)
          if c.leaves.any same then s.mapPages n o lim size w x fuel (k + 1)
          else if s.stageRoom t (rest ++ split) = false then stop s 6
          else if split.any same then
            (s.setCtx { c with leaves := rest ++ split }).mapPages n o lim size w x fuel (k + 1)
          else
            let new := (List.range (2 ^ (size - 16))).map (pa / 65536 + ·)
            let kept := ((c.leaves.flatMap fun l => l.bad inside).map (·.pa / 65536)).filter new.contains
            let leaf : Leaf := { ipa := p, size := size, pa := pa, w := w, x := x, gen := 0, grant := g.idx }
            let e := s.emptyKept n o kept
            if s.stageRoom t (rest ++ [leaf]) = false then stop s 6
            else if e.1 = false || new.any fun pg => !e.2.bumpReady pg then e.2.modCtxOp n fun o => { o with count := k }
            else
              let s := (new.foldl State.applyBump e.2).keptEnd n o kept
              let r := s.clearLeaves t inside
              let y := r.2.ctx t
              let s := r.2.setCtx { y with leaves := y.leaves ++ [{ leaf with gen := r.2.genOf (pa / 65536) }] }
              let old := (r.1.filter fun pg => !new.contains pg).map fun pg => (pg, false)
              (s.modCtxOp n fun o => { o with pages := o.pages ++ old }).mapPages n { o with hands := [] } lim size w x
                fuel (k + 1)

/-- Perform `ctx.map`. -/
def State.ctxMapAt (s : State) (n : Nat) (o : CtxOp) : State :=
  let code := s.childCode o false
  let w4 := o.word 4
  let size := mapShift (w4 % 4)
  let ipa := o.word 2
  let len := o.word 3
  if code ≠ 0 then s.ctxEnd n code 0
  else if w4 % 4 = 3 ∨ o.unused [2, 3, 4] = false ∨ bitsOf w4 2 6 ≠ 0 ∨ w4 / 2 ^ 10 ≠ 0 ∨ ipa % 2 ^ size ≠ 0 ∨
      len % 2 ^ size ≠ 0 ∨ ipa + len > 2 ^ 52 then s.ctxEnd n 3 0
  else
    match s.bmlim o o.targetOf with
    | .wait s | .fail _ s => s
    | .ok lim s => s.mapPages n o lim size (w4.testBit 9) (w4.testBit 8) (len / 2 ^ size - o.count) o.count

/-- Where a range of a context's leaves stops being cleared: at the first leaf of which it covers a part, and whose split finds
no table space (R410). -/
def State.splitStop (s : State) (t lo hi : Nat) : Option Nat :=
  let ls := (s.ctx t).leaves
  let meets := fun (l : Leaf) (a : Nat) => decide (l.ipa < a) && decide (a < l.ipa + 2 ^ l.size)
  let after := fun (l : Leaf) =>
    ls.flatMap fun k => k.rest fun p => decide (lo ≤ p.ipa) && decide (p.ipa < min hi (l.ipa + 2 ^ l.size))
  (((ls.filter fun l => meets l lo || meets l hi).mergeSort fun a b => decide (a.ipa ≤ b.ipa)).find? fun l =>
    !s.stageRoom t (after l)).map fun l => max lo l.ipa

/-- Perform `ctx.unmap` of a child's range (R410). -/
def State.ctxUnmapAt (s : State) (n : Nat) (o : CtxOp) : State :=
  let code := s.childCode o false
  let ipa := o.word 2
  let len := o.word 3
  if code ≠ 0 then s.ctxEnd n code 0
  else if o.unused [2, 3] = false ∨ ipa % 65536 ≠ 0 ∨ len % 65536 ≠ 0 ∨ ipa + len > 2 ^ 52 then s.ctxEnd n 3 0
  else
    let stop := s.splitStop o.targetOf ipa (ipa + len)
    let r := s.clearLeaves o.targetOf fun l => decide (ipa ≤ l.ipa) && decide (l.ipa < stop.getD (ipa + len))
    r.2.ctxAwait n fun o =>
      { o with code := if stop.isSome then 6 else 0, count := r.1.length, pages := r.1.map fun k => (k, false) }

/-- A context's leaves after the renewal of the 64 KiB page at an intermediate address with generation `g` (R410). -/
def Ctx.renewed (x : Ctx) (ipa : Nat) (g : BitVec 8) : List Leaf :=
  let here := fun (l : Leaf) => l.ipa == ipa
  (x.leaves.flatMap fun l => l.rest here) ++ (x.leaves.flatMap fun l => l.bad here).map fun l => { l with gen := g }

/-- The renewal by which a context renews one of its own pages (R410). -/
def State.ctxRenewAt (s : State) (n : Nat) (o : CtxOp) : State :=
  let ipa := o.word 2
  let c := o.issuer
  if o.word 0 / 4096 ≠ 0 ∨ o.unused [2, 3] = false ∨ ipa % 65536 ≠ 0 ∨ o.word 3 ≠ 65536 ∨ ipa ≥ 2 ^ 52 then s.ctxEnd n 3 0
  else
    let pa := if c = 0 then some ipa else ((s.ctx c).leafAt ipa).map fun l => l.pa + (ipa - l.ipa)
    match pa with
    | none => s.ctxEnd n 2 0
    | some pa =>
      let pg := pa / 65536
      if s.stageRoom c ((s.ctx c).renewed ipa 0) = false then s.ctxEnd n 6 0
      else if s.bumpReady pg = false then s
      else
        let s := s.applyBump pg
        let g := s.genOf pg
        let x := s.ctx c
        (s.setCtx { x with leaves := x.renewed ipa g }).ctxEnd n 0 g.toNat

/-! ### `ctx.run`, `ctx.stop` (R411, R412) -/

/-- Perform `ctx.run`. -/
def State.ctxRunAt (s : State) (n : Nat) (o : CtxOp) : State :=
  let t := o.targetOf
  let x := s.ctx t
  let code := s.childCode o false
  let mapva := o.word 2
  if code ≠ 0 then s.ctxEnd n code 0
  else if o.unused [2] = false ∨ mapva ≥ 2 ^ 56 then s.ctxEnd n 3 0
  else if x.exhausted then s.ctxEnd n 11 0
  else if x.run then s.ctxEnd n 0 0
  else if s.preempts.any fun p => s.related p.root t && !p.only then s
  else
    match (if mapva = 0 then .ok (List.replicate 256 0xFF) s else s.ctxLoad o o.issuer mapva 256 : Asked (List Byte)) with
    | .fail _ s => s.ctxEnd n 2 0
    | .wait s => s
    | .ok tb s =>
      let s := s.dropFar o.waiter
      let s := s.setCtx { x with run := true }
      let ds := (s.ctxs.map (·.num)).filter fun d => s.inSubtree t d && s.runs d 9 && !(s.ctx d).lost
      let s := ds.foldl (fun s d => s.header (s.ctx d) 0 (leBytes 8 0)) s
      let plan := ds.flatMap fun d =>
        let y := s.ctx d
        (List.range y.maxq).filterMap fun j =>
          if s.holdsSect y j then
            let b := (tb.getD j 0xFF).toNat
            let q := if d = t ∧ b ≠ 255 then some b else y.qtab.getD j none
            q.bind fun q => if s.assignee q == d && !(s.handovers.any fun h => h.quay == q) then some (d, j, q) else none
          else none
      let held := match o.src with | .op id => some id | .node _ => none
      let s := plan.foldl (fun s y => s.addRestore y.1 y.2.1 y.2.2 o.reach held) s
      s.ctxAwait n fun o => { o with count := plan.length }

/-- Perform `ctx.stop` as far as its pre-emption. -/
def State.ctxStopAt (s : State) (n : Nat) (o : CtxOp) : State :=
  let t := o.targetOf
  let mode := o.word 2 % 4
  let code := s.childCode o (mode == 3)
  if code ≠ 0 then s.ctxEnd n code 0
  else if o.unused [2] = false ∨ o.word 2 > 3 then s.ctxEnd n 3 0
  else
    let x := s.ctx t
    let s := s.setCtx { x with run := false }
    let r := s.beginPreempt t (s.subtreeQuays t) (mode != 0) false
    r.2.ctxAwait n fun o => { o with waits := [r.1] }

/-- MODE 3 once its threads have ended (R412): every grant returns to its giver, and the stages of the subtree end; R103 lets no
page generation move for it. -/
def State.giveBack (s : State) (n : Nat) (o : CtxOp) : State :=
  let t := o.targetOf
  let cs := t :: s.below t
  let s : State := { s with ready := s.ready.filter fun k => !cs.contains (taskCtx k.record) }
  let qs := s.subtreeQuays t
  let s := cs.foldl (fun s c =>
    let x := s.ctx c
    s.setCtx { x with leaves := [], grants := [], queues := [] }) s
  let mine := (s.ctx o.issuer).queues.map fun k =>
    if k.lentTo.any (fun y => y.1 == t) then { k with desc := k.withdrawn.getD 0, withdrawn := none, lentTo := none } else k
  let p := s.ctx o.issuer
  let s := s.setCtx { p with queues := mine }
  let s : State := { s with handovers := s.handovers.filter (fun h => !qs.contains h.quay) ++
                              qs.map fun q => { quay := q, old := s.assignee q, new := o.issuer } }
  s.modCtxOp n fun o => { o with phase := 3, hands := qs }

/-- MODE 3 (R412): the launches of the subtree are closed one after the other, each with its completion record, and then the
rest is given back. -/
def State.releaseSubtree (s : State) (n : Nat) (o : CtxOp) : State :=
  let cs := o.targetOf :: s.below o.targetOf
  match s.launches.find? fun l => cs.contains l.ctx with
  | none => s.giveBack n o
  | some l =>
    match s.recordWrite (.launch l.id) l.ctx (recDone l.record) (leBytes 32 (l.doneRecord s.clock).toNat) with
    | .wait s => s
    | .ok _ s | .fail _ s => { s with launches := tdel (fun x => x.id == l.id) s.launches }

/-! ### `en.quota`, `dlog` (R413, R415, R432) -/

/-- Perform `en.quota`. -/
def State.enQuotaAt (s : State) (n : Nat) (o : CtxOp) : State :=
  let code := s.childCode o false
  let expl := (o.word 2).testBit 0
  if code ≠ 0 then s.ctxEnd n code 0
  else if o.unused [2, 3] = false ∨ o.word 2 > 1 ∨ (expl = false ∧ o.word 3 ≠ 0) ∨ o.word 3 > 2 ^ 63 - 1 then s.ctxEnd n 3 0
  else ({ s with quota := s.quota ++ [.set o.targetOf expl (o.word 3)] } : State).ctxEnd n 0 0

/-- Perform `dlog` START: the log of TARGET is the new descriptor's; cached translations are write-unseen and cover at
most 64 KiB (R114, R115, R415, R432).  A descriptor that breaks R114's limits is accepted with CODE 0, and a switch leaves EN
of the old descriptor as it is (DESIGN CHOICE, log entry 83). -/
def State.dlogStartAt (s : State) (n : Nat) (o : CtxOp) : State :=
  let t := o.targetOf
  let x := s.ctx t
  let code := s.childCode o false
  let va := o.word 2
  if code ≠ 0 then s.ctxEnd n code 0
  else if o.unused [2, 3] = false ∨ o.word 3 ≠ 1 ∨ va % 64 ≠ 0 ∨ va ≥ 2 ^ 56 then s.ctxEnd n 3 0
  else
    match s.ctxLine o o.issuer va 64 with
    | .fail _ s => s.ctxEnd n 2 0
    | .wait s => s
    | .ok bs s =>
      let lim := leNat (bs.drop 56)
      let w0 := leNat (bs.take 8)
      if x.grants.any (fun g => decide (g.ipa + g.len > lim)) || x.leaves.any (fun l => decide (l.ipa + 2 ^ l.size > lim)) then
        (s.dropFar o.waiter).ctxEnd n 7 0
      else
        match s.hwWrite o.waiter o.issuer va (leBytes 8 (w0 / 4 * 4 + 1)) with
        | .fault => (s.dropFar o.waiter).ctxEnd n 2 0
        | .wait s => s
        | .done s =>
          let x := s.ctx t
          let s := (s.dropFar o.waiter).setCtx { x with dlog := BitVec.ofNat 64 (va + 1) }
          ({ s with tlb := (s.tlb.filter fun e => e.ctx != t || e.size == 16).map fun e =>
              if e.ctx = t then { e with seen := false } else e } : State).ctxEnd n 0 0

/-- Perform `dlog` STOP (R415): every log entry is already written. -/
def State.dlogStopAt (s : State) (n : Nat) (o : CtxOp) : State :=
  let t := o.targetOf
  let x := s.ctx t
  let code := s.childCode o false
  if code ≠ 0 then s.ctxEnd n code 0
  else if o.unused [2, 3] = false ∨ o.word 3 ≠ 0 ∨ o.word 2 % 64 ≠ 0 ∨ o.word 2 ≥ 2 ^ 56 then s.ctxEnd n 3 0
  else
    let va := (x.dlog.extractLsb' 6 50).toNat * 64
    let off (s : State) : State :=
      let x := s.ctx t
      ((s.dropFar o.waiter).setCtx { x with dlog := x.dlog &&& ~~~1#64 }).ctxEnd n 0 0
    if x.dlog.getLsbD 0 = false then off s
    else
      match s.ctxLine o o.issuer va 8 with
      | .wait s => s
      | .fail _ s => off s
      | .ok bs s =>
        match s.hwWrite o.waiter o.issuer va (leBytes 8 (leNat bs / 2 * 2)) with
        | .wait s => s
        | .done s => off s
        | .fault => off s

/-! ### `part.chg` (R415, R422 to R429) -/

/-- What the check of a change list keeps: the partition state that the entries so far would leave (R428). -/
structure PartState where
  quayPart : Nat → Nat
  slicePart : Nat → Nat
  net : Nat → BitVec 60
  owner : Nat → Nat
  assigned : Nat → Bool

/-- V c and S c of a reservation (R427). -/
def netV (n : BitVec 60) (c : Nat) : Nat := (n.extractLsb' (12 * c) 4).toNat
/-- S c of a reservation. -/
def netS (n : BitVec 60) (c : Nat) : Nat := (n.extractLsb' (12 * c + 4) 8).toNat

/-- Dies on which a partition holds a quay or a slice (R424). -/
def PartState.dies (p : PartState) (k : Nat) : List Nat :=
  (List.range 8).filter fun d => (List.range 32).any (fun q => p.quayPart (32 * d + q) == k) ||
    (List.range 16).any fun i => p.slicePart (16 * d + i) == k

/-- Boundary ports of a partition's route set (R424). -/
def PartState.ports (p : PartState) (k : Nat) : List Nat :=
  let ds := p.dies k
  (ds.flatMap fun a => ds.flatMap fun b => if a < b then routeOf a b else []).eraseDups

/-- The sums of R424 hold at every router and boundary port, and no partition that holds something reserves no channel. -/
def PartState.fits (p : PartState) : Bool :=
  let parts := List.range 32
  let sum := fun (ks : List Nat) (f : BitVec 60 → Nat) => (ks.map fun k => f (p.net k)).foldl (· + ·) 0
  let ok := fun (ks : List Nat) => (List.range 5).all fun c =>
    decide (sum ks (netV · c) ≤ 8) && decide (sum ks (netS · c) ≤ 128)
  ((List.range 8).all fun d => ok (parts.filter fun k => (p.dies k).contains d)) &&
    ((List.range 10).all fun b => ok (parts.filter fun k => (p.ports k).contains b)) &&
    parts.all fun k => (p.dies k).isEmpty || (List.range 5).all fun c => netV (p.net k) c != 0

/-- Fields of a change-list entry (R427). -/
structure ChangeEntry where
  kind : Nat
  part : Nat
  unit : Nat
  slice : Nat
  zero : Bool
  drain : Bool
  net : BitVec 60
  owner : Nat
  deriving DecidableEq, Repr, Inhabited

/-- Read an entry, none where a field breaks R427. -/
def changeEntry (e : BitVec 256) : Option ChangeEntry :=
  let f := fun (lo n : Nat) => (e.extractLsb' lo n).toNat
  let k := f 0 8
  let quayKind := k == 1 || k == 5
  let net := f 64 60
  let ok := decide (1 ≤ k) && decide (k ≤ 5) && f 140 116 == 0 && f 124 4 == 0 && f 34 30 == 0 && f 27 1 == 0 && f 13 3 == 0 &&
    (k == 4 || f 128 12 == 0) && (k == 3 || net == 0) && (quayKind || f 33 1 == 0) &&
    (k == 2 || (f 32 1 == 0 && f 28 4 == 0 && f 24 3 == 0)) && (quayKind || f 16 8 == 0) && (k != 5 || decide (f 16 8 < 32)) &&
    (k != 3 || (List.range 5).all fun c => decide (1 ≤ netV (BitVec.ofNat 60 net) c) && decide (netV (BitVec.ofNat 60 net) c ≤ 8) &&
      decide (5 ≤ netS (BitVec.ofNat 60 net) c) && decide (netS (BitVec.ofNat 60 net) c ≤ 128))
  if ok then
    some { kind := k, part := f 8 5, unit := f 16 8, slice := f 24 3 * 16 + f 28 4, zero := f 32 1 == 1, drain := f 33 1 == 1,
           net := BitVec.ofNat 60 net, owner := f 128 12 }
  else none

/-- Quays an entry moves. -/
def ChangeEntry.quays (e : ChangeEntry) : List Nat :=
  if e.kind = 1 then [e.unit] else if e.kind = 5 then (List.range 8).map (8 * e.unit + ·) else []

/-- Whether an enabled format region, or a page that is not in STATE 00, touches a slice (R428); a region whose enable is still
in progress counts as enabled (log entry 67). -/
def State.sliceBusy (s : State) (sl : Nat) : Bool :=
  let lo := s.domain.mod.toNat * 2 ^ 44 + sl / 16 * 2 ^ 37 + sl % 16 * 2 ^ 33
  (s.regionOver lo (2 ^ 33) fun g => g.en || g.busy) || s.frz.any fun f => f.st != .normal && s.homeSlice (f.page * 65536) == sl

/-- Check one entry against the state left by those before it; a quay or slice already in PART is accepted as it is (R428, log
entry 76). -/
def State.checkEntry (s : State) (p : PartState) (e : ChangeEntry) : Option PartState :=
  let upd := fun (f : Nat → Nat) (ks : List Nat) (v : Nat) => fun k => if ks.contains k then v else f k
  let next : Option PartState :=
    match e.kind with
    | 1 | 5 =>
      let moved := e.quays.filter fun q => p.quayPart q != e.part
      if moved.any s.absent.contains then none
      else some { p with quayPart := upd p.quayPart moved e.part, assigned := fun q => p.assigned q && !moved.contains q }
    | 2 =>
      if p.slicePart e.slice = e.part then some p
      else if s.sliceBusy e.slice then none else some { p with slicePart := upd p.slicePart [e.slice] e.part }
    | 3 => some { p with net := fun k => if k = e.part then e.net else p.net k }
    | _ =>
      let ok := e.owner == 0 || ((s.ctx e.owner).vf && s.ctxLive e.owner && !(s.ctx e.owner).lost)
      let given := (List.range 256).any fun q => p.quayPart q == e.part && p.assigned q
      if ok && !given then some { p with owner := upd p.owner [e.part] e.owner } else none
  next.bind fun p => if p.fits then some p else none

/-- Index of the first entry that fails, if any (R428). -/
def State.checkList (s : State) : PartState → List (Option ChangeEntry) → Nat → Option Nat
  | _, [], _ => none
  | _, none :: _, k => some k
  | p, some e :: es, k =>
    match s.checkEntry p e with
    | none => some k
    | some p => s.checkList p es (k + 1)

/-- The partition state as it stands. -/
def State.partState (s : State) : PartState :=
  { quayPart := s.partOfQuay, slicePart := s.partOfSlice,
    net := fun k => ((s.partNet.find? fun x => x.1 == k).map (·.2)).getD 0, owner := fun k => kvGet k 0 s.partOwner,
    assigned := fun q => s.assignee q != 0 }

/-- The entries of a change list, as the root translates it (R427). -/
def State.changeList (s : State) (o : CtxOp) (va count : Nat) : Asked (List (BitVec 256)) :=
  askEach (fun s k => (s.ctxLine o 0 (va + 32 * k) 32).andThen fun bs s => .ok (BitVec.ofNat 256 (leNat bs)) s) (List.range count) s

/-- Perform the check of `part.chg`; `hands` names the quays of the list from then on (R429). -/
def State.partChgAt (s : State) (n : Nat) (o : CtxOp) : State :=
  let va := o.word 2
  let count := o.word 3
  if o.targetOf ≠ 0 ∨ o.issuer ≠ 0 then s.ctxEnd n 1 0
  else if o.word 0 / 4096 ≠ 0 ∨ o.unused [2, 3] = false ∨ va % 32 ≠ 0 ∨ va ≥ 2 ^ 56 ∨ count = 0 ∨ count > 256 then s.ctxEnd n 3 0
  else
    match s.changeList o va count with
    | .fail _ s => s.ctxEnd n 2 0
    | .wait s => s
    | .ok bs s =>
      let s := s.dropFar o.waiter
      let es := bs.map changeEntry
      match s.checkList s.partState es 0 with
      | some k => s.ctxEnd n 9 k
      | none =>
        s.modCtxOp n fun o => { o with phase := 2, hands := es.flatMap fun e => e.elim [] (·.quays), count := 0, list := bs }

/-- Apply one quay of an entry (R429): a quay of another context is pre-empted, saved and handed over; the partition
changes with the hand-over, or at once.  True once the quay is settled. -/
def State.applyQuay (s : State) (n : Nat) (part : Nat) (drain : Bool) (q : Nat) : Bool × State :=
  if s.partOfQuay q = part then (!(s.handovers.any fun h => h.quay == q), s)
  else if s.handovers.any fun h => h.quay == q then (false, s)
  else if s.assignee q = 0 then (true, { s with quayPart := kvSet q part s.quayPart })
  else
    match s.preempts.find? fun p => p.quays == [q] && p.only && !p.retire with
    | some _ => (false, s)
    | none =>
      match s.ctxq[n]? with
      | none => (false, s)
      | some o =>
        if o.waits.contains q then
          (false, ({ s with handovers := s.handovers ++ [{ quay := q, old := s.assignee q, new := 0, part := some part }] } : State).modCtxOp
            n fun o => { o with waits := o.waits.filter (· != q) })
        else
          let s := s.markNonres [q]
          let r := s.beginPreempt (s.assignee q) [q] drain true
          (false, r.2.modCtxOp n fun o => { o with waits := o.waits ++ [q] })

/-- Apply an entry of KIND 2 (R70, R429): every line comes home, the replicas that its lines have and those the slice holds
go, memory is zeroed where it is asked. -/
def State.applySlice (s : State) (e : ChangeEntry) : Bool × State :=
  if s.partOfSlice e.slice = e.part then (true, s)
  else
    let lo := s.domain.mod.toNat * 2 ^ 44 + e.slice / 16 * 2 ^ 37 + e.slice % 16 * 2 ^ 33
    let r := ((s.recall lo softEnd).payBy 0).wantRange (lo / 128) (softEnd / 128)
    if r.1 = false then (false, r.2)
    else
      let s := r.2
      let inSlice := fun (line : Nat) => decide (lo / 128 ≤ line) && decide (line < (lo + softEnd) / 128)
      let s : State := { s with replicas := s.replicas.filter fun x => !inSlice x.line && x.holder != sliceHolder e.slice }
      let pages := (List.range (softEnd / 65536)).map (lo / 65536 + ·)
      if e.zero && pages.any fun p => !s.bumpReady p then (false, s)
      else
        let s := if e.zero then
            let s : State := { s with mem := s.mem.filter (fun c => !(decide (lo ≤ c.1) && decide (c.1 < lo + softEnd))),
                                      poisoned := s.poisoned.filter fun l => !inSlice l }
            pages.foldl State.applyBump (s.charge (meterChan e.slice) 0 10 softEnd)
          else s
        (true, ({ s with sliceOwner := kvSet e.slice e.part s.sliceOwner } : State).recallEnd lo softEnd)

/-- PARTITION_ENTRY_APPLY (R429): one turn at the entry the operation is at; true once it is applied. -/
def State.applyEntry (s : State) (n : Nat) (e : ChangeEntry) : Bool × State :=
  match e.kind with
  | 1 | 5 => e.quays.foldl (fun a q => let r := a.2.applyQuay n e.part e.drain q; (a.1 && r.1, r.2)) (true, s)
  | 2 => s.applySlice e
  | 3 => (true, { s with partNet := kvSet e.part e.net s.partNet })
  | _ => (true, { s with partOwner := kvSet e.part e.owner s.partOwner })

/-- One turn of a change list that has passed its check. -/
def State.partChgTurn (s : State) (n : Nat) (o : CtxOp) : State :=
  match o.list[o.count]? with
  | none => s.ctxEnd n 0 o.count
  | some b =>
    let r := match changeEntry b with
      | some e => s.applyEntry n e
      | none => (true, s)
    if r.1 then r.2.modCtxOp n fun o => { o with count := o.count + 1 } else r.2

/-! ### Completion (R403, R404, R412, R420) -/

/-- One turn of the withdrawal of an operation's pages (R420): each is emptied, then its generation moves on. -/
def State.withdrawPage (s : State) (n : Nat) (o : CtxOp) : State :=
  match o.pages with
  | [] => s
  | (p, swept) :: rest =>
    match s.emptyPage o.issuer p swept with
    | (none, s) => s
    | (some false, s) => s.modCtxOp n fun o => { o with pages := (p, true) :: rest }
    | (some true, s) => ((s.applyBump p).recallEnd (p * 65536) 65536).modCtxOp n fun o => { o with pages := rest }

/-- The saved state of a subtree ends (R412): its sections end, and its headers mark none; slots of quays that are no longer
assigned become empty (R383). -/
def State.endSaved (s : State) (t : Nat) : State :=
  let s := (s.sectionsOf t).foldl State.endSection s
  (t :: s.below t).foldl (fun s d => (s.header (s.ctx d) 0x10 (leBytes 32 0)).freeSlotsOf d) s

/-- CODE of an operation that has taken effect on TARGET (R393, R404). -/
def State.lostCode (s : State) (o : CtxOp) : Nat := if (s.ctx o.targetOf).lost then 8 else o.code

/-- What follows the waits of an operation that has taken effect. -/
def State.ctxContinue (s : State) (n : Nat) (o : CtxOp) : State :=
  let t := o.targetOf
  match o.func, o.kind with
  | 0x30, 0 =>
    let s : State := { s with handovers := s.handovers ++ o.hands.map fun q => { quay := q, old := s.assignee q, new := o.issuer } }
    s.modCtxOp n fun o => { o with phase := 3 }
  | 0x30, 1 =>
    (o.hands.foldl (fun s d => (s.endSaved d).loseContext d 0 0 0) s).modCtxOp n fun o => { o with phase := 4 }
  | 0x50, mode =>
    let subs := s.sectionsOf t
    if mode < 2 then s.ctxEnd n (s.lostCode o) subs.length
    else (s.endSaved t).modCtxOp n fun o => { o with phase := 4, count := subs.length }
  | 0x48, _ => s.ctxEnd n (s.lostCode o) o.count
  | _, _ => s.ctxEnd n o.code o.count

/-- Once nothing that ended with the operation has still to raise an object or write a record (R412): MODE 3 goes on, the
rest is done. -/
def State.ctxEnded (s : State) (n : Nat) (o : CtxOp) : State :=
  let t := o.targetOf
  let roots := if o.func = 0x50 then [t] else o.hands
  if roots.any s.endingIn then s
  else if o.func ≠ 0x50 then s.ctxEnd n 0 0
  else if o.kind = 3 then s.modCtxOp n fun o => { o with phase := 5 }
  else s.ctxEnd n (s.lostCode o) o.count

/-- The end of a release (R412): the numbers of the subtree are free. -/
def State.freeNumbers (s : State) (n : Nat) (o : CtxOp) : State :=
  if o.func = 0x50 then
    let cs := o.targetOf :: s.below o.targetOf
    ({ s with ctxs := s.ctxs.filter (fun x => !cs.contains x.num), tlb := s.tlb.filter (fun e => !cs.contains e.ctx),
              pgreqs := s.pgreqs.filter fun r => !cs.contains r.ctx } : State).ctxEnd n 0 o.count
  else s.ctxEnd n o.code o.count

/-- The result goes into the descriptor and the object is raised, or to the control node in a STATUS (R403, R446). -/
def State.ctxReport (s : State) (n : Nat) (o : CtxOp) : State :=
  let drop (s : State) : State := s.dropCtxOp n
  let target := if o.func = 0x20 then o.target else o.targetOf
  match o.src with
  | .node tag => (drop s).send 0x82 o.issuer tag.toNat (leBytes 8 0 ++ leBytes 8 o.count ++ leBytes 4 o.code ++ leBytes 4 target)
  | .op id =>
    match s.op? id with
    | none => if s.sections.any fun x => x.ops.any fun e => e.id == id then s else drop s
    | some e =>
      let off := e.a.toNat
      let failed (s : State) (st : Nat) : State := (drop (s.engFault e true)).endOp id st
      if e.finished then drop s
      else if s.opAwake e = false then s
      else if e.status > 1 then failed s e.status
      else
      match s.opBank { e with refsAt := [] } e.quay off 16 with
      | .wait s => s
      | .fail st s => failed s st
      | .ok _ s =>
        let s := (s.chargeVault e.quay e.ctx 16).vstore e.quay (off + 8) (leBytes 4 o.code ++ leBytes 4 o.count) false
        let s := if o.func = 0x20 ∧ o.code = 0 then s.vstore e.quay off (leBytes 8 target) false else s
        (drop s).endOp id 0

/-- Writes of a save area of an operation's subtree are still due (R379). -/
def State.areasPending (s : State) (o : CtxOp) : Bool :=
  let t := if o.func = 0x20 then o.target else o.targetOf
  (t :: s.below t).any fun d => s.areaPending (s.ctx d)

/-- CONTEXT_OP_DONE (R403, R404, R412, R420, R429): the `n`-th operation goes on with what it waits for; once all is done,
writes of save areas included, its result is written and its object raised. -/
def execContextOpDone (n : Nat) (s : State) : Out :=
  .next <|
    match s.ctxq[n]? with
    | none => s
    | some o =>
      match o.phase with
      | 0 => s
      | 9 => if s.areasPending o then s else s.ctxReport n o
      | 2 => s.partChgTurn n o
      | ph =>
        if (s.preempts.any fun p => o.waits.contains p.id) = true ∨ (s.saves.any fun v => v.owner == o.reach && v.restore) = true then s
        else if o.pages.isEmpty = false then s.withdrawPage n o
        else if ph = 4 then s.ctxEnded n o
        else if ph = 5 then s.releaseSubtree n o
        else if ph = 3 then (if s.handovers.any fun h => o.hands.contains h.quay then s else s.freeNumbers n o)
        else if o.func = 0x28 ∧ (s.handovers.any fun h => o.hands.contains h.quay) = true then s
        else s.ctxContinue n o

/-! ### The forms (R394, R403) -/

/-- `ctx.new` (R406). -/
def execCtxNew (site : CtxSite) (s : State) : Out :=
  .next (match site with
    | .fire w => s.ctxFire (.ctxNew site) w 0x20
    | .perform n => s.ctxPerform n 0x20 (fun _ => true) fun o s => s.ctxNewAt n o)

/-- `ctx.give` of quays (R407). -/
def execCtxGiveQuays (site : CtxSite) (s : State) : Out :=
  .next (match site with
    | .fire w => s.ctxFire (.ctxGiveQuays site) w 0x28
    | .perform n => s.ctxPerform n 0x28 (fun o => o.kind == 0) fun o s => s.giveQuays n o)

/-- `ctx.give` of memory (R407). -/
def execCtxGiveMemory (site : CtxSite) (s : State) : Out :=
  .next (match site with
    | .fire w => s.ctxFire (.ctxGiveMemory site) w 0x28
    | .perform n => s.ctxPerform n 0x28 (fun o => o.kind == 1) fun o s => s.giveMemory n o)

/-- `ctx.give` of a queue (R345, R407). -/
def execCtxGiveQueue (site : CtxSite) (s : State) : Out :=
  .next (match site with
    | .fire w => s.ctxFire (.ctxGiveQueue site) w 0x28
    | .perform n => s.ctxPerform n 0x28 (fun o => o.kind == 2) fun o s => s.giveQueue n o)

/-- `ctx.give` of energy (R407). -/
def execCtxGiveEnergy (site : CtxSite) (s : State) : Out :=
  .next (match site with
    | .fire w => s.ctxFire (.ctxGiveEnergy site) w 0x28
    | .perform n => s.ctxPerform n 0x28 (fun o => o.kind == 3) fun o s => s.giveEnergy n o)

/-- `ctx.take` of quays (R408). -/
def execCtxTakeQuays (site : CtxSite) (s : State) : Out :=
  .next (match site with
    | .fire w => s.ctxFire (.ctxTakeQuays site) w 0x30
    | .perform n => s.ctxPerform n 0x30 (fun o => o.kind == 0) fun o s => s.takeQuays n o)

/-- `ctx.take` of memory (R408). -/
def execCtxTakeMemory (site : CtxSite) (s : State) : Out :=
  .next (match site with
    | .fire w => s.ctxFire (.ctxTakeMemory site) w 0x30
    | .perform n => s.ctxPerform n 0x30 (fun o => o.kind == 1) fun o s => s.takeMemory n o)

/-- `ctx.take` of a queue (R408). -/
def execCtxTakeQueue (site : CtxSite) (s : State) : Out :=
  .next (match site with
    | .fire w => s.ctxFire (.ctxTakeQueue site) w 0x30
    | .perform n => s.ctxPerform n 0x30 (fun o => o.kind == 2) fun o s => s.takeQueue n o)

/-- `ctx.take` of energy (R408). -/
def execCtxTakeEnergy (site : CtxSite) (s : State) : Out :=
  .next (match site with
    | .fire w => s.ctxFire (.ctxTakeEnergy site) w 0x30
    | .perform n => s.ctxPerform n 0x30 (fun o => o.kind == 3) fun o s => s.takeEnergy n o)

/-- `ctx.map` (R409). -/
def execCtxMap (site : CtxSite) (s : State) : Out :=
  .next (match site with
    | .fire w => s.ctxFire (.ctxMap site) w 0x38
    | .perform n => s.ctxPerform n 0x38 (fun _ => true) fun o s => s.ctxMapAt n o)

/-- `ctx.unmap` of a child's range (R410). -/
def execCtxUnmap (site : CtxSite) (s : State) : Out :=
  .next (match site with
    | .fire w => s.ctxFire (.ctxUnmap site) w 0x40
    | .perform n => s.ctxPerform n 0x40 (fun o => o.targetOf != o.issuer) fun o s => s.ctxUnmapAt n o)

/-- `ctx.unmap` that names the issuer: a renewal (R410). -/
def execCtxUnmapRenewal (site : CtxSite) (s : State) : Out :=
  .next (match site with
    | .fire w => s.ctxFire (.ctxUnmapRenewal site) w 0x40
    | .perform n => s.ctxPerform n 0x40 (fun o => o.targetOf == o.issuer) fun o s => s.ctxRenewAt n o)

/-- `ctx.run` (R411). -/
def execCtxRun (site : CtxSite) (s : State) : Out :=
  .next (match site with
    | .fire w => s.ctxFire (.ctxRun site) w 0x48
    | .perform n => s.ctxPerform n 0x48 (fun _ => true) fun o s => s.ctxRunAt n o)

/-- `ctx.stop` in MODE 0 or 1 (R412). -/
def execCtxStop (site : CtxSite) (s : State) : Out :=
  .next (match site with
    | .fire w => s.ctxFire (.ctxStop site) w 0x50
    | .perform n => s.ctxPerform n 0x50 (fun o => decide (o.word 2 % 4 < 2)) fun o s => s.ctxStopAt n o)

/-- `ctx.stop` in MODE 2 (R412). -/
def execCtxStopEnd (site : CtxSite) (s : State) : Out :=
  .next (match site with
    | .fire w => s.ctxFire (.ctxStopEnd site) w 0x50
    | .perform n => s.ctxPerform n 0x50 (fun o => o.word 2 % 4 == 2) fun o s => s.ctxStopAt n o)

/-- `ctx.stop` in MODE 3 (R412). -/
def execCtxStopRelease (site : CtxSite) (s : State) : Out :=
  .next (match site with
    | .fire w => s.ctxFire (.ctxStopRelease site) w 0x50
    | .perform n => s.ctxPerform n 0x50 (fun o => o.word 2 % 4 == 3) fun o s => s.ctxStopAt n o)

/-- `en.quota` (R413). -/
def execEnQuota (site : CtxSite) (s : State) : Out :=
  .next (match site with
    | .fire w => s.ctxFire (.enQuota site) w 0x60
    | .perform n => s.ctxPerform n 0x60 (fun _ => true) fun o s => s.enQuotaAt n o)

/-- `dlog` with START 1 (R415, R432). -/
def execDlogStart (site : CtxSite) (s : State) : Out :=
  .next (match site with
    | .fire w => s.ctxFire (.dlogStart site) w 0x88
    | .perform n => s.ctxPerform n 0x88 (fun o => (o.word 3).testBit 0) fun o s => s.dlogStartAt n o)

/-- `dlog` with START 0 (R415). -/
def execDlogStop (site : CtxSite) (s : State) : Out :=
  .next (match site with
    | .fire w => s.ctxFire (.dlogStop site) w 0x88
    | .perform n => s.ctxPerform n 0x88 (fun o => !(o.word 3).testBit 0) fun o s => s.dlogStopAt n o)

/-- `part.chg` (R415, R428, R429). -/
def execPartChg (site : CtxSite) (s : State) : Out :=
  .next (match site with
    | .fire w => s.ctxFire (.partChg site) w 0x90
    | .perform n => s.ctxPerform n 0x90 (fun _ => true) fun o s => s.partChgAt n o)

end Sys2Proof.Machine
end

