-- ==== Sys2Proof/Machine/Beacon.lean ====
section
/-! DEFINITION. Messages of the beacon port (R445 to R448, R456, R459). -/

namespace Sys2Proof.Machine

/-! ### Headers and order (R445, R446, R448) -/

/-- OP of a message (R445). -/
def BMsg.op (m : BMsg) : Nat := (m.hdr.extractLsb' 0 8).toNat
/-- FN of a message (R445). -/
def BMsg.fn (m : BMsg) : Nat := (m.hdr.extractLsb' 8 12).toNat
/-- TAG of a message (R445). -/
def BMsg.tag (m : BMsg) : Nat := (m.hdr.extractLsb' 20 16).toNat
/-- LEN of a message (R445). -/
def BMsg.len (m : BMsg) : Nat := (m.hdr.extractLsb' 36 16).toNat
/-- PHYS of a message (R445). -/
def BMsg.phys (m : BMsg) : Bool := m.hdr.getLsbD 54
/-- NOTIFY of a message (R445). -/
def BMsg.notify (m : BMsg) : Bool := m.hdr.getLsbD 55
/-- Eight bytes of a body. -/
def BMsg.word (m : BMsg) (k : Nat) : Nat := leNat ((m.body.drop (8 * k)).take 8)
/-- Whether a message counts as ordered: QPOST, CTXOP and PGACK always do (R448). -/
def BMsg.ord (m : BMsg) : Bool := m.hdr.getLsbD 53 || m.op == 3 || m.op == 4 || m.op == 5

/-- Whether a context operation has a form FUNC names (R394, R403). -/
def ctxFunc (f : Nat) : Bool := [0x20, 0x28, 0x30, 0x38, 0x40, 0x48, 0x50, 0x60, 0x88, 0x90].contains f

/-- A message that is taken whole and answered with STATUS 4 (R445, R446): reserved bits, an unlisted OP, a body that is
not the message's, PHYS outside FN 0. -/
def BMsg.malformed (m : BMsg) : Bool :=
  let n := m.body.length
  m.hdr.extractLsb' 56 8 != 0 || m.hdr.getLsbD 52 || m.len != n ||
    match m.op with
    | 1 => n != 16 || m.word 1 == 0 || decide (m.word 1 > 4096) || (m.phys && m.fn != 0)
    | 2 => decide (n < 9) || decide (n > 4104) || (m.phys && m.fn != 0)
    | 3 => n != 40 && n != 72 && n != 136
    | 4 => n != 72 || !ctxFunc (m.word 0)
    | 5 => n != 24 || decide (m.word 2 > 1)
    | 6 => n != 16
    | 7 => n != 32
    | _ => true

/-- STATUS (R446): code; COUNT; CODE in the low and TARGET in the high half of the third word. -/
def State.status (s : State) (m : BMsg) (code count cause : Nat) : State :=
  s.send 0x82 m.fn m.tag (leBytes 8 code ++ leBytes 8 count ++ leBytes 4 cause ++ leBytes 4 0)

/-- Whether every earlier message of a function has been performed (R448). -/
def State.earlierDone (s : State) (n : Nat) (m : BMsg) : Bool :=
  !((s.inbox.take n).any fun x => x.fn == m.fn) &&
    !s.ctxq.any fun o => o.issuer == m.fn && match o.src with | .node _ => true | .op _ => false

/-- Take the `n`-th message of operation `op`, if it is one, is well formed and has its turn: a function that is not live
gives STATUS 1; a failure of the action 2, or 3 with the cause a number from 256 on carries (R446). -/
def State.takeMessage (s : State) (n op : Nat) (act : BMsg → State → Asked State) : State :=
  match s.inbox[n]? with
  | none => s
  | some m =>
    if m.op ≠ op ∨ m.malformed = true ∨ s.dev.failStep ≠ 0 ∨ s.dev.bootStep < 6 ∨ (m.ord = true ∧ s.earlierDone n m = false) then s
    else
      let drop (s : State) : State := { s with inbox := s.inbox.eraseIdx n }
      if s.ctxLive m.fn = false then (drop s).status m 1 0 0
      else
        match act m s with
        | .ok s _ => drop s
        | .wait s => s
        | .fail k s =>
          let s := (drop s).dropFar (.node m.fn m.tag)
          if k < 256 then s.status m k 0 0 else s.status m 3 0 (k - 256)

/-! ### Memory (R447) -/

/-- The agent that a message's accesses are made for. -/
def BMsg.waiter (m : BMsg) : Waiter := .node m.fn m.tag

/-- Forget the answers of other modules that a message has used. -/
def State.nodeDone (s : State) (m : BMsg) : State := s.dropFar m.waiter

/-- Address of a piece in one line (R447), with its generation and, where it was translated, its intermediate address: PHYS
names it; else a failed walk gives STATUS 2, a refusal STATUS 3. -/
def State.nodePa (s : State) (m : BMsg) (phys : Bool) (va : Nat) (write : Bool) : Asked (Nat × BitVec 8 × Option Nat) :=
  let cause (k : BitVec 8) : Asked (Nat × BitVec 8 × Option Nat) := .fail (256 + k.toNat) s
  if phys then
    if va ≥ 2 ^ 52 then cause cNoMem
    else
      match s.paKind va with
      | .control _ _ | .remote _ => .ok (va, 0, none) s
      | _ =>
        match s.homeCheck va write (s.genOf (va / 65536)) 0 noQuay with
        | .serve | .replica => .ok (va, 0, none) s
        | .hold | .stale _ => .wait s
        | .refuse k => cause k
  else
    match s.hwSays m.fn va write with
    | .pa n g ipa | .remote _ n g ipa => .ok (n, g, some ipa) s
    | .miss _ => .fail 2 s
    | .wait => .wait s
    | .table mod a g => .wait (s.askTable m.fn mod a g)
    | .refuse k =>
      -- the control window is open to context 0 (R66)
      match (if k = cCtl ∧ m.fn = 0 then s.pa? 0 va write else none) with
      | some pa => .ok (pa, 0, none) s
      | none => cause k

/-- What another module answered a message (R104, R447, R450): a physical access takes the generation the home holds. -/
def State.nodeFar (s : State) (m : BMsg) (mod pa n : Nat) (gen : BitVec 8) (phys write : Bool) (ask : RemoteAsk) :
    Asked (List Byte) :=
  let said (r : LineSays) (again : BitVec 8 → State → Asked (List Byte)) : Asked (List Byte) :=
    match r with
    | .ok bs md s => if md.poison then .fail (256 + cPoison.toNat) s else .ok bs s
    | .wait s => .wait s
    | .refused k s => .fail (256 + k.toNat) s
    | .stale g s => again g s
  said (s.askFar m.waiter mod pa n gen write none ask) fun g s =>
    if phys ∨ g = gen then said (s.askFar m.waiter mod pa n g write none ask) fun _ s => .wait s else .fail 2 s

/-- The lines of the tables that the walk of a piece reads, at their homes (R88, R107). -/
def State.nodeOwned (s : State) (m : BMsg) (phys : Bool) (va : Nat) : Bool × State :=
  if phys then (true, s.payBy m.fn) else s.walkOwned m.fn va

/-- One piece read at its home, which needs the owner token (R88, R447): poisoned data is refused with its cause. -/
def State.nodeRead (s : State) (m : BMsg) (phys : Bool) (va n : Nat) : Asked (List Byte) :=
  (s.nodePa m phys va false).andThen fun a s =>
    match s.paKind a.1 with
    | .control die off =>
      if n = 8 ∧ off % 8 = 0 then .ok (leBytes 8 (s.controlRead die off).toNat) s else .fail (256 + cCtl.toNat) s
    | .remote mod => s.nodeFar m mod a.1 n a.2.1 phys false (.load n)
    | _ =>
      if s.heldAny (.glob a.1) then .wait (s.waitHeld m.waiter (.glob a.1))
      else
        let w := s.nodeOwned m phys va
        let r := w.2.wantOwner (a.1 / 128)
        if (w.1 && r.1) = false then .wait r.2
        else if (r.2.gmeta (a.1 / 128)).poison then .fail (256 + cPoison.toNat) r.2
        else .ok (r.2.gbytes a.1 n) r.2

/-- Charge the walk of a piece that is translated (R438). -/
def State.nodeWalk (s : State) (m : BMsg) (phys : Bool) (va : Nat) : State :=
  if phys then s else s.chargeWalk (agentPlace 0) m.fn m.fn va

/-- Charge the read of one piece to the function, once its message is done with it (R438). -/
def State.nodeCharge (s : State) (m : BMsg) (phys : Bool) (va : Nat) : State :=
  match s.nodePa m phys va false with
  | .ok a _ =>
    match s.paKind a.1 with
    | .hbm _ _ | .view _ _ _ => (s.nodeWalk m phys va).chargeAt (agentPlace 0) (a.1 / 128) m.fn
    | _ => s
  | _ => s

/-- A write of a translated piece is logged before it is performed (R115). -/
def State.nodeLog (s : State) (m : BMsg) (ipa : Option Nat) : Asked Unit :=
  match ipa with
  | none => .ok () s
  | some i =>
    match s.logPage m.fn i with
    | .done s => .ok () s
    | .wait s => .wait s
    | .fault => .ok () s

/-- One piece that may be written, with its address: every token of its line is at its home (R85, R88); one of another module is
written there. -/
def State.nodeReady (s : State) (m : BMsg) (phys : Bool) (va : Nat) (bs : List Byte) : Asked Nat :=
  (s.nodePa m phys va true).andThen fun a s =>
    match s.paKind a.1 with
    | .control _ off => if bs.length = 8 ∧ off % 8 = 0 then .ok a.1 s else .fail (256 + cCtl.toNat) s
    | .remote mod =>
      let sent := s.remotes.any fun r => r.who == m.waiter && r.pa == a.1 && r.write
      (if sent then .ok () s else s.nodeLog m a.2.2).andThen fun _ s =>
        (s.nodeFar m mod a.1 bs.length a.2.1 phys true (.store bs false)).andThen fun _ s => .ok a.1 s
    | _ =>
      if s.heldAny (.glob a.1) then .wait (s.waitHeld m.waiter (.glob a.1))
      else
        let w := s.nodeOwned m phys va
        let r := w.2.wantAll (a.1 / 128)
        if (w.1 && r.1) = false then .wait r.2 else (r.2.nodeLog m a.2.2).andThen fun _ s => .ok a.1 s

/-- Write one piece at its address (R66, R438, R449). -/
def State.nodeWrite (s : State) (m : BMsg) (pa : Nat) (bs : List Byte) : State :=
  match s.paKind pa with
  | .control die off => s.controlWrite die off (BitVec.ofNat 64 (leNat bs))
  | .remote _ => s
  | _ => (s.gwrite pa bs false).chargeAt (agentPlace 0) (pa / 128) m.fn

/-- How far the pieces of the `n`-th message have come, and what has been read. -/
def State.messagePos (s : State) (n pos : Nat) (data : List Byte) : State :=
  { s with inbox := setAt s.inbox n fun m => { m with pos := pos, data := data } }

/-- The pieces of a range, one after the other in ascending order: `one` performs a piece and gives the bytes read; the `n`-th message
keeps how far it has come. -/
def State.nodePieces (n : Nat) (one : State → Nat × Nat → Asked (List Byte)) :
    List (Nat × Nat) → List Byte → State → Asked (List Byte)
  | [], got, s => .ok got s
  | p :: ps, got, s =>
    match one s p with
    | .ok bs s => nodePieces n one ps (got ++ bs) s
    | .wait s => .wait (s.messagePos n p.1 got)
    | .fail k s => .fail k s

/-- Pieces of `len` bytes from `va` that a message has still to perform. -/
def BMsg.piecesLeft (m : BMsg) (va len : Nat) : List (Nat × Nat) :=
  (cutAt 128 va 0 len (len + 1)).filter fun p => decide (m.pos ≤ p.1)

/-- Write bytes of a function's space for the `n`-th message, line by line. -/
def State.nodeStore (s : State) (n : Nat) (m : BMsg) (phys : Bool) (va : Nat) (bs : List Byte) : Asked Unit :=
  (State.nodePieces n (fun s p =>
    let part := (bs.drop p.1).take p.2
    (s.nodeReady m phys (va + p.1) part).andThen fun a s => .ok [] ((s.nodeWalk m phys (va + p.1)).nodeWrite m a part)) (m.piecesLeft va bs.length) [] s).andThen
      fun _ s => .ok () ((s.nodeDone m).messagePos n 0 [])

/-- Change eight bytes of a function's space as one atomic; the old value is the answer. -/
def State.nodeUpdate (s : State) (m : BMsg) (va : Nat) (f : Nat → Nat) : Asked Nat :=
  let g := fun (bs : List Byte) => leBytes 8 (f (leNat bs))
  (s.nodePa m false va true).andThen fun a s =>
    match s.paKind a.1 with
    | .control _ _ => .fail (256 + cCtl.toNat) s
    | .remote mod =>
      let sent := s.remotes.any fun r => r.who == m.waiter && r.pa == a.1
      (if sent then .ok () s else s.nodeLog m a.2.2).andThen fun _ s =>
        match s.farUpdate m.waiter mod a.1 8 a.2.1 g true with
        | .ok bs _ s => .ok (leNat bs) s
        | .wait s => .wait s
        | .refused k s => .fail (256 + k.toNat) s
        | .stale h s => if h = a.2.1 then .wait s else .fail 2 s
    | _ =>
      if s.heldAny (.glob a.1) then .wait (s.waitHeld m.waiter (.glob a.1))
      else
        let w := s.nodeOwned m false va
        let r := w.2.wantAll (a.1 / 128)
        if (w.1 && r.1) = false then .wait r.2
        else if (r.2.gmeta (a.1 / 128)).poison then .fail (256 + cPoison.toNat) r.2
        else
          (r.2.nodeLog m a.2.2).andThen fun _ s =>
            let bs := s.gbytes a.1 8
            .ok (leNat bs) (((s.nodeWalk m false va).gwrite a.1 (g bs) false).chargeAt (agentPlace 0) (a.1 / 128) m.fn)

/-- MRD (R66, R447): read line by line in ascending order; the bytes go back in RDDATA. -/
def execMrd (n : Nat) (s : State) : Out :=
  .next <| s.takeMessage n 1 fun m s =>
    (State.nodePieces n (fun s p =>
      (s.nodeRead m m.phys (m.word 0 + p.1) p.2).andThen fun bs s => .ok bs (s.nodeCharge m m.phys (m.word 0 + p.1)))
        (m.piecesLeft (m.word 0) (m.word 1)) m.data s).andThen fun bs s => .ok ((s.nodeDone m).send 0x81 m.fn m.tag bs) s

/-- MWR (R66, R447, R449). -/
def execMwr (n : Nat) (s : State) : Out :=
  .next <| s.takeMessage n 2 fun m s =>
    (s.nodeStore n m m.phys (m.word 0) (m.body.drop 8)).andThen fun _ s => .ok (s.status m 0 0 0) s

/-! ### Queues, context operations, answers, counters (R447) -/

/-- How far the `n`-th message has come. -/
def State.messageAt (s : State) (n phase claimed : Nat) : State :=
  { s with inbox := setAt s.inbox n fun m => { m with phase := phase, claimed := claimed } }

/-- Eight bytes of a queue area read with acquire order (R347); the answer of another module stays until the step that uses it
is done. -/
def State.nodeWord (s : State) (m : BMsg) (va : Nat) : Asked Nat :=
  (s.nodeRead m false va 8).andThen fun bs s => .ok (leNat bs) s

/-- QPOST (R347, R447, R448): the claim, the slot and the tail, one after the other; a full queue gives STATUS 5 and is left
as it was. -/
def execQpostMessage (n : Nat) (s : State) : Out :=
  .next <| s.takeMessage n 3 fun m s =>
    let q := m.word 0
    let x := s.queue m.fn q
    if q ≥ 64 ∨ x.en = false then .fail (256 + 0x0F) s
    else
      match m.phase with
      | 0 =>
        (s.nodeWord m (x.base + 0x100)).andThen fun head s =>
          (s.nodeUpdate m (x.base + 0x80) fun claim => if head + x.slots ≤ claim then claim else claim + 1).andThen fun claim s =>
            let s := (s.nodeCharge m false (x.base + 0x100)).nodeDone m
            if head + x.slots ≤ claim then .ok (s.status m 5 0 0) s else .wait (s.messageAt n 1 claim)
      | 1 =>
        (s.nodeStore n m false (x.base + 0x200 + 128 * (m.claimed % x.slots)) (m.body.drop 8)).andThen fun _ s =>
          .wait (s.messageAt n 2 m.claimed)
      | _ =>
        (s.nodeWord m x.base).andThen fun tail s =>
          if tail ≠ m.claimed then .wait (s.nodeDone m)
          else
            (s.nodeStore n m false x.base (leBytes 8 (m.claimed + 1))).andThen fun _ s =>
              let s := s.nodeCharge m false x.base
              let y := s.queue m.fn q
              let s := if m.notify then s.setQueue m.fn { y with notify := y.notify ++ [m.claimed] } else s
              .ok (s.status m 0 m.claimed 0) s

/-- CTXOP (R403, R405, R447): it joins the controller's operations as if the function had issued the form; its STATUS
comes with its result. -/
def execCtxop (n : Nat) (s : State) : Out :=
  .next <| s.takeMessage n 4 fun m s =>
    if m.word 0 = 0x90 ∧ m.fn ≠ 0 then .fail (256 + 0x30) s
    else
      let (r, s) := s.fresh
      let o : CtxOp := { func := BitVec.ofNat 8 (m.word 0), issuer := m.fn, desc := BitVec.ofNat 512 (leNat (m.body.drop 8)),
                         src := .node (BitVec.ofNat 16 m.tag), reach := r }
      let s : State := { s with ctxq := s.ctxq ++ [o] }
      .ok s s

/-- PGACK (R113, R447): the answer to a request that reached the control node. -/
def execPgack (n : Nat) (s : State) : Out :=
  .next <| s.takeMessage n 5 fun m s =>
    let mine := fun (x : PgReq) => x.toNode && x.owner == m.word 0 && x.reqid == some (BitVec.ofNat 16 (m.word 1))
    .ok ((s.ackRequest mine (m.word 2 == 1)).status m 0 0 0) s

/-- ENREAD (R413, R446): USED, or `sy.quota`, of the function or a descendant. -/
def execEnread (n : Nat) (s : State) : Out :=
  .next <| s.takeMessage n 6 fun m s =>
    let c := m.word 0
    if c ≥ 4096 ∨ s.ctxLive c = false ∨ s.inSubtree m.fn c = false ∨ m.word 1 > 1 then .fail (256 + 0x31) s
    else
      let v := if m.word 1 = 0 then (s.ctx c).used else (s.ctx c).quotaWord
      .ok (s.send 0x88 m.fn m.tag (leBytes 8 v.toNat)) s

/-! ### Attestation (R459) -/

/-- The stream of an attestation over a nonce. -/
def State.attestation (s : State) (nonce : List Byte) : List Byte :=
  let d := s.dev
  let said := nonce ++ leBytes 8 d.fuses.serial.toNat ++ leBytes 8 s.clock ++ d.meas.flatMap (fun x => leBytes 64 x.toNat) ++
    leBytes 8 d.failStep
  said ++ (List.range 29792).map (Config.signatureByte (leNat said))

/-- ATTEST (R456, R459): answered in eight ATTRESP messages, one ATTEST at a time in arrival order; one that comes before
boot step 6 is done waits, unless the boot has failed. -/
def execAttest (n : Nat) (s : State) : Out :=
  .next <|
    match s.inbox[n]? with
    | none => s
    | some m =>
      if m.op ≠ 7 ∨ m.malformed = true ∨ ((s.inbox.take n).any fun x => x.op == 7) = true ∨
          (s.dev.bootStep < 6 ∧ s.dev.failStep = 0) ∨ (m.ord = true ∧ s.earlierDone n m = false) then s
      else
        let s : State := { s with inbox := s.inbox.eraseIdx n }
        if s.ctxLive m.fn = false then s.status m 1 0 0
        else
          let bs := s.attestation m.body
          (List.range 8).foldl (fun s k =>
            s.send 0x87 m.fn m.tag (leBytes 8 (k + 8 * 256) ++ (bs.drop (4096 * k)).take 4096)) s

/-- MALFORMED_MESSAGE (R445, R446, R456): answered with STATUS 4, nothing performed; after a failed boot every message but
ATTEST is. -/
def execMalformedMessage (n : Nat) (s : State) : Out :=
  .next <|
    match s.inbox[n]? with
    | none => s
    | some m =>
      if m.malformed || (s.dev.failStep != 0 && m.op != 7) then
        let s : State := { s with inbox := s.inbox.eraseIdx n }
        s.status m 4 0 0
      else s

end Sys2Proof.Machine
end

