-- ==== Sys2Proof/Machine/Coherence.lean ====
section
/-! DEFINITION. Coherence messages at the homes and the caches (R76 to R97), accesses of other modules (R88, R450). -/

namespace Sys2Proof.Machine

/-- Message `n` in flight, and the state without it. -/
def State.takeMsg (s : State) (n : Nat) : Option (NetMsg × State) :=
  (s.net[n]?).map fun m => (m, { s with net := s.net.eraseIdx n, paying := m.payer })

/-! ### At the home -/

/-- Home slice and set of a line's directory entry: 16 ways (R80); the manual gives no index, the model takes the line modulo
8192 (log entry 68). -/
def State.dirSet (s : State) (line : Nat) : Nat × Nat := (s.homeSlice (line * 128), line % 8192)

/-- The entry that must go before a new one fits its set (R80): the least recently allocated of 16. -/
def State.dirVictim (s : State) (line : Nat) : Option Nat :=
  if s.hasDir line then none
  else
    let same := s.dir.filter fun e => s.dirSet e.line == s.dirSet line
    if same.length < 16 then none else same.head?.map (·.line)

/-- Whether a request for a line must wait at its home (R80, R82, R86). -/
def State.lineBusy (s : State) (line : Nat) : Bool :=
  s.collecting.contains line || (s.hasDir line && (s.dirOf line).wip) || s.pers.any (fun p => p.line == line) ||
    s.homeWait.any fun m => m.line == line &&
      match m.body with
      | .gets _ _ _ | .getm _ _ _ | .uncached _ _ _ _ _ _ => true
      | _ => false

/-- A request that fails its checks gets REFUSE (R81, R104). -/
def State.refuseMsg (s : State) (line holder : Nat) (write : Bool) (cause : BitVec 8) (stale : Bool) (gen : BitVec 8) :
    State :=
  s.post { line := line, holder := holder, body := .refuse write cause stale gen }

/-- Directory lookup and FDATA for a frozen line (R92, R436). -/
def State.sendReplica (s : State) (line holder c : Nat) : State :=
  (s.chargeHome line c).post
    { line := line, holder := holder, body := .fdata (s.genOf (line / 512)) (s.gmeta line) }

/-- The checks of R81 before a request of a quay is served: refused, held, answered from a frozen page, or `k`. -/
def State.checked (s : State) (m : NetMsg) (write : Bool) (gen : BitVec 8) (c q : Nat) (k : State → State) : State :=
  if s.lineBusy m.line || s.heldRemotely m.line then s.parkMsg m
  else
    match s.homeCheck (m.line * 128) write gen c q with
    | .refuse cause => s.refuseMsg m.line m.holder write cause false 0
    | .stale g => s.refuseMsg m.line m.holder write 0 true g
    | .hold => s.parkMsg m
    | .replica => s.sendReplica m.line m.holder c
    | .serve =>
      match s.dirVictim m.line with
      | some v => (s.wantAll v).2.parkMsg m
      | none => k (s.chargeHome m.line c)

/-- Serve a GETS (R83, R84): the home needs the owner token; one token goes out, or none where only that one is left. -/
def State.serveGets (s : State) (m : NetMsg) : State :=
  match s.wantOwner m.line with
  | (false, s) => s.parkMsg m
  | (true, s) =>
    let e := s.dirOf m.line
    if e.htok ≥ 2 then
      (s.setDir ({ e with htok := e.htok - 1 }.add m.holder)).post { m with body := .data 1 false (s.gmeta m.line) }
    else s.post { m with body := .data 0 false (s.gmeta m.line) }

/-- GETS (R81 to R84, R92, R93). -/
def execGets (n : Nat) (s : State) : Out :=
  .next <|
    match s.takeMsg n with
    | some (m, s') =>
      match m.body with
      | .gets gen c q => s'.checked m false gen c q fun s => s.serveGets m
      | _ => s
    | none => s

/-- GETM (R81, R85). -/
def execGetm (n : Nat) (s : State) : Out :=
  .next <|
    match s.takeMsg n with
    | some (m, s') =>
      match m.body with
      | .getm gen c q =>
        s'.checked m true gen c q fun s =>
          let e := s.dirOf m.line
          let s := if e.ownh then s.post { m with body := .data e.htok true (s.gmeta m.line) }
            else if 0 < e.htok then s.post { m with body := .tok e.htok } else s
          let s := (e.holders.filter (· != m.holder)).foldl (fun s h =>
            s.post { line := m.line, holder := h, body := .inv m.holder }) s
          s.setDir ({ e with htok := 0, ownh := false, wip := true }.only m.holder)
      | _ => s
    | none => s

/-- Requester number from which on the model gives the home itself one for each access of another module it acts for (R88). -/
def homeHolder : Nat := 4096

/-- The home's own requester number for the access of module `src` under `tag`. -/
def homeAgent (src tag : Nat) : Nat := homeHolder + src + 256 * tag

/-- Send tokens from `src` to a cache: DATA with the owner token, else TOK; to the home that asked, in a PUT. -/
def State.sendTokens (s : State) (line src h n : Nat) (owner : Bool) (md : LineMeta) : State :=
  if n = 0 then s
  else if homeHolder ≤ h then s.post { line := line, holder := src, body := .put n owner md }
  else s.post { line := line, holder := h, body := if owner then .data n true md else .tok n }

/-- Tokens of a line reach its home (R77, R79, R85, R86): kept, or sent on to the writer or to the requester of the active
persistent request. -/
def State.tokensHome (s : State) (line src k : Nat) (owner : Bool) (md : LineMeta) : State :=
  let keep (s : State) : State :=
    let e := s.dirOf line
    ((s.takeData line owner md).setDir { e with htok := e.htok + k, ownh := e.ownh || owner }).unpark
  match s.activePers line with
  | some h => if homeHolder ≤ h then keep s else s.sendTokens line src h k owner md
  | none =>
    if (s.dirOf line).wip then
      match (s.dirOf line).slot 0 with
      | some h => s.sendTokens line src h k owner md
      | none => s
    else keep s

/-- PUT at the home (R77, R79, R85, R86). -/
def execPut (n : Nat) (s : State) : Out :=
  .next <|
    match s.takeMsg n with
    | some (m, s') =>
      match m.body with
      | .put k owner md => s'.tokensHome m.line m.holder k owner md
      | _ => s
    | none => s

/-- WB at the home (R83, R86): the owner token and 255 others come back. -/
def execWb (n : Nat) (s : State) : Out :=
  .next <|
    match s.takeMsg n with
    | some (m, s') =>
      match m.body with
      | .wb md => s'.tokensHome m.line m.holder 256 true md
      | _ => s
    | none => s

/-- DONE at the home (R85). -/
def execDone (n : Nat) (s : State) : Out :=
  .next <|
    match s.takeMsg n with
    | some (m, s') =>
      match m.body with
      | .done => (s'.setDir { s'.dirOf m.line with wip := false }).unpark
      | _ => s
    | none => s

/-! ### At the caches -/

/-- The request of a kind that a cache has out for a line. -/
def State.reqOf (s : State) (h line : Nat) (write : Bool) : Option CohReq :=
  s.reqs.find? fun r => r.holder == h && r.line == line && r.write == write

/-- The request is over. -/
def State.dropReq (s : State) (h line : Nat) (write : Bool) : State :=
  { s with reqs := s.reqs.filter fun r => !(r.holder == h && r.line == line && r.write == write) }

/-- An answer for each of the accesses that asked (R84, R104). -/
def State.answer (s : State) (r : CohReq) (a : CohAns) : State :=
  { s with answers := s.answers ++ r.who.map fun y => { a with holder := r.holder, line := r.line, who := y } }

/-- A one-use read for the accesses that asked (R84). -/
def State.oneUse (s : State) (r : CohReq) (md : LineMeta) : State :=
  s.answer r { holder := r.holder, line := r.line, who := .op 0, oneUse := true, md := md }

/-- A pass or a released write of a quay holds a line (R272, R508). -/
def State.cacheHolds (s : State) (h line : Nat) : Bool :=
  (s.passes.any fun p => p.quay == h && p.holds.any fun l => l.sameUnit (.glob (line * 128))) ||
    s.threads.any fun t => t.quay == h && t.released.any fun r => r.release && r.loc.sameUnit (.glob (line * 128))

/-- Accesses for which a copy came, and which look at it next (R85, R86): the cache gives the line up after them.  Those of an
operation count once every line it has asked for is there. -/
def State.dueAt (s : State) (h line : Nat) (ops : Bool) : Bool :=
  (s.copyOf h line).due.any fun y =>
    match y with
    | .thread q sl blk idx => s.passes.any fun p => p.quay == q && p.slot == sl && p.blk == blk && !p.stalled &&
        (!p.done.contains idx || p.stores.any (·.idx == idx))
    | .write q sl => (s.thread q sl).released.head?.any fun r => r.loc.sameUnit (.glob (line * 128))
    | .op id => ops && !s.reqs.any (fun r => r.who.contains y) && (s.op? id).any fun o => s.opRuns o
    | _ => false

/-- A line that a cache keeps for now: held, or due to an access. -/
def State.cacheKeeps (s : State) (h line : Nat) : Bool := s.cacheHolds h line || s.dueAt h line true

/-- Give up a line to another cache (R85, R86). -/
def State.giveTo (s : State) (h line dest : Nat) : State :=
  let c := s.copyOf h line
  (s.setCopy { c with tokens := 0 }).sendTokens line h dest c.tokens c.owner c.md

/-- Tokens join a copy; data with the owner token, or with the first token, brings its metadata (R60, R76). -/
def Copy.join (c : Copy) (k : Nat) (owner : Bool) (md : LineMeta) : Copy :=
  { c with tokens := c.tokens + k, owner := c.owner || owner, md := if owner || c.tokens == 0 then md else c.md }

/-- The accesses that wait for a line at a cache. -/
def State.askers (s : State) (h line : Nat) : List Waiter :=
  (s.reqs.filter fun r => r.holder == h && r.line == line).flatMap (·.who)

/-- The counting of a writer (R85): at 512 tokens it writes and sends DONE; the accesses that asked come before any that is to
take the line away. -/
def State.countWrite (s : State) (c : Copy) : State :=
  if c.tokens = 512 then
    ((s.setCopy { c with dirty := true, due := s.askers c.holder c.line }).post
      { line := c.line, holder := c.holder, body := .done }).dropReq c.holder c.line true
  else s.setCopy c

/-- The counting of the requester of an active persistent request (R86): at 512 tokens its accesses go on, PDONE is sent. -/
def State.countPers (s : State) (c : Copy) : State :=
  if c.tokens = 512 then
    (((s.setCopy { c with dirty := (s.reqOf c.holder c.line true).isSome, due := s.askers c.holder c.line }).post
      { line := c.line, holder := c.holder, body := .pdone }).dropReq c.holder c.line true).dropReq c.holder c.line false
  else s.setCopy c

/-- Tokens, or DATA, reach a cache (R77, R84, R85): DATA ends the read request that is out, as an installed copy, a one-use
read, or one read before a recorded INV is answered; what is left counts for the write request, or goes back. -/
def State.countTokens (s : State) (h line k : Nat) (owner data : Bool) (md : LineMeta) : State :=
  let c := s.copyOf h line
  let c1 := c.join k owner md
  let writes := (s.reqOf h line true).isSome
  match if data then s.reqOf h line false else none with
  | some r =>
    let s := s.dropReq h line false
    if k = 0 then s.oneUse r md
    else
      match r.inv with
      | some w => ((s.oneUse r md).setCopy c1).giveTo h line w
      | none =>
        if writes then s.countWrite c1
        else if r.noalloc then
          (s.oneUse r md).post { line := line, holder := h, body := .put c1.tokens c1.owner c1.md }
        else s.setCopy { c1 with due := r.who }
  | none =>
    if writes then s.countWrite c1
    else if c.tokens = 0 then (if k = 0 then s else s.post { line := line, holder := h, body := .put k owner md })
    else s.setCopy c1

/-- Tokens reach a cache (R77, R84 to R86): counted for its requests, or sent back, or sent on to the requester of an
active persistent request. -/
def State.tokensArrive (s : State) (h line k : Nat) (owner data : Bool) (md : LineMeta) : State :=
  match s.activePers line with
  | some w =>
    if w ≠ h then s.sendTokens line h w k owner md else s.countPers ((s.copyOf h line).join k owner md)
  | none => s.countTokens h line k owner data md

/-- Lines an L1 holds: 128 KiB (R16). -/
def l1Lines : Nat := 1024

/-- An L1 with more lines than it has room for gives one up: the copy longest there that nothing holds or waits for, else
a replica (R16, R77). -/
def State.fitL1 (s : State) (h : Nat) : State :=
  let mine := s.copies.filter fun c => c.holder == h
  let reps := s.replicas.filter fun r => r.holder == h
  if h ≥ 256 ∨ mine.length + reps.length ≤ l1Lines then s
  else
    match mine.find? fun c => !(s.cacheHolds h c.line || s.reqs.any fun r => r.holder == h && r.line == c.line) with
    | some c => s.putBack h c.line
    | none =>
      match reps with
      | r :: _ => { s with replicas := s.replicas.erase r }
      | [] => s

/-- DATA at its requester (R77, R84, R85); a cache that needs room for the line gives up `victim` (R77). -/
def execData (n : Nat) (victim : Option Nat) (s : State) : Out :=
  .next <|
    match s.takeMsg n with
    | some (m, s') =>
      match m.body with
      | .data k owner md =>
        let s' := match victim with
          | some v => if v = m.line ∨ s'.cacheHolds m.holder v = true then s' else s'.putBack m.holder v
          | none => s'
        ((s'.tokensArrive m.holder m.line k owner true md).fitL1 m.holder).unpark.wakePasses
      | _ => s
    | none => s

/-- TOK at the writer (R85, R86). -/
def execTok (n : Nat) (s : State) : Out :=
  .next <|
    match s.takeMsg n with
    | some (m, s') =>
      match m.body with
      | .tok k => ((s'.tokensArrive m.holder m.line k false false {}).fitL1 m.holder).unpark.wakePasses
      | _ => s
    | none => s

/-- INV at a holder (R85, R272): a held line waits; a GETS without tokens records it. -/
def execInv (n : Nat) (s : State) : Out :=
  .next <|
    match s.takeMsg n with
    | some (m, s') =>
      match m.body with
      | .inv w =>
        let c := s'.copyOf m.holder m.line
        if m.holder = w then s'
        else if s'.cacheKeeps m.holder m.line then s'.parkMsg m
        else
          if (s'.reqOf m.holder m.line false).isSome && c.tokens == 0 then
            { s' with reqs := tmod (fun x => x.holder == m.holder && x.line == m.line && !x.write)
                                (fun x => { x with inv := some w }) s'.reqs }
          else s'.giveTo m.holder m.line w
      | _ => s
    | none => s

/-- FWDS at the owner (R83): the line is written back, 256 tokens and a clean copy stay. -/
def execFwds (n : Nat) (s : State) : Out :=
  .next <|
    match s.takeMsg n with
    | some (m, s') =>
      match m.body with
      | .fwds =>
        let c := s'.copyOf m.holder m.line
        if c.owner = false ∨ c.tokens < 512 then s'
        else if s'.cacheKeeps m.holder m.line then s'.parkMsg m
        else
          (s'.setCopy { c with tokens := 256, owner := false, dirty := false }).post
            { line := m.line, holder := m.holder, body := .wb c.md }
      | _ => s
    | none => s

/-- COLLECT at a holder (R80, R96): all its tokens go home; tokens still on their way to it are waited for. -/
def execCollect (n : Nat) (s : State) : Out :=
  .next <|
    match s.takeMsg n with
    | some (m, s') =>
      match m.body with
      | .collect =>
        let coming := s'.net.any fun x => x.line == m.line && x.holder == m.holder &&
          match x.body with
          | .data _ _ _ | .tok _ => true
          | _ => false
        if coming || s'.cacheKeeps m.holder m.line then s'.parkMsg m else s'.putBack m.holder m.line
      | _ => s
    | none => s

/-- REFUSE at the requester (R104, R266, R269): the accesses that asked learn the cause; a prefetch is dropped. -/
def execRefuse (n : Nat) (s : State) : Out :=
  .next <|
    match s.takeMsg n with
    | some (m, s') =>
      match m.body with
      | .refuse write cause stale gen =>
        let s'' := s'.dropReq m.holder m.line write
        (match s'.reqOf m.holder m.line write with
          | some r =>
            s''.answer r { holder := m.holder, line := m.line, who := .op 0, cause := cause, stale := stale, gen := gen }
          | none => s'').wakePasses
      | _ => s
    | none => s

/-! ### Persistent requests (R86) -/

/-- PERSISTENT_REQUEST (R86): a request unsatisfied after 2,048 cycles. -/
def execPersistentRequest (holder line : Nat) (s : State) : Out :=
  .next <|
    let old := fun (r : CohReq) => r.holder == holder && r.line == line && !r.pers && decide (r.issued + 2048 ≤ s.clock)
    if s.reqs.any old then
      ({ s with reqs := tmod old (fun r => { r with pers := true }) s.reqs }).post
        { line := line, holder := holder, body := .preq }
    else s

/-- Caches other than `h` that hold or have asked for a line. -/
def State.cachesOf (s : State) (line h : Nat) : List Nat :=
  (((s.copies.filter fun c => c.line == line).map (·.holder)) ++ ((s.reqs.filter fun r => r.line == line).map (·.holder))).eraseDups.filter
    (· != h)

/-- A message of a request that a persistent one has taken over. -/
def NetMsg.isRequest (m : NetMsg) (line holder : Nat) : Bool :=
  m.line == line && m.holder == holder &&
    match m.body with
    | .gets _ _ _ | .getm _ _ _ => true
    | _ => false

/-- A request that its persistent form has taken over no longer waits at the home. -/
def State.takenOver (s : State) (line h : Nat) : State :=
  { s with homeWait := s.homeWait.filter fun m => !m.isRequest line h, net := s.net.filter fun m => !m.isRequest line h }

/-- Activate a persistent request (R86 steps 2 and 3): PACT goes out, and what the home has. -/
def State.activate (s : State) (p : Pers) : State :=
  let line := p.line
  let e := s.dirOf line
  let s : State := { s.takenOver line p.holder with
    pers := tset (fun x => x.line == line && x.holder == p.holder) { p with active := true } s.pers }
  let s := (s.cachesOf line p.holder).foldl (fun s h => s.post { line := line, holder := h, body := .pact p.holder }) s
  if homeHolder ≤ p.holder then s
  else
    (s.sendTokens line homeHolder p.holder e.htok e.ownh (s.gmeta line)).setDir
      ({ e with htok := 0, ownh := false, wip := true }.only p.holder)

/-- The checks of R81 for a persistent request (R86): one for a line of a range that is collected before a new state stands goes
first, under the state that stands (R96). -/
def State.persCheck (s : State) (line : Nat) (r : CohReq) : HomeSays :=
  let check := fun (s : State) => s.homeCheck (line * 128) r.write r.gen r.ctx r.quay
  let before : State := { s with recalls := [], fmt := s.fmt.map fun g => { g with ctl := g.ctl &&& ~~~(1#64 <<< 62) } }
  match check s with
  | .hold => (match check before with | .serve => .serve | _ => .hold)
  | x => x

/-- A line of which only read copies are granted: of an enabled format region (R65). -/
def State.readOnlyLine (s : State) (line : Nat) : Bool :=
  (match s.paKind (line * 128) with | .view _ _ _ => true | _ => false) || s.regionOver (line * 128) 128 (·.en)

/-- Serve the oldest persistent request of a line (R86), unless one is being served: under the checks of R81, with room for its
entry (R80); a read of a line of which only read copies are granted takes its one token (R65). -/
def State.nextPers (line : Nat) : Nat → State → State
  | 0, s => s
  | fuel + 1, s =>
    if (s.activePers line).isSome || s.heldRemotely line then s
    else
      match s.pers.find? fun p => p.line == line with
      | none => s
      | some p =>
        let gone (t : State) : State := nextPers line fuel { t with pers := t.pers.erase p }
        if homeHolder ≤ p.holder then s.activate p
        else
          match s.reqs.find? fun r => r.holder == p.holder && r.line == line && r.pers with
          | none => gone s
          | some r =>
            let off := s.takenOver line p.holder
            match s.persCheck line r with
            | .refuse cause => gone (off.refuseMsg line p.holder r.write cause false 0)
            | .stale g => gone (off.refuseMsg line p.holder r.write 0 true g)
            | .hold => s
            | .replica => gone (off.sendReplica line p.holder r.ctx)
            | .serve =>
              match s.dirVictim line with
              | some v => (s.wantAll v).2
              | none =>
                if !r.write && s.readOnlyLine line then
                  gone (off.serveGets { line := line, holder := p.holder, body := .gets r.gen r.ctx r.quay })
                else s.activate p

/-- The next persistent request of a line. -/
def State.servePers (s : State) (line : Nat) : State := nextPers line s.pers.length s

/-- PREQ at the home (R86): a table of 32 entries per slice, in arrival order; the oldest of the line is served. -/
def execPreq (n : Nat) (s : State) : Out :=
  .next <|
    match s.takeMsg n with
    | some (m, s') =>
      match m.body with
      | .preq =>
        match s'.reqs.find? fun r => r.holder == m.holder && r.line == m.line && r.pers with
        | none => s'
        | some _ =>
          if (s'.pers.countP fun p => s'.homeSlice (p.line * 128) == s'.homeSlice (m.line * 128)) ≥ 32 then s'.parkMsg m
          else ({ s' with pers := s'.pers ++ [{ line := m.line, holder := m.holder }] } : State).servePers m.line
      | _ => s
    | none => s

/-- PACT at a cache (R86, R273): holds of uncommitted passes break, every token goes to the requester. -/
def execPact (n : Nat) (s : State) : Out :=
  .next <|
    match s.takeMsg n with
    | some (m, s') =>
      match m.body with
      | .pact w =>
        let hit := fun (p : Pass) => p.live && p.quay == m.holder && p.holds.any fun l => l.sameUnit (.glob (m.line * 128))
        let s' := (s'.passes.filter hit).foldl State.endRemote s'
        let s' : State := { s' with pass := if hit s'.pass then s'.pass.break else s'.pass,
                                    parked := s'.parked.map fun p => if hit p then p.break else p }
        if s'.cacheHolds m.holder m.line || s'.dueAt m.holder m.line false then s'.parkMsg m
        else (s'.giveTo m.holder m.line w).wakePasses
      | _ => s
    | none => s

/-- The persistent request of `h` for a line is over (R86): PDEACT goes out; the next of the line is served. -/
def State.endPers (s : State) (line h : Nat) : State :=
  let s : State := { s with pers := s.pers.filter fun p => !(p.line == line && p.holder == h) }
  ((s.cachesOf line h).foldl (fun s c => s.post { line := line, holder := c, body := .pdeact }) s).servePers line

/-- The home's own request for an access leaves the table, whether or not it is being served (R88). -/
def State.leavePers (s : State) (line h : Nat) : State :=
  if s.activePers line = some h then s.endPers line h
  else { s with pers := s.pers.filter fun p => !(p.line == line && p.holder == h) }

/-- PDONE at the home (R86): PDEACT goes out, the requester is the one holder, the next request of the line is served. -/
def execPdone (n : Nat) (s : State) : Out :=
  .next <|
    match s.takeMsg n with
    | some (m, s') =>
      match m.body with
      | .pdone =>
        let e := s'.dirOf m.line
        ((s'.setDir ({ e with htok := 0, ownh := false, wip := false }.only m.holder)).endPers m.line m.holder).unpark
      | _ => s
    | none => s

/-- PDEACT at a cache (R86): its unfinished requests are issued again, unless they still wait at the home. -/
def execPdeact (n : Nat) (s : State) : Out :=
  .next <|
    match s.takeMsg n with
    | some (m, s') =>
      match m.body with
      | .pdeact =>
        let flying := (s'.net ++ s'.homeWait).any fun x => x.line == m.line && x.holder == m.holder &&
          match x.body with
          | .data _ _ _ | .tok _ | .preq => true
          | _ => false
        let lost := fun (r : CohReq) => r.holder == m.holder && r.line == m.line && !r.pers &&
          !(s'.net ++ s'.homeWait).any fun x => x.line == m.line && x.holder == m.holder &&
            match x.body with
            | .gets _ _ _ => !r.write
            | .getm _ _ _ => r.write
            | _ => false
        if flying then s'
        else
          (s'.reqs.filter lost).foldl (fun s r =>
            s.post { m with body := if r.write then .getm r.gen r.ctx r.quay else .gets r.gen r.ctx r.quay }) s'
      | _ => s
    | none => s

/-! ### Frozen replicas and sweeps (R92, R94) -/

/-- Install a replica once. -/
def State.addReplica (s : State) (r : Replica) : State :=
  if s.replicas.contains r then s else { s with replicas := s.replicas ++ [r] }

/-- Install a replica of a line in a quay's cache, and in the requester's replica slice where its home lies on another
die or module (R92). -/
def State.installReplica (s : State) (r : Replica) (q : Nat) : State :=
  let s := s.addReplica r
  let away := match s.paKind (r.line * 128) with
    | .remote _ => true
    | _ => s.homeSlice (r.line * 128) / 16 != dieOf q
  (match if away then s.replicaSlice q r.line else none with
    | some sl => s.addReplica { r with holder := sliceHolder sl }
    | none => s).fitL1 r.holder

/-- FDATA at its requester (R92): a replica in its cache; `ld.nc` and a watch line install nothing. -/
def execFdata (n : Nat) (s : State) : Out :=
  .next <|
    match s.takeMsg n with
    | some (m, s') =>
      match m.body with
      | .fdata gen md =>
        (match s'.reqOf m.holder m.line false with
          | none => s'
          | some r =>
            let s' := s'.dropReq m.holder m.line false
            if r.noalloc || decide (512 ≤ m.holder) then s'.oneUse r md
            else s'.installReplica { holder := m.holder, line := m.line, gen := gen, md := md } r.quay).unpark.wakePasses
      | _ => s
    | none => s

/-- Die of a cache, slices included. -/
def holderDie (h : Nat) : Nat :=
  if h < 256 then h / 32 else if h < 512 then (h - 256) / 32 else if h < 1024 then h - 512 else (h - 1024) / 16

/-- SWEEP at a die's sweep agent (R94): after every FDATA on its way to the die, the die's replicas of the page go; one of another
module's page, which all eight dies answer, after every read of that page that is out. -/
def execSweep (n : Nat) (s : State) : Out :=
  .next <|
    match s.takeMsg n with
    | some (m, s') =>
      match m.body with
      | .farSweep src =>
        if s'.remotes.any fun r => r.pa / 65536 == m.line && !r.write && r.answer.isNone && r.stale.isNone && r.cause.isNone then
          s'.parkMsg m
        else
          ({ s' with replicas := s'.replicas.filter fun x => x.line / 512 != m.line } : State).sendLinks 0 [.swack src m.line]
      | .sweep die _ =>
        let coming := s'.net.any fun x => x.line / 512 == m.line && holderDie x.holder == die &&
          match x.body with
          | .fdata _ _ => true
          | _ => false
        if coming then s'.parkMsg m
        else
          ({ s' with replicas := s'.replicas.filter fun r => !(r.line / 512 == m.line && holderDie r.holder == die) }).post
            { line := m.line, body := .swack die }
      | _ => s
    | none => s

/-- A thaw whose answers are all in: the page is normal again (R94 step 5). -/
def State.sweepEnd (s : State) (page : Nat) : State :=
  if s.sweeps.any fun w => w.page == page && w.dies.isEmpty && w.peers.isEmpty then
    let s : State := { s with sweeps := s.sweeps.filter fun w => w.page != page }
    let f := s.frzOf page
    (if f.st == .thawing then s.setFrz { f with st := .normal } else s).unpark
  else s

/-- SWACK at the home (R94). -/
def execSwack (n : Nat) (s : State) : Out :=
  .next <|
    match s.takeMsg n with
    | some (m, s') =>
      match m.body with
      | .swack die =>
        ({ s' with sweeps := tmod (fun w => w.page == m.line) (fun w => { w with dies := w.dies.filter (· != die) }) s'.sweeps }).sweepEnd
          m.line
      | _ => s
    | none => s

/-! ### Accesses of other modules (R88, R272, R450) -/

/-- Refuse a request of another module. -/
def State.refuseRemote (s : State) (src tag : Nat) (cause : BitVec 8) (stale : Option (BitVec 8)) : State :=
  s.sendLinks 0 [.refusal src tag cause stale]

/-- Answer a request of another module, with the metadata of the line that was read (R60, R97). -/
def State.answerRemote (s : State) (src tag : Nat) (bs : List Byte) (md : LineMeta) : State :=
  s.sendLinks 0 [.answer src tag bs md]

/-- The home takes a persistent request of its own for an access of another module that has waited 2,048 cycles (R88). -/
def State.homePers (s : State) (m : NetMsg) (h since : Nat) : State :=
  if s.clock < since + 2048 ∨ s.pers.any (fun p => p.line == m.line && p.holder == h) = true ∨
      (s.pers.countP fun p => s.homeSlice (p.line * 128) == s.homeSlice (m.line * 128)) ≥ 32 then s.parkMsg m
  else (({ s with pers := s.pers ++ [{ line := m.line, holder := h }] } : State).servePers m.line).parkMsg m

/-- An access of another module is performed at the home (R88, R438, R502) and answered; an atomic holds its line until its
requester ends the hold (R272). -/
def State.uncachedDone (s : State) (line : Nat) (body : UncBody) (pa src tag : Nat) : State :=
  let s := s.chargeAt (agentPlace 1) line 0
  match body with
  | .load size => s.answerRemote src tag (s.gbytes pa size) (s.gmeta line)
  | .store bs p => (s.gwrite pa bs p).answerRemote src tag [] {}
  | .atomic size =>
    let mine := fun (h : RemoteHold) => h.src == src && h.tag == tag && h.line == line
    let hs := if s.remoteHolds.any mine then s.remoteHolds
      else s.remoteHolds ++ [{ src := src, tag := tag, line := line, since := s.clock }]
    ({ s with remoteHolds := hs } : State).answerRemote src tag (s.gbytes pa size) (s.gmeta line)

/-- UNCACHED_ACCESS (R81, R88, R272, R450): the checks of R81 first, in its order; then performed at the home as the requester
under R82 to R86, with the owner token for a load, all 512 for a store or atomic; the home keeps the tokens.  A frozen line is
answered as FDATA (R92, R452).  A location that another atomic holds is read as it stands before the hold (R272); what comes
under a hold of its own module is performed at once. -/
def execUncachedAccess (n : Nat) (s : State) : Out :=
  .next <|
    match s.takeMsg n with
    | some (m, s') =>
      match m.body with
      | .uncached body pa src tag gen since =>
        let write : Bool := match body with | .load _ => false | _ => true
        let h := homeAgent src tag
        let active := s'.activePers m.line == some h
        if s'.remoteHolds.any fun x => x.line == m.line && x.src == src && x.tag == tag then
          s'.uncachedDone m.line body pa src tag
        else
          match s'.homeCheck pa write gen 0 0 with
          | .refuse c =>
            -- the checks go in the order of R81: the source module before regions and freeze states
            let c := if (c = cFmt ∨ c = cFrozen) ∧ s'.rmaskAllows src pa = false then cPart else c
            (s'.leavePers m.line h).refuseRemote src tag c none
          | .stale g => (s'.leavePers m.line h).refuseRemote src tag cPage (some g)
          | said =>
            if s'.rmaskAllows src pa = false ∧ said ≠ .replica then (s'.leavePers m.line h).refuseRemote src tag cPart none
            else if said = .replica then
              (s'.leavePers m.line h).sendLinks 0
                [.fdata src tag (s'.genOf (m.line / 512)) (s'.gbytes (m.line * 128) 128) (s'.gmeta m.line)]
            else if said = .hold ∧ active = false then s'.parkMsg m
            else if active = false ∧ (s'.lineBusy m.line || (write && s'.heldRemotely m.line)) = true then s'.homePers m h since
            else
              let got : Bool × State :=
                if active then (decide ((s'.dirOf m.line).htok = 512) && (s'.dirOf m.line).ownh, s')
                else if write then
                  let r := s'.wantAll m.line
                  (r.1, { r.2 with collecting := r.2.collecting.filter (· != m.line) })
                else s'.wantOwner m.line
              if got.1 = false then got.2.homePers m h since
              else (got.2.uncachedDone m.line body pa src tag).leavePers m.line h
      | _ => s
    | none => s

/-- Send on a request for a third module, or refuse it where no route leads there (R449). -/
def State.forwardReq (s : State) (m : Nat) (r : RemoteReq) : State :=
  if s.reachable m then s.sendLinks 0 [.forward m r] else s.refuseRemote r.src r.tag cNoMem none

/-- Module that a request is for: a sweep names a page of its sender (R94, R449). -/
def State.requestMod (s : State) (r : RemoteReq) : Nat :=
  match r.ask with
  | .sweep _ => s.domain.mod.toNat
  | _ => bitsOf r.pa 44 8

/-- REMOTE_REQUEST (R88, R94, R272, R293, R449, R450): a frame's request goes to its home, or on to its module. -/
def execRemoteRequest (r : RemoteReq) (s : State) : Out :=
  let gen := BitVec.ofNat 8 r.gen
  let ask := fun (b : UncBody) =>
    s.post { line := r.pa / 128, holder := r.src, body := .uncached b r.pa r.src r.tag gen s.clock }
  .next <|
    if s.requestMod r ≠ s.domain.mod.toNat then s.forwardReq (s.requestMod r) r
    else
    match r.ask with
    | .load size => ask (.load size)
    | .store bs p => ask (.store bs p)
    | .atomic size => ask (.atomic size)
    | .endHold ws =>
      let mine := fun (h : RemoteHold) => h.src == r.src && h.tag == r.tag
      let parked := fun (m : NetMsg) => match m.body with
        | .uncached _ _ src tag _ _ => src == r.src && tag == r.tag
        | _ => false
      let s : State := { s with net := s.net.filter fun m => !parked m, homeWait := s.homeWait.filter fun m => !parked m }
      let h := homeAgent r.src r.tag
      let s := ((s.pers.filter fun p => p.holder == h).map (·.line)).foldl (fun s l => s.leavePers l h) s
      if s.remoteHolds.any mine then
        let s : State := { s with remoteHolds := s.remoteHolds.filter fun h => !mine h }
        ((ws.foldl (fun s x => s.gwrite x.1 x.2 false) s).answerRemote r.src r.tag [] {}).unpark.wakePasses
      else s.answerRemote r.src r.tag [] {}
    | .replica => ask (.load 128)
    | .sweep _ => s.post { line := r.pa / 65536, body := .farSweep r.src }
    | .page thaw =>
      let (id, s) := s.fresh
      { s with farPages := s.farPages ++ [{ id := id, src := r.src, tag := r.tag, pa := r.pa, gen := gen, thaw := thaw }] }

end Sys2Proof.Machine
end

