-- ==== Sys2Proof/Machine/Order.lean ====
section
/-! DEFINITION. Which instruction of a pass is next: the order of memory operations within a block (R190), acquiring
atomics and fences (R277 to R279). -/

namespace Sys2Proof.Machine

/-! ### What a word touches -/

/-- Physical address of a virtual one: through the quay's cached translation, else by a walk. -/
def State.paOf (s : State) (va : Nat) : Option Nat :=
  match s.tlbHit s.pass.quay s.pass.ctx va false with
  | some e => some (e.xlate va).pa
  | none => s.pa? s.pass.ctx va false

/-- The bytes a place names, in pieces of at most 8: one that does not translate names none. -/
def State.pieces (s : State) (p : Place) (n : Nat) : List (Loc × Nat) :=
  match p with
  | .vault q off => [(.vault q off, n)]
  | .virt va =>
    if n ≤ 8 then (s.paOf va.toNat).toList.map fun a => (.glob a, n)
    else ((s.paOf va.toNat).toList ++ (s.paOf (va.toNat + 8)).toList).map fun a => (.glob a, 8)

/-- The pieces of an access of a space; one that is refused has none. -/
def State.piecesAt (s : State) (sp : Space) (ea : Word) (n al : Nat) : List (Loc × Nat) :=
  match s.place sp ea n al with
  | .ok p => s.pieces p n
  | .error _ => []

/-- Space and bytes of an atomic or `cas`. -/
def atomShape : Instr → Option (AtSpace × Nat)
  | .atomAdd t sp _ | .atomSub t sp _ | .atomMin t sp _ | .atomMax t sp _ | .atomInc t sp _ | .atomDec t sp _ =>
    some (sp, atBytes t)
  | .atomAnd n sp _ | .atomOr n sp _ | .atomXor n sp _ | .atomExch n sp _ | .cas n sp _ => some (sp, widthBytes n)
  | .atomFaddF32 sp _ | .atomFadd2Bf16 sp _ => some (sp, 4)
  | .casB128 sp _ => some (sp, 16)
  | _ => none

/-- Whether an engine form reads a second descriptor (R291, R292). -/
def isSeq : Instr → Bool
  | .seqGemm _ | .seqAttn _ => true
  | _ => false

/-- The bytes an instruction reads when it fires with the data of its ports a and b (R190, R276, R285). -/
def State.reads (s : State) (i : Instr) (f : Form) (w : Fields) (a b : Word) : List (Loc × Nat) :=
  let own (v : Word) : Loc := .vault s.pass.quay (v.extractLsb' 0 24).toNat
  match i with
  | .ld t sp _ => s.piecesAt sp (a + Fields.off15 w) (ldBytes t) (ldBytes t)
  | .ldNc n _ => s.piecesAt .g (a + Fields.off15 w) (sizeBytes n) (sizeBytes n)
  | .ldv sp _ => s.piecesAt sp (a + Fields.off15 w) 16 8
  | _ =>
    match atomShape i with
    | some (sp, n) =>
      s.piecesAt (atSpace sp) (a + Fields.off10 w) n n ++ (match i with | .casB128 _ _ => [(own b, 32)] | _ => [])
    | none =>
      if f.cls = 0xB then
        let d : BitVec 256 := BitVec.ofNat 256 (leNat (s.locRead (Fields.lsid w) (own a) 32))
        (own a, 32) :: if isSeq i then [(own (dSrc d), 64)] else []
      else []

/-- The bytes a store-class instruction may give to a higher-LSID load of its block, from the data of its port a: those
of a store, of an atomic's shadow, and of `co.init` (R190, R272, R335). -/
def State.stores (s : State) (i : Instr) (w : Fields) (a : Word) : List (Loc × Nat) :=
  match i with
  | .st n sp _ => s.piecesAt (stSpace sp) (a + Fields.off15 w) (sizeBytes n) (sizeBytes n)
  | .stv sp _ => s.piecesAt (stSpace sp) (a + Fields.off15 w) 16 8
  | .coInit _ =>
    if a.getLsbD 63 then
      match s.vaultOperand ((a.extractLsb' 0 36).zeroExtend 64) s.pass.quay s.pass.ctx 16 with
      | .ok tq off => [(.vault tq off, 16)]
      | _ => []
    else s.pieces (.virt a) 16
  | _ =>
    match atomShape i with
    | some (sp, n) => s.piecesAt (atSpace sp) (a + Fields.off10 w) n n
    | none => []

/-! ### Order within a block -/

/-- Whether an atomic, `cas` or fence acquires: order .acq or .ar (R179) at a scope above 0 (R279). -/
def acquires (f : Form) (w : Fields) : Bool :=
  f.cls == 9 && (Operand.immOr0 w.f2).getLsbD 10 && Fields.scope w != 0

/-- A prefetch, which nothing orders and which orders nothing (R269). -/
def isPf : Instr → Bool
  | .pf _ => true
  | _ => false

/-- Whether a word has resolved, or is not a memory access below `l` that an order counts. -/
def Pass.resolvedBelow (p : Pass) (l : Nat) (sel : Form → Bool) (x : WordInfo) : Bool :=
  p.done.contains x.idx || x.form.kind == .none || Fields.lsid x.w ≥ l || !sel x.form || isPf x.instr

/-- Whether a store-class word still unresolved leaves the bytes `mine` alone (R190): its guard or port a makes it emit
null, or its address is known and meets none of them; a guard still waited for holds nothing back once the address is known. -/
def State.apart (s : State) (mine : List (Loc × Nat)) (x : WordInfo) : Bool :=
  let p : Pass := { s.pass with cur := x.idx }
  match p.guardOf x.w.guard with
  | some (_, true) => false
  | some (false, false) => true
  | none | some (true, false) =>
    if x.form.ra = false then true
    else
      match p.data x.form x.w .a with
      | none => false
      | some t =>
        !t.notReady && (t.null || (s.stores x.instr x.w t.data).all fun y => mine.all fun z => !(y.1.overlaps y.2 z.1 z.2))

/-- Whether a word reads memory as it fires: a load, an atomic, `cas`, an engine form's descriptor (R190). -/
def readsNow (f : Form) : Bool := f.kind == .load || f.cls == 9 && f.func != 0xD0 || f.cls == 0xB

/-- Whether the current instruction's access may be performed (R190, R277, R278): a reading one once every store-class
operation of a lower LSID has resolved or is known to write elsewhere; any access after every acquiring atomic of a
lower LSID, and after the loads and atomics below an acquiring fence of a lower LSID. -/
def State.orderOk (s : State) (i : Instr) (f : Form) (w : Fields) (v : PortVals) : Bool :=
  f.kind == .none || isPf i ||
    (let p := s.pass
     let l := Fields.lsid w
     let infos := p.block.infos
     let lower := infos.filter fun x => x.form.kind == .store && decide (Fields.lsid x.w < l) && !p.done.contains x.idx
     (!readsNow f || lower.isEmpty || lower.all (s.apart (s.reads i f w v.a v.b))) &&
       infos.all fun x =>
         !(acquires x.form x.w && decide (Fields.lsid x.w < l)) ||
           (p.done.contains x.idx &&
             (x.form.func != 0xD0 || !(p.lsids.contains (Fields.lsid x.w, some x.idx)) ||
               infos.all (p.resolvedBelow (Fields.lsid x.w) fun g => g.kind == .load || g.cls == 9 && g.func != 0xD0))))

/-- Whether a word is `null`, which fires at block entry whatever its guard (R218). -/
def isNull : Instr → Bool
  | .null _ => true
  | _ => false

/-- Whether an instruction may reach a vault other than its quay's own: by .vl, or by an operand that names a quay (R135, R283). -/
def lateral (i : Instr) (f : Form) : Bool :=
  match i with
  | .ld _ sp _ | .ldv sp _ => sp == .vl
  | .st _ sp _ | .stv sp _ => stSpace sp == .vl
  | _ =>
    match atomShape i with
    | some (sp, _) => atSpace sp == .vl
    | none => decide (0xA ≤ f.cls.toNat) && decide (f.cls.toNat ≤ 0xC)

/-- Whether an instruction of the current pass can fire now. -/
def State.canFire (s : State) (i : Instr) (w : Fields) (idx : Nat) : Bool :=
  let s : State := { s with pass := { s.pass with cur := idx } }
  match Instr.form i with
  | none => false
  | some f =>
    match s.pass.firing f w with
    | .wait => isNull i
    | .act v => s.orderOk i f w v && !(lateral i f && s.vaultComing s.pass.ctx)
    | _ => true

/-- The lowest-indexed instruction of the current pass that can fire, searching a word list numbered from `idx`. -/
def State.pick (s : State) : List Word96 → Nat → Option Nat
  | [], _ => none
  | x :: xs, idx =>
    if s.pass.done.contains idx then s.pick xs (idx + 1)
    else
      match wordInstr x with
      | none => some idx
      | some i =>
        match Instr.fields i with
        | none => some idx
        | some w => if s.canFire i w idx then some idx else s.pick xs (idx + 1)

/-- The next instruction of a pass. -/
def State.nextWord (s : State) (p : Pass) : Option Nat := ({ s with pass := p } : State).pick p.block.words 0

end Sys2Proof.Machine
end

