-- ==== Sys2Proof/Machine/Power.lean ====
section
/-! DEFINITION. The tick and its charges (R437 to R441, R504), the power manager (R24, R463), the patrol scrub (R72), frames
of the hawser links (R71, R451), and the boot (R454 to R457). -/

namespace Sys2Proof.Machine

/-! ### The tick (R437 to R441, R504) -/

/-- Cycles of a tick (R437). -/
def tickCycles : Nat := 3300

/-- Largest REMAIN (R407). -/
def maxRemain : Nat := 2 ^ 63 - 1

/-- One quota change (R407, R408, R413, R441). -/
def State.applyQuota (s : State) : QuotaChange → State
  | .set c e r => if s.ctxLive c then s.setCtx { s.ctx c with expl := e, remain := r } else s
  | .grow c n =>
    let x := s.ctx c
    if s.ctxLive c && x.expl then s.setCtx { x with remain := min maxRemain (x.remain + n) } else s
  | .shrink c n =>
    let x := s.ctx c
    if s.ctxLive c && x.expl then s.setCtx { x with remain := x.remain - n } else s

/-- The share of one context of `a` femtojoules split in proportion (R504): the rest goes to the largest share, the lowest
number among those tied. -/
def shareOf (a : Nat) (parts : List (Nat × Nat)) (c : Nat × Nat) : Nat :=
  let total := parts.foldl (fun n p => n + p.2) 0
  let given := parts.foldl (fun n p => n + a * p.2 / total) 0
  let best := parts.foldl (fun (b : Nat × Nat) p => if b.2 < p.2 ∨ (b.2 = p.2 ∧ p.1 < b.1) then p else b) c
  a * c.2 / total + if best.1 = c.1 then a - given else 0

/-- Charge a split amount (R504). -/
def State.chargeSplit (s : State) (meter a : Nat) (parts : List (Nat × Nat)) : State :=
  parts.foldl (fun s p => s.chargeFj meter p.1 (shareOf a parts p)) s

/-- Count occurrences of contexts. -/
def tally (cs : List Nat) : List (Nat × Nat) := cs.eraseDups.map fun c => (c, cs.count c)

/-- Slots that the contexts resident on a quay occupy (R439); an idle quay is context 0's. -/
def State.quayShares (s : State) (q : Nat) : List (Nat × Nat) :=
  let cs := (s.threads.filter fun t => t.quay == q && t.st != .free).map (·.ctx)
  if cs.isEmpty then [(0, 1)] else tally cs

/-- The shared static costs of a tick (R439): milliwatts for 1 µs are 10^6 femtojoules each. -/
def State.staticCharges (s : State) : State :=
  let f := s.dev.fuses
  let s := (List.range 256).foldl (fun s q => s.chargeSplit (meterQuay q) (f.qsw * 10 ^ 6) (s.quayShares q)) s
  let s := s.chargeSplit meterStatic (f.netsw * 10 ^ 6) (tally ((List.range 256).map s.assignee))
  let s := (List.range 128).foldl (fun s sl =>
    s.chargeFj (meterSlice sl) (kvGet (s.partOfSlice sl) 0 s.partOwner) (f.slsw * 10 ^ 6)) s
  s.chargeFj meterLink 0 (f.othsw * 10 ^ 6)

/-- Charge whole nanojoules to a context and its ancestors (R440); the tree has at most eight levels. -/
def State.chargeUp (s : State) (c nj : Nat) : Nat → State
  | 0 => s
  | n + 1 =>
    let x := s.ctx c
    let s := s.setCtx { x with used := x.used + BitVec.ofNat 64 nj, remain := if x.expl then x.remain - nj else x.remain }
    if c = 0 then s else s.chargeUp x.parent nj n

/-- The charges of a tick (R437, R440): whole nanojoules go up the tree, the residues stay. -/
def State.applyCharges (s : State) : State :=
  let live := s.meters.filter fun m => s.ctxLive m.2.1
  let s : State := { s with meters := (live.map fun m => (m.1, m.2.1, m.2.2 % 10 ^ 6)).filter fun m => m.2.2 != 0 }
  live.foldl (fun s m => s.chargeUp m.2.1 (m.2.2 / 10 ^ 6) 8) s

/-- TICK (R437 to R441): quota changes in arrival order, then the charges; what is exhausted then is what `Ctx.exhausted`
reads. -/
def execTick (s : State) : Out :=
  .next <|
    if s.clock < tickCycles * (s.dev.ticks + 1) then s
    else
      let s : State := { s with dev := { s.dev with ticks := s.dev.ticks + 1 } }
      let s := s.quota.foldl State.applyQuota { s with quota := [] }
      s.staticCharges.applyCharges

/-! ### Power and temperature (R24, R463) -/

/-- POWER_WINDOW (R24): a window of 1 ms with its mean in milliwatts: a step is added above 3,000 W, removed below 2,900 W;
THRCYC counts the idle cycles that the steps in force inserted into the 256 arrays over the window (log entry 17). -/
def execPowerWindow (milliwatts : Nat) (s : State) : Out :=
  .next <|
    let d := s.dev
    let d : Device := { d with thrcyc := (d.thrcyc + d.throttle * 206250 * 256) % 2 ^ 64 }
    let step := if milliwatts > 3000000 ∨ d.hot.isEmpty = false then min 4 (d.throttle + 1)
      else if milliwatts < 2900000 then d.throttle - 1 else d.throttle
    { s with dev := { d with throttle := step } }

/-- THERMAL_THROTTLE (R463): a die at 95 °C applies the steps; below 90 °C they are removed. -/
def execThermalThrottle (die celsius : Nat) (s : State) : Out :=
  .next <|
    let d := s.dev
    if celsius ≥ 95 then { s with dev := { d with hot := addOnce die d.hot, throttle := min 4 (d.throttle + 1) } }
    else if celsius < 90 ∧ d.hot.contains die = true then
      let hot := d.hot.filter (· != die)
      { s with dev := { d with hot := hot, throttle := if hot.isEmpty then d.throttle - 1 else d.throttle } }
    else s

/-- After a trip: once nothing is being pre-empted or saved, the module is held in reset (R463). -/
def State.tripTurn (s : State) : State :=
  if s.dev.tripped && s.preempts.isEmpty && s.saves.isEmpty then { s with dev := { s.dev with inReset := true } } else s

/-- THERMAL_TRIP (R463): at 110 °C every context is stopped in drain mode, the control node is told, and the module is held
in reset. -/
def execThermalTrip (_die celsius : Nat) (s : State) : Out :=
  .next <|
    if celsius < 110 then s
    else if s.dev.tripped then s.tripTurn
    else
      let s : State := { s with dev := { s.dev with tripped := true } }
      let s := (s.beginPreempt 0 (List.range 256) true false).2
      s.send 0x86 0 0 (leBytes 8 0 ++ leBytes 8 (s.ctx 0).used.toNat ++ leBytes 8 s.clock)

/-! ### Scrub, frames and flits (R71, R72, R461) -/

/-- Change the error log. -/
def State.logErr (s : State) (f : ErrLog → ErrLog) : State := { s with dev := { s.dev with err := f s.dev.err } }

/-- Lines of a slice, the hardware area included (R72). -/
def sliceLines : Nat := 46875000

/-- PATROL_SCRUB (R72, R461): a slice's next line is read; a correction is written back, an error that cannot be corrected
poisons the line. -/
def execPatrolScrub (slice : Nat) (find : ScrubFind) (s : State) : Out :=
  .next <|
    let pos := kvGet slice 0 s.dev.scrub
    let line := (s.domain.mod.toNat * 2 ^ 44 + slice / 16 * 2 ^ 37 + slice % 16 * 2 ^ 33) / 128 + pos
    let s : State := { s with dev := { s.dev with scrub := kvSet slice ((pos + 1) % sliceLines) s.dev.scrub } }
    match find with
    | .clean => s
    | .corrected => s.logErr fun e => { e with cecc := e.cecc + 1, scrubfix := e.scrubfix + 1 }
    | .uncorrectable => (s.setPoison line true).logErr fun e => { e with uecc := e.uecc + 1 }

/-- Whether the code of its stage corrected an error. -/
def Upset.corrected : Upset → Bool
  | .cache _ _ k | .memory _ k | .vault _ _ k | .register _ _ _ k => k
  | .bollard _ _ => true

/-- A line whose error cannot be corrected is poisoned where it lies (R71), a register until a commit writes it (R374). -/
def State.poisonAt (s : State) : Upset → State
  | .memory line _ => s.setPoison line true
  | .cache h line _ =>
    let c := s.copyOf h line
    let mine := fun (r : Replica) => r.holder == h && r.line == line
    if c.tokens ≠ 0 then (s.setCopy { c with md := { c.md with poison := true } }).countPoison true
    else if s.replicas.any mine then
      ({ s with replicas := tmod mine (fun r => { r with md := { r.md with poison := true } }) s.replicas } : State).countPoison true
    else s
  | .vault q line _ =>
    let key := vline q (line * 128)
    (s.setVmeta { s.vmeta key with key := key, poison := true }).countPoison true
  | .register q sl r _ =>
    let t := s.thread q sl
    if t.st == .free || decide (112 ≤ r) then s else s.setThread { t with regPoison := t.regPoison ||| (1#112 <<< r) }
  | .bollard _ _ => s

/-- The oldest error that has come about is detected: corrected and counted, or counted and what it hit poisoned (R71, R374,
R461). -/
def State.takeUpset (s : State) : State :=
  match s.upsets with
  | [] => s
  | u :: us =>
    let s : State := { s with upsets := us }
    if u.corrected then s.logErr fun e => { e with cecc := e.cecc + 1 }
    else (s.poisonAt u).logErr fun e => { e with uecc := e.uecc + 1 }

/-- FLIT_RETRANSMIT (R71, R461): only the counter changes. -/
def execFlitRetransmit (s : State) : Out := .next (s.logErr fun e => { e with netrtx := e.netrtx + 1 })

/-- The cache and quay in which an agent keeps a frozen line that it read (R92). -/
def Waiter.cache : Waiter → Option (Nat × Nat)
  | .thread q _ _ _ => some (q, q)
  | .op _ | .fetch _ _ | .write _ _ | .queue _ _ | .launch _ | .object _ _ | .watch _ | .node _ _ | .append _ | .group _ | .handler _ _
  | .tables _ | .dlog _ _ => none
  | .fill q _ => some (copyHolder q, q)

/-- Where a frozen line goes that an access of this module asked for: an operation reads through its quay's copy engine. -/
def State.cacheOf (s : State) (y : Waiter) : Option (Nat × Nat) :=
  match y with
  | .op id => (s.op? id).map fun o => (copyHolder o.quay, o.quay)
  | y => y.cache

/-- An answer reaches the accesses it belongs to (R450). -/
def State.farAnswer (s : State) (peer tag : Nat) (f : Remote → Remote) : State :=
  ({ s with remotes := tmod (fun r => r.peer == peer && r.tag == tag && r.answer.isNone) f s.remotes } : State).wakePasses

/-- A frozen line of another module reaches the access that asked, and its cache (R92, R97, R452); `ld.nc` installs nothing (R268). -/
def State.farReplica (s : State) (peer tag : Nat) (gen : BitVec 8) (bs : List Byte) (md : LineMeta) : State :=
  let mine := s.remotes.filter fun r => r.peer == peer && r.tag == tag && r.answer.isNone
  let s := mine.foldl (fun s r =>
    match if r.noalloc then none else s.cacheOf r.who with
    | some (h, q) => s.installReplica { holder := h, line := r.pa / 128, gen := gen, md := md, bytes := bs } q
    | none => s) s
  s.farAnswer peer tag fun r => { r with answer := some ((bs.drop (r.pa % 128)).take r.size), md := md }

/-- What another module tells of a collective that has ranks on both (R127, R452). -/
def State.collFrame (s : State) (peer : Nat) (m : CollMsg) : State :=
  match m with
  | .issue q op d => { s with farRanks := s.farRanks ++ [{ mod := peer, quay := q, op := op, desc := d }] }
  | .leave q op => { s with farRanks := s.farRanks.filter fun f => !(f.mod == peer && f.quay == q && f.op == op) }
  | .part _ _ _ _ | .sum _ _ _ => { s with collIn := s.collIn ++ [(peer, m)] }
  | .ended src l st begun =>
    -- the end of a run that this module has finished comes too late
    let known := fun (f : FarRank) => f.mod == peer && f.desc.list == l
    if begun && !s.farRanks.any known then s
    else if begun then (({ s with farRanks := s.farRanks.filter fun f => !known f } : State).dropParts l).doomList src l st
    else s.doomList src l st
  | .bad src l => s.doomBad 0 src l

/-- LINK_FRAME (R71, R92, R94, R450 to R452): a frame of a peer: a failed CRC is replayed and counted; an answer, a frozen line
or a refusal reaches the access it belongs to, a SWACK its sweep, the rest the collectives; one for another module goes on by
the route table. -/
def execLinkFrame (peer : Nat) (body : LinkBody) (s : State) : Out :=
  .next <|
    let seen (s : State) : State := { s with domain := { s.domain with lastFrame := kvSet peer s.clock s.domain.lastFrame } }
    match body with
    | .keepAlive => seen s
    | .crcError =>
      let s := s.logErr fun e => { e with netrtx := e.netrtx + 1 }
      { s with dev := { s.dev with lreplay := s.dev.lreplay + 1 }, links := s.links ++ [.replay] }
    | .answer tag bs md => (seen s).farAnswer peer tag fun r => { r with answer := some bs, md := md }
    | .breakHold tag => (seen s).brokenHold peer tag
    | .fdata tag gen bs md => (seen s).farReplica peer tag gen bs md
    | .refusal tag k stale =>
      (seen s).farAnswer peer tag fun r => match stale with | some g => { r with stale := some g } | none => { r with cause := some k }
    | .coll m => (seen s).collFrame peer m
    | .transit dst bs => if s.reachable dst then (seen s).sendLinks 0 [.transit peer dst bs] else seen s
    | .swack page =>
      let ws := tmod (fun w => w.page == page) (fun w => { w with peers := w.peers.filter fun p => p.1 != peer }) s.sweeps
      ({ seen s with sweeps := ws } : State).sweepEnd page

/-- KEEPALIVE (R451): a frame to every peer that a route reaches. -/
def execKeepalive (s : State) : Out := .next { s with links := s.links ++ s.peers.map LinkOut.keepAlive }

/-- Cycles of 1 µs. -/
def usCycles : Nat := 3300

/-- PEER_LOST (R451, R452): 50 µs without a frame: V is cleared, the peer's replicas go, outstanding accesses are refused, and
its ranks count as never issued. -/
def execPeerLost (peer : Nat) (s : State) : Out :=
  .next <|
    if s.peers.contains peer = false ∨ s.clock < kvGet peer 0 s.domain.lastFrame + 50 * usCycles then s
    else
      let routes := s.domain.routes.map fun r => if r.1 = peer then (r.1, r.2 &&& ~~~(1#64 <<< 63)) else r
      let s : State :=
        { s with domain := { s.domain with routes := routes },
                 replicas := s.replicas.filter (fun r => bitsOf (r.line * 128) 44 8 != peer),
                 remoteHolds := s.remoteHolds.filter (fun h => h.src != peer),
                 farRanks := s.farRanks.filter (fun f => f.mod != peer), collIn := s.collIn.filter (fun x => x.1 != peer),
                 remotes := tmod (fun r => r.peer == peer && r.answer.isNone) (fun r => { r with cause := some cNoMem }) s.remotes }
      s.unpark.wakePasses

/-- SWACK_TIMEOUT (R94, R451): 100 µs after a sweep went to a peer that is unreachable, its answer counts as given. -/
def execSwackTimeout (page peer : Nat) (s : State) : Out :=
  .next <|
    let late := fun (p : Nat × Nat) => p.1 == peer && decide (s.clock ≥ p.2 + 100 * usCycles) && !s.reachable peer
    let ws := tmod (fun w => w.page == page) (fun w => { w with peers := w.peers.filter fun p => !late p }) s.sweeps
    ({ s with sweeps := ws } : State).sweepEnd page

/-! ### Boot (R454 to R457) -/

/-- Measurement `j` is written (R457). -/
def Device.measure (d : Device) (j : Nat) : Device := { d with meas := d.meas.set j (Config.measurement j) }

/-- Physical address of the capability list: the start of a page of software memory that another follows (R57, R455). -/
def capsBase : Nat :=
  let perSlice := softEnd / 65536 - 1
  let n := Config.capsPage % (128 * perSlice)
  let sl := n / perSlice
  sl / 16 * 2 ^ 37 + sl % 16 * 2 ^ 33 + n % perSlice * 65536

/-- Virtual address of the capability list in context 0's space (R26): the start of a page, not 0 (log entry 61). -/
def capsVirtual : Nat := (1 + Config.capsVa % (2 ^ 40 - 1)) * 65536

/-- Context 0's own-stage T4 table at boot: the page after the list (log entry 61). -/
def bootRoot : Nat := capsBase + 65536

/-- Entries of the tables by which context 0 reads the list at boot (R26, R100, R101): one table a level, and one leaf of
64 KiB that permits neither writes nor fetches. -/
def bootTables : List (Nat × Nat) :=
  (List.range 5).map fun k =>
    let level := 4 - k
    (bootRoot + 4096 * k + 8 * (capsVirtual / 2 ^ levelShift level % levelEntries level),
      if level = 0 then 2 ^ 63 + 2 ^ 62 + capsBase else 2 ^ 63 + (bootRoot + 4096 * (k + 1)))

/-- One step of the boot order (R455). -/
def State.bootStep (s : State) (k : Nat) : State :=
  let d : Device := { s.dev with bootStep := k }
  match k with
  | 2 => { s with dev := (d.measure 0).measure 1 }
  | 3 => { s with dev := d.measure 2 }
  | 6 => { s with dev := { (d.measure 3) with linkup := BitVec.ofNat 64 (Config.linksTrained % 2 ^ 36) } }
  | 7 =>
    let s : State := { s with dev := { d with capsAt := some capsBase } }
    let s := bootTables.foldl (fun s e => s.gwrite e.1 (leBytes 8 e.2) false) s
    (s.setFrz { page := capsBase / 65536, st := .frozen, count := 1 }).setCtx
      { s.ctx 0 with caps := BitVec.ofNat 64 (2 ^ 56 + capsVirtual), ownRoot := bootRoot, run := true }
  | _ => { s with dev := d }

/-- POWER_ON_RESET (R454 to R457): the reset state, then the boot order, which halts at a step that fails; `failStep` 0
names none.  What is fused, what the outside has sent and what it was sent stay. -/
def execPowerOnReset (failStep : Nat) (s : State) : Out :=
  .next <|
    let r : State := { State.reset with agenda := s.agenda, freeCtr := s.freeCtr, inbox := s.inbox, outbox := s.outbox,
                                        links := s.links, dev := { fuses := s.dev.fuses } }
    let steps := (List.range 7).map (· + 1)
    if failStep = 0 ∨ failStep > 7 then steps.foldl State.bootStep r
    else
      let r := (steps.filter (· < failStep)).foldl State.bootStep r
      { r with dev := { r.dev with failStep := failStep } }

end Sys2Proof.Machine
end

