-- ==== Sys2Proof/Machine/Background.lean ====
section
/-! DEFINITION. What the module does of itself between the instructions of the threads: the events that are due, of which
one acts each step, in rotation (log entry 1).  Each is a row of the opcode table; an event that is not due changes
nothing. -/

namespace Sys2Proof.Machine

/-- An event that may be due. -/
abbrev Turn := State → Out

/-! ### Coherence, translation (R81, R107, R111) -/

/-- The oldest message in flight arrives. -/
def netTurn (s : State) : Out :=
  match s.net with
  | [] => .next s
  | m :: _ =>
    match m.body with
    | .gets _ _ _ => execGets 0 s
    | .getm _ _ _ => execGetm 0 s
    | .data _ _ _ => execData 0 none s
    | .tok _ => execTok 0 s
    | .inv _ => execInv 0 s
    | .fwds => execFwds 0 s
    | .wb _ => execWb 0 s
    | .put _ _ _ => execPut 0 s
    | .collect => execCollect 0 s
    | .done => execDone 0 s
    | .preq => execPreq 0 s
    | .pact _ => execPact 0 s
    | .pdone => execPdone 0 s
    | .pdeact => execPdeact 0 s
    | .fdata _ _ => execFdata 0 s
    | .refuse _ _ _ _ => execRefuse 0 s
    | .sweep _ _ => execSweep 0 s
    | .swack _ => execSwack 0 s
    | .farSweep _ => execSweep 0 s
    | .uncached _ _ _ _ _ _ => execUncachedAccess 0 s

/-- An error of a stored line shows (R71). -/
def upsetTurn (s : State) : Out := .next s.takeUpset

/-- COLLECT for a line that is called home is sent for the request that waits for it, or for its directory entry (R438). -/
def State.payLine (s : State) (line : Nat) : State :=
  s.payBy (((s.homeWait.find? fun m => m.line == line || s.dirVictim m.line == some line).map (·.payer)).getD 0)

/-- What waited at a home or in a pass looks again; collections and persistent requests that could not go on do (R80, R86). -/
def retryTurn (s : State) : Out :=
  let s := s.collecting.foldl (fun s l => ((s.payLine l).wantAll l).2) s
  let s := (s.pers.map (·.line)).eraseDups.foldl State.servePers s
  .next s.unpark.wakePasses

/-- Writes of save areas that wait for their lines are looked at again (R309, R381). -/
def areasTurn (s : State) : Out := .next s.areaTurn

/-- Events of the memory system. -/
def State.memoryTurns (s : State) : List Turn :=
  [netTurn, retryTurn, areasTurn] ++
    s.fills.map (fun f => execMappedFill f.quay f.line) ++
    (s.walks.map (·.die)).eraseDups.flatMap (fun d =>
      [execWalkStart d, execWalkComplete d 0, execWalkComplete d 1, execWalkComplete d 2, execWalkComplete d 3]) ++
    (List.range s.openAppends.length).map execPgreqAppend ++
    (s.tlb.map (·.quay)).eraseDups.map (fun q => execTranslationExpiry q 0) ++
    (List.range s.genWait.length).map execGenerationIncrement ++
    s.reqs.map (fun r => execPersistentRequest r.holder r.line) ++
    (s.frz.filter fun f => f.st == .freezing).map (fun f => execPageFrozen f.page) ++
    s.sweeps.flatMap (fun w => w.peers.map fun p => execSwackTimeout w.page p.1) ++
    s.fmt.map (fun g => execFmtRegionBusyClear g.die g.r) ++
    s.peers.map execPeerLost ++ [upsetTurn]

/-! ### Threads and planes (R356 to R361) -/

/-- A thread that waits and is counted nowhere is counted (R356, R361). -/
def arriveTurn (q sl : Nat) (s : State) : Out :=
  let t := s.thread q sl
  .next <|
    if t.st == .waiting && !t.drift && !(s.entries.any fun e => e.quay == q && e.vec.contains sl) then s.arrive q sl none else s

/-- A trap whose delivery waits for an entry of a handler table goes on (R370). -/
def deliverTurn (q sl : Nat) (s : State) : Out :=
  .next (match (s.thread q sl).on with
    | .delivery n blk => (((s.takeTrap (s.thread q sl) n blk).arrive q sl none).tidy q).settleGreds
    | _ => s)

/-- Threads of a cooperative launch that are still in flight 1,024 cycles after it became non-resident are turned back, on the
quays that were not withdrawn (R377, R430). -/
def coopTurn (s : State) : Out :=
  let late := fun (p : Pass) =>
    let t := s.thread p.quay p.slot
    s.coopHeld t && !s.engHalted p.quay &&
      s.launches.any fun l => (s.group t.group).launch == some l.id && l.nonres && decide (l.since + 1024 ≤ s.clock)
  let ps := s.passes.filter late
  .next ((ps.map (·.quay)).eraseDups.foldl State.tidy (ps.foldl State.turnBack s))

/-- Reductions whose last member is in settle (R258). -/
def gredTurn (s : State) : Out := .next s.settleGreds

/-- Events of the threads and of the blocks they wait for. -/
def State.threadTurns (s : State) : List Turn :=
  gredTurn :: coopTurn ::
    s.threads.flatMap (fun t =>
      (if t.released.isEmpty then [] else [execStorePerform t.quay t.slot, execBarrierArrival t.quay t.slot]) ++
        (match t.on with
          | .object _ _ _ _ _ => [execCoWaitWake t.quay t.slot, execCoWaitPoll t.quay t.slot]
          | .delivery _ _ => [deliverTurn t.quay t.slot]
          | _ => []) ++
        (if t.st == .waiting then [arriveTurn t.quay t.slot] else [])) ++
    s.entries.flatMap (fun e => [execBlockPinned e.quay e.e, execEntryAged e.quay e.e, execCoalesceHoldEnd e.quay e.e]) ++
    (s.entries.map (·.quay)).eraseDups.flatMap (fun q =>
      match s.freePlane q with
      | some p => [execPlaneChoose q p]
      | none => []) ++
    s.planes.flatMap (fun p =>
      execBlockConfigure p.quay p.plane :: (((s.entry p.quay p.entry).vec.map fun sl => execThreadAdmit p.quay p.plane sl) ++
        [execRunOpenTimeout p.quay p.plane, execDrainTimeout p.quay p.plane])) ++
    (List.range (s.passes.length + s.remoteHolds.length)).map execHoldBreak

/-! ### Engines and matrix units -/

/-- A `launch` or `qpost` goes on (R294, R343). -/
def launchOpTurn (id : Nat) (s : State) : Out :=
  .next (match s.op? id with
    | some o => if o.finished then s else if o.kind == .launch then s.launchTurn o else s.qpostTurn o
    | none => s)

/-- The events of an engine operation, by its kind. -/
def EngOp.turns (o : EngOp) : List Turn :=
  (match o.kind with
    | .cpG2v | .cpV2g | .cpV2v | .cpMc => [execCopyChunkDone o.id]
    | .seal => [execSealDone o.id]
    | .unseal => [execUnsealDone o.id]
    | .vunmap => [execVunmapDone o.id]
    | .vflush => [execVflushDone o.id]
    | .gath => [execGatherRow o.id]
    | .allred _ | .redsc _ | .allgath | .bcast => [execCollChunkReduce o.id]
    | .seqGemm | .seqAttn => [execSeqStep o.id]
    | .frz => [execFreezePage o.id]
    | .thaw => [execThawPage o.id]
    | .launch | .qpost => [launchOpTurn o.id]
    | .vmap | .mmaCfg | .mma | .mmaRel | .mmaClr | .ctx _ => []) ++ [execCompletionRaise o.id]

/-- Events of the engines and the matrix units. -/
def State.engineTurns (s : State) : List Turn :=
  s.ops.flatMap EngOp.turns ++ s.farPages.map (fun p => execFreezePage p.id) ++ s.scores.map (fun e => execScoreboardRetire e.quay e.n) ++
    s.units.flatMap fun u =>
      [execMatrixQueueHead u.pair, execEndOfRow u.pair, execNodeRelease u.pair, execEndOfOperation u.pair]

/-! ### Queues, launches, contexts, the control node -/

/-- The command in hand of a queue (R350). -/
def commandTurn (c q : Nat) (s : State) : Out :=
  match (s.queue c q).cmd with
  | none => .next s
  | some m =>
    match cmdBits m 0 8, cmdBits m 13 3 with
    | 1, _ => execCmdLaunch c q s
    | 2, _ => if (s.queue c q).started then execWaitReread c q s else execCmdWait c q s
    | 3, 0 => execCmdSignalWrite c q s
    | 3, _ => execCmdSignalAdd c q s
    | 4, 0 => execCmdCopyG2v c q s
    | 4, 1 => execCmdCopyV2g c q s
    | 4, 2 => execCmdCopyV2v c q s
    | 4, _ => execCmdCopyMc c q s
    | 5, 0 => execCmdCollAllredBf16 c q s
    | 5, 1 => execCmdCollAllredF32 c q s
    | 5, 2 => execCmdCollRedscBf16 c q s
    | 5, 3 => execCmdCollRedscF32 c q s
    | 5, 4 => execCmdCollAllgath c q s
    | 5, _ => execCmdCollBcast c q s
    | 6, _ => execCmdFreeze c q s
    | 7, _ => execCmdThaw c q s
    | _, _ => .next s

/-- Where work that waits could go: a quay for each task, the quays of the next turn of each launch (R354). -/
def State.placements (s : State) : List (Nat × List Nat) :=
  (s.ready.zipIdx.filterMap fun k =>
    ((List.range 256).find? fun q => s.taskTakes k.1 q && !s.higherWork q k.1.prio none (s.ready.take k.2)).map fun q => (k.2, [q])) ++
    s.launches.zipIdx.filterMap fun l =>
      let n := s.ready.length + l.2
      if l.1.bindRead = false then some (n, [])
      else if l.1.waits = false then none
      else
        match (List.range 256).findSome? fun q =>
            let free := fun x => !s.higherWork x l.1.prio (some (s.turnRank q l.1)) []
            if free q then s.layFrom l.1 q free else none with
        | some qs => some (n, qs)
        | none => some (n, [])

/-- Whether a turn has changed nothing: who pays for messages that it did not send does not count. -/
def State.sameAs (t s : State) : Bool := decide ({ t with paying := s.paying } = s)

/-- Work is placed where it can go. -/
def dispatchTurn (s : State) : Out :=
  let due := fun (p : Nat × List Nat) =>
    match execWorkgroupDispatch p.1 p.2 s with
    | .next t => !t.sameAs s
    | _ => true
  match s.placements.find? due with
  | some p => execWorkgroupDispatch p.1 p.2 s
  | none => .next s

/-- Events of the queues, the launches and their groups. -/
def State.launchTurns (s : State) : List Turn :=
  s.ctxs.flatMap (fun c => c.queues.flatMap fun q => [execQueueWake c.num q.n, commandTurn c.num q.n]) ++ [dispatchTurn] ++
    (List.range s.groups.length).map execWorkgroupComplete ++ (List.range s.launches.length).map execLaunchComplete

/-- An operation of the context controller is performed (R403). -/
def ctxTurns (n : Nat) : List Turn :=
  [execCtxNew (.perform n), execCtxGiveQuays (.perform n), execCtxGiveMemory (.perform n), execCtxGiveQueue (.perform n),
    execCtxGiveEnergy (.perform n), execCtxTakeQuays (.perform n), execCtxTakeMemory (.perform n),
    execCtxTakeQueue (.perform n), execCtxTakeEnergy (.perform n), execCtxMap (.perform n), execCtxUnmap (.perform n),
    execCtxUnmapRenewal (.perform n), execCtxRun (.perform n), execCtxStop (.perform n), execCtxStopEnd (.perform n),
    execCtxStopRelease (.perform n), execEnQuota (.perform n), execDlogStart (.perform n), execDlogStop (.perform n),
    execPartChg (.perform n), execContextOpDone n]

/-- After a trip the module is held in reset (R463). -/
def tripOverTurn (s : State) : Out := .next s.tripTurn

/-- Events of the context controller, of pre-emption and of exhaustion. -/
def State.contextTurns (s : State) : List Turn :=
  (List.range s.ctxq.length).flatMap ctxTurns ++
    s.preempts.zipIdx.flatMap (fun p => p.1.awaiting.map (fun a => execPreemptStopReached p.2 a) ++
      [execPreemptDrainLimit p.2, execPreemptionComplete p.2]) ++ [execLamplighterArrival] ++
    (List.range s.saves.length).flatMap (fun n => [execSaveChunk n, execRestore n]) ++
    (List.range s.handovers.length).map execVaultHandover ++
    s.ctxs.map (fun c => execExhaustionPreempt c.num) ++ [tripOverTurn]

/-- A message of the control node (R446). -/
def messageTurn (n : Nat) (s : State) : Out :=
  match s.inbox[n]? with
  | none => .next s
  | some m =>
    if m.malformed then execMalformedMessage n s
    else
      match m.op with
      | 1 => execMrd n s
      | 2 => execMwr n s
      | 3 => execQpostMessage n s
      | 4 => execCtxop n s
      | 5 => execPgack n s
      | 6 => execEnread n s
      | _ => execAttest n s

/-- Power-on: the management processor boots the module, once (R454, R455). -/
def bootTurn (s : State) : Out := if s.dev.bootStep = 0 ∧ s.dev.failStep = 0 then execPowerOnReset 0 s else .next s

/-- Every 1,024 cycles the bollards of configured planes take new weights (R362); the sums of the tokens that waited at their
operators each cycle are a free choice, for cycles are not modelled (log entries 2, 6). -/
def weightTurn (s : State) : Out :=
  if s.clock < s.weighed + 1024 then .next s
  else
    let of (p : Plane) : List (Nat × Nat) := p.block.infos.map fun x => (p.quay, s.bollardFor p.quay (placedAt p.ba.toNat x))
    let at' := ((s.planes.filter (·.configured)).flatMap of).eraseDups
    let update (s : State) (b : Nat × Nat) : State :=
      let r := (List.range 4).foldl (fun (r : List Nat × State) _ => let c := r.2.choose; (r.1 ++ [c.1], c.2)) ([], s)
      match execBollardWeightUpdate b.1 b.2 r.1 r.2 with
      | .next t => t
      | _ => s
    .next (at'.foldl update { s with weighed := s.clock / 1024 * 1024 })

/-- Every 1 µs a keep-alive frame goes to every peer (R451). -/
def keepaliveTurn (s : State) : Out :=
  if s.peers.isEmpty ∨ s.clock < s.domain.kept + usCycles then .next s
  else execKeepalive { s with domain := { s.domain with kept := s.clock } }

/-- Every event that may be due. -/
def State.turns (s : State) : List Turn :=
  bootTurn :: weightTurn :: keepaliveTurn :: (s.memoryTurns ++ s.threadTurns ++ s.engineTurns ++ s.launchTurns ++ s.contextTurns ++
    (List.range s.inbox.length).map messageTurn)

/-- The first event of a list that is due: one that changes something. -/
def firstDue (s : State) : List Turn → Option Out
  | [] => none
  | f :: fs =>
    match f s with
    | .next t => if t.sameAs s then firstDue s fs else some (.next { t with turn := s.turn + 1 })
    | o => some o

/-- What the module does of itself now: the events take turns. -/
def State.background (s : State) : Option Out :=
  let ts := s.turns
  let k := s.turn % max 1 ts.length
  firstDue s (ts.drop k ++ ts.take k)

/-! ### Passes in flight -/

/-- Whether a pass may go on: it is not stalled, its block is configured, it has an instruction that can fire or none left, and
its quay is not stopped in save mode (R377), nor a restore under way on it (R390). -/
def State.canRun (s : State) (p : Pass) : Bool :=
  p.live && !p.stalled && !p.unplaced && ((s.nextWord p).isSome || p.allDone) && !s.exchanging p.quay &&
    !s.preempts.any fun r => r.covers p.quay && (!r.drain || r.ending)

/-- The first pass in flight that may go on becomes the current one. -/
def State.turnPass (s : State) : State :=
  if s.canRun s.pass then s
  else
    match s.parked.find? s.canRun with
    | some p => { s with pass := p, parked := s.parked.erase p ++ if s.pass.live then [s.pass] else [] }
    | none => s

end Sys2Proof.Machine
end

