-- ==== Sys2Proof/Machine/Convert.lean ====
section
/-! DEFINITION. Conversion instructions, class 0x5 (R234 to R239). -/

namespace Sys2Proof.Machine

/-- A conversion format is an integer type or a floating-point format (R182). -/
def cvtKind : CvtFmt → IntTy ⊕ Fmt
  | .s32 => .inl .s32 | .n32 => .inl .n32 | .s64 => .inl .s64 | .n64 => .inl .n64
  | .s16 => .inl .s16 | .n16 => .inl .n16 | .s8 => .inl .s8 | .n8 => .inl .n8
  | .f32 => .inr fmtF32 | .f16 => .inr fmtF16 | .bf16 => .inr fmtBF16 | .f8a => .inr fmtF8a | .f8b => .inr fmtF8b

/-- A value narrowed to a format with the saturation of R48: ±∞ to F8a is the NaN of the sign with NV, or ±448. -/
def narrow (d : Fmt) (b : Block) (v : FVal) : FRes :=
  match v with
  | .inf s =>
    if d.noInf then (if b.sat then (d.signBit s + d.maxFin, 0) else (d.infBits s, exNV)) else (d.infBits s, 0)
  | v => fpOut d b.mode b.ftz b.sat v

/-- FP to integer (R235): always clamps. -/
def fpToInt (d : IntTy) (b : Block) (v : FVal) : Word × Exc :=
  match v with
  | .nan => (0, exNV)
  | .inf s => (intResult d (if s then intLo d else intHi d), exNV)
  | .fin s m e =>
    let r := roundInt b.mode s m e
    let q : Int := if s then -(r.1 : Int) else r.1
    if q < intLo d then (intResult d (intLo d), exNV)
    else if intHi d < q then (intResult d (intHi d), exNV)
    else (intResult d q, if r.2 then exNX else 0)

/-- `cvt` (R234). -/
def cvtVal (dst src : CvtFmt) (b : Block) (v : PortVals) : Word × Exc :=
  match cvtKind src, cvtKind dst with
  | .inl t, .inl d => (intResult d (if b.sat then clampTo d (intOperand t v.a) else intOperand t v.a), 0)
  | .inl t, .inr d =>
    let x := intOperand t v.a
    fword (narrow d b (.fin (decide (x < 0)) x.natAbs 0))
  | .inr f, .inl d =>
    let x := b.fin f v.a
    let r := fpToInt d b x.1
    (r.1, x.2 ||| r.2)
  | .inr f, .inr d =>
    let x := b.fin f v.a
    let r := narrow d b x.1
    (BitVec.ofNat 64 r.1, x.2 ||| r.2)

/-- `cvt.f32.ds8` (R236). -/
def cvtDs8Val (v : PortVals) : Word :=
  match ds8Value (byteOf v.a 0) with
  | .fin s m e => BitVec.ofNat 64 (roundFin fmtF32 .ne false s m e).1
  | _ => 0

/-- `dsenc.f32` (R237). -/
def dsencVal (b : Block) (v : PortVals) : Word × Exc :=
  let x := b.fin fmtF32 v.a
  let r := dsenc b.mode b.sat x.1
  (BitVec.ofNat 64 r.1, x.2 ||| r.2)

/-- Format of `pack2` and `unpack2` (R182). -/
def packFmt : PackFmt → Fmt
  | .f16 => fmtF16 | .bf16 => fmtBF16 | .f8a => fmtF8a | .f8b => fmtF8b

/-- A NaN lane of `pack2`, by bits (R238). -/
def packNan (d : Fmt) (x : Nat) : Nat :=
  let sg := d.signBit (fmtF32.sign x)
  if d.noInf then sg + (2 ^ (d.ew + d.mw) - 1)
  else sg + (2 ^ d.ew - 1) * 2 ^ d.mw + (fmtF32.mant x / 2 ^ (23 - d.mw) ||| 2 ^ (d.mw - 1))

/-- One lane of `pack2` (R238). -/
def packLane (d : Fmt) (b : Block) (v : Word) : FRes :=
  let x := v.toNat % 2 ^ 32
  if fmtF32.isNan x then (packNan d x, 0) else narrow d b (b.fin fmtF32 v).1

/-- `pack2` (R238). -/
def pack2Val (d : Fmt) (b : Block) (v : PortVals) : Word × Exc :=
  let l := packLane d b v.a
  let h := packLane d b v.b
  (BitVec.ofNat 64 (l.1 + h.1 * 2 ^ d.width), l.2 ||| h.2)

/-- Exact widening of a pattern to FP32, NaN payloads kept with zeros appended (R239). -/
def widen (f : Fmt) (x : Nat) : Nat :=
  match f.value x with
  | .nan => fmtF32.signBit (f.sign x) + 255 * 2 ^ 23 + f.mant x * 2 ^ (23 - f.mw)
  | .inf s => fmtF32.infBits s
  | .fin s m e => (roundFin fmtF32 .ne false s m e).1

/-- `unpack2` (R239). -/
def unpack2Val (f : Fmt) (v : PortVals) : Word :=
  BitVec.ofNat 64 (widen f (v.a.toNat / 2 ^ (f.width * (v.b.toNat % 2)) % 2 ^ f.width))

/-- `cvt` (R234, R235). -/
def execCvt (dst src : CvtFmt) (w : Fields) (s : State) : Out := .next (s.fireFp (.cvt dst src w) w (cvtVal dst src))
/-- `cvt.f32.ds8` (R236). -/
def execCvtF32Ds8 (w : Fields) (s : State) : Out := .next (s.fireValue (.cvtF32Ds8 w) w cvtDs8Val)
/-- `dsenc.f32` (R237). -/
def execDsenc (w : Fields) (s : State) : Out := .next (s.fireFp (.dsenc w) w dsencVal)
/-- `pack2` (R238). -/
def execPack2 (t : PackFmt) (w : Fields) (s : State) : Out := .next (s.fireFp (.pack2 t w) w (pack2Val (packFmt t)))
/-- `unpack2` (R239). -/
def execUnpack2 (t : PackFmt) (w : Fields) (s : State) : Out :=
  .next (s.fireValue (.unpack2 t w) w (unpack2Val (packFmt t)))

end Sys2Proof.Machine
end

