-- ==== Sys2Proof/Machine/Move.lean ====
section
/-! DEFINITION. Data movement and dataflow, class 0x7 (R216 to R219). -/

namespace Sys2Proof.Machine

/-- A special value by its selector (R157, R219); a thread of a task reads 0 for every %lvl (R157). -/
def State.special (s : State) (sel : Nat) : Word :=
  let t := s.thread s.pass.quay s.pass.slot
  let q := s.pass.quay
  BitVec.ofNat 64 <|
    match sel with
    | 0 => t.tid
    | 1 => t.gid
    | 10 => q
    | 11 => pairOf q
    | 12 => basinOf q
    | 13 => dieOf q
    | 14 => s.domain.mod.toNat
    | 15 => s.clock
    | 16 => s.pass.ctx
    | k => t.levels.getD (k - 2) 0

/-- `mov` (R216). -/
def execMov (w : Fields) (s : State) : Out := .next (s.fireValue (.mov w) w (·.a))
/-- `movi` (R217). -/
def execMovi (w : Fields) (s : State) : Out := .next (s.fireValue (.movi w) w (·.a))
/-- `movh` (R217). -/
def execMovh (w : Fields) (s : State) : Out :=
  .next (s.fireValue (.movh w) w fun v => (v.a <<< 20) + (v.b.extractLsb' 0 20).zeroExtend 64)
/-- `fan` (R216). -/
def execFan (w : Fields) (s : State) : Out := .next (s.fireValue (.fan w) w (·.a))
/-- `null` (R218): fires whatever its guard, is charged (R436), and emits null; a substitution the thread holds for it is
emitted in its place (R372), whatever its guard too (log entry 82). -/
def execNull (w : Fields) (s : State) : Out :=
  .next (match s.substitution with
    | some v => s.emitVal (.null w) w v
    | none => (s.chargeFiring (.null w)).emitNull (.null w) w)
/-- `sreg` (R219): %clock is the cycle in which the operator fires. -/
def execSreg (w : Fields) (s : State) : Out :=
  .next (s.fire (.sreg w) w fun v s => s.emitVal (.sreg w) w (s.special v.a.toNat))

end Sys2Proof.Machine
end

