-- ==== Sys2Proof/Machine/Sfu.lean ====
section
/-! DEFINITION. Special functions, class 0x6 (R240 to R242).  `div` and `sqrt` are correctly rounded.  Every other result
outside the exact cases is a free value inside the bound of R240 (log entry 6): the exact value is approximated far
closer than the bound, and the free pattern is taken when it lies inside the bound. -/

namespace Sys2Proof.Machine

/-- An approximation (−1)^neg · m · 2^e of an exact result. -/
structure Approx where
  neg : Bool
  m : Nat
  e : Int
  deriving DecidableEq, Repr, Inhabited

/-- Distance of a finite pattern from an approximation, and the approximation's magnitude, in units of 2^(third). -/
def distance (c : Nat) (a : Approx) : Option (Nat × Nat × Int) :=
  match fmtF32.value c with
  | .fin s m e =>
    let e0 := if e ≤ a.e then e else a.e
    let d := signedAt s m e e0 - signedAt a.neg a.m a.e e0
    some (d.natAbs, a.m * 2 ^ (a.e - e0).toNat, e0)
  | _ => none

/-- Two units in the last place at an approximation (R240), in units of 2^e0. -/
def twoUlp (mag : Nat) (e0 : Int) : Nat :=
  let top : Int := (Nat.log2 mag : Int) + e0
  let ulp : Int := (if top < -126 then -126 else top) - 23
  2 ^ ((ulp + 1 - e0).toNat)

/-- Whether a pattern lies within 2 ulp of an exact result, decided on an approximation far closer to it than the exact
result lies to any pattern. -/
def within2ulp (c : Nat) (a : Approx) : Bool :=
  match distance c a with
  | some (d, mag, e0) => decide (d ≤ twoUlp mag e0)
  | none => false

/-- Whether a pattern lies within 2^−22 of an approximation (R240). -/
def withinAbs (c : Nat) (a : Approx) : Bool :=
  match distance c a with
  | some (d, _, e0) => decide (d ≤ 2 ^ ((-22 - e0).toNat))
  | none => false

/-- The free result inside a bound, else the nearest pattern. -/
def freeIn (form : Nat) (x : Nat) (ok : Nat → Bool) (near : Nat) : Nat :=
  let c := (Config.sfuResult form (BitVec.ofNat 32 x)).toNat
  if ok c then c else near

/-- One of the two FP32 neighbours of an exact value (R240, `rcp` and `rsq`); the overflowing one is never taken. -/
def neighbour (form : Nat) (x : Nat) (v : FVal) : Nat × Bool :=
  match v with
  | .fin s m e =>
    let lo := roundFin fmtF32 .z false s m e
    let hi := lo.1 + 1
    if lo.2 = 0 then (lo.1, true)
    else if fmtF32.isInf hi then (lo.1, false)
    else (freeIn form x (fun c => c == lo.1 || c == hi) lo.1, false)
  | _ => (fmtF32.canonNan, false)

/-- A result outside the exact cases (R241): NX; UF when subnormal or flushed. -/
def sfuOut (ftz : Bool) (r : Nat) : FRes :=
  if fmtF32.isSub r then
    (if ftz then fmtF32.signBit (fmtF32.sign r) else r, exUF ||| exNX)
  else (r, exNX)

/-- An exact result (R220): flushed when subnormal under FTZ. -/
def sfuExact (ftz : Bool) (r : Nat) : FRes :=
  if ftz && fmtF32.isSub r then (fmtF32.signBit (fmtF32.sign r), exUF ||| exNX) else (r, 0)

/-- Whether m · 2^e is a power of two. -/
def isPow2 (m : Nat) : Bool := m == 2 ^ Nat.log2 m

/-- `rcp` (R241). -/
def rcpRes (ftz : Bool) (x : Nat) : FVal → FRes
  | .nan => (fmtF32.canonNan, 0)
  | .inf s => (fmtF32.signBit s, 0)
  | .fin s m e =>
    if m = 0 then (fmtF32.infBits s, exDZ)
    else if (Nat.log2 m : Int) + e < -128 || (isPow2 m && (Nat.log2 m : Int) + e == -128) then
      (fmtF32.infBits s, exOF ||| exNX)
    else
      let r := neighbour 0 x (divFin s 1 0 m e)
      if r.2 then sfuExact ftz r.1 else sfuOut ftz r.1

/-- 1/√(m · 2^e) with a sticky last bit. -/
def rsqFin (m : Nat) (e : Int) : FVal :=
  let (m, e) := if e % 2 = 0 then (m, e) else (2 * m, e - 1)
  let k := 60 + Nat.log2 m
  let q := 2 ^ (2 * k) / m
  let r := isqrt q
  .fin false (2 * r + (if r * r * m = 2 ^ (2 * k) then 0 else 1)) (-(e / 2) - k - 1)

/-- `rsq` (R241). -/
def rsqRes (ftz : Bool) (x : Nat) : FVal → FRes
  | .nan => (fmtF32.canonNan, 0)
  | .inf s => if s then (fmtF32.canonNan, exNV) else (0, 0)
  | .fin s m e =>
    if m = 0 then (fmtF32.infBits s, exDZ)
    else if s then (fmtF32.canonNan, exNV)
    else
      let r := neighbour 1 x (rsqFin m e)
      if r.2 then sfuExact ftz r.1 else sfuOut ftz r.1

/-- 2^(f / 2^bits) as a fixed-point number of 128 fraction bits, from the highest bit of `f` down. -/
def exp2Frac (f : Nat) : Nat → Nat → Nat → Nat
  | 0, _, acc => acc
  | b + 1, root, acc =>
    let r := isqrt (root * 2 ^ 128)
    exp2Frac f b r (if f / 2 ^ b % 2 = 1 then acc * r / 2 ^ 128 else acc)

/-- A finite value in fixed point of 100 fraction bits. -/
def splitFixed (s : Bool) (m : Nat) (e : Int) : Int :=
  let v : Nat := match e + 100 with
    | .ofNat k => m * 2 ^ k
    | .negSucc k => m / 2 ^ (k + 1)
  if s then (-(Int.ofNat v)) else Int.ofNat v

/-- 2^(v / 2^100). -/
def exp2Approx (v : Int) : Approx :=
  let n := v / ((2 ^ 100 : Nat) : Int)
  let f := (v % ((2 ^ 100 : Nat) : Int)).toNat
  ⟨false, exp2Frac f 100 (2 * 2 ^ 128) (2 ^ 128), n - 128⟩

/-- A value just below or just above 1: closer to 1 than any pattern, on the side of the exact result. -/
def nearOne (below : Bool) : Approx := ⟨false, if below then 2 ^ 200 - 1 else 2 ^ 200 + 1, -200⟩

/-- Nearest FP32 pattern of an approximation. -/
def nearest (a : Approx) : Nat := (roundFin fmtF32 .ne false a.neg a.m a.e).1

/-- `exp2` (R241). -/
def exp2Res (ftz : Bool) (x : Nat) : FVal → FRes
  | .nan => (fmtF32.canonNan, 0)
  | .inf s => if s then (0, 0) else (fmtF32.infBits false, 0)
  | .fin s m e =>
    let v := splitFixed s m e
    if v ≥ 128 * 2 ^ 100 then (fmtF32.infBits false, exOF ||| exNX)
    else if v < -149 * 2 ^ 100 then (0, exUF ||| exNX)
    else if m = 0 || (v % ((2 ^ 100 : Nat) : Int) == 0 && decide (e ≥ -100) && decide (v ≥ -126 * 2 ^ 100)) then
      ((roundFin fmtF32 .ne false false 1 (v / ((2 ^ 100 : Nat) : Int))).1, 0)
    else
      let a := if (Nat.log2 m : Int) + e < -30 then nearOne s else exp2Approx v
      sfuOut ftz (freeIn 4 x (fun c => within2ulp c a) (nearest a))

/-- Fraction bits of log2 of `y` in [1, 2), `y` fixed-point of 256 bits. -/
def log2Bits : Nat → Nat → Nat → Nat
  | 0, _, acc => acc
  | k + 1, y, acc =>
    let q := y * y / 2 ^ 256
    if q ≥ 2 ^ 257 then log2Bits k (q / 2) (2 * acc + 1) else log2Bits k q (2 * acc)

/-- `log2` (R241). -/
def log2Res (ftz : Bool) (x : Nat) : FVal → FRes
  | .nan => (fmtF32.canonNan, 0)
  | .inf s => if s then (fmtF32.canonNan, exNV) else (fmtF32.infBits false, 0)
  | .fin s m e =>
    if m = 0 then (fmtF32.infBits true, exDZ)
    else if s then (fmtF32.canonNan, exNV)
    else
      let l := Nat.log2 m
      let k := (l : Int) + e
      if isPow2 m then ((roundFin fmtF32 .ne false (decide (k < 0)) k.natAbs 0).1, 0)
      else
        let v := k * ((2 ^ 100 : Nat) : Int) + (log2Bits 100 (m * 2 ^ 256 / 2 ^ l) 0 : Nat)
        let a : Approx := ⟨decide (v < 0), v.natAbs, -100⟩
        sfuOut ftz (freeIn 5 x (fun c => within2ulp c a) (nearest a))

/-- 2π with 440 fraction bits. -/
def twoPi440 : Nat := 17839306223372310723189790567482915335855509235951622034808292997245809955875717038656896953131357425481864998801872761555592544450721

/-- log2 e with 160 fraction bits. -/
def log2e160 : Nat := 2108501164428393954197770173035669514763056903505

/-- Sum of a sine or cosine series in fixed point of 160 bits: `term` is the k-th term, r2 = r². -/
def trigSeries (r2 : Int) : Nat → Nat → Int → Int → Int
  | 0, _, _, acc => acc
  | fuel + 1, k, term, acc =>
    let t := -(term * r2 / ((2 ^ 160 : Nat) : Int)) / (((k + 1) * (k + 2) : Nat) : Int)
    trigSeries r2 fuel (k + 2) t (acc + t)

/-- Argument reduced exactly to [0, 2π), 160 fraction bits (R240). -/
def reduceArg (s : Bool) (m : Nat) (e : Int) : Int :=
  let v : Nat := match e + 440 with
    | .ofNat k => m * 2 ^ k
    | .negSucc k => m / 2 ^ (k + 1)
  let v : Int := if s then (-(Int.ofNat v)) else Int.ofNat v
  (v % (twoPi440 : Int)) / ((2 ^ 280 : Nat) : Int)

/-- sin or cos of a finite value that is not 0; the cosine of a tiny one lies just below 1. -/
def trigApprox (isSin : Bool) (s : Bool) (m : Nat) (e : Int) : Approx :=
  if isSin = false ∧ (Nat.log2 m : Int) + e < -75 then nearOne true else
  let r := reduceArg s m e
  let r2 := r * r / ((2 ^ 160 : Nat) : Int)
  let one : Int := ((2 ^ 160 : Nat) : Int)
  let v := if isSin then trigSeries r2 60 1 r r else trigSeries r2 60 0 one one
  ⟨decide (v < 0), v.natAbs, -160⟩

/-- `sin`, `cos` (R241). -/
def trigRes (isSin : Bool) (form : Nat) (ftz : Bool) (x : Nat) : FVal → FRes
  | .nan => (fmtF32.canonNan, 0)
  | .inf _ => (fmtF32.canonNan, exNV)
  | .fin s m e =>
    if m = 0 then (if isSin then fmtF32.signBit s else 0x3F800000, 0)
    else
      let a := trigApprox isSin s m e
      sfuOut ftz (freeIn form x (fun c => withinAbs c a) (nearest a))

/-- tanh of a magnitude below 9: t − t³/3 when t < 2^−20, else (E − 1)/(E + 1) with E = 2^(2t·log2 e). -/
def tanhApprox (s : Bool) (m : Nat) (e : Int) : Approx :=
  if (Nat.log2 m : Int) + e < -20 then ⟨s, m * 2 ^ (-2 * e).toNat - (m * m * m + 2) / 3, 3 * e⟩
  else
    let v := splitFixed false m e
    let a := exp2Approx (2 * v * (log2e160 : Int) / ((2 ^ 160 : Nat) : Int))
    let big := match a.e + 256 with
      | .ofNat k => a.m * 2 ^ k
      | .negSucc k => a.m / 2 ^ (k + 1)
    ⟨s, (big - 2 ^ 256) * 2 ^ 128 / (big + 2 ^ 256), -128⟩

/-- `tanh` (R241). -/
def tanhRes (ftz : Bool) (x : Nat) : FVal → FRes
  | .nan => (fmtF32.canonNan, 0)
  | .inf s => (fmtF32.signBit s + 0x3F800000, 0)
  | .fin s m e =>
    if m = 0 then (fmtF32.signBit s, 0)
    else if splitFixed false m e ≥ 9 * 2 ^ 100 then (fmtF32.signBit s + 0x3F800000, exNX)
    else
      let a := tanhApprox s m e
      sfuOut ftz (freeIn 8 x (fun c => within2ulp c a) (nearest a))

/-- A special function of one operand (R240): `fp_in`, then its result and exceptions. -/
def sfu1 (f : Bool → Nat → FVal → FRes) (b : Block) (v : PortVals) : Word × Exc :=
  let x := b.fin fmtF32 v.a
  let r := f b.ftz (b.flushed v.a) x.1
  (BitVec.ofNat 64 r.1, x.2 ||| r.2)

/-- `sqrt` (R242). -/
def sqrtVal (b : Block) (v : PortVals) : Word × Exc :=
  let x := b.fin fmtF32 v.a
  let r := fSqrt x.1
  let o := b.fout fmtF32 r.1
  (BitVec.ofNat 64 o.1, x.2 ||| r.2 ||| o.2)

/-- `rcp` (R240, R241). -/
def execRcp (w : Fields) (s : State) : Out := .next (s.fireFp (.rcp w) w (sfu1 rcpRes))
/-- `rsq` (R240, R241). -/
def execRsq (w : Fields) (s : State) : Out := .next (s.fireFp (.rsq w) w (sfu1 rsqRes))
/-- `sqrt` (R242). -/
def execSqrt (w : Fields) (s : State) : Out := .next (s.fireFp (.sqrt w) w sqrtVal)
/-- `div` (R242). -/
def execDiv (w : Fields) (s : State) : Out :=
  .next (s.fireFp (.div w) w fun b v => fword (fp2 fmtF32 (fun _ => fDiv) b v.a v.b))
/-- `exp2` (R240, R241). -/
def execExp2 (w : Fields) (s : State) : Out := .next (s.fireFp (.exp2 w) w (sfu1 exp2Res))
/-- `log2` (R240, R241). -/
def execLog2 (w : Fields) (s : State) : Out := .next (s.fireFp (.log2 w) w (sfu1 log2Res))
/-- `sin` (R240, R241). -/
def execSin (w : Fields) (s : State) : Out := .next (s.fireFp (.sin w) w (sfu1 (trigRes true 6)))
/-- `cos` (R240, R241). -/
def execCos (w : Fields) (s : State) : Out := .next (s.fireFp (.cos w) w (sfu1 (trigRes false 7)))
/-- `tanh` (R240, R241). -/
def execTanh (w : Fields) (s : State) : Out := .next (s.fireFp (.tanh w) w (sfu1 tanhRes))

end Sys2Proof.Machine
end

