-- ==== Sys2Proof/Machine/Dispatch.lean ====
section
/-! DEFINITION. The one dispatch: every row of the opcode table and its meaning. -/

namespace Sys2Proof.Machine

def exec (i : Instr) (s : State) : Host.Outcome State Fault Refusal :=
  match i with
  | .br w => Sys2Proof.Machine.execBr w s
  | .bri w => Sys2Proof.Machine.execBri w s
  | .call w => Sys2Proof.Machine.execCall w s
  | .ret w => Sys2Proof.Machine.execRet w s
  | .exit w => Sys2Proof.Machine.execExit w s
  | .trap w => Sys2Proof.Machine.execTrap w s
  | .iadd t w => Sys2Proof.Machine.execIadd t w s
  | .isub t w => Sys2Proof.Machine.execIsub t w s
  | .imul t w => Sys2Proof.Machine.execImul t w s
  | .imulhi t w => Sys2Proof.Machine.execImulhi t w s
  | .imad t w => Sys2Proof.Machine.execImad t w s
  | .idiv t w => Sys2Proof.Machine.execIdiv t w s
  | .irem t w => Sys2Proof.Machine.execIrem t w s
  | .ineg t w => Sys2Proof.Machine.execIneg t w s
  | .iabs t w => Sys2Proof.Machine.execIabs t w s
  | .imin t w => Sys2Proof.Machine.execImin t w s
  | .imax t w => Sys2Proof.Machine.execImax t w s
  | .lea t sc w => Sys2Proof.Machine.execLea t sc w s
  | .iaddc t w => Sys2Proof.Machine.execIaddc t w s
  | .iaddSat t w => Sys2Proof.Machine.execIaddSat t w s
  | .isubSat t w => Sys2Proof.Machine.execIsubSat t w s
  | .and n w => Sys2Proof.Machine.execAnd n w s
  | .or n w => Sys2Proof.Machine.execOr n w s
  | .xor n w => Sys2Proof.Machine.execXor n w s
  | .andn n w => Sys2Proof.Machine.execAndn n w s
  | .not n w => Sys2Proof.Machine.execNot n w s
  | .shl n w => Sys2Proof.Machine.execShl n w s
  | .shr n w => Sys2Proof.Machine.execShr n w s
  | .sar n w => Sys2Proof.Machine.execSar n w s
  | .rotl n w => Sys2Proof.Machine.execRotl n w s
  | .rotr n w => Sys2Proof.Machine.execRotr n w s
  | .popc n w => Sys2Proof.Machine.execPopc n w s
  | .clz n w => Sys2Proof.Machine.execClz n w s
  | .ctz n w => Sys2Proof.Machine.execCtz n w s
  | .brev n w => Sys2Proof.Machine.execBrev n w s
  | .bfx n w => Sys2Proof.Machine.execBfx n w s
  | .bfi n w => Sys2Proof.Machine.execBfi n w s
  | .bperm n w => Sys2Proof.Machine.execBperm n w s
  | .icmp c t w => Sys2Proof.Machine.execIcmp c t w s
  | .isel n w => Sys2Proof.Machine.execIsel n w s
  | .pand w => Sys2Proof.Machine.execPand w s
  | .por w => Sys2Proof.Machine.execPor w s
  | .pxor w => Sys2Proof.Machine.execPxor w s
  | .pnot w => Sys2Proof.Machine.execPnot w s
  | .pset w => Sys2Proof.Machine.execPset w s
  | .pmov w => Sys2Proof.Machine.execPmov w s
  | .ppack w => Sys2Proof.Machine.execPpack w s
  | .fadd w => Sys2Proof.Machine.execFadd w s
  | .fsub w => Sys2Proof.Machine.execFsub w s
  | .fmul w => Sys2Proof.Machine.execFmul w s
  | .ffma w => Sys2Proof.Machine.execFfma w s
  | .fmin w => Sys2Proof.Machine.execFmin w s
  | .fmax w => Sys2Proof.Machine.execFmax w s
  | .fabs w => Sys2Proof.Machine.execFabs w s
  | .fneg w => Sys2Proof.Machine.execFneg w s
  | .fcmp c w => Sys2Proof.Machine.execFcmp c w s
  | .fsel w => Sys2Proof.Machine.execFsel w s
  | .fclass w => Sys2Proof.Machine.execFclass w s
  | .frnd mode w => Sys2Proof.Machine.execFrnd mode w s
  | .fscale w => Sys2Proof.Machine.execFscale w s
  | .fcopysign w => Sys2Proof.Machine.execFcopysign w s
  | .hadd2 t w => Sys2Proof.Machine.execHadd2 t w s
  | .hmul2 t w => Sys2Proof.Machine.execHmul2 t w s
  | .hfma2 t w => Sys2Proof.Machine.execHfma2 t w s
  | .dot2 t w => Sys2Proof.Machine.execDot2 t w s
  | .dot4 w => Sys2Proof.Machine.execDot4 w s
  | .dotds t w => Sys2Proof.Machine.execDotds t w s
  | .cvt dst src w => Sys2Proof.Machine.execCvt dst src w s
  | .cvtF32Ds8 w => Sys2Proof.Machine.execCvtF32Ds8 w s
  | .dsenc w => Sys2Proof.Machine.execDsenc w s
  | .pack2 t w => Sys2Proof.Machine.execPack2 t w s
  | .unpack2 t w => Sys2Proof.Machine.execUnpack2 t w s
  | .rcp w => Sys2Proof.Machine.execRcp w s
  | .rsq w => Sys2Proof.Machine.execRsq w s
  | .sqrt w => Sys2Proof.Machine.execSqrt w s
  | .div w => Sys2Proof.Machine.execDiv w s
  | .exp2 w => Sys2Proof.Machine.execExp2 w s
  | .log2 w => Sys2Proof.Machine.execLog2 w s
  | .sin w => Sys2Proof.Machine.execSin w s
  | .cos w => Sys2Proof.Machine.execCos w s
  | .tanh w => Sys2Proof.Machine.execTanh w s
  | .mov w => Sys2Proof.Machine.execMov w s
  | .movi w => Sys2Proof.Machine.execMovi w s
  | .movh w => Sys2Proof.Machine.execMovh w s
  | .fan w => Sys2Proof.Machine.execFan w s
  | .null w => Sys2Proof.Machine.execNull w s
  | .sreg w => Sys2Proof.Machine.execSreg w s
  | .ld t sp w => Sys2Proof.Machine.execLd t sp w s
  | .st n sp w => Sys2Proof.Machine.execSt n sp w s
  | .ldv sp w => Sys2Proof.Machine.execLdv sp w s
  | .stv sp w => Sys2Proof.Machine.execStv sp w s
  | .ldNc n w => Sys2Proof.Machine.execLdNc n w s
  | .pf w => Sys2Proof.Machine.execPf w s
  | .atomAdd t sp w => Sys2Proof.Machine.execAtomAdd t sp w s
  | .atomSub t sp w => Sys2Proof.Machine.execAtomSub t sp w s
  | .atomMin t sp w => Sys2Proof.Machine.execAtomMin t sp w s
  | .atomMax t sp w => Sys2Proof.Machine.execAtomMax t sp w s
  | .atomAnd n sp w => Sys2Proof.Machine.execAtomAnd n sp w s
  | .atomOr n sp w => Sys2Proof.Machine.execAtomOr n sp w s
  | .atomXor n sp w => Sys2Proof.Machine.execAtomXor n sp w s
  | .atomExch n sp w => Sys2Proof.Machine.execAtomExch n sp w s
  | .atomInc t sp w => Sys2Proof.Machine.execAtomInc t sp w s
  | .atomDec t sp w => Sys2Proof.Machine.execAtomDec t sp w s
  | .atomFaddF32 sp w => Sys2Proof.Machine.execAtomFaddF32 sp w s
  | .atomFadd2Bf16 sp w => Sys2Proof.Machine.execAtomFadd2Bf16 sp w s
  | .cas n sp w => Sys2Proof.Machine.execCas n sp w s
  | .casB128 sp w => Sys2Proof.Machine.execCasB128 sp w s
  | .fence w => Sys2Proof.Machine.execFence w s
  | .bar w => Sys2Proof.Machine.execBar w s
  | .barArrive w => Sys2Proof.Machine.execBarArrive w s
  | .barWait w => Sys2Proof.Machine.execBarWait w s
  | .coInit w => Sys2Proof.Machine.execCoInit w s
  | .coArrive w => Sys2Proof.Machine.execCoArrive w s
  | .coWait w => Sys2Proof.Machine.execCoWait w s
  | .elect w => Sys2Proof.Machine.execElect w s
  | .gredAdd t w => Sys2Proof.Machine.execGredAdd t w s
  | .gredMin t w => Sys2Proof.Machine.execGredMin t w s
  | .gredMax t w => Sys2Proof.Machine.execGredMax t w s
  | .cpG2v w => Sys2Proof.Machine.execCpG2v w s
  | .cpV2g w => Sys2Proof.Machine.execCpV2g w s
  | .cpV2v w => Sys2Proof.Machine.execCpV2v w s
  | .cpMc w => Sys2Proof.Machine.execCpMc w s
  | .seal w => Sys2Proof.Machine.execSeal w s
  | .unseal w => Sys2Proof.Machine.execUnseal w s
  | .vmap w => Sys2Proof.Machine.execVmap w s
  | .vunmap w => Sys2Proof.Machine.execVunmap w s
  | .vflush w => Sys2Proof.Machine.execVflush w s
  | .gath w => Sys2Proof.Machine.execGath w s
  | .collAllred t w => Sys2Proof.Machine.execCollAllred t w s
  | .collRedsc t w => Sys2Proof.Machine.execCollRedsc t w s
  | .collAllgath w => Sys2Proof.Machine.execCollAllgath w s
  | .collBcast w => Sys2Proof.Machine.execCollBcast w s
  | .seqGemm w => Sys2Proof.Machine.execSeqGemm w s
  | .seqAttn w => Sys2Proof.Machine.execSeqAttn w s
  | .frz w => Sys2Proof.Machine.execFrz w s
  | .thaw w => Sys2Proof.Machine.execThaw w s
  | .qpost w => Sys2Proof.Machine.execQpost w s
  | .mmaCfg w => Sys2Proof.Machine.execMmaCfg w s
  | .mma w => Sys2Proof.Machine.execMma w s
  | .mmaRel w => Sys2Proof.Machine.execMmaRel w s
  | .mmaClr w => Sys2Proof.Machine.execMmaClr w s
  | .srd w => Sys2Proof.Machine.execSrd w s
  | .swr w => Sys2Proof.Machine.execSwr w s
  | .trapRet w => Sys2Proof.Machine.execTrapRet w s
  | .trapSub w => Sys2Proof.Machine.execTrapSub w s
  | .ctxNew site => Sys2Proof.Machine.execCtxNew site s
  | .ctxGiveQuays site => Sys2Proof.Machine.execCtxGiveQuays site s
  | .ctxGiveMemory site => Sys2Proof.Machine.execCtxGiveMemory site s
  | .ctxGiveQueue site => Sys2Proof.Machine.execCtxGiveQueue site s
  | .ctxGiveEnergy site => Sys2Proof.Machine.execCtxGiveEnergy site s
  | .ctxTakeQuays site => Sys2Proof.Machine.execCtxTakeQuays site s
  | .ctxTakeMemory site => Sys2Proof.Machine.execCtxTakeMemory site s
  | .ctxTakeQueue site => Sys2Proof.Machine.execCtxTakeQueue site s
  | .ctxTakeEnergy site => Sys2Proof.Machine.execCtxTakeEnergy site s
  | .ctxMap site => Sys2Proof.Machine.execCtxMap site s
  | .ctxUnmap site => Sys2Proof.Machine.execCtxUnmap site s
  | .ctxUnmapRenewal site => Sys2Proof.Machine.execCtxUnmapRenewal site s
  | .ctxRun site => Sys2Proof.Machine.execCtxRun site s
  | .ctxStop site => Sys2Proof.Machine.execCtxStop site s
  | .ctxStopEnd site => Sys2Proof.Machine.execCtxStopEnd site s
  | .ctxStopRelease site => Sys2Proof.Machine.execCtxStopRelease site s
  | .enRead w => Sys2Proof.Machine.execEnRead w s
  | .enQuota site => Sys2Proof.Machine.execEnQuota site s
  | .launch w => Sys2Proof.Machine.execLaunch w s
  | .spawn w => Sys2Proof.Machine.execSpawn w s
  | .joinPut w => Sys2Proof.Machine.execJoinPut w s
  | .pgreqAckRetry w => Sys2Proof.Machine.execPgreqAckRetry w s
  | .pgreqAckRefuse w => Sys2Proof.Machine.execPgreqAckRefuse w s
  | .dlogStart site => Sys2Proof.Machine.execDlogStart site s
  | .dlogStop site => Sys2Proof.Machine.execDlogStop site s
  | .partChg site => Sys2Proof.Machine.execPartChg site s
  | .cmdLaunch c q => Sys2Proof.Machine.execCmdLaunch c q s
  | .cmdWait c q => Sys2Proof.Machine.execCmdWait c q s
  | .waitReread c q => Sys2Proof.Machine.execWaitReread c q s
  | .cmdSignalWrite c q => Sys2Proof.Machine.execCmdSignalWrite c q s
  | .cmdSignalAdd c q => Sys2Proof.Machine.execCmdSignalAdd c q s
  | .cmdCopyG2v c q => Sys2Proof.Machine.execCmdCopyG2v c q s
  | .cmdCopyV2g c q => Sys2Proof.Machine.execCmdCopyV2g c q s
  | .cmdCopyV2v c q => Sys2Proof.Machine.execCmdCopyV2v c q s
  | .cmdCopyMc c q => Sys2Proof.Machine.execCmdCopyMc c q s
  | .cmdCollAllredBf16 c q => Sys2Proof.Machine.execCmdCollAllredBf16 c q s
  | .cmdCollAllredF32 c q => Sys2Proof.Machine.execCmdCollAllredF32 c q s
  | .cmdCollRedscBf16 c q => Sys2Proof.Machine.execCmdCollRedscBf16 c q s
  | .cmdCollRedscF32 c q => Sys2Proof.Machine.execCmdCollRedscF32 c q s
  | .cmdCollAllgath c q => Sys2Proof.Machine.execCmdCollAllgath c q s
  | .cmdCollBcast c q => Sys2Proof.Machine.execCmdCollBcast c q s
  | .cmdFreeze c q => Sys2Proof.Machine.execCmdFreeze c q s
  | .cmdThaw c q => Sys2Proof.Machine.execCmdThaw c q s
  | .queueWake c q => Sys2Proof.Machine.execQueueWake c q s
  | .mrd n => Sys2Proof.Machine.execMrd n s
  | .mwr n => Sys2Proof.Machine.execMwr n s
  | .qpostMessage n => Sys2Proof.Machine.execQpostMessage n s
  | .ctxop n => Sys2Proof.Machine.execCtxop n s
  | .pgack n => Sys2Proof.Machine.execPgack n s
  | .enread n => Sys2Proof.Machine.execEnread n s
  | .attest n => Sys2Proof.Machine.execAttest n s
  | .gets n => Sys2Proof.Machine.execGets n s
  | .getm n => Sys2Proof.Machine.execGetm n s
  | .data n victim => Sys2Proof.Machine.execData n victim s
  | .tok n => Sys2Proof.Machine.execTok n s
  | .inv n => Sys2Proof.Machine.execInv n s
  | .fwds n => Sys2Proof.Machine.execFwds n s
  | .wb n => Sys2Proof.Machine.execWb n s
  | .put n => Sys2Proof.Machine.execPut n s
  | .collect n => Sys2Proof.Machine.execCollect n s
  | .done n => Sys2Proof.Machine.execDone n s
  | .persistentRequest holder line => Sys2Proof.Machine.execPersistentRequest holder line s
  | .preq n => Sys2Proof.Machine.execPreq n s
  | .pact n => Sys2Proof.Machine.execPact n s
  | .pdone n => Sys2Proof.Machine.execPdone n s
  | .pdeact n => Sys2Proof.Machine.execPdeact n s
  | .fdata n => Sys2Proof.Machine.execFdata n s
  | .refuse n => Sys2Proof.Machine.execRefuse n s
  | .sweep n => Sys2Proof.Machine.execSweep n s
  | .swack n => Sys2Proof.Machine.execSwack n s
  | .uncachedAccess n => Sys2Proof.Machine.execUncachedAccess n s
  | .remoteRequest r => Sys2Proof.Machine.execRemoteRequest r s
  | .walkStart die => Sys2Proof.Machine.execWalkStart die s
  | .walkComplete die n => Sys2Proof.Machine.execWalkComplete die n s
  | .pgreqAppend n => Sys2Proof.Machine.execPgreqAppend n s
  | .translationExpiry quay n => Sys2Proof.Machine.execTranslationExpiry quay n s
  | .generationIncrement n => Sys2Proof.Machine.execGenerationIncrement n s
  | .planeChoose quay plane => Sys2Proof.Machine.execPlaneChoose quay plane s
  | .blockConfigure quay plane => Sys2Proof.Machine.execBlockConfigure quay plane s
  | .threadAdmit quay plane slot => Sys2Proof.Machine.execThreadAdmit quay plane slot s
  | .blockResolve => Sys2Proof.Machine.execBlockResolve s
  | .commit => Sys2Proof.Machine.execCommit s
  | .entryAged quay entry => Sys2Proof.Machine.execEntryAged quay entry s
  | .coalesceHoldEnd quay entry => Sys2Proof.Machine.execCoalesceHoldEnd quay entry s
  | .runOpenTimeout quay plane => Sys2Proof.Machine.execRunOpenTimeout quay plane s
  | .drainTimeout quay plane => Sys2Proof.Machine.execDrainTimeout quay plane s
  | .bollardWeightUpdate quay bollard waiting => Sys2Proof.Machine.execBollardWeightUpdate quay bollard waiting s
  | .bollardUncorrectable quay bollard => Sys2Proof.Machine.execBollardUncorrectable quay bollard s
  | .storePerform quay slot => Sys2Proof.Machine.execStorePerform quay slot s
  | .holdBreak n => Sys2Proof.Machine.execHoldBreak n s
  | .barrierArrival quay slot => Sys2Proof.Machine.execBarrierArrival quay slot s
  | .coWaitWake quay slot => Sys2Proof.Machine.execCoWaitWake quay slot s
  | .coWaitPoll quay slot => Sys2Proof.Machine.execCoWaitPoll quay slot s
  | .workgroupDispatch n quays => Sys2Proof.Machine.execWorkgroupDispatch n quays s
  | .workgroupComplete n => Sys2Proof.Machine.execWorkgroupComplete n s
  | .launchComplete n => Sys2Proof.Machine.execLaunchComplete n s
  | .copyChunkDone op => Sys2Proof.Machine.execCopyChunkDone op s
  | .scoreboardRetire quay n => Sys2Proof.Machine.execScoreboardRetire quay n s
  | .completionRaise op => Sys2Proof.Machine.execCompletionRaise op s
  | .gatherRow op => Sys2Proof.Machine.execGatherRow op s
  | .collChunkReduce n => Sys2Proof.Machine.execCollChunkReduce n s
  | .seqStep op => Sys2Proof.Machine.execSeqStep op s
  | .mappedFill quay line => Sys2Proof.Machine.execMappedFill quay line s
  | .vflushDone op => Sys2Proof.Machine.execVflushDone op s
  | .vunmapDone op => Sys2Proof.Machine.execVunmapDone op s
  | .sealDone op => Sys2Proof.Machine.execSealDone op s
  | .unsealDone op => Sys2Proof.Machine.execUnsealDone op s
  | .freezePage op => Sys2Proof.Machine.execFreezePage op s
  | .pageFrozen page => Sys2Proof.Machine.execPageFrozen page s
  | .thawPage op => Sys2Proof.Machine.execThawPage op s
  | .matrixQueueHead pair => Sys2Proof.Machine.execMatrixQueueHead pair s
  | .endOfRow pair => Sys2Proof.Machine.execEndOfRow pair s
  | .nodeRelease pair => Sys2Proof.Machine.execNodeRelease pair s
  | .endOfOperation pair => Sys2Proof.Machine.execEndOfOperation pair s
  | .fmtRegionEnable die region v => Sys2Proof.Machine.execFmtRegionEnable die region v s
  | .fmtRegionDisable die region v => Sys2Proof.Machine.execFmtRegionDisable die region v s
  | .fmtRegionBusyClear die region => Sys2Proof.Machine.execFmtRegionBusyClear die region s
  | .netpolWrite part v => Sys2Proof.Machine.execNetpolWrite part v s
  | .controlWindowWrite die off v => Sys2Proof.Machine.execControlWindowWrite die off v s
  | .contextOpDone n => Sys2Proof.Machine.execContextOpDone n s
  | .vaultHandover n => Sys2Proof.Machine.execVaultHandover n s
  | .preemptStopReached n agent => Sys2Proof.Machine.execPreemptStopReached n agent s
  | .preemptDrainLimit n => Sys2Proof.Machine.execPreemptDrainLimit n s
  | .preemptionComplete n => Sys2Proof.Machine.execPreemptionComplete n s
  | .saveChunk n => Sys2Proof.Machine.execSaveChunk n s
  | .restore n => Sys2Proof.Machine.execRestore n s
  | .timeSliceEnd part => Sys2Proof.Machine.execTimeSliceEnd part s
  | .lamplighterArrival => Sys2Proof.Machine.execLamplighterArrival s
  | .tick => Sys2Proof.Machine.execTick s
  | .exhaustionPreempt c => Sys2Proof.Machine.execExhaustionPreempt c s
  | .powerWindow milliwatts => Sys2Proof.Machine.execPowerWindow milliwatts s
  | .thermalThrottle die celsius => Sys2Proof.Machine.execThermalThrottle die celsius s
  | .thermalTrip die celsius => Sys2Proof.Machine.execThermalTrip die celsius s
  | .patrolScrub slice find => Sys2Proof.Machine.execPatrolScrub slice find s
  | .linkFrame peer body => Sys2Proof.Machine.execLinkFrame peer body s
  | .flitRetransmit => Sys2Proof.Machine.execFlitRetransmit s
  | .keepalive => Sys2Proof.Machine.execKeepalive s
  | .peerLost peer => Sys2Proof.Machine.execPeerLost peer s
  | .swackTimeout page peer => Sys2Proof.Machine.execSwackTimeout page peer s
  | .powerOnReset failStep => Sys2Proof.Machine.execPowerOnReset failStep s
  | .blockPinned quay entry => Sys2Proof.Machine.execBlockPinned quay entry s
  | .malformedMessage n => Sys2Proof.Machine.execMalformedMessage n s

end Sys2Proof.Machine
end

