-- ==== Sys2Proof/Machine/Step.lean ====
section
/-! DEFINITION. One step of the module (log entry 1): an event of the outside, else the tick, else an instruction of a pass
in flight, else the resolution or commit of a pass, else one event that is due; the clock counts steps (log entry 2). -/

namespace Sys2Proof.Machine

/-- One cycle later. -/
def State.later (s : State) : State := { s with clock := s.clock + 1 }

/-- A module held in reset takes only the power-on reset (R463). -/
def stepInReset (s : State) : Out :=
  match s.agenda with
  | .powerOnReset k :: rest => execPowerOnReset k { s with agenda := rest }
  | _ :: rest => .next { s with agenda := rest }
  | [] => .next s

/-- The current pass takes its next instruction; once all have resolved it is resolved, then committed. -/
def stepPass (s : State) : Out :=
  match s.nextWord s.pass with
  | some idx =>
    let s : State := { s with pass := { s.pass with cur := idx } }
    match decodeWord (s.pass.block.words.getD idx 0) with
    | .ok i => exec i s
    | .error _ => .fault .illegalWord
  | none => if s.pass.resolved then execCommit s else execBlockResolve s

/-- One step of a module that is not held in reset, the clock already counted. -/
def stepOn (s : State) : Out :=
  match s.agenda with
  | i :: rest => exec i { s with agenda := rest }
  | [] =>
    if s.clock ≥ tickCycles * (s.dev.ticks + 1) then execTick s
    else
      let s := s.turnPass
      if s.canRun s.pass then stepPass s
      else
        match s.background with
        | some o => o
        | none => .next s

/-- One step of the module. -/
def step (s : State) : Host.Outcome State Fault Refusal :=
  if s.dev.inReset then stepInReset s.later else stepOn s.later

/-- A block of one word, as the placer would hold it. -/
def fetchBlock (w : Word96) : Block := { words := [w] }

/-- The pass that runs one word first: thread slot 0 of quay 0 in a block at address 0, with value 0 at both operand ports
and true at the guard port (the log entry of `withFetchWord`). -/
def fetchPass (w : Word96) : Pass :=
  { live := true, block := fetchBlock w,
    ports := [{ idx := 0, port := .a, val := some {} }, { idx := 0, port := .b, val := some {} },
              { idx := 0, port := .g, val := some { data := 1 } }] }

/-- `s` with an instruction word placed where the next step takes it: in a configured plane, entered by a thread.  Words
are the only instructions that are fetched: the module's own events are no words. -/
def State.withFetchWord (s : State) (nbits w : Nat) : State :=
  { s with pass := fetchPass (wordOfBytes (leBytes 12 (w % 2 ^ nbits))), agenda := [] }

end Sys2Proof.Machine
end

