-- ==== Sys2Proof/Safety.lean ====
section
/-! DEFINITION. The terms in which claims are stated: safe runs, the one form of the memories, and when an instruction of
the current pass fires and what it then gives. -/

namespace Sys2Proof.Safety

open Sys2Proof.Machine

/-- An outcome that is a next state. -/
def Goes : Host.Outcome State Fault Refusal → Prop
  | .next _ => True
  | _ => False

/-- The memories stand in their one form. -/
def Canonical (s : State) : Prop := Mem.wf s.mem = true ∧ Mem.wf s.vmem = true

/-- A machine that `n` steps never stop. -/
def Runs (s : State) (n : Nat) : Prop := Goes (Sys2Proof.core.run n s)

/-- How instruction `i` with fields `w` stands for the current pass. -/
def firingOf (i : Instr) (w : Fields) (s : State) : Option Firing := (Instr.form i).map fun f => s.pass.firing f w

/-- The instruction fires on the port values `v` (R186, R187) and no substitution is held for it (R372). -/
def Fires (i : Instr) (w : Fields) (v : PortVals) (s : State) : Prop :=
  firingOf i w s = some (.act v) ∧ s.substitution = none

/-- The firing is charged and its only result is the value `r`, emitted on every field (R176, R436). -/
def Gives (i : Instr) (w : Fields) (s : State) (r : Word) : Prop :=
  exec i s = .next ((s.chargeFiring i).emitVal i w r)

/-- The exceptions that trap (R51). -/
def enabledExc (s : State) : BitVec 5 := s.pass.snap.fpctl.extractLsb' 8 5

/-- As `Gives`, for a floating-point result `r` with exceptions `e` none of which is enabled: they are raised (R51). -/
def GivesFp (i : Instr) (w : Fields) (s : State) (r : Word × Exc) : Prop :=
  enabledExc s &&& r.2 = 0 →
    ∃ t, exec i s = .next t ∧
      t = { ((s.chargeFiring i).emitVal i w r.1) with
            pass := { ((s.chargeFiring i).emitVal i w r.1).pass with
                      raised := ((s.chargeFiring i).emitVal i w r.1).pass.raised ||| r.2 } }

/-- The instruction records a trap of a cause and an address at its own index and emits null (R186, R191). -/
def Traps (i : Instr) (w : Fields) (s : State) (cause : BitVec 8) (addr : Word) : Prop :=
  exec i s = .next ((s.chargeFiring i).trapHere i w cause addr)

/-- The instruction fires a branch of the branch set (R193, R194). -/
def Branches (i : Instr) (w : Fields) (s : State) (target : Word) (k : BranchKind) : Prop :=
  exec i s = .next ((s.chargeFiring i).branch i w target k)

/-- The thread of the current pass. -/
def mine (s : State) : Thread := s.thread s.pass.quay s.pass.slot

/-- State of barrier `b` as the thread of the pass sees it: that of its last commit (R331; log entry 53). -/
def barState (s : State) (b : Nat) : BitVec 2 := (mine s).bars.getD b 0

/-- A state with its pass replaced. -/
def withPass (s : State) (p : Pass) : State := { s with pass := p }

/-- A vault range that nothing holds back (R138, R148): the quay has no region, no live scoreboard entry overlaps it, no
earlier write of the thread to it is outstanding. -/
def VaultFree (q off n : Nat) (s : State) : Prop :=
  (s.regions.all fun r => r.quay != q) = true ∧ s.scored q off n = false ∧ s.ownPending (.vault q off) n = false

/-- A physical address of this module's memory: neither a control register nor another module's (R56). -/
def Local (pa : Nat) (s : State) : Prop :=
  match s.paKind pa with
  | .control _ _ | .remote _ => False
  | _ => True

/-- A translation of the pass's context is cached, with write permission if asked, and the instruction waits for none
(R106, R108); a write is not logged (R115). -/
def Translated (va : Word) (write : Bool) (e : TlbEntry) (s : State) : Prop :=
  s.waitsAt s.pass.cur = (false, false) ∧ s.tlbHit s.pass.quay s.pass.ctx va.toNat write = some e ∧
    (write = true → (s.ctx s.pass.ctx).dlog.getLsbD 0 = false)

/-- A state after an access of a place: the cached translation it went through is the one last used (R106). -/
def used (p : Place) (write : Bool) (s : State) : State :=
  match p with
  | .vault _ _ => s
  | .virt va =>
    match s.tlbHit s.pass.quay s.pass.ctx va.toNat write with
    | some e => s.touch e
    | none => s

/-- A state after word `w` read `n` bytes of a location: a vault read is charged with its bytes and their way (R435, R436),
and what the read found is noted, for R298. -/
def noted (w : Fields) (l : Loc) (n : Nat) (u : State) : State :=
  match l with
  | .glob _ => u.noteRead (Fields.lsid w) l n
  | .vault q _ =>
    ((u.charge (meterQuay q) u.pass.ctx 8 n).chargeMove u.pass.ctx q u.pass.quay n).noteRead (Fields.lsid w) l n

/-- A state after word `w` loaded `n` bytes of a place at location `l`. -/
def loaded (w : Fields) (p : Place) (l : Loc) (n : Nat) (s : State) : State := noted w l n (used p false s)

/-- `n` bytes of a place may be read now at location `l` (R76, R136, R148, R265). -/
def ReadReady (p : Place) (n : Nat) (l : Loc) (s : State) : Prop :=
  match p with
  | .vault q off => VaultFree q off n s ∧ s.vpoison q off n = false ∧ l = .vault q off
  | .virt va =>
    ∃ e, Translated va false e s ∧ l = .glob (e.xlate va.toNat).pa ∧ Local (e.xlate va.toNat).pa s ∧
      s.ownPending l n = false ∧ s.answerOf s.pass.quay ((e.xlate va.toNat).pa / 128) s.me false = none ∧
      s.readable s.pass.quay s.pass.quay ((e.xlate va.toNat).pa / 128) (e.xlate va.toNat).gen = true ∧
      (s.lineMeta s.pass.quay s.pass.quay ((e.xlate va.toNat).pa / 128) (e.xlate va.toNat).gen).poison = false

/-- `n` bytes of a place may be written, at location `l` under generation `gen` (R76, R142, R148). -/
def WriteHeld (p : Place) (n : Nat) (l : Loc) (gen : BitVec 8) (s : State) : Prop :=
  match p with
  | .vault q off => VaultFree q off n s ∧ s.heldByOther l = false ∧ l = .vault q off ∧ gen = 0
  | .virt va =>
    ∃ e, Translated va true e s ∧ l = .glob (e.xlate va.toNat).pa ∧ gen = (e.xlate va.toNat).gen ∧
      Local (e.xlate va.toNat).pa s ∧ s.answerOf s.pass.quay ((e.xlate va.toNat).pa / 128) s.me true = none ∧
      s.writable s.pass.quay ((e.xlate va.toNat).pa / 128) = true

/-- `n` bytes of a place may be stored to at commit (R270): besides, no freeze of the thread itself is on its way to the
page (R322; log entry 65). -/
def WriteReady (p : Place) (n : Nat) (l : Loc) (gen : BitVec 8) (s : State) : Prop :=
  WriteHeld p n l gen s ∧ ∀ va, p = .virt va → s.ownFreeze va.toNat = false

/-- A location of `n` bytes may be held by an atomic now (R265, R272), and its bytes are not poisoned (R71). -/
def HoldReady (p : Place) (n : Nat) (l : Loc) (gen : BitVec 8) (s : State) : Prop :=
  WriteHeld p n l gen s ∧ s.ownPending l n = false ∧ s.heldByOther l = false ∧
    match l with
    | .glob a => (s.lineMeta s.pass.quay s.pass.quay (a / 128) gen).poison = false
    | .vault q off => s.vpoison q off n = false

/-- The record of a write that waits for its block's commit (R270). -/
def writeRecord (kind : WriteKind) (p : Place) (l : Loc) (gen : BitVec 8) (bs : List Byte) (w : Fields) (scope : BitVec 3)
    (s : State) : PendWrite :=
  { kind := kind, lsid := Fields.lsid w, idx := s.pass.cur, loc := l, va := p.addr, gen := gen, bytes := bs,
    scope := scope, ctx := s.pass.ctx }

/-- A completion object named by an operand (R334): in global memory, or in a vault. -/
def ObjectAt (o : Word) (p : Place) (s : State) : Prop :=
  (o ≠ 0 ∧ o.getLsbD 63 = false ∧ o.extractLsb' 56 7 = 0 ∧ o.toNat % 16 = 0 ∧ p = .virt o) ∨
    ∃ tq off, o.getLsbD 63 = true ∧ o.extractLsb' 36 27 = 0 ∧ (o.extractLsb' 0 36).toNat % 16 = 0 ∧
      s.vaultOperand ((o.extractLsb' 0 36).zeroExtend 64) s.pass.quay s.pass.ctx 16 = .ok tq off ∧ p = .vault tq off

/-- An atomic `i` fires at a place of `n` bytes that it may hold now, at location `l` (R261 to R266, R272). -/
def AtomicFires (i : Instr) (w : Fields) (sp : AtSpace) (n : Nat) (v : PortVals) (p : Place) (l : Loc) (gen : BitVec 8)
    (s : State) : Prop :=
  Fires i w v s ∧ s.scopeOk s.pass.ctx (Fields.scope w) = true ∧
    s.place (atSpace sp) (v.a + Fields.off10 w) n n = .ok p ∧ HoldReady p n l gen s

/-- The value that an atomic finds at its location. -/
def oldOf (w : Fields) (n : Nat) (l : Loc) (s : State) : Word := BitVec.ofNat 64 (leNat (s.locRead (Fields.lsid w) l n))

/-- A state charged for the firing of an atomic that has read its location. -/
def heldRead (i : Instr) (w : Fields) (n : Nat) (p : Place) (l : Loc) (s : State) : State :=
  noted w l n (used p true (s.chargeFiring i))

/-- The state in which an atomic holds its location with the new value `x` in its shadow, the old value its result (R272). -/
def swapped (i : Instr) (w : Fields) (n : Nat) (p : Place) (l : Loc) (gen : BitVec 8) (x : Word) (s : State) : State :=
  ((heldRead i w n p l s).shadow w p l gen (leBytes n x.toNat)).emitVal i w (oldOf w n l s)

/-- The descriptor of an engine operation may be read at an offset of the issuing quay's vault, and is `d` (R282). -/
def DescAt (off : Nat) (d : BitVec 256) (w : Fields) (s : State) : Prop :=
  off % 32 = 0 ∧ off + 32 ≤ vaultEnd ∧ ReadReady (.vault s.pass.quay off) 32 (.vault s.pass.quay off) s ∧
    d = BitVec.ofNat 256 (leNat (s.locRead (Fields.lsid w) (.vault s.pass.quay off) 32))

/-- A state that captured an operation until the commit of the block (R192 step 4); `r` is the result of its word. -/
def captured (i : Instr) (w : Fields) (x : Captured) (r : Word) (s : State) : State :=
  ({ s with pass := { s.pass with captured := s.pass.captured ++ [x] } } : State).emitVal i w r

/-- An engine form fires on descriptor `d` and is not refused (R282, R285). -/
def EngineFires (i : Instr) (k : OpKind) (w : Fields) (v : PortVals) (d : BitVec 256) (s : State) : Prop :=
  Fires i w v s ∧ s.scopeOk s.pass.ctx (Fields.scope w) = true ∧ DescAt (v.a.extractLsb' 0 24).toNat d w s ∧
    engineRefusal s s.pass.ctx k v.b d 0 = none

/-- A quay's own vault place. -/
def ownPlace (off : Nat) (s : State) : Place := .vault s.pass.quay off

/-- A state charged for a firing that loaded `n` bytes of the own vault. -/
def ownLoaded (w : Fields) (off n : Nat) (s : State) : State :=
  loaded w (ownPlace off s) (.vault s.pass.quay off) n s

/-- The state in which an engine form has read its descriptor and is captured; port b is the result (R282, R285). -/
def engaged (i : Instr) (k : OpKind) (w : Fields) (v : PortVals) (d : BitVec 256) (s : State) : State :=
  captured i w { idx := s.pass.cur, kind := k, lsid := Fields.lsid w, a := (v.a.extractLsb' 0 24).zeroExtend 64, b := v.b,
                 desc := d, ext := 0, scope := Fields.scope w } v.b
    (ownLoaded w (v.a.extractLsb' 0 24).toNat 32 (s.chargeFiring i))

/-- A sequence form fires on descriptor `d` and the extended descriptor `e` it names (R129, R243, R291, R292). -/
def SequenceFires (i : Instr) (k : OpKind) (w : Fields) (v : PortVals) (d : BitVec 256) (e : BitVec 512) (s : State) :
    Prop :=
  Fires i w v s ∧ s.pairRefusal = none ∧ s.scopeOk s.pass.ctx (Fields.scope w) = true ∧
    DescAt (v.a.extractLsb' 0 24).toNat d w s ∧ oOperandOk (dSrc d) = true ∧ (dSrc d).toNat % 64 = 0 ∧
    (dSrc d).toNat + 64 ≤ vaultEnd ∧
    ReadReady (ownPlace (dSrc d).toNat s) 64 (.vault s.pass.quay (dSrc d).toNat) s ∧
    e = BitVec.ofNat 512 (leNat (s.locRead (Fields.lsid w) (.vault s.pass.quay (dSrc d).toNat) 64)) ∧
    engineRefusal s s.pass.ctx k v.b d e = none

/-- The state in which a sequence form has read both descriptors and is captured. -/
def sequenced (i : Instr) (k : OpKind) (w : Fields) (v : PortVals) (d : BitVec 256) (e : BitVec 512) (s : State) : State :=
  captured i w { idx := s.pass.cur, kind := k, lsid := Fields.lsid w, a := (v.a.extractLsb' 0 24).zeroExtend 64, b := v.b,
                 desc := d, ext := e, scope := Fields.scope w } v.b
    (ownLoaded w (dSrc d).toNat 64 (ownLoaded w (v.a.extractLsb' 0 24).toNat 32 (s.chargeFiring i)))

/-- A context operation fires on operands that stand (R403): its descriptor's offset, and the completion object. -/
def ContextFires (i : Instr) (w : Fields) (v : PortVals) (s : State) : Prop :=
  Fires i w v s ∧ (v.a.extractLsb' 0 24).toNat % 64 = 0 ∧ (v.a.extractLsb' 0 24).toNat + 64 ≤ vaultEnd ∧
    ∃ p, ObjectAt v.b p s

/-- The state in which a context operation is captured for the context controller; port b is the result. -/
def contextCaptured (i : Instr) (func : BitVec 8) (w : Fields) (v : PortVals) (s : State) : State :=
  captured i w { idx := s.pass.cur, kind := .ctx func, a := (v.a.extractLsb' 0 24).zeroExtend 64, b := v.b, scope := 5 } v.b
    (s.chargeFiring i)

/-! ### What the module does of itself -/

/-- A state without message `n` of the inbox. -/
def taken (n : Nat) (s : State) : State := { s with inbox := s.inbox.eraseIdx n }

/-- Message `n` of the inbox is `m`, of operation `op`, well formed, and has its turn (R445 to R448). -/
def Received (n op : Nat) (m : BMsg) (s : State) : Prop :=
  s.inbox[n]? = some m ∧ m.op = op ∧ m.malformed = false ∧ s.dev.failStep = 0 ∧ 6 ≤ s.dev.bootStep ∧
    (m.ord = true → s.earlierDone n m = true) ∧ s.ctxLive m.fn = true

/-- `n` bytes at a physical address of this module, in one line, whose home serves the control node (R66, R70, R447). -/
def NodeServes (pa n : Nat) (write : Bool) (s : State) : Prop :=
  0 < n ∧ pa < 2 ^ 52 ∧ pa % 128 + n ≤ 128 ∧ Local pa s ∧ s.homeCheck pa write (s.genOf (pa / 65536)) 0 noQuay = .serve

/-- Message `n` in flight is `m`; `r` is the state without it, in which the messages that follow are charged as `m` was (R438). -/
def InFlight (n : Nat) (m : NetMsg) (s r : State) : Prop :=
  s.net[n]? = some m ∧ r = { s with net := s.net.eraseIdx n, paying := m.payer }

/-- A home serves a request of a quay now (R80 to R82): nothing of the line waits, no atomic of another module holds it,
the checks pass, its set has room. -/
def HomeServes (m : NetMsg) (write : Bool) (gen : BitVec 8) (c q : Nat) (r : State) : Prop :=
  r.lineBusy m.line = false ∧ r.heldRemotely m.line = false ∧ r.homeCheck (m.line * 128) write gen c q = .serve ∧ r.dirVictim m.line = none

/-- A state charged with one access of a line's home (R436). -/
def homeCharged (line c : Nat) (s : State) : State := s.chargeHome line c

/-- A state charged with an uncached access of a line by an agent at a place (R88, R435). -/
def reachCharged (place line c : Nat) (s : State) : State := s.chargeAt place line c

/-- The home serves an access of another module now (R88, R450): nothing of the line waits or is held, the checks pass and
RMASK admits the source. -/
def RemoteServes (m : NetMsg) (pa src : Nat) (write : Bool) (gen : BitVec 8) (r : State) : Prop :=
  r.lineBusy m.line = false ∧ r.heldRemotely m.line = false ∧ r.homeCheck pa write gen 0 0 = .serve ∧
    r.rmaskAllows src pa = true

/-- Request `r` is the `n`-th whose append is not complete, and the first of those that go to the queue of context `c`, or
to the control node; its quay is not being saved (R111, R510). -/
def FirstAppend (n : Nat) (r : PgReq) (c : Option Nat) (s : State) : Prop :=
  s.openAppends[n]? = some r ∧ r.queue = none ∧ s.pgTarget (some r.owner) 9 = c ∧ s.engStopped r.quay = false ∧
    (∀ x ∈ s.openAppends, c ≠ none → x.queue ≠ c) ∧
    ∀ x ∈ s.openAppends.take n, x.queue = none → s.pgTarget (some x.owner) 9 ≠ c

/-- An engine operation of a kind may take a step now (R118, R378); `o` is its entry. -/
def OpActs (op : Nat) (k : OpKind) (o : EngOp) (s : State) : Prop :=
  s.op? op = some o ∧ s.opRuns o = true ∧ o.kind = k ∧ o.status ≤ 1

/-- An engine operation whose work is over, at its raise with status `st` (R121, R122, R150). -/
def OpRaises (op st : Nat) (o : EngOp) (s : State) : Prop :=
  s.op? op = some o ∧ o.finished = true ∧ o.waiting = false ∧ s.opHalted o = false ∧ s.storesPending o = false ∧
    (s.scores.any fun e => e.op == op) = false ∧ o.phase = 100 + st ∧ o.status = 0

/-- A vault that no region covers any part of, and a range of it where nothing is held (R138, R272). -/
def VaultOpen (q off n : Nat) (s : State) : Prop :=
  (s.regions.all fun r => r.quay != q) = true ∧ s.heldRange q off n = false

/-- A vault object that a BLOCKED thread waits for may be read now, and is `o` (R337, R507). -/
def ObjectRead (t : Thread) (q off : Nat) (o : BitVec 128) (s : State) : Prop :=
  s.holdsQuay t.runCtx q = true ∧ s.scored q off 16 = false ∧ t.pending (.vault q off) 16 = false ∧
    s.lineToFill q off 16 = none ∧
    s.vpoison q off 16 = false ∧ o = BitVec.ofNat 128 (leNat (s.vread q off 16))

/-- The pass may commit (R116, R192, R258, R271, R277, R508): it has resolved with one branch, nothing released before it
holds it back, and its reductions, entries and held writes find their place. -/
def Commits (f : Fired) (s : State) : Prop :=
  s.pass.live = true ∧ s.pass.resolved = true ∧ s.pass.fired = [f] ∧ s.pass.leaving ≠ 2 ∧
    ((f.exits = true ∨ s.pass.shadows ≠ []) → (mine s).writesOut = false) ∧
    (f.exits = true → (mine s).late = []) ∧ s.gredReady s.pass (mine s).group = true ∧
    s.entriesReady s.pass = true ∧ s.holdRemote s.pass = none ∧
    s.canPerform s.pass f.exits s (s.atOnce s.pass f.exits) = .yes

/-- Every instruction of the pass has resolved, with no token not ready and no poison (R191). -/
def Ends (s : State) : Prop :=
  s.pass.live = true ∧ s.pass.resolved = false ∧ s.pass.allDone = true ∧ s.pass.notReady = false ∧ s.pass.poison = false

/-- The block of a plane's entry is fetched and awaits its check, and no restored thread stands in the plane (R184, R364,
R390). -/
def Placeable (q p : Nat) (s : State) : Prop :=
  (s.plane q p).isOpen = true ∧ (s.plane q p).configured = false ∧ (s.entry q (s.plane q p).entry).pinned = true ∧
    (s.passes.any fun x => x.quay == q && x.plane == p && x.unplaced) = false

/-- A thread may enter a plane's block now (R165, R359, R360): `t` is the thread, `e` the plane's entry. -/
def Admits (q p sl : Nat) (s : State) : Prop :=
  (s.plane q p).st = .admitting ∧ (s.plane q p).configured = true ∧
    (s.entry q (s.plane q p).entry).vec.contains sl = true ∧ s.fabricHalted q = false ∧
    s.anyAged q = false ∧ s.openTooLong (s.plane q p) = false ∧ s.coopHeld (s.thread q sl) = false ∧ (s.thread q sl).late = []

/-- The command `m` in hand of queue `q` of context `c` is `op` and `sub`, has its turn by stream order and passes the
checks of its processor; nothing that is complete is left to leave the queue (R350 to R352). -/
def CommandDue (c q op sub : Nat) (x : Queue) (m : BitVec 1024) (s : State) : Prop :=
  s.settleQueue c q = s ∧ x = s.queue c q ∧ x.cmd = some m ∧ s.hasTurn c q = true ∧ cmdBits m 0 8 = op ∧
    cmdBits m 13 3 = sub ∧ x.waitOp = none ∧ x.refused = false ∧ s.checkCommand c m = 0

/-- The `n`-th operation of the context controller is `o`, of FUNC `func`, its descriptor read and its turn come
(R403, R405). -/
def ContextTurn (n : Nat) (func : BitVec 8) (o : CtxOp) (s : State) : Prop :=
  s.ctxq[n]? = some o ∧ o.func = func ∧ o.phase = 0 ∧ 0 < o.reach ∧ s.ctxBlocked o = false

/-- As `ContextTurn`, for an operation on a live child of its issuer (R404, R416). -/
def ChildTurn (n : Nat) (func : BitVec 8) (o : CtxOp) (s : State) : Prop :=
  ContextTurn n func o s ∧ s.childCode o false = 0

/-- The `n`-th operation of the controller has ended with a code and a count (R404). -/
def CtxEnded (n code count : Nat) (s : State) : Prop :=
  ∃ o, s.ctxq[n]? = some o ∧ o.phase = 9 ∧ o.code = code ∧ o.count = count

end Sys2Proof.Safety
end

