-- ==== Sys2Proof/Certificates/Slice0/Obligations.lean ====
section
/-! DEFINITION. The statements about the model, each a proposition named for what it says. -/

open Sys2Proof Sys2Proof.Machine Sys2Proof.Safety

/-! ### Encoding -/

/-- Every well-formed instruction word decodes, from the word its encoding gives, to itself (R175 to R183): no bit of
a field is dropped. A word that several rows of the table share stands for the row of `Instr.canonical` (log entry 7).
-/
def Obligations.DecodeEncodeAgree : Prop :=
  ∀ (i : Instr) (w : Word96), Instr.canonical i = i → Instr.wf i = true → Instr.encode i = some w →
    decodeWord w = .ok i

/-- What the decoder accepts is well formed, and its encoding is the word it was read from: two words never give one
instruction, and no bit of an accepted word is ignored (R175, R184). -/
def Obligations.DecodedWordsEncodeBack : Prop :=
  ∀ (w : Word96) (i : Instr), decodeWord w = .ok i →
    Instr.wf i = true ∧ Instr.canonical i = i ∧ Instr.encode i = some w

/-- Ten words that the manual writes out decode to the forms they stand for (R465, R475, R480, R496 and the worked
examples of R200, R220, R252 and R282). Classes 0xE and 0xF are no instruction class: no word of either decodes. -/
def Obligations.EncodedWordsDecode : Prop :=
  (decodeWord 0x238000020000000000300001#96 = .ok (.sar .b32 ⟨.none, 0, 0, .slot 0, .empty, .imm 1⟩) ∧
   decodeWord 0x271450010600080000700804#96 = .ok (.bfx .b64 ⟨.ifTrue 5, 0, 0, .target 6 .a, .slot 1, .imm 0x804⟩) ∧
   decodeWord 0x31800001040008000033F800#96 = .ok (.ffma ⟨.none, 0, 0, .target 4 .a, .slot 0, .imm 0x3F800⟩) ∧
   decodeWord 0x7080000101000000003010A0#96 = .ok (.movi ⟨.none, 0, 0, .target 1 .a, .empty, .imm 0x10A0⟩) ∧
   decodeWord 0x901000010200080000305000#96 = .ok (.atomAdd .n32 .g ⟨.none, 0, 0, .target 2 .a, .slot 0, .imm 0x5000⟩) ∧
   decodeWord 0x9D000000000000000030D400#96 = .ok (.fence ⟨.none, 0, 0, .empty, .empty, .imm 0xD400⟩) ∧
   decodeWord 0xA28000000000000000380002#96 = .ok (.coWait ⟨.none, 0, 0, .empty, .empty, .imm 0x80002⟩) ∧
   decodeWord 0xB00000010300000000304000#96 = .ok (.cpG2v ⟨.none, 0, 0, .target 3 .a, .empty, .imm 0x4000⟩) ∧
   decodeWord 0xC08000000000000000300001#96 = .ok (.mma ⟨.none, 0, 0, .empty, .empty, .imm 1⟩) ∧
   decodeWord 0xD00000010F40000000300802#96 = .ok (.srd ⟨.none, 0, 0, .target 15 .b, .empty, .imm 0x802⟩)) ∧
  (∀ w : Word96, w.extractLsb' 92 4 = 14 ∨ w.extractLsb' 92 4 = 15 → ∃ e, decodeWord w = .error e)

/-! ### A step -/

/-- A step of a module that is not held in reset, with no event of the outside waiting, no tick due and a pass that
may go on, is `exec` of the instruction its next word decodes to, one cycle later, with the pass's current index set
to that word. The current pass keeps its turn while it may go on; else the first pass in flight that may takes it. -/
def Obligations.StepRunsDecodedInstruction : Prop :=
  ∀ (s : State) (k : Nat) (i : Instr), s.dev.inReset = false → s.agenda = [] →
    s.clock + 1 < tickCycles * (s.dev.ticks + 1) →
    let u : State := { s with clock := s.clock + 1 }
    let v : State := u.turnPass
    (v.canRun v.pass = true → v.nextWord v.pass = some k → decodeWord (v.pass.block.words.getD k 0) = .ok i →
      step s = exec i { v with pass := { v.pass with cur := k } }) ∧
    (u.canRun s.pass = true → v = u) ∧
    (∀ p, u.canRun s.pass = false → s.parked.find? u.canRun = some p →
      v = { u with pass := p, parked := s.parked.erase p ++ if s.pass.live then [s.pass] else [] })

/-- A step of a module that is not held in reset takes the oldest waiting event of the outside first, one cycle later
(log entry 1: the model's own order of events). A word placed by `withFetchWord` is the next instruction: a step from
reset runs what the decoder reads from it, if its guard and ports let it fire there. -/
def Obligations.OutsideEventsAndPlacedWordsRun : Prop :=
  (∀ (s : State) (i : Instr) (rest : List Instr), s.dev.inReset = false → s.agenda = i :: rest →
     step s = exec i { s with clock := s.clock + 1, agenda := rest }) ∧
  (∀ (n w : Nat) (i : Instr), decodeTableWord n w = some i → n ≤ 96 →
     let u : State := { (State.reset.withFetchWord n w) with clock := 1 }
     u.nextWord u.pass = some 0 → step (State.reset.withFetchWord n w) = exec i u)

/-! ### Firing (R185 to R187, R372) -/

/-- Every instruction word but `null`, with no substitution in play: a port still waited for passes it over; a false
guard or ports all null make it emit null, uncharged; a not-ready token makes it emit not-ready; ports partly null
record a dataflow conflict, cause 0x02, at its index, and it emits null. A substitution the thread holds for the word
replaces what it would do: its value is emitted where the form has a result, null where it has none; nothing else
happens and nothing is charged (R372). -/
def Obligations.EveryWordFiresByTheRule : Prop :=
  (∀ (i : Instr) (w : Fields) (s : State), Instr.fields i = some w → (∀ x, i ≠ .null x) →
     (firingOf i w s = some .wait → exec i s = .next s.stall) ∧
     (firingOf i w s = some .guardFalse → exec i s = .next (s.emitNull i w)) ∧
     (firingOf i w s = some .allNull → exec i s = .next (s.emitNull i w)) ∧
     (firingOf i w s = some .notReady → exec i s = .next (s.emitNotReady i w)) ∧
     (firingOf i w s = some .conflict → s.substitution = none →
       exec i s = .next ((s.chargeFiring i).trapHere i w 0x02 0))) ∧
  (∀ (i : Instr) (w : Fields) (f : Form) (v : PortVals) (x : Word) (s : State), Instr.fields i = some w →
     (∀ y, i ≠ .null y) → Instr.form i = some f → firingOf i w s = some (.act v) → s.substitution = some x →
     exec i s = .next (if f.result then s.emitVal i w x else s.emitNull i w))

/-- A port takes the first non-null token that reaches it; a second one is recorded as a dataflow conflict at the
instruction that reads the port; a null is counted, and a port whose producers all delivered null resolves to null;
until then the port is unresolved. A write slot that a second non-null token reaches is a dataflow conflict at the highest
of its non-null producers (R186). Of the traps a pass records, the one of the lowest instruction index stands (R191). -/
def Obligations.PortsAndTrapsResolve : Prop :=
  (∀ (p : Pass) (k : Nat) (port : Port) (t : Tok),
     (t.null = false → (p.cell k port).val = none → (p.toPort k port t).port k port = some t) ∧
     (t.null = false → (p.cell k port).val.isSome = true → p.trap = none →
       (p.toPort k port t).trap = some { cause := 0x02, idx := k } ∧ (p.toPort k port t).port k port = p.port k port) ∧
     (t.null = true → (p.cell k port).val = none → p.block.producers k port ≤ (p.cell k port).nulls + 1 →
       (p.toPort k port t).port k port = some { null := true }) ∧
     (t.null = true → (p.cell k port).val = none → (p.cell k port).nulls + 1 < p.block.producers k port →
       (p.toPort k port t).port k port = none)) ∧
  (∀ (p : Pass) (k i : Nat) (t : Tok), t.null = false →
     ((p.slotCell k).val = none → (p.toSlot k i t).slotCell k = { p.slotCell k with val := some t, high := i }) ∧
     ((p.slotCell k).val.isSome = true →
       (p.toSlot k i t).slotCell k = { p.slotCell k with high := max (p.slotCell k).high i, many := true })) ∧
  (∀ (p : Pass) (c : SlotCell), c ∈ p.slots → c.many = true → { cause := 0x02, idx := c.high } ∈ p.conflicts) ∧
  (∀ (p : Pass) (x y : TrapNote), p.trap = none → x.idx ≠ y.idx →
     ((p.note x).note y).trap = some (if x.idx < y.idx then x else y))

/-- Until its block commits, an instruction word changes nothing but its pass, its charge and what the memory system
holds of its requests: no register, no thread, no vault byte, no context, no queue, no engine operation (R191, R192).
The module's memory changes only where the context's dirty log records a page (R115). Frame of the forms that reach no
memory (control, arithmetic, logic, compare, predicate, floating point, conversion, special function, move, barrier,
`elect`, `gred`, matrix, `srd`, `swr`, `trap.ret`, `trap.sub`, `en.read`): only the pass and the meters change; every
register, predicate, thread, every byte of memory and of every vault stays. -/
def Obligations.WordsActOnTheirPassAlone : Prop :=
  (∀ (i : Instr) (w : Fields) (s t : State), Instr.fields i = some w → exec i s = .next t →
     t = { s with pass := t.pass, meters := t.meters, walks := t.walks, tlb := t.tlb, reqs := t.reqs, net := t.net,
                  answers := t.answers, fills := t.fills, remotes := t.remotes, links := t.links, nextId := t.nextId,
                  mem := t.mem, holdWaits := t.holdWaits, collecting := t.collecting, paying := t.paying } ∧
     ((s.ctx s.pass.ctx).dlog.getLsbD 0 = false → t.mem = s.mem)) ∧
  (∀ (i : Instr) (w : Fields) (f : Form) (s t : State), Instr.fields i = some w → Instr.form i = some f →
     (f.cls.toNat ≤ 7 ∨ f.cls = 0xC ∨ (f.cls = 0xA ∧ ∀ x, i ≠ .coInit x ∧ i ≠ .coArrive x ∧ i ≠ .coWait x) ∨
       (∃ x, i = .srd x ∨ i = .swr x ∨ i = .trapRet x ∨ i = .trapSub x ∨ i = .enRead x)) →
     exec i s = .next t →
     t = { s with pass := t.pass, meters := t.meters } ∧ (∀ a, Mem.read t.mem a = Mem.read s.mem a) ∧
       (∀ a, Mem.read t.vmem a = Mem.read s.vmem a) ∧ t.threads = s.threads)

/-! ### Integer, logic, compare, move: classes 0x1, 0x2, 0x7 -/

/-- `operand(v, T)` is the value of the type congruent to v modulo 2^n, and `write_result` of it gives v's low n bits,
sign-extended to 32 where the type is signed and narrower (R200). -/
def Obligations.OperandsAndResultsOfIntegers : Prop :=
  ∀ (t : IntTy) (v : Word) (x : Int),
    intLo t ≤ intOperand t v ∧ intOperand t v ≤ intHi t ∧
    (intOperand t v - (v.toNat : Int)) % ((2 ^ intWidth t : Nat) : Int) = 0 ∧
    (intLo t ≤ x → x ≤ intHi t → intOperand t (intResult t x) = x) ∧
    ((intResult t x).toNat : Int) % ((2 ^ intWidth t : Nat) : Int) = x % ((2 ^ intWidth t : Nat) : Int) ∧
    (intResult t x).toNat < 2 ^ (max 32 (intWidth t))

/-- The result of every integer form that fires (R204 to R207). -/
def Obligations.IntegerResults : Prop :=
  ∀ (t : IntTy) (g : SIntTy) (w : Fields) (v : PortVals) (s : State),
    let x := intOperand t v.a
    let y := intOperand t v.b
    let z := intOperand (sintTy g) v.a
    (Fires (.iadd t w) w v s → Gives (.iadd t w) w s (intResult t (x + y))) ∧
    (Fires (.isub t w) w v s → Gives (.isub t w) w s (intResult t (x - y))) ∧
    (Fires (.imul t w) w v s → Gives (.imul t w) w s (intResult t (x * y))) ∧
    (Fires (.imulhi t w) w v s → Gives (.imulhi t w) w s (intResult t (x * y / ((2 ^ intWidth t : Nat) : Int)))) ∧
    (Fires (.imad t w) w v s → Gives (.imad t w) w s (intResult t (x * y + intOperand t v.g))) ∧
    (Fires (.idiv t w) w v s → Gives (.idiv t w) w s (intResult t (idivVal t x y))) ∧
    (Fires (.irem t w) w v s → Gives (.irem t w) w s (intResult t (iremVal t x y))) ∧
    (Fires (.ineg g w) w v s → Gives (.ineg g w) w s (intResult (sintTy g) (-z))) ∧
    (Fires (.iabs g w) w v s → Gives (.iabs g w) w s (intResult (sintTy g) (z.natAbs : Int))) ∧
    (Fires (.imin t w) w v s → Gives (.imin t w) w s (intResult t (min x y))) ∧
    (Fires (.imax t w) w v s → Gives (.imax t w) w s (intResult t (max x y))) ∧
    (∀ (u : LeaTy) (k : BitVec 2), Fires (.lea u k w) w v s → Gives (.lea u k w) w s (leaVal u k v)) ∧
    (Fires (.iaddc .n32 w) w v s →
      Gives (.iaddc .n32 w) w s (BitVec.ofNat 64 (v.a.toNat % 2 ^ 32 + v.b.toNat % 2 ^ 32 + v.g.toNat % 2))) ∧
    (Fires (.iaddc .n64 w) w v s →
      Gives (.iaddc .n64 w) w s (BitVec.ofNat 64 ((v.a.toNat + v.b.toNat + v.g.toNat % 2) / 2 ^ 64))) ∧
    (Fires (.iaddSat t w) w v s → Gives (.iaddSat t w) w s (intResult t (max (intLo t) (min (intHi t) (x + y))))) ∧
    (Fires (.isubSat t w) w v s → Gives (.isubSat t w) w s (intResult t (max (intLo t) (min (intHi t) (x - y)))))

/-- Division: by 0 the quotient is all ones and the remainder the dividend; the most negative value by −1 gives itself
and remainder 0; else the quotient is rounded toward zero and the remainder has the sign of the dividend, with x = q ·
y + r and |r| < |y| (R205). Sums of more than 64 bits: `iadd.n64` gives the low word and `iaddc.n64` the carry out,
which together are the exact sum of the operands and the carry in (R204, R207). -/
def Obligations.DivisionAndCarryMean : Prop :=
  (∀ (t : IntTy) (x y : Int), intLo t ≤ x → x ≤ intHi t → intLo t ≤ y → y ≤ intHi t →
     (y = 0 → intResult t (idivVal t x y) = intResult t (-1) ∧ iremVal t x y = x) ∧
     (intSigned t = true → x = intLo t → y = -1 → idivVal t x y = x ∧ iremVal t x y = 0) ∧
     (y ≠ 0 → ¬(intSigned t = true ∧ x = intLo t ∧ y = -1) →
       x = idivVal t x y * y + iremVal t x y ∧ (iremVal t x y).natAbs < y.natAbs ∧
         (0 ≤ x → 0 ≤ iremVal t x y) ∧ (x ≤ 0 → iremVal t x y ≤ 0))) ∧
  (∀ a b g : Word,
     (intResult .n64 (intOperand .n64 (intResult .n64 (intOperand .n64 a + intOperand .n64 b)) +
         ((g.toNat % 2 : Nat) : Int))).toNat + (iaddcVal .n64 ⟨a, b, g⟩).toNat * 2 ^ 64 =
       a.toNat + b.toNat + g.toNat % 2)

/-- The result of every logic, shift and bit form that fires (R208 to R212). -/
def Obligations.LogicResults : Prop :=
  ∀ (n : Width) (w : Fields) (v : PortVals) (s : State),
    (Fires (.and n w) w v s → Gives (.and n w) w s (lowBits n (v.a &&& v.b))) ∧
    (Fires (.or n w) w v s → Gives (.or n w) w s (lowBits n (v.a ||| v.b))) ∧
    (Fires (.xor n w) w v s → Gives (.xor n w) w s (lowBits n (v.a ^^^ v.b))) ∧
    (Fires (.andn n w) w v s → Gives (.andn n w) w s (lowBits n (v.a &&& ~~~v.b))) ∧
    (Fires (.not n w) w v s → Gives (.not n w) w s (lowBits n (~~~v.a))) ∧
    (Fires (.shl n w) w v s →
      Gives (.shl n w) w s (if v.b.toNat < widthBits n then lowBits n (v.a <<< v.b.toNat) else 0)) ∧
    (Fires (.shr n w) w v s →
      Gives (.shr n w) w s (if v.b.toNat < widthBits n then lowBits n v.a >>> v.b.toNat else 0)) ∧
    (Fires (.sar n w) w v s → Gives (.sar n w) w s (sarVal n v)) ∧
    (Fires (.rotl n w) w v s → Gives (.rotl n w) w s (rotlVal n v)) ∧
    (Fires (.rotr n w) w v s → Gives (.rotr n w) w s (rotrVal n v)) ∧
    (Fires (.popc n w) w v s → Gives (.popc n w) w s (BitVec.ofNat 64 (popcount (lowBits n v.a).toNat (widthBits n)))) ∧
    (Fires (.clz n w) w v s →
      Gives (.clz n w) w s (BitVec.ofNat 64 (leadingZeros (lowBits n v.a).toNat (widthBits n)))) ∧
    (Fires (.ctz n w) w v s →
      Gives (.ctz n w) w s (BitVec.ofNat 64 (trailingZeros (lowBits n v.a).toNat (widthBits n)))) ∧
    (Fires (.brev n w) w v s →
      Gives (.brev n w) w s (BitVec.ofNat 64 (reverseBits (lowBits n v.a).toNat (widthBits n)))) ∧
    (Fires (.bfx n w) w v s →
      Gives (.bfx n w) w s (BitVec.ofNat 64 ((lowBits n v.a).toNat / 2 ^ fieldPos v.b % 2 ^ fieldLen v.b))) ∧
    (Fires (.bfi n w) w v s → Gives (.bfi n w) w s (bfiVal n v)) ∧
    (Fires (.bperm n w) w v s →
      Gives (.bperm n w) w s (BitVec.ofNat 64 (bpermVal (widthBits n / 8) v (widthBits n / 8))))

/-- What the bit counts mean: reversing twice gives the number back; a number below 2^k is below 2^(k − z) where z is
its count of leading zeros, and at or above 2^(k − z − 1) unless it is 0; trailing zeros divide it (R210). -/
def Obligations.BitCountsMean : Prop :=
  ∀ x k : Nat, x < 2 ^ k →
    reverseBits (reverseBits x k) k = x ∧ popcount (reverseBits x k) k = popcount x k ∧
    x < 2 ^ (k - leadingZeros x k) ∧ (x ≠ 0 → 2 ^ (k - leadingZeros x k - 1) ≤ x) ∧ (x = 0 → leadingZeros x k = k) ∧
    x % 2 ^ trailingZeros x k = 0 ∧ (x ≠ 0 → x / 2 ^ trailingZeros x k % 2 = 1) ∧ (x = 0 → trailingZeros x k = k)

/-- The result of every compare, select and predicate form that fires (R213 to R215). The result of every data
movement form (R216 to R219); `null` emits null whatever its guard and ports (R218). -/
def Obligations.ComparePredicateAndMoveResults : Prop :=
  (∀ (t : IntTy) (n : Width) (w : Fields) (v : PortVals) (s : State),
     let x := intOperand t v.a
     let y := intOperand t v.b
     let p := v.a.getLsbD 0
     let q := v.b.getLsbD 0
     (Fires (.icmp .eq t w) w v s → Gives (.icmp .eq t w) w s (if x = y then 1 else 0)) ∧
     (Fires (.icmp .ne t w) w v s → Gives (.icmp .ne t w) w s (if x ≠ y then 1 else 0)) ∧
     (Fires (.icmp .lt t w) w v s → Gives (.icmp .lt t w) w s (if x < y then 1 else 0)) ∧
     (Fires (.icmp .le t w) w v s → Gives (.icmp .le t w) w s (if x ≤ y then 1 else 0)) ∧
     (Fires (.icmp .gt t w) w v s → Gives (.icmp .gt t w) w s (if y < x then 1 else 0)) ∧
     (Fires (.icmp .ge t w) w v s → Gives (.icmp .ge t w) w s (if y ≤ x then 1 else 0)) ∧
     (Fires (.isel n w) w v s → Gives (.isel n w) w s (lowBits n (if v.g.getLsbD 0 then v.a else v.b))) ∧
     (Fires (.pand w) w v s → Gives (.pand w) w s (if p && q then 1 else 0)) ∧
     (Fires (.por w) w v s → Gives (.por w) w s (if p || q then 1 else 0)) ∧
     (Fires (.pxor w) w v s → Gives (.pxor w) w s (if p != q then 1 else 0)) ∧
     (Fires (.pnot w) w v s → Gives (.pnot w) w s (if p then 0 else 1)) ∧
     (Fires (.pset w) w v s → Gives (.pset w) w s (if v.a = 0 then 0 else 1)) ∧
     (Fires (.pmov w) w v s → Gives (.pmov w) w s (if p then 1 else 0)) ∧
     (Fires (.ppack w) w v s → Gives (.ppack w) w s (v.a * 2 + (if q then 1 else 0)))) ∧
  (∀ (w : Fields) (v : PortVals) (s : State),
     (Fires (.mov w) w v s → Gives (.mov w) w s v.a) ∧
     (Fires (.movi w) w v s → Gives (.movi w) w s v.a) ∧
     (Fires (.movh w) w v s → Gives (.movh w) w s (v.a <<< 20 + (v.b.extractLsb' 0 20).zeroExtend 64)) ∧
     (Fires (.fan w) w v s → Gives (.fan w) w s v.a) ∧
     (s.substitution = none → exec (.null w) s = .next ((s.chargeFiring (.null w)).emitNull (.null w) w)) ∧
     (∀ x, s.substitution = some x → exec (.null w) s = .next (s.emitVal (.null w) w x)) ∧
     (Fires (.sreg w) w v s → Gives (.sreg w) w s (s.special v.a.toNat)))

/-! ### Floating point: classes 0x3 to 0x6 -/

/-- The result and the exceptions of every FP32 and packed form that fires with none of its exceptions enabled: the
exact result rounded once in the block's mode, flushed and saturated as the block says (R220 to R233). -/
def Obligations.FloatingPointResults : Prop :=
  ∀ (w : Fields) (v : PortVals) (s : State),
    let b := s.pass.block
    (Fires (.fadd w) w v s → GivesFp (.fadd w) w s (fword (fp2 fmtF32 fAdd b v.a v.b))) ∧
    (Fires (.fsub w) w v s → GivesFp (.fsub w) w s (fword (fp2 fmtF32 (fun rm x y => fAdd rm x y.neg) b v.a v.b))) ∧
    (Fires (.fmul w) w v s → GivesFp (.fmul w) w s (fword (fp2 fmtF32 (fun _ => fMul) b v.a v.b))) ∧
    (Fires (.ffma w) w v s → GivesFp (.ffma w) w s (fword (fp3 fmtF32 b v.a v.b v.g))) ∧
    (Fires (.fmin w) w v s → GivesFp (.fmin w) w s (fminmax true b v)) ∧
    (Fires (.fmax w) w v s → GivesFp (.fmax w) w s (fminmax false b v)) ∧
    (Fires (.fabs w) w v s → Gives (.fabs w) w s (v.a &&& 0x7FFFFFFF)) ∧
    (Fires (.fneg w) w v s → Gives (.fneg w) w s ((v.a &&& 0xFFFFFFFF) ^^^ 0x80000000)) ∧
    (∀ c, Fires (.fcmp c w) w v s → GivesFp (.fcmp c w) w s (fcmpVal c b v)) ∧
    (Fires (.fsel w) w v s → Gives (.fsel w) w s ((if v.g.getLsbD 0 then v.a else v.b) &&& 0xFFFFFFFF)) ∧
    (Fires (.fclass w) w v s → Gives (.fclass w) w s (fclassVal v)) ∧
    (∀ r, Fires (.frnd r w) w v s → GivesFp (.frnd r w) w s (frndVal (rndMode r) b v)) ∧
    (Fires (.fscale w) w v s → GivesFp (.fscale w) w s (fscaleVal b v)) ∧
    (Fires (.fcopysign w) w v s → Gives (.fcopysign w) w s ((v.a &&& 0x7FFFFFFF) ||| (v.b &&& 0x80000000))) ∧
    (∀ t, Fires (.hadd2 t w) w v s → GivesFp (.hadd2 t w) w s
      (packed fun k => fp2 (halfFmt t) fAdd b (lane16 v.a k) (lane16 v.b k))) ∧
    (∀ t, Fires (.hmul2 t w) w v s → GivesFp (.hmul2 t w) w s
      (packed fun k => fp2 (halfFmt t) (fun _ => fMul) b (lane16 v.a k) (lane16 v.b k))) ∧
    (∀ t, Fires (.hfma2 t w) w v s → GivesFp (.hfma2 t w) w s
      (packed fun k => fp3 (halfFmt t) b (lane16 v.a k) (lane16 v.b k) (lane16 v.g k))) ∧
    (∀ t, Fires (.dot2 t w) w v s → GivesFp (.dot2 t w) w s (dot2Val (halfFmt t) b v)) ∧
    (Fires (.dot4 w) w v s → Gives (.dot4 w) w s (intResult .s32 (intOperand .s32 v.g + sbyte v.a 0 * sbyte v.b 0 +
      sbyte v.a 1 * sbyte v.b 1 + sbyte v.a 2 * sbyte v.b 2 + sbyte v.a 3 * sbyte v.b 3))) ∧
    (∀ t, Fires (.dotds t w) w v s → GivesFp (.dotds t w) w s (dotdsVal (actFmt t) b v))

/-- The result and the exceptions of every conversion and special-function form that fires with none of its exceptions
enabled (R234 to R242). A floating-point form one of whose exceptions is enabled traps with "floating-point
exception", cause 0x05, the exceptions in the record, and emits null; shown for one form of each class (R51, R220). -/
def Obligations.ConversionAndSpecialResults : Prop :=
  (∀ (w : Fields) (v : PortVals) (s : State),
     let b := s.pass.block
     (∀ d f, Fires (.cvt d f w) w v s → GivesFp (.cvt d f w) w s (cvtVal d f b v)) ∧
     (Fires (.cvtF32Ds8 w) w v s → Gives (.cvtF32Ds8 w) w s (cvtDs8Val v)) ∧
     (Fires (.dsenc w) w v s → GivesFp (.dsenc w) w s (dsencVal b v)) ∧
     (∀ t, Fires (.pack2 t w) w v s → GivesFp (.pack2 t w) w s (pack2Val (packFmt t) b v)) ∧
     (∀ t, Fires (.unpack2 t w) w v s → Gives (.unpack2 t w) w s (unpack2Val (packFmt t) v)) ∧
     (Fires (.rcp w) w v s → GivesFp (.rcp w) w s (sfu1 rcpRes b v)) ∧
     (Fires (.rsq w) w v s → GivesFp (.rsq w) w s (sfu1 rsqRes b v)) ∧
     (Fires (.sqrt w) w v s → GivesFp (.sqrt w) w s (sqrtVal b v)) ∧
     (Fires (.div w) w v s → GivesFp (.div w) w s (fword (fp2 fmtF32 (fun _ => fDiv) b v.a v.b))) ∧
     (Fires (.exp2 w) w v s → GivesFp (.exp2 w) w s (sfu1 exp2Res b v)) ∧
     (Fires (.log2 w) w v s → GivesFp (.log2 w) w s (sfu1 log2Res b v)) ∧
     (Fires (.sin w) w v s → GivesFp (.sin w) w s (sfu1 (trigRes true 6) b v)) ∧
     (Fires (.cos w) w v s → GivesFp (.cos w) w s (sfu1 (trigRes false 7) b v)) ∧
     (Fires (.tanh w) w v s → GivesFp (.tanh w) w s (sfu1 tanhRes b v))) ∧
  (∀ (w : Fields) (v : PortVals) (s : State) (i : Instr) (e : Exc),
     ((i = .fadd w ∧ e = (fp2 fmtF32 fAdd s.pass.block v.a v.b).2) ∨
       (i = .hmul2 .bf16 w ∧
         e = (packed fun k => fp2 fmtBF16 (fun _ => fMul) s.pass.block (lane16 v.a k) (lane16 v.b k)).2) ∨
       (i = .dsenc w ∧ e = (dsencVal s.pass.block v).2) ∨ (i = .sqrt w ∧ e = (sqrtVal s.pass.block v).2)) →
     Fires i w v s → enabledExc s &&& e ≠ 0 →
     ∃ t, exec i s = .next t ∧
       t = (withPass (s.chargeFiring i) (s.pass.note { cause := 0x05, idx := s.pass.cur, fpx := e })).emitNull i w)

/-! ### Control, barriers, completion objects: classes 0x0 and 0xA -/

/-- The branch forms that fire: the target is the block's address plus 64 times the offset, the value of port a for
`bri`, the top of the call stack for `ret`; `call` notes its return address; `exit` takes its status from bits 7:0 of
port a (R326 to R328). Where the branch forms trap: a `bri` target that is not a multiple of 64 or not canonical, a
ninth `call`, a `ret` from an empty call stack; and `trap`, which records cause 0x06 with bits 15:0 of port a as its
code (R326, R327, R329). -/
def Obligations.BranchesFireOrTrap : Prop :=
  (∀ (w : Fields) (v : PortVals) (s : State),
     (Fires (.br w) w v s → Branches (.br w) w s (s.pass.blk + ((Operand.immOr0 w.f2).signExtend 64 <<< 6)) .plain) ∧
     (Fires (.bri w) w v s → v.a.extractLsb' 0 6 = 0 → v.a.extractLsb' 56 8 = 0 →
       Branches (.bri w) w s v.a .plain) ∧
     (Fires (.call w) w v s → (mine s).csd < 8 →
       Branches (.call w) w s (s.pass.blk + ((Operand.immOr0 w.f2).signExtend 64 <<< 6))
         (.call (s.pass.blk + BitVec.ofNat 64 ((s.pass.block.bytes + 63) / 64 * 64)))) ∧
     (Fires (.ret w) w v s → 0 < (mine s).csd →
       Branches (.ret w) w s ((mine s).stack.getD ((mine s).csd - 1) 0) .ret) ∧
     (Fires (.exit w) w v s → Branches (.exit w) w s 0 (.exit (v.a.extractLsb' 0 8)))) ∧
  (∀ (w : Fields) (v : PortVals) (s : State),
     (Fires (.bri w) w v s → v.a.extractLsb' 0 6 ≠ 0 → Traps (.bri w) w s 0x07 0) ∧
     (Fires (.bri w) w v s → v.a.extractLsb' 0 6 = 0 → v.a.extractLsb' 56 8 ≠ 0 → Traps (.bri w) w s 0x11 v.a) ∧
     (Fires (.call w) w v s → 8 ≤ (mine s).csd → Traps (.call w) w s 0x08 0) ∧
     (Fires (.ret w) w v s → (mine s).csd = 0 → Traps (.ret w) w s 0x09 0) ∧
     (Fires (.trap w) w v s → exec (.trap w) s = .next
       ((withPass (s.chargeFiring (.trap w))
         (s.pass.note { cause := 0x06, idx := s.pass.cur, code := v.a.extractLsb' 0 16 })).emitNull
             (.trap w) w)))

/-- The barrier forms on barriers 0 to 15: `bar` and `bar.arrive` from state 0, `bar.wait` from state 1 or 2; another
state traps with cause 0x0B and an operand above 15 with 0x0A (R331, R332). -/
def Obligations.BarriersFire : Prop :=
  ∀ (w : Fields) (v : PortVals) (s : State),
    let b := v.a.toNat
    (Fires (.bar w) w v s → b ≤ 15 → barState s b = 0 →
      Branches (.bar w) w s (s.pass.offsetTarget w) (.bar b)) ∧
    (Fires (.barArrive w) w v s → b ≤ 15 → barState s b = 0 →
      exec (.barArrive w) s = .next ((withPass (s.chargeFiring (.barArrive w))
        { s.pass with arrives := addOnce b s.pass.arrives }).emitVal (.barArrive w) w v.a)) ∧
    (Fires (.barWait w) w v s → b ≤ 15 → (barState s b = 1 ∨ barState s b = 2) →
      Branches (.barWait w) w s (s.pass.offsetTarget w) (.barWait b)) ∧
    (Fires (.bar w) w v s → 16 ≤ b → Traps (.bar w) w s 0x0A 0) ∧
    (Fires (.bar w) w v s → b ≤ 15 → barState s b ≠ 0 → Traps (.bar w) w s 0x0B 0) ∧
    (Fires (.barArrive w) w v s → b ≤ 15 → barState s b ≠ 0 → Traps (.barArrive w) w s 0x0B 0) ∧
    (Fires (.barWait w) w v s → b ≤ 15 → barState s b = 0 → Traps (.barWait w) w s 0x0B 0)

/-- `co.init` and `co.arrive` put their write in the block store buffer and give back the operand; `co.wait` fires its
branch; `elect` gives 1 exactly to the thread of lowest %tid among those of its workgroup that have not left (R334 to
R338). `gred` captures its contribution until commit and gives back the record offset, which must be a multiple of 32
inside the vault (R258). -/
def Obligations.CompletionObjectsAndReductionsFire : Prop :=
  (∀ (w : Fields) (v : PortVals) (p : Place) (l : Loc) (gen : BitVec 8) (s : State), ObjectAt v.a p s →
     (Fires (.coInit w) w v s → v.b.extractLsb' 0 32 ≠ 0 → v.b.extractLsb' 33 31 = 0 →
       s.scopeOk s.pass.ctx (Fields.scope w) = true → WriteReady p 16 l gen s →
       exec (.coInit w) s = .next ((withPass (used p true (s.chargeFiring (.coInit w)))
         { s.pass with stores := s.pass.stores ++ [writeRecord (.coInit v.b) p l gen
           (leBytes 16 (v.b.extractLsb' 0 32 ++ 0#95 ++ v.b.extractLsb' 32 1).toNat) w (Fields.scope w) s] }).emitVal
             (.coInit w) w v.a)) ∧
     (Fires (.coArrive w) w v s → v.b.extractLsb' 8 56 = 0 → s.scopeOk s.pass.ctx (Fields.scope w) = true →
       WriteReady p 16 l gen s →
       exec (.coArrive w) s = .next ((withPass (used p true (s.chargeFiring (.coArrive w)))
         { s.pass with stores := s.pass.stores ++
           [writeRecord (.coArrive (v.b.extractLsb' 0 8)) p l gen [] w (Fields.scope w) s] }).emitVal
             (.coArrive w) w v.a)) ∧
     (Fires (.coWait w) w v s → s.scopeOk s.pass.ctx ((Operand.immOr0 w.f2).extractLsb' 17 3) = true →
       Branches (.coWait w) w s (s.pass.blk + (((Operand.immOr0 w.f2).extractLsb' 0 17).signExtend 64 <<< 6))
         (.coWait v.a (match p with | .virt _ => .glob 0 | .vault q off => .vault q off) (v.b.getLsbD 0)
           ((Operand.immOr0 w.f2).extractLsb' 17 3))) ∧
     (Fires (.elect w) w v s → Gives (.elect w) w s
       (if (s.remaining (s.group (mine s).group)).all (fun u => decide ((mine s).tid ≤ u.tid)) then 1 else 0))) ∧
  (∀ (t : GredTy) (w : Fields) (v : PortVals) (s : State),
     let off := (v.b.extractLsb' 0 24).toNat
     let reduced := fun (i : Instr) (op : Nat) => (withPass (s.chargeFiring i) { s.pass with greds := s.pass.greds ++
       [{ idx := s.pass.cur, op := op, flt := t == .f32, rnd := s.pass.block.h0.extractLsb' 66 3,
          ftz := s.pass.block.h0.getLsbD 65, val := some (v.a.extractLsb' 0 32), off := some off }] }).emitVal i w v.b
     (off % 32 = 0 → off + 32 ≤ vaultEnd →
       (Fires (.gredAdd t w) w v s → exec (.gredAdd t w) s = .next (reduced (.gredAdd t w) 0)) ∧
       (Fires (.gredMin t w) w v s → exec (.gredMin t w) s = .next (reduced (.gredMin t w) 1)) ∧
       (Fires (.gredMax t w) w v s → exec (.gredMax t w) s = .next (reduced (.gredMax t w) 2))) ∧
     (∀ i, (i = .gredAdd t w ∨ i = .gredMin t w ∨ i = .gredMax t w) → Fires i w v s →
       (off % 32 ≠ 0 → Traps i w s 0x12 v.b) ∧ (off % 32 = 0 → vaultEnd < off + 32 → Traps i w s 0x15 v.b)))

/-! ### Memory: classes 0x8 and 0x9 -/

/-- Loads whose place may be read give the bytes there, those of lower-LSID stores of the block forwarded, extended as
their type says; `ldv` gives its two halves on F0 and F1 (R190, R260, R262, R267, R268). A prefetch of a translated
line the quay's cache does not hold requests it; one with no cached translation is dropped; neither traps nor has a
result (R266, R269). -/
def Obligations.LoadAndPrefetchResults : Prop :=
  (∀ (w : Fields) (v : PortVals) (p : Place) (l l' : Loc) (s : State),
     s.pass.lowerNotReady (Fields.lsid w) = false →
     (∀ t sp, Fires (.ld t sp w) w v s → s.place sp (v.a + Fields.off15 w) (ldBytes t) (ldBytes t) = .ok p →
       ReadReady p (ldBytes t) l s →
       exec (.ld t sp w) s = .next ((loaded w p l (ldBytes t) (s.chargeFiring (.ld t sp w))).emitVal (.ld t sp w) w
         (ldExtend t (s.locRead (Fields.lsid w) l (ldBytes t))))) ∧
     (∀ n, Fires (.ldNc n w) w v s → s.place .g (v.a + Fields.off15 w) (sizeBytes n) (sizeBytes n) = .ok p →
       ReadReady p (sizeBytes n) l s →
       exec (.ldNc n w) s = .next ((loaded w p l (sizeBytes n) (s.chargeFiring (.ldNc n w))).emitVal (.ldNc n w) w
         (BitVec.ofNat 64 (leNat (s.locRead (Fields.lsid w) l (sizeBytes n)))))) ∧
     (∀ sp, Fires (.ldv sp w) w v s → s.place sp (v.a + Fields.off15 w) 16 8 = .ok p → ReadReady p 8 l s →
       ReadReady p.high 8 l' s →
       exec (.ldv sp w) s = .next ((loaded w p.high l' 8 (loaded w p l 8 (s.chargeFiring (.ldv sp w)))).emitPair (.ldv sp w) w
         (BitVec.ofNat 64 (leNat (s.locRead (Fields.lsid w) l 8)))
         (BitVec.ofNat 64 (leNat (s.locRead (Fields.lsid w) l' 8)))))) ∧
  (∀ (w : Fields) (v : PortVals) (s : State), Fires (.pf w) w v s →
     let va := (v.a + Fields.off15 w).toNat
     let q := s.pass.quay
     (s.tlbHit q s.pass.ctx va false = none →
       exec (.pf w) s = .next (withPass (s.chargeFiring (.pf w)) (s.pass.finish (.pf w) w true))) ∧
     (∀ e, s.tlbHit q s.pass.ctx va false = some e → va < 2 ^ 56 → Local (e.xlate va).pa s →
       s.readable q q ((e.xlate va).pa / 128) (e.xlate va).gen = false →
       exec (.pf w) s = .next { (((s.chargeFiring (.pf w)).touch e).request
         { holder := q, line := (e.xlate va).pa / 128, write := false, gen := (e.xlate va).gen, ctx := s.pass.ctx,
           quay := q }) with pass := s.pass.finish (.pf w) w true }))

/-- Stores whose place may be written wait in the block store buffer until commit: no byte of memory or of a vault
changes when they fire (R262, R270). -/
def Obligations.StoresWaitForCommit : Prop :=
  ∀ (w : Fields) (v : PortVals) (p : Place) (l l' : Loc) (g g' : BitVec 8) (s : State),
    (∀ n sp, Fires (.st n sp w) w v s →
      s.place (stSpace sp) (v.a + Fields.off15 w) (sizeBytes n) (sizeBytes n) = .ok p →
      WriteReady p (sizeBytes n) l g s →
      ∃ t, exec (.st n sp w) s = .next t ∧
        t = (used p true (s.chargeFiring (.st n sp w))).buffer (.st n sp w) w
          [writeRecord .store p l g (leBytes (sizeBytes n) v.b.toNat) w 0 s] ∧
        (∀ a, Mem.read t.mem a = Mem.read s.mem a) ∧ (∀ a, Mem.read t.vmem a = Mem.read s.vmem a)) ∧
    (∀ sp, Fires (.stv sp w) w v s → s.place (stSpace sp) (v.a + Fields.off15 w) 16 8 = .ok p →
      WriteReady p 8 l g s → WriteReady p.high 8 l' g' s →
      ∃ t, exec (.stv sp w) s = .next t ∧
        t = (used p.high true (used p true (s.chargeFiring (.stv sp w)))).buffer (.stv sp w) w
          [writeRecord .store p l g (leBytes 8 v.b.toNat) w 0 s,
           writeRecord .store p.high l' g' (leBytes 8 v.g.toNat) w 0 s] ∧
        (∀ a, Mem.read t.mem a = Mem.read s.mem a) ∧ (∀ a, Mem.read t.vmem a = Mem.read s.vmem a))

/-- Where a vault or global access traps before it reaches memory: a global address that is not canonical, not aligned, or
whose last byte lies past the end of the address space; a vault address with bits above 31, not aligned, or past the end; a parameter or local offset out of range
(R98, R135, R263, R264). -/
def Obligations.AddressChecks : Prop :=
  ∀ (s : State) (ea : Word) (n al : Nat), 0 < al →
    (s.place .g ea n al =
      if ea.extractLsb' 56 8 ≠ 0 then .error (0x11, ea) else if ea.toNat % al ≠ 0 then .error (0x12, ea)
      else if 2 ^ 56 < ea.toNat + n then .error (0x11, 2 ^ 56) else .ok (.virt ea)) ∧
    (s.place .v ea n al =
      if ea.extractLsb' 32 32 ≠ 0 then .error (0x15, ea) else if ea.toNat % al ≠ 0 then .error (0x12, ea)
      else if ea.extractLsb' 29 3 ≠ 0 ∨ 12582912 < (ea.extractLsb' 0 24).toNat + n then .error (0x15, ea)
      else .ok (.vault s.pass.quay (ea.extractLsb' 0 24).toNat)) ∧
    ((mine s).psize < ea.toNat + n → s.place .k ea n al = .error (0x13, ea)) ∧
    ((mine s).lsize < ea.toNat + n → s.place .l ea n al = .error (0x14, ea))

/-- Every atomic that may hold its location gives the old value and holds the location with the new one in its shadow
until commit; integers at their type's width, FP rounded to nearest even, exchange and bitwise forms on the width
(R261, R272, R274, R275). `cas` and `cas.b128` give the old value, or whether it was equal, and hold the location with
the new value only where it was; `fence` resolves with no result (R276, R278). -/
def Obligations.AtomicResults : Prop :=
  (∀ (t : AtTy) (n : Width) (sp : AtSpace) (w : Fields) (v : PortVals) (p : Place) (l : Loc) (g : BitVec 8) (s : State),
     let o := intOperand (atTy t) (oldOf w (atBytes t) l s)
     let b := intOperand (atTy t) v.b
     let int := fun (i : Instr) (x : Int) => swapped i w (atBytes t) p l g (intResult (atTy t) x) s
     let old := oldOf w (widthBytes n) l s
     let bits := fun (i : Instr) (x : Word) => swapped i w (widthBytes n) p l g x s
     let word := fun (i : Instr) (x : Word) => swapped i w 4 p l g x s
     (AtomicFires (.atomAdd t sp w) w sp (atBytes t) v p l g s →
       exec (.atomAdd t sp w) s = .next (int (.atomAdd t sp w) (o + b))) ∧
     (AtomicFires (.atomSub t sp w) w sp (atBytes t) v p l g s →
       exec (.atomSub t sp w) s = .next (int (.atomSub t sp w) (o - b))) ∧
     (AtomicFires (.atomMin t sp w) w sp (atBytes t) v p l g s →
       exec (.atomMin t sp w) s = .next (int (.atomMin t sp w) (min o b))) ∧
     (AtomicFires (.atomMax t sp w) w sp (atBytes t) v p l g s →
       exec (.atomMax t sp w) s = .next (int (.atomMax t sp w) (max o b))) ∧
     (AtomicFires (.atomInc t sp w) w sp (atBytes t) v p l g s →
       exec (.atomInc t sp w) s = .next (int (.atomInc t sp w) (if o ≥ b then 0 else o + 1))) ∧
     (AtomicFires (.atomDec t sp w) w sp (atBytes t) v p l g s →
       exec (.atomDec t sp w) s = .next (int (.atomDec t sp w) (if o = 0 ∨ o > b then b else o - 1))) ∧
     (AtomicFires (.atomAnd n sp w) w sp (widthBytes n) v p l g s →
       exec (.atomAnd n sp w) s = .next (bits (.atomAnd n sp w) (old &&& v.b))) ∧
     (AtomicFires (.atomOr n sp w) w sp (widthBytes n) v p l g s →
       exec (.atomOr n sp w) s = .next (bits (.atomOr n sp w) (old ||| v.b))) ∧
     (AtomicFires (.atomXor n sp w) w sp (widthBytes n) v p l g s →
       exec (.atomXor n sp w) s = .next (bits (.atomXor n sp w) (old ^^^ v.b))) ∧
     (AtomicFires (.atomExch n sp w) w sp (widthBytes n) v p l g s →
       exec (.atomExch n sp w) s = .next (bits (.atomExch n sp w) v.b)) ∧
     (AtomicFires (.atomFaddF32 sp w) w sp 4 v p l g s →
       exec (.atomFaddF32 sp w) s = .next (word (.atomFaddF32 sp w) (atomFadd (oldOf w 4 l s) v.b))) ∧
     (AtomicFires (.atomFadd2Bf16 sp w) w sp 4 v p l g s →
       exec (.atomFadd2Bf16 sp w) s = .next (word (.atomFadd2Bf16 sp w) (atomFadd2 (oldOf w 4 l s) v.b)))) ∧
  (∀ (sp : AtSpace) (w : Fields) (v : PortVals) (p : Place) (l : Loc) (g : BitVec 8) (s : State),
     (∀ n, AtomicFires (.cas n sp w) w sp (widthBytes n) v p l g s →
       let old := s.locRead (Fields.lsid w) l (widthBytes n)
       let u := heldRead (.cas n sp w) w (widthBytes n) p l s
       exec (.cas n sp w) s = .next
         ((if old = leBytes (widthBytes n) v.b.toNat then u.shadow w p l g (leBytes (widthBytes n) v.g.toNat)
           else u.noHold l).emitVal (.cas n sp w) w (BitVec.ofNat 64 (leNat old)))) ∧
     (∀ off blk, AtomicFires (.casB128 sp w) w sp 16 v p l g s → off = (v.b.extractLsb' 0 24).toNat → off % 32 = 0 →
       off + 32 ≤ vaultEnd → ReadReady (ownPlace off s) 32 (.vault s.pass.quay off) s →
       blk = s.locRead (Fields.lsid w) (.vault s.pass.quay off) 32 →
       let old := s.locRead (Fields.lsid w) l 16
       let hit := old = blk.take 16
       let u := noted w l 16 (used p true (ownLoaded w off 32 (s.chargeFiring (.casB128 sp w))))
       let t := if hit then u.shadow w p l g (blk.drop 16) else u.noHold l
       exec (.casB128 sp w) s = .next
         ((withPass t { t.pass with b128 := t.pass.b128 ++ [(Fields.lsid w, off, old)] }).emitVal (.casB128 sp w) w
           (if hit then 1 else 0))) ∧
     (Fires (.fence w) w v s → s.scopeOk s.pass.ctx (Fields.scope w) = true →
       exec (.fence w) s = .next (withPass (s.chargeFiring (.fence w)) (s.pass.finish (.fence w) w true))))

/-! ### Engines, matrix, system, contexts as they fire: classes 0xB to 0xD -/

/-- Every engine form whose descriptor stands is captured until its block commits, and gives back the completion
operand (R192, R282, R285). -/
def Obligations.EngineFormsFire : Prop :=
  ∀ (t : CollTy) (w : Fields) (v : PortVals) (s : State),
    (∀ d, EngineFires (.cpG2v w) .cpG2v w v d s → exec (.cpG2v w) s = .next (engaged (.cpG2v w) .cpG2v w v d s)) ∧
    (∀ d, EngineFires (.cpV2g w) .cpV2g w v d s → exec (.cpV2g w) s = .next (engaged (.cpV2g w) .cpV2g w v d s)) ∧
    (∀ d, EngineFires (.cpV2v w) .cpV2v w v d s → exec (.cpV2v w) s = .next (engaged (.cpV2v w) .cpV2v w v d s)) ∧
    (∀ d, EngineFires (.cpMc w) .cpMc w v d s → exec (.cpMc w) s = .next (engaged (.cpMc w) .cpMc w v d s)) ∧
    (∀ d, EngineFires (.seal w) .seal w v d s → exec (.seal w) s = .next (engaged (.seal w) .seal w v d s)) ∧
    (∀ d, EngineFires (.unseal w) .unseal w v d s → exec (.unseal w) s = .next (engaged (.unseal w) .unseal w v d s)) ∧
    (∀ d, EngineFires (.vmap w) .vmap w v d s → exec (.vmap w) s = .next (engaged (.vmap w) .vmap w v d s)) ∧
    (∀ d, EngineFires (.vunmap w) .vunmap w v d s → exec (.vunmap w) s = .next (engaged (.vunmap w) .vunmap w v d s)) ∧
    (∀ d, EngineFires (.vflush w) .vflush w v d s → exec (.vflush w) s = .next (engaged (.vflush w) .vflush w v d s)) ∧
    (∀ d, EngineFires (.gath w) .gath w v d s → exec (.gath w) s = .next (engaged (.gath w) .gath w v d s)) ∧
    (∀ d, EngineFires (.collAllred t w) (.allred t) w v d s → exec (.collAllred t w) s = .next (engaged (.collAllred t w) (.allred t) w v d s)) ∧
    (∀ d, EngineFires (.collRedsc t w) (.redsc t) w v d s → exec (.collRedsc t w) s = .next (engaged (.collRedsc t w) (.redsc t) w v d s)) ∧
    (∀ d, EngineFires (.collAllgath w) .allgath w v d s → exec (.collAllgath w) s = .next (engaged (.collAllgath w) .allgath w v d s)) ∧
    (∀ d, EngineFires (.collBcast w) .bcast w v d s → exec (.collBcast w) s = .next (engaged (.collBcast w) .bcast w v d s)) ∧
    (∀ d, EngineFires (.frz w) .frz w v d s → exec (.frz w) s = .next (engaged (.frz w) .frz w v d s)) ∧
    (∀ d, EngineFires (.thaw w) .thaw w v d s → exec (.thaw w) s = .next (engaged (.thaw w) .thaw w v d s)) ∧
    (∀ d, EngineFires (.qpost w) .qpost w v d s → exec (.qpost w) s = .next (engaged (.qpost w) .qpost w v d s)) ∧
    (∀ d e, SequenceFires (.seqGemm w) .seqGemm w v d e s →
      exec (.seqGemm w) s = .next (sequenced (.seqGemm w) .seqGemm w v d e s)) ∧
    (∀ d e, SequenceFires (.seqAttn w) .seqAttn w v d e s →
      exec (.seqAttn w) s = .next (sequenced (.seqAttn w) .seqAttn w v d e s))

/-- The matrix forms on a leader quay whose pair the context holds are captured until commit and give back port a; a
follower quay traps with 0x21, a pair not held with 0x22, a configuration or node that R248 and R249 do not allow with
"matrix operand", 0x23 (R243, R249 to R252). -/
def Obligations.MatrixFormsFire : Prop :=
  ∀ (w : Fields) (v : PortVals) (s : State),
    let held := fun (i : Instr) (k : OpKind) =>
      captured i w { idx := s.pass.cur, kind := k, a := v.a, b := v.b, scope := 4 } v.a (s.chargeFiring i)
    (s.pairRefusal = none → Fires (.mmaCfg w) w v s → cfgOk v.a v.b = true →
      exec (.mmaCfg w) s = .next (held (.mmaCfg w) .mmaCfg)) ∧
    (s.pairRefusal = none → Fires (.mma w) w v s → v.b.toNat ≤ 3 → (v.a.extractLsb' 0 24).toNat + 32 ≤ vaultEnd →
      exec (.mma w) s = .next (held (.mma w) .mma)) ∧
    (s.pairRefusal = none → Fires (.mmaRel w) w v s → v.a.toNat ≤ 3 →
      exec (.mmaRel w) s = .next (held (.mmaRel w) .mmaRel)) ∧
    (s.pairRefusal = none → Fires (.mmaClr w) w v s → v.a.toNat ≤ 3 →
      exec (.mmaClr w) s = .next (held (.mmaClr w) .mmaClr)) ∧
    (s.pairRefusal = none → Fires (.mmaClr w) w v s → 4 ≤ v.a.toNat → Traps (.mmaClr w) w s 0x23 0) ∧
    (s.pairRefusal = none → Fires (.mmaCfg w) w v s → cfgOk v.a v.b = false → Traps (.mmaCfg w) w s 0x23 0) ∧
    (s.pass.quay % 2 = 1 → Fires (.mma w) w v s → Traps (.mma w) w s 0x21 0) ∧
    (s.pass.quay % 2 = 0 → s.holdsQuay s.pass.ctx (s.pass.quay + 1) = false → Fires (.mma w) w v s →
      Traps (.mma w) w s 0x22 0)

/-- The system forms that fire: `srd` gives the register its selector names; `swr` gives the value at block entry and
is captured until commit; `trap.ret` fires with the block of the trap record; `trap.sub` adds a substitution;
`en.read` gives a counter of the context's subtree; `pgreq.ack` is captured until commit (R396 to R402, R413, R414). A
`swr` of a register that is not writable traps with 0x27 and of a value that is not allowed with 0x28, and writes
nothing (R398). -/
def Obligations.SystemFormsFire : Prop :=
  (∀ (w : Fields) (v : PortVals) (s : State),
     (Fires (.srd w) w v s →
       Gives (.srd w) w s (s.sysReg (v.a.extractLsb' 0 4).toNat (v.a.extractLsb' 8 5).toNat)) ∧
     (Fires (.swr w) w v s → swrRefusal (v.b.extractLsb' 0 4).toNat v.a = none →
       exec (.swr w) s = .next ((withPass (s.chargeFiring (.swr w)) { s.pass with
         swrs := s.pass.swrs ++ [(s.pass.cur, (v.b.extractLsb' 0 4).toNat, v.a)] }).emitVal (.swr w) w
           (s.sysReg (v.b.extractLsb' 0 4).toNat 0))) ∧
     (Fires (.trapRet w) w v s → (mine s).trapValid = true →
       Branches (.trapRet w) w s ((mine s).traprec.extractLsb' 192 64) .trapRet) ∧
     (Fires (.trapRet w) w v s → (mine s).trapValid = false → Traps (.trapRet w) w s 0x29 0) ∧
     (Fires (.trapSub w) w v s → v.b.extractLsb' 7 57 = 0 → (mine s).trapValid = true →
       (mine s).subs.length + s.pass.subs.length < 4 →
       ((mine s).subs.any (fun x => x.1 == v.b.extractLsb' 0 7) ||
         s.pass.subs.any (fun x => x.2.1 == v.b.extractLsb' 0 7)) = false →
       exec (.trapSub w) s = .next ((withPass (s.chargeFiring (.trapSub w)) { s.pass with
         subs := s.pass.subs ++ [(s.pass.cur, v.b.extractLsb' 0 7, v.a)] }).emitVal (.trapSub w) w v.a)) ∧
     (Fires (.enRead w) w v s → v.a.extractLsb' 12 52 = 0 → s.ctxLive (v.a.extractLsb' 0 12).toNat = true →
       s.inSubtree s.pass.ctx (v.a.extractLsb' 0 12).toNat = true → v.b.toNat ≤ 1 →
       Gives (.enRead w) w s (if v.b = 0 then (s.ctx (v.a.extractLsb' 0 12).toNat).used
         else (s.ctx (v.a.extractLsb' 0 12).toNat).quotaWord)) ∧
     (let acked := fun (i : Instr) => (withPass (s.chargeFiring i) { s.pass with stores := s.pass.stores ++
         [{ kind := .pgAck (v.a.extractLsb' 0 16) (v.b.getLsbD 0), lsid := 32 + s.pass.cur, idx := s.pass.cur,
            ctx := s.pass.ctx }] }).emitVal i w v.a
      (Fires (.pgreqAckRetry w) w v s → v.b.extractLsb' 1 63 = 0 →
        exec (.pgreqAckRetry w) s = .next (acked (.pgreqAckRetry w))) ∧
      (Fires (.pgreqAckRefuse w) w v s → v.b.extractLsb' 1 63 = 0 →
        exec (.pgreqAckRefuse w) s = .next (acked (.pgreqAckRefuse w))))) ∧
  (∀ (w : Fields) (v : PortVals) (s : State) (c : BitVec 8), Fires (.swr w) w v s →
     swrRefusal (v.b.extractLsb' 0 4).toNat v.a = some c → (c = 0x27 ∨ c = 0x28) ∧ Traps (.swr w) w s c 0)

/-- Every context operation, as it fires in a block, is captured for the context controller and gives back its
completion operand; `part.chg` outside context 0 traps with "root only", 0x30 (R395, R403). `spawn`, `join.put` and
`launch` put their write in the block store buffer and give back port a (R339, R340, R343). -/
def Obligations.ContextAndTaskFormsFire : Prop :=
  (∀ (w : Fields) (v : PortVals) (s : State),
     (ContextFires (.ctxNew (.fire w)) w v s → exec (.ctxNew (.fire w)) s = .next (contextCaptured (.ctxNew (.fire w)) 0x20 w v s)) ∧
     (ContextFires (.ctxGiveQuays (.fire w)) w v s → exec (.ctxGiveQuays (.fire w)) s = .next (contextCaptured (.ctxGiveQuays (.fire w)) 0x28 w v s)) ∧
     (ContextFires (.ctxTakeQuays (.fire w)) w v s → exec (.ctxTakeQuays (.fire w)) s = .next (contextCaptured (.ctxTakeQuays (.fire w)) 0x30 w v s)) ∧
     (ContextFires (.ctxMap (.fire w)) w v s → exec (.ctxMap (.fire w)) s = .next (contextCaptured (.ctxMap (.fire w)) 0x38 w v s)) ∧
     (ContextFires (.ctxUnmap (.fire w)) w v s → exec (.ctxUnmap (.fire w)) s = .next (contextCaptured (.ctxUnmap (.fire w)) 0x40 w v s)) ∧
     (ContextFires (.ctxRun (.fire w)) w v s → exec (.ctxRun (.fire w)) s = .next (contextCaptured (.ctxRun (.fire w)) 0x48 w v s)) ∧
     (ContextFires (.ctxStop (.fire w)) w v s → exec (.ctxStop (.fire w)) s = .next (contextCaptured (.ctxStop (.fire w)) 0x50 w v s)) ∧
     (ContextFires (.enQuota (.fire w)) w v s → exec (.enQuota (.fire w)) s = .next (contextCaptured (.enQuota (.fire w)) 0x60 w v s)) ∧
     (ContextFires (.dlogStart (.fire w)) w v s → exec (.dlogStart (.fire w)) s = .next (contextCaptured (.dlogStart (.fire w)) 0x88 w v s)) ∧
     (s.pass.ctx = 0 → ContextFires (.partChg (.fire w)) w v s → exec (.partChg (.fire w)) s = .next (contextCaptured (.partChg (.fire w)) 0x90 w v s)) ∧
     (Fires (.partChg (.fire w)) w v s → s.pass.ctx ≠ 0 → Traps (.partChg (.fire w)) w s 0x30 0)) ∧
  (∀ (w : Fields) (v : PortVals) (q off : Nat) (s : State), s.scopeOk s.pass.ctx (Fields.scope w) = true →
     (Fires (.spawn w) w v s → 1 ≤ (v.g.extractLsb' 32 11).toNat → (v.g.extractLsb' 32 11).toNat ≤ 1024 →
       v.b.extractLsb' 0 6 = 0 → spawnReserved v.g = true → off % 32 = 0 →
       s.vaultOperand v.a s.pass.quay s.pass.ctx 32 = .ok q off → WriteReady (.vault q off) 32 (.vault q off) 0 s →
       exec (.spawn w) s = .next ((withPass (s.chargeFiring (.spawn w)) { s.pass with stores := s.pass.stores ++
         [writeRecord (.spawn v.b v.g) (.vault q off) (.vault q off) 0
           (leBytes 32 (spawnRecord s.pass.ctx q off v.b v.g).toNat) w (Fields.scope w) s] }).emitVal (.spawn w) w v.a)) ∧
     (Fires (.joinPut w) w v s → off % 32 = 0 → off + 36 + 4 * (v.b.extractLsb' 0 16).toNat ≤ vaultEnd →
       s.vaultOperand v.a s.pass.quay s.pass.ctx 32 = .ok q off →
       (∀ o, o = off + 16 ∨ o = off + 32 + 4 * (v.b.extractLsb' 0 16).toNat →
         WriteReady (.vault q o) 4 (.vault q o) 0 s) →
       exec (.joinPut w) s = .next ((withPass (s.chargeFiring (.joinPut w)) { s.pass with
         stores := s.pass.stores ++ [writeRecord (.joinPut (v.b.extractLsb' 0 16).toNat (v.g.extractLsb' 0 32))
           (.vault q off) (.vault q off) 0 [] w (Fields.scope w) s] }).emitVal (.joinPut w) w v.a)) ∧
     (Fires (.launch w) w v s → v.a.toNat % 128 = 0 → v.a.extractLsb' 56 8 = 0 →
       exec (.launch w) s = .next ((withPass (s.chargeFiring (.launch w)) { s.pass with stores := s.pass.stores ++
         [{ kind := .launch, lsid := Fields.lsid w, idx := s.pass.cur, va := v.a, scope := Fields.scope w,
            ctx := s.pass.ctx }] }).emitVal (.launch w) w v.a)))

/-! ### What the module does of itself: messages, homes, translation -/

/-- The messages of the control node that have their turn: MRD and MWR of bytes in one line at a physical address,
the steps of a QPOST (claim, slot, tail; a full queue answers 5), CTXOP, PGACK, ENREAD, ATTEST, and one that is malformed:
each is taken from the inbox, does its work and is answered (R347, R405, R446, R447, R459). -/
def Obligations.BeaconMessagesComplete : Prop :=
  ∀ (n : Nat) (m : BMsg) (s : State),
    (Received n 1 m s → m.phys = true → m.pos = 0 → m.data = [] → NodeServes (m.word 0) (m.word 1) false s →
      s.heldAny (.glob (m.word 0)) = false → (s.dirOf (m.word 0 / 128)).ownh = true → (s.gmeta (m.word 0 / 128)).poison = false →
      exec (.mrd n) s = .next (taken n (((reachCharged (agentPlace 0) (m.word 0 / 128) m.fn (s.payBy m.fn)).nodeDone m).send 0x81 m.fn m.tag
        (s.gbytes (m.word 0) (m.word 1))))) ∧
    (Received n 2 m s → m.phys = true → m.pos = 0 → NodeServes (m.word 0) (m.body.drop 8).length true s →
      s.heldAny (.glob (m.word 0)) = false → s.hasDir (m.word 0 / 128) = false → s.collecting = [] →
      exec (.mwr n) s = .next (taken n (((reachCharged (agentPlace 0) (m.word 0 / 128) m.fn ((s.payBy m.fn).gwrite (m.word 0)
        (m.body.drop 8) false)).nodeDone m).status m 0 0 0))) ∧
    (∀ head claim s1 s2, let x := s.queue m.fn (m.word 0)
      Received n 3 m s → m.word 0 < 64 → x.en = true → m.phase = 0 → s.nodeWord m (x.base + 0x100) = .ok head s1 →
      s1.nodeUpdate m (x.base + 0x80) (fun k => if head + x.slots ≤ k then k else k + 1) = .ok claim s2 →
      let s3 := (s2.nodeCharge m false (x.base + 0x100)).nodeDone m
      (claim < head + x.slots → exec (.qpostMessage n) s = .next (s3.messageAt n 1 claim)) ∧
      (head + x.slots ≤ claim → exec (.qpostMessage n) s = .next (taken n (s3.status m 5 0 0)))) ∧
    (∀ s1, let x := s.queue m.fn (m.word 0)
      Received n 3 m s → m.word 0 < 64 → x.en = true → m.phase = 1 →
      s.nodeStore n m false (x.base + 0x200 + 128 * (m.claimed % x.slots)) (m.body.drop 8) = .ok () s1 →
      exec (.qpostMessage n) s = .next (s1.messageAt n 2 m.claimed)) ∧
    (∀ s1 s2, let x := s.queue m.fn (m.word 0)
      Received n 3 m s → m.word 0 < 64 → x.en = true → m.phase = 2 → m.notify = false →
      s.nodeWord m x.base = .ok m.claimed s1 → s1.nodeStore n m false x.base (leBytes 8 (m.claimed + 1)) = .ok () s2 →
      exec (.qpostMessage n) s = .next (taken n ((s2.nodeCharge m false x.base).status m 0 m.claimed 0))) ∧
    (Received n 4 m s → (m.word 0 = 0x90 → m.fn = 0) →
      exec (.ctxop n) s = .next (taken n
        { s with nextId := s.nextId + 1, ctxq := s.ctxq ++
          [{ func := BitVec.ofNat 8 (m.word 0), issuer := m.fn, desc := BitVec.ofNat 512 (leNat (m.body.drop 8)),
             src := .node (BitVec.ofNat 16 m.tag), reach := s.nextId }] })) ∧
    (Received n 5 m s →
      exec (.pgack n) s = .next (taken n ((s.ackRequest (fun x => x.toNode && x.owner == m.word 0 &&
        x.reqid == some (BitVec.ofNat 16 (m.word 1))) (m.word 2 == 1)).status m 0 0 0))) ∧
    (Received n 6 m s → m.word 0 < 4096 → s.ctxLive (m.word 0) = true → s.inSubtree m.fn (m.word 0) = true →
      m.word 1 ≤ 1 →
      exec (.enread n) s = .next (taken n (s.send 0x88 m.fn m.tag (leBytes 8
        (if m.word 1 = 0 then (s.ctx (m.word 0)).used else (s.ctx (m.word 0)).quotaWord).toNat)))) ∧
    (Received n 7 m s → ((s.inbox.take n).any fun x => x.op == 7) = false →
      ∃ t, exec (.attest n) s = .next t ∧ t.outbox.length = s.outbox.length + 8 ∧ t.inbox = s.inbox.eraseIdx n ∧
        t.mem = s.mem ∧ t.vmem = s.vmem ∧ t.ctxs = s.ctxs) ∧
    (s.inbox[n]? = some m → m.malformed = true →
      exec (.malformedMessage n) s = .next ((taken n s).status m 4 0 0))

/-- Requests at a home that serves them, and tokens that come home: GETS takes one token of a line whose owner token
is home, GETM all of them with an INV to every other holder; PUT, WB and DONE enter the directory, and tokens that come
while a write is in progress go on to its writer; REFUSE, where the checks fail, names the cause (R81 to R86). -/
def Obligations.HomesServeRequests : Prop :=
  ∀ (n : Nat) (m : NetMsg) (gen : BitVec 8) (c q k : Nat) (own : Bool) (md : LineMeta) (s r : State), InFlight n m s r →
    let e := r.dirOf m.line
    (m.body = .gets gen c q → HomeServes m false gen c q r → e.ownh = true → 2 ≤ e.htok →
      exec (.gets n) s = .next (((homeCharged m.line c r).setDir ({ e with htok := e.htok - 1 }.add m.holder)).post
        { m with body := .data 1 false (r.gmeta m.line) })) ∧
    (m.body = .gets gen c q → HomeServes m false gen c q r → e.ownh = true → e.htok < 2 →
      exec (.gets n) s = .next ((homeCharged m.line c r).post { m with body := .data 0 false (r.gmeta m.line) })) ∧
    (m.body = .getm gen c q → HomeServes m true gen c q r → e.ownh = true →
      exec (.getm n) s = .next (((e.holders.filter (· != m.holder)).foldl (fun s h =>
        s.post { line := m.line, holder := h, body := .inv m.holder })
          ((homeCharged m.line c r).post { m with body := .data e.htok true (r.gmeta m.line) })).setDir
            ({ e with htok := 0, ownh := false, wip := true }.only m.holder))) ∧
    (∀ cause, m.body = .getm gen c q → r.lineBusy m.line = false → r.heldRemotely m.line = false →
      r.homeCheck (m.line * 128) true gen c q = .refuse cause →
      exec (.getm n) s = .next (r.post { line := m.line, holder := m.holder, body := .refuse true cause false 0 })) ∧
    (m.body = .put k own md → r.activePers m.line = none → e.wip = false →
      exec (.put n) s = .next (((r.takeData m.line own md).setDir
        { e with htok := e.htok + k, ownh := e.ownh || own }).unpark)) ∧
    (∀ h, m.body = .put k own md → r.activePers m.line = none → e.wip = true → e.slot 0 = some h → h < homeHolder → 0 < k →
      exec (.put n) s = .next (r.post { line := m.line, holder := h, body := if own then .data k true md else .tok k })) ∧
    (m.body = .wb md → r.activePers m.line = none → e.wip = false →
      exec (.wb n) s = .next (((r.takeData m.line true md).setDir
        { e with htok := e.htok + 256, ownh := true }).unpark)) ∧
    (m.body = .done → exec (.done n) s = .next (r.setDir { e with wip := false }).unpark)

/-- Messages at a cache: tokens that complete a read or a write, INV, FWDS, COLLECT and REFUSE where nothing holds the
line and no access that it came for is still to come; the tokens a cache gives up are exactly those it held (R77, R80, R83 to R85, R104). -/
def Obligations.CachesAnswerMessages : Prop :=
  ∀ (n : Nat) (m : NetMsg) (w k : Nat) (own : Bool) (md : LineMeta) (req : CohReq) (s r : State), InFlight n m s r →
    let c := r.copyOf m.holder m.line
    (m.body = .data k own md → r.activePers m.line = none → r.reqOf m.holder m.line false = some req →
      r.reqOf m.holder m.line true = none → 0 < k → req.inv = none → req.noalloc = false →
      exec (.data n none) s = .next ((((r.dropReq m.holder m.line false).setCopy { c.join k own md with due := req.who }).fitL1
        m.holder).unpark.wakePasses)) ∧
    (m.body = .tok k → r.activePers m.line = none → r.reqOf m.holder m.line true = some req → c.tokens + k = 512 →
      exec (.tok n) s = .next (((((r.setCopy { c.join k false {} with dirty := true, due := r.askers m.holder m.line }).post
        { line := m.line, holder := m.holder, body := .done }).dropReq m.holder m.line true).fitL1 m.holder).unpark.wakePasses)) ∧
    (m.body = .tok k → r.activePers m.line = none → r.reqOf m.holder m.line true = some req → c.tokens + k < 512 →
      exec (.tok n) s = .next ((((r.setCopy (c.join k false {})).fitL1 m.holder).unpark).wakePasses)) ∧
    (m.body = .inv w → m.holder ≠ w → w < homeHolder → r.cacheKeeps m.holder m.line = false → 0 < c.tokens →
      exec (.inv n) s = .next ((r.setCopy { c with tokens := 0 }).post
        { line := m.line, holder := w, body := if c.owner then .data c.tokens true c.md else .tok c.tokens })) ∧
    (m.body = .fwds → c.owner = true → 512 ≤ c.tokens → r.cacheKeeps m.holder m.line = false →
      exec (.fwds n) s = .next ((r.setCopy { c with tokens := 256, owner := false, dirty := false }).post
        { line := m.line, holder := m.holder, body := .wb c.md })) ∧
    (m.body = .collect →
      (∀ x ∈ r.net, x.line = m.line → x.holder = m.holder → ∀ j o d, x.body ≠ .data j o d ∧ x.body ≠ .tok j) →
      r.cacheKeeps m.holder m.line = false → 0 < c.tokens →
      exec (.collect n) s = .next ((r.setCopy { c with tokens := 0 }).post
        { line := m.line, holder := m.holder, body := .put c.tokens c.owner c.md })) ∧
    (∀ write cause stale gen, m.body = .refuse write cause stale gen → r.reqOf m.holder m.line write = some req →
      exec (.refuse n) s = .next ((r.dropReq m.holder m.line write).answer req
        { holder := m.holder, line := m.line, who := .op 0, cause := cause, stale := stale, gen := gen }).wakePasses)

/-- Persistent requests: one unsatisfied for 2,048 cycles goes to its home, takes a place in the table in arrival order, and, as
the first of its line, passes the checks of any request there and is served, or waits in the table while they hold it; holders give up every token, the end names its requester
the one holder, and a cache with an unfinished request asks again (R81, R86). -/
def Obligations.PersistentRequestsComplete : Prop :=
  ∀ (n : Nat) (m : NetMsg) (w : Nat) (req : CohReq) (s r : State),
    let PreqAtHome := InFlight n m s r ∧ m.body = .preq ∧
      r.reqs.find? (fun x => x.holder == m.holder && x.line == m.line && x.pers) = some req ∧
      (r.pers.countP fun p => r.homeSlice (p.line * 128) == r.homeSlice (m.line * 128)) < 32 ∧ r.heldRemotely m.line = false ∧
      (∀ p ∈ r.pers, p.line ≠ m.line) ∧ m.holder < homeHolder;
    let entered : State := { r with pers := r.pers ++ [{ line := m.line, holder := m.holder }] };
    (let old := fun (x : CohReq) => x.holder == m.holder && x.line == m.line && !x.pers && decide (x.issued + 2048 ≤ s.clock);
      (∃ x ∈ s.reqs, old x = true) →
      exec (.persistentRequest m.holder m.line) s = .next
        (({ s with reqs := tmod old (fun x => { x with pers := true }) s.reqs } : State).post
          { line := m.line, holder := m.holder, body := .preq })) ∧
    (PreqAtHome → r.homeCheck (m.line * 128) req.write req.gen req.ctx req.quay = .serve → r.dirVictim m.line = none →
      (req.write = true ∨ r.readOnlyLine m.line = false) →
      exec (.preq n) s = .next (entered.activate { line := m.line, holder := m.holder })) ∧
    (PreqAtHome → r.persCheck m.line req = .hold → exec (.preq n) s = .next entered) ∧
    (InFlight n m s r → m.body = .pact w → r.cacheHolds m.holder m.line = false → r.dueAt m.holder m.line false = false →
      exec (.pact n) s = .next (r.giveTo m.holder m.line w).wakePasses) ∧
    (InFlight n m s r → m.body = .pdone → r.pers = [{ line := m.line, holder := m.holder, active := true }] →
      ∃ t, exec (.pdone n) s = .next t ∧ t.pers = [] ∧ t.homeWait = [] ∧ (t.dirOf m.line).wip = false ∧
        (m.holder < 1024 → (t.dirOf m.line).holders = [m.holder]) ∧ t.mem = s.mem ∧ t.copies = s.copies) ∧
    (InFlight n m s r → m.body = .pdeact → r.reqs = [req] → req.holder = m.holder → req.line = m.line → req.pers = false →
      (∀ x ∈ r.net ++ r.homeWait, x.line = m.line → x.holder ≠ m.holder) →
      exec (.pdeact n) s = .next (r.post
        { m with body := if req.write then .getm req.gen req.ctx req.quay else .gets req.gen req.ctx req.quay }))

/-- Replicas, sweeps and accesses of other modules: FDATA installs a replica, a sweep drops a die's replicas of its
page and answers, the last answer makes the page normal again; another module's load and store are performed at the home
and answered; an atomic of another module ends its hold with the values it brings; a request for a third module goes on to
it, or is refused where no route leads there (R88, R92, R94, R272, R449, R450). -/
def Obligations.ReplicasAndRemoteAccessesComplete : Prop :=
  ∀ (n : Nat) (m : NetMsg) (gen : BitVec 8) (md : LineMeta) (die size pa src tag since : Nat) (req : CohReq) (s r : State),
    (InFlight n m s r → m.body = .fdata gen md → r.reqOf m.holder m.line false = some req → req.noalloc = false →
      m.holder < 512 →
      exec (.fdata n) s = .next (((r.dropReq m.holder m.line false).installReplica
        { holder := m.holder, line := m.line, gen := gen, md := md } req.quay).unpark.wakePasses)) ∧
    (InFlight n m s r → m.body = .sweep die gen →
      (∀ x ∈ r.net, x.line / 512 = m.line → holderDie x.holder = die → ∀ g d, x.body ≠ .fdata g d) →
      exec (.sweep n) s = .next (({ r with
          replicas := r.replicas.filter fun x => !(x.line / 512 == m.line && holderDie x.holder == die) } :
          State).post { line := m.line, body := .swack die })) ∧
    (InFlight n m s r → m.body = .swack die → r.sweeps = [{ page := m.line, gen := gen, dies := [die], peers := [] }] →
      (r.frzOf m.line).st = .thawing →
      exec (.swack n) s = .next (({ r with sweeps := [] } : State).setFrz { r.frzOf m.line with st := .normal }).unpark) ∧
    (InFlight n m s r → m.body = .uncached (.load size) pa src tag gen since → RemoteServes m pa src false gen r →
      (r.dirOf m.line).ownh = true →
      exec (.uncachedAccess n) s = .next ((reachCharged (agentPlace 1) m.line 0 r).answerRemote src tag
        (r.gbytes pa size) (r.gmeta m.line) |>.leavePers m.line (homeAgent src tag))) ∧
    (∀ bs p, InFlight n m s r → m.body = .uncached (.store bs p) pa src tag gen since → RemoteServes m pa src true gen r →
      r.hasDir m.line = false → r.collecting = [] →
      exec (.uncachedAccess n) s = .next ((((reachCharged (agentPlace 1) m.line 0 r).gwrite pa bs p).answerRemote
        src tag [] {}).leavePers m.line (homeAgent src tag))) ∧
    (∀ q : RemoteReq, q.ask = .load size → bitsOf q.pa 44 8 = s.domain.mod.toNat →
      exec (.remoteRequest q) s = .next (s.post
        { line := q.pa / 128, holder := q.src,
          body := .uncached (.load size) q.pa q.src q.tag (BitVec.ofNat 8 q.gen) s.clock })) ∧
    (∀ q : RemoteReq, let k := bitsOf q.pa 44 8; q.ask = .load size → k ≠ s.domain.mod.toNat →
      (s.reachable k = true → exec (.remoteRequest q) s = .next (s.sendLinks 0 [.forward k q])) ∧
      (s.reachable k = false → exec (.remoteRequest q) s = .next (s.sendLinks 0 [.refusal q.src q.tag cNoMem none]))) ∧
    (∀ (q : RemoteReq) ws line, q.ask = .endHold ws → bitsOf q.pa 44 8 = s.domain.mod.toNat → s.remoteHolds = [{ src := q.src, tag := q.tag, line := line }] →
      s.net = [] → s.homeWait = [] → s.pers = [] →
      exec (.remoteRequest q) s = .next ((ws.foldl (fun s x => s.gwrite x.1 x.2 false)
        ({ s with remoteHolds := [] } : State)).answerRemote q.src q.tag [] {}).unpark.wakePasses)

/-- Translation: a free walker takes the oldest miss; a walk that succeeds fills the cache and lets its waiter go on;
one that fails opens a page request; a request is appended at its owner's queue in three steps, the record, TAIL and the
object, or goes to the control node where no queue stands above it; entries expire after 65,536 cycles; a generation
moves on by one (R103 to R112, R510). -/
def Obligations.TranslationStepsComplete : Prop :=
  ∀ (s : State) (die n quay : Nat),
    (∀ w, (s.walks.countP fun w => w.die == die && w.running) < 4 →
      s.walks.find? (fun w => w.die == die && !w.running) = some w →
      exec (.walkStart die) s = .next
        { s with walks := tset (fun x => x.die == die && !x.running) { w with running := true } s.walks }) ∧
    (∀ w m, let r := ({ s with walks := s.walks.erase w } : State).chargeWalk (32 * w.die) w.ctx w.ctx m.va
      s.runningWalk die n = some w → w.misses = [m] → (s.walkOwned w.ctx m.va).1 = true →
      (∀ k a g, s.walk w.ctx m.va false false ≠ .far k a g) →
      (∀ x s1, r.walkEnd w.ctx m = .ok x → (r.fillTlb m.quay w.ctx m.va x).goOn w.ctx m x = .done s1 →
        exec (.walkComplete die n) s = .next (s1.dropFar (.tables w.ctx)).wakePasses) ∧
      (∀ f s1, r.walkEnd w.ctx m = .fail f → r.openRequest w.ctx m f = some s1 →
        exec (.walkComplete die n) s = .next ((s1.bubble m).dropFar (.tables w.ctx)).wakePasses)) ∧
    (∀ r c tb hb d1 d2 s1 s2 s3, FirstAppend n r (some c) s → r.step = 0 →
      let base := ((s.ctx c).pgreq.extractLsb' 12 44).toNat * 4096
      let slots := 2 ^ (((s.ctx c).pgreq.extractLsb' 8 4).toNat + 4)
      let tail := leNat tb
      s.hwLook (.append r.id) c base 8 = .ok tb d1 s1 → s1.hwLook (.append r.id) c (base + 0x80) 8 = .ok hb d2 s2 →
      tail < leNat hb + slots →
      s2.hwWrite (.append r.id) c (base + 0x100 + 32 * (tail % slots))
        (leBytes 32 (r.record (s2.waitingThreads r).length tail s2.clock).toNat) = .done s3 →
      exec (.pgreqAppend n) s = .next ((((s3.chargeLook (.append r.id) c base).chargeLook (.append r.id) c
        (base + 0x80)).dropFar (.append r.id)).setReq
        { r with queue := some c, pgreg := (s.ctx c).pgreq, reqid := some (BitVec.ofNat 16 tail), step := 1 })) ∧
    (∀ r c s1, s.openAppends[n]? = some r → r.queue = some c →
      let base := (r.pgreg.extractLsb' 12 44).toNat * 4096
      (r.step = 1 → s.hwUpdate (.append r.id) c base 8 (fun bs => leBytes 8 (leNat bs + 1)) = .done s1 →
        exec (.pgreqAppend n) s = .next ((s1.dropFar (.append r.id)).setReq { r with step := 2 })) ∧
      (r.step = 2 → r.acked = false → s.hwRaise (.append r.id) c (base + 0xF0) 0 = .done s1 →
        exec (.pgreqAppend n) s = .next ((s1.dropFar (.append r.id)).setReq { r with step := 3 }))) ∧
    (∀ r, FirstAppend n r none s → s.pgreqs.countP (·.toNode) < 256 →
      let u := ({ s with dev := { s.dev with nodeReqs := s.dev.nodeReqs + 1 } } : State).setReq
        { r with toNode := true, reqid := some (BitVec.ofNat 16 s.dev.nodeReqs), step := 3 }
      exec (.pgreqAppend n) s = .next (u.send 0x83 r.owner 0
        (leBytes 32 (r.record (u.waitingThreads r).length s.dev.nodeReqs s.clock).toNat))) ∧
    (∀ e, (s.tlb.filter fun e => e.quay == quay)[n]? = some e → e.filled + 65536 ≤ s.clock →
      exec (.translationExpiry quay n) s = .next { s with tlb := s.tlb.erase e }) ∧
    (∀ p, s.genWait[n]? = some p → s.bumpReady p = true →
      ∃ t, exec (.generationIncrement n) s = .next t ∧ t.genOf p = s.genOf p + 1 ∧ t.genWait = s.genWait.eraseIdx n ∧
        (∀ p', p' ≠ p → t.genOf p' = s.genOf p') ∧ t = { s with gens := t.gens, genWait := t.genWait })

/-! ### Threads, planes and blocks -/

/-- The harbourmaster: a free plane opens the chosen entry; a fetched block is pinned, checked and configured, its
charge going to the context of the oldest waiting thread; a refused block traps its threads (R184, R356 to R359,
R438). Planes stop and drain: an aged entry makes others stop; a run open 1,024 cycles stops while another entry
waits; a plane that drained 1,024 cycles, or 32 while an entry is aged, turns back its threads; the weights of a
bollard follow the waiting tokens; a bollard that fails takes a spare (R358, R359, R362, R375). -/
def Obligations.PlanesOpenStopAndDrain : Prop :=
  (∀ (q p : Nat) (s : State),
     (∀ e aged, (s.plane q p).st = .free → s.fabricHalted q = false → s.chooseEntry q = some (e, aged) →
       exec (.planeChoose q p) s = .next ((s.setPlane
         { quay := q, plane := p, st := if aged then .aged else .admitting, entry := e.e, ba := e.ba, fctx := e.fctx,
           opened := s.clock, mustAdmit := if aged then s.waiting e else [] }).tidy q)) ∧
     (∀ k e aged, s.entryValid q k = true → (s.entry q k).pinned = true → s.waiting (s.entry q k) ≠ [] →
       s.heldEntry (s.entry q k) = false → s.openEntry q k = false → s.freePlane q = some p → s.fabricHalted q = false →
       s.chooseEntry q = some (e, aged) →
       exec (.coalesceHoldEnd q k) s = .next ((s.setPlane
         { quay := q, plane := p, st := if aged then .aged else .admitting, entry := e.e, ba := e.ba, fctx := e.fctx,
           opened := s.clock, mustAdmit := if aged then s.waiting e else [] }).tidy q)) ∧
     (∀ k h rest s1 s2, let e := s.entry q k
       let len := 12 * blockWords (wordOfBytes h)
       s.entryValid q k = true → e.pinned = false → e.ba.extractLsb' 56 8 = 0 → s.fetchWaits (.fetch q k) = false →
       s.fetchBytes e e.ba.toNat 12 2 = .ok h s1 → s1.pinnedBytes q + len ≤ 65536 →
       s1.fetchBytes e (e.ba.toNat + 12) (len - 12) 40 = .ok rest s2 →
       ∃ t, exec (.blockPinned q k) s = .next t ∧ (t.entry q k).pinned = true ∧ (t.entry q k).bytes = h ++ rest ∧
         t = { s2.dropFar (.fetch q k) with entries := t.entries, threads := t.threads }) ∧
     (∀ k x, let e := s.entry q k
       e.ba.toNat < 2 ^ 56 → s.fetchXlate q e.fctx e.ba.toNat = some x → e.ba.toNat % 128 + 12 ≤ 128 → Local x.pa s →
       (s.dirOf (x.pa / 128)).ownh = true → s.homeCheck x.pa false x.gen e.fctx e.quay = .serve → s.heldLine (.glob x.pa) = false →
       (s.gmeta (x.pa / 128)).poison = false →
       s.fetchBytes e e.ba.toNat 12 2 = .ok (s.gbytes x.pa 12) (reachCharged e.quay (x.pa / 128) e.fctx ((s.fetchUse e.quay e.fctx e.ba.toNat).payBy e.fctx))) ∧
     (let e := s.entry q (s.plane q p).entry;
       Placeable q p s → checkBlock e.bytes = none → e.vec ≠ [] →
       ∃ u ∈ e.vec, (∀ v ∈ e.vec, s.ageOf (s.thread q v) ≤ s.ageOf (s.thread q u)) ∧
         exec (.blockConfigure q p) s = .next ((s.setPlane { s.plane q p with
           configured := true, block := parseBlock e.bytes }).charge (meterQuay q) (s.thread q u).runCtx 14
             (parseBlock e.bytes).words.length)) ∧
     (∀ k, let e := s.entry q (s.plane q p).entry;
       Placeable q p s → checkBlock e.bytes = some k →
       exec (.blockConfigure q p) s = .next ((s.setPlane { quay := q, plane := p }).trapEntry e
         { cause := 0x01, addr := e.ba, word := BitVec.ofNat 8 k }))) ∧
  (∀ (q p k : Nat) (s : State), let pl := s.plane q p;
     (s.isAged (s.entry q k) = true → exec (.entryAged q k) s = .next (s.tidy q)) ∧
     (∀ x ∈ s.entries, pl.st = .admitting → pl.opened + 1024 ≤ s.clock → x.quay = q → x.e ≠ pl.entry → s.waiting x ≠ [] →
       exec (.runOpenTimeout q p) s = .next ((s.setPlane { pl with st := .draining, drainSince := s.clock }).tidy q)) ∧
     (pl.st = .draining → (pl.drainSince + 1024 ≤ s.clock ∨ (s.anyAged q = true ∧ pl.drainSince + 32 ≤ s.clock)) →
       exec (.drainTimeout q p) s = .next
         (((s.passes.filter fun x => x.quay == q && x.plane == p).foldl State.turnBack s).tidy q)) ∧
     (∀ ws : List Nat, ∃ t, exec (.bollardWeightUpdate q k ws) s = .next t ∧ t = { s with bollards := t.bollards } ∧
       ∃ b ∈ t.bollards, b.quay = q ∧ b.n = k ∧
         b.weights = ws.map fun o => 1 + 14 * o / max 1 (ws.foldl max 0)) ∧
     (s.passes = [] → k < 64 → s.spq q < 4 → ∃ t, exec (.bollardUncorrectable q k) s = .next t ∧
       t.dev.err.uecc = s.dev.err.uecc + 1 ∧ t.dev.err.spares = s.dev.err.spares + 1 ∧
       ∃ b ∈ t.bollards, b.quay = q ∧ b.n = k ∧ b.spare = some (64 + s.spq q)) ∧
     (∀ x, s.passes = [x] → k < 64 → s.spq q < 4 → x.quay = q →
       let u : State := { s with dev := { s.dev with err := { s.dev.err with uecc := s.dev.err.uecc + 1 } } }
       let v := (if x.block.onBollard x.blk.toNat k then u.turnBack x else u).tidy q
       ∃ t, exec (.bollardUncorrectable q k) s = .next t ∧
         t = { v with bollards := t.bollards, dev := { v.dev with err := { v.dev.err with spares := v.dev.err.spares + 1 } } }))

/-- A waiting thread enters the block of an admitting plane with a free tag: its registers reach the ports and slots
the block's read entries name; a register over its budget traps it with 0x04, a poisoned one with 0x24 (R160 to R165,
R185). -/
def Obligations.ThreadsEnterBlocks : Prop :=
  ∀ (q p sl tag : Nat) (s : State), Admits q p sl s →
    let pl := s.plane q p
    let t := s.thread q sl;
    (overBudget pl.block t = none → poisonedRead pl.block t = none →
      pl.tags.length < (if (pl.block.h1.extractLsb' 88 8).toNat = 0 then 256 else (pl.block.h1.extractLsb' 88 8).toNat) →
      (List.range 256).find? (fun n => !pl.tags.any (·.1 == n)) = some tag →
      ∃ x : State, exec (.threadAdmit q p sl) s = .next (x.tidy q) ∧ x.plane q p = { pl with
        mustAdmit := pl.mustAdmit.filter (· != sl), tags := pl.tags ++ [(tag, sl)] } ∧
        x.thread q sl = { t with st := .active } ∧
        (s.pass.live = false → x.pass.tag = tag ∧ x.pass.slot = sl ∧ x.pass.ctx = t.runCtx ∧ x.pass.blk = pl.ba ∧
          x.pass.block = pl.block)) ∧
    (∀ r, overBudget pl.block t = some r →
      exec (.threadAdmit q p sl) s = .next (((s.setPlane { pl with
        mustAdmit := pl.mustAdmit.filter (· != sl) }).trapAtEntry q sl (s.entry q pl.entry).ba
          { cause := 0x04, code := BitVec.ofNat 16 r }).tidy q)) ∧
    (∀ r, overBudget pl.block t = none → poisonedRead pl.block t = some r →
      exec (.threadAdmit q p sl) s = .next (((s.setPlane { pl with
        mustAdmit := pl.mustAdmit.filter (· != sl) }).trapAtEntry q sl (s.entry q pl.entry).ba
          { cause := 0x24, code := BitVec.ofNat 16 r }).tidy q))

/-- A pass whose instructions have all resolved: with one branch and no trap it may commit; a recorded trap is taken;
none or two branches are a "branch conflict", 0x03, at the second-lowest branch; poison at the fourth run traps with
0x25 (R191, R193, R376). A pass that may commit commits whole, and only then: an earlier state that blocks it leaves
it waiting (R116, R192). A block that holds `exit` sends its writes first; it commits once they are performed, or
traps where one was refused (R271, R328). -/
def Obligations.PassesResolveAndCommit : Prop :=
  (∀ s : State,
     (∀ f, Ends s → s.pass.recorded = none → s.pass.fired = [f] →
       exec .blockResolve s = .next { s with pass := { s.pass with resolved := true } }) ∧
     (∀ n, Ends s → s.pass.recorded = some n →
       exec .blockResolve s = .next (s.trapPass s.pass (s.pass.withOperands n))) ∧
     (Ends s → s.pass.recorded = none → s.pass.fired.length ≠ 1 →
       exec .blockResolve s = .next (s.trapPass s.pass (s.pass.withOperands { cause := 0x03, idx := s.pass.conflictIdx }))) ∧
     (s.pass.live = true → s.pass.resolved = false → s.pass.allDone = true → s.pass.notReady = false →
       s.pass.poison = true → (mine s).poisonBlk = s.pass.blk → 3 ≤ (mine s).poisonRuns →
       exec .blockResolve s = .next ((s.countReplay.setThread { mine s with poisonRuns := 0 }).trapPass s.pass
         { cause := 0x25, idx := 0x7F }))) ∧
  (∀ (f : Fired) (s : State),
     (Commits f s → f.exits = false → exec .commit s = .next (s.commitPass s.pass f)) ∧
     (Commits f s → f.exits = true →
       let u := s.sendWrites s.pass
       let t := u.thread s.pass.quay s.pass.slot;
       (t.writesOut = true → exec .commit s = .next u.stall) ∧
       (t.writesOut = false → t.late = [] → exec .commit s = .next (u.commitPass u.pass f))) ∧
     (∀ n ns, s.pass.live = true → s.pass.resolved = true → s.pass.fired = [f] → s.pass.leaving ≠ 2 → f.exits = true →
       (mine s).writesOut = false → (mine s).late = n :: ns →
       exec .commit s = .next ((s.setThread { mine s with late := ns }).trapPass s.pass
         (s.pass.withOperands { n with idx := f.idx }))) ∧
     (s.pass.live = true → s.pass.resolved = true → s.pass.fired = [f] → s.pass.leaving ≠ 2 → s.pass.shadows ≠ [] →
       (mine s).writesOut = true → exec .commit s = .next s.stall) ∧
     (s.pass.live = true → s.pass.resolved = true → s.pass.fired = [f] → s.pass.leaving = 2 →
       exec .commit s = .next (if (mine s).writesOut then s.stall else s.endPass s.pass f)))

/-- What a commit writes to registers: a write slot that resolved non-null writes the register its entry names (a
predicate takes bit 0); a register that no such slot names keeps its value (R162, R192 step 1, R160). The branch of a
commit: `br` sends the thread to its target, `call` pushes its return address, `ret` pops one, `trap.ret` returns to
the block of the trap record with ih and VALID cleared, `bar.wait` passes a released barrier (R192 step 5, R326, R327,
R332, R401). -/
def Obligations.CommitWritesRegistersAndBranches : Prop :=
  (∀ (t : Thread) (p : Pass) (r : Nat), t.x.length = 64 → r < 112 →
     ((∀ k e, p.block.writes[k]? = some e → (e.extractLsb' 25 7).toNat = r → (p.slotCell k).val = none) →
       (t.applySlots p).reg r = t.reg r) ∧
     (∀ k e tok, p.block.writes[k]? = some e → (e.extractLsb' 25 7).toNat = r → (p.slotCell k).val = some tok →
       (∀ j e', k < j → p.block.writes[j]? = some e' → (e'.extractLsb' 25 7).toNat = r → (p.slotCell j).val = none) →
       (t.applySlots p).reg r = if r < 64 then tok.data else if tok.data.getLsbD 0 then 1 else 0)) ∧
  (∀ (s : State) (p : Pass) (i : Nat) (target ra : Word) (b : Nat), let t := s.thread p.quay p.slot;
     ((s.takeBranch p ⟨i, target, .plain⟩).thread p.quay p.slot = { t with st := .waiting, nba := target }) ∧
     ((s.takeBranch p ⟨i, target, .call ra⟩).thread p.quay p.slot =
       { t with st := .waiting, nba := target, stack := t.stack.set t.csd ra, csd := t.csd + 1 }) ∧
     ((s.takeBranch p ⟨i, target, .ret⟩).thread p.quay p.slot =
       { t with st := .waiting, nba := target, csd := t.csd - 1 }) ∧
     (let u := (s.takeBranch p ⟨i, target, .trapRet⟩).thread p.quay p.slot;
       u.st = .waiting ∧ u.nba = t.traprec.extractLsb' 192 64 ∧ u.ih = false ∧ u.trapValid = false ∧ u.runCtx = t.ctx ∧
         u.x = t.x ∧ u.p = t.p ∧ u.stack = t.stack) ∧
     (t.bars.getD b 0 = 2 → (s.takeBranch p ⟨i, target, .barWait b⟩).thread p.quay p.slot =
       { t with st := .waiting, nba := target, bars := t.bars.set b 0 }) ∧
     (t.bars.getD b 0 ≠ 2 → (s.takeBranch p ⟨i, target, .barWait b⟩).thread p.quay p.slot =
       { t with st := .blocked, on := .barrier b, nba := target }))

/-- Released writes, barriers and completion waits: the oldest write of a slot is performed, or dropped with its
thread trapping at its next block; an arrival is counted; a wait whose object has changed ends and one whose object
has not stays; a hold of 2,048 cycles with a request waiting breaks (R265, R271, R273, R332, R337). -/
def Obligations.ReleasedWritesComplete : Prop :=
  ∀ (q sl : Nat) (r : PendWrite) (rest : List PendWrite) (s : State), let t := s.thread q sl;
    (∀ s', t.released = r :: rest → s.perform (.write q sl) q sl r = .done s' →
      exec (.storePerform q sl) s = .next
        ((s'.setThread { s'.thread q sl with released := rest }).wakePasses)) ∧
    (∀ s' c a, t.released = r :: rest → s.perform (.write q sl) q sl r = .refused c a s' → (s'.thread q sl).st ≠ .idle →
      (s'.thread q sl).st ≠ .free →
      exec (.storePerform q sl) s = .next (s'.setThread { s'.thread q sl with
        released := rest, late := (s'.thread q sl).late ++ [{ cause := c, idx := 0x7F, addr := a }] }).wakePasses) ∧
    (∀ tq off, let n := max r.size r.span
      t.released = r :: rest → r.kind = .store → r.loc = .vault tq off → s.holdsQuay r.ctx tq = true →
      r.waiting = false → s.scoredFor q sl r.id tq off n = false →
      s.bankWrite tq off n true false (s.heldAgainst q sl (.vault tq off)) (s.sealAfter q sl r.id) = .go →
      let u := (s.charge (meterQuay tq) r.ctx 8 r.size).chargeMove r.ctx q tq r.size
      exec (.storePerform q sl) s = .next ((u.vstore tq off r.bytes r.poison).setThread
        { (u.vstore tq off r.bytes r.poison).thread q sl with released := rest }).wakePasses) ∧
    (∀ b, t.released = { r with kind := .barArrive b } :: rest → ((s.group t.group).bars.any fun x => x.b == b) = true →
      let s1 := (s.setThread { t with released := rest }).modGroup t.group fun g =>
        { g with bars := tmod (fun x => x.b == b) (fun x => { x with count := x.count + 1 }) g.bars };
      exec (.barrierArrival q sl) s = .next (s1.settleBars t.group (s1.group t.group).bars).wakePasses) ∧
    (∀ va tq off old sc last o, t.st = .blocked → t.on = .object va (.vault tq off) old sc last →
      (s.waits.any fun w => w.quay == q && w.woken.contains sl) = true → ObjectRead t tq off o s → o.getLsbD 0 ≠ old →
      ∃ u, exec (.coWaitWake q sl) s = .next u ∧ (u.thread q sl).st = .waiting ∧ (u.thread q sl).on = .none ∧
        (u.thread q sl).nba = t.nba ∧ u.mem = s.mem ∧ u.vmem = s.vmem) ∧
    (∀ va tq off old sc last o, t.st = .blocked → t.on = .object va (.vault tq off) old sc last →
      (last = 0 ∨ last + 256 ≤ s.clock) → ObjectRead t tq off o s → o.getLsbD 0 = old →
      exec (.coWaitPoll q sl) s = .next
        ((s.chargeVault tq t.runCtx 16).setThread { t with on := .object va (.vault tq off) old sc s.clock })) ∧
    (∀ n p h, s.passes[n]? = some p → h ∈ p.holdAges → h.2 + 2048 ≤ s.clock →
      let u : State := { s with holdWaits := s.holdWaits.filter fun x => s.heldAny x.2 }
      u.locWanted p.quay p.slot h.1 = true →
      exec (.holdBreak n) s = .next ((((u.endRemote p).modPass p.quay p.slot Pass.break).unpark).wakePasses))

/-! ### Engines and matrix units -/

/-- A `cp.v2v` of up to a line, whose source and destination each lie in one line of vaults that no region covers,
moves its bytes: the destination reads as the source read, every other vault byte and all of memory stay, the work is
over (R123, R124, R134). One row of a gather of 128-byte rows, index in range, source and destination lines in vaults
that no region covers: the destination line reads as the row, and the gather stands at its next row (R126, R289). -/
def Obligations.CopiesAndGathersMoveTheirBytes : Prop :=
  (∀ (op a f b g : Nat) (o : EngOp) (s : State), Canonical s → OpActs op .cpV2v o s → o.next = 0 →
     s.vaultOperand (dSrc o.desc) o.quay o.ctx (dLen o.desc) = .ok a f →
     s.vaultOperand (dDst o.desc) o.quay o.ctx (dLen o.desc) = .ok b g → 0 < dLen o.desc →
     f % 128 + dLen o.desc ≤ 128 → g % 128 + dLen o.desc ≤ 128 → VaultOpen b g (dLen o.desc) s →
     (s.regions.all fun r => r.quay != a) = true →
     ∃ t, exec (.copyChunkDone op) s = .next t ∧ t.vread b g (dLen o.desc) = s.vread a f (dLen o.desc) ∧
       (∀ x, x < vkey b g ∨ vkey b g + dLen o.desc ≤ x → Mem.read t.vmem x = Mem.read s.vmem x) ∧ t.mem = s.mem ∧
       t.threads = s.threads ∧ ∃ o', t.op? op = some o' ∧ o'.finished = true) ∧
  (∀ (op q off k a : Nat) (o : EngOp) (s : State), Canonical s → OpActs op .gath o s → o.quay % 2 = 0 → dLen o.desc = 128 →
     s.vaultOperand (dSrc o.desc) o.quay o.ctx 0 = .ok q off → basinOf q = basinOf o.quay →
     let io := ((dXtra o.desc).extractLsb' 0 24).toNat + 2 * o.next
     let d := (dDst o.desc).toNat + o.next * 128
     io + 2 ≤ vaultEnd → k = leNat (s.vread o.quay io 2) → k < dAux o.desc / 65536 → k ≠ 0xFFFF →
     a = off + k * ((dXtra o.desc).extractLsb' 32 24).toNat → a % 128 = 0 → a + 128 ≤ vaultEnd → d % 128 = 0 →
     d + 128 ≤ vaultEnd → VaultOpen o.quay d 128 s → (s.regions.all fun r => r.quay != q) = true →
     ∃ t, exec (.gatherRow op) s = .next t ∧ t.vread o.quay d 128 = s.vread q a 128 ∧
       (t.vmeta (vline o.quay d)).lam = (s.vmeta (vline q a)).lam ∧
       (t.vmeta (vline o.quay d)).tag = (s.vmeta (vline q a)).tag ∧ t.mem = s.mem ∧
       ∃ o', t.op? op = some o' ∧ o'.next = o.next + 1)

/-- Collectives and sequences: a collective reads its group list and is known by it, or ends with status 9 where the list
has no rank, repeats one or lacks its own, which ends those that name the rank too (log entry 58); a chunk is taken once every rank has issued and none is stopped; a `seq.gemm` whose chunk has room issues its
next copy, and ends when every K is summed and no step is in flight (R127 to R129, R290, R291). -/
def Obligations.CollectivesAndSequencesStep : Prop :=
  ∀ (op : Nat) (o : EngOp) (s : State),
    (∀ g s1, s.op? op = some o → s.opRuns o = true → o.kind.isColl = true → o.status ≤ 1 → o.phase = 0 →
      s.groupList o = .ok g s1 →
      let s2 := (s1.dropRemotes o).returnLines o
      let me := s2.rankEntry o.quay
      (g.2.1 ≠ [] → g.2.1.eraseDups = g.2.1 → g.2.1.contains me = true →
        (∀ e ∈ g.2.1, entryMod e = s2.domain.mod.toNat ∨ s2.reachable (entryMod e) = true) →
        exec (.collChunkReduce op) s = .next (s2.collAnnounce o g.2.1 g.2.2)) ∧
      (g.2.1 = [] ∨ g.2.1.eraseDups ≠ g.2.1 ∨ g.2.1.contains me = false →
        exec (.collChunkReduce op) s = .next
          (((s2.tell o.ctx s2.peers (.bad me g.2.1)).doomBad o.ctx me g.2.1).endOp op 9))) ∧
    (∀ os fs, s.op? op = some o → s.opRuns o = true → o.kind.isColl = true → o.status ≤ 1 → o.phase ≠ 0 →
      s.doomOf (s.rankEntry o.quay) o.idxs = none → s.collRanks o.idxs = some (os, fs) → (∀ x ∈ os, s.opRuns x.1 = true) →
      let mine := fun (x : EngOp × Nat) => collDesc x.1 (s.rankEntry x.1.quay) o.idxs
      s.collCheck o.idxs.length (os.map mine ++ fs.map (·.desc)) (os.map fun x => (x.1, mine x)) = none →
      exec (.collChunkReduce op) s = .next (s.collChunk o.idxs os o fs)) ∧
    (OpActs op .seqGemm o s → s.seqOk o (dAux o.desc % 4) = true → mmaK (seqMd o.ext) ≤ o.next → s.stepsOf o.id true = 0 →
      exec (.seqStep op) s = .next (s.seqEnd o 0)) ∧
    (OpActs op .seqGemm o s → s.seqOk o (dAux o.desc % 4) = true → o.next < mmaK (seqMd o.ext) → o.phase = 0 →
      s.stepsOf o.id true ≤ 1 →
      exec (.seqStep op) s = .next (s.modOp o.id fun o => { o with phase := 1 })) ∧
    (∀ s', OpActs op .seqGemm o s → s.seqOk o (dAux o.desc % 4) = true → o.next < mmaK (seqMd o.ext) → 1 ≤ o.phase →
      o.phase ≤ 64 →
      let sb := (s.seqSizes o (dAux o.desc % 4)).2.1
      let kc := seqKc o.ext
      let c := o.next / kc
      s.seqIssue o (seqCopy o (seqBg o.ext + (o.phase - 1) * seqStride o.ext + o.next * sb)
        (seqScr o.ext (c % 2) + (o.phase - 1) * kc * sb + (o.next - c * kc) * sb) (((c + 1) * kc - o.next) * sb)) = some s' →
      exec (.seqStep op) s = .next (s'.modOp o.id fun o => { o with phase := o.phase + 1 }))

/-- Scoreboard entries go once their operation is over; then the completion object is raised once with the status: the
status is kept aside, then the object of port b, in a vault that is open or nowhere, is raised and the entry freed, after the
earlier stores of the thread that issued it (R116, R121, R122, R147, R150, R306). -/
def Obligations.OperationsRaiseAndRetire : Prop :=
  ∀ (op st : Nat) (o : EngOp) (s : State),
    (∀ e ∈ s.scores, (∀ x, s.op? e.op = some x → x.finished = true) →
      exec (.scoreboardRetire e.quay e.n) s = .next
        ({ s with scores := s.scores.filter fun x => !(x.quay == e.quay && x.n == e.n) } : State).wakePasses) ∧
    (∀ s1, s.op? op = some o → o.finished = true → o.waiting = false → s.opHalted o = false → s.storesPending o = false →
      (s.scores.any fun e => e.op == op) = false → o.phase < 100 → s.writeReport o = .ok () s1 →
      exec (.completionRaise op) s = .next (s1.modOp op fun x =>
        { x with phase := 100 + o.status, status := 0, report := 0 })) ∧
    (OpRaises op st o s → o.co = 0 → exec (.completionRaise op) s = .next (s.joinOp o st false)) ∧
    (∀ q off, OpRaises op st o s → o.co.getLsbD 63 = true →
      s.vaultOperand ((o.co.extractLsb' 0 36).zeroExtend 64) o.quay o.ctx 16 = .ok q off → VaultOpen q off 16 s →
      exec (.completionRaise op) s = .next ((s.vRaise q off o.ctx st).joinOp o st false))

/-- The raise of a completion object (R121): EXPECT and the bits the manual does not name stay; with EXPECT 0 only
STATUS changes, to 10; else the first arrival of a phase, which finds COUNT 0, drops the old STATUS and ERRS, a status
other than 0 is kept if none was, ERRS counts up to 65535, and the arrival that makes COUNT equal EXPECT turns PHASE
and clears it. -/
def Obligations.ObjectsAreRaised : Prop :=
  ∀ (o : BitVec 128) (st : Nat), st < 256 →
    let expect := (o.extractLsb' 96 32).toNat
    let count := (o.extractLsb' 64 32).toNat
    let status := if count = 0 then 0 else (o.extractLsb' 56 8).toNat
    let errs := if count = 0 then 0 else (o.extractLsb' 40 16).toNat
    let r := raiseObject o st
    r.extractLsb' 96 32 = o.extractLsb' 96 32 ∧ r.extractLsb' 1 39 = o.extractLsb' 1 39 ∧
    (expect = 0 → (r.extractLsb' 56 8).toNat = 10 ∧ r.getLsbD 0 = o.getLsbD 0 ∧
      r.extractLsb' 64 32 = o.extractLsb' 64 32) ∧
    (expect ≠ 0 → count < expect →
      (r.extractLsb' 56 8).toNat = (if st ≠ 0 ∧ status = 0 then st else status) ∧
      (r.extractLsb' 40 16).toNat = (if st ≠ 0 then min (errs + 1) 65535 else errs) ∧
      (r.extractLsb' 64 32).toNat = (if count + 1 = expect then 0 else count + 1) ∧
      r.getLsbD 0 = (if count + 1 = expect then !o.getLsbD 0 else o.getLsbD 0))

/-- Mapped regions, seals and unseals: a fill brings a line with V set and D clear; a write-back with no dirty line
left ends, the region active again or freed; a seal with no scoreboard entry over its range is sealed; an unseal with
no reference left frees its entry (R141, R143, R144, R146). -/
def Obligations.RegionsFillAndFree : Prop :=
  ∀ (op : Nat) (o : EngOp) (r : Region) (s : State),
    (∀ q line f e bs md s1, let off := lineOff line;
      let x := e.xlate (r.vaOf off);
      s.fills.find? (fun f => f.quay == q && f.line == line) = some f → s.regionAt q off = some r → r.mapped = true →
      r.st ≠ .unmapping → (s.vmeta line).v = false → s.tlbHit q r.ctx (r.vaOf off) false = some e →
      ((s.touch e).payBy r.ctx).readLine (.fill q line) (copyHolder q) q r.ctx x 128 = .ok bs md s1 →
      let s2 := (s1.chargeVault q r.ctx 128).vstoreLine q off bs md.lam md.tag md.poison;
      let s3 := (s2.setVmeta { s2.vmeta line with v := true, d := false }).putBack (copyHolder q) (x.pa / 128);
      exec (.mappedFill q line) s = .next
        ((({ s3 with fills := s3.fills.erase f } : State).dropFar (.fill q line)).wakePasses)) ∧
    (OpActs op .vflush o s → s.regionOf o true = some r → o.phase ≠ 0 → o.claimed = none → o.lineAt = none → o.ended = false →
      s.dirtyLine r o.next = none →
      exec (.vflushDone op) s = .next (((s.modRegion r.key fun r => { r with st := .active }).endOp o.id
        o.report).wakePasses)) ∧
    (OpActs op .vunmap o s → s.regionOf o true = some r → o.phase ≠ 0 → o.claimed = none → o.lineAt = none →
      s.dirtyLine r o.next = none →
      exec (.vunmapDone op) s = .next ((({ s with regions := s.regions.filter fun x => x.key != r.key } : State).endOp o.id
        o.report).wakePasses)) ∧
    (∀ l x s1, OpActs op .vflush o s → s.regionOf o true = some r → o.phase ≠ 0 → o.claimed = none →
      o.lineAt = none → s.dirtyLine r o.next = some l → o.status = 0 →
      s.opLine o r.quay r.ctx (r.vaOf (lineOff l.key)) = .ok x s1 → Local x.pa s1 →
      let s2 := s1.chargeVault r.quay o.ctx 128
      exec (.vflushDone op) s = .next (((s2.opWrite r.quay x (s2.vread r.quay (lineOff l.key) 128) l.poison).putBack
        (copyHolder r.quay) (x.pa / 128)).lineRead o r l.key none)) ∧
    (∀ s1, s.op? op = some o → s.opAwake o = true → o.kind = .seal → o.phase = 0 →
      s.addRegion { quay := o.quay, st := .sealing, ctx := o.ctx } (dDst o.desc).toNat (dLen o.desc) = some s1 →
      exec (.sealDone op) s = .next (s1.modOp op fun o => { o with phase := 1 })) ∧
    (OpActs op .seal o s → s.regionOf o false = some r → o.phase ≠ 0 →
      s.scored o.quay (dDst o.desc).toNat (dLen o.desc) = false →
      exec (.sealDone op) s = .next ((s.modRegion r.key fun r => { r with st := .sealed }).endOp op 0)) ∧
    (OpActs op .unseal o s → s.regionOf o false = some r → o.phase ≠ 0 → r.refs = 0 →
      exec (.unsealDone op) s = .next (({ s with regions := s.regions.filter fun x => x.key != r.key } : State).endOp op
        0).wakePasses)

/-- Freezes and thaws, page by page, each operation in its turn at the page's home: a normal page starts to freeze, is
frozen with count 1 once every line of it is at its home, and a frozen page counts up; a thaw counts down, and the last
starts to thaw (R90, R91, R94, R293). -/
def Obligations.PagesFreezeAndThaw : Prop :=
  ∀ (op page : Nat) (o : EngOp) (s s1 s2 : State), let f := s1.frzOf page;
    let c := (((s.pageOrder.find? fun e => e.1 == page).bind fun e => s.op? e.2).map (·.ctx)).getD 0
    let turn := s.frzPage o = .ok page s1 ∧ Local (page * 65536) s1 ∧ s1.pageTurn op page = (true, s2) ∧ o.status = 0 ∧
      o.phase = 0 ∧ o.claimed = none;
    (OpActs op .frz o s → turn → f.st = .normal →
      exec (.freezePage op) s = .next ((s2.setFrz { f with st := .freezing }).modOp o.id fun o =>
        { o with phase := 1, claimed := some page })) ∧
    (OpActs op .frz o s → turn → f.st = .frozen → f.count ≠ 255 →
      exec (.freezePage op) s = .next (((s2.setFrz { f with count := f.count + 1 }).modOp o.id fun o =>
        { o with claimed := none }).pageNext o)) ∧
    ((s.frzOf page).st = .freezing → s.regionMoving (page * 65536) = false → (∀ e ∈ s.dir, e.line / 512 ≠ page) →
      (∀ h ∈ s.remoteHolds, h.line / 512 ≠ page) →
      exec (.pageFrozen page) s = .next ((s.payBy c).setFrz { s.frzOf page with st := .frozen, count := 1 }).unpark) ∧
    (OpActs op .thaw o s → turn → f.count = 1 →
      exec (.thawPage op) s = .next ((s2.setFrz { f with count := 0, st := .thawing }).modOp o.id fun o =>
        { o with phase := 2, claimed := some page })) ∧
    (OpActs op .thaw o s → turn → 2 ≤ f.count.toNat →
      exec (.thawPage op) s = .next (((s2.setFrz { f with count := f.count - 1 }).modOp o.id fun o =>
        { o with claimed := none }).pageNext o)) ∧
    (OpActs op .thaw o s → o.status = 0 → o.claimed = some page → o.phase = 2 → s.bumpReady page = true →
      exec (.thawPage op) s = .next ((s.startSweep o.ctx page).modOp o.id fun o =>
        { o with phase := 1, claimed := some page }))

/-- The matrix unit of a pair: the head of its queue begins, groups are summed up to the next marker, a due release
writes its tiles and clears its nodes, and an operation that ends leaves the queue; `mma.cfg` installs its words in
the node of both quays and `mma.clr` clears it (R244, R248, R250, R251, R255, R256). -/
def Obligations.MatrixUnitsStep : Prop :=
  ∀ (p : Nat) (o : EngOp) (s : State), let u := s.unit p;
    let begins := u.busy = false ∧ s.headOp u = some o ∧ s.opRuns o = true ∧ s.stepHalted o = false ∧ o.status ≤ 1;
    (∀ t s', begins → o.kind = .mma → s.mmaStart u o = .ok t s' → exec (.matrixQueueHead p) s = .next t) ∧
    (begins → o.kind = .mmaRel →
      exec (.matrixQueueHead p) s = .next
        (s.setUnit { u with busy := true, tileDue := some (o.nodeNo, 2), endDue := true })) ∧
    (begins → o.kind = .mmaClr → o.quay % 2 = 0 →
      ∃ t, exec (.matrixQueueHead p) s = .next t ∧ (t.unit p).busy = true ∧ (t.unit p).endDue = true ∧
        (∀ q, q = o.quay ∨ q = o.quay + 1 → (t.node q o.nodeNo).all = List.replicate 4096 0 ∧
          (t.node q o.nodeNo).k = 0 ∧ (t.node q o.nodeNo).cfg = (s.node q o.nodeNo).cfg) ∧
        t = { s with nodes := t.nodes, units := t.units }) ∧
    (∀ u' s', u.running = true → u.tileDue = none → u.endDue = false → s.headOp u = some o → o.waiting = false →
      s.stepHalted o = false → o.status ≤ 1 →
      s.runGroups o u (codeBytes (cfgA (s.node o.quay o.nodeNo).cfg)) 16 = .ok u' s' →
      exec (.endOfRow p) s = .next (s'.setUnit u')) ∧
    (∀ n reason s1 t s2, u.tileDue = some (n, reason) → s.headOp u = some o → o.waiting = false →
      s.releaseReady o n = .ok () s1 → s1.release o n reason = .ok t s2 →
      exec (.nodeRelease p) s = .next ((t.setUnit { u with tileDue := none }).modOp o.id fun o => { o with lost := [] })) ∧
    (u.busy = true → u.endDue = true → u.tileDue = none → s.headOp u = some o → o.kind = .mmaCfg → o.quay % 2 = 0 →
      u.status = 0 →
      ∃ t, exec (.endOfOperation p) s = .next t ∧ (t.unit p).queue = u.queue.drop 1 ∧ (t.unit p).busy = false ∧
        (∀ q, q = o.quay ∨ q = o.quay + 1 → (t.node q o.nodeNo).cfg = o.a ∧ (t.node q o.nodeNo).tgt = o.co ∧
          (t.node q o.nodeNo).k = 0)) ∧
    (u.busy = true → u.endDue = true → u.tileDue = none → s.headOp u = some o → o.kind = .mma →
      (o.parent.isSome ∨ mmaOpco u.desc = 0) →
      exec (.endOfOperation p) s = .next ((s.setUnit { pair := p, queue := u.queue.drop 1 }).joinOp o u.status false))

/-- The control window: an accepted enable or disable of a format region holds it BUSY; once its lines are home EN
takes the new value; a NETPOL write with no reserved bit takes effect; a write in the window reaches the register it
names, and one at an offset without a register changes nothing; a new module number takes the module's memory with it (the
model's choice, log entry 63) (R63 to R66, R131, R449). -/
def Obligations.ControlWindowWritesComplete : Prop :=
  ∀ (die r part off : Nat) (v : Word) (s : State), let g := s.region die r;
    (g.busy = false → v.extractLsb' 12 44 = 0 → v.extractLsb' 0 4 = 0 → (v.extractLsb' 8 4).toNat ≤ 6 →
      (v.extractLsb' 4 4).toNat ≤ 8 → g.en = false →
      (∀ h : Word, h.extractLsb' 4 8 = v.extractLsb' 4 8 → s.enableErr { g with ctl := h } = none) →
      ∃ t, exec (.fmtRegionEnable die r v) s = .next t ∧ (t.region die r).busy = true ∧
        (t.region die r).en = false ∧ (t.region die r).turningOn = true ∧ t = { s with fmt := t.fmt }) ∧
    (g.busy = false → v.extractLsb' 12 44 = 0 → v.extractLsb' 0 4 = 0 → g.en = true → (v.extractLsb' 8 4).toNat = g.fmtc →
      (v.extractLsb' 4 4).toNat = g.gs → g.fmtc ≤ 6 → g.gs ≤ 8 → s.viewFrozen g = false →
      ∃ t, exec (.fmtRegionDisable die r v) s = .next t ∧ (t.region die r).busy = true ∧ (t.region die r).en = true ∧
        (t.region die r).turningOn = false ∧ t = { s with fmt := t.fmt }) ∧
    (g.busy = true → s.dir = [] → s.remoteHolds = [] →
      ∃ t, exec (.fmtRegionBusyClear die r) s = .next t ∧ (t.region die r).busy = false ∧
      (t.region die r).en = g.turningOn ∧ (g.turningOn = true → t.frz = s.frz) ∧
      t = { s with fmt := t.fmt, net := t.net, homeWait := t.homeWait, frz := t.frz, paying := 0 }) ∧
    (v.extractLsb' 24 40 = 0 → (v.extractLsb' 20 4).toNat ≤ 3 → part < 32 →
      exec (.netpolWrite part v) s = .next { s with netpol := kvSet part v s.netpol }) ∧
    (let new := (v.extractLsb' 0 8).toNat
     let u := if s.domain.en ∨ new = s.domain.mod.toNat then s else s.moveMod new
     exec (.controlWindowWrite die 0x4000 v) s = .next { u with domain := { u.domain with en := v.getLsbD 63 } } ∧
       (s.domain.en = false → u.domain.mod = v.extractLsb' 0 8) ∧
       (s.domain.en = false → Mem.wf s.mem = true → (∀ c ∈ s.mem, c.1 / 2 ^ 44 = s.domain.mod.toNat) → ∀ a, a < 2 ^ 44 →
         Mem.read u.mem (new * 2 ^ 44 + a) = Mem.read s.mem (s.domain.mod.toNat * 2 ^ 44 + a))) ∧
    (0x5000 ≤ off → exec (.controlWindowWrite die off v) s = .next s)

/-! ### Launch queues and launches -/

/-- Every command of a launch queue that is due does its work: LAUNCH starts a launch from its record, WAIT reads and
ends or reads again, SIGNAL writes or adds at its place, an engine command issues its operation as a thread of its
quay would; a queue that is awake copies its next slot and moves HEAD (R348 to R351). Where a queue halts: a command
that fails a check of its processor, at its turn, halts the queue with the code of that check, which its STATUS word
keeps with the slot number; nothing of the command is done (R352). -/
def Obligations.QueueCommandsCompleteOrHalt : Prop :=
  (∀ (c q sub : Nat) (x : Queue) (m : BitVec 1024) (s : State),
     let va := (cmdWord m 8).toNat; let n := if m.getLsbD 16 then 8 else 4; let y := Waiter.queue c q
     let waited := fun (bs : List Byte) (s1 : State) =>
       (if waitHolds sub (leNat bs) ((cmdWord m 16).toNat % 2 ^ (8 * n)) then s1.commandDone c q
         else s1.setQueue c { s1.queue c q with started := true, nextRead := s1.clock + 256 }).dropFar y
     let issued := fun (k : OpKind) => (({ s with nextId := s.nextId + 1 } : State).issueOp {
         id := s.nextId, quay := cmdBits m 17 8, kind := k, ctx := c, desc := cmdDesc m, co := cmdWord m 8
         scope := BitVec.ofNat 3 (cmdBits m 10 3), queue := some (c, q) }).setQueue c
           { x with started := true, waitOp := some s.nextId }
     let fits := fun (k : OpKind) =>
       s.roomNow (cmdBits m 17 8) 1 (s.scoredDests (cmdBits m 17 8) c k (cmdDesc m)) = true
     (∀ bs s1, CommandDue c q 1 0 x m s → s.procRead y x.die c va 128 = .ok bs s1 →
       x.running = [] → (∀ l ∈ s1.launches, l.id ≠ s1.nextId) →
       s1.checkRecord c (BitVec.ofNat 1024 (leNat bs)) = 0 → recBind (BitVec.ofNat 1024 (leNat bs)) = 0 →
       let r := s1.startLaunch c x.prio x.die (some (c, q)) (BitVec.ofNat 1024 (leNat bs))
       exec (.cmdLaunch c q) s = .next ((r.2.setQueue c { r.2.queue c q with
         cmd := none, started := false, running := (r.2.queue c q).running ++ [(r.1, x.cmdSlot)] }).dropFar y)) ∧
     (∀ bs s1, CommandDue c q 2 sub x m s → x.started = false → s.procLine y x.die c va n true = .ok bs s1 →
       exec (.cmdWait c q) s = .next (waited bs s1)) ∧
     (∀ bs s1, CommandDue c q 2 sub x m s → x.started = true → (x.nextRead ≤ s.clock ∨ s.tokenTaken x.die c va = true) →
       s.procLine y x.die c va n true = .ok bs s1 →
       exec (.waitReread c q) s = .next (waited bs s1)) ∧
     (CommandDue c q 2 sub x m s → x.started = true → s.clock < x.nextRead → s.tokenTaken x.die c va = false →
       exec (.waitReread c q) s = .next s) ∧
     (∀ h s1 s2, CommandDue c q 3 0 x m s → s.procPa y x.die c va true = .ok h s1 →
       s1.hwWrite y c va (leBytes n ((cmdWord m 16).toNat % 2 ^ (8 * n))) = .done s2 →
       exec (.cmdSignalWrite c q) s = .next ((s2.commandDone c q).dropFar y)) ∧
     (∀ h s1 s2, CommandDue c q 3 1 x m s → s.procPa y x.die c va true = .ok h s1 →
       s1.hwUpdate y c va n (fun old => leBytes n ((leNat old + (cmdWord m 16).toNat) % 2 ^ (8 * n))) true = .done s2 →
       exec (.cmdSignalAdd c q) s = .next ((s2.commandDone c q).dropFar y)) ∧
     (CommandDue c q 4 0 x m s → fits .cpG2v → exec (.cmdCopyG2v c q) s = .next (issued .cpG2v)) ∧
     (CommandDue c q 4 1 x m s → fits .cpV2g → exec (.cmdCopyV2g c q) s = .next (issued .cpV2g)) ∧
     (CommandDue c q 4 2 x m s → fits .cpV2v → exec (.cmdCopyV2v c q) s = .next (issued .cpV2v)) ∧
     (CommandDue c q 4 3 x m s → fits .cpMc → exec (.cmdCopyMc c q) s = .next (issued .cpMc)) ∧
     (CommandDue c q 5 0 x m s → fits (.allred .bf16) → exec (.cmdCollAllredBf16 c q) s = .next (issued (.allred .bf16))) ∧
     (CommandDue c q 5 1 x m s → fits (.allred .f32) → exec (.cmdCollAllredF32 c q) s = .next (issued (.allred .f32))) ∧
     (CommandDue c q 5 2 x m s → fits (.redsc .bf16) → exec (.cmdCollRedscBf16 c q) s = .next (issued (.redsc .bf16))) ∧
     (CommandDue c q 5 3 x m s → fits (.redsc .f32) → exec (.cmdCollRedscF32 c q) s = .next (issued (.redsc .f32))) ∧
     (CommandDue c q 5 4 x m s → fits .allgath → exec (.cmdCollAllgath c q) s = .next (issued .allgath)) ∧
     (CommandDue c q 5 5 x m s → fits .bcast → exec (.cmdCollBcast c q) s = .next (issued .bcast)) ∧
     (CommandDue c q 6 0 x m s → fits .frz → exec (.cmdFreeze c q) s = .next (issued .frz)) ∧
     (CommandDue c q 7 0 x m s → fits .thaw → exec (.cmdThaw c q) s = .next (issued .thaw)) ∧
     (∀ tb hb bs h s1 s2 s3 s4 s5, s.settleQueue c q = s → x = s.queue c q → s.serves c q = true → x.cmd = none →
       x.refused = false → x.errDue = none → s.procLine y x.die c x.base 8 true = .ok tb s1 →
       s1.procLine y x.die c (x.base + 0x100) 8 false = .ok hb s2 → leNat hb < leNat tb →
       s2.procRead y x.die c (x.base + 0x200 + 128 * (leNat hb % x.slots)) 128 = .ok bs s3 →
       s3.procPa y x.die c (x.base + 0x100) true = .ok h s4 →
       s4.hwWrite y c (x.base + 0x100) (leBytes 8 (leNat hb + 1)) = .done s5 →
       exec (.queueWake c q) s = .next ((s5.setQueue c { s5.queue c q with
         cmd := some (BitVec.ofNat 1024 (leNat bs)), cmdSlot := leNat hb, started := false }).dropFar y))) ∧
  (∀ (c q : Nat) (x : Queue) (m : BitVec 1024) (h : HwSays) (s t1 u : State), s.settleQueue c q = s → x = s.queue c q → x.cmd = some m →
     s.serves c q = true → x.started = false → x.running = [] → x.errDue = none → s.checkCommand c m ≠ 0 →
     let t := s.setQueue c { x with
       halted := true, refused := false, cmd := none, started := false, waitOp := none, errDue := some (s.checkCommand c m) }
     t.queue c q = { x with
       halted := true, refused := false, cmd := none, started := false, waitOp := none, errDue := some (s.checkCommand c m) } →
     t.procPa (.queue c q) x.die c (x.base + 0x180) true = .ok h t1 →
     t1.hwWrite (.queue c q) c (x.base + 0x180) (leBytes 8 (x.cmdSlot % 2 ^ 32 + s.checkCommand c m * 2 ^ 32)) = .done u →
     exec (.queueWake c q) s = .next ((u.dropFar (.queue c q)).setQueue c { t.queue c q with errDue := none }))

/-- Work is placed and completed: a ready task, or the next turn of a launch, goes to quays that take it when nothing
of higher rank could; a workgroup that has ended is recorded and its slots are freed; a launch whose workgroups are
all recorded writes its completion record and leaves (R152, R163, R166, R169, R353, R354). -/
def Obligations.WorkIsPlacedAndCompleted : Prop :=
  ∀ (n q : Nat) (s : State),
    (∀ k, s.ready[n]? = some k → s.taskTakes k q = true → s.higherWork q k.prio none (s.ready.take n) = false →
      exec (.workgroupDispatch n [q]) s = .next (({ s with ready := s.ready.eraseIdx n } : State).placeTask k q)) ∧
    (∀ l qs, s.ready = [] → s.launches[n]? = some l → l.bindRead = true → s.launchTakes l (q :: qs) = true →
      (∀ x ∈ q :: qs, s.higherWork x l.prio (some (s.turnRank q l)) [] = false) → l.queue = none →
      exec (.workgroupDispatch n (q :: qs)) s = .next ((q :: qs).zipIdx.foldl
        (fun s x => s.placeWorkgroup l x.1 (l.placed + x.2))
          { s with lastQueue := kvSet (s.partOfQuay q * 4 + l.prio) (2 ^ 18 + l.id) s.lastQueue })) ∧
    (∀ g, s.groups[n]? = some g → s.groupEnded g = true → g.launch = none →
      exec (.workgroupComplete n) s = .next { s with
        threads := s.threads.filter (fun t => t.group != g.id)
        groups := s.groups.filter fun x => x.id != g.id }) ∧
    (∀ g id l s1, s.groups[n]? = some g → s.groupEnded g = true → g.launch = some id → s.launch? id = some l →
      recWgcomp l.record ≠ 0 →
      s.recordWrite (.group g.id) l.ctx (recWgcomp l.record + 32 * g.number) (leBytes 32 (g.record s.clock).toNat) =
        .ok () s1 →
      exec (.workgroupComplete n) s = .next (s1.countGroup g false)) ∧
    (∀ l s1, s.launches[n]? = some l → l.bindRead = true → l.total ≤ l.completed → l.queue = none →
      s.recordWrite (.launch l.id) l.ctx (recDone l.record) (leBytes 32 (l.doneRecord s.clock).toNat) = .ok () s1 →
      exec (.launchComplete n) s = .next { s1 with launches := tdel (fun x => x.id == l.id) s1.launches })

/-! ### Contexts -/

/-- `ctx.new`, `ctx.give` and `ctx.take` performed on operands that pass their checks: a child with the lowest free
number, one level deeper, within its parent's scopes; quays, a memory range, a queue or energy given; quays, a range,
a queue or energy taken back (R406 to R408). -/
def Obligations.ContextsAreMadeAndGivenTo : Prop :=
  ∀ (n : Nat) (o : CtxOp) (s : State), let t := o.targetOf; let x := s.ctx t;
    (∀ c pa, let w3 := o.word 3
      ContextTurn n 0x20 o s → o.word 0 / 4096 = 0 → o.unused [2, 3, 4, 5] = true → o.word 2 % 65536 = 0 →
      o.word 2 + 4096 + 17825792 * (w3 % 512) ≤ 2 ^ 56 → 1 ≤ w3 % 512 → w3 % 512 ≤ 256 → bitsOf w3 9 7 = 0 →
      w3 / 2 ^ 25 = 0 → (w3.testBit 24 = true → o.issuer = 0) → o.word 4 % 2048 = 0 → o.word 4 < 2 ^ 52 →
      o.word 5 < 2 ^ 56 → s.freeContext = some c → (s.ctx o.issuer).depth < 7 →
      s.walksWait o.issuer (o.word 2) ((4096 + 17825792 * (w3 % 512) + 65535) / 65536) true = none →
      s.pinned o.issuer (o.word 2) ((4096 + 17825792 * (w3 % 512) + 65535) / 65536) = some pa →
      BitVec.ofNat 8 (w3 / 2 ^ 16) &&& ~~~(s.ctx o.issuer).allow = 0 →
      ∃ u, exec (.ctxNew (.perform n)) s = .next u ∧ CtxEnded n 0 0 u ∧ u.ctxLive c = true ∧
        (u.ctx c).parent = o.issuer ∧ (u.ctx c).depth = (s.ctx o.issuer).depth + 1 ∧ (u.ctx c).run = false ∧
        (u.ctx c).allow = BitVec.ofNat 8 (w3 / 2 ^ 16) ||| 1 ∧ (u.ctx c).save = pa ∧
        ∀ d, s.ctxLive d = true → u.ctx d = s.ctx d) ∧
    (let new := o.quays.filter fun q => !s.holdsQuay t q;
      ChildTurn n 0x28 o s → o.kind = 0 → o.word 2 ≤ 3 → o.unused [2, 4, 5, 6, 7] = true →
      (new.filter fun q => (x.slotOf q).isNone).length ≤ x.qtab.countP (·.isNone) →
      (∀ q ∈ o.quays, s.absent.contains q = false ∧ s.holdsQuay o.issuer q = true ∧ (∀ h ∈ s.handovers, h.quay ≠ q) ∧
        kvGet (s.partOfQuay q) 0 s.partOwner = s.functionOf t ∧ (s.holdsQuay t q = true ∨ s.assignee q = o.issuer)) →
      ∃ u, exec (.ctxGiveQuays (.perform n)) s = .next u ∧
        u.handovers = s.handovers ++ new.map (fun q => { quay := q, old := s.assignee q, new := t }) ∧
        u.threads = s.threads ∧ u.quayCtx = s.quayCtx) ∧
    (∀ g : Grant, ChildTurn n 0x28 o s → o.kind = 1 → o.word 2 ≤ 3 → o.unused [2, 3, 4, 5, 6] = true →
      o.word 5 % 65536 = 0 → o.word 5 ≠ 0 → o.word 3 % 65536 = 0 → o.word 4 % 65536 = 0 → o.word 3 + o.word 5 ≤ 2 ^ 56 →
      o.word 4 + o.word 5 ≤ 2 ^ 52 → o.word 6 ≤ 3 → (∀ h ∈ x.grants, overlaps (o.word 4) (o.word 5) h.ipa h.len = false) →
      x.grants.length < 64 → s.bmlim o t = .ok none s →
      g = { idx := g.idx, va := o.word 3, ipa := o.word 4, len := o.word 5, w := (o.word 6).testBit 1,
            x := (o.word 6).testBit 0 } →
      (List.range 64).find? (fun k => !x.grants.any (·.idx == k)) = some g.idx →
      exec (.ctxGiveMemory (.perform n)) s = .next ((s.setCtx { x with grants := x.grants ++ [g] }).ctxEnd n 0 g.idx)) ∧
    (let mine := s.queue o.issuer (o.word 3 % 64); let d : Word := BitVec.ofNat 64 (o.word 4);
      let new : Queue := { n := bitsOf (o.word 3) 8 6, desc := d };
      ChildTurn n 0x28 o s → o.kind = 2 → o.nodeOnRoot = false → o.word 2 ≤ 3 → o.unused [2, 3, 4] = true →
      bitsOf (o.word 3) 6 2 = 0 → o.word 3 / 2 ^ 14 = 0 → descriptorOk d = true → mine.en = true → new.prio ≤ mine.prio →
      (s.queue t new.n).en = false → (s.queue t new.n).lentTo = none →
      exec (.ctxGiveQueue (.perform n)) s = .next ((((s.setQueue o.issuer { mine with
        desc := mine.desc &&& ~~~(1#64 <<< 63), withdrawn := some mine.desc, lentTo := some (t, new.n) }).setQueue t
          new).revokePosts o.issuer (o.word 3 % 64)).ctxEnd n 0 0)) ∧
    (ChildTurn n 0x28 o s → o.kind = 3 → o.word 2 ≤ 3 → o.unused [2, 3] = true → (s.quotaAfter t).1 = true →
      (s.quotaAfter t).2 + o.word 3 < 2 ^ 63 →
      exec (.ctxGiveEnergy (.perform n)) s = .next
        (({ s with quota := s.quota ++ [.grow t (o.word 3)] } : State).ctxEnd n 0 0)) ∧
    (let s1 := (s.markNonres o.quays).revoke t (s.opTouches o.quays);
      let r := s1.beginPreempt t o.quays ((o.word 2).testBit 8) true;
      ChildTurn n 0x30 o s → o.kind = 0 → o.word 2 / 4 % 64 = 0 → o.word 2 / 2 ^ 9 = 0 →
      o.unused [2, 4, 5, 6, 7] = true → (∀ q ∈ o.quays, s.holdsQuay t q = true) →
      exec (.ctxTakeQuays (.perform n)) s = .next (r.2.ctxAwait n fun o =>
        { o with waits := [r.1], hands := o.quays, count := o.quays.length })) ∧
    (∀ g ∈ x.grants, ChildTurn n 0x30 o s → o.kind = 1 → o.word 2 / 4 % 64 = 0 → o.word 2 / 2 ^ 9 = 0 →
      o.unused [2, 3] = true → g.idx = o.word 3 →
      ∃ u, exec (.ctxTakeMemory (.perform n)) s = .next u ∧ (∀ h ∈ (u.ctx t).grants, h.idx ≠ o.word 3) ∧
        (∀ l ∈ (u.ctx t).leaves, l.grant ≠ o.word 3)) ∧
    (∀ k, let cq := bitsOf (o.word 3) 8 6; let s1 := (s.setQueue t { n := cq }).revokePosts t cq; ChildTurn n 0x30 o s → o.kind = 2 → o.nodeOnRoot = false →
      o.word 2 / 4 % 64 = 0 → o.word 2 / 2 ^ 9 = 0 → o.unused [2, 3] = true → o.word 3 % 256 = 0 → o.word 3 / 2 ^ 14 = 0 →
      (s.queue t cq).en = true → (s.queue t cq).lentTo = none → (s.queue t cq).waitOp = none →
      (s1.ctx o.issuer).queues.find? (fun k => k.lentTo == some (t, cq)) = some k →
      exec (.ctxTakeQueue (.perform n)) s = .next ((s1.setQueue o.issuer { k with
        desc := k.withdrawn.getD 0, withdrawn := none, lentTo := none }).ctxEnd n 0 0)) ∧
    (ChildTurn n 0x30 o s → o.kind = 3 → o.word 2 / 4 % 64 = 0 → o.word 2 / 2 ^ 9 = 0 → o.unused [2, 3] = true →
      exec (.ctxTakeEnergy (.perform n)) s = .next
        (({ s with quota := s.quota ++ [.shrink t (o.word 3)] } : State).ctxEnd n 0 0))

/-- `ctx.map`, `ctx.unmap`, a renewal, `ctx.run`, `ctx.stop`, `en.quota`, `dlog` and `part.chg` performed on operands
that pass their checks, and the report of an operation that has ended (R403, R409 to R415, R428); room for a context's tables
is counted as log entry 75 says. -/
def Obligations.ContextsAreMappedAndRun : Prop :=
  ∀ (n : Nat) (o : CtxOp) (s : State), let t := o.targetOf; let x := s.ctx t;
    (∀ pa pw px, ∀ g ∈ x.grants, ChildTurn n 0x38 o s → o.unused [2, 3, 4] = true → o.word 4 % 256 = 0 →
      o.word 4 < 1024 → o.word 2 % 65536 = 0 → o.word 3 = 65536 → o.word 2 + 65536 ≤ 2 ^ 52 → o.count = 0 →
      x.grants = [g] → g.ipa ≤ o.word 2 → o.word 2 + 65536 ≤ g.ipa + g.len →
      s.walksWait o.issuer (g.va + (o.word 2 - g.ipa)) 1 false = none →
      s.mapSource o.issuer (g.va + (o.word 2 - g.ipa)) 16 = some (pa, pw, px) →
      ((o.word 4).testBit 9 = true → pw = true ∧ g.w = true) → ((o.word 4).testBit 8 = true → px = true ∧ g.x = true) →
      s.bmlim o t = .ok none s → x.leaves = [] → s.bumpReady (pa / 65536) = true →
      (∀ l : Leaf, l.ipa = o.word 2 → l.size = 16 → s.stageRoom t [l] = true) →
      ∃ u, exec (.ctxMap (.perform n)) s = .next u ∧ u.genOf (pa / 65536) = s.genOf (pa / 65536) + 1 ∧
        (u.ctx t).leaves = [{
          ipa := o.word 2, size := 16, pa := pa, w := (o.word 4).testBit 9
          x := (o.word 4).testBit 8, gen := s.genOf (pa / 65536) + 1, grant := g.idx }]) ∧
    (ChildTurn n 0x40 o s → t ≠ o.issuer → o.unused [2, 3] = true → o.word 2 % 65536 = 0 → o.word 3 % 65536 = 0 →
      o.word 2 + o.word 3 ≤ 2 ^ 52 → s.splitStop t (o.word 2) (o.word 2 + o.word 3) = none →
      let r := s.clearLeaves t fun l => decide (o.word 2 ≤ l.ipa) && decide (l.ipa < o.word 2 + o.word 3)
      exec (.ctxUnmap (.perform n)) s = .next (r.2.ctxAwait n fun o =>
        { o with code := 0, count := r.1.length, pages := r.1.map fun k => (k, false) })) ∧
    (∀ l, ContextTurn n 0x40 o s → t = o.issuer → o.issuer ≠ 0 → o.word 0 / 4096 = 0 → o.unused [2, 3] = true →
      o.word 2 % 65536 = 0 → o.word 3 = 65536 → o.word 2 < 2 ^ 52 → x.leafAt (o.word 2) = some l →
      let pg := (l.pa + (o.word 2 - l.ipa)) / 65536
      s.bumpReady pg = true → s.stageRoom o.issuer (x.renewed (o.word 2) 0) = true →
      ∃ u, exec (.ctxUnmapRenewal (.perform n)) s = .next u ∧ u.genOf pg = s.genOf pg + 1 ∧
        CtxEnded n 0 (s.genOf pg + 1).toNat u) ∧
    (ChildTurn n 0x48 o s → o.unused [2] = true → o.word 2 = 0 → x.exhausted = false → x.run = false →
      (∀ p ∈ s.preempts, p.only = true) →
      ∃ u, exec (.ctxRun (.perform n)) s = .next u ∧ (u.ctx t).run = true ∧ u.threads = s.threads) ∧
    (let stopped := fun (drain : Bool) =>
        let r := (s.setCtx { x with run := false }).beginPreempt t ((s.setCtx { x with run := false }).subtreeQuays t)
          drain false
        r.2.ctxAwait n fun o => { o with waits := [r.1] };
      ChildTurn n 0x50 o s → o.unused [2] = true →
      (o.word 2 ≤ 1 → exec (.ctxStop (.perform n)) s = .next (stopped (o.word 2 != 0))) ∧
      (o.word 2 = 2 → exec (.ctxStopEnd (.perform n)) s = .next (stopped true)) ∧
      (o.word 2 = 3 → exec (.ctxStopRelease (.perform n)) s = .next (stopped true))) ∧
    (ChildTurn n 0x60 o s → o.unused [2, 3] = true → o.word 2 ≤ 1 → (o.word 2 = 0 → o.word 3 = 0) →
      o.word 3 < 2 ^ 63 →
      exec (.enQuota (.perform n)) s = .next
        (({ s with quota := s.quota ++ [.set t ((o.word 2).testBit 0) (o.word 3)] } : State).ctxEnd n 0 0)) ∧
    (∀ bs s1 s2, ChildTurn n 0x88 o s → o.unused [2, 3] = true → o.word 3 = 1 → o.word 2 % 64 = 0 → o.word 2 < 2 ^ 56 →
      s.ctxLine o o.issuer (o.word 2) 64 = .ok bs s1 → (∀ g ∈ x.grants, g.ipa + g.len ≤ leNat (bs.drop 56)) →
      (∀ l ∈ x.leaves, l.ipa + 2 ^ l.size ≤ leNat (bs.drop 56)) →
      s1.hwWrite o.waiter o.issuer (o.word 2) (leBytes 8 (leNat (bs.take 8) / 4 * 4 + 1)) = .done s2 →
      ∃ u, exec (.dlogStart (.perform n)) s = .next u ∧ u.mem = s2.mem ∧
        (s2.ctxLive t = true → (u.ctx t).dlog = BitVec.ofNat 64 (o.word 2 + 1)) ∧
        (∀ e ∈ u.tlb, e.ctx = t → e.size = 16 ∧ e.seen = false) ∧ (s2.ctxq = s.ctxq → CtxEnded n 0 0 u)) ∧
    (ChildTurn n 0x88 o s → o.unused [2, 3] = true → o.word 3 = 0 → o.word 2 % 64 = 0 → o.word 2 < 2 ^ 56 →
      let off := fun (s : State) => ((s.dropFar o.waiter).setCtx { (s.ctx t) with dlog := (s.ctx t).dlog &&& ~~~1#64 }).ctxEnd n 0 0
      (x.dlog.getLsbD 0 = false → exec (.dlogStop (.perform n)) s = .next (off s)) ∧
      (∀ bs s1 s2, let va := (x.dlog.extractLsb' 6 50).toNat * 64;
        x.dlog.getLsbD 0 = true → s.ctxLine o o.issuer va 8 = .ok bs s1 →
        s1.hwWrite o.waiter o.issuer va (leBytes 8 (leNat bs / 2 * 2)) = .done s2 →
        exec (.dlogStop (.perform n)) s = .next (off s2))) ∧
    (∀ bs s1, let es := bs.map changeEntry; let s2 := s1.dropFar o.waiter;
      ContextTurn n 0x90 o s → t = 0 → o.issuer = 0 → o.word 0 / 4096 = 0 → o.unused [2, 3] = true →
      o.word 2 % 32 = 0 → o.word 2 < 2 ^ 56 → 1 ≤ o.word 3 → o.word 3 ≤ 256 →
      s.changeList o (o.word 2) (o.word 3) = .ok bs s1 → s2.checkList s2.partState es 0 = none →
      exec (.partChg (.perform n)) s = .next (s2.modCtxOp n fun o =>
        { o with phase := 2, hands := es.flatMap fun e => e.elim [] (·.quays), count := 0, list := bs })) ∧
    (∀ tag, s.ctxq[n]? = some o → o.phase = 9 → s.areasPending o = false → o.src = .node tag →
      exec (.contextOpDone n) s = .next (({ s with ctxq := s.ctxq.eraseIdx n } : State).send 0x82 o.issuer tag.toNat
        (leBytes 8 0 ++ leBytes 8 o.count ++ leBytes 4 o.code ++
          leBytes 4 (if o.func = 0x20 then o.target else t)))) ∧
    (∀ id e, s.ctxq[n]? = some o → o.phase = 9 → s.areasPending o = false → o.src = .op id → s.op? id = some e →
      s.opAwake e = true → e.status ≤ 1 → VaultOpen e.quay e.a.toNat 16 s →
      let s1 := (s.chargeVault e.quay e.ctx 16).vstore e.quay (e.a.toNat + 8) (leBytes 4 o.code ++ leBytes 4 o.count) false
      exec (.contextOpDone n) s = .next (((if o.func = 0x20 ∧ o.code = 0 then
        s1.vstore e.quay e.a.toNat (leBytes 8 o.target) false else s1).dropCtxOp n).endOp id 0))

/-! ### Traps, pre-emption, saves -/

/-- Taking a trap outside a handler: the search goes from the thread's own context up to the first table with a
handler, the thread's trap record is written with the cause, the block and the reflections made, ih and hctx are set,
the thread is WAITING at the handler's block, and its registers and predicates stay; with no handler up to the root
its slot becomes IDLE and its record goes to the control node. Inside a handler the search starts at the handler's
parent and the cause is 0x26, the first cause kept beside it (R367, R370, R371). How a handler is found: the first
context from the start up the tree whose table entry is not empty (R370). Where an entry on the way cannot be read yet (its
page is on the move, its line is held, or another module has to answer), the thread is BLOCKED until it can. -/
def Obligations.TrapsAreTaken : Prop :=
  (∀ (t : Thread) (n : TrapNote) (blk : Word) (s : State), let u := s.takeTrap t n blk; let r := u.thread t.quay t.slot;
     let s1 := (s.leaveEntries t.quay t.slot).dropWaits t.quay t.slot; let y := Waiter.handler t.quay t.slot
     (∀ c h levels, t.ih = false → s1.searchAsk y n.cause (some t.ctx) 9 = none →
       s1.findHandler y n.cause (some t.ctx) 0 9 = some (c, h, levels) →
       r.st = .waiting ∧ r.nba = h ∧ r.ih = true ∧ r.hctx = c ∧ r.x = t.x ∧ r.p = t.p ∧ r.fpctl = t.fpctl ∧
         r.traprec.extractLsb' 0 8 = n.cause ∧ r.traprec.extractLsb' 192 64 = blk ∧
         r.traprec.extractLsb' 93 3 = BitVec.ofNat 3 levels ∧ r.traprec.extractLsb' 96 16 = BitVec.ofNat 16 c ∧
         r.traprec.extractLsb' 112 16 = BitVec.ofNat 16 t.ctx ∧ u.mem = s.mem ∧ u.vmem = s.vmem) ∧
     (∀ c h levels, t.ih = true → s1.searchAsk y 0x26 (s1.parentOf t.hctx) 9 = none →
       s1.findHandler y 0x26 (s1.parentOf t.hctx) 1 9 = some (c, h, levels) →
       r.st = .waiting ∧ r.nba = h ∧ r.hctx = c ∧ r.traprec.extractLsb' 0 8 = 0x26 ∧
         r.traprec.extractLsb' 80 8 = n.cause ∧ r.traprec.extractLsb' 93 3 = BitVec.ofNat 3 levels) ∧
     (t.ih = false → s1.searchAsk y n.cause (some t.ctx) 9 = none → s1.findHandler y n.cause (some t.ctx) 0 9 = none →
       r.st = .idle ∧ r.ih = false ∧ u.outbox.length = s.outbox.length + 1) ∧
     (∀ s2, t.ih = false → s1.searchAsk y n.cause (some t.ctx) 9 = some s2 →
       u = s2.setThread { t with st := .blocked, on := .delivery n blk, drift := false })) ∧
  (∀ (s : State) (y : Waiter) (cause : BitVec 8) (c levels fuel : Nat),
     (∀ h, s.handler y c cause = some h → s.findHandler y cause (some c) levels (fuel + 1) = some (c, h, levels)) ∧
     (s.handler y c cause = none → c = 0 → s.findHandler y cause (some c) levels (fuel + 1) = none) ∧
     (s.handler y c cause = none → c ≠ 0 →
       s.findHandler y cause (some c) levels (fuel + 1) = s.findHandler y cause (some (s.ctx c).parent) (levels + 1) fuel) ∧
     (s.findHandler y cause none levels fuel = none))

/-- Pre-emption. An agent that has reached its stop answers, and leaves the list of those waited for; with the last
answer the saves begin: a quay that holds anything has its threads taken out of it into its section, and a save of
that section is ordered. Threads still in flight 1,024 cycles after a draining quay's intake stopped are turned back,
to wait at their block. Once every save is written the pre-emption is over, a quay that it retires is absent, and each
header reads STATE 2, or 0 where the context has a quay that is not saved. The lamplighter token sets out over a
partition's quays and stops one after the other, whose header reads STATE 1 and MODE 1. Exhaustion clears the run bit,
begins a draining pre-emption of the subtree and tells the control node. A write of a header whose line is at home
writes these bytes in memory (R377 to R379, R381, R384, R391, R442). -/
def Obligations.PreemptionsComplete : Prop :=
  ∀ (n : Nat) (s : State),
    (∀ p agent, s.preempts[n]? = some p → p.awaiting.contains agent = true → s.agentStopped p agent = true →
      exec (.preemptStopReached n agent) s = .next ((s.modPreempt p.id fun p =>
        { p with awaiting := p.awaiting.filter (· != agent) }).startSaves p.id)) ∧
    (∀ p agent, s.preempts = [p] → p.awaiting.contains agent = true → s.agentStopped p agent = true → p.slice = false →
      p.awaiting.filter (· != agent) ≠ [] →
      exec (.preemptStopReached 0 agent) s = .next
        { s with preempts := [{ p with awaiting := p.awaiting.filter (· != agent) }] }) ∧
    (∀ p agent q j, s.preempts = [p] → p.awaiting = [agent] → s.agentStopped p agent = true → p.slice = false →
      p.todo = [] → p.saved = [] → p.quays = [q] → (s.ctx (s.assignee q)).slotOf q = some j → s.quayBusy q = true →
      ∃ u, exec (.preemptStopReached 0 agent) s = .next u ∧ (∀ t ∈ u.threads, t.quay ≠ q) ∧
        (∃ x ∈ u.sections, x.ctx = s.assignee q ∧ x.sect = j ∧ x.quay = q ∧
          x.threads = s.threads.filter fun t => t.quay == q && t.st != .free) ∧
        (∃ v ∈ u.saves, v.ctx = s.assignee q ∧ v.quay = q ∧ v.sect = j ∧ v.restore = false ∧ v.owner = p.id) ∧
        ∃ y ∈ u.preempts, y.id = p.id ∧ y.awaiting = [] ∧ y.ending = true) ∧
    (∀ p, s.preempts[n]? = some p → p.drain = true →
      let qs := (p.since.filter fun x => decide (s.clock ≥ x.2 + 1024)).map (·.1)
      exec (.preemptDrainLimit n) s = .next (qs.foldl State.tidy
        ((s.passes.filter fun x => qs.contains x.quay).foldl State.turnBack s))) ∧
    (∀ p x t0, s.preempts[n]? = some p → p.drain = true → p.since = [(x.quay, t0)] → t0 + 1024 ≤ s.clock →
      s.pass = x → x.live = true → x.leaving = 0 → s.parked = [] →
      ∃ u, exec (.preemptDrainLimit n) s = .next u ∧ u.passes = [] ∧
        (u.thread x.quay x.slot).st = .waiting ∧ u.dev.err.replays = s.dev.err.replays + 1 ∧ u.mem = s.mem ∧ u.vmem = s.vmem) ∧
    (∀ p, let cs := ((p.quays.map s.assignee) ++ (if p.only then [] else [p.root])).eraseDups
      let r : State := { s with
        preempts := s.preempts.filter fun x => x.id != p.id
        absent := if p.retire then p.quays.foldl (fun l q => addOnce q l) s.absent else s.absent
        dev := { s.dev with err := { s.dev.err with
          retired := s.dev.err.retired + if p.retire then p.quays.length else 0 } } }
      s.preempts[n]? = some p → p.ending = true → (∀ v ∈ s.saves, v.owner ≠ p.id) →
      (∀ c ∈ cs, s.areaPending (s.ctx c) = false) → (∀ c ∈ cs, (s.ctx c).lost = false) →
      exec (.preemptionComplete n) s = .next (cs.foldl (fun s c =>
        s.header (s.ctx c) 0 (leBytes 8 (if s.allSaved c then 2 else 0))) r)) ∧
    (∀ (c : Ctx) off bs, let pa := c.save + off
      c.maxq ≠ 0 → 0 < bs.length → pa % 128 + bs.length ≤ 128 → s.areaDue = [] → s.hasDir (pa / 128) = false →
      s.heldRemotely (pa / 128) = false → (s.frzOf (pa / 65536)).st = .normal → s.collecting = [] →
      s.header c off bs = (reachCharged (s.areaPlace pa) (pa / 128) (s.areaCtx pa) (s.payBy (s.areaCtx pa))).gwrite pa bs false) ∧
    (∀ part, let qs := (List.range 256).filter fun q => s.partOfQuay q == part && s.assignee q != 0 &&
        !s.absent.contains q && !s.exchanging q && !s.preempts.any (fun p => p.quays.contains q || p.todo.contains q)
      (qs ≠ [] → exec (.timeSliceEnd part) s = .next { s with
        nextId := s.nextId + 1
        preempts := s.preempts ++ [{ id := s.nextId, root := 0, todo := qs, only := true, slice := true }] }) ∧
      (qs = [] → exec (.timeSliceEnd part) s = .next s)) ∧
    (∀ p q rest, s.preempts.find? (fun p => !p.todo.isEmpty) = some p → p.todo = q :: rest → s.exchanging q = false →
      (s.ctx (s.assignee q)).lost = false →
      let x := s.ctx (s.assignee q)
      let t := (s.header x 0 (leBytes 8 1)).header x 8 (leBytes 8 1)
      let agents := (stopAgents [q]).filter fun a => !p.awaiting.contains a
      exec .lamplighterArrival s = .next (t.modPreempt p.id fun p => { p with
        quays := p.quays ++ [q], todo := rest, since := p.since ++ [(q, t.clock)]
        awaiting := p.awaiting ++ agents })) ∧
    (∀ c, c ≠ 0 → s.ctxLive c = true → (s.ctx c).exhausted = true → (s.ctx c).run = true →
      let t := s.setCtx { s.ctx c with run := false }
      let u := (t.beginPreempt c (t.subtreeQuays c) true false).2
      exec (.exhaustionPreempt c) s = .next (u.send 0x86 c 0
          (leBytes 8 c ++ leBytes 8 (s.ctx c).used.toNat ++ leBytes 8 u.clock)) ∧
        (u.ctx c).run = false ∧
        ∃ p ∈ u.preempts, p.root = c ∧ p.quays = t.subtreeQuays c ∧ p.drain = true ∧ p.awaiting = stopAgents p.quays)

/-- Saves, restores and the hand-over of a vault. A save writes the parts of its next chunk of 4 KiB; after the last its
section holds state, or its context is lost where a line could not be read or written. A restore takes the parts of its
section, reads them chunk by chunk, and with the last read takes the section to its quay, where each thread that it
marks stands with the registers of its record. A vault handed over is written back, saved beside the saved state where
there is one, then zeroed, and the quay is the new holder's (R151, R382, R384, R389, R390, R393). -/
def Obligations.SavesAndHandoversComplete : Prop :=
  ∀ (n : Nat) (s : State),
    (∀ v, s.saves[n]? = some v → v.restore = false → s.saveStopped v = false →
      let base := (s.ctx v.ctx).save + sectOff v.sect
      let now := (firstChunk v.frags).1
      let rest := (firstChunk v.frags).2
      let t := (now.foldl (fun s g => s.areaWrite (base + g.1) g.2) s).charge (meterQuay v.quay) v.ctx 15
        ((now.map fun g => g.2.length).foldl (· + ·) 0)
      let last := (t.dropSave n).markSect v.ctx v.sect true;
      (s.badWrite base now = none → rest ≠ [] → exec (.saveChunk n) s = .next (t.setSave n { v with frags := rest })) ∧
      (s.badWrite base now = none → rest = [] → v.bad = [] → exec (.saveChunk n) s = .next (last.saveEnded v)) ∧
      (∀ o os, s.badWrite base now = none → rest = [] → v.bad = o :: os →
        exec (.saveChunk n) s = .next (((v.bad.foldl (fun (s : State) o => s.setPoison ((base + o) / 128) true) last).loseContext
          v.ctx v.quay o 1).saveEnded v)) ∧
      (∀ l, s.badWrite base now = some l →
        exec (.saveChunk n) s = .next ((((t.setPoison l true).dropSave n).loseContext v.ctx v.quay (l * 128 - base) 2).saveEnded v))) ∧
    (∀ v, s.saves[n]? = some v → v.restore = true → s.saveStopped v = false → s.areaPending (s.ctx v.ctx) = false →
      s.runs v.ctx 9 = true →
      let base := (s.ctx v.ctx).save + sectOff v.sect
      let sec := s.sectionOf v
      let now := (firstChunk v.chunks).1
      let ask := now.foldl (fun r p => let o := r.2.areaOwned (base + p.1) p.2; (r.1 && o.1, o.2)) (true, s)
      let t := now.foldl (fun s p => s.chargeLines v.quay (base + p.1) p.2 v.ctx)
        (ask.2.charge (meterQuay v.quay) v.ctx 15 ((now.map (·.2)).foldl (· + ·) 0));
      (v.begun = false → s.holdsSect (s.ctx v.ctx) v.sect = true →
        exec (.restore n) s = .next (s.setSave n { v with
          begun := true, chunks := chunkedParts (s.sectionParts sec base (v.loadsVault sec)) })) ∧
      (∀ c ∈ v.chunks, v.begun = true → (∀ h ∈ s.handovers, h.quay ≠ v.quay) → ask.1 = true →
        (∀ p ∈ now, t.areaPoison (base + p.1) p.2 = []) →
        exec (.restore n) s = .next (t.setSave n { v with
          frags := v.frags ++ now.map (fun p => (p.1, t.areaRead (base + p.1) p.2)), chunks := (firstChunk v.chunks).2 })) ∧
      (v.begun = true → v.chunks = [] → (∀ h ∈ s.handovers, h.quay ≠ v.quay) → s.quayBusy v.quay = false →
        ∃ u, exec (.restore n) s = .next u ∧ u.saves = s.saves.eraseIdx n ∧ u.quayCtx = s.quayCtx ∧
          u.sections = s.sections.filter (fun y => !(y.ctx == v.ctx && y.sect == v.sect)) ∧
          ∀ sl, sl < 4096 → (leNat (v.read 0xA0 512)).testBit sl = true →
            let t := tget (fun (t : Thread) => t.slot == sl) { slot := sl, ctx := (s.ctx v.ctx).num } sec.threads
            let r := t.fromRecord (v.read (0xD0000 + 768 * sl) (256 + 8 * t.budget)) (s.clock - sec.since)
            ∃ x ∈ u.threads, x.quay = v.quay ∧ x.slot = r.slot ∧ x.nba = r.nba ∧ x.x = r.x ∧ x.p = r.p ∧ x.fpctl = r.fpctl ∧
              x.stack = r.stack ∧ x.csd = r.csd ∧ x.traprec = r.traprec ∧ x.ih = r.ih)) ∧
    (∀ h, let step := fun (u : State) (k : Nat) =>
        ({ u with handovers := tmod (fun x => x.quay == h.quay) (fun x => { x with phase := k }) u.handovers } : State)
      s.handovers[n]? = some h → (∀ o ∈ s.ops, o.quay ≠ h.quay) →
      (h.phase = 0 → (∀ g ∈ s.groups, g.quay ≠ h.quay) → s.handoverWaits h = false →
        exec (.vaultHandover n) s = .next (step (s.flushQuay h.quay) 1)) ∧
      (h.phase = 1 → (∀ r ∈ s.regions, r.quay = h.quay → r.mapped = true ∨ r.refs = 0) →
        ((s.ctx h.old).slotOf h.quay = none ∨
          ∃ j, (s.ctx h.old).slotOf h.quay = some j ∧ s.holdsSect (s.ctx h.old) j = false) →
        exec (.vaultHandover n) s = .next (step s 3)) ∧
      (∀ j, h.phase = 1 → (∀ r ∈ s.regions, r.quay = h.quay → r.mapped = true ∨ r.refs = 0) →
        (s.ctx h.old).slotOf h.quay = some j → s.holdsSect (s.ctx h.old) j = true →
        ∃ u, exec (.vaultHandover n) s = .next u ∧ u.mem = s.mem ∧ u.vmem = s.vmem ∧
          u.handovers = (step s 2).handovers ∧ u.saves = s.saves ++
          [{ ctx := h.old, quay := h.quay, sect := j, restore := false, held := s.handHeld h.quay,
             frags := chunked (s.vaultFrags h.quay ((s.ctx h.old).save + sectOff j)) }]) ∧
      (h.phase = 2 → (∀ v ∈ s.saves, v.quay = h.quay → v.restore = true) →
        exec (.vaultHandover n) s = .next (step s 3))) ∧
    (∀ h, s.handovers[n]? = some h → 3 ≤ h.phase →
      ∃ u, exec (.vaultHandover n) s = .next u ∧ u.assignee h.quay = h.new ∧ (∀ x ∈ u.handovers, x.quay ≠ h.quay) ∧
        (∀ off, off < vaultEnd → Mem.read u.vmem (vkey h.quay off) = 0) ∧
        (∀ q off, q ≠ h.quay → off < vaultEnd →
          Mem.read u.vmem (vkey q off) = Mem.read s.vmem (vkey q off)) ∧ u.mem = s.mem)

/-! ### Energy, power, links -/

/-- A tick applies the quota changes in the order they came, then the shared costs and the charges, and takes the next
number; before its cycle nothing happens; a charge of whole nanojoules adds to USED of the context and of every
ancestor and takes from REMAIN where there is a quota, to 0 at the least (R437, R440, R441). The power manager: a
window above 3,000 W adds a step, at most four, one below 2,900 W removes one, one between keeps them; a die at 95 °C
adds a step and marks the die, one below 90 °C takes the mark away and, after the last mark, a step; a die at 110 °C
stops every context and tells the control node, and once that is over the module is held in reset (R24, R463). -/
def Obligations.TicksPowerAndHeat : Prop :=
  (∀ (s : State) (c nj k : Nat),
     (tickCycles * (s.dev.ticks + 1) ≤ s.clock → exec .tick s = .next (s.quota.foldl State.applyQuota
       { s with dev := { s.dev with ticks := s.dev.ticks + 1 }, quota := [] }).staticCharges.applyCharges) ∧
     (s.clock < tickCycles * (s.dev.ticks + 1) → exec .tick s = .next s) ∧
     (s.ctxLive c = true → c ≠ 0 → (s.ctx c).expl = true → ∃ t : State, s.chargeUp c nj (k + 1) =
         t.chargeUp (s.ctx c).parent nj k ∧ (t.ctx c).used = (s.ctx c).used + BitVec.ofNat 64 nj ∧
           (t.ctx c).remain = (s.ctx c).remain - nj ∧ ∀ d, d ≠ c → t.ctx d = s.ctx d) ∧
     (s.ctxLive 0 = true → (s.ctx 0).expl = false → ((s.chargeUp 0 nj (k + 1)).ctx 0).used =
       (s.ctx 0).used + BitVec.ofNat 64 nj ∧ ((s.chargeUp 0 nj (k + 1)).ctx 0).remain = (s.ctx 0).remain) ∧
     (∀ e r, s.ctxLive c = true → ((s.applyQuota (.set c e r)).ctx c).expl = e ∧
       ((s.applyQuota (.set c e r)).ctx c).remain = r)) ∧
  (∀ (x : Nat) (die : Nat) (s : State), let d := s.dev;
     let cyc := (d.thrcyc + d.throttle * 206250 * 256) % 2 ^ 64
     (3000000 < x → exec (.powerWindow x) s =
       .next { s with dev := { d with thrcyc := cyc, throttle := min 4 (d.throttle + 1) } }) ∧
     (x < 2900000 → d.hot = [] → exec (.powerWindow x) s =
       .next { s with dev := { d with thrcyc := cyc, throttle := d.throttle - 1 } }) ∧
     (2900000 ≤ x → x ≤ 3000000 → d.hot = [] → exec (.powerWindow x) s = .next { s with dev := { d with thrcyc := cyc } }) ∧
     (95 ≤ x → exec (.thermalThrottle die x) s = .next { s with dev := { d with
       hot := if d.hot.contains die then d.hot else d.hot ++ [die], throttle := min 4 (d.throttle + 1) } }) ∧
     (x < 90 → d.hot = [die] → exec (.thermalThrottle die x) s =
       .next { s with dev := { d with hot := [], throttle := d.throttle - 1 } }) ∧
     (x < 90 → d.hot.contains die = false → exec (.thermalThrottle die x) s = .next s) ∧
     (90 ≤ x → x < 95 → exec (.thermalThrottle die x) s = .next s) ∧
     (110 ≤ x → d.tripped = false →
       let t : State := { s with dev := { d with tripped := true } }
       let u := (t.beginPreempt 0 (List.range 256) true false).2
       exec (.thermalTrip die x) s = .next (u.send 0x86 0 0
         (leBytes 8 0 ++ leBytes 8 (u.ctx 0).used.toNat ++ leBytes 8 u.clock))) ∧
     (110 ≤ x → d.tripped = true → s.preempts = [] → s.saves = [] →
       exec (.thermalTrip die x) s = .next { s with dev := { d with inReset := true } }) ∧
     (x < 110 → exec (.thermalTrip die x) s = .next s))

/-- Scrub and links: the scrub goes to a slice's next line and counts what it finds, poisoning what it cannot correct;
a retransmitted flit is counted; a frame of a peer is noted, an answer or a refusal reaches its access, a frame for another
module goes on to it (log entry 78), another module's collective is kept, a failed CRC is replayed; keep-alives go to every peer; a peer silent for 50 µs loses its route, its replicas go and its accesses
are refused; an unreachable peer's SWACK counts as given after 100 µs (R71, R72, R94, R451, R461). -/
def Obligations.ScrubAndLinksComplete : Prop :=
  ∀ (x peer tag : Nat) (s : State), let d := s.dev;
    let line := (s.domain.mod.toNat * 2 ^ 44 + x / 16 * 2 ^ 37 + x % 16 * 2 ^ 33) / 128 + kvGet x 0 d.scrub
    let moved : State := { s with dev := { d with scrub := kvSet x ((kvGet x 0 d.scrub + 1) % sliceLines) d.scrub } }
    let seen : State := { s with domain := { s.domain with lastFrame := kvSet peer s.clock s.domain.lastFrame } }
    let told := fun (f : Remote → Remote) => tmod (fun r => r.peer == peer && r.tag == tag && r.answer.isNone) f s.remotes
    exec (.patrolScrub x .clean) s = .next moved ∧
    exec (.patrolScrub x .corrected) s = .next (moved.logErr fun e =>
      { e with cecc := e.cecc + 1, scrubfix := e.scrubfix + 1 }) ∧
    exec (.patrolScrub x .uncorrectable) s = .next ((moved.setPoison line true).logErr fun e =>
      { e with uecc := e.uecc + 1 }) ∧
    exec .flitRetransmit s = .next (s.logErr fun e => { e with netrtx := e.netrtx + 1 }) ∧
    exec (.linkFrame peer .keepAlive) s = .next seen ∧
    (∃ u, exec (.linkFrame peer .crcError) s = .next u ∧ u.dev.err.netrtx = d.err.netrtx + 1 ∧
      u.dev.lreplay = d.lreplay + 1 ∧ u.links = s.links ++ [.replay] ∧ u.mem = s.mem) ∧
    (∀ bs md, ∃ u, exec (.linkFrame peer (.answer tag bs md)) s = .next u ∧ u.mem = s.mem ∧
      u.remotes = told fun r => { r with answer := some bs, md := md }) ∧
    (∀ gen bs md, ∃ u, exec (.linkFrame peer (.fdata tag gen bs md)) s = .next u ∧ u.mem = s.mem ∧
      u.remotes = told fun r => { r with answer := some ((bs.drop (r.pa % 128)).take r.size), md := md }) ∧
    (∀ k g, ∃ u, exec (.linkFrame peer (.refusal tag k g)) s = .next u ∧ u.mem = s.mem ∧
      u.remotes = told fun r => if g.isSome then { r with stale := g } else { r with cause := some k }) ∧
    (∀ q op dd, exec (.linkFrame peer (.coll (.issue q op dd))) s = .next { seen with
      farRanks := s.farRanks ++ [{ mod := peer, quay := q, op := op, desc := dd }] }) ∧
    (∀ dst bs, s.reachable dst = true →
      exec (.linkFrame peer (.transit dst bs)) s = .next (seen.sendLinks 0 [.transit peer dst bs])) ∧
    (∀ page, ∃ u, exec (.linkFrame peer (.swack page)) s = .next u ∧
      ∀ w ∈ u.sweeps, w.page = page → ∀ p ∈ w.peers, p.1 ≠ peer) ∧
    exec .keepalive s = .next { s with links := s.links ++ s.peers.map LinkOut.keepAlive } ∧
    (s.peers.contains peer = true → kvGet peer 0 s.domain.lastFrame + 50 * usCycles ≤ s.clock →
      ∃ u, exec (.peerLost peer) s = .next u ∧ (∀ r ∈ u.domain.routes, r.1 = peer → r.2.getLsbD 63 = false) ∧
        (∀ r ∈ u.replicas, bitsOf (r.line * 128) 44 8 ≠ peer) ∧
        (∀ r ∈ u.remotes, r.peer = peer → r.answer.isSome = true ∨ r.cause = some cNoMem)) ∧
    (∀ page, s.reachable peer = false → (∀ w ∈ s.sweeps, ∀ p ∈ w.peers, p.2 + 100 * usCycles ≤ s.clock) →
      ∃ u, exec (.swackTimeout page peer) s = .next u ∧ ∀ w ∈ u.sweeps, w.page = page → ∀ p ∈ w.peers, p.1 ≠ peer)

/-! ### Reset and boot -/

/-- After reset only context 0 is live; no cache, replica, directory entry, translation or block is held; every page
generation and freeze entry is 0; partition 0 holds every quay and slice; the domain is off; context 0 does not run
and no thread is resident, nor after a boot that a step stops (R454); the memories stand in their one form. -/
def Obligations.ResetStateIsTheManuals : Prop :=
  (∀ c, State.reset.ctxLive c = decide (c = 0)) ∧ (State.reset.ctx 0).run = false ∧ State.reset.dir = [] ∧
    State.reset.copies = [] ∧ State.reset.replicas = [] ∧ State.reset.tlb = [] ∧
    State.reset.entries = [] ∧ State.reset.planes = [] ∧
    (∀ p, State.reset.genOf p = 0) ∧ (∀ p, (State.reset.frzOf p).count = 0) ∧ (∀ q, State.reset.partOfQuay q = 0) ∧
    (∀ i, State.reset.partOfSlice i = 0) ∧ State.reset.domain.en = false ∧ State.reset.threads = [] ∧
    (∀ k, 1 ≤ k → k ≤ 7 → ∃ u, exec (.powerOnReset k) State.reset = .next u ∧ (u.ctx 0).run = false ∧ u.threads = []) ∧
    Canonical State.reset

/-- The power-on reset: with no failing step the boot runs through its seven steps, context 0 runs, memory holds the tables by
which context 0 reads the capability list (log entry 61: the model's choice of their place) and nothing else, FIRST of
context 0 is the list's address, and the page of the list is frozen; a step from 1 to 7 that fails stops it there, with context
0 not running (R26, R454 to R457). -/
def Obligations.PowerOnResetBoots : Prop :=
  ∀ (k : Nat) (s : State),
    (∃ u, exec (.powerOnReset 0) s = .next u ∧ u.dev.bootStep = 7 ∧ u.dev.failStep = 0 ∧ (u.ctx 0).run = true ∧
      (∀ e ∈ bootTables, u.gbytes e.1 8 = leBytes 8 e.2) ∧
      (∀ a, (∀ e ∈ bootTables, a < e.1 ∨ e.1 + 8 ≤ a) → Mem.read u.mem a = 0) ∧
      (u.ctx 0).caps = BitVec.ofNat 64 (2 ^ 56 + capsVirtual) ∧
      u.vmem = [] ∧ u.threads = [] ∧ u.dev.capsAt = some capsBase ∧
      (u.frzOf (capsBase / 65536)).st = .frozen ∧ u.agenda = s.agenda ∧ u.dev.fuses = s.dev.fuses) ∧
    (1 ≤ k → k ≤ 7 → ∃ u, exec (.powerOnReset k) s = .next u ∧ u.dev.bootStep = k - 1 ∧ u.dev.failStep = k ∧
      (u.ctx 0).run = false ∧ u.mem = [] ∧ u.threads = [])

/-! ### Memory -/

/-- Memory: in its one form, a byte written reads back, every other byte reads as before, the form is kept, and
memories that read alike everywhere are the same data. -/
def Obligations.MemoryReadsWhatWasWritten : Prop :=
  ∀ (m : Mem) (p q : Nat) (v : Byte), Mem.wf m = true →
    Mem.read (Mem.write m p v) p = v ∧ (q ≠ p → Mem.read (Mem.write m p v) q = Mem.read m q) ∧
      Mem.wf (Mem.write m p v) = true ∧
      (∀ m' : Mem, Mem.wf m' = true → (∀ x, Mem.read m' x = Mem.read m x) → m' = m)

/-- Every step of the module keeps both memories in their one form, from every state that has them so. -/
def Obligations.MemoryStaysCanonical : Prop :=
  ∀ s t : State, Canonical s → step s = .next t → Canonical t
end

