-- ==== Sys2Proof/Laws/Fire.lean ====
section
/-! SUPPORT. What the firing rule can do, case by case, for citation in place of its definition. -/

namespace Sys2Proof.Machine

open Sys2Proof.Safety

/-- An instruction that fires performs its effect, charged. -/
theorem State.fire_of_fires (s : State) (i : Instr) (w : Fields) (v : PortVals) (act : PortVals → State → State)
    (h : Fires i w v s) : s.fire i w act = act v (s.chargeFiring i) := by
  obtain ⟨h1, h2⟩ := h
  unfold firingOf at h1
  unfold State.fire
  cases hf : Instr.form i with
  | none => rw [hf] at h1; simp at h1
  | some f =>
    rw [hf] at h1
    simp only [Option.map_some, Option.some.injEq] at h1
    simp only [h1, h2]

/-- An instruction that waits for a port is passed over. -/
theorem State.fire_wait (s : State) (i : Instr) (w : Fields) (act : PortVals → State → State)
    (h : firingOf i w s = some .wait) : s.fire i w act = s.stall := by
  unfold firingOf at h
  unfold State.fire
  cases hf : Instr.form i with
  | none => rw [hf] at h; simp at h
  | some f =>
    rw [hf] at h
    simp only [Option.map_some, Option.some.injEq] at h
    simp only [h]

/-- A false guard emits null. -/
theorem State.fire_guardFalse (s : State) (i : Instr) (w : Fields) (act : PortVals → State → State)
    (h : firingOf i w s = some .guardFalse) : s.fire i w act = s.emitNull i w := by
  unfold firingOf at h
  unfold State.fire
  cases hf : Instr.form i with
  | none => rw [hf] at h; simp at h
  | some f =>
    rw [hf] at h
    simp only [Option.map_some, Option.some.injEq] at h
    simp only [h]

/-- Ports all null emit null. -/
theorem State.fire_allNull (s : State) (i : Instr) (w : Fields) (act : PortVals → State → State)
    (h : firingOf i w s = some .allNull) : s.fire i w act = s.emitNull i w := by
  unfold firingOf at h
  unfold State.fire
  cases hf : Instr.form i with
  | none => rw [hf] at h; simp at h
  | some f =>
    rw [hf] at h
    simp only [Option.map_some, Option.some.injEq] at h
    simp only [h]

/-- A not-ready token is passed on. -/
theorem State.fire_notReady (s : State) (i : Instr) (w : Fields) (act : PortVals → State → State)
    (h : firingOf i w s = some .notReady) : s.fire i w act = s.emitNotReady i w := by
  unfold firingOf at h
  unfold State.fire
  cases hf : Instr.form i with
  | none => rw [hf] at h; simp at h
  | some f =>
    rw [hf] at h
    simp only [Option.map_some, Option.some.injEq] at h
    simp only [h]

/-- Ports partly null record a dataflow conflict. -/
theorem State.fire_conflict (s : State) (i : Instr) (w : Fields) (act : PortVals → State → State) (hs : s.substitution = none)
    (h : firingOf i w s = some .conflict) : s.fire i w act = (s.chargeFiring i).trapHere i w 0x02 0 := by
  unfold firingOf at h
  unfold State.fire
  cases hf : Instr.form i with
  | none => rw [hf] at h; simp at h
  | some f =>
    rw [hf] at h
    simp only [Option.map_some, Option.some.injEq] at h
    simp only [h, hs]

/-- A form that computes a value gives that value when it fires. -/
theorem State.fireValue_of_fires (s : State) (i : Instr) (w : Fields) (v : PortVals) (f : PortVals → Word)
    (h : Fires i w v s) : s.fireValue i w f = (s.chargeFiring i).emitVal i w (f v) := by
  unfold State.fireValue
  rw [s.fire_of_fires i w v _ h]

/-- Charging a firing leaves the pass and all but the meters. -/
theorem State.chargeFiring_only (s : State) (i : Instr) : s.chargeFiring i = { s with meters := (s.chargeFiring i).meters } :=
  rfl

/-- Emitting changes the current pass alone. -/
theorem State.emit_only (s : State) (i : Instr) (w : Fields) (t : Tok) : s.emit i w t = { s with pass := (s.emit i w t).pass } :=
  rfl

end Sys2Proof.Machine
end

