-- ==== Sys2Proof/Laws/State.lean ====
section
/-! SUPPORT. What each shared update of the state leaves as it was, field by field: true by definition, for `simp`. -/

namespace Sys2Proof.Machine

/-! ### `setThread` changes the thread slots alone -/

@[simp] theorem State.setThread_agenda (s : State) (t : Thread) : (s.setThread t).agenda = s.agenda := rfl
@[simp] theorem State.setThread_freeCtr (s : State) (t : Thread) : (s.setThread t).freeCtr = s.freeCtr := rfl
@[simp] theorem State.setThread_turn (s : State) (t : Thread) : (s.setThread t).turn = s.turn := rfl
@[simp] theorem State.setThread_clock (s : State) (t : Thread) : (s.setThread t).clock = s.clock := rfl
@[simp] theorem State.setThread_nextId (s : State) (t : Thread) : (s.setThread t).nextId = s.nextId := rfl
@[simp] theorem State.setThread_dev (s : State) (t : Thread) : (s.setThread t).dev = s.dev := rfl
@[simp] theorem State.setThread_pass (s : State) (t : Thread) : (s.setThread t).pass = s.pass := rfl
@[simp] theorem State.setThread_parked (s : State) (t : Thread) : (s.setThread t).parked = s.parked := rfl
@[simp] theorem State.setThread_entries (s : State) (t : Thread) : (s.setThread t).entries = s.entries := rfl
@[simp] theorem State.setThread_planes (s : State) (t : Thread) : (s.setThread t).planes = s.planes := rfl
@[simp] theorem State.setThread_groups (s : State) (t : Thread) : (s.setThread t).groups = s.groups := rfl
@[simp] theorem State.setThread_greds (s : State) (t : Thread) : (s.setThread t).greds = s.greds := rfl
@[simp] theorem State.setThread_waits (s : State) (t : Thread) : (s.setThread t).waits = s.waits := rfl
@[simp] theorem State.setThread_bollards (s : State) (t : Thread) : (s.setThread t).bollards = s.bollards := rfl
@[simp] theorem State.setThread_weighed (s : State) (t : Thread) : (s.setThread t).weighed = s.weighed := rfl
@[simp] theorem State.setThread_ops (s : State) (t : Thread) : (s.setThread t).ops = s.ops := rfl
@[simp] theorem State.setThread_scores (s : State) (t : Thread) : (s.setThread t).scores = s.scores := rfl
@[simp] theorem State.setThread_regions (s : State) (t : Thread) : (s.setThread t).regions = s.regions := rfl
@[simp] theorem State.setThread_latch (s : State) (t : Thread) : (s.setThread t).latch = s.latch := rfl
@[simp] theorem State.setThread_nodes (s : State) (t : Thread) : (s.setThread t).nodes = s.nodes := rfl
@[simp] theorem State.setThread_units (s : State) (t : Thread) : (s.setThread t).units = s.units := rfl
@[simp] theorem State.setThread_mem (s : State) (t : Thread) : (s.setThread t).mem = s.mem := rfl
@[simp] theorem State.setThread_poisoned (s : State) (t : Thread) : (s.setThread t).poisoned = s.poisoned := rfl
@[simp] theorem State.setThread_vmem (s : State) (t : Thread) : (s.setThread t).vmem = s.vmem := rfl
@[simp] theorem State.setThread_vlines (s : State) (t : Thread) : (s.setThread t).vlines = s.vlines := rfl
@[simp] theorem State.setThread_presence (s : State) (t : Thread) : (s.setThread t).presence = s.presence := rfl
@[simp] theorem State.setThread_vwritten (s : State) (t : Thread) : (s.setThread t).vwritten = s.vwritten := rfl
@[simp] theorem State.setThread_fills (s : State) (t : Thread) : (s.setThread t).fills = s.fills := rfl
@[simp] theorem State.setThread_framePrio (s : State) (t : Thread) : (s.setThread t).framePrio = s.framePrio := rfl
@[simp] theorem State.setThread_holdWaits (s : State) (t : Thread) : (s.setThread t).holdWaits = s.holdWaits := rfl
@[simp] theorem State.setThread_dir (s : State) (t : Thread) : (s.setThread t).dir = s.dir := rfl
@[simp] theorem State.setThread_copies (s : State) (t : Thread) : (s.setThread t).copies = s.copies := rfl
@[simp] theorem State.setThread_reqs (s : State) (t : Thread) : (s.setThread t).reqs = s.reqs := rfl
@[simp] theorem State.setThread_answers (s : State) (t : Thread) : (s.setThread t).answers = s.answers := rfl
@[simp] theorem State.setThread_replicas (s : State) (t : Thread) : (s.setThread t).replicas = s.replicas := rfl
@[simp] theorem State.setThread_net (s : State) (t : Thread) : (s.setThread t).net = s.net := rfl
@[simp] theorem State.setThread_homeWait (s : State) (t : Thread) : (s.setThread t).homeWait = s.homeWait := rfl
@[simp] theorem State.setThread_collecting (s : State) (t : Thread) : (s.setThread t).collecting = s.collecting := rfl
@[simp] theorem State.setThread_recalls (s : State) (t : Thread) : (s.setThread t).recalls = s.recalls := rfl
@[simp] theorem State.setThread_pers (s : State) (t : Thread) : (s.setThread t).pers = s.pers := rfl
@[simp] theorem State.setThread_frz (s : State) (t : Thread) : (s.setThread t).frz = s.frz := rfl
@[simp] theorem State.setThread_gens (s : State) (t : Thread) : (s.setThread t).gens = s.gens := rfl
@[simp] theorem State.setThread_genWait (s : State) (t : Thread) : (s.setThread t).genWait = s.genWait := rfl
@[simp] theorem State.setThread_sweeps (s : State) (t : Thread) : (s.setThread t).sweeps = s.sweeps := rfl
@[simp] theorem State.setThread_pageOrder (s : State) (t : Thread) : (s.setThread t).pageOrder = s.pageOrder := rfl
@[simp] theorem State.setThread_paying (s : State) (t : Thread) : (s.setThread t).paying = s.paying := rfl
@[simp] theorem State.setThread_farPages (s : State) (t : Thread) : (s.setThread t).farPages = s.farPages := rfl
@[simp] theorem State.setThread_dooms (s : State) (t : Thread) : (s.setThread t).dooms = s.dooms := rfl
@[simp] theorem State.setThread_fmt (s : State) (t : Thread) : (s.setThread t).fmt = s.fmt := rfl
@[simp] theorem State.setThread_sliceOwner (s : State) (t : Thread) : (s.setThread t).sliceOwner = s.sliceOwner := rfl
@[simp] theorem State.setThread_quayPart (s : State) (t : Thread) : (s.setThread t).quayPart = s.quayPart := rfl
@[simp] theorem State.setThread_absent (s : State) (t : Thread) : (s.setThread t).absent = s.absent := rfl
@[simp] theorem State.setThread_partOwner (s : State) (t : Thread) : (s.setThread t).partOwner = s.partOwner := rfl
@[simp] theorem State.setThread_partNet (s : State) (t : Thread) : (s.setThread t).partNet = s.partNet := rfl
@[simp] theorem State.setThread_netpol (s : State) (t : Thread) : (s.setThread t).netpol = s.netpol := rfl
@[simp] theorem State.setThread_tlb (s : State) (t : Thread) : (s.setThread t).tlb = s.tlb := rfl
@[simp] theorem State.setThread_walks (s : State) (t : Thread) : (s.setThread t).walks = s.walks := rfl
@[simp] theorem State.setThread_pgreqs (s : State) (t : Thread) : (s.setThread t).pgreqs = s.pgreqs := rfl
@[simp] theorem State.setThread_ctxs (s : State) (t : Thread) : (s.setThread t).ctxs = s.ctxs := rfl
@[simp] theorem State.setThread_quayCtx (s : State) (t : Thread) : (s.setThread t).quayCtx = s.quayCtx := rfl
@[simp] theorem State.setThread_ctxq (s : State) (t : Thread) : (s.setThread t).ctxq = s.ctxq := rfl
@[simp] theorem State.setThread_handovers (s : State) (t : Thread) : (s.setThread t).handovers = s.handovers := rfl
@[simp] theorem State.setThread_preempts (s : State) (t : Thread) : (s.setThread t).preempts = s.preempts := rfl
@[simp] theorem State.setThread_saves (s : State) (t : Thread) : (s.setThread t).saves = s.saves := rfl
@[simp] theorem State.setThread_areaDue (s : State) (t : Thread) : (s.setThread t).areaDue = s.areaDue := rfl
@[simp] theorem State.setThread_sections (s : State) (t : Thread) : (s.setThread t).sections = s.sections := rfl
@[simp] theorem State.setThread_quota (s : State) (t : Thread) : (s.setThread t).quota = s.quota := rfl
@[simp] theorem State.setThread_meters (s : State) (t : Thread) : (s.setThread t).meters = s.meters := rfl
@[simp] theorem State.setThread_launches (s : State) (t : Thread) : (s.setThread t).launches = s.launches := rfl
@[simp] theorem State.setThread_ready (s : State) (t : Thread) : (s.setThread t).ready = s.ready := rfl
@[simp] theorem State.setThread_lastQueue (s : State) (t : Thread) : (s.setThread t).lastQueue = s.lastQueue := rfl
@[simp] theorem State.setThread_inbox (s : State) (t : Thread) : (s.setThread t).inbox = s.inbox := rfl
@[simp] theorem State.setThread_outbox (s : State) (t : Thread) : (s.setThread t).outbox = s.outbox := rfl
@[simp] theorem State.setThread_links (s : State) (t : Thread) : (s.setThread t).links = s.links := rfl
@[simp] theorem State.setThread_remotes (s : State) (t : Thread) : (s.setThread t).remotes = s.remotes := rfl
@[simp] theorem State.setThread_remoteHolds (s : State) (t : Thread) : (s.setThread t).remoteHolds = s.remoteHolds := rfl
@[simp] theorem State.setThread_farRanks (s : State) (t : Thread) : (s.setThread t).farRanks = s.farRanks := rfl
@[simp] theorem State.setThread_collIn (s : State) (t : Thread) : (s.setThread t).collIn = s.collIn := rfl
@[simp] theorem State.setThread_domain (s : State) (t : Thread) : (s.setThread t).domain = s.domain := rfl
@[simp] theorem State.setThread_upsets (s : State) (t : Thread) : (s.setThread t).upsets = s.upsets := rfl

/-! ### `setCtx` changes the contexts alone -/

@[simp] theorem State.setCtx_agenda (s : State) (c : Ctx) : (s.setCtx c).agenda = s.agenda := rfl
@[simp] theorem State.setCtx_freeCtr (s : State) (c : Ctx) : (s.setCtx c).freeCtr = s.freeCtr := rfl
@[simp] theorem State.setCtx_turn (s : State) (c : Ctx) : (s.setCtx c).turn = s.turn := rfl
@[simp] theorem State.setCtx_clock (s : State) (c : Ctx) : (s.setCtx c).clock = s.clock := rfl
@[simp] theorem State.setCtx_nextId (s : State) (c : Ctx) : (s.setCtx c).nextId = s.nextId := rfl
@[simp] theorem State.setCtx_dev (s : State) (c : Ctx) : (s.setCtx c).dev = s.dev := rfl
@[simp] theorem State.setCtx_pass (s : State) (c : Ctx) : (s.setCtx c).pass = s.pass := rfl
@[simp] theorem State.setCtx_parked (s : State) (c : Ctx) : (s.setCtx c).parked = s.parked := rfl
@[simp] theorem State.setCtx_threads (s : State) (c : Ctx) : (s.setCtx c).threads = s.threads := rfl
@[simp] theorem State.setCtx_entries (s : State) (c : Ctx) : (s.setCtx c).entries = s.entries := rfl
@[simp] theorem State.setCtx_planes (s : State) (c : Ctx) : (s.setCtx c).planes = s.planes := rfl
@[simp] theorem State.setCtx_groups (s : State) (c : Ctx) : (s.setCtx c).groups = s.groups := rfl
@[simp] theorem State.setCtx_greds (s : State) (c : Ctx) : (s.setCtx c).greds = s.greds := rfl
@[simp] theorem State.setCtx_waits (s : State) (c : Ctx) : (s.setCtx c).waits = s.waits := rfl
@[simp] theorem State.setCtx_bollards (s : State) (c : Ctx) : (s.setCtx c).bollards = s.bollards := rfl
@[simp] theorem State.setCtx_weighed (s : State) (c : Ctx) : (s.setCtx c).weighed = s.weighed := rfl
@[simp] theorem State.setCtx_ops (s : State) (c : Ctx) : (s.setCtx c).ops = s.ops := rfl
@[simp] theorem State.setCtx_scores (s : State) (c : Ctx) : (s.setCtx c).scores = s.scores := rfl
@[simp] theorem State.setCtx_regions (s : State) (c : Ctx) : (s.setCtx c).regions = s.regions := rfl
@[simp] theorem State.setCtx_latch (s : State) (c : Ctx) : (s.setCtx c).latch = s.latch := rfl
@[simp] theorem State.setCtx_nodes (s : State) (c : Ctx) : (s.setCtx c).nodes = s.nodes := rfl
@[simp] theorem State.setCtx_units (s : State) (c : Ctx) : (s.setCtx c).units = s.units := rfl
@[simp] theorem State.setCtx_mem (s : State) (c : Ctx) : (s.setCtx c).mem = s.mem := rfl
@[simp] theorem State.setCtx_poisoned (s : State) (c : Ctx) : (s.setCtx c).poisoned = s.poisoned := rfl
@[simp] theorem State.setCtx_vmem (s : State) (c : Ctx) : (s.setCtx c).vmem = s.vmem := rfl
@[simp] theorem State.setCtx_vlines (s : State) (c : Ctx) : (s.setCtx c).vlines = s.vlines := rfl
@[simp] theorem State.setCtx_presence (s : State) (c : Ctx) : (s.setCtx c).presence = s.presence := rfl
@[simp] theorem State.setCtx_vwritten (s : State) (c : Ctx) : (s.setCtx c).vwritten = s.vwritten := rfl
@[simp] theorem State.setCtx_fills (s : State) (c : Ctx) : (s.setCtx c).fills = s.fills := rfl
@[simp] theorem State.setCtx_framePrio (s : State) (c : Ctx) : (s.setCtx c).framePrio = s.framePrio := rfl
@[simp] theorem State.setCtx_holdWaits (s : State) (c : Ctx) : (s.setCtx c).holdWaits = s.holdWaits := rfl
@[simp] theorem State.setCtx_dir (s : State) (c : Ctx) : (s.setCtx c).dir = s.dir := rfl
@[simp] theorem State.setCtx_copies (s : State) (c : Ctx) : (s.setCtx c).copies = s.copies := rfl
@[simp] theorem State.setCtx_reqs (s : State) (c : Ctx) : (s.setCtx c).reqs = s.reqs := rfl
@[simp] theorem State.setCtx_answers (s : State) (c : Ctx) : (s.setCtx c).answers = s.answers := rfl
@[simp] theorem State.setCtx_replicas (s : State) (c : Ctx) : (s.setCtx c).replicas = s.replicas := rfl
@[simp] theorem State.setCtx_net (s : State) (c : Ctx) : (s.setCtx c).net = s.net := rfl
@[simp] theorem State.setCtx_homeWait (s : State) (c : Ctx) : (s.setCtx c).homeWait = s.homeWait := rfl
@[simp] theorem State.setCtx_collecting (s : State) (c : Ctx) : (s.setCtx c).collecting = s.collecting := rfl
@[simp] theorem State.setCtx_recalls (s : State) (c : Ctx) : (s.setCtx c).recalls = s.recalls := rfl
@[simp] theorem State.setCtx_pers (s : State) (c : Ctx) : (s.setCtx c).pers = s.pers := rfl
@[simp] theorem State.setCtx_frz (s : State) (c : Ctx) : (s.setCtx c).frz = s.frz := rfl
@[simp] theorem State.setCtx_gens (s : State) (c : Ctx) : (s.setCtx c).gens = s.gens := rfl
@[simp] theorem State.setCtx_genWait (s : State) (c : Ctx) : (s.setCtx c).genWait = s.genWait := rfl
@[simp] theorem State.setCtx_sweeps (s : State) (c : Ctx) : (s.setCtx c).sweeps = s.sweeps := rfl
@[simp] theorem State.setCtx_pageOrder (s : State) (c : Ctx) : (s.setCtx c).pageOrder = s.pageOrder := rfl
@[simp] theorem State.setCtx_paying (s : State) (c : Ctx) : (s.setCtx c).paying = s.paying := rfl
@[simp] theorem State.setCtx_farPages (s : State) (c : Ctx) : (s.setCtx c).farPages = s.farPages := rfl
@[simp] theorem State.setCtx_dooms (s : State) (c : Ctx) : (s.setCtx c).dooms = s.dooms := rfl
@[simp] theorem State.setCtx_fmt (s : State) (c : Ctx) : (s.setCtx c).fmt = s.fmt := rfl
@[simp] theorem State.setCtx_sliceOwner (s : State) (c : Ctx) : (s.setCtx c).sliceOwner = s.sliceOwner := rfl
@[simp] theorem State.setCtx_quayPart (s : State) (c : Ctx) : (s.setCtx c).quayPart = s.quayPart := rfl
@[simp] theorem State.setCtx_absent (s : State) (c : Ctx) : (s.setCtx c).absent = s.absent := rfl
@[simp] theorem State.setCtx_partOwner (s : State) (c : Ctx) : (s.setCtx c).partOwner = s.partOwner := rfl
@[simp] theorem State.setCtx_partNet (s : State) (c : Ctx) : (s.setCtx c).partNet = s.partNet := rfl
@[simp] theorem State.setCtx_netpol (s : State) (c : Ctx) : (s.setCtx c).netpol = s.netpol := rfl
@[simp] theorem State.setCtx_tlb (s : State) (c : Ctx) : (s.setCtx c).tlb = s.tlb := rfl
@[simp] theorem State.setCtx_walks (s : State) (c : Ctx) : (s.setCtx c).walks = s.walks := rfl
@[simp] theorem State.setCtx_pgreqs (s : State) (c : Ctx) : (s.setCtx c).pgreqs = s.pgreqs := rfl
@[simp] theorem State.setCtx_quayCtx (s : State) (c : Ctx) : (s.setCtx c).quayCtx = s.quayCtx := rfl
@[simp] theorem State.setCtx_ctxq (s : State) (c : Ctx) : (s.setCtx c).ctxq = s.ctxq := rfl
@[simp] theorem State.setCtx_handovers (s : State) (c : Ctx) : (s.setCtx c).handovers = s.handovers := rfl
@[simp] theorem State.setCtx_preempts (s : State) (c : Ctx) : (s.setCtx c).preempts = s.preempts := rfl
@[simp] theorem State.setCtx_saves (s : State) (c : Ctx) : (s.setCtx c).saves = s.saves := rfl
@[simp] theorem State.setCtx_areaDue (s : State) (c : Ctx) : (s.setCtx c).areaDue = s.areaDue := rfl
@[simp] theorem State.setCtx_sections (s : State) (c : Ctx) : (s.setCtx c).sections = s.sections := rfl
@[simp] theorem State.setCtx_quota (s : State) (c : Ctx) : (s.setCtx c).quota = s.quota := rfl
@[simp] theorem State.setCtx_meters (s : State) (c : Ctx) : (s.setCtx c).meters = s.meters := rfl
@[simp] theorem State.setCtx_launches (s : State) (c : Ctx) : (s.setCtx c).launches = s.launches := rfl
@[simp] theorem State.setCtx_ready (s : State) (c : Ctx) : (s.setCtx c).ready = s.ready := rfl
@[simp] theorem State.setCtx_lastQueue (s : State) (c : Ctx) : (s.setCtx c).lastQueue = s.lastQueue := rfl
@[simp] theorem State.setCtx_inbox (s : State) (c : Ctx) : (s.setCtx c).inbox = s.inbox := rfl
@[simp] theorem State.setCtx_outbox (s : State) (c : Ctx) : (s.setCtx c).outbox = s.outbox := rfl
@[simp] theorem State.setCtx_links (s : State) (c : Ctx) : (s.setCtx c).links = s.links := rfl
@[simp] theorem State.setCtx_remotes (s : State) (c : Ctx) : (s.setCtx c).remotes = s.remotes := rfl
@[simp] theorem State.setCtx_remoteHolds (s : State) (c : Ctx) : (s.setCtx c).remoteHolds = s.remoteHolds := rfl
@[simp] theorem State.setCtx_farRanks (s : State) (c : Ctx) : (s.setCtx c).farRanks = s.farRanks := rfl
@[simp] theorem State.setCtx_collIn (s : State) (c : Ctx) : (s.setCtx c).collIn = s.collIn := rfl
@[simp] theorem State.setCtx_domain (s : State) (c : Ctx) : (s.setCtx c).domain = s.domain := rfl
@[simp] theorem State.setCtx_upsets (s : State) (c : Ctx) : (s.setCtx c).upsets = s.upsets := rfl

/-! ### `modGroup` changes the resident groups alone -/

@[simp] theorem State.modGroup_agenda (s : State) (g : Nat) (f : Group → Group) : (s.modGroup g f).agenda = s.agenda := rfl
@[simp] theorem State.modGroup_freeCtr (s : State) (g : Nat) (f : Group → Group) : (s.modGroup g f).freeCtr = s.freeCtr := rfl
@[simp] theorem State.modGroup_turn (s : State) (g : Nat) (f : Group → Group) : (s.modGroup g f).turn = s.turn := rfl
@[simp] theorem State.modGroup_clock (s : State) (g : Nat) (f : Group → Group) : (s.modGroup g f).clock = s.clock := rfl
@[simp] theorem State.modGroup_nextId (s : State) (g : Nat) (f : Group → Group) : (s.modGroup g f).nextId = s.nextId := rfl
@[simp] theorem State.modGroup_dev (s : State) (g : Nat) (f : Group → Group) : (s.modGroup g f).dev = s.dev := rfl
@[simp] theorem State.modGroup_pass (s : State) (g : Nat) (f : Group → Group) : (s.modGroup g f).pass = s.pass := rfl
@[simp] theorem State.modGroup_parked (s : State) (g : Nat) (f : Group → Group) : (s.modGroup g f).parked = s.parked := rfl
@[simp] theorem State.modGroup_threads (s : State) (g : Nat) (f : Group → Group) : (s.modGroup g f).threads = s.threads := rfl
@[simp] theorem State.modGroup_entries (s : State) (g : Nat) (f : Group → Group) : (s.modGroup g f).entries = s.entries := rfl
@[simp] theorem State.modGroup_planes (s : State) (g : Nat) (f : Group → Group) : (s.modGroup g f).planes = s.planes := rfl
@[simp] theorem State.modGroup_greds (s : State) (g : Nat) (f : Group → Group) : (s.modGroup g f).greds = s.greds := rfl
@[simp] theorem State.modGroup_waits (s : State) (g : Nat) (f : Group → Group) : (s.modGroup g f).waits = s.waits := rfl
@[simp] theorem State.modGroup_bollards (s : State) (g : Nat) (f : Group → Group) : (s.modGroup g f).bollards = s.bollards := rfl
@[simp] theorem State.modGroup_weighed (s : State) (g : Nat) (f : Group → Group) : (s.modGroup g f).weighed = s.weighed := rfl
@[simp] theorem State.modGroup_ops (s : State) (g : Nat) (f : Group → Group) : (s.modGroup g f).ops = s.ops := rfl
@[simp] theorem State.modGroup_scores (s : State) (g : Nat) (f : Group → Group) : (s.modGroup g f).scores = s.scores := rfl
@[simp] theorem State.modGroup_regions (s : State) (g : Nat) (f : Group → Group) : (s.modGroup g f).regions = s.regions := rfl
@[simp] theorem State.modGroup_latch (s : State) (g : Nat) (f : Group → Group) : (s.modGroup g f).latch = s.latch := rfl
@[simp] theorem State.modGroup_nodes (s : State) (g : Nat) (f : Group → Group) : (s.modGroup g f).nodes = s.nodes := rfl
@[simp] theorem State.modGroup_units (s : State) (g : Nat) (f : Group → Group) : (s.modGroup g f).units = s.units := rfl
@[simp] theorem State.modGroup_mem (s : State) (g : Nat) (f : Group → Group) : (s.modGroup g f).mem = s.mem := rfl
@[simp] theorem State.modGroup_poisoned (s : State) (g : Nat) (f : Group → Group) : (s.modGroup g f).poisoned = s.poisoned := rfl
@[simp] theorem State.modGroup_vmem (s : State) (g : Nat) (f : Group → Group) : (s.modGroup g f).vmem = s.vmem := rfl
@[simp] theorem State.modGroup_vlines (s : State) (g : Nat) (f : Group → Group) : (s.modGroup g f).vlines = s.vlines := rfl
@[simp] theorem State.modGroup_presence (s : State) (g : Nat) (f : Group → Group) : (s.modGroup g f).presence = s.presence := rfl
@[simp] theorem State.modGroup_vwritten (s : State) (g : Nat) (f : Group → Group) : (s.modGroup g f).vwritten = s.vwritten := rfl
@[simp] theorem State.modGroup_fills (s : State) (g : Nat) (f : Group → Group) : (s.modGroup g f).fills = s.fills := rfl
@[simp] theorem State.modGroup_framePrio (s : State) (g : Nat) (f : Group → Group) : (s.modGroup g f).framePrio = s.framePrio := rfl
@[simp] theorem State.modGroup_holdWaits (s : State) (g : Nat) (f : Group → Group) : (s.modGroup g f).holdWaits = s.holdWaits := rfl
@[simp] theorem State.modGroup_dir (s : State) (g : Nat) (f : Group → Group) : (s.modGroup g f).dir = s.dir := rfl
@[simp] theorem State.modGroup_copies (s : State) (g : Nat) (f : Group → Group) : (s.modGroup g f).copies = s.copies := rfl
@[simp] theorem State.modGroup_reqs (s : State) (g : Nat) (f : Group → Group) : (s.modGroup g f).reqs = s.reqs := rfl
@[simp] theorem State.modGroup_answers (s : State) (g : Nat) (f : Group → Group) : (s.modGroup g f).answers = s.answers := rfl
@[simp] theorem State.modGroup_replicas (s : State) (g : Nat) (f : Group → Group) : (s.modGroup g f).replicas = s.replicas := rfl
@[simp] theorem State.modGroup_net (s : State) (g : Nat) (f : Group → Group) : (s.modGroup g f).net = s.net := rfl
@[simp] theorem State.modGroup_homeWait (s : State) (g : Nat) (f : Group → Group) : (s.modGroup g f).homeWait = s.homeWait := rfl
@[simp] theorem State.modGroup_collecting (s : State) (g : Nat) (f : Group → Group) : (s.modGroup g f).collecting = s.collecting := rfl
@[simp] theorem State.modGroup_recalls (s : State) (g : Nat) (f : Group → Group) : (s.modGroup g f).recalls = s.recalls := rfl
@[simp] theorem State.modGroup_pers (s : State) (g : Nat) (f : Group → Group) : (s.modGroup g f).pers = s.pers := rfl
@[simp] theorem State.modGroup_frz (s : State) (g : Nat) (f : Group → Group) : (s.modGroup g f).frz = s.frz := rfl
@[simp] theorem State.modGroup_gens (s : State) (g : Nat) (f : Group → Group) : (s.modGroup g f).gens = s.gens := rfl
@[simp] theorem State.modGroup_genWait (s : State) (g : Nat) (f : Group → Group) : (s.modGroup g f).genWait = s.genWait := rfl
@[simp] theorem State.modGroup_sweeps (s : State) (g : Nat) (f : Group → Group) : (s.modGroup g f).sweeps = s.sweeps := rfl
@[simp] theorem State.modGroup_pageOrder (s : State) (g : Nat) (f : Group → Group) : (s.modGroup g f).pageOrder = s.pageOrder := rfl
@[simp] theorem State.modGroup_paying (s : State) (g : Nat) (f : Group → Group) : (s.modGroup g f).paying = s.paying := rfl
@[simp] theorem State.modGroup_farPages (s : State) (g : Nat) (f : Group → Group) : (s.modGroup g f).farPages = s.farPages := rfl
@[simp] theorem State.modGroup_dooms (s : State) (g : Nat) (f : Group → Group) : (s.modGroup g f).dooms = s.dooms := rfl
@[simp] theorem State.modGroup_fmt (s : State) (g : Nat) (f : Group → Group) : (s.modGroup g f).fmt = s.fmt := rfl
@[simp] theorem State.modGroup_sliceOwner (s : State) (g : Nat) (f : Group → Group) : (s.modGroup g f).sliceOwner = s.sliceOwner := rfl
@[simp] theorem State.modGroup_quayPart (s : State) (g : Nat) (f : Group → Group) : (s.modGroup g f).quayPart = s.quayPart := rfl
@[simp] theorem State.modGroup_absent (s : State) (g : Nat) (f : Group → Group) : (s.modGroup g f).absent = s.absent := rfl
@[simp] theorem State.modGroup_partOwner (s : State) (g : Nat) (f : Group → Group) : (s.modGroup g f).partOwner = s.partOwner := rfl
@[simp] theorem State.modGroup_partNet (s : State) (g : Nat) (f : Group → Group) : (s.modGroup g f).partNet = s.partNet := rfl
@[simp] theorem State.modGroup_netpol (s : State) (g : Nat) (f : Group → Group) : (s.modGroup g f).netpol = s.netpol := rfl
@[simp] theorem State.modGroup_tlb (s : State) (g : Nat) (f : Group → Group) : (s.modGroup g f).tlb = s.tlb := rfl
@[simp] theorem State.modGroup_walks (s : State) (g : Nat) (f : Group → Group) : (s.modGroup g f).walks = s.walks := rfl
@[simp] theorem State.modGroup_pgreqs (s : State) (g : Nat) (f : Group → Group) : (s.modGroup g f).pgreqs = s.pgreqs := rfl
@[simp] theorem State.modGroup_ctxs (s : State) (g : Nat) (f : Group → Group) : (s.modGroup g f).ctxs = s.ctxs := rfl
@[simp] theorem State.modGroup_quayCtx (s : State) (g : Nat) (f : Group → Group) : (s.modGroup g f).quayCtx = s.quayCtx := rfl
@[simp] theorem State.modGroup_ctxq (s : State) (g : Nat) (f : Group → Group) : (s.modGroup g f).ctxq = s.ctxq := rfl
@[simp] theorem State.modGroup_handovers (s : State) (g : Nat) (f : Group → Group) : (s.modGroup g f).handovers = s.handovers := rfl
@[simp] theorem State.modGroup_preempts (s : State) (g : Nat) (f : Group → Group) : (s.modGroup g f).preempts = s.preempts := rfl
@[simp] theorem State.modGroup_saves (s : State) (g : Nat) (f : Group → Group) : (s.modGroup g f).saves = s.saves := rfl
@[simp] theorem State.modGroup_areaDue (s : State) (g : Nat) (f : Group → Group) : (s.modGroup g f).areaDue = s.areaDue := rfl
@[simp] theorem State.modGroup_sections (s : State) (g : Nat) (f : Group → Group) : (s.modGroup g f).sections = s.sections := rfl
@[simp] theorem State.modGroup_quota (s : State) (g : Nat) (f : Group → Group) : (s.modGroup g f).quota = s.quota := rfl
@[simp] theorem State.modGroup_meters (s : State) (g : Nat) (f : Group → Group) : (s.modGroup g f).meters = s.meters := rfl
@[simp] theorem State.modGroup_launches (s : State) (g : Nat) (f : Group → Group) : (s.modGroup g f).launches = s.launches := rfl
@[simp] theorem State.modGroup_ready (s : State) (g : Nat) (f : Group → Group) : (s.modGroup g f).ready = s.ready := rfl
@[simp] theorem State.modGroup_lastQueue (s : State) (g : Nat) (f : Group → Group) : (s.modGroup g f).lastQueue = s.lastQueue := rfl
@[simp] theorem State.modGroup_inbox (s : State) (g : Nat) (f : Group → Group) : (s.modGroup g f).inbox = s.inbox := rfl
@[simp] theorem State.modGroup_outbox (s : State) (g : Nat) (f : Group → Group) : (s.modGroup g f).outbox = s.outbox := rfl
@[simp] theorem State.modGroup_links (s : State) (g : Nat) (f : Group → Group) : (s.modGroup g f).links = s.links := rfl
@[simp] theorem State.modGroup_remotes (s : State) (g : Nat) (f : Group → Group) : (s.modGroup g f).remotes = s.remotes := rfl
@[simp] theorem State.modGroup_remoteHolds (s : State) (g : Nat) (f : Group → Group) : (s.modGroup g f).remoteHolds = s.remoteHolds := rfl
@[simp] theorem State.modGroup_farRanks (s : State) (g : Nat) (f : Group → Group) : (s.modGroup g f).farRanks = s.farRanks := rfl
@[simp] theorem State.modGroup_collIn (s : State) (g : Nat) (f : Group → Group) : (s.modGroup g f).collIn = s.collIn := rfl
@[simp] theorem State.modGroup_domain (s : State) (g : Nat) (f : Group → Group) : (s.modGroup g f).domain = s.domain := rfl
@[simp] theorem State.modGroup_upsets (s : State) (g : Nat) (f : Group → Group) : (s.modGroup g f).upsets = s.upsets := rfl

/-! ### `chargeFj` changes the meters alone -/

@[simp] theorem State.chargeFj_agenda (s : State) (m c n : Nat) : (s.chargeFj m c n).agenda = s.agenda := rfl
@[simp] theorem State.chargeFj_freeCtr (s : State) (m c n : Nat) : (s.chargeFj m c n).freeCtr = s.freeCtr := rfl
@[simp] theorem State.chargeFj_turn (s : State) (m c n : Nat) : (s.chargeFj m c n).turn = s.turn := rfl
@[simp] theorem State.chargeFj_clock (s : State) (m c n : Nat) : (s.chargeFj m c n).clock = s.clock := rfl
@[simp] theorem State.chargeFj_nextId (s : State) (m c n : Nat) : (s.chargeFj m c n).nextId = s.nextId := rfl
@[simp] theorem State.chargeFj_dev (s : State) (m c n : Nat) : (s.chargeFj m c n).dev = s.dev := rfl
@[simp] theorem State.chargeFj_pass (s : State) (m c n : Nat) : (s.chargeFj m c n).pass = s.pass := rfl
@[simp] theorem State.chargeFj_parked (s : State) (m c n : Nat) : (s.chargeFj m c n).parked = s.parked := rfl
@[simp] theorem State.chargeFj_threads (s : State) (m c n : Nat) : (s.chargeFj m c n).threads = s.threads := rfl
@[simp] theorem State.chargeFj_entries (s : State) (m c n : Nat) : (s.chargeFj m c n).entries = s.entries := rfl
@[simp] theorem State.chargeFj_planes (s : State) (m c n : Nat) : (s.chargeFj m c n).planes = s.planes := rfl
@[simp] theorem State.chargeFj_groups (s : State) (m c n : Nat) : (s.chargeFj m c n).groups = s.groups := rfl
@[simp] theorem State.chargeFj_greds (s : State) (m c n : Nat) : (s.chargeFj m c n).greds = s.greds := rfl
@[simp] theorem State.chargeFj_waits (s : State) (m c n : Nat) : (s.chargeFj m c n).waits = s.waits := rfl
@[simp] theorem State.chargeFj_bollards (s : State) (m c n : Nat) : (s.chargeFj m c n).bollards = s.bollards := rfl
@[simp] theorem State.chargeFj_weighed (s : State) (m c n : Nat) : (s.chargeFj m c n).weighed = s.weighed := rfl
@[simp] theorem State.chargeFj_ops (s : State) (m c n : Nat) : (s.chargeFj m c n).ops = s.ops := rfl
@[simp] theorem State.chargeFj_scores (s : State) (m c n : Nat) : (s.chargeFj m c n).scores = s.scores := rfl
@[simp] theorem State.chargeFj_regions (s : State) (m c n : Nat) : (s.chargeFj m c n).regions = s.regions := rfl
@[simp] theorem State.chargeFj_latch (s : State) (m c n : Nat) : (s.chargeFj m c n).latch = s.latch := rfl
@[simp] theorem State.chargeFj_nodes (s : State) (m c n : Nat) : (s.chargeFj m c n).nodes = s.nodes := rfl
@[simp] theorem State.chargeFj_units (s : State) (m c n : Nat) : (s.chargeFj m c n).units = s.units := rfl
@[simp] theorem State.chargeFj_mem (s : State) (m c n : Nat) : (s.chargeFj m c n).mem = s.mem := rfl
@[simp] theorem State.chargeFj_poisoned (s : State) (m c n : Nat) : (s.chargeFj m c n).poisoned = s.poisoned := rfl
@[simp] theorem State.chargeFj_vmem (s : State) (m c n : Nat) : (s.chargeFj m c n).vmem = s.vmem := rfl
@[simp] theorem State.chargeFj_vlines (s : State) (m c n : Nat) : (s.chargeFj m c n).vlines = s.vlines := rfl
@[simp] theorem State.chargeFj_presence (s : State) (m c n : Nat) : (s.chargeFj m c n).presence = s.presence := rfl
@[simp] theorem State.chargeFj_vwritten (s : State) (m c n : Nat) : (s.chargeFj m c n).vwritten = s.vwritten := rfl
@[simp] theorem State.chargeFj_fills (s : State) (m c n : Nat) : (s.chargeFj m c n).fills = s.fills := rfl
@[simp] theorem State.chargeFj_framePrio (s : State) (m c n : Nat) : (s.chargeFj m c n).framePrio = s.framePrio := rfl
@[simp] theorem State.chargeFj_holdWaits (s : State) (m c n : Nat) : (s.chargeFj m c n).holdWaits = s.holdWaits := rfl
@[simp] theorem State.chargeFj_dir (s : State) (m c n : Nat) : (s.chargeFj m c n).dir = s.dir := rfl
@[simp] theorem State.chargeFj_copies (s : State) (m c n : Nat) : (s.chargeFj m c n).copies = s.copies := rfl
@[simp] theorem State.chargeFj_reqs (s : State) (m c n : Nat) : (s.chargeFj m c n).reqs = s.reqs := rfl
@[simp] theorem State.chargeFj_answers (s : State) (m c n : Nat) : (s.chargeFj m c n).answers = s.answers := rfl
@[simp] theorem State.chargeFj_replicas (s : State) (m c n : Nat) : (s.chargeFj m c n).replicas = s.replicas := rfl
@[simp] theorem State.chargeFj_net (s : State) (m c n : Nat) : (s.chargeFj m c n).net = s.net := rfl
@[simp] theorem State.chargeFj_homeWait (s : State) (m c n : Nat) : (s.chargeFj m c n).homeWait = s.homeWait := rfl
@[simp] theorem State.chargeFj_collecting (s : State) (m c n : Nat) : (s.chargeFj m c n).collecting = s.collecting := rfl
@[simp] theorem State.chargeFj_recalls (s : State) (m c n : Nat) : (s.chargeFj m c n).recalls = s.recalls := rfl
@[simp] theorem State.chargeFj_pers (s : State) (m c n : Nat) : (s.chargeFj m c n).pers = s.pers := rfl
@[simp] theorem State.chargeFj_frz (s : State) (m c n : Nat) : (s.chargeFj m c n).frz = s.frz := rfl
@[simp] theorem State.chargeFj_gens (s : State) (m c n : Nat) : (s.chargeFj m c n).gens = s.gens := rfl
@[simp] theorem State.chargeFj_genWait (s : State) (m c n : Nat) : (s.chargeFj m c n).genWait = s.genWait := rfl
@[simp] theorem State.chargeFj_sweeps (s : State) (m c n : Nat) : (s.chargeFj m c n).sweeps = s.sweeps := rfl
@[simp] theorem State.chargeFj_pageOrder (s : State) (m c n : Nat) : (s.chargeFj m c n).pageOrder = s.pageOrder := rfl
@[simp] theorem State.chargeFj_paying (s : State) (m c n : Nat) : (s.chargeFj m c n).paying = s.paying := rfl
@[simp] theorem State.chargeFj_farPages (s : State) (m c n : Nat) : (s.chargeFj m c n).farPages = s.farPages := rfl
@[simp] theorem State.chargeFj_dooms (s : State) (m c n : Nat) : (s.chargeFj m c n).dooms = s.dooms := rfl
@[simp] theorem State.chargeFj_fmt (s : State) (m c n : Nat) : (s.chargeFj m c n).fmt = s.fmt := rfl
@[simp] theorem State.chargeFj_sliceOwner (s : State) (m c n : Nat) : (s.chargeFj m c n).sliceOwner = s.sliceOwner := rfl
@[simp] theorem State.chargeFj_quayPart (s : State) (m c n : Nat) : (s.chargeFj m c n).quayPart = s.quayPart := rfl
@[simp] theorem State.chargeFj_absent (s : State) (m c n : Nat) : (s.chargeFj m c n).absent = s.absent := rfl
@[simp] theorem State.chargeFj_partOwner (s : State) (m c n : Nat) : (s.chargeFj m c n).partOwner = s.partOwner := rfl
@[simp] theorem State.chargeFj_partNet (s : State) (m c n : Nat) : (s.chargeFj m c n).partNet = s.partNet := rfl
@[simp] theorem State.chargeFj_netpol (s : State) (m c n : Nat) : (s.chargeFj m c n).netpol = s.netpol := rfl
@[simp] theorem State.chargeFj_tlb (s : State) (m c n : Nat) : (s.chargeFj m c n).tlb = s.tlb := rfl
@[simp] theorem State.chargeFj_walks (s : State) (m c n : Nat) : (s.chargeFj m c n).walks = s.walks := rfl
@[simp] theorem State.chargeFj_pgreqs (s : State) (m c n : Nat) : (s.chargeFj m c n).pgreqs = s.pgreqs := rfl
@[simp] theorem State.chargeFj_ctxs (s : State) (m c n : Nat) : (s.chargeFj m c n).ctxs = s.ctxs := rfl
@[simp] theorem State.chargeFj_quayCtx (s : State) (m c n : Nat) : (s.chargeFj m c n).quayCtx = s.quayCtx := rfl
@[simp] theorem State.chargeFj_ctxq (s : State) (m c n : Nat) : (s.chargeFj m c n).ctxq = s.ctxq := rfl
@[simp] theorem State.chargeFj_handovers (s : State) (m c n : Nat) : (s.chargeFj m c n).handovers = s.handovers := rfl
@[simp] theorem State.chargeFj_preempts (s : State) (m c n : Nat) : (s.chargeFj m c n).preempts = s.preempts := rfl
@[simp] theorem State.chargeFj_saves (s : State) (m c n : Nat) : (s.chargeFj m c n).saves = s.saves := rfl
@[simp] theorem State.chargeFj_areaDue (s : State) (m c n : Nat) : (s.chargeFj m c n).areaDue = s.areaDue := rfl
@[simp] theorem State.chargeFj_sections (s : State) (m c n : Nat) : (s.chargeFj m c n).sections = s.sections := rfl
@[simp] theorem State.chargeFj_quota (s : State) (m c n : Nat) : (s.chargeFj m c n).quota = s.quota := rfl
@[simp] theorem State.chargeFj_launches (s : State) (m c n : Nat) : (s.chargeFj m c n).launches = s.launches := rfl
@[simp] theorem State.chargeFj_ready (s : State) (m c n : Nat) : (s.chargeFj m c n).ready = s.ready := rfl
@[simp] theorem State.chargeFj_lastQueue (s : State) (m c n : Nat) : (s.chargeFj m c n).lastQueue = s.lastQueue := rfl
@[simp] theorem State.chargeFj_inbox (s : State) (m c n : Nat) : (s.chargeFj m c n).inbox = s.inbox := rfl
@[simp] theorem State.chargeFj_outbox (s : State) (m c n : Nat) : (s.chargeFj m c n).outbox = s.outbox := rfl
@[simp] theorem State.chargeFj_links (s : State) (m c n : Nat) : (s.chargeFj m c n).links = s.links := rfl
@[simp] theorem State.chargeFj_remotes (s : State) (m c n : Nat) : (s.chargeFj m c n).remotes = s.remotes := rfl
@[simp] theorem State.chargeFj_remoteHolds (s : State) (m c n : Nat) : (s.chargeFj m c n).remoteHolds = s.remoteHolds := rfl
@[simp] theorem State.chargeFj_farRanks (s : State) (m c n : Nat) : (s.chargeFj m c n).farRanks = s.farRanks := rfl
@[simp] theorem State.chargeFj_collIn (s : State) (m c n : Nat) : (s.chargeFj m c n).collIn = s.collIn := rfl
@[simp] theorem State.chargeFj_domain (s : State) (m c n : Nat) : (s.chargeFj m c n).domain = s.domain := rfl
@[simp] theorem State.chargeFj_upsets (s : State) (m c n : Nat) : (s.chargeFj m c n).upsets = s.upsets := rfl

/-! ### `charge` changes the meters alone -/

@[simp] theorem State.charge_agenda (s : State) (m c k n : Nat) : (s.charge m c k n).agenda = s.agenda := rfl
@[simp] theorem State.charge_freeCtr (s : State) (m c k n : Nat) : (s.charge m c k n).freeCtr = s.freeCtr := rfl
@[simp] theorem State.charge_turn (s : State) (m c k n : Nat) : (s.charge m c k n).turn = s.turn := rfl
@[simp] theorem State.charge_clock (s : State) (m c k n : Nat) : (s.charge m c k n).clock = s.clock := rfl
@[simp] theorem State.charge_nextId (s : State) (m c k n : Nat) : (s.charge m c k n).nextId = s.nextId := rfl
@[simp] theorem State.charge_dev (s : State) (m c k n : Nat) : (s.charge m c k n).dev = s.dev := rfl
@[simp] theorem State.charge_pass (s : State) (m c k n : Nat) : (s.charge m c k n).pass = s.pass := rfl
@[simp] theorem State.charge_parked (s : State) (m c k n : Nat) : (s.charge m c k n).parked = s.parked := rfl
@[simp] theorem State.charge_threads (s : State) (m c k n : Nat) : (s.charge m c k n).threads = s.threads := rfl
@[simp] theorem State.charge_entries (s : State) (m c k n : Nat) : (s.charge m c k n).entries = s.entries := rfl
@[simp] theorem State.charge_planes (s : State) (m c k n : Nat) : (s.charge m c k n).planes = s.planes := rfl
@[simp] theorem State.charge_groups (s : State) (m c k n : Nat) : (s.charge m c k n).groups = s.groups := rfl
@[simp] theorem State.charge_greds (s : State) (m c k n : Nat) : (s.charge m c k n).greds = s.greds := rfl
@[simp] theorem State.charge_waits (s : State) (m c k n : Nat) : (s.charge m c k n).waits = s.waits := rfl
@[simp] theorem State.charge_bollards (s : State) (m c k n : Nat) : (s.charge m c k n).bollards = s.bollards := rfl
@[simp] theorem State.charge_weighed (s : State) (m c k n : Nat) : (s.charge m c k n).weighed = s.weighed := rfl
@[simp] theorem State.charge_ops (s : State) (m c k n : Nat) : (s.charge m c k n).ops = s.ops := rfl
@[simp] theorem State.charge_scores (s : State) (m c k n : Nat) : (s.charge m c k n).scores = s.scores := rfl
@[simp] theorem State.charge_regions (s : State) (m c k n : Nat) : (s.charge m c k n).regions = s.regions := rfl
@[simp] theorem State.charge_latch (s : State) (m c k n : Nat) : (s.charge m c k n).latch = s.latch := rfl
@[simp] theorem State.charge_nodes (s : State) (m c k n : Nat) : (s.charge m c k n).nodes = s.nodes := rfl
@[simp] theorem State.charge_units (s : State) (m c k n : Nat) : (s.charge m c k n).units = s.units := rfl
@[simp] theorem State.charge_mem (s : State) (m c k n : Nat) : (s.charge m c k n).mem = s.mem := rfl
@[simp] theorem State.charge_poisoned (s : State) (m c k n : Nat) : (s.charge m c k n).poisoned = s.poisoned := rfl
@[simp] theorem State.charge_vmem (s : State) (m c k n : Nat) : (s.charge m c k n).vmem = s.vmem := rfl
@[simp] theorem State.charge_vlines (s : State) (m c k n : Nat) : (s.charge m c k n).vlines = s.vlines := rfl
@[simp] theorem State.charge_presence (s : State) (m c k n : Nat) : (s.charge m c k n).presence = s.presence := rfl
@[simp] theorem State.charge_vwritten (s : State) (m c k n : Nat) : (s.charge m c k n).vwritten = s.vwritten := rfl
@[simp] theorem State.charge_fills (s : State) (m c k n : Nat) : (s.charge m c k n).fills = s.fills := rfl
@[simp] theorem State.charge_framePrio (s : State) (m c k n : Nat) : (s.charge m c k n).framePrio = s.framePrio := rfl
@[simp] theorem State.charge_holdWaits (s : State) (m c k n : Nat) : (s.charge m c k n).holdWaits = s.holdWaits := rfl
@[simp] theorem State.charge_dir (s : State) (m c k n : Nat) : (s.charge m c k n).dir = s.dir := rfl
@[simp] theorem State.charge_copies (s : State) (m c k n : Nat) : (s.charge m c k n).copies = s.copies := rfl
@[simp] theorem State.charge_reqs (s : State) (m c k n : Nat) : (s.charge m c k n).reqs = s.reqs := rfl
@[simp] theorem State.charge_answers (s : State) (m c k n : Nat) : (s.charge m c k n).answers = s.answers := rfl
@[simp] theorem State.charge_replicas (s : State) (m c k n : Nat) : (s.charge m c k n).replicas = s.replicas := rfl
@[simp] theorem State.charge_net (s : State) (m c k n : Nat) : (s.charge m c k n).net = s.net := rfl
@[simp] theorem State.charge_homeWait (s : State) (m c k n : Nat) : (s.charge m c k n).homeWait = s.homeWait := rfl
@[simp] theorem State.charge_collecting (s : State) (m c k n : Nat) : (s.charge m c k n).collecting = s.collecting := rfl
@[simp] theorem State.charge_recalls (s : State) (m c k n : Nat) : (s.charge m c k n).recalls = s.recalls := rfl
@[simp] theorem State.charge_pers (s : State) (m c k n : Nat) : (s.charge m c k n).pers = s.pers := rfl
@[simp] theorem State.charge_frz (s : State) (m c k n : Nat) : (s.charge m c k n).frz = s.frz := rfl
@[simp] theorem State.charge_gens (s : State) (m c k n : Nat) : (s.charge m c k n).gens = s.gens := rfl
@[simp] theorem State.charge_genWait (s : State) (m c k n : Nat) : (s.charge m c k n).genWait = s.genWait := rfl
@[simp] theorem State.charge_sweeps (s : State) (m c k n : Nat) : (s.charge m c k n).sweeps = s.sweeps := rfl
@[simp] theorem State.charge_pageOrder (s : State) (m c k n : Nat) : (s.charge m c k n).pageOrder = s.pageOrder := rfl
@[simp] theorem State.charge_paying (s : State) (m c k n : Nat) : (s.charge m c k n).paying = s.paying := rfl
@[simp] theorem State.charge_farPages (s : State) (m c k n : Nat) : (s.charge m c k n).farPages = s.farPages := rfl
@[simp] theorem State.charge_dooms (s : State) (m c k n : Nat) : (s.charge m c k n).dooms = s.dooms := rfl
@[simp] theorem State.charge_fmt (s : State) (m c k n : Nat) : (s.charge m c k n).fmt = s.fmt := rfl
@[simp] theorem State.charge_sliceOwner (s : State) (m c k n : Nat) : (s.charge m c k n).sliceOwner = s.sliceOwner := rfl
@[simp] theorem State.charge_quayPart (s : State) (m c k n : Nat) : (s.charge m c k n).quayPart = s.quayPart := rfl
@[simp] theorem State.charge_absent (s : State) (m c k n : Nat) : (s.charge m c k n).absent = s.absent := rfl
@[simp] theorem State.charge_partOwner (s : State) (m c k n : Nat) : (s.charge m c k n).partOwner = s.partOwner := rfl
@[simp] theorem State.charge_partNet (s : State) (m c k n : Nat) : (s.charge m c k n).partNet = s.partNet := rfl
@[simp] theorem State.charge_netpol (s : State) (m c k n : Nat) : (s.charge m c k n).netpol = s.netpol := rfl
@[simp] theorem State.charge_tlb (s : State) (m c k n : Nat) : (s.charge m c k n).tlb = s.tlb := rfl
@[simp] theorem State.charge_walks (s : State) (m c k n : Nat) : (s.charge m c k n).walks = s.walks := rfl
@[simp] theorem State.charge_pgreqs (s : State) (m c k n : Nat) : (s.charge m c k n).pgreqs = s.pgreqs := rfl
@[simp] theorem State.charge_ctxs (s : State) (m c k n : Nat) : (s.charge m c k n).ctxs = s.ctxs := rfl
@[simp] theorem State.charge_quayCtx (s : State) (m c k n : Nat) : (s.charge m c k n).quayCtx = s.quayCtx := rfl
@[simp] theorem State.charge_ctxq (s : State) (m c k n : Nat) : (s.charge m c k n).ctxq = s.ctxq := rfl
@[simp] theorem State.charge_handovers (s : State) (m c k n : Nat) : (s.charge m c k n).handovers = s.handovers := rfl
@[simp] theorem State.charge_preempts (s : State) (m c k n : Nat) : (s.charge m c k n).preempts = s.preempts := rfl
@[simp] theorem State.charge_saves (s : State) (m c k n : Nat) : (s.charge m c k n).saves = s.saves := rfl
@[simp] theorem State.charge_areaDue (s : State) (m c k n : Nat) : (s.charge m c k n).areaDue = s.areaDue := rfl
@[simp] theorem State.charge_sections (s : State) (m c k n : Nat) : (s.charge m c k n).sections = s.sections := rfl
@[simp] theorem State.charge_quota (s : State) (m c k n : Nat) : (s.charge m c k n).quota = s.quota := rfl
@[simp] theorem State.charge_launches (s : State) (m c k n : Nat) : (s.charge m c k n).launches = s.launches := rfl
@[simp] theorem State.charge_ready (s : State) (m c k n : Nat) : (s.charge m c k n).ready = s.ready := rfl
@[simp] theorem State.charge_lastQueue (s : State) (m c k n : Nat) : (s.charge m c k n).lastQueue = s.lastQueue := rfl
@[simp] theorem State.charge_inbox (s : State) (m c k n : Nat) : (s.charge m c k n).inbox = s.inbox := rfl
@[simp] theorem State.charge_outbox (s : State) (m c k n : Nat) : (s.charge m c k n).outbox = s.outbox := rfl
@[simp] theorem State.charge_links (s : State) (m c k n : Nat) : (s.charge m c k n).links = s.links := rfl
@[simp] theorem State.charge_remotes (s : State) (m c k n : Nat) : (s.charge m c k n).remotes = s.remotes := rfl
@[simp] theorem State.charge_remoteHolds (s : State) (m c k n : Nat) : (s.charge m c k n).remoteHolds = s.remoteHolds := rfl
@[simp] theorem State.charge_farRanks (s : State) (m c k n : Nat) : (s.charge m c k n).farRanks = s.farRanks := rfl
@[simp] theorem State.charge_collIn (s : State) (m c k n : Nat) : (s.charge m c k n).collIn = s.collIn := rfl
@[simp] theorem State.charge_domain (s : State) (m c k n : Nat) : (s.charge m c k n).domain = s.domain := rfl
@[simp] theorem State.charge_upsets (s : State) (m c k n : Nat) : (s.charge m c k n).upsets = s.upsets := rfl

/-! ### `chargeFiring` changes the meters alone -/

@[simp] theorem State.chargeFiring_agenda (s : State) (i : Instr) : (s.chargeFiring i).agenda = s.agenda := rfl
@[simp] theorem State.chargeFiring_freeCtr (s : State) (i : Instr) : (s.chargeFiring i).freeCtr = s.freeCtr := rfl
@[simp] theorem State.chargeFiring_turn (s : State) (i : Instr) : (s.chargeFiring i).turn = s.turn := rfl
@[simp] theorem State.chargeFiring_clock (s : State) (i : Instr) : (s.chargeFiring i).clock = s.clock := rfl
@[simp] theorem State.chargeFiring_nextId (s : State) (i : Instr) : (s.chargeFiring i).nextId = s.nextId := rfl
@[simp] theorem State.chargeFiring_dev (s : State) (i : Instr) : (s.chargeFiring i).dev = s.dev := rfl
@[simp] theorem State.chargeFiring_pass (s : State) (i : Instr) : (s.chargeFiring i).pass = s.pass := rfl
@[simp] theorem State.chargeFiring_parked (s : State) (i : Instr) : (s.chargeFiring i).parked = s.parked := rfl
@[simp] theorem State.chargeFiring_threads (s : State) (i : Instr) : (s.chargeFiring i).threads = s.threads := rfl
@[simp] theorem State.chargeFiring_entries (s : State) (i : Instr) : (s.chargeFiring i).entries = s.entries := rfl
@[simp] theorem State.chargeFiring_planes (s : State) (i : Instr) : (s.chargeFiring i).planes = s.planes := rfl
@[simp] theorem State.chargeFiring_groups (s : State) (i : Instr) : (s.chargeFiring i).groups = s.groups := rfl
@[simp] theorem State.chargeFiring_greds (s : State) (i : Instr) : (s.chargeFiring i).greds = s.greds := rfl
@[simp] theorem State.chargeFiring_waits (s : State) (i : Instr) : (s.chargeFiring i).waits = s.waits := rfl
@[simp] theorem State.chargeFiring_bollards (s : State) (i : Instr) : (s.chargeFiring i).bollards = s.bollards := rfl
@[simp] theorem State.chargeFiring_weighed (s : State) (i : Instr) : (s.chargeFiring i).weighed = s.weighed := rfl
@[simp] theorem State.chargeFiring_ops (s : State) (i : Instr) : (s.chargeFiring i).ops = s.ops := rfl
@[simp] theorem State.chargeFiring_scores (s : State) (i : Instr) : (s.chargeFiring i).scores = s.scores := rfl
@[simp] theorem State.chargeFiring_regions (s : State) (i : Instr) : (s.chargeFiring i).regions = s.regions := rfl
@[simp] theorem State.chargeFiring_latch (s : State) (i : Instr) : (s.chargeFiring i).latch = s.latch := rfl
@[simp] theorem State.chargeFiring_nodes (s : State) (i : Instr) : (s.chargeFiring i).nodes = s.nodes := rfl
@[simp] theorem State.chargeFiring_units (s : State) (i : Instr) : (s.chargeFiring i).units = s.units := rfl
@[simp] theorem State.chargeFiring_mem (s : State) (i : Instr) : (s.chargeFiring i).mem = s.mem := rfl
@[simp] theorem State.chargeFiring_poisoned (s : State) (i : Instr) : (s.chargeFiring i).poisoned = s.poisoned := rfl
@[simp] theorem State.chargeFiring_vmem (s : State) (i : Instr) : (s.chargeFiring i).vmem = s.vmem := rfl
@[simp] theorem State.chargeFiring_vlines (s : State) (i : Instr) : (s.chargeFiring i).vlines = s.vlines := rfl
@[simp] theorem State.chargeFiring_presence (s : State) (i : Instr) : (s.chargeFiring i).presence = s.presence := rfl
@[simp] theorem State.chargeFiring_vwritten (s : State) (i : Instr) : (s.chargeFiring i).vwritten = s.vwritten := rfl
@[simp] theorem State.chargeFiring_fills (s : State) (i : Instr) : (s.chargeFiring i).fills = s.fills := rfl
@[simp] theorem State.chargeFiring_framePrio (s : State) (i : Instr) : (s.chargeFiring i).framePrio = s.framePrio := rfl
@[simp] theorem State.chargeFiring_holdWaits (s : State) (i : Instr) : (s.chargeFiring i).holdWaits = s.holdWaits := rfl
@[simp] theorem State.chargeFiring_dir (s : State) (i : Instr) : (s.chargeFiring i).dir = s.dir := rfl
@[simp] theorem State.chargeFiring_copies (s : State) (i : Instr) : (s.chargeFiring i).copies = s.copies := rfl
@[simp] theorem State.chargeFiring_reqs (s : State) (i : Instr) : (s.chargeFiring i).reqs = s.reqs := rfl
@[simp] theorem State.chargeFiring_answers (s : State) (i : Instr) : (s.chargeFiring i).answers = s.answers := rfl
@[simp] theorem State.chargeFiring_replicas (s : State) (i : Instr) : (s.chargeFiring i).replicas = s.replicas := rfl
@[simp] theorem State.chargeFiring_net (s : State) (i : Instr) : (s.chargeFiring i).net = s.net := rfl
@[simp] theorem State.chargeFiring_homeWait (s : State) (i : Instr) : (s.chargeFiring i).homeWait = s.homeWait := rfl
@[simp] theorem State.chargeFiring_collecting (s : State) (i : Instr) : (s.chargeFiring i).collecting = s.collecting := rfl
@[simp] theorem State.chargeFiring_recalls (s : State) (i : Instr) : (s.chargeFiring i).recalls = s.recalls := rfl
@[simp] theorem State.chargeFiring_pers (s : State) (i : Instr) : (s.chargeFiring i).pers = s.pers := rfl
@[simp] theorem State.chargeFiring_frz (s : State) (i : Instr) : (s.chargeFiring i).frz = s.frz := rfl
@[simp] theorem State.chargeFiring_gens (s : State) (i : Instr) : (s.chargeFiring i).gens = s.gens := rfl
@[simp] theorem State.chargeFiring_genWait (s : State) (i : Instr) : (s.chargeFiring i).genWait = s.genWait := rfl
@[simp] theorem State.chargeFiring_sweeps (s : State) (i : Instr) : (s.chargeFiring i).sweeps = s.sweeps := rfl
@[simp] theorem State.chargeFiring_pageOrder (s : State) (i : Instr) : (s.chargeFiring i).pageOrder = s.pageOrder := rfl
@[simp] theorem State.chargeFiring_paying (s : State) (i : Instr) : (s.chargeFiring i).paying = s.paying := rfl
@[simp] theorem State.chargeFiring_farPages (s : State) (i : Instr) : (s.chargeFiring i).farPages = s.farPages := rfl
@[simp] theorem State.chargeFiring_dooms (s : State) (i : Instr) : (s.chargeFiring i).dooms = s.dooms := rfl
@[simp] theorem State.chargeFiring_fmt (s : State) (i : Instr) : (s.chargeFiring i).fmt = s.fmt := rfl
@[simp] theorem State.chargeFiring_sliceOwner (s : State) (i : Instr) : (s.chargeFiring i).sliceOwner = s.sliceOwner := rfl
@[simp] theorem State.chargeFiring_quayPart (s : State) (i : Instr) : (s.chargeFiring i).quayPart = s.quayPart := rfl
@[simp] theorem State.chargeFiring_absent (s : State) (i : Instr) : (s.chargeFiring i).absent = s.absent := rfl
@[simp] theorem State.chargeFiring_partOwner (s : State) (i : Instr) : (s.chargeFiring i).partOwner = s.partOwner := rfl
@[simp] theorem State.chargeFiring_partNet (s : State) (i : Instr) : (s.chargeFiring i).partNet = s.partNet := rfl
@[simp] theorem State.chargeFiring_netpol (s : State) (i : Instr) : (s.chargeFiring i).netpol = s.netpol := rfl
@[simp] theorem State.chargeFiring_tlb (s : State) (i : Instr) : (s.chargeFiring i).tlb = s.tlb := rfl
@[simp] theorem State.chargeFiring_walks (s : State) (i : Instr) : (s.chargeFiring i).walks = s.walks := rfl
@[simp] theorem State.chargeFiring_pgreqs (s : State) (i : Instr) : (s.chargeFiring i).pgreqs = s.pgreqs := rfl
@[simp] theorem State.chargeFiring_ctxs (s : State) (i : Instr) : (s.chargeFiring i).ctxs = s.ctxs := rfl
@[simp] theorem State.chargeFiring_quayCtx (s : State) (i : Instr) : (s.chargeFiring i).quayCtx = s.quayCtx := rfl
@[simp] theorem State.chargeFiring_ctxq (s : State) (i : Instr) : (s.chargeFiring i).ctxq = s.ctxq := rfl
@[simp] theorem State.chargeFiring_handovers (s : State) (i : Instr) : (s.chargeFiring i).handovers = s.handovers := rfl
@[simp] theorem State.chargeFiring_preempts (s : State) (i : Instr) : (s.chargeFiring i).preempts = s.preempts := rfl
@[simp] theorem State.chargeFiring_saves (s : State) (i : Instr) : (s.chargeFiring i).saves = s.saves := rfl
@[simp] theorem State.chargeFiring_areaDue (s : State) (i : Instr) : (s.chargeFiring i).areaDue = s.areaDue := rfl
@[simp] theorem State.chargeFiring_sections (s : State) (i : Instr) : (s.chargeFiring i).sections = s.sections := rfl
@[simp] theorem State.chargeFiring_quota (s : State) (i : Instr) : (s.chargeFiring i).quota = s.quota := rfl
@[simp] theorem State.chargeFiring_launches (s : State) (i : Instr) : (s.chargeFiring i).launches = s.launches := rfl
@[simp] theorem State.chargeFiring_ready (s : State) (i : Instr) : (s.chargeFiring i).ready = s.ready := rfl
@[simp] theorem State.chargeFiring_lastQueue (s : State) (i : Instr) : (s.chargeFiring i).lastQueue = s.lastQueue := rfl
@[simp] theorem State.chargeFiring_inbox (s : State) (i : Instr) : (s.chargeFiring i).inbox = s.inbox := rfl
@[simp] theorem State.chargeFiring_outbox (s : State) (i : Instr) : (s.chargeFiring i).outbox = s.outbox := rfl
@[simp] theorem State.chargeFiring_links (s : State) (i : Instr) : (s.chargeFiring i).links = s.links := rfl
@[simp] theorem State.chargeFiring_remotes (s : State) (i : Instr) : (s.chargeFiring i).remotes = s.remotes := rfl
@[simp] theorem State.chargeFiring_remoteHolds (s : State) (i : Instr) : (s.chargeFiring i).remoteHolds = s.remoteHolds := rfl
@[simp] theorem State.chargeFiring_farRanks (s : State) (i : Instr) : (s.chargeFiring i).farRanks = s.farRanks := rfl
@[simp] theorem State.chargeFiring_collIn (s : State) (i : Instr) : (s.chargeFiring i).collIn = s.collIn := rfl
@[simp] theorem State.chargeFiring_domain (s : State) (i : Instr) : (s.chargeFiring i).domain = s.domain := rfl
@[simp] theorem State.chargeFiring_upsets (s : State) (i : Instr) : (s.chargeFiring i).upsets = s.upsets := rfl

/-! ### `stall` changes the current pass alone -/

@[simp] theorem State.stall_agenda (s : State) : (s.stall).agenda = s.agenda := rfl
@[simp] theorem State.stall_freeCtr (s : State) : (s.stall).freeCtr = s.freeCtr := rfl
@[simp] theorem State.stall_turn (s : State) : (s.stall).turn = s.turn := rfl
@[simp] theorem State.stall_clock (s : State) : (s.stall).clock = s.clock := rfl
@[simp] theorem State.stall_nextId (s : State) : (s.stall).nextId = s.nextId := rfl
@[simp] theorem State.stall_dev (s : State) : (s.stall).dev = s.dev := rfl
@[simp] theorem State.stall_parked (s : State) : (s.stall).parked = s.parked := rfl
@[simp] theorem State.stall_threads (s : State) : (s.stall).threads = s.threads := rfl
@[simp] theorem State.stall_entries (s : State) : (s.stall).entries = s.entries := rfl
@[simp] theorem State.stall_planes (s : State) : (s.stall).planes = s.planes := rfl
@[simp] theorem State.stall_groups (s : State) : (s.stall).groups = s.groups := rfl
@[simp] theorem State.stall_greds (s : State) : (s.stall).greds = s.greds := rfl
@[simp] theorem State.stall_waits (s : State) : (s.stall).waits = s.waits := rfl
@[simp] theorem State.stall_bollards (s : State) : (s.stall).bollards = s.bollards := rfl
@[simp] theorem State.stall_weighed (s : State) : (s.stall).weighed = s.weighed := rfl
@[simp] theorem State.stall_ops (s : State) : (s.stall).ops = s.ops := rfl
@[simp] theorem State.stall_scores (s : State) : (s.stall).scores = s.scores := rfl
@[simp] theorem State.stall_regions (s : State) : (s.stall).regions = s.regions := rfl
@[simp] theorem State.stall_latch (s : State) : (s.stall).latch = s.latch := rfl
@[simp] theorem State.stall_nodes (s : State) : (s.stall).nodes = s.nodes := rfl
@[simp] theorem State.stall_units (s : State) : (s.stall).units = s.units := rfl
@[simp] theorem State.stall_mem (s : State) : (s.stall).mem = s.mem := rfl
@[simp] theorem State.stall_poisoned (s : State) : (s.stall).poisoned = s.poisoned := rfl
@[simp] theorem State.stall_vmem (s : State) : (s.stall).vmem = s.vmem := rfl
@[simp] theorem State.stall_vlines (s : State) : (s.stall).vlines = s.vlines := rfl
@[simp] theorem State.stall_presence (s : State) : (s.stall).presence = s.presence := rfl
@[simp] theorem State.stall_vwritten (s : State) : (s.stall).vwritten = s.vwritten := rfl
@[simp] theorem State.stall_fills (s : State) : (s.stall).fills = s.fills := rfl
@[simp] theorem State.stall_framePrio (s : State) : (s.stall).framePrio = s.framePrio := rfl
@[simp] theorem State.stall_holdWaits (s : State) : (s.stall).holdWaits = s.holdWaits := rfl
@[simp] theorem State.stall_dir (s : State) : (s.stall).dir = s.dir := rfl
@[simp] theorem State.stall_copies (s : State) : (s.stall).copies = s.copies := rfl
@[simp] theorem State.stall_reqs (s : State) : (s.stall).reqs = s.reqs := rfl
@[simp] theorem State.stall_answers (s : State) : (s.stall).answers = s.answers := rfl
@[simp] theorem State.stall_replicas (s : State) : (s.stall).replicas = s.replicas := rfl
@[simp] theorem State.stall_net (s : State) : (s.stall).net = s.net := rfl
@[simp] theorem State.stall_homeWait (s : State) : (s.stall).homeWait = s.homeWait := rfl
@[simp] theorem State.stall_collecting (s : State) : (s.stall).collecting = s.collecting := rfl
@[simp] theorem State.stall_recalls (s : State) : (s.stall).recalls = s.recalls := rfl
@[simp] theorem State.stall_pers (s : State) : (s.stall).pers = s.pers := rfl
@[simp] theorem State.stall_frz (s : State) : (s.stall).frz = s.frz := rfl
@[simp] theorem State.stall_gens (s : State) : (s.stall).gens = s.gens := rfl
@[simp] theorem State.stall_genWait (s : State) : (s.stall).genWait = s.genWait := rfl
@[simp] theorem State.stall_sweeps (s : State) : (s.stall).sweeps = s.sweeps := rfl
@[simp] theorem State.stall_pageOrder (s : State) : (s.stall).pageOrder = s.pageOrder := rfl
@[simp] theorem State.stall_paying (s : State) : (s.stall).paying = s.paying := rfl
@[simp] theorem State.stall_farPages (s : State) : (s.stall).farPages = s.farPages := rfl
@[simp] theorem State.stall_dooms (s : State) : (s.stall).dooms = s.dooms := rfl
@[simp] theorem State.stall_fmt (s : State) : (s.stall).fmt = s.fmt := rfl
@[simp] theorem State.stall_sliceOwner (s : State) : (s.stall).sliceOwner = s.sliceOwner := rfl
@[simp] theorem State.stall_quayPart (s : State) : (s.stall).quayPart = s.quayPart := rfl
@[simp] theorem State.stall_absent (s : State) : (s.stall).absent = s.absent := rfl
@[simp] theorem State.stall_partOwner (s : State) : (s.stall).partOwner = s.partOwner := rfl
@[simp] theorem State.stall_partNet (s : State) : (s.stall).partNet = s.partNet := rfl
@[simp] theorem State.stall_netpol (s : State) : (s.stall).netpol = s.netpol := rfl
@[simp] theorem State.stall_tlb (s : State) : (s.stall).tlb = s.tlb := rfl
@[simp] theorem State.stall_walks (s : State) : (s.stall).walks = s.walks := rfl
@[simp] theorem State.stall_pgreqs (s : State) : (s.stall).pgreqs = s.pgreqs := rfl
@[simp] theorem State.stall_ctxs (s : State) : (s.stall).ctxs = s.ctxs := rfl
@[simp] theorem State.stall_quayCtx (s : State) : (s.stall).quayCtx = s.quayCtx := rfl
@[simp] theorem State.stall_ctxq (s : State) : (s.stall).ctxq = s.ctxq := rfl
@[simp] theorem State.stall_handovers (s : State) : (s.stall).handovers = s.handovers := rfl
@[simp] theorem State.stall_preempts (s : State) : (s.stall).preempts = s.preempts := rfl
@[simp] theorem State.stall_saves (s : State) : (s.stall).saves = s.saves := rfl
@[simp] theorem State.stall_areaDue (s : State) : (s.stall).areaDue = s.areaDue := rfl
@[simp] theorem State.stall_sections (s : State) : (s.stall).sections = s.sections := rfl
@[simp] theorem State.stall_quota (s : State) : (s.stall).quota = s.quota := rfl
@[simp] theorem State.stall_meters (s : State) : (s.stall).meters = s.meters := rfl
@[simp] theorem State.stall_launches (s : State) : (s.stall).launches = s.launches := rfl
@[simp] theorem State.stall_ready (s : State) : (s.stall).ready = s.ready := rfl
@[simp] theorem State.stall_lastQueue (s : State) : (s.stall).lastQueue = s.lastQueue := rfl
@[simp] theorem State.stall_inbox (s : State) : (s.stall).inbox = s.inbox := rfl
@[simp] theorem State.stall_outbox (s : State) : (s.stall).outbox = s.outbox := rfl
@[simp] theorem State.stall_links (s : State) : (s.stall).links = s.links := rfl
@[simp] theorem State.stall_remotes (s : State) : (s.stall).remotes = s.remotes := rfl
@[simp] theorem State.stall_remoteHolds (s : State) : (s.stall).remoteHolds = s.remoteHolds := rfl
@[simp] theorem State.stall_farRanks (s : State) : (s.stall).farRanks = s.farRanks := rfl
@[simp] theorem State.stall_collIn (s : State) : (s.stall).collIn = s.collIn := rfl
@[simp] theorem State.stall_domain (s : State) : (s.stall).domain = s.domain := rfl
@[simp] theorem State.stall_upsets (s : State) : (s.stall).upsets = s.upsets := rfl

/-! ### `emit` changes the current pass alone -/

@[simp] theorem State.emit_agenda (s : State) (i : Instr) (w : Fields) (t : Tok) : (s.emit i w t).agenda = s.agenda := rfl
@[simp] theorem State.emit_freeCtr (s : State) (i : Instr) (w : Fields) (t : Tok) : (s.emit i w t).freeCtr = s.freeCtr := rfl
@[simp] theorem State.emit_turn (s : State) (i : Instr) (w : Fields) (t : Tok) : (s.emit i w t).turn = s.turn := rfl
@[simp] theorem State.emit_clock (s : State) (i : Instr) (w : Fields) (t : Tok) : (s.emit i w t).clock = s.clock := rfl
@[simp] theorem State.emit_nextId (s : State) (i : Instr) (w : Fields) (t : Tok) : (s.emit i w t).nextId = s.nextId := rfl
@[simp] theorem State.emit_dev (s : State) (i : Instr) (w : Fields) (t : Tok) : (s.emit i w t).dev = s.dev := rfl
@[simp] theorem State.emit_parked (s : State) (i : Instr) (w : Fields) (t : Tok) : (s.emit i w t).parked = s.parked := rfl
@[simp] theorem State.emit_threads (s : State) (i : Instr) (w : Fields) (t : Tok) : (s.emit i w t).threads = s.threads := rfl
@[simp] theorem State.emit_entries (s : State) (i : Instr) (w : Fields) (t : Tok) : (s.emit i w t).entries = s.entries := rfl
@[simp] theorem State.emit_planes (s : State) (i : Instr) (w : Fields) (t : Tok) : (s.emit i w t).planes = s.planes := rfl
@[simp] theorem State.emit_groups (s : State) (i : Instr) (w : Fields) (t : Tok) : (s.emit i w t).groups = s.groups := rfl
@[simp] theorem State.emit_greds (s : State) (i : Instr) (w : Fields) (t : Tok) : (s.emit i w t).greds = s.greds := rfl
@[simp] theorem State.emit_waits (s : State) (i : Instr) (w : Fields) (t : Tok) : (s.emit i w t).waits = s.waits := rfl
@[simp] theorem State.emit_bollards (s : State) (i : Instr) (w : Fields) (t : Tok) : (s.emit i w t).bollards = s.bollards := rfl
@[simp] theorem State.emit_weighed (s : State) (i : Instr) (w : Fields) (t : Tok) : (s.emit i w t).weighed = s.weighed := rfl
@[simp] theorem State.emit_ops (s : State) (i : Instr) (w : Fields) (t : Tok) : (s.emit i w t).ops = s.ops := rfl
@[simp] theorem State.emit_scores (s : State) (i : Instr) (w : Fields) (t : Tok) : (s.emit i w t).scores = s.scores := rfl
@[simp] theorem State.emit_regions (s : State) (i : Instr) (w : Fields) (t : Tok) : (s.emit i w t).regions = s.regions := rfl
@[simp] theorem State.emit_latch (s : State) (i : Instr) (w : Fields) (t : Tok) : (s.emit i w t).latch = s.latch := rfl
@[simp] theorem State.emit_nodes (s : State) (i : Instr) (w : Fields) (t : Tok) : (s.emit i w t).nodes = s.nodes := rfl
@[simp] theorem State.emit_units (s : State) (i : Instr) (w : Fields) (t : Tok) : (s.emit i w t).units = s.units := rfl
@[simp] theorem State.emit_mem (s : State) (i : Instr) (w : Fields) (t : Tok) : (s.emit i w t).mem = s.mem := rfl
@[simp] theorem State.emit_poisoned (s : State) (i : Instr) (w : Fields) (t : Tok) : (s.emit i w t).poisoned = s.poisoned := rfl
@[simp] theorem State.emit_vmem (s : State) (i : Instr) (w : Fields) (t : Tok) : (s.emit i w t).vmem = s.vmem := rfl
@[simp] theorem State.emit_vlines (s : State) (i : Instr) (w : Fields) (t : Tok) : (s.emit i w t).vlines = s.vlines := rfl
@[simp] theorem State.emit_presence (s : State) (i : Instr) (w : Fields) (t : Tok) : (s.emit i w t).presence = s.presence := rfl
@[simp] theorem State.emit_vwritten (s : State) (i : Instr) (w : Fields) (t : Tok) : (s.emit i w t).vwritten = s.vwritten := rfl
@[simp] theorem State.emit_fills (s : State) (i : Instr) (w : Fields) (t : Tok) : (s.emit i w t).fills = s.fills := rfl
@[simp] theorem State.emit_framePrio (s : State) (i : Instr) (w : Fields) (t : Tok) : (s.emit i w t).framePrio = s.framePrio := rfl
@[simp] theorem State.emit_holdWaits (s : State) (i : Instr) (w : Fields) (t : Tok) : (s.emit i w t).holdWaits = s.holdWaits := rfl
@[simp] theorem State.emit_dir (s : State) (i : Instr) (w : Fields) (t : Tok) : (s.emit i w t).dir = s.dir := rfl
@[simp] theorem State.emit_copies (s : State) (i : Instr) (w : Fields) (t : Tok) : (s.emit i w t).copies = s.copies := rfl
@[simp] theorem State.emit_reqs (s : State) (i : Instr) (w : Fields) (t : Tok) : (s.emit i w t).reqs = s.reqs := rfl
@[simp] theorem State.emit_answers (s : State) (i : Instr) (w : Fields) (t : Tok) : (s.emit i w t).answers = s.answers := rfl
@[simp] theorem State.emit_replicas (s : State) (i : Instr) (w : Fields) (t : Tok) : (s.emit i w t).replicas = s.replicas := rfl
@[simp] theorem State.emit_net (s : State) (i : Instr) (w : Fields) (t : Tok) : (s.emit i w t).net = s.net := rfl
@[simp] theorem State.emit_homeWait (s : State) (i : Instr) (w : Fields) (t : Tok) : (s.emit i w t).homeWait = s.homeWait := rfl
@[simp] theorem State.emit_collecting (s : State) (i : Instr) (w : Fields) (t : Tok) : (s.emit i w t).collecting = s.collecting := rfl
@[simp] theorem State.emit_recalls (s : State) (i : Instr) (w : Fields) (t : Tok) : (s.emit i w t).recalls = s.recalls := rfl
@[simp] theorem State.emit_pers (s : State) (i : Instr) (w : Fields) (t : Tok) : (s.emit i w t).pers = s.pers := rfl
@[simp] theorem State.emit_frz (s : State) (i : Instr) (w : Fields) (t : Tok) : (s.emit i w t).frz = s.frz := rfl
@[simp] theorem State.emit_gens (s : State) (i : Instr) (w : Fields) (t : Tok) : (s.emit i w t).gens = s.gens := rfl
@[simp] theorem State.emit_genWait (s : State) (i : Instr) (w : Fields) (t : Tok) : (s.emit i w t).genWait = s.genWait := rfl
@[simp] theorem State.emit_sweeps (s : State) (i : Instr) (w : Fields) (t : Tok) : (s.emit i w t).sweeps = s.sweeps := rfl
@[simp] theorem State.emit_pageOrder (s : State) (i : Instr) (w : Fields) (t : Tok) : (s.emit i w t).pageOrder = s.pageOrder := rfl
@[simp] theorem State.emit_paying (s : State) (i : Instr) (w : Fields) (t : Tok) : (s.emit i w t).paying = s.paying := rfl
@[simp] theorem State.emit_farPages (s : State) (i : Instr) (w : Fields) (t : Tok) : (s.emit i w t).farPages = s.farPages := rfl
@[simp] theorem State.emit_dooms (s : State) (i : Instr) (w : Fields) (t : Tok) : (s.emit i w t).dooms = s.dooms := rfl
@[simp] theorem State.emit_fmt (s : State) (i : Instr) (w : Fields) (t : Tok) : (s.emit i w t).fmt = s.fmt := rfl
@[simp] theorem State.emit_sliceOwner (s : State) (i : Instr) (w : Fields) (t : Tok) : (s.emit i w t).sliceOwner = s.sliceOwner := rfl
@[simp] theorem State.emit_quayPart (s : State) (i : Instr) (w : Fields) (t : Tok) : (s.emit i w t).quayPart = s.quayPart := rfl
@[simp] theorem State.emit_absent (s : State) (i : Instr) (w : Fields) (t : Tok) : (s.emit i w t).absent = s.absent := rfl
@[simp] theorem State.emit_partOwner (s : State) (i : Instr) (w : Fields) (t : Tok) : (s.emit i w t).partOwner = s.partOwner := rfl
@[simp] theorem State.emit_partNet (s : State) (i : Instr) (w : Fields) (t : Tok) : (s.emit i w t).partNet = s.partNet := rfl
@[simp] theorem State.emit_netpol (s : State) (i : Instr) (w : Fields) (t : Tok) : (s.emit i w t).netpol = s.netpol := rfl
@[simp] theorem State.emit_tlb (s : State) (i : Instr) (w : Fields) (t : Tok) : (s.emit i w t).tlb = s.tlb := rfl
@[simp] theorem State.emit_walks (s : State) (i : Instr) (w : Fields) (t : Tok) : (s.emit i w t).walks = s.walks := rfl
@[simp] theorem State.emit_pgreqs (s : State) (i : Instr) (w : Fields) (t : Tok) : (s.emit i w t).pgreqs = s.pgreqs := rfl
@[simp] theorem State.emit_ctxs (s : State) (i : Instr) (w : Fields) (t : Tok) : (s.emit i w t).ctxs = s.ctxs := rfl
@[simp] theorem State.emit_quayCtx (s : State) (i : Instr) (w : Fields) (t : Tok) : (s.emit i w t).quayCtx = s.quayCtx := rfl
@[simp] theorem State.emit_ctxq (s : State) (i : Instr) (w : Fields) (t : Tok) : (s.emit i w t).ctxq = s.ctxq := rfl
@[simp] theorem State.emit_handovers (s : State) (i : Instr) (w : Fields) (t : Tok) : (s.emit i w t).handovers = s.handovers := rfl
@[simp] theorem State.emit_preempts (s : State) (i : Instr) (w : Fields) (t : Tok) : (s.emit i w t).preempts = s.preempts := rfl
@[simp] theorem State.emit_saves (s : State) (i : Instr) (w : Fields) (t : Tok) : (s.emit i w t).saves = s.saves := rfl
@[simp] theorem State.emit_areaDue (s : State) (i : Instr) (w : Fields) (t : Tok) : (s.emit i w t).areaDue = s.areaDue := rfl
@[simp] theorem State.emit_sections (s : State) (i : Instr) (w : Fields) (t : Tok) : (s.emit i w t).sections = s.sections := rfl
@[simp] theorem State.emit_quota (s : State) (i : Instr) (w : Fields) (t : Tok) : (s.emit i w t).quota = s.quota := rfl
@[simp] theorem State.emit_meters (s : State) (i : Instr) (w : Fields) (t : Tok) : (s.emit i w t).meters = s.meters := rfl
@[simp] theorem State.emit_launches (s : State) (i : Instr) (w : Fields) (t : Tok) : (s.emit i w t).launches = s.launches := rfl
@[simp] theorem State.emit_ready (s : State) (i : Instr) (w : Fields) (t : Tok) : (s.emit i w t).ready = s.ready := rfl
@[simp] theorem State.emit_lastQueue (s : State) (i : Instr) (w : Fields) (t : Tok) : (s.emit i w t).lastQueue = s.lastQueue := rfl
@[simp] theorem State.emit_inbox (s : State) (i : Instr) (w : Fields) (t : Tok) : (s.emit i w t).inbox = s.inbox := rfl
@[simp] theorem State.emit_outbox (s : State) (i : Instr) (w : Fields) (t : Tok) : (s.emit i w t).outbox = s.outbox := rfl
@[simp] theorem State.emit_links (s : State) (i : Instr) (w : Fields) (t : Tok) : (s.emit i w t).links = s.links := rfl
@[simp] theorem State.emit_remotes (s : State) (i : Instr) (w : Fields) (t : Tok) : (s.emit i w t).remotes = s.remotes := rfl
@[simp] theorem State.emit_remoteHolds (s : State) (i : Instr) (w : Fields) (t : Tok) : (s.emit i w t).remoteHolds = s.remoteHolds := rfl
@[simp] theorem State.emit_farRanks (s : State) (i : Instr) (w : Fields) (t : Tok) : (s.emit i w t).farRanks = s.farRanks := rfl
@[simp] theorem State.emit_collIn (s : State) (i : Instr) (w : Fields) (t : Tok) : (s.emit i w t).collIn = s.collIn := rfl
@[simp] theorem State.emit_domain (s : State) (i : Instr) (w : Fields) (t : Tok) : (s.emit i w t).domain = s.domain := rfl
@[simp] theorem State.emit_upsets (s : State) (i : Instr) (w : Fields) (t : Tok) : (s.emit i w t).upsets = s.upsets := rfl

/-! ### `emitVal` changes the current pass alone -/

@[simp] theorem State.emitVal_agenda (s : State) (i : Instr) (w : Fields) (v : Word) : (s.emitVal i w v).agenda = s.agenda := rfl
@[simp] theorem State.emitVal_freeCtr (s : State) (i : Instr) (w : Fields) (v : Word) : (s.emitVal i w v).freeCtr = s.freeCtr := rfl
@[simp] theorem State.emitVal_turn (s : State) (i : Instr) (w : Fields) (v : Word) : (s.emitVal i w v).turn = s.turn := rfl
@[simp] theorem State.emitVal_clock (s : State) (i : Instr) (w : Fields) (v : Word) : (s.emitVal i w v).clock = s.clock := rfl
@[simp] theorem State.emitVal_nextId (s : State) (i : Instr) (w : Fields) (v : Word) : (s.emitVal i w v).nextId = s.nextId := rfl
@[simp] theorem State.emitVal_dev (s : State) (i : Instr) (w : Fields) (v : Word) : (s.emitVal i w v).dev = s.dev := rfl
@[simp] theorem State.emitVal_parked (s : State) (i : Instr) (w : Fields) (v : Word) : (s.emitVal i w v).parked = s.parked := rfl
@[simp] theorem State.emitVal_threads (s : State) (i : Instr) (w : Fields) (v : Word) : (s.emitVal i w v).threads = s.threads := rfl
@[simp] theorem State.emitVal_entries (s : State) (i : Instr) (w : Fields) (v : Word) : (s.emitVal i w v).entries = s.entries := rfl
@[simp] theorem State.emitVal_planes (s : State) (i : Instr) (w : Fields) (v : Word) : (s.emitVal i w v).planes = s.planes := rfl
@[simp] theorem State.emitVal_groups (s : State) (i : Instr) (w : Fields) (v : Word) : (s.emitVal i w v).groups = s.groups := rfl
@[simp] theorem State.emitVal_greds (s : State) (i : Instr) (w : Fields) (v : Word) : (s.emitVal i w v).greds = s.greds := rfl
@[simp] theorem State.emitVal_waits (s : State) (i : Instr) (w : Fields) (v : Word) : (s.emitVal i w v).waits = s.waits := rfl
@[simp] theorem State.emitVal_bollards (s : State) (i : Instr) (w : Fields) (v : Word) : (s.emitVal i w v).bollards = s.bollards := rfl
@[simp] theorem State.emitVal_weighed (s : State) (i : Instr) (w : Fields) (v : Word) : (s.emitVal i w v).weighed = s.weighed := rfl
@[simp] theorem State.emitVal_ops (s : State) (i : Instr) (w : Fields) (v : Word) : (s.emitVal i w v).ops = s.ops := rfl
@[simp] theorem State.emitVal_scores (s : State) (i : Instr) (w : Fields) (v : Word) : (s.emitVal i w v).scores = s.scores := rfl
@[simp] theorem State.emitVal_regions (s : State) (i : Instr) (w : Fields) (v : Word) : (s.emitVal i w v).regions = s.regions := rfl
@[simp] theorem State.emitVal_latch (s : State) (i : Instr) (w : Fields) (v : Word) : (s.emitVal i w v).latch = s.latch := rfl
@[simp] theorem State.emitVal_nodes (s : State) (i : Instr) (w : Fields) (v : Word) : (s.emitVal i w v).nodes = s.nodes := rfl
@[simp] theorem State.emitVal_units (s : State) (i : Instr) (w : Fields) (v : Word) : (s.emitVal i w v).units = s.units := rfl
@[simp] theorem State.emitVal_mem (s : State) (i : Instr) (w : Fields) (v : Word) : (s.emitVal i w v).mem = s.mem := rfl
@[simp] theorem State.emitVal_poisoned (s : State) (i : Instr) (w : Fields) (v : Word) : (s.emitVal i w v).poisoned = s.poisoned := rfl
@[simp] theorem State.emitVal_vmem (s : State) (i : Instr) (w : Fields) (v : Word) : (s.emitVal i w v).vmem = s.vmem := rfl
@[simp] theorem State.emitVal_vlines (s : State) (i : Instr) (w : Fields) (v : Word) : (s.emitVal i w v).vlines = s.vlines := rfl
@[simp] theorem State.emitVal_presence (s : State) (i : Instr) (w : Fields) (v : Word) : (s.emitVal i w v).presence = s.presence := rfl
@[simp] theorem State.emitVal_vwritten (s : State) (i : Instr) (w : Fields) (v : Word) : (s.emitVal i w v).vwritten = s.vwritten := rfl
@[simp] theorem State.emitVal_fills (s : State) (i : Instr) (w : Fields) (v : Word) : (s.emitVal i w v).fills = s.fills := rfl
@[simp] theorem State.emitVal_framePrio (s : State) (i : Instr) (w : Fields) (v : Word) : (s.emitVal i w v).framePrio = s.framePrio := rfl
@[simp] theorem State.emitVal_holdWaits (s : State) (i : Instr) (w : Fields) (v : Word) : (s.emitVal i w v).holdWaits = s.holdWaits := rfl
@[simp] theorem State.emitVal_dir (s : State) (i : Instr) (w : Fields) (v : Word) : (s.emitVal i w v).dir = s.dir := rfl
@[simp] theorem State.emitVal_copies (s : State) (i : Instr) (w : Fields) (v : Word) : (s.emitVal i w v).copies = s.copies := rfl
@[simp] theorem State.emitVal_reqs (s : State) (i : Instr) (w : Fields) (v : Word) : (s.emitVal i w v).reqs = s.reqs := rfl
@[simp] theorem State.emitVal_answers (s : State) (i : Instr) (w : Fields) (v : Word) : (s.emitVal i w v).answers = s.answers := rfl
@[simp] theorem State.emitVal_replicas (s : State) (i : Instr) (w : Fields) (v : Word) : (s.emitVal i w v).replicas = s.replicas := rfl
@[simp] theorem State.emitVal_net (s : State) (i : Instr) (w : Fields) (v : Word) : (s.emitVal i w v).net = s.net := rfl
@[simp] theorem State.emitVal_homeWait (s : State) (i : Instr) (w : Fields) (v : Word) : (s.emitVal i w v).homeWait = s.homeWait := rfl
@[simp] theorem State.emitVal_collecting (s : State) (i : Instr) (w : Fields) (v : Word) : (s.emitVal i w v).collecting = s.collecting := rfl
@[simp] theorem State.emitVal_recalls (s : State) (i : Instr) (w : Fields) (v : Word) : (s.emitVal i w v).recalls = s.recalls := rfl
@[simp] theorem State.emitVal_pers (s : State) (i : Instr) (w : Fields) (v : Word) : (s.emitVal i w v).pers = s.pers := rfl
@[simp] theorem State.emitVal_frz (s : State) (i : Instr) (w : Fields) (v : Word) : (s.emitVal i w v).frz = s.frz := rfl
@[simp] theorem State.emitVal_gens (s : State) (i : Instr) (w : Fields) (v : Word) : (s.emitVal i w v).gens = s.gens := rfl
@[simp] theorem State.emitVal_genWait (s : State) (i : Instr) (w : Fields) (v : Word) : (s.emitVal i w v).genWait = s.genWait := rfl
@[simp] theorem State.emitVal_sweeps (s : State) (i : Instr) (w : Fields) (v : Word) : (s.emitVal i w v).sweeps = s.sweeps := rfl
@[simp] theorem State.emitVal_pageOrder (s : State) (i : Instr) (w : Fields) (v : Word) : (s.emitVal i w v).pageOrder = s.pageOrder := rfl
@[simp] theorem State.emitVal_paying (s : State) (i : Instr) (w : Fields) (v : Word) : (s.emitVal i w v).paying = s.paying := rfl
@[simp] theorem State.emitVal_farPages (s : State) (i : Instr) (w : Fields) (v : Word) : (s.emitVal i w v).farPages = s.farPages := rfl
@[simp] theorem State.emitVal_dooms (s : State) (i : Instr) (w : Fields) (v : Word) : (s.emitVal i w v).dooms = s.dooms := rfl
@[simp] theorem State.emitVal_fmt (s : State) (i : Instr) (w : Fields) (v : Word) : (s.emitVal i w v).fmt = s.fmt := rfl
@[simp] theorem State.emitVal_sliceOwner (s : State) (i : Instr) (w : Fields) (v : Word) : (s.emitVal i w v).sliceOwner = s.sliceOwner := rfl
@[simp] theorem State.emitVal_quayPart (s : State) (i : Instr) (w : Fields) (v : Word) : (s.emitVal i w v).quayPart = s.quayPart := rfl
@[simp] theorem State.emitVal_absent (s : State) (i : Instr) (w : Fields) (v : Word) : (s.emitVal i w v).absent = s.absent := rfl
@[simp] theorem State.emitVal_partOwner (s : State) (i : Instr) (w : Fields) (v : Word) : (s.emitVal i w v).partOwner = s.partOwner := rfl
@[simp] theorem State.emitVal_partNet (s : State) (i : Instr) (w : Fields) (v : Word) : (s.emitVal i w v).partNet = s.partNet := rfl
@[simp] theorem State.emitVal_netpol (s : State) (i : Instr) (w : Fields) (v : Word) : (s.emitVal i w v).netpol = s.netpol := rfl
@[simp] theorem State.emitVal_tlb (s : State) (i : Instr) (w : Fields) (v : Word) : (s.emitVal i w v).tlb = s.tlb := rfl
@[simp] theorem State.emitVal_walks (s : State) (i : Instr) (w : Fields) (v : Word) : (s.emitVal i w v).walks = s.walks := rfl
@[simp] theorem State.emitVal_pgreqs (s : State) (i : Instr) (w : Fields) (v : Word) : (s.emitVal i w v).pgreqs = s.pgreqs := rfl
@[simp] theorem State.emitVal_ctxs (s : State) (i : Instr) (w : Fields) (v : Word) : (s.emitVal i w v).ctxs = s.ctxs := rfl
@[simp] theorem State.emitVal_quayCtx (s : State) (i : Instr) (w : Fields) (v : Word) : (s.emitVal i w v).quayCtx = s.quayCtx := rfl
@[simp] theorem State.emitVal_ctxq (s : State) (i : Instr) (w : Fields) (v : Word) : (s.emitVal i w v).ctxq = s.ctxq := rfl
@[simp] theorem State.emitVal_handovers (s : State) (i : Instr) (w : Fields) (v : Word) : (s.emitVal i w v).handovers = s.handovers := rfl
@[simp] theorem State.emitVal_preempts (s : State) (i : Instr) (w : Fields) (v : Word) : (s.emitVal i w v).preempts = s.preempts := rfl
@[simp] theorem State.emitVal_saves (s : State) (i : Instr) (w : Fields) (v : Word) : (s.emitVal i w v).saves = s.saves := rfl
@[simp] theorem State.emitVal_areaDue (s : State) (i : Instr) (w : Fields) (v : Word) : (s.emitVal i w v).areaDue = s.areaDue := rfl
@[simp] theorem State.emitVal_sections (s : State) (i : Instr) (w : Fields) (v : Word) : (s.emitVal i w v).sections = s.sections := rfl
@[simp] theorem State.emitVal_quota (s : State) (i : Instr) (w : Fields) (v : Word) : (s.emitVal i w v).quota = s.quota := rfl
@[simp] theorem State.emitVal_meters (s : State) (i : Instr) (w : Fields) (v : Word) : (s.emitVal i w v).meters = s.meters := rfl
@[simp] theorem State.emitVal_launches (s : State) (i : Instr) (w : Fields) (v : Word) : (s.emitVal i w v).launches = s.launches := rfl
@[simp] theorem State.emitVal_ready (s : State) (i : Instr) (w : Fields) (v : Word) : (s.emitVal i w v).ready = s.ready := rfl
@[simp] theorem State.emitVal_lastQueue (s : State) (i : Instr) (w : Fields) (v : Word) : (s.emitVal i w v).lastQueue = s.lastQueue := rfl
@[simp] theorem State.emitVal_inbox (s : State) (i : Instr) (w : Fields) (v : Word) : (s.emitVal i w v).inbox = s.inbox := rfl
@[simp] theorem State.emitVal_outbox (s : State) (i : Instr) (w : Fields) (v : Word) : (s.emitVal i w v).outbox = s.outbox := rfl
@[simp] theorem State.emitVal_links (s : State) (i : Instr) (w : Fields) (v : Word) : (s.emitVal i w v).links = s.links := rfl
@[simp] theorem State.emitVal_remotes (s : State) (i : Instr) (w : Fields) (v : Word) : (s.emitVal i w v).remotes = s.remotes := rfl
@[simp] theorem State.emitVal_remoteHolds (s : State) (i : Instr) (w : Fields) (v : Word) : (s.emitVal i w v).remoteHolds = s.remoteHolds := rfl
@[simp] theorem State.emitVal_farRanks (s : State) (i : Instr) (w : Fields) (v : Word) : (s.emitVal i w v).farRanks = s.farRanks := rfl
@[simp] theorem State.emitVal_collIn (s : State) (i : Instr) (w : Fields) (v : Word) : (s.emitVal i w v).collIn = s.collIn := rfl
@[simp] theorem State.emitVal_domain (s : State) (i : Instr) (w : Fields) (v : Word) : (s.emitVal i w v).domain = s.domain := rfl
@[simp] theorem State.emitVal_upsets (s : State) (i : Instr) (w : Fields) (v : Word) : (s.emitVal i w v).upsets = s.upsets := rfl

/-! ### `trapHere` changes the current pass alone -/

@[simp] theorem State.trapHere_agenda (s : State) (i : Instr) (w : Fields) (c : BitVec 8) (a : Word) : (s.trapHere i w c a).agenda = s.agenda := rfl
@[simp] theorem State.trapHere_freeCtr (s : State) (i : Instr) (w : Fields) (c : BitVec 8) (a : Word) : (s.trapHere i w c a).freeCtr = s.freeCtr := rfl
@[simp] theorem State.trapHere_turn (s : State) (i : Instr) (w : Fields) (c : BitVec 8) (a : Word) : (s.trapHere i w c a).turn = s.turn := rfl
@[simp] theorem State.trapHere_clock (s : State) (i : Instr) (w : Fields) (c : BitVec 8) (a : Word) : (s.trapHere i w c a).clock = s.clock := rfl
@[simp] theorem State.trapHere_nextId (s : State) (i : Instr) (w : Fields) (c : BitVec 8) (a : Word) : (s.trapHere i w c a).nextId = s.nextId := rfl
@[simp] theorem State.trapHere_dev (s : State) (i : Instr) (w : Fields) (c : BitVec 8) (a : Word) : (s.trapHere i w c a).dev = s.dev := rfl
@[simp] theorem State.trapHere_parked (s : State) (i : Instr) (w : Fields) (c : BitVec 8) (a : Word) : (s.trapHere i w c a).parked = s.parked := rfl
@[simp] theorem State.trapHere_threads (s : State) (i : Instr) (w : Fields) (c : BitVec 8) (a : Word) : (s.trapHere i w c a).threads = s.threads := rfl
@[simp] theorem State.trapHere_entries (s : State) (i : Instr) (w : Fields) (c : BitVec 8) (a : Word) : (s.trapHere i w c a).entries = s.entries := rfl
@[simp] theorem State.trapHere_planes (s : State) (i : Instr) (w : Fields) (c : BitVec 8) (a : Word) : (s.trapHere i w c a).planes = s.planes := rfl
@[simp] theorem State.trapHere_groups (s : State) (i : Instr) (w : Fields) (c : BitVec 8) (a : Word) : (s.trapHere i w c a).groups = s.groups := rfl
@[simp] theorem State.trapHere_greds (s : State) (i : Instr) (w : Fields) (c : BitVec 8) (a : Word) : (s.trapHere i w c a).greds = s.greds := rfl
@[simp] theorem State.trapHere_waits (s : State) (i : Instr) (w : Fields) (c : BitVec 8) (a : Word) : (s.trapHere i w c a).waits = s.waits := rfl
@[simp] theorem State.trapHere_bollards (s : State) (i : Instr) (w : Fields) (c : BitVec 8) (a : Word) : (s.trapHere i w c a).bollards = s.bollards := rfl
@[simp] theorem State.trapHere_weighed (s : State) (i : Instr) (w : Fields) (c : BitVec 8) (a : Word) : (s.trapHere i w c a).weighed = s.weighed := rfl
@[simp] theorem State.trapHere_ops (s : State) (i : Instr) (w : Fields) (c : BitVec 8) (a : Word) : (s.trapHere i w c a).ops = s.ops := rfl
@[simp] theorem State.trapHere_scores (s : State) (i : Instr) (w : Fields) (c : BitVec 8) (a : Word) : (s.trapHere i w c a).scores = s.scores := rfl
@[simp] theorem State.trapHere_regions (s : State) (i : Instr) (w : Fields) (c : BitVec 8) (a : Word) : (s.trapHere i w c a).regions = s.regions := rfl
@[simp] theorem State.trapHere_latch (s : State) (i : Instr) (w : Fields) (c : BitVec 8) (a : Word) : (s.trapHere i w c a).latch = s.latch := rfl
@[simp] theorem State.trapHere_nodes (s : State) (i : Instr) (w : Fields) (c : BitVec 8) (a : Word) : (s.trapHere i w c a).nodes = s.nodes := rfl
@[simp] theorem State.trapHere_units (s : State) (i : Instr) (w : Fields) (c : BitVec 8) (a : Word) : (s.trapHere i w c a).units = s.units := rfl
@[simp] theorem State.trapHere_mem (s : State) (i : Instr) (w : Fields) (c : BitVec 8) (a : Word) : (s.trapHere i w c a).mem = s.mem := rfl
@[simp] theorem State.trapHere_poisoned (s : State) (i : Instr) (w : Fields) (c : BitVec 8) (a : Word) : (s.trapHere i w c a).poisoned = s.poisoned := rfl
@[simp] theorem State.trapHere_vmem (s : State) (i : Instr) (w : Fields) (c : BitVec 8) (a : Word) : (s.trapHere i w c a).vmem = s.vmem := rfl
@[simp] theorem State.trapHere_vlines (s : State) (i : Instr) (w : Fields) (c : BitVec 8) (a : Word) : (s.trapHere i w c a).vlines = s.vlines := rfl
@[simp] theorem State.trapHere_presence (s : State) (i : Instr) (w : Fields) (c : BitVec 8) (a : Word) : (s.trapHere i w c a).presence = s.presence := rfl
@[simp] theorem State.trapHere_vwritten (s : State) (i : Instr) (w : Fields) (c : BitVec 8) (a : Word) : (s.trapHere i w c a).vwritten = s.vwritten := rfl
@[simp] theorem State.trapHere_fills (s : State) (i : Instr) (w : Fields) (c : BitVec 8) (a : Word) : (s.trapHere i w c a).fills = s.fills := rfl
@[simp] theorem State.trapHere_framePrio (s : State) (i : Instr) (w : Fields) (c : BitVec 8) (a : Word) : (s.trapHere i w c a).framePrio = s.framePrio := rfl
@[simp] theorem State.trapHere_holdWaits (s : State) (i : Instr) (w : Fields) (c : BitVec 8) (a : Word) : (s.trapHere i w c a).holdWaits = s.holdWaits := rfl
@[simp] theorem State.trapHere_dir (s : State) (i : Instr) (w : Fields) (c : BitVec 8) (a : Word) : (s.trapHere i w c a).dir = s.dir := rfl
@[simp] theorem State.trapHere_copies (s : State) (i : Instr) (w : Fields) (c : BitVec 8) (a : Word) : (s.trapHere i w c a).copies = s.copies := rfl
@[simp] theorem State.trapHere_reqs (s : State) (i : Instr) (w : Fields) (c : BitVec 8) (a : Word) : (s.trapHere i w c a).reqs = s.reqs := rfl
@[simp] theorem State.trapHere_answers (s : State) (i : Instr) (w : Fields) (c : BitVec 8) (a : Word) : (s.trapHere i w c a).answers = s.answers := rfl
@[simp] theorem State.trapHere_replicas (s : State) (i : Instr) (w : Fields) (c : BitVec 8) (a : Word) : (s.trapHere i w c a).replicas = s.replicas := rfl
@[simp] theorem State.trapHere_net (s : State) (i : Instr) (w : Fields) (c : BitVec 8) (a : Word) : (s.trapHere i w c a).net = s.net := rfl
@[simp] theorem State.trapHere_homeWait (s : State) (i : Instr) (w : Fields) (c : BitVec 8) (a : Word) : (s.trapHere i w c a).homeWait = s.homeWait := rfl
@[simp] theorem State.trapHere_collecting (s : State) (i : Instr) (w : Fields) (c : BitVec 8) (a : Word) : (s.trapHere i w c a).collecting = s.collecting := rfl
@[simp] theorem State.trapHere_recalls (s : State) (i : Instr) (w : Fields) (c : BitVec 8) (a : Word) : (s.trapHere i w c a).recalls = s.recalls := rfl
@[simp] theorem State.trapHere_pers (s : State) (i : Instr) (w : Fields) (c : BitVec 8) (a : Word) : (s.trapHere i w c a).pers = s.pers := rfl
@[simp] theorem State.trapHere_frz (s : State) (i : Instr) (w : Fields) (c : BitVec 8) (a : Word) : (s.trapHere i w c a).frz = s.frz := rfl
@[simp] theorem State.trapHere_gens (s : State) (i : Instr) (w : Fields) (c : BitVec 8) (a : Word) : (s.trapHere i w c a).gens = s.gens := rfl
@[simp] theorem State.trapHere_genWait (s : State) (i : Instr) (w : Fields) (c : BitVec 8) (a : Word) : (s.trapHere i w c a).genWait = s.genWait := rfl
@[simp] theorem State.trapHere_sweeps (s : State) (i : Instr) (w : Fields) (c : BitVec 8) (a : Word) : (s.trapHere i w c a).sweeps = s.sweeps := rfl
@[simp] theorem State.trapHere_pageOrder (s : State) (i : Instr) (w : Fields) (c : BitVec 8) (a : Word) : (s.trapHere i w c a).pageOrder = s.pageOrder := rfl
@[simp] theorem State.trapHere_paying (s : State) (i : Instr) (w : Fields) (c : BitVec 8) (a : Word) : (s.trapHere i w c a).paying = s.paying := rfl
@[simp] theorem State.trapHere_farPages (s : State) (i : Instr) (w : Fields) (c : BitVec 8) (a : Word) : (s.trapHere i w c a).farPages = s.farPages := rfl
@[simp] theorem State.trapHere_dooms (s : State) (i : Instr) (w : Fields) (c : BitVec 8) (a : Word) : (s.trapHere i w c a).dooms = s.dooms := rfl
@[simp] theorem State.trapHere_fmt (s : State) (i : Instr) (w : Fields) (c : BitVec 8) (a : Word) : (s.trapHere i w c a).fmt = s.fmt := rfl
@[simp] theorem State.trapHere_sliceOwner (s : State) (i : Instr) (w : Fields) (c : BitVec 8) (a : Word) : (s.trapHere i w c a).sliceOwner = s.sliceOwner := rfl
@[simp] theorem State.trapHere_quayPart (s : State) (i : Instr) (w : Fields) (c : BitVec 8) (a : Word) : (s.trapHere i w c a).quayPart = s.quayPart := rfl
@[simp] theorem State.trapHere_absent (s : State) (i : Instr) (w : Fields) (c : BitVec 8) (a : Word) : (s.trapHere i w c a).absent = s.absent := rfl
@[simp] theorem State.trapHere_partOwner (s : State) (i : Instr) (w : Fields) (c : BitVec 8) (a : Word) : (s.trapHere i w c a).partOwner = s.partOwner := rfl
@[simp] theorem State.trapHere_partNet (s : State) (i : Instr) (w : Fields) (c : BitVec 8) (a : Word) : (s.trapHere i w c a).partNet = s.partNet := rfl
@[simp] theorem State.trapHere_netpol (s : State) (i : Instr) (w : Fields) (c : BitVec 8) (a : Word) : (s.trapHere i w c a).netpol = s.netpol := rfl
@[simp] theorem State.trapHere_tlb (s : State) (i : Instr) (w : Fields) (c : BitVec 8) (a : Word) : (s.trapHere i w c a).tlb = s.tlb := rfl
@[simp] theorem State.trapHere_walks (s : State) (i : Instr) (w : Fields) (c : BitVec 8) (a : Word) : (s.trapHere i w c a).walks = s.walks := rfl
@[simp] theorem State.trapHere_pgreqs (s : State) (i : Instr) (w : Fields) (c : BitVec 8) (a : Word) : (s.trapHere i w c a).pgreqs = s.pgreqs := rfl
@[simp] theorem State.trapHere_ctxs (s : State) (i : Instr) (w : Fields) (c : BitVec 8) (a : Word) : (s.trapHere i w c a).ctxs = s.ctxs := rfl
@[simp] theorem State.trapHere_quayCtx (s : State) (i : Instr) (w : Fields) (c : BitVec 8) (a : Word) : (s.trapHere i w c a).quayCtx = s.quayCtx := rfl
@[simp] theorem State.trapHere_ctxq (s : State) (i : Instr) (w : Fields) (c : BitVec 8) (a : Word) : (s.trapHere i w c a).ctxq = s.ctxq := rfl
@[simp] theorem State.trapHere_handovers (s : State) (i : Instr) (w : Fields) (c : BitVec 8) (a : Word) : (s.trapHere i w c a).handovers = s.handovers := rfl
@[simp] theorem State.trapHere_preempts (s : State) (i : Instr) (w : Fields) (c : BitVec 8) (a : Word) : (s.trapHere i w c a).preempts = s.preempts := rfl
@[simp] theorem State.trapHere_saves (s : State) (i : Instr) (w : Fields) (c : BitVec 8) (a : Word) : (s.trapHere i w c a).saves = s.saves := rfl
@[simp] theorem State.trapHere_areaDue (s : State) (i : Instr) (w : Fields) (c : BitVec 8) (a : Word) : (s.trapHere i w c a).areaDue = s.areaDue := rfl
@[simp] theorem State.trapHere_sections (s : State) (i : Instr) (w : Fields) (c : BitVec 8) (a : Word) : (s.trapHere i w c a).sections = s.sections := rfl
@[simp] theorem State.trapHere_quota (s : State) (i : Instr) (w : Fields) (c : BitVec 8) (a : Word) : (s.trapHere i w c a).quota = s.quota := rfl
@[simp] theorem State.trapHere_meters (s : State) (i : Instr) (w : Fields) (c : BitVec 8) (a : Word) : (s.trapHere i w c a).meters = s.meters := rfl
@[simp] theorem State.trapHere_launches (s : State) (i : Instr) (w : Fields) (c : BitVec 8) (a : Word) : (s.trapHere i w c a).launches = s.launches := rfl
@[simp] theorem State.trapHere_ready (s : State) (i : Instr) (w : Fields) (c : BitVec 8) (a : Word) : (s.trapHere i w c a).ready = s.ready := rfl
@[simp] theorem State.trapHere_lastQueue (s : State) (i : Instr) (w : Fields) (c : BitVec 8) (a : Word) : (s.trapHere i w c a).lastQueue = s.lastQueue := rfl
@[simp] theorem State.trapHere_inbox (s : State) (i : Instr) (w : Fields) (c : BitVec 8) (a : Word) : (s.trapHere i w c a).inbox = s.inbox := rfl
@[simp] theorem State.trapHere_outbox (s : State) (i : Instr) (w : Fields) (c : BitVec 8) (a : Word) : (s.trapHere i w c a).outbox = s.outbox := rfl
@[simp] theorem State.trapHere_links (s : State) (i : Instr) (w : Fields) (c : BitVec 8) (a : Word) : (s.trapHere i w c a).links = s.links := rfl
@[simp] theorem State.trapHere_remotes (s : State) (i : Instr) (w : Fields) (c : BitVec 8) (a : Word) : (s.trapHere i w c a).remotes = s.remotes := rfl
@[simp] theorem State.trapHere_remoteHolds (s : State) (i : Instr) (w : Fields) (c : BitVec 8) (a : Word) : (s.trapHere i w c a).remoteHolds = s.remoteHolds := rfl
@[simp] theorem State.trapHere_farRanks (s : State) (i : Instr) (w : Fields) (c : BitVec 8) (a : Word) : (s.trapHere i w c a).farRanks = s.farRanks := rfl
@[simp] theorem State.trapHere_collIn (s : State) (i : Instr) (w : Fields) (c : BitVec 8) (a : Word) : (s.trapHere i w c a).collIn = s.collIn := rfl
@[simp] theorem State.trapHere_domain (s : State) (i : Instr) (w : Fields) (c : BitVec 8) (a : Word) : (s.trapHere i w c a).domain = s.domain := rfl
@[simp] theorem State.trapHere_upsets (s : State) (i : Instr) (w : Fields) (c : BitVec 8) (a : Word) : (s.trapHere i w c a).upsets = s.upsets := rfl

/-! ### `branch` changes the current pass alone -/

@[simp] theorem State.branch_agenda (s : State) (i : Instr) (w : Fields) (a : Word) (k : BranchKind) : (s.branch i w a k).agenda = s.agenda := rfl
@[simp] theorem State.branch_freeCtr (s : State) (i : Instr) (w : Fields) (a : Word) (k : BranchKind) : (s.branch i w a k).freeCtr = s.freeCtr := rfl
@[simp] theorem State.branch_turn (s : State) (i : Instr) (w : Fields) (a : Word) (k : BranchKind) : (s.branch i w a k).turn = s.turn := rfl
@[simp] theorem State.branch_clock (s : State) (i : Instr) (w : Fields) (a : Word) (k : BranchKind) : (s.branch i w a k).clock = s.clock := rfl
@[simp] theorem State.branch_nextId (s : State) (i : Instr) (w : Fields) (a : Word) (k : BranchKind) : (s.branch i w a k).nextId = s.nextId := rfl
@[simp] theorem State.branch_dev (s : State) (i : Instr) (w : Fields) (a : Word) (k : BranchKind) : (s.branch i w a k).dev = s.dev := rfl
@[simp] theorem State.branch_parked (s : State) (i : Instr) (w : Fields) (a : Word) (k : BranchKind) : (s.branch i w a k).parked = s.parked := rfl
@[simp] theorem State.branch_threads (s : State) (i : Instr) (w : Fields) (a : Word) (k : BranchKind) : (s.branch i w a k).threads = s.threads := rfl
@[simp] theorem State.branch_entries (s : State) (i : Instr) (w : Fields) (a : Word) (k : BranchKind) : (s.branch i w a k).entries = s.entries := rfl
@[simp] theorem State.branch_planes (s : State) (i : Instr) (w : Fields) (a : Word) (k : BranchKind) : (s.branch i w a k).planes = s.planes := rfl
@[simp] theorem State.branch_groups (s : State) (i : Instr) (w : Fields) (a : Word) (k : BranchKind) : (s.branch i w a k).groups = s.groups := rfl
@[simp] theorem State.branch_greds (s : State) (i : Instr) (w : Fields) (a : Word) (k : BranchKind) : (s.branch i w a k).greds = s.greds := rfl
@[simp] theorem State.branch_waits (s : State) (i : Instr) (w : Fields) (a : Word) (k : BranchKind) : (s.branch i w a k).waits = s.waits := rfl
@[simp] theorem State.branch_bollards (s : State) (i : Instr) (w : Fields) (a : Word) (k : BranchKind) : (s.branch i w a k).bollards = s.bollards := rfl
@[simp] theorem State.branch_weighed (s : State) (i : Instr) (w : Fields) (a : Word) (k : BranchKind) : (s.branch i w a k).weighed = s.weighed := rfl
@[simp] theorem State.branch_ops (s : State) (i : Instr) (w : Fields) (a : Word) (k : BranchKind) : (s.branch i w a k).ops = s.ops := rfl
@[simp] theorem State.branch_scores (s : State) (i : Instr) (w : Fields) (a : Word) (k : BranchKind) : (s.branch i w a k).scores = s.scores := rfl
@[simp] theorem State.branch_regions (s : State) (i : Instr) (w : Fields) (a : Word) (k : BranchKind) : (s.branch i w a k).regions = s.regions := rfl
@[simp] theorem State.branch_latch (s : State) (i : Instr) (w : Fields) (a : Word) (k : BranchKind) : (s.branch i w a k).latch = s.latch := rfl
@[simp] theorem State.branch_nodes (s : State) (i : Instr) (w : Fields) (a : Word) (k : BranchKind) : (s.branch i w a k).nodes = s.nodes := rfl
@[simp] theorem State.branch_units (s : State) (i : Instr) (w : Fields) (a : Word) (k : BranchKind) : (s.branch i w a k).units = s.units := rfl
@[simp] theorem State.branch_mem (s : State) (i : Instr) (w : Fields) (a : Word) (k : BranchKind) : (s.branch i w a k).mem = s.mem := rfl
@[simp] theorem State.branch_poisoned (s : State) (i : Instr) (w : Fields) (a : Word) (k : BranchKind) : (s.branch i w a k).poisoned = s.poisoned := rfl
@[simp] theorem State.branch_vmem (s : State) (i : Instr) (w : Fields) (a : Word) (k : BranchKind) : (s.branch i w a k).vmem = s.vmem := rfl
@[simp] theorem State.branch_vlines (s : State) (i : Instr) (w : Fields) (a : Word) (k : BranchKind) : (s.branch i w a k).vlines = s.vlines := rfl
@[simp] theorem State.branch_presence (s : State) (i : Instr) (w : Fields) (a : Word) (k : BranchKind) : (s.branch i w a k).presence = s.presence := rfl
@[simp] theorem State.branch_vwritten (s : State) (i : Instr) (w : Fields) (a : Word) (k : BranchKind) : (s.branch i w a k).vwritten = s.vwritten := rfl
@[simp] theorem State.branch_fills (s : State) (i : Instr) (w : Fields) (a : Word) (k : BranchKind) : (s.branch i w a k).fills = s.fills := rfl
@[simp] theorem State.branch_framePrio (s : State) (i : Instr) (w : Fields) (a : Word) (k : BranchKind) : (s.branch i w a k).framePrio = s.framePrio := rfl
@[simp] theorem State.branch_holdWaits (s : State) (i : Instr) (w : Fields) (a : Word) (k : BranchKind) : (s.branch i w a k).holdWaits = s.holdWaits := rfl
@[simp] theorem State.branch_dir (s : State) (i : Instr) (w : Fields) (a : Word) (k : BranchKind) : (s.branch i w a k).dir = s.dir := rfl
@[simp] theorem State.branch_copies (s : State) (i : Instr) (w : Fields) (a : Word) (k : BranchKind) : (s.branch i w a k).copies = s.copies := rfl
@[simp] theorem State.branch_reqs (s : State) (i : Instr) (w : Fields) (a : Word) (k : BranchKind) : (s.branch i w a k).reqs = s.reqs := rfl
@[simp] theorem State.branch_answers (s : State) (i : Instr) (w : Fields) (a : Word) (k : BranchKind) : (s.branch i w a k).answers = s.answers := rfl
@[simp] theorem State.branch_replicas (s : State) (i : Instr) (w : Fields) (a : Word) (k : BranchKind) : (s.branch i w a k).replicas = s.replicas := rfl
@[simp] theorem State.branch_net (s : State) (i : Instr) (w : Fields) (a : Word) (k : BranchKind) : (s.branch i w a k).net = s.net := rfl
@[simp] theorem State.branch_homeWait (s : State) (i : Instr) (w : Fields) (a : Word) (k : BranchKind) : (s.branch i w a k).homeWait = s.homeWait := rfl
@[simp] theorem State.branch_collecting (s : State) (i : Instr) (w : Fields) (a : Word) (k : BranchKind) : (s.branch i w a k).collecting = s.collecting := rfl
@[simp] theorem State.branch_recalls (s : State) (i : Instr) (w : Fields) (a : Word) (k : BranchKind) : (s.branch i w a k).recalls = s.recalls := rfl
@[simp] theorem State.branch_pers (s : State) (i : Instr) (w : Fields) (a : Word) (k : BranchKind) : (s.branch i w a k).pers = s.pers := rfl
@[simp] theorem State.branch_frz (s : State) (i : Instr) (w : Fields) (a : Word) (k : BranchKind) : (s.branch i w a k).frz = s.frz := rfl
@[simp] theorem State.branch_gens (s : State) (i : Instr) (w : Fields) (a : Word) (k : BranchKind) : (s.branch i w a k).gens = s.gens := rfl
@[simp] theorem State.branch_genWait (s : State) (i : Instr) (w : Fields) (a : Word) (k : BranchKind) : (s.branch i w a k).genWait = s.genWait := rfl
@[simp] theorem State.branch_sweeps (s : State) (i : Instr) (w : Fields) (a : Word) (k : BranchKind) : (s.branch i w a k).sweeps = s.sweeps := rfl
@[simp] theorem State.branch_pageOrder (s : State) (i : Instr) (w : Fields) (a : Word) (k : BranchKind) : (s.branch i w a k).pageOrder = s.pageOrder := rfl
@[simp] theorem State.branch_paying (s : State) (i : Instr) (w : Fields) (a : Word) (k : BranchKind) : (s.branch i w a k).paying = s.paying := rfl
@[simp] theorem State.branch_farPages (s : State) (i : Instr) (w : Fields) (a : Word) (k : BranchKind) : (s.branch i w a k).farPages = s.farPages := rfl
@[simp] theorem State.branch_dooms (s : State) (i : Instr) (w : Fields) (a : Word) (k : BranchKind) : (s.branch i w a k).dooms = s.dooms := rfl
@[simp] theorem State.branch_fmt (s : State) (i : Instr) (w : Fields) (a : Word) (k : BranchKind) : (s.branch i w a k).fmt = s.fmt := rfl
@[simp] theorem State.branch_sliceOwner (s : State) (i : Instr) (w : Fields) (a : Word) (k : BranchKind) : (s.branch i w a k).sliceOwner = s.sliceOwner := rfl
@[simp] theorem State.branch_quayPart (s : State) (i : Instr) (w : Fields) (a : Word) (k : BranchKind) : (s.branch i w a k).quayPart = s.quayPart := rfl
@[simp] theorem State.branch_absent (s : State) (i : Instr) (w : Fields) (a : Word) (k : BranchKind) : (s.branch i w a k).absent = s.absent := rfl
@[simp] theorem State.branch_partOwner (s : State) (i : Instr) (w : Fields) (a : Word) (k : BranchKind) : (s.branch i w a k).partOwner = s.partOwner := rfl
@[simp] theorem State.branch_partNet (s : State) (i : Instr) (w : Fields) (a : Word) (k : BranchKind) : (s.branch i w a k).partNet = s.partNet := rfl
@[simp] theorem State.branch_netpol (s : State) (i : Instr) (w : Fields) (a : Word) (k : BranchKind) : (s.branch i w a k).netpol = s.netpol := rfl
@[simp] theorem State.branch_tlb (s : State) (i : Instr) (w : Fields) (a : Word) (k : BranchKind) : (s.branch i w a k).tlb = s.tlb := rfl
@[simp] theorem State.branch_walks (s : State) (i : Instr) (w : Fields) (a : Word) (k : BranchKind) : (s.branch i w a k).walks = s.walks := rfl
@[simp] theorem State.branch_pgreqs (s : State) (i : Instr) (w : Fields) (a : Word) (k : BranchKind) : (s.branch i w a k).pgreqs = s.pgreqs := rfl
@[simp] theorem State.branch_ctxs (s : State) (i : Instr) (w : Fields) (a : Word) (k : BranchKind) : (s.branch i w a k).ctxs = s.ctxs := rfl
@[simp] theorem State.branch_quayCtx (s : State) (i : Instr) (w : Fields) (a : Word) (k : BranchKind) : (s.branch i w a k).quayCtx = s.quayCtx := rfl
@[simp] theorem State.branch_ctxq (s : State) (i : Instr) (w : Fields) (a : Word) (k : BranchKind) : (s.branch i w a k).ctxq = s.ctxq := rfl
@[simp] theorem State.branch_handovers (s : State) (i : Instr) (w : Fields) (a : Word) (k : BranchKind) : (s.branch i w a k).handovers = s.handovers := rfl
@[simp] theorem State.branch_preempts (s : State) (i : Instr) (w : Fields) (a : Word) (k : BranchKind) : (s.branch i w a k).preempts = s.preempts := rfl
@[simp] theorem State.branch_saves (s : State) (i : Instr) (w : Fields) (a : Word) (k : BranchKind) : (s.branch i w a k).saves = s.saves := rfl
@[simp] theorem State.branch_areaDue (s : State) (i : Instr) (w : Fields) (a : Word) (k : BranchKind) : (s.branch i w a k).areaDue = s.areaDue := rfl
@[simp] theorem State.branch_sections (s : State) (i : Instr) (w : Fields) (a : Word) (k : BranchKind) : (s.branch i w a k).sections = s.sections := rfl
@[simp] theorem State.branch_quota (s : State) (i : Instr) (w : Fields) (a : Word) (k : BranchKind) : (s.branch i w a k).quota = s.quota := rfl
@[simp] theorem State.branch_meters (s : State) (i : Instr) (w : Fields) (a : Word) (k : BranchKind) : (s.branch i w a k).meters = s.meters := rfl
@[simp] theorem State.branch_launches (s : State) (i : Instr) (w : Fields) (a : Word) (k : BranchKind) : (s.branch i w a k).launches = s.launches := rfl
@[simp] theorem State.branch_ready (s : State) (i : Instr) (w : Fields) (a : Word) (k : BranchKind) : (s.branch i w a k).ready = s.ready := rfl
@[simp] theorem State.branch_lastQueue (s : State) (i : Instr) (w : Fields) (a : Word) (k : BranchKind) : (s.branch i w a k).lastQueue = s.lastQueue := rfl
@[simp] theorem State.branch_inbox (s : State) (i : Instr) (w : Fields) (a : Word) (k : BranchKind) : (s.branch i w a k).inbox = s.inbox := rfl
@[simp] theorem State.branch_outbox (s : State) (i : Instr) (w : Fields) (a : Word) (k : BranchKind) : (s.branch i w a k).outbox = s.outbox := rfl
@[simp] theorem State.branch_links (s : State) (i : Instr) (w : Fields) (a : Word) (k : BranchKind) : (s.branch i w a k).links = s.links := rfl
@[simp] theorem State.branch_remotes (s : State) (i : Instr) (w : Fields) (a : Word) (k : BranchKind) : (s.branch i w a k).remotes = s.remotes := rfl
@[simp] theorem State.branch_remoteHolds (s : State) (i : Instr) (w : Fields) (a : Word) (k : BranchKind) : (s.branch i w a k).remoteHolds = s.remoteHolds := rfl
@[simp] theorem State.branch_farRanks (s : State) (i : Instr) (w : Fields) (a : Word) (k : BranchKind) : (s.branch i w a k).farRanks = s.farRanks := rfl
@[simp] theorem State.branch_collIn (s : State) (i : Instr) (w : Fields) (a : Word) (k : BranchKind) : (s.branch i w a k).collIn = s.collIn := rfl
@[simp] theorem State.branch_domain (s : State) (i : Instr) (w : Fields) (a : Word) (k : BranchKind) : (s.branch i w a k).domain = s.domain := rfl
@[simp] theorem State.branch_upsets (s : State) (i : Instr) (w : Fields) (a : Word) (k : BranchKind) : (s.branch i w a k).upsets = s.upsets := rfl

/-! ### `buffer` changes the current pass alone -/

@[simp] theorem State.buffer_agenda (s : State) (i : Instr) (w : Fields) (rs : List PendWrite) : (s.buffer i w rs).agenda = s.agenda := rfl
@[simp] theorem State.buffer_freeCtr (s : State) (i : Instr) (w : Fields) (rs : List PendWrite) : (s.buffer i w rs).freeCtr = s.freeCtr := rfl
@[simp] theorem State.buffer_turn (s : State) (i : Instr) (w : Fields) (rs : List PendWrite) : (s.buffer i w rs).turn = s.turn := rfl
@[simp] theorem State.buffer_clock (s : State) (i : Instr) (w : Fields) (rs : List PendWrite) : (s.buffer i w rs).clock = s.clock := rfl
@[simp] theorem State.buffer_nextId (s : State) (i : Instr) (w : Fields) (rs : List PendWrite) : (s.buffer i w rs).nextId = s.nextId := rfl
@[simp] theorem State.buffer_dev (s : State) (i : Instr) (w : Fields) (rs : List PendWrite) : (s.buffer i w rs).dev = s.dev := rfl
@[simp] theorem State.buffer_parked (s : State) (i : Instr) (w : Fields) (rs : List PendWrite) : (s.buffer i w rs).parked = s.parked := rfl
@[simp] theorem State.buffer_threads (s : State) (i : Instr) (w : Fields) (rs : List PendWrite) : (s.buffer i w rs).threads = s.threads := rfl
@[simp] theorem State.buffer_entries (s : State) (i : Instr) (w : Fields) (rs : List PendWrite) : (s.buffer i w rs).entries = s.entries := rfl
@[simp] theorem State.buffer_planes (s : State) (i : Instr) (w : Fields) (rs : List PendWrite) : (s.buffer i w rs).planes = s.planes := rfl
@[simp] theorem State.buffer_groups (s : State) (i : Instr) (w : Fields) (rs : List PendWrite) : (s.buffer i w rs).groups = s.groups := rfl
@[simp] theorem State.buffer_greds (s : State) (i : Instr) (w : Fields) (rs : List PendWrite) : (s.buffer i w rs).greds = s.greds := rfl
@[simp] theorem State.buffer_waits (s : State) (i : Instr) (w : Fields) (rs : List PendWrite) : (s.buffer i w rs).waits = s.waits := rfl
@[simp] theorem State.buffer_bollards (s : State) (i : Instr) (w : Fields) (rs : List PendWrite) : (s.buffer i w rs).bollards = s.bollards := rfl
@[simp] theorem State.buffer_weighed (s : State) (i : Instr) (w : Fields) (rs : List PendWrite) : (s.buffer i w rs).weighed = s.weighed := rfl
@[simp] theorem State.buffer_ops (s : State) (i : Instr) (w : Fields) (rs : List PendWrite) : (s.buffer i w rs).ops = s.ops := rfl
@[simp] theorem State.buffer_scores (s : State) (i : Instr) (w : Fields) (rs : List PendWrite) : (s.buffer i w rs).scores = s.scores := rfl
@[simp] theorem State.buffer_regions (s : State) (i : Instr) (w : Fields) (rs : List PendWrite) : (s.buffer i w rs).regions = s.regions := rfl
@[simp] theorem State.buffer_latch (s : State) (i : Instr) (w : Fields) (rs : List PendWrite) : (s.buffer i w rs).latch = s.latch := rfl
@[simp] theorem State.buffer_nodes (s : State) (i : Instr) (w : Fields) (rs : List PendWrite) : (s.buffer i w rs).nodes = s.nodes := rfl
@[simp] theorem State.buffer_units (s : State) (i : Instr) (w : Fields) (rs : List PendWrite) : (s.buffer i w rs).units = s.units := rfl
@[simp] theorem State.buffer_mem (s : State) (i : Instr) (w : Fields) (rs : List PendWrite) : (s.buffer i w rs).mem = s.mem := rfl
@[simp] theorem State.buffer_poisoned (s : State) (i : Instr) (w : Fields) (rs : List PendWrite) : (s.buffer i w rs).poisoned = s.poisoned := rfl
@[simp] theorem State.buffer_vmem (s : State) (i : Instr) (w : Fields) (rs : List PendWrite) : (s.buffer i w rs).vmem = s.vmem := rfl
@[simp] theorem State.buffer_vlines (s : State) (i : Instr) (w : Fields) (rs : List PendWrite) : (s.buffer i w rs).vlines = s.vlines := rfl
@[simp] theorem State.buffer_presence (s : State) (i : Instr) (w : Fields) (rs : List PendWrite) : (s.buffer i w rs).presence = s.presence := rfl
@[simp] theorem State.buffer_vwritten (s : State) (i : Instr) (w : Fields) (rs : List PendWrite) : (s.buffer i w rs).vwritten = s.vwritten := rfl
@[simp] theorem State.buffer_fills (s : State) (i : Instr) (w : Fields) (rs : List PendWrite) : (s.buffer i w rs).fills = s.fills := rfl
@[simp] theorem State.buffer_framePrio (s : State) (i : Instr) (w : Fields) (rs : List PendWrite) : (s.buffer i w rs).framePrio = s.framePrio := rfl
@[simp] theorem State.buffer_holdWaits (s : State) (i : Instr) (w : Fields) (rs : List PendWrite) : (s.buffer i w rs).holdWaits = s.holdWaits := rfl
@[simp] theorem State.buffer_dir (s : State) (i : Instr) (w : Fields) (rs : List PendWrite) : (s.buffer i w rs).dir = s.dir := rfl
@[simp] theorem State.buffer_copies (s : State) (i : Instr) (w : Fields) (rs : List PendWrite) : (s.buffer i w rs).copies = s.copies := rfl
@[simp] theorem State.buffer_reqs (s : State) (i : Instr) (w : Fields) (rs : List PendWrite) : (s.buffer i w rs).reqs = s.reqs := rfl
@[simp] theorem State.buffer_answers (s : State) (i : Instr) (w : Fields) (rs : List PendWrite) : (s.buffer i w rs).answers = s.answers := rfl
@[simp] theorem State.buffer_replicas (s : State) (i : Instr) (w : Fields) (rs : List PendWrite) : (s.buffer i w rs).replicas = s.replicas := rfl
@[simp] theorem State.buffer_net (s : State) (i : Instr) (w : Fields) (rs : List PendWrite) : (s.buffer i w rs).net = s.net := rfl
@[simp] theorem State.buffer_homeWait (s : State) (i : Instr) (w : Fields) (rs : List PendWrite) : (s.buffer i w rs).homeWait = s.homeWait := rfl
@[simp] theorem State.buffer_collecting (s : State) (i : Instr) (w : Fields) (rs : List PendWrite) : (s.buffer i w rs).collecting = s.collecting := rfl
@[simp] theorem State.buffer_recalls (s : State) (i : Instr) (w : Fields) (rs : List PendWrite) : (s.buffer i w rs).recalls = s.recalls := rfl
@[simp] theorem State.buffer_pers (s : State) (i : Instr) (w : Fields) (rs : List PendWrite) : (s.buffer i w rs).pers = s.pers := rfl
@[simp] theorem State.buffer_frz (s : State) (i : Instr) (w : Fields) (rs : List PendWrite) : (s.buffer i w rs).frz = s.frz := rfl
@[simp] theorem State.buffer_gens (s : State) (i : Instr) (w : Fields) (rs : List PendWrite) : (s.buffer i w rs).gens = s.gens := rfl
@[simp] theorem State.buffer_genWait (s : State) (i : Instr) (w : Fields) (rs : List PendWrite) : (s.buffer i w rs).genWait = s.genWait := rfl
@[simp] theorem State.buffer_sweeps (s : State) (i : Instr) (w : Fields) (rs : List PendWrite) : (s.buffer i w rs).sweeps = s.sweeps := rfl
@[simp] theorem State.buffer_pageOrder (s : State) (i : Instr) (w : Fields) (rs : List PendWrite) : (s.buffer i w rs).pageOrder = s.pageOrder := rfl
@[simp] theorem State.buffer_paying (s : State) (i : Instr) (w : Fields) (rs : List PendWrite) : (s.buffer i w rs).paying = s.paying := rfl
@[simp] theorem State.buffer_farPages (s : State) (i : Instr) (w : Fields) (rs : List PendWrite) : (s.buffer i w rs).farPages = s.farPages := rfl
@[simp] theorem State.buffer_dooms (s : State) (i : Instr) (w : Fields) (rs : List PendWrite) : (s.buffer i w rs).dooms = s.dooms := rfl
@[simp] theorem State.buffer_fmt (s : State) (i : Instr) (w : Fields) (rs : List PendWrite) : (s.buffer i w rs).fmt = s.fmt := rfl
@[simp] theorem State.buffer_sliceOwner (s : State) (i : Instr) (w : Fields) (rs : List PendWrite) : (s.buffer i w rs).sliceOwner = s.sliceOwner := rfl
@[simp] theorem State.buffer_quayPart (s : State) (i : Instr) (w : Fields) (rs : List PendWrite) : (s.buffer i w rs).quayPart = s.quayPart := rfl
@[simp] theorem State.buffer_absent (s : State) (i : Instr) (w : Fields) (rs : List PendWrite) : (s.buffer i w rs).absent = s.absent := rfl
@[simp] theorem State.buffer_partOwner (s : State) (i : Instr) (w : Fields) (rs : List PendWrite) : (s.buffer i w rs).partOwner = s.partOwner := rfl
@[simp] theorem State.buffer_partNet (s : State) (i : Instr) (w : Fields) (rs : List PendWrite) : (s.buffer i w rs).partNet = s.partNet := rfl
@[simp] theorem State.buffer_netpol (s : State) (i : Instr) (w : Fields) (rs : List PendWrite) : (s.buffer i w rs).netpol = s.netpol := rfl
@[simp] theorem State.buffer_tlb (s : State) (i : Instr) (w : Fields) (rs : List PendWrite) : (s.buffer i w rs).tlb = s.tlb := rfl
@[simp] theorem State.buffer_walks (s : State) (i : Instr) (w : Fields) (rs : List PendWrite) : (s.buffer i w rs).walks = s.walks := rfl
@[simp] theorem State.buffer_pgreqs (s : State) (i : Instr) (w : Fields) (rs : List PendWrite) : (s.buffer i w rs).pgreqs = s.pgreqs := rfl
@[simp] theorem State.buffer_ctxs (s : State) (i : Instr) (w : Fields) (rs : List PendWrite) : (s.buffer i w rs).ctxs = s.ctxs := rfl
@[simp] theorem State.buffer_quayCtx (s : State) (i : Instr) (w : Fields) (rs : List PendWrite) : (s.buffer i w rs).quayCtx = s.quayCtx := rfl
@[simp] theorem State.buffer_ctxq (s : State) (i : Instr) (w : Fields) (rs : List PendWrite) : (s.buffer i w rs).ctxq = s.ctxq := rfl
@[simp] theorem State.buffer_handovers (s : State) (i : Instr) (w : Fields) (rs : List PendWrite) : (s.buffer i w rs).handovers = s.handovers := rfl
@[simp] theorem State.buffer_preempts (s : State) (i : Instr) (w : Fields) (rs : List PendWrite) : (s.buffer i w rs).preempts = s.preempts := rfl
@[simp] theorem State.buffer_saves (s : State) (i : Instr) (w : Fields) (rs : List PendWrite) : (s.buffer i w rs).saves = s.saves := rfl
@[simp] theorem State.buffer_areaDue (s : State) (i : Instr) (w : Fields) (rs : List PendWrite) : (s.buffer i w rs).areaDue = s.areaDue := rfl
@[simp] theorem State.buffer_sections (s : State) (i : Instr) (w : Fields) (rs : List PendWrite) : (s.buffer i w rs).sections = s.sections := rfl
@[simp] theorem State.buffer_quota (s : State) (i : Instr) (w : Fields) (rs : List PendWrite) : (s.buffer i w rs).quota = s.quota := rfl
@[simp] theorem State.buffer_meters (s : State) (i : Instr) (w : Fields) (rs : List PendWrite) : (s.buffer i w rs).meters = s.meters := rfl
@[simp] theorem State.buffer_launches (s : State) (i : Instr) (w : Fields) (rs : List PendWrite) : (s.buffer i w rs).launches = s.launches := rfl
@[simp] theorem State.buffer_ready (s : State) (i : Instr) (w : Fields) (rs : List PendWrite) : (s.buffer i w rs).ready = s.ready := rfl
@[simp] theorem State.buffer_lastQueue (s : State) (i : Instr) (w : Fields) (rs : List PendWrite) : (s.buffer i w rs).lastQueue = s.lastQueue := rfl
@[simp] theorem State.buffer_inbox (s : State) (i : Instr) (w : Fields) (rs : List PendWrite) : (s.buffer i w rs).inbox = s.inbox := rfl
@[simp] theorem State.buffer_outbox (s : State) (i : Instr) (w : Fields) (rs : List PendWrite) : (s.buffer i w rs).outbox = s.outbox := rfl
@[simp] theorem State.buffer_links (s : State) (i : Instr) (w : Fields) (rs : List PendWrite) : (s.buffer i w rs).links = s.links := rfl
@[simp] theorem State.buffer_remotes (s : State) (i : Instr) (w : Fields) (rs : List PendWrite) : (s.buffer i w rs).remotes = s.remotes := rfl
@[simp] theorem State.buffer_remoteHolds (s : State) (i : Instr) (w : Fields) (rs : List PendWrite) : (s.buffer i w rs).remoteHolds = s.remoteHolds := rfl
@[simp] theorem State.buffer_farRanks (s : State) (i : Instr) (w : Fields) (rs : List PendWrite) : (s.buffer i w rs).farRanks = s.farRanks := rfl
@[simp] theorem State.buffer_collIn (s : State) (i : Instr) (w : Fields) (rs : List PendWrite) : (s.buffer i w rs).collIn = s.collIn := rfl
@[simp] theorem State.buffer_domain (s : State) (i : Instr) (w : Fields) (rs : List PendWrite) : (s.buffer i w rs).domain = s.domain := rfl
@[simp] theorem State.buffer_upsets (s : State) (i : Instr) (w : Fields) (rs : List PendWrite) : (s.buffer i w rs).upsets = s.upsets := rfl

/-! ### `leaveEntries` changes vectors, wait tables and planes alone -/

@[simp] theorem State.leaveEntries_agenda (s : State) (q sl : Nat) : (s.leaveEntries q sl).agenda = s.agenda := rfl
@[simp] theorem State.leaveEntries_freeCtr (s : State) (q sl : Nat) : (s.leaveEntries q sl).freeCtr = s.freeCtr := rfl
@[simp] theorem State.leaveEntries_turn (s : State) (q sl : Nat) : (s.leaveEntries q sl).turn = s.turn := rfl
@[simp] theorem State.leaveEntries_clock (s : State) (q sl : Nat) : (s.leaveEntries q sl).clock = s.clock := rfl
@[simp] theorem State.leaveEntries_nextId (s : State) (q sl : Nat) : (s.leaveEntries q sl).nextId = s.nextId := rfl
@[simp] theorem State.leaveEntries_dev (s : State) (q sl : Nat) : (s.leaveEntries q sl).dev = s.dev := rfl
@[simp] theorem State.leaveEntries_pass (s : State) (q sl : Nat) : (s.leaveEntries q sl).pass = s.pass := rfl
@[simp] theorem State.leaveEntries_parked (s : State) (q sl : Nat) : (s.leaveEntries q sl).parked = s.parked := rfl
@[simp] theorem State.leaveEntries_threads (s : State) (q sl : Nat) : (s.leaveEntries q sl).threads = s.threads := rfl
@[simp] theorem State.leaveEntries_groups (s : State) (q sl : Nat) : (s.leaveEntries q sl).groups = s.groups := rfl
@[simp] theorem State.leaveEntries_greds (s : State) (q sl : Nat) : (s.leaveEntries q sl).greds = s.greds := rfl
@[simp] theorem State.leaveEntries_bollards (s : State) (q sl : Nat) : (s.leaveEntries q sl).bollards = s.bollards := rfl
@[simp] theorem State.leaveEntries_weighed (s : State) (q sl : Nat) : (s.leaveEntries q sl).weighed = s.weighed := rfl
@[simp] theorem State.leaveEntries_ops (s : State) (q sl : Nat) : (s.leaveEntries q sl).ops = s.ops := rfl
@[simp] theorem State.leaveEntries_scores (s : State) (q sl : Nat) : (s.leaveEntries q sl).scores = s.scores := rfl
@[simp] theorem State.leaveEntries_regions (s : State) (q sl : Nat) : (s.leaveEntries q sl).regions = s.regions := rfl
@[simp] theorem State.leaveEntries_latch (s : State) (q sl : Nat) : (s.leaveEntries q sl).latch = s.latch := rfl
@[simp] theorem State.leaveEntries_nodes (s : State) (q sl : Nat) : (s.leaveEntries q sl).nodes = s.nodes := rfl
@[simp] theorem State.leaveEntries_units (s : State) (q sl : Nat) : (s.leaveEntries q sl).units = s.units := rfl
@[simp] theorem State.leaveEntries_mem (s : State) (q sl : Nat) : (s.leaveEntries q sl).mem = s.mem := rfl
@[simp] theorem State.leaveEntries_poisoned (s : State) (q sl : Nat) : (s.leaveEntries q sl).poisoned = s.poisoned := rfl
@[simp] theorem State.leaveEntries_vmem (s : State) (q sl : Nat) : (s.leaveEntries q sl).vmem = s.vmem := rfl
@[simp] theorem State.leaveEntries_vlines (s : State) (q sl : Nat) : (s.leaveEntries q sl).vlines = s.vlines := rfl
@[simp] theorem State.leaveEntries_presence (s : State) (q sl : Nat) : (s.leaveEntries q sl).presence = s.presence := rfl
@[simp] theorem State.leaveEntries_vwritten (s : State) (q sl : Nat) : (s.leaveEntries q sl).vwritten = s.vwritten := rfl
@[simp] theorem State.leaveEntries_fills (s : State) (q sl : Nat) : (s.leaveEntries q sl).fills = s.fills := rfl
@[simp] theorem State.leaveEntries_framePrio (s : State) (q sl : Nat) : (s.leaveEntries q sl).framePrio = s.framePrio := rfl
@[simp] theorem State.leaveEntries_holdWaits (s : State) (q sl : Nat) : (s.leaveEntries q sl).holdWaits = s.holdWaits := rfl
@[simp] theorem State.leaveEntries_dir (s : State) (q sl : Nat) : (s.leaveEntries q sl).dir = s.dir := rfl
@[simp] theorem State.leaveEntries_copies (s : State) (q sl : Nat) : (s.leaveEntries q sl).copies = s.copies := rfl
@[simp] theorem State.leaveEntries_reqs (s : State) (q sl : Nat) : (s.leaveEntries q sl).reqs = s.reqs := rfl
@[simp] theorem State.leaveEntries_answers (s : State) (q sl : Nat) : (s.leaveEntries q sl).answers = s.answers := rfl
@[simp] theorem State.leaveEntries_replicas (s : State) (q sl : Nat) : (s.leaveEntries q sl).replicas = s.replicas := rfl
@[simp] theorem State.leaveEntries_net (s : State) (q sl : Nat) : (s.leaveEntries q sl).net = s.net := rfl
@[simp] theorem State.leaveEntries_homeWait (s : State) (q sl : Nat) : (s.leaveEntries q sl).homeWait = s.homeWait := rfl
@[simp] theorem State.leaveEntries_collecting (s : State) (q sl : Nat) : (s.leaveEntries q sl).collecting = s.collecting := rfl
@[simp] theorem State.leaveEntries_recalls (s : State) (q sl : Nat) : (s.leaveEntries q sl).recalls = s.recalls := rfl
@[simp] theorem State.leaveEntries_pers (s : State) (q sl : Nat) : (s.leaveEntries q sl).pers = s.pers := rfl
@[simp] theorem State.leaveEntries_frz (s : State) (q sl : Nat) : (s.leaveEntries q sl).frz = s.frz := rfl
@[simp] theorem State.leaveEntries_gens (s : State) (q sl : Nat) : (s.leaveEntries q sl).gens = s.gens := rfl
@[simp] theorem State.leaveEntries_genWait (s : State) (q sl : Nat) : (s.leaveEntries q sl).genWait = s.genWait := rfl
@[simp] theorem State.leaveEntries_sweeps (s : State) (q sl : Nat) : (s.leaveEntries q sl).sweeps = s.sweeps := rfl
@[simp] theorem State.leaveEntries_pageOrder (s : State) (q sl : Nat) : (s.leaveEntries q sl).pageOrder = s.pageOrder := rfl
@[simp] theorem State.leaveEntries_paying (s : State) (q sl : Nat) : (s.leaveEntries q sl).paying = s.paying := rfl
@[simp] theorem State.leaveEntries_farPages (s : State) (q sl : Nat) : (s.leaveEntries q sl).farPages = s.farPages := rfl
@[simp] theorem State.leaveEntries_dooms (s : State) (q sl : Nat) : (s.leaveEntries q sl).dooms = s.dooms := rfl
@[simp] theorem State.leaveEntries_fmt (s : State) (q sl : Nat) : (s.leaveEntries q sl).fmt = s.fmt := rfl
@[simp] theorem State.leaveEntries_sliceOwner (s : State) (q sl : Nat) : (s.leaveEntries q sl).sliceOwner = s.sliceOwner := rfl
@[simp] theorem State.leaveEntries_quayPart (s : State) (q sl : Nat) : (s.leaveEntries q sl).quayPart = s.quayPart := rfl
@[simp] theorem State.leaveEntries_absent (s : State) (q sl : Nat) : (s.leaveEntries q sl).absent = s.absent := rfl
@[simp] theorem State.leaveEntries_partOwner (s : State) (q sl : Nat) : (s.leaveEntries q sl).partOwner = s.partOwner := rfl
@[simp] theorem State.leaveEntries_partNet (s : State) (q sl : Nat) : (s.leaveEntries q sl).partNet = s.partNet := rfl
@[simp] theorem State.leaveEntries_netpol (s : State) (q sl : Nat) : (s.leaveEntries q sl).netpol = s.netpol := rfl
@[simp] theorem State.leaveEntries_tlb (s : State) (q sl : Nat) : (s.leaveEntries q sl).tlb = s.tlb := rfl
@[simp] theorem State.leaveEntries_walks (s : State) (q sl : Nat) : (s.leaveEntries q sl).walks = s.walks := rfl
@[simp] theorem State.leaveEntries_pgreqs (s : State) (q sl : Nat) : (s.leaveEntries q sl).pgreqs = s.pgreqs := rfl
@[simp] theorem State.leaveEntries_ctxs (s : State) (q sl : Nat) : (s.leaveEntries q sl).ctxs = s.ctxs := rfl
@[simp] theorem State.leaveEntries_quayCtx (s : State) (q sl : Nat) : (s.leaveEntries q sl).quayCtx = s.quayCtx := rfl
@[simp] theorem State.leaveEntries_ctxq (s : State) (q sl : Nat) : (s.leaveEntries q sl).ctxq = s.ctxq := rfl
@[simp] theorem State.leaveEntries_handovers (s : State) (q sl : Nat) : (s.leaveEntries q sl).handovers = s.handovers := rfl
@[simp] theorem State.leaveEntries_preempts (s : State) (q sl : Nat) : (s.leaveEntries q sl).preempts = s.preempts := rfl
@[simp] theorem State.leaveEntries_saves (s : State) (q sl : Nat) : (s.leaveEntries q sl).saves = s.saves := rfl
@[simp] theorem State.leaveEntries_areaDue (s : State) (q sl : Nat) : (s.leaveEntries q sl).areaDue = s.areaDue := rfl
@[simp] theorem State.leaveEntries_sections (s : State) (q sl : Nat) : (s.leaveEntries q sl).sections = s.sections := rfl
@[simp] theorem State.leaveEntries_quota (s : State) (q sl : Nat) : (s.leaveEntries q sl).quota = s.quota := rfl
@[simp] theorem State.leaveEntries_meters (s : State) (q sl : Nat) : (s.leaveEntries q sl).meters = s.meters := rfl
@[simp] theorem State.leaveEntries_launches (s : State) (q sl : Nat) : (s.leaveEntries q sl).launches = s.launches := rfl
@[simp] theorem State.leaveEntries_ready (s : State) (q sl : Nat) : (s.leaveEntries q sl).ready = s.ready := rfl
@[simp] theorem State.leaveEntries_lastQueue (s : State) (q sl : Nat) : (s.leaveEntries q sl).lastQueue = s.lastQueue := rfl
@[simp] theorem State.leaveEntries_inbox (s : State) (q sl : Nat) : (s.leaveEntries q sl).inbox = s.inbox := rfl
@[simp] theorem State.leaveEntries_outbox (s : State) (q sl : Nat) : (s.leaveEntries q sl).outbox = s.outbox := rfl
@[simp] theorem State.leaveEntries_links (s : State) (q sl : Nat) : (s.leaveEntries q sl).links = s.links := rfl
@[simp] theorem State.leaveEntries_remotes (s : State) (q sl : Nat) : (s.leaveEntries q sl).remotes = s.remotes := rfl
@[simp] theorem State.leaveEntries_remoteHolds (s : State) (q sl : Nat) : (s.leaveEntries q sl).remoteHolds = s.remoteHolds := rfl
@[simp] theorem State.leaveEntries_farRanks (s : State) (q sl : Nat) : (s.leaveEntries q sl).farRanks = s.farRanks := rfl
@[simp] theorem State.leaveEntries_collIn (s : State) (q sl : Nat) : (s.leaveEntries q sl).collIn = s.collIn := rfl
@[simp] theorem State.leaveEntries_domain (s : State) (q sl : Nat) : (s.leaveEntries q sl).domain = s.domain := rfl
@[simp] theorem State.leaveEntries_upsets (s : State) (q sl : Nat) : (s.leaveEntries q sl).upsets = s.upsets := rfl

/-! ### `vtouch` changes presence bits, written bits and wait tables alone -/

@[simp] theorem State.vtouch_agenda (s : State) (q off n : Nat) : (s.vtouch q off n).agenda = s.agenda := rfl
@[simp] theorem State.vtouch_freeCtr (s : State) (q off n : Nat) : (s.vtouch q off n).freeCtr = s.freeCtr := rfl
@[simp] theorem State.vtouch_turn (s : State) (q off n : Nat) : (s.vtouch q off n).turn = s.turn := rfl
@[simp] theorem State.vtouch_clock (s : State) (q off n : Nat) : (s.vtouch q off n).clock = s.clock := rfl
@[simp] theorem State.vtouch_nextId (s : State) (q off n : Nat) : (s.vtouch q off n).nextId = s.nextId := rfl
@[simp] theorem State.vtouch_dev (s : State) (q off n : Nat) : (s.vtouch q off n).dev = s.dev := rfl
@[simp] theorem State.vtouch_pass (s : State) (q off n : Nat) : (s.vtouch q off n).pass = s.pass := rfl
@[simp] theorem State.vtouch_parked (s : State) (q off n : Nat) : (s.vtouch q off n).parked = s.parked := rfl
@[simp] theorem State.vtouch_threads (s : State) (q off n : Nat) : (s.vtouch q off n).threads = s.threads := rfl
@[simp] theorem State.vtouch_entries (s : State) (q off n : Nat) : (s.vtouch q off n).entries = s.entries := rfl
@[simp] theorem State.vtouch_planes (s : State) (q off n : Nat) : (s.vtouch q off n).planes = s.planes := rfl
@[simp] theorem State.vtouch_groups (s : State) (q off n : Nat) : (s.vtouch q off n).groups = s.groups := rfl
@[simp] theorem State.vtouch_greds (s : State) (q off n : Nat) : (s.vtouch q off n).greds = s.greds := rfl
@[simp] theorem State.vtouch_bollards (s : State) (q off n : Nat) : (s.vtouch q off n).bollards = s.bollards := rfl
@[simp] theorem State.vtouch_weighed (s : State) (q off n : Nat) : (s.vtouch q off n).weighed = s.weighed := rfl
@[simp] theorem State.vtouch_ops (s : State) (q off n : Nat) : (s.vtouch q off n).ops = s.ops := rfl
@[simp] theorem State.vtouch_scores (s : State) (q off n : Nat) : (s.vtouch q off n).scores = s.scores := rfl
@[simp] theorem State.vtouch_regions (s : State) (q off n : Nat) : (s.vtouch q off n).regions = s.regions := rfl
@[simp] theorem State.vtouch_latch (s : State) (q off n : Nat) : (s.vtouch q off n).latch = s.latch := rfl
@[simp] theorem State.vtouch_nodes (s : State) (q off n : Nat) : (s.vtouch q off n).nodes = s.nodes := rfl
@[simp] theorem State.vtouch_units (s : State) (q off n : Nat) : (s.vtouch q off n).units = s.units := rfl
@[simp] theorem State.vtouch_mem (s : State) (q off n : Nat) : (s.vtouch q off n).mem = s.mem := rfl
@[simp] theorem State.vtouch_poisoned (s : State) (q off n : Nat) : (s.vtouch q off n).poisoned = s.poisoned := rfl
@[simp] theorem State.vtouch_vmem (s : State) (q off n : Nat) : (s.vtouch q off n).vmem = s.vmem := rfl
@[simp] theorem State.vtouch_vlines (s : State) (q off n : Nat) : (s.vtouch q off n).vlines = s.vlines := rfl
@[simp] theorem State.vtouch_fills (s : State) (q off n : Nat) : (s.vtouch q off n).fills = s.fills := rfl
@[simp] theorem State.vtouch_framePrio (s : State) (q off n : Nat) : (s.vtouch q off n).framePrio = s.framePrio := rfl
@[simp] theorem State.vtouch_holdWaits (s : State) (q off n : Nat) : (s.vtouch q off n).holdWaits = s.holdWaits := rfl
@[simp] theorem State.vtouch_dir (s : State) (q off n : Nat) : (s.vtouch q off n).dir = s.dir := rfl
@[simp] theorem State.vtouch_copies (s : State) (q off n : Nat) : (s.vtouch q off n).copies = s.copies := rfl
@[simp] theorem State.vtouch_reqs (s : State) (q off n : Nat) : (s.vtouch q off n).reqs = s.reqs := rfl
@[simp] theorem State.vtouch_answers (s : State) (q off n : Nat) : (s.vtouch q off n).answers = s.answers := rfl
@[simp] theorem State.vtouch_replicas (s : State) (q off n : Nat) : (s.vtouch q off n).replicas = s.replicas := rfl
@[simp] theorem State.vtouch_net (s : State) (q off n : Nat) : (s.vtouch q off n).net = s.net := rfl
@[simp] theorem State.vtouch_homeWait (s : State) (q off n : Nat) : (s.vtouch q off n).homeWait = s.homeWait := rfl
@[simp] theorem State.vtouch_collecting (s : State) (q off n : Nat) : (s.vtouch q off n).collecting = s.collecting := rfl
@[simp] theorem State.vtouch_recalls (s : State) (q off n : Nat) : (s.vtouch q off n).recalls = s.recalls := rfl
@[simp] theorem State.vtouch_pers (s : State) (q off n : Nat) : (s.vtouch q off n).pers = s.pers := rfl
@[simp] theorem State.vtouch_frz (s : State) (q off n : Nat) : (s.vtouch q off n).frz = s.frz := rfl
@[simp] theorem State.vtouch_gens (s : State) (q off n : Nat) : (s.vtouch q off n).gens = s.gens := rfl
@[simp] theorem State.vtouch_genWait (s : State) (q off n : Nat) : (s.vtouch q off n).genWait = s.genWait := rfl
@[simp] theorem State.vtouch_sweeps (s : State) (q off n : Nat) : (s.vtouch q off n).sweeps = s.sweeps := rfl
@[simp] theorem State.vtouch_pageOrder (s : State) (q off n : Nat) : (s.vtouch q off n).pageOrder = s.pageOrder := rfl
@[simp] theorem State.vtouch_paying (s : State) (q off n : Nat) : (s.vtouch q off n).paying = s.paying := rfl
@[simp] theorem State.vtouch_farPages (s : State) (q off n : Nat) : (s.vtouch q off n).farPages = s.farPages := rfl
@[simp] theorem State.vtouch_dooms (s : State) (q off n : Nat) : (s.vtouch q off n).dooms = s.dooms := rfl
@[simp] theorem State.vtouch_fmt (s : State) (q off n : Nat) : (s.vtouch q off n).fmt = s.fmt := rfl
@[simp] theorem State.vtouch_sliceOwner (s : State) (q off n : Nat) : (s.vtouch q off n).sliceOwner = s.sliceOwner := rfl
@[simp] theorem State.vtouch_quayPart (s : State) (q off n : Nat) : (s.vtouch q off n).quayPart = s.quayPart := rfl
@[simp] theorem State.vtouch_absent (s : State) (q off n : Nat) : (s.vtouch q off n).absent = s.absent := rfl
@[simp] theorem State.vtouch_partOwner (s : State) (q off n : Nat) : (s.vtouch q off n).partOwner = s.partOwner := rfl
@[simp] theorem State.vtouch_partNet (s : State) (q off n : Nat) : (s.vtouch q off n).partNet = s.partNet := rfl
@[simp] theorem State.vtouch_netpol (s : State) (q off n : Nat) : (s.vtouch q off n).netpol = s.netpol := rfl
@[simp] theorem State.vtouch_tlb (s : State) (q off n : Nat) : (s.vtouch q off n).tlb = s.tlb := rfl
@[simp] theorem State.vtouch_walks (s : State) (q off n : Nat) : (s.vtouch q off n).walks = s.walks := rfl
@[simp] theorem State.vtouch_pgreqs (s : State) (q off n : Nat) : (s.vtouch q off n).pgreqs = s.pgreqs := rfl
@[simp] theorem State.vtouch_ctxs (s : State) (q off n : Nat) : (s.vtouch q off n).ctxs = s.ctxs := rfl
@[simp] theorem State.vtouch_quayCtx (s : State) (q off n : Nat) : (s.vtouch q off n).quayCtx = s.quayCtx := rfl
@[simp] theorem State.vtouch_ctxq (s : State) (q off n : Nat) : (s.vtouch q off n).ctxq = s.ctxq := rfl
@[simp] theorem State.vtouch_handovers (s : State) (q off n : Nat) : (s.vtouch q off n).handovers = s.handovers := rfl
@[simp] theorem State.vtouch_preempts (s : State) (q off n : Nat) : (s.vtouch q off n).preempts = s.preempts := rfl
@[simp] theorem State.vtouch_saves (s : State) (q off n : Nat) : (s.vtouch q off n).saves = s.saves := rfl
@[simp] theorem State.vtouch_areaDue (s : State) (q off n : Nat) : (s.vtouch q off n).areaDue = s.areaDue := rfl
@[simp] theorem State.vtouch_sections (s : State) (q off n : Nat) : (s.vtouch q off n).sections = s.sections := rfl
@[simp] theorem State.vtouch_quota (s : State) (q off n : Nat) : (s.vtouch q off n).quota = s.quota := rfl
@[simp] theorem State.vtouch_meters (s : State) (q off n : Nat) : (s.vtouch q off n).meters = s.meters := rfl
@[simp] theorem State.vtouch_launches (s : State) (q off n : Nat) : (s.vtouch q off n).launches = s.launches := rfl
@[simp] theorem State.vtouch_ready (s : State) (q off n : Nat) : (s.vtouch q off n).ready = s.ready := rfl
@[simp] theorem State.vtouch_lastQueue (s : State) (q off n : Nat) : (s.vtouch q off n).lastQueue = s.lastQueue := rfl
@[simp] theorem State.vtouch_inbox (s : State) (q off n : Nat) : (s.vtouch q off n).inbox = s.inbox := rfl
@[simp] theorem State.vtouch_outbox (s : State) (q off n : Nat) : (s.vtouch q off n).outbox = s.outbox := rfl
@[simp] theorem State.vtouch_links (s : State) (q off n : Nat) : (s.vtouch q off n).links = s.links := rfl
@[simp] theorem State.vtouch_remotes (s : State) (q off n : Nat) : (s.vtouch q off n).remotes = s.remotes := rfl
@[simp] theorem State.vtouch_remoteHolds (s : State) (q off n : Nat) : (s.vtouch q off n).remoteHolds = s.remoteHolds := rfl
@[simp] theorem State.vtouch_farRanks (s : State) (q off n : Nat) : (s.vtouch q off n).farRanks = s.farRanks := rfl
@[simp] theorem State.vtouch_collIn (s : State) (q off n : Nat) : (s.vtouch q off n).collIn = s.collIn := rfl
@[simp] theorem State.vtouch_domain (s : State) (q off n : Nat) : (s.vtouch q off n).domain = s.domain := rfl
@[simp] theorem State.vtouch_upsets (s : State) (q off n : Nat) : (s.vtouch q off n).upsets = s.upsets := rfl

/-! ### `setVmeta` changes the line metadata alone -/

@[simp] theorem State.setVmeta_agenda (s : State) (l : VLine) : (s.setVmeta l).agenda = s.agenda := rfl
@[simp] theorem State.setVmeta_freeCtr (s : State) (l : VLine) : (s.setVmeta l).freeCtr = s.freeCtr := rfl
@[simp] theorem State.setVmeta_turn (s : State) (l : VLine) : (s.setVmeta l).turn = s.turn := rfl
@[simp] theorem State.setVmeta_clock (s : State) (l : VLine) : (s.setVmeta l).clock = s.clock := rfl
@[simp] theorem State.setVmeta_nextId (s : State) (l : VLine) : (s.setVmeta l).nextId = s.nextId := rfl
@[simp] theorem State.setVmeta_dev (s : State) (l : VLine) : (s.setVmeta l).dev = s.dev := rfl
@[simp] theorem State.setVmeta_pass (s : State) (l : VLine) : (s.setVmeta l).pass = s.pass := rfl
@[simp] theorem State.setVmeta_parked (s : State) (l : VLine) : (s.setVmeta l).parked = s.parked := rfl
@[simp] theorem State.setVmeta_threads (s : State) (l : VLine) : (s.setVmeta l).threads = s.threads := rfl
@[simp] theorem State.setVmeta_entries (s : State) (l : VLine) : (s.setVmeta l).entries = s.entries := rfl
@[simp] theorem State.setVmeta_planes (s : State) (l : VLine) : (s.setVmeta l).planes = s.planes := rfl
@[simp] theorem State.setVmeta_groups (s : State) (l : VLine) : (s.setVmeta l).groups = s.groups := rfl
@[simp] theorem State.setVmeta_greds (s : State) (l : VLine) : (s.setVmeta l).greds = s.greds := rfl
@[simp] theorem State.setVmeta_waits (s : State) (l : VLine) : (s.setVmeta l).waits = s.waits := rfl
@[simp] theorem State.setVmeta_bollards (s : State) (l : VLine) : (s.setVmeta l).bollards = s.bollards := rfl
@[simp] theorem State.setVmeta_weighed (s : State) (l : VLine) : (s.setVmeta l).weighed = s.weighed := rfl
@[simp] theorem State.setVmeta_ops (s : State) (l : VLine) : (s.setVmeta l).ops = s.ops := rfl
@[simp] theorem State.setVmeta_scores (s : State) (l : VLine) : (s.setVmeta l).scores = s.scores := rfl
@[simp] theorem State.setVmeta_regions (s : State) (l : VLine) : (s.setVmeta l).regions = s.regions := rfl
@[simp] theorem State.setVmeta_latch (s : State) (l : VLine) : (s.setVmeta l).latch = s.latch := rfl
@[simp] theorem State.setVmeta_nodes (s : State) (l : VLine) : (s.setVmeta l).nodes = s.nodes := rfl
@[simp] theorem State.setVmeta_units (s : State) (l : VLine) : (s.setVmeta l).units = s.units := rfl
@[simp] theorem State.setVmeta_mem (s : State) (l : VLine) : (s.setVmeta l).mem = s.mem := rfl
@[simp] theorem State.setVmeta_poisoned (s : State) (l : VLine) : (s.setVmeta l).poisoned = s.poisoned := rfl
@[simp] theorem State.setVmeta_vmem (s : State) (l : VLine) : (s.setVmeta l).vmem = s.vmem := rfl
@[simp] theorem State.setVmeta_presence (s : State) (l : VLine) : (s.setVmeta l).presence = s.presence := rfl
@[simp] theorem State.setVmeta_vwritten (s : State) (l : VLine) : (s.setVmeta l).vwritten = s.vwritten := rfl
@[simp] theorem State.setVmeta_fills (s : State) (l : VLine) : (s.setVmeta l).fills = s.fills := rfl
@[simp] theorem State.setVmeta_framePrio (s : State) (l : VLine) : (s.setVmeta l).framePrio = s.framePrio := rfl
@[simp] theorem State.setVmeta_holdWaits (s : State) (l : VLine) : (s.setVmeta l).holdWaits = s.holdWaits := rfl
@[simp] theorem State.setVmeta_dir (s : State) (l : VLine) : (s.setVmeta l).dir = s.dir := rfl
@[simp] theorem State.setVmeta_copies (s : State) (l : VLine) : (s.setVmeta l).copies = s.copies := rfl
@[simp] theorem State.setVmeta_reqs (s : State) (l : VLine) : (s.setVmeta l).reqs = s.reqs := rfl
@[simp] theorem State.setVmeta_answers (s : State) (l : VLine) : (s.setVmeta l).answers = s.answers := rfl
@[simp] theorem State.setVmeta_replicas (s : State) (l : VLine) : (s.setVmeta l).replicas = s.replicas := rfl
@[simp] theorem State.setVmeta_net (s : State) (l : VLine) : (s.setVmeta l).net = s.net := rfl
@[simp] theorem State.setVmeta_homeWait (s : State) (l : VLine) : (s.setVmeta l).homeWait = s.homeWait := rfl
@[simp] theorem State.setVmeta_collecting (s : State) (l : VLine) : (s.setVmeta l).collecting = s.collecting := rfl
@[simp] theorem State.setVmeta_recalls (s : State) (l : VLine) : (s.setVmeta l).recalls = s.recalls := rfl
@[simp] theorem State.setVmeta_pers (s : State) (l : VLine) : (s.setVmeta l).pers = s.pers := rfl
@[simp] theorem State.setVmeta_frz (s : State) (l : VLine) : (s.setVmeta l).frz = s.frz := rfl
@[simp] theorem State.setVmeta_gens (s : State) (l : VLine) : (s.setVmeta l).gens = s.gens := rfl
@[simp] theorem State.setVmeta_genWait (s : State) (l : VLine) : (s.setVmeta l).genWait = s.genWait := rfl
@[simp] theorem State.setVmeta_sweeps (s : State) (l : VLine) : (s.setVmeta l).sweeps = s.sweeps := rfl
@[simp] theorem State.setVmeta_pageOrder (s : State) (l : VLine) : (s.setVmeta l).pageOrder = s.pageOrder := rfl
@[simp] theorem State.setVmeta_paying (s : State) (l : VLine) : (s.setVmeta l).paying = s.paying := rfl
@[simp] theorem State.setVmeta_farPages (s : State) (l : VLine) : (s.setVmeta l).farPages = s.farPages := rfl
@[simp] theorem State.setVmeta_dooms (s : State) (l : VLine) : (s.setVmeta l).dooms = s.dooms := rfl
@[simp] theorem State.setVmeta_fmt (s : State) (l : VLine) : (s.setVmeta l).fmt = s.fmt := rfl
@[simp] theorem State.setVmeta_sliceOwner (s : State) (l : VLine) : (s.setVmeta l).sliceOwner = s.sliceOwner := rfl
@[simp] theorem State.setVmeta_quayPart (s : State) (l : VLine) : (s.setVmeta l).quayPart = s.quayPart := rfl
@[simp] theorem State.setVmeta_absent (s : State) (l : VLine) : (s.setVmeta l).absent = s.absent := rfl
@[simp] theorem State.setVmeta_partOwner (s : State) (l : VLine) : (s.setVmeta l).partOwner = s.partOwner := rfl
@[simp] theorem State.setVmeta_partNet (s : State) (l : VLine) : (s.setVmeta l).partNet = s.partNet := rfl
@[simp] theorem State.setVmeta_netpol (s : State) (l : VLine) : (s.setVmeta l).netpol = s.netpol := rfl
@[simp] theorem State.setVmeta_tlb (s : State) (l : VLine) : (s.setVmeta l).tlb = s.tlb := rfl
@[simp] theorem State.setVmeta_walks (s : State) (l : VLine) : (s.setVmeta l).walks = s.walks := rfl
@[simp] theorem State.setVmeta_pgreqs (s : State) (l : VLine) : (s.setVmeta l).pgreqs = s.pgreqs := rfl
@[simp] theorem State.setVmeta_ctxs (s : State) (l : VLine) : (s.setVmeta l).ctxs = s.ctxs := rfl
@[simp] theorem State.setVmeta_quayCtx (s : State) (l : VLine) : (s.setVmeta l).quayCtx = s.quayCtx := rfl
@[simp] theorem State.setVmeta_ctxq (s : State) (l : VLine) : (s.setVmeta l).ctxq = s.ctxq := rfl
@[simp] theorem State.setVmeta_handovers (s : State) (l : VLine) : (s.setVmeta l).handovers = s.handovers := rfl
@[simp] theorem State.setVmeta_preempts (s : State) (l : VLine) : (s.setVmeta l).preempts = s.preempts := rfl
@[simp] theorem State.setVmeta_saves (s : State) (l : VLine) : (s.setVmeta l).saves = s.saves := rfl
@[simp] theorem State.setVmeta_areaDue (s : State) (l : VLine) : (s.setVmeta l).areaDue = s.areaDue := rfl
@[simp] theorem State.setVmeta_sections (s : State) (l : VLine) : (s.setVmeta l).sections = s.sections := rfl
@[simp] theorem State.setVmeta_quota (s : State) (l : VLine) : (s.setVmeta l).quota = s.quota := rfl
@[simp] theorem State.setVmeta_meters (s : State) (l : VLine) : (s.setVmeta l).meters = s.meters := rfl
@[simp] theorem State.setVmeta_launches (s : State) (l : VLine) : (s.setVmeta l).launches = s.launches := rfl
@[simp] theorem State.setVmeta_ready (s : State) (l : VLine) : (s.setVmeta l).ready = s.ready := rfl
@[simp] theorem State.setVmeta_lastQueue (s : State) (l : VLine) : (s.setVmeta l).lastQueue = s.lastQueue := rfl
@[simp] theorem State.setVmeta_inbox (s : State) (l : VLine) : (s.setVmeta l).inbox = s.inbox := rfl
@[simp] theorem State.setVmeta_outbox (s : State) (l : VLine) : (s.setVmeta l).outbox = s.outbox := rfl
@[simp] theorem State.setVmeta_links (s : State) (l : VLine) : (s.setVmeta l).links = s.links := rfl
@[simp] theorem State.setVmeta_remotes (s : State) (l : VLine) : (s.setVmeta l).remotes = s.remotes := rfl
@[simp] theorem State.setVmeta_remoteHolds (s : State) (l : VLine) : (s.setVmeta l).remoteHolds = s.remoteHolds := rfl
@[simp] theorem State.setVmeta_farRanks (s : State) (l : VLine) : (s.setVmeta l).farRanks = s.farRanks := rfl
@[simp] theorem State.setVmeta_collIn (s : State) (l : VLine) : (s.setVmeta l).collIn = s.collIn := rfl
@[simp] theorem State.setVmeta_domain (s : State) (l : VLine) : (s.setVmeta l).domain = s.domain := rfl
@[simp] theorem State.setVmeta_upsets (s : State) (l : VLine) : (s.setVmeta l).upsets = s.upsets := rfl

/-! ### `vstore` changes a vault and the wait tables alone -/

@[simp] theorem State.vstore_agenda (s : State) (q off : Nat) (bs : List Byte) (p : Bool) : (s.vstore q off bs p).agenda = s.agenda := rfl
@[simp] theorem State.vstore_freeCtr (s : State) (q off : Nat) (bs : List Byte) (p : Bool) : (s.vstore q off bs p).freeCtr = s.freeCtr := rfl
@[simp] theorem State.vstore_turn (s : State) (q off : Nat) (bs : List Byte) (p : Bool) : (s.vstore q off bs p).turn = s.turn := rfl
@[simp] theorem State.vstore_clock (s : State) (q off : Nat) (bs : List Byte) (p : Bool) : (s.vstore q off bs p).clock = s.clock := rfl
@[simp] theorem State.vstore_nextId (s : State) (q off : Nat) (bs : List Byte) (p : Bool) : (s.vstore q off bs p).nextId = s.nextId := rfl
@[simp] theorem State.vstore_dev (s : State) (q off : Nat) (bs : List Byte) (p : Bool) : (s.vstore q off bs p).dev = s.dev := rfl
@[simp] theorem State.vstore_pass (s : State) (q off : Nat) (bs : List Byte) (p : Bool) : (s.vstore q off bs p).pass = s.pass := rfl
@[simp] theorem State.vstore_parked (s : State) (q off : Nat) (bs : List Byte) (p : Bool) : (s.vstore q off bs p).parked = s.parked := rfl
@[simp] theorem State.vstore_threads (s : State) (q off : Nat) (bs : List Byte) (p : Bool) : (s.vstore q off bs p).threads = s.threads := rfl
@[simp] theorem State.vstore_entries (s : State) (q off : Nat) (bs : List Byte) (p : Bool) : (s.vstore q off bs p).entries = s.entries := rfl
@[simp] theorem State.vstore_planes (s : State) (q off : Nat) (bs : List Byte) (p : Bool) : (s.vstore q off bs p).planes = s.planes := rfl
@[simp] theorem State.vstore_groups (s : State) (q off : Nat) (bs : List Byte) (p : Bool) : (s.vstore q off bs p).groups = s.groups := rfl
@[simp] theorem State.vstore_greds (s : State) (q off : Nat) (bs : List Byte) (p : Bool) : (s.vstore q off bs p).greds = s.greds := rfl
@[simp] theorem State.vstore_bollards (s : State) (q off : Nat) (bs : List Byte) (p : Bool) : (s.vstore q off bs p).bollards = s.bollards := rfl
@[simp] theorem State.vstore_weighed (s : State) (q off : Nat) (bs : List Byte) (p : Bool) : (s.vstore q off bs p).weighed = s.weighed := rfl
@[simp] theorem State.vstore_ops (s : State) (q off : Nat) (bs : List Byte) (p : Bool) : (s.vstore q off bs p).ops = s.ops := rfl
@[simp] theorem State.vstore_scores (s : State) (q off : Nat) (bs : List Byte) (p : Bool) : (s.vstore q off bs p).scores = s.scores := rfl
@[simp] theorem State.vstore_regions (s : State) (q off : Nat) (bs : List Byte) (p : Bool) : (s.vstore q off bs p).regions = s.regions := rfl
@[simp] theorem State.vstore_latch (s : State) (q off : Nat) (bs : List Byte) (p : Bool) : (s.vstore q off bs p).latch = s.latch := rfl
@[simp] theorem State.vstore_nodes (s : State) (q off : Nat) (bs : List Byte) (p : Bool) : (s.vstore q off bs p).nodes = s.nodes := rfl
@[simp] theorem State.vstore_units (s : State) (q off : Nat) (bs : List Byte) (p : Bool) : (s.vstore q off bs p).units = s.units := rfl
@[simp] theorem State.vstore_mem (s : State) (q off : Nat) (bs : List Byte) (p : Bool) : (s.vstore q off bs p).mem = s.mem := rfl
@[simp] theorem State.vstore_poisoned (s : State) (q off : Nat) (bs : List Byte) (p : Bool) : (s.vstore q off bs p).poisoned = s.poisoned := rfl
@[simp] theorem State.vstore_fills (s : State) (q off : Nat) (bs : List Byte) (p : Bool) : (s.vstore q off bs p).fills = s.fills := rfl
@[simp] theorem State.vstore_framePrio (s : State) (q off : Nat) (bs : List Byte) (p : Bool) : (s.vstore q off bs p).framePrio = s.framePrio := rfl
@[simp] theorem State.vstore_holdWaits (s : State) (q off : Nat) (bs : List Byte) (p : Bool) : (s.vstore q off bs p).holdWaits = s.holdWaits := rfl
@[simp] theorem State.vstore_dir (s : State) (q off : Nat) (bs : List Byte) (p : Bool) : (s.vstore q off bs p).dir = s.dir := rfl
@[simp] theorem State.vstore_copies (s : State) (q off : Nat) (bs : List Byte) (p : Bool) : (s.vstore q off bs p).copies = s.copies := rfl
@[simp] theorem State.vstore_reqs (s : State) (q off : Nat) (bs : List Byte) (p : Bool) : (s.vstore q off bs p).reqs = s.reqs := rfl
@[simp] theorem State.vstore_answers (s : State) (q off : Nat) (bs : List Byte) (p : Bool) : (s.vstore q off bs p).answers = s.answers := rfl
@[simp] theorem State.vstore_replicas (s : State) (q off : Nat) (bs : List Byte) (p : Bool) : (s.vstore q off bs p).replicas = s.replicas := rfl
@[simp] theorem State.vstore_net (s : State) (q off : Nat) (bs : List Byte) (p : Bool) : (s.vstore q off bs p).net = s.net := rfl
@[simp] theorem State.vstore_homeWait (s : State) (q off : Nat) (bs : List Byte) (p : Bool) : (s.vstore q off bs p).homeWait = s.homeWait := rfl
@[simp] theorem State.vstore_collecting (s : State) (q off : Nat) (bs : List Byte) (p : Bool) : (s.vstore q off bs p).collecting = s.collecting := rfl
@[simp] theorem State.vstore_recalls (s : State) (q off : Nat) (bs : List Byte) (p : Bool) : (s.vstore q off bs p).recalls = s.recalls := rfl
@[simp] theorem State.vstore_pers (s : State) (q off : Nat) (bs : List Byte) (p : Bool) : (s.vstore q off bs p).pers = s.pers := rfl
@[simp] theorem State.vstore_frz (s : State) (q off : Nat) (bs : List Byte) (p : Bool) : (s.vstore q off bs p).frz = s.frz := rfl
@[simp] theorem State.vstore_gens (s : State) (q off : Nat) (bs : List Byte) (p : Bool) : (s.vstore q off bs p).gens = s.gens := rfl
@[simp] theorem State.vstore_genWait (s : State) (q off : Nat) (bs : List Byte) (p : Bool) : (s.vstore q off bs p).genWait = s.genWait := rfl
@[simp] theorem State.vstore_sweeps (s : State) (q off : Nat) (bs : List Byte) (p : Bool) : (s.vstore q off bs p).sweeps = s.sweeps := rfl
@[simp] theorem State.vstore_pageOrder (s : State) (q off : Nat) (bs : List Byte) (p : Bool) : (s.vstore q off bs p).pageOrder = s.pageOrder := rfl
@[simp] theorem State.vstore_paying (s : State) (q off : Nat) (bs : List Byte) (p : Bool) : (s.vstore q off bs p).paying = s.paying := rfl
@[simp] theorem State.vstore_farPages (s : State) (q off : Nat) (bs : List Byte) (p : Bool) : (s.vstore q off bs p).farPages = s.farPages := rfl
@[simp] theorem State.vstore_dooms (s : State) (q off : Nat) (bs : List Byte) (p : Bool) : (s.vstore q off bs p).dooms = s.dooms := rfl
@[simp] theorem State.vstore_fmt (s : State) (q off : Nat) (bs : List Byte) (p : Bool) : (s.vstore q off bs p).fmt = s.fmt := rfl
@[simp] theorem State.vstore_sliceOwner (s : State) (q off : Nat) (bs : List Byte) (p : Bool) : (s.vstore q off bs p).sliceOwner = s.sliceOwner := rfl
@[simp] theorem State.vstore_quayPart (s : State) (q off : Nat) (bs : List Byte) (p : Bool) : (s.vstore q off bs p).quayPart = s.quayPart := rfl
@[simp] theorem State.vstore_absent (s : State) (q off : Nat) (bs : List Byte) (p : Bool) : (s.vstore q off bs p).absent = s.absent := rfl
@[simp] theorem State.vstore_partOwner (s : State) (q off : Nat) (bs : List Byte) (p : Bool) : (s.vstore q off bs p).partOwner = s.partOwner := rfl
@[simp] theorem State.vstore_partNet (s : State) (q off : Nat) (bs : List Byte) (p : Bool) : (s.vstore q off bs p).partNet = s.partNet := rfl
@[simp] theorem State.vstore_netpol (s : State) (q off : Nat) (bs : List Byte) (p : Bool) : (s.vstore q off bs p).netpol = s.netpol := rfl
@[simp] theorem State.vstore_tlb (s : State) (q off : Nat) (bs : List Byte) (p : Bool) : (s.vstore q off bs p).tlb = s.tlb := rfl
@[simp] theorem State.vstore_walks (s : State) (q off : Nat) (bs : List Byte) (p : Bool) : (s.vstore q off bs p).walks = s.walks := rfl
@[simp] theorem State.vstore_pgreqs (s : State) (q off : Nat) (bs : List Byte) (p : Bool) : (s.vstore q off bs p).pgreqs = s.pgreqs := rfl
@[simp] theorem State.vstore_ctxs (s : State) (q off : Nat) (bs : List Byte) (p : Bool) : (s.vstore q off bs p).ctxs = s.ctxs := rfl
@[simp] theorem State.vstore_quayCtx (s : State) (q off : Nat) (bs : List Byte) (p : Bool) : (s.vstore q off bs p).quayCtx = s.quayCtx := rfl
@[simp] theorem State.vstore_ctxq (s : State) (q off : Nat) (bs : List Byte) (p : Bool) : (s.vstore q off bs p).ctxq = s.ctxq := rfl
@[simp] theorem State.vstore_handovers (s : State) (q off : Nat) (bs : List Byte) (p : Bool) : (s.vstore q off bs p).handovers = s.handovers := rfl
@[simp] theorem State.vstore_preempts (s : State) (q off : Nat) (bs : List Byte) (p : Bool) : (s.vstore q off bs p).preempts = s.preempts := rfl
@[simp] theorem State.vstore_saves (s : State) (q off : Nat) (bs : List Byte) (p : Bool) : (s.vstore q off bs p).saves = s.saves := rfl
@[simp] theorem State.vstore_areaDue (s : State) (q off : Nat) (bs : List Byte) (p : Bool) : (s.vstore q off bs p).areaDue = s.areaDue := rfl
@[simp] theorem State.vstore_sections (s : State) (q off : Nat) (bs : List Byte) (p : Bool) : (s.vstore q off bs p).sections = s.sections := rfl
@[simp] theorem State.vstore_quota (s : State) (q off : Nat) (bs : List Byte) (p : Bool) : (s.vstore q off bs p).quota = s.quota := rfl
@[simp] theorem State.vstore_meters (s : State) (q off : Nat) (bs : List Byte) (p : Bool) : (s.vstore q off bs p).meters = s.meters := rfl
@[simp] theorem State.vstore_launches (s : State) (q off : Nat) (bs : List Byte) (p : Bool) : (s.vstore q off bs p).launches = s.launches := rfl
@[simp] theorem State.vstore_ready (s : State) (q off : Nat) (bs : List Byte) (p : Bool) : (s.vstore q off bs p).ready = s.ready := rfl
@[simp] theorem State.vstore_lastQueue (s : State) (q off : Nat) (bs : List Byte) (p : Bool) : (s.vstore q off bs p).lastQueue = s.lastQueue := rfl
@[simp] theorem State.vstore_inbox (s : State) (q off : Nat) (bs : List Byte) (p : Bool) : (s.vstore q off bs p).inbox = s.inbox := rfl
@[simp] theorem State.vstore_outbox (s : State) (q off : Nat) (bs : List Byte) (p : Bool) : (s.vstore q off bs p).outbox = s.outbox := rfl
@[simp] theorem State.vstore_links (s : State) (q off : Nat) (bs : List Byte) (p : Bool) : (s.vstore q off bs p).links = s.links := rfl
@[simp] theorem State.vstore_remotes (s : State) (q off : Nat) (bs : List Byte) (p : Bool) : (s.vstore q off bs p).remotes = s.remotes := rfl
@[simp] theorem State.vstore_remoteHolds (s : State) (q off : Nat) (bs : List Byte) (p : Bool) : (s.vstore q off bs p).remoteHolds = s.remoteHolds := rfl
@[simp] theorem State.vstore_farRanks (s : State) (q off : Nat) (bs : List Byte) (p : Bool) : (s.vstore q off bs p).farRanks = s.farRanks := rfl
@[simp] theorem State.vstore_collIn (s : State) (q off : Nat) (bs : List Byte) (p : Bool) : (s.vstore q off bs p).collIn = s.collIn := rfl
@[simp] theorem State.vstore_domain (s : State) (q off : Nat) (bs : List Byte) (p : Bool) : (s.vstore q off bs p).domain = s.domain := rfl
@[simp] theorem State.vstore_upsets (s : State) (q off : Nat) (bs : List Byte) (p : Bool) : (s.vstore q off bs p).upsets = s.upsets := rfl

/-! ### `post` changes the messages in flight and the meters alone -/

@[simp] theorem State.post_agenda (s : State) (m : NetMsg) : (s.post m).agenda = s.agenda := rfl
@[simp] theorem State.post_freeCtr (s : State) (m : NetMsg) : (s.post m).freeCtr = s.freeCtr := rfl
@[simp] theorem State.post_turn (s : State) (m : NetMsg) : (s.post m).turn = s.turn := rfl
@[simp] theorem State.post_clock (s : State) (m : NetMsg) : (s.post m).clock = s.clock := rfl
@[simp] theorem State.post_nextId (s : State) (m : NetMsg) : (s.post m).nextId = s.nextId := rfl
@[simp] theorem State.post_dev (s : State) (m : NetMsg) : (s.post m).dev = s.dev := rfl
@[simp] theorem State.post_pass (s : State) (m : NetMsg) : (s.post m).pass = s.pass := rfl
@[simp] theorem State.post_parked (s : State) (m : NetMsg) : (s.post m).parked = s.parked := rfl
@[simp] theorem State.post_threads (s : State) (m : NetMsg) : (s.post m).threads = s.threads := rfl
@[simp] theorem State.post_entries (s : State) (m : NetMsg) : (s.post m).entries = s.entries := rfl
@[simp] theorem State.post_planes (s : State) (m : NetMsg) : (s.post m).planes = s.planes := rfl
@[simp] theorem State.post_groups (s : State) (m : NetMsg) : (s.post m).groups = s.groups := rfl
@[simp] theorem State.post_greds (s : State) (m : NetMsg) : (s.post m).greds = s.greds := rfl
@[simp] theorem State.post_waits (s : State) (m : NetMsg) : (s.post m).waits = s.waits := rfl
@[simp] theorem State.post_bollards (s : State) (m : NetMsg) : (s.post m).bollards = s.bollards := rfl
@[simp] theorem State.post_weighed (s : State) (m : NetMsg) : (s.post m).weighed = s.weighed := rfl
@[simp] theorem State.post_ops (s : State) (m : NetMsg) : (s.post m).ops = s.ops := rfl
@[simp] theorem State.post_scores (s : State) (m : NetMsg) : (s.post m).scores = s.scores := rfl
@[simp] theorem State.post_regions (s : State) (m : NetMsg) : (s.post m).regions = s.regions := rfl
@[simp] theorem State.post_latch (s : State) (m : NetMsg) : (s.post m).latch = s.latch := rfl
@[simp] theorem State.post_nodes (s : State) (m : NetMsg) : (s.post m).nodes = s.nodes := rfl
@[simp] theorem State.post_units (s : State) (m : NetMsg) : (s.post m).units = s.units := rfl
@[simp] theorem State.post_mem (s : State) (m : NetMsg) : (s.post m).mem = s.mem := rfl
@[simp] theorem State.post_poisoned (s : State) (m : NetMsg) : (s.post m).poisoned = s.poisoned := rfl
@[simp] theorem State.post_vmem (s : State) (m : NetMsg) : (s.post m).vmem = s.vmem := rfl
@[simp] theorem State.post_vlines (s : State) (m : NetMsg) : (s.post m).vlines = s.vlines := rfl
@[simp] theorem State.post_presence (s : State) (m : NetMsg) : (s.post m).presence = s.presence := rfl
@[simp] theorem State.post_vwritten (s : State) (m : NetMsg) : (s.post m).vwritten = s.vwritten := rfl
@[simp] theorem State.post_fills (s : State) (m : NetMsg) : (s.post m).fills = s.fills := rfl
@[simp] theorem State.post_framePrio (s : State) (m : NetMsg) : (s.post m).framePrio = s.framePrio := rfl
@[simp] theorem State.post_holdWaits (s : State) (m : NetMsg) : (s.post m).holdWaits = s.holdWaits := rfl
@[simp] theorem State.post_dir (s : State) (m : NetMsg) : (s.post m).dir = s.dir := rfl
@[simp] theorem State.post_copies (s : State) (m : NetMsg) : (s.post m).copies = s.copies := rfl
@[simp] theorem State.post_reqs (s : State) (m : NetMsg) : (s.post m).reqs = s.reqs := rfl
@[simp] theorem State.post_answers (s : State) (m : NetMsg) : (s.post m).answers = s.answers := rfl
@[simp] theorem State.post_replicas (s : State) (m : NetMsg) : (s.post m).replicas = s.replicas := rfl
@[simp] theorem State.post_homeWait (s : State) (m : NetMsg) : (s.post m).homeWait = s.homeWait := rfl
@[simp] theorem State.post_collecting (s : State) (m : NetMsg) : (s.post m).collecting = s.collecting := rfl
@[simp] theorem State.post_recalls (s : State) (m : NetMsg) : (s.post m).recalls = s.recalls := rfl
@[simp] theorem State.post_pers (s : State) (m : NetMsg) : (s.post m).pers = s.pers := rfl
@[simp] theorem State.post_frz (s : State) (m : NetMsg) : (s.post m).frz = s.frz := rfl
@[simp] theorem State.post_gens (s : State) (m : NetMsg) : (s.post m).gens = s.gens := rfl
@[simp] theorem State.post_genWait (s : State) (m : NetMsg) : (s.post m).genWait = s.genWait := rfl
@[simp] theorem State.post_sweeps (s : State) (m : NetMsg) : (s.post m).sweeps = s.sweeps := rfl
@[simp] theorem State.post_pageOrder (s : State) (m : NetMsg) : (s.post m).pageOrder = s.pageOrder := rfl
@[simp] theorem State.post_paying (s : State) (m : NetMsg) : (s.post m).paying = s.paying := rfl
@[simp] theorem State.post_farPages (s : State) (m : NetMsg) : (s.post m).farPages = s.farPages := rfl
@[simp] theorem State.post_dooms (s : State) (m : NetMsg) : (s.post m).dooms = s.dooms := rfl
@[simp] theorem State.post_fmt (s : State) (m : NetMsg) : (s.post m).fmt = s.fmt := rfl
@[simp] theorem State.post_sliceOwner (s : State) (m : NetMsg) : (s.post m).sliceOwner = s.sliceOwner := rfl
@[simp] theorem State.post_quayPart (s : State) (m : NetMsg) : (s.post m).quayPart = s.quayPart := rfl
@[simp] theorem State.post_absent (s : State) (m : NetMsg) : (s.post m).absent = s.absent := rfl
@[simp] theorem State.post_partOwner (s : State) (m : NetMsg) : (s.post m).partOwner = s.partOwner := rfl
@[simp] theorem State.post_partNet (s : State) (m : NetMsg) : (s.post m).partNet = s.partNet := rfl
@[simp] theorem State.post_netpol (s : State) (m : NetMsg) : (s.post m).netpol = s.netpol := rfl
@[simp] theorem State.post_tlb (s : State) (m : NetMsg) : (s.post m).tlb = s.tlb := rfl
@[simp] theorem State.post_walks (s : State) (m : NetMsg) : (s.post m).walks = s.walks := rfl
@[simp] theorem State.post_pgreqs (s : State) (m : NetMsg) : (s.post m).pgreqs = s.pgreqs := rfl
@[simp] theorem State.post_ctxs (s : State) (m : NetMsg) : (s.post m).ctxs = s.ctxs := rfl
@[simp] theorem State.post_quayCtx (s : State) (m : NetMsg) : (s.post m).quayCtx = s.quayCtx := rfl
@[simp] theorem State.post_ctxq (s : State) (m : NetMsg) : (s.post m).ctxq = s.ctxq := rfl
@[simp] theorem State.post_handovers (s : State) (m : NetMsg) : (s.post m).handovers = s.handovers := rfl
@[simp] theorem State.post_preempts (s : State) (m : NetMsg) : (s.post m).preempts = s.preempts := rfl
@[simp] theorem State.post_saves (s : State) (m : NetMsg) : (s.post m).saves = s.saves := rfl
@[simp] theorem State.post_areaDue (s : State) (m : NetMsg) : (s.post m).areaDue = s.areaDue := rfl
@[simp] theorem State.post_sections (s : State) (m : NetMsg) : (s.post m).sections = s.sections := rfl
@[simp] theorem State.post_quota (s : State) (m : NetMsg) : (s.post m).quota = s.quota := rfl
@[simp] theorem State.post_launches (s : State) (m : NetMsg) : (s.post m).launches = s.launches := rfl
@[simp] theorem State.post_ready (s : State) (m : NetMsg) : (s.post m).ready = s.ready := rfl
@[simp] theorem State.post_lastQueue (s : State) (m : NetMsg) : (s.post m).lastQueue = s.lastQueue := rfl
@[simp] theorem State.post_inbox (s : State) (m : NetMsg) : (s.post m).inbox = s.inbox := rfl
@[simp] theorem State.post_outbox (s : State) (m : NetMsg) : (s.post m).outbox = s.outbox := rfl
@[simp] theorem State.post_links (s : State) (m : NetMsg) : (s.post m).links = s.links := rfl
@[simp] theorem State.post_remotes (s : State) (m : NetMsg) : (s.post m).remotes = s.remotes := rfl
@[simp] theorem State.post_remoteHolds (s : State) (m : NetMsg) : (s.post m).remoteHolds = s.remoteHolds := rfl
@[simp] theorem State.post_farRanks (s : State) (m : NetMsg) : (s.post m).farRanks = s.farRanks := rfl
@[simp] theorem State.post_collIn (s : State) (m : NetMsg) : (s.post m).collIn = s.collIn := rfl
@[simp] theorem State.post_domain (s : State) (m : NetMsg) : (s.post m).domain = s.domain := rfl
@[simp] theorem State.post_upsets (s : State) (m : NetMsg) : (s.post m).upsets = s.upsets := rfl

/-! ### `payBy` changes the payer of the messages alone -/

@[simp] theorem State.payBy_agenda (s : State) (c : Nat) : (s.payBy c).agenda = s.agenda := rfl
@[simp] theorem State.payBy_freeCtr (s : State) (c : Nat) : (s.payBy c).freeCtr = s.freeCtr := rfl
@[simp] theorem State.payBy_turn (s : State) (c : Nat) : (s.payBy c).turn = s.turn := rfl
@[simp] theorem State.payBy_clock (s : State) (c : Nat) : (s.payBy c).clock = s.clock := rfl
@[simp] theorem State.payBy_nextId (s : State) (c : Nat) : (s.payBy c).nextId = s.nextId := rfl
@[simp] theorem State.payBy_dev (s : State) (c : Nat) : (s.payBy c).dev = s.dev := rfl
@[simp] theorem State.payBy_pass (s : State) (c : Nat) : (s.payBy c).pass = s.pass := rfl
@[simp] theorem State.payBy_parked (s : State) (c : Nat) : (s.payBy c).parked = s.parked := rfl
@[simp] theorem State.payBy_threads (s : State) (c : Nat) : (s.payBy c).threads = s.threads := rfl
@[simp] theorem State.payBy_entries (s : State) (c : Nat) : (s.payBy c).entries = s.entries := rfl
@[simp] theorem State.payBy_planes (s : State) (c : Nat) : (s.payBy c).planes = s.planes := rfl
@[simp] theorem State.payBy_groups (s : State) (c : Nat) : (s.payBy c).groups = s.groups := rfl
@[simp] theorem State.payBy_greds (s : State) (c : Nat) : (s.payBy c).greds = s.greds := rfl
@[simp] theorem State.payBy_waits (s : State) (c : Nat) : (s.payBy c).waits = s.waits := rfl
@[simp] theorem State.payBy_bollards (s : State) (c : Nat) : (s.payBy c).bollards = s.bollards := rfl
@[simp] theorem State.payBy_weighed (s : State) (c : Nat) : (s.payBy c).weighed = s.weighed := rfl
@[simp] theorem State.payBy_ops (s : State) (c : Nat) : (s.payBy c).ops = s.ops := rfl
@[simp] theorem State.payBy_scores (s : State) (c : Nat) : (s.payBy c).scores = s.scores := rfl
@[simp] theorem State.payBy_regions (s : State) (c : Nat) : (s.payBy c).regions = s.regions := rfl
@[simp] theorem State.payBy_latch (s : State) (c : Nat) : (s.payBy c).latch = s.latch := rfl
@[simp] theorem State.payBy_nodes (s : State) (c : Nat) : (s.payBy c).nodes = s.nodes := rfl
@[simp] theorem State.payBy_units (s : State) (c : Nat) : (s.payBy c).units = s.units := rfl
@[simp] theorem State.payBy_mem (s : State) (c : Nat) : (s.payBy c).mem = s.mem := rfl
@[simp] theorem State.payBy_poisoned (s : State) (c : Nat) : (s.payBy c).poisoned = s.poisoned := rfl
@[simp] theorem State.payBy_vmem (s : State) (c : Nat) : (s.payBy c).vmem = s.vmem := rfl
@[simp] theorem State.payBy_vlines (s : State) (c : Nat) : (s.payBy c).vlines = s.vlines := rfl
@[simp] theorem State.payBy_presence (s : State) (c : Nat) : (s.payBy c).presence = s.presence := rfl
@[simp] theorem State.payBy_vwritten (s : State) (c : Nat) : (s.payBy c).vwritten = s.vwritten := rfl
@[simp] theorem State.payBy_fills (s : State) (c : Nat) : (s.payBy c).fills = s.fills := rfl
@[simp] theorem State.payBy_framePrio (s : State) (c : Nat) : (s.payBy c).framePrio = s.framePrio := rfl
@[simp] theorem State.payBy_holdWaits (s : State) (c : Nat) : (s.payBy c).holdWaits = s.holdWaits := rfl
@[simp] theorem State.payBy_dir (s : State) (c : Nat) : (s.payBy c).dir = s.dir := rfl
@[simp] theorem State.payBy_copies (s : State) (c : Nat) : (s.payBy c).copies = s.copies := rfl
@[simp] theorem State.payBy_reqs (s : State) (c : Nat) : (s.payBy c).reqs = s.reqs := rfl
@[simp] theorem State.payBy_answers (s : State) (c : Nat) : (s.payBy c).answers = s.answers := rfl
@[simp] theorem State.payBy_replicas (s : State) (c : Nat) : (s.payBy c).replicas = s.replicas := rfl
@[simp] theorem State.payBy_net (s : State) (c : Nat) : (s.payBy c).net = s.net := rfl
@[simp] theorem State.payBy_homeWait (s : State) (c : Nat) : (s.payBy c).homeWait = s.homeWait := rfl
@[simp] theorem State.payBy_collecting (s : State) (c : Nat) : (s.payBy c).collecting = s.collecting := rfl
@[simp] theorem State.payBy_recalls (s : State) (c : Nat) : (s.payBy c).recalls = s.recalls := rfl
@[simp] theorem State.payBy_pers (s : State) (c : Nat) : (s.payBy c).pers = s.pers := rfl
@[simp] theorem State.payBy_frz (s : State) (c : Nat) : (s.payBy c).frz = s.frz := rfl
@[simp] theorem State.payBy_gens (s : State) (c : Nat) : (s.payBy c).gens = s.gens := rfl
@[simp] theorem State.payBy_genWait (s : State) (c : Nat) : (s.payBy c).genWait = s.genWait := rfl
@[simp] theorem State.payBy_sweeps (s : State) (c : Nat) : (s.payBy c).sweeps = s.sweeps := rfl
@[simp] theorem State.payBy_pageOrder (s : State) (c : Nat) : (s.payBy c).pageOrder = s.pageOrder := rfl
@[simp] theorem State.payBy_farPages (s : State) (c : Nat) : (s.payBy c).farPages = s.farPages := rfl
@[simp] theorem State.payBy_dooms (s : State) (c : Nat) : (s.payBy c).dooms = s.dooms := rfl
@[simp] theorem State.payBy_fmt (s : State) (c : Nat) : (s.payBy c).fmt = s.fmt := rfl
@[simp] theorem State.payBy_sliceOwner (s : State) (c : Nat) : (s.payBy c).sliceOwner = s.sliceOwner := rfl
@[simp] theorem State.payBy_quayPart (s : State) (c : Nat) : (s.payBy c).quayPart = s.quayPart := rfl
@[simp] theorem State.payBy_absent (s : State) (c : Nat) : (s.payBy c).absent = s.absent := rfl
@[simp] theorem State.payBy_partOwner (s : State) (c : Nat) : (s.payBy c).partOwner = s.partOwner := rfl
@[simp] theorem State.payBy_partNet (s : State) (c : Nat) : (s.payBy c).partNet = s.partNet := rfl
@[simp] theorem State.payBy_netpol (s : State) (c : Nat) : (s.payBy c).netpol = s.netpol := rfl
@[simp] theorem State.payBy_tlb (s : State) (c : Nat) : (s.payBy c).tlb = s.tlb := rfl
@[simp] theorem State.payBy_walks (s : State) (c : Nat) : (s.payBy c).walks = s.walks := rfl
@[simp] theorem State.payBy_pgreqs (s : State) (c : Nat) : (s.payBy c).pgreqs = s.pgreqs := rfl
@[simp] theorem State.payBy_ctxs (s : State) (c : Nat) : (s.payBy c).ctxs = s.ctxs := rfl
@[simp] theorem State.payBy_quayCtx (s : State) (c : Nat) : (s.payBy c).quayCtx = s.quayCtx := rfl
@[simp] theorem State.payBy_ctxq (s : State) (c : Nat) : (s.payBy c).ctxq = s.ctxq := rfl
@[simp] theorem State.payBy_handovers (s : State) (c : Nat) : (s.payBy c).handovers = s.handovers := rfl
@[simp] theorem State.payBy_preempts (s : State) (c : Nat) : (s.payBy c).preempts = s.preempts := rfl
@[simp] theorem State.payBy_saves (s : State) (c : Nat) : (s.payBy c).saves = s.saves := rfl
@[simp] theorem State.payBy_areaDue (s : State) (c : Nat) : (s.payBy c).areaDue = s.areaDue := rfl
@[simp] theorem State.payBy_sections (s : State) (c : Nat) : (s.payBy c).sections = s.sections := rfl
@[simp] theorem State.payBy_quota (s : State) (c : Nat) : (s.payBy c).quota = s.quota := rfl
@[simp] theorem State.payBy_meters (s : State) (c : Nat) : (s.payBy c).meters = s.meters := rfl
@[simp] theorem State.payBy_launches (s : State) (c : Nat) : (s.payBy c).launches = s.launches := rfl
@[simp] theorem State.payBy_ready (s : State) (c : Nat) : (s.payBy c).ready = s.ready := rfl
@[simp] theorem State.payBy_lastQueue (s : State) (c : Nat) : (s.payBy c).lastQueue = s.lastQueue := rfl
@[simp] theorem State.payBy_inbox (s : State) (c : Nat) : (s.payBy c).inbox = s.inbox := rfl
@[simp] theorem State.payBy_outbox (s : State) (c : Nat) : (s.payBy c).outbox = s.outbox := rfl
@[simp] theorem State.payBy_links (s : State) (c : Nat) : (s.payBy c).links = s.links := rfl
@[simp] theorem State.payBy_remotes (s : State) (c : Nat) : (s.payBy c).remotes = s.remotes := rfl
@[simp] theorem State.payBy_remoteHolds (s : State) (c : Nat) : (s.payBy c).remoteHolds = s.remoteHolds := rfl
@[simp] theorem State.payBy_farRanks (s : State) (c : Nat) : (s.payBy c).farRanks = s.farRanks := rfl
@[simp] theorem State.payBy_collIn (s : State) (c : Nat) : (s.payBy c).collIn = s.collIn := rfl
@[simp] theorem State.payBy_domain (s : State) (c : Nat) : (s.payBy c).domain = s.domain := rfl
@[simp] theorem State.payBy_upsets (s : State) (c : Nat) : (s.payBy c).upsets = s.upsets := rfl

/-! ### `modOp` changes the operations alone -/

@[simp] theorem State.modOp_agenda (s : State) (id : Nat) (f : EngOp → EngOp) : (s.modOp id f).agenda = s.agenda := rfl
@[simp] theorem State.modOp_freeCtr (s : State) (id : Nat) (f : EngOp → EngOp) : (s.modOp id f).freeCtr = s.freeCtr := rfl
@[simp] theorem State.modOp_turn (s : State) (id : Nat) (f : EngOp → EngOp) : (s.modOp id f).turn = s.turn := rfl
@[simp] theorem State.modOp_clock (s : State) (id : Nat) (f : EngOp → EngOp) : (s.modOp id f).clock = s.clock := rfl
@[simp] theorem State.modOp_nextId (s : State) (id : Nat) (f : EngOp → EngOp) : (s.modOp id f).nextId = s.nextId := rfl
@[simp] theorem State.modOp_dev (s : State) (id : Nat) (f : EngOp → EngOp) : (s.modOp id f).dev = s.dev := rfl
@[simp] theorem State.modOp_pass (s : State) (id : Nat) (f : EngOp → EngOp) : (s.modOp id f).pass = s.pass := rfl
@[simp] theorem State.modOp_parked (s : State) (id : Nat) (f : EngOp → EngOp) : (s.modOp id f).parked = s.parked := rfl
@[simp] theorem State.modOp_threads (s : State) (id : Nat) (f : EngOp → EngOp) : (s.modOp id f).threads = s.threads := rfl
@[simp] theorem State.modOp_entries (s : State) (id : Nat) (f : EngOp → EngOp) : (s.modOp id f).entries = s.entries := rfl
@[simp] theorem State.modOp_planes (s : State) (id : Nat) (f : EngOp → EngOp) : (s.modOp id f).planes = s.planes := rfl
@[simp] theorem State.modOp_groups (s : State) (id : Nat) (f : EngOp → EngOp) : (s.modOp id f).groups = s.groups := rfl
@[simp] theorem State.modOp_greds (s : State) (id : Nat) (f : EngOp → EngOp) : (s.modOp id f).greds = s.greds := rfl
@[simp] theorem State.modOp_waits (s : State) (id : Nat) (f : EngOp → EngOp) : (s.modOp id f).waits = s.waits := rfl
@[simp] theorem State.modOp_bollards (s : State) (id : Nat) (f : EngOp → EngOp) : (s.modOp id f).bollards = s.bollards := rfl
@[simp] theorem State.modOp_weighed (s : State) (id : Nat) (f : EngOp → EngOp) : (s.modOp id f).weighed = s.weighed := rfl
@[simp] theorem State.modOp_scores (s : State) (id : Nat) (f : EngOp → EngOp) : (s.modOp id f).scores = s.scores := rfl
@[simp] theorem State.modOp_regions (s : State) (id : Nat) (f : EngOp → EngOp) : (s.modOp id f).regions = s.regions := rfl
@[simp] theorem State.modOp_latch (s : State) (id : Nat) (f : EngOp → EngOp) : (s.modOp id f).latch = s.latch := rfl
@[simp] theorem State.modOp_nodes (s : State) (id : Nat) (f : EngOp → EngOp) : (s.modOp id f).nodes = s.nodes := rfl
@[simp] theorem State.modOp_units (s : State) (id : Nat) (f : EngOp → EngOp) : (s.modOp id f).units = s.units := rfl
@[simp] theorem State.modOp_mem (s : State) (id : Nat) (f : EngOp → EngOp) : (s.modOp id f).mem = s.mem := rfl
@[simp] theorem State.modOp_poisoned (s : State) (id : Nat) (f : EngOp → EngOp) : (s.modOp id f).poisoned = s.poisoned := rfl
@[simp] theorem State.modOp_vmem (s : State) (id : Nat) (f : EngOp → EngOp) : (s.modOp id f).vmem = s.vmem := rfl
@[simp] theorem State.modOp_vlines (s : State) (id : Nat) (f : EngOp → EngOp) : (s.modOp id f).vlines = s.vlines := rfl
@[simp] theorem State.modOp_presence (s : State) (id : Nat) (f : EngOp → EngOp) : (s.modOp id f).presence = s.presence := rfl
@[simp] theorem State.modOp_vwritten (s : State) (id : Nat) (f : EngOp → EngOp) : (s.modOp id f).vwritten = s.vwritten := rfl
@[simp] theorem State.modOp_fills (s : State) (id : Nat) (f : EngOp → EngOp) : (s.modOp id f).fills = s.fills := rfl
@[simp] theorem State.modOp_framePrio (s : State) (id : Nat) (f : EngOp → EngOp) : (s.modOp id f).framePrio = s.framePrio := rfl
@[simp] theorem State.modOp_holdWaits (s : State) (id : Nat) (f : EngOp → EngOp) : (s.modOp id f).holdWaits = s.holdWaits := rfl
@[simp] theorem State.modOp_dir (s : State) (id : Nat) (f : EngOp → EngOp) : (s.modOp id f).dir = s.dir := rfl
@[simp] theorem State.modOp_copies (s : State) (id : Nat) (f : EngOp → EngOp) : (s.modOp id f).copies = s.copies := rfl
@[simp] theorem State.modOp_reqs (s : State) (id : Nat) (f : EngOp → EngOp) : (s.modOp id f).reqs = s.reqs := rfl
@[simp] theorem State.modOp_answers (s : State) (id : Nat) (f : EngOp → EngOp) : (s.modOp id f).answers = s.answers := rfl
@[simp] theorem State.modOp_replicas (s : State) (id : Nat) (f : EngOp → EngOp) : (s.modOp id f).replicas = s.replicas := rfl
@[simp] theorem State.modOp_net (s : State) (id : Nat) (f : EngOp → EngOp) : (s.modOp id f).net = s.net := rfl
@[simp] theorem State.modOp_homeWait (s : State) (id : Nat) (f : EngOp → EngOp) : (s.modOp id f).homeWait = s.homeWait := rfl
@[simp] theorem State.modOp_collecting (s : State) (id : Nat) (f : EngOp → EngOp) : (s.modOp id f).collecting = s.collecting := rfl
@[simp] theorem State.modOp_recalls (s : State) (id : Nat) (f : EngOp → EngOp) : (s.modOp id f).recalls = s.recalls := rfl
@[simp] theorem State.modOp_pers (s : State) (id : Nat) (f : EngOp → EngOp) : (s.modOp id f).pers = s.pers := rfl
@[simp] theorem State.modOp_frz (s : State) (id : Nat) (f : EngOp → EngOp) : (s.modOp id f).frz = s.frz := rfl
@[simp] theorem State.modOp_gens (s : State) (id : Nat) (f : EngOp → EngOp) : (s.modOp id f).gens = s.gens := rfl
@[simp] theorem State.modOp_genWait (s : State) (id : Nat) (f : EngOp → EngOp) : (s.modOp id f).genWait = s.genWait := rfl
@[simp] theorem State.modOp_sweeps (s : State) (id : Nat) (f : EngOp → EngOp) : (s.modOp id f).sweeps = s.sweeps := rfl
@[simp] theorem State.modOp_pageOrder (s : State) (id : Nat) (f : EngOp → EngOp) : (s.modOp id f).pageOrder = s.pageOrder := rfl
@[simp] theorem State.modOp_paying (s : State) (id : Nat) (f : EngOp → EngOp) : (s.modOp id f).paying = s.paying := rfl
@[simp] theorem State.modOp_farPages (s : State) (id : Nat) (f : EngOp → EngOp) : (s.modOp id f).farPages = s.farPages := rfl
@[simp] theorem State.modOp_dooms (s : State) (id : Nat) (f : EngOp → EngOp) : (s.modOp id f).dooms = s.dooms := rfl
@[simp] theorem State.modOp_fmt (s : State) (id : Nat) (f : EngOp → EngOp) : (s.modOp id f).fmt = s.fmt := rfl
@[simp] theorem State.modOp_sliceOwner (s : State) (id : Nat) (f : EngOp → EngOp) : (s.modOp id f).sliceOwner = s.sliceOwner := rfl
@[simp] theorem State.modOp_quayPart (s : State) (id : Nat) (f : EngOp → EngOp) : (s.modOp id f).quayPart = s.quayPart := rfl
@[simp] theorem State.modOp_absent (s : State) (id : Nat) (f : EngOp → EngOp) : (s.modOp id f).absent = s.absent := rfl
@[simp] theorem State.modOp_partOwner (s : State) (id : Nat) (f : EngOp → EngOp) : (s.modOp id f).partOwner = s.partOwner := rfl
@[simp] theorem State.modOp_partNet (s : State) (id : Nat) (f : EngOp → EngOp) : (s.modOp id f).partNet = s.partNet := rfl
@[simp] theorem State.modOp_netpol (s : State) (id : Nat) (f : EngOp → EngOp) : (s.modOp id f).netpol = s.netpol := rfl
@[simp] theorem State.modOp_tlb (s : State) (id : Nat) (f : EngOp → EngOp) : (s.modOp id f).tlb = s.tlb := rfl
@[simp] theorem State.modOp_walks (s : State) (id : Nat) (f : EngOp → EngOp) : (s.modOp id f).walks = s.walks := rfl
@[simp] theorem State.modOp_pgreqs (s : State) (id : Nat) (f : EngOp → EngOp) : (s.modOp id f).pgreqs = s.pgreqs := rfl
@[simp] theorem State.modOp_ctxs (s : State) (id : Nat) (f : EngOp → EngOp) : (s.modOp id f).ctxs = s.ctxs := rfl
@[simp] theorem State.modOp_quayCtx (s : State) (id : Nat) (f : EngOp → EngOp) : (s.modOp id f).quayCtx = s.quayCtx := rfl
@[simp] theorem State.modOp_ctxq (s : State) (id : Nat) (f : EngOp → EngOp) : (s.modOp id f).ctxq = s.ctxq := rfl
@[simp] theorem State.modOp_handovers (s : State) (id : Nat) (f : EngOp → EngOp) : (s.modOp id f).handovers = s.handovers := rfl
@[simp] theorem State.modOp_preempts (s : State) (id : Nat) (f : EngOp → EngOp) : (s.modOp id f).preempts = s.preempts := rfl
@[simp] theorem State.modOp_saves (s : State) (id : Nat) (f : EngOp → EngOp) : (s.modOp id f).saves = s.saves := rfl
@[simp] theorem State.modOp_areaDue (s : State) (id : Nat) (f : EngOp → EngOp) : (s.modOp id f).areaDue = s.areaDue := rfl
@[simp] theorem State.modOp_sections (s : State) (id : Nat) (f : EngOp → EngOp) : (s.modOp id f).sections = s.sections := rfl
@[simp] theorem State.modOp_quota (s : State) (id : Nat) (f : EngOp → EngOp) : (s.modOp id f).quota = s.quota := rfl
@[simp] theorem State.modOp_meters (s : State) (id : Nat) (f : EngOp → EngOp) : (s.modOp id f).meters = s.meters := rfl
@[simp] theorem State.modOp_launches (s : State) (id : Nat) (f : EngOp → EngOp) : (s.modOp id f).launches = s.launches := rfl
@[simp] theorem State.modOp_ready (s : State) (id : Nat) (f : EngOp → EngOp) : (s.modOp id f).ready = s.ready := rfl
@[simp] theorem State.modOp_lastQueue (s : State) (id : Nat) (f : EngOp → EngOp) : (s.modOp id f).lastQueue = s.lastQueue := rfl
@[simp] theorem State.modOp_inbox (s : State) (id : Nat) (f : EngOp → EngOp) : (s.modOp id f).inbox = s.inbox := rfl
@[simp] theorem State.modOp_outbox (s : State) (id : Nat) (f : EngOp → EngOp) : (s.modOp id f).outbox = s.outbox := rfl
@[simp] theorem State.modOp_links (s : State) (id : Nat) (f : EngOp → EngOp) : (s.modOp id f).links = s.links := rfl
@[simp] theorem State.modOp_remotes (s : State) (id : Nat) (f : EngOp → EngOp) : (s.modOp id f).remotes = s.remotes := rfl
@[simp] theorem State.modOp_remoteHolds (s : State) (id : Nat) (f : EngOp → EngOp) : (s.modOp id f).remoteHolds = s.remoteHolds := rfl
@[simp] theorem State.modOp_farRanks (s : State) (id : Nat) (f : EngOp → EngOp) : (s.modOp id f).farRanks = s.farRanks := rfl
@[simp] theorem State.modOp_collIn (s : State) (id : Nat) (f : EngOp → EngOp) : (s.modOp id f).collIn = s.collIn := rfl
@[simp] theorem State.modOp_domain (s : State) (id : Nat) (f : EngOp → EngOp) : (s.modOp id f).domain = s.domain := rfl
@[simp] theorem State.modOp_upsets (s : State) (id : Nat) (f : EngOp → EngOp) : (s.modOp id f).upsets = s.upsets := rfl

/-! ### `setPlane` changes the planes alone -/

@[simp] theorem State.setPlane_agenda (s : State) (p : Plane) : (s.setPlane p).agenda = s.agenda := rfl
@[simp] theorem State.setPlane_freeCtr (s : State) (p : Plane) : (s.setPlane p).freeCtr = s.freeCtr := rfl
@[simp] theorem State.setPlane_turn (s : State) (p : Plane) : (s.setPlane p).turn = s.turn := rfl
@[simp] theorem State.setPlane_clock (s : State) (p : Plane) : (s.setPlane p).clock = s.clock := rfl
@[simp] theorem State.setPlane_nextId (s : State) (p : Plane) : (s.setPlane p).nextId = s.nextId := rfl
@[simp] theorem State.setPlane_dev (s : State) (p : Plane) : (s.setPlane p).dev = s.dev := rfl
@[simp] theorem State.setPlane_pass (s : State) (p : Plane) : (s.setPlane p).pass = s.pass := rfl
@[simp] theorem State.setPlane_parked (s : State) (p : Plane) : (s.setPlane p).parked = s.parked := rfl
@[simp] theorem State.setPlane_threads (s : State) (p : Plane) : (s.setPlane p).threads = s.threads := rfl
@[simp] theorem State.setPlane_entries (s : State) (p : Plane) : (s.setPlane p).entries = s.entries := rfl
@[simp] theorem State.setPlane_groups (s : State) (p : Plane) : (s.setPlane p).groups = s.groups := rfl
@[simp] theorem State.setPlane_greds (s : State) (p : Plane) : (s.setPlane p).greds = s.greds := rfl
@[simp] theorem State.setPlane_waits (s : State) (p : Plane) : (s.setPlane p).waits = s.waits := rfl
@[simp] theorem State.setPlane_bollards (s : State) (p : Plane) : (s.setPlane p).bollards = s.bollards := rfl
@[simp] theorem State.setPlane_weighed (s : State) (p : Plane) : (s.setPlane p).weighed = s.weighed := rfl
@[simp] theorem State.setPlane_ops (s : State) (p : Plane) : (s.setPlane p).ops = s.ops := rfl
@[simp] theorem State.setPlane_scores (s : State) (p : Plane) : (s.setPlane p).scores = s.scores := rfl
@[simp] theorem State.setPlane_regions (s : State) (p : Plane) : (s.setPlane p).regions = s.regions := rfl
@[simp] theorem State.setPlane_latch (s : State) (p : Plane) : (s.setPlane p).latch = s.latch := rfl
@[simp] theorem State.setPlane_nodes (s : State) (p : Plane) : (s.setPlane p).nodes = s.nodes := rfl
@[simp] theorem State.setPlane_units (s : State) (p : Plane) : (s.setPlane p).units = s.units := rfl
@[simp] theorem State.setPlane_mem (s : State) (p : Plane) : (s.setPlane p).mem = s.mem := rfl
@[simp] theorem State.setPlane_poisoned (s : State) (p : Plane) : (s.setPlane p).poisoned = s.poisoned := rfl
@[simp] theorem State.setPlane_vmem (s : State) (p : Plane) : (s.setPlane p).vmem = s.vmem := rfl
@[simp] theorem State.setPlane_vlines (s : State) (p : Plane) : (s.setPlane p).vlines = s.vlines := rfl
@[simp] theorem State.setPlane_presence (s : State) (p : Plane) : (s.setPlane p).presence = s.presence := rfl
@[simp] theorem State.setPlane_vwritten (s : State) (p : Plane) : (s.setPlane p).vwritten = s.vwritten := rfl
@[simp] theorem State.setPlane_fills (s : State) (p : Plane) : (s.setPlane p).fills = s.fills := rfl
@[simp] theorem State.setPlane_framePrio (s : State) (p : Plane) : (s.setPlane p).framePrio = s.framePrio := rfl
@[simp] theorem State.setPlane_holdWaits (s : State) (p : Plane) : (s.setPlane p).holdWaits = s.holdWaits := rfl
@[simp] theorem State.setPlane_dir (s : State) (p : Plane) : (s.setPlane p).dir = s.dir := rfl
@[simp] theorem State.setPlane_copies (s : State) (p : Plane) : (s.setPlane p).copies = s.copies := rfl
@[simp] theorem State.setPlane_reqs (s : State) (p : Plane) : (s.setPlane p).reqs = s.reqs := rfl
@[simp] theorem State.setPlane_answers (s : State) (p : Plane) : (s.setPlane p).answers = s.answers := rfl
@[simp] theorem State.setPlane_replicas (s : State) (p : Plane) : (s.setPlane p).replicas = s.replicas := rfl
@[simp] theorem State.setPlane_net (s : State) (p : Plane) : (s.setPlane p).net = s.net := rfl
@[simp] theorem State.setPlane_homeWait (s : State) (p : Plane) : (s.setPlane p).homeWait = s.homeWait := rfl
@[simp] theorem State.setPlane_collecting (s : State) (p : Plane) : (s.setPlane p).collecting = s.collecting := rfl
@[simp] theorem State.setPlane_recalls (s : State) (p : Plane) : (s.setPlane p).recalls = s.recalls := rfl
@[simp] theorem State.setPlane_pers (s : State) (p : Plane) : (s.setPlane p).pers = s.pers := rfl
@[simp] theorem State.setPlane_frz (s : State) (p : Plane) : (s.setPlane p).frz = s.frz := rfl
@[simp] theorem State.setPlane_gens (s : State) (p : Plane) : (s.setPlane p).gens = s.gens := rfl
@[simp] theorem State.setPlane_genWait (s : State) (p : Plane) : (s.setPlane p).genWait = s.genWait := rfl
@[simp] theorem State.setPlane_sweeps (s : State) (p : Plane) : (s.setPlane p).sweeps = s.sweeps := rfl
@[simp] theorem State.setPlane_pageOrder (s : State) (p : Plane) : (s.setPlane p).pageOrder = s.pageOrder := rfl
@[simp] theorem State.setPlane_paying (s : State) (p : Plane) : (s.setPlane p).paying = s.paying := rfl
@[simp] theorem State.setPlane_farPages (s : State) (p : Plane) : (s.setPlane p).farPages = s.farPages := rfl
@[simp] theorem State.setPlane_dooms (s : State) (p : Plane) : (s.setPlane p).dooms = s.dooms := rfl
@[simp] theorem State.setPlane_fmt (s : State) (p : Plane) : (s.setPlane p).fmt = s.fmt := rfl
@[simp] theorem State.setPlane_sliceOwner (s : State) (p : Plane) : (s.setPlane p).sliceOwner = s.sliceOwner := rfl
@[simp] theorem State.setPlane_quayPart (s : State) (p : Plane) : (s.setPlane p).quayPart = s.quayPart := rfl
@[simp] theorem State.setPlane_absent (s : State) (p : Plane) : (s.setPlane p).absent = s.absent := rfl
@[simp] theorem State.setPlane_partOwner (s : State) (p : Plane) : (s.setPlane p).partOwner = s.partOwner := rfl
@[simp] theorem State.setPlane_partNet (s : State) (p : Plane) : (s.setPlane p).partNet = s.partNet := rfl
@[simp] theorem State.setPlane_netpol (s : State) (p : Plane) : (s.setPlane p).netpol = s.netpol := rfl
@[simp] theorem State.setPlane_tlb (s : State) (p : Plane) : (s.setPlane p).tlb = s.tlb := rfl
@[simp] theorem State.setPlane_walks (s : State) (p : Plane) : (s.setPlane p).walks = s.walks := rfl
@[simp] theorem State.setPlane_pgreqs (s : State) (p : Plane) : (s.setPlane p).pgreqs = s.pgreqs := rfl
@[simp] theorem State.setPlane_ctxs (s : State) (p : Plane) : (s.setPlane p).ctxs = s.ctxs := rfl
@[simp] theorem State.setPlane_quayCtx (s : State) (p : Plane) : (s.setPlane p).quayCtx = s.quayCtx := rfl
@[simp] theorem State.setPlane_ctxq (s : State) (p : Plane) : (s.setPlane p).ctxq = s.ctxq := rfl
@[simp] theorem State.setPlane_handovers (s : State) (p : Plane) : (s.setPlane p).handovers = s.handovers := rfl
@[simp] theorem State.setPlane_preempts (s : State) (p : Plane) : (s.setPlane p).preempts = s.preempts := rfl
@[simp] theorem State.setPlane_saves (s : State) (p : Plane) : (s.setPlane p).saves = s.saves := rfl
@[simp] theorem State.setPlane_areaDue (s : State) (p : Plane) : (s.setPlane p).areaDue = s.areaDue := rfl
@[simp] theorem State.setPlane_sections (s : State) (p : Plane) : (s.setPlane p).sections = s.sections := rfl
@[simp] theorem State.setPlane_quota (s : State) (p : Plane) : (s.setPlane p).quota = s.quota := rfl
@[simp] theorem State.setPlane_meters (s : State) (p : Plane) : (s.setPlane p).meters = s.meters := rfl
@[simp] theorem State.setPlane_launches (s : State) (p : Plane) : (s.setPlane p).launches = s.launches := rfl
@[simp] theorem State.setPlane_ready (s : State) (p : Plane) : (s.setPlane p).ready = s.ready := rfl
@[simp] theorem State.setPlane_lastQueue (s : State) (p : Plane) : (s.setPlane p).lastQueue = s.lastQueue := rfl
@[simp] theorem State.setPlane_inbox (s : State) (p : Plane) : (s.setPlane p).inbox = s.inbox := rfl
@[simp] theorem State.setPlane_outbox (s : State) (p : Plane) : (s.setPlane p).outbox = s.outbox := rfl
@[simp] theorem State.setPlane_links (s : State) (p : Plane) : (s.setPlane p).links = s.links := rfl
@[simp] theorem State.setPlane_remotes (s : State) (p : Plane) : (s.setPlane p).remotes = s.remotes := rfl
@[simp] theorem State.setPlane_remoteHolds (s : State) (p : Plane) : (s.setPlane p).remoteHolds = s.remoteHolds := rfl
@[simp] theorem State.setPlane_farRanks (s : State) (p : Plane) : (s.setPlane p).farRanks = s.farRanks := rfl
@[simp] theorem State.setPlane_collIn (s : State) (p : Plane) : (s.setPlane p).collIn = s.collIn := rfl
@[simp] theorem State.setPlane_domain (s : State) (p : Plane) : (s.setPlane p).domain = s.domain := rfl
@[simp] theorem State.setPlane_upsets (s : State) (p : Plane) : (s.setPlane p).upsets = s.upsets := rfl

/-! ### `touch` changes the cached translations alone -/

@[simp] theorem State.touch_agenda (s : State) (e : TlbEntry) : (s.touch e).agenda = s.agenda := rfl
@[simp] theorem State.touch_freeCtr (s : State) (e : TlbEntry) : (s.touch e).freeCtr = s.freeCtr := rfl
@[simp] theorem State.touch_turn (s : State) (e : TlbEntry) : (s.touch e).turn = s.turn := rfl
@[simp] theorem State.touch_clock (s : State) (e : TlbEntry) : (s.touch e).clock = s.clock := rfl
@[simp] theorem State.touch_nextId (s : State) (e : TlbEntry) : (s.touch e).nextId = s.nextId := rfl
@[simp] theorem State.touch_dev (s : State) (e : TlbEntry) : (s.touch e).dev = s.dev := rfl
@[simp] theorem State.touch_pass (s : State) (e : TlbEntry) : (s.touch e).pass = s.pass := rfl
@[simp] theorem State.touch_parked (s : State) (e : TlbEntry) : (s.touch e).parked = s.parked := rfl
@[simp] theorem State.touch_threads (s : State) (e : TlbEntry) : (s.touch e).threads = s.threads := rfl
@[simp] theorem State.touch_entries (s : State) (e : TlbEntry) : (s.touch e).entries = s.entries := rfl
@[simp] theorem State.touch_planes (s : State) (e : TlbEntry) : (s.touch e).planes = s.planes := rfl
@[simp] theorem State.touch_groups (s : State) (e : TlbEntry) : (s.touch e).groups = s.groups := rfl
@[simp] theorem State.touch_greds (s : State) (e : TlbEntry) : (s.touch e).greds = s.greds := rfl
@[simp] theorem State.touch_waits (s : State) (e : TlbEntry) : (s.touch e).waits = s.waits := rfl
@[simp] theorem State.touch_bollards (s : State) (e : TlbEntry) : (s.touch e).bollards = s.bollards := rfl
@[simp] theorem State.touch_weighed (s : State) (e : TlbEntry) : (s.touch e).weighed = s.weighed := rfl
@[simp] theorem State.touch_ops (s : State) (e : TlbEntry) : (s.touch e).ops = s.ops := rfl
@[simp] theorem State.touch_scores (s : State) (e : TlbEntry) : (s.touch e).scores = s.scores := rfl
@[simp] theorem State.touch_regions (s : State) (e : TlbEntry) : (s.touch e).regions = s.regions := rfl
@[simp] theorem State.touch_latch (s : State) (e : TlbEntry) : (s.touch e).latch = s.latch := rfl
@[simp] theorem State.touch_nodes (s : State) (e : TlbEntry) : (s.touch e).nodes = s.nodes := rfl
@[simp] theorem State.touch_units (s : State) (e : TlbEntry) : (s.touch e).units = s.units := rfl
@[simp] theorem State.touch_mem (s : State) (e : TlbEntry) : (s.touch e).mem = s.mem := rfl
@[simp] theorem State.touch_poisoned (s : State) (e : TlbEntry) : (s.touch e).poisoned = s.poisoned := rfl
@[simp] theorem State.touch_vmem (s : State) (e : TlbEntry) : (s.touch e).vmem = s.vmem := rfl
@[simp] theorem State.touch_vlines (s : State) (e : TlbEntry) : (s.touch e).vlines = s.vlines := rfl
@[simp] theorem State.touch_presence (s : State) (e : TlbEntry) : (s.touch e).presence = s.presence := rfl
@[simp] theorem State.touch_vwritten (s : State) (e : TlbEntry) : (s.touch e).vwritten = s.vwritten := rfl
@[simp] theorem State.touch_fills (s : State) (e : TlbEntry) : (s.touch e).fills = s.fills := rfl
@[simp] theorem State.touch_framePrio (s : State) (e : TlbEntry) : (s.touch e).framePrio = s.framePrio := rfl
@[simp] theorem State.touch_holdWaits (s : State) (e : TlbEntry) : (s.touch e).holdWaits = s.holdWaits := rfl
@[simp] theorem State.touch_dir (s : State) (e : TlbEntry) : (s.touch e).dir = s.dir := rfl
@[simp] theorem State.touch_copies (s : State) (e : TlbEntry) : (s.touch e).copies = s.copies := rfl
@[simp] theorem State.touch_reqs (s : State) (e : TlbEntry) : (s.touch e).reqs = s.reqs := rfl
@[simp] theorem State.touch_answers (s : State) (e : TlbEntry) : (s.touch e).answers = s.answers := rfl
@[simp] theorem State.touch_replicas (s : State) (e : TlbEntry) : (s.touch e).replicas = s.replicas := rfl
@[simp] theorem State.touch_net (s : State) (e : TlbEntry) : (s.touch e).net = s.net := rfl
@[simp] theorem State.touch_homeWait (s : State) (e : TlbEntry) : (s.touch e).homeWait = s.homeWait := rfl
@[simp] theorem State.touch_collecting (s : State) (e : TlbEntry) : (s.touch e).collecting = s.collecting := rfl
@[simp] theorem State.touch_recalls (s : State) (e : TlbEntry) : (s.touch e).recalls = s.recalls := rfl
@[simp] theorem State.touch_pers (s : State) (e : TlbEntry) : (s.touch e).pers = s.pers := rfl
@[simp] theorem State.touch_frz (s : State) (e : TlbEntry) : (s.touch e).frz = s.frz := rfl
@[simp] theorem State.touch_gens (s : State) (e : TlbEntry) : (s.touch e).gens = s.gens := rfl
@[simp] theorem State.touch_genWait (s : State) (e : TlbEntry) : (s.touch e).genWait = s.genWait := rfl
@[simp] theorem State.touch_sweeps (s : State) (e : TlbEntry) : (s.touch e).sweeps = s.sweeps := rfl
@[simp] theorem State.touch_pageOrder (s : State) (e : TlbEntry) : (s.touch e).pageOrder = s.pageOrder := rfl
@[simp] theorem State.touch_paying (s : State) (e : TlbEntry) : (s.touch e).paying = s.paying := rfl
@[simp] theorem State.touch_farPages (s : State) (e : TlbEntry) : (s.touch e).farPages = s.farPages := rfl
@[simp] theorem State.touch_dooms (s : State) (e : TlbEntry) : (s.touch e).dooms = s.dooms := rfl
@[simp] theorem State.touch_fmt (s : State) (e : TlbEntry) : (s.touch e).fmt = s.fmt := rfl
@[simp] theorem State.touch_sliceOwner (s : State) (e : TlbEntry) : (s.touch e).sliceOwner = s.sliceOwner := rfl
@[simp] theorem State.touch_quayPart (s : State) (e : TlbEntry) : (s.touch e).quayPart = s.quayPart := rfl
@[simp] theorem State.touch_absent (s : State) (e : TlbEntry) : (s.touch e).absent = s.absent := rfl
@[simp] theorem State.touch_partOwner (s : State) (e : TlbEntry) : (s.touch e).partOwner = s.partOwner := rfl
@[simp] theorem State.touch_partNet (s : State) (e : TlbEntry) : (s.touch e).partNet = s.partNet := rfl
@[simp] theorem State.touch_netpol (s : State) (e : TlbEntry) : (s.touch e).netpol = s.netpol := rfl
@[simp] theorem State.touch_walks (s : State) (e : TlbEntry) : (s.touch e).walks = s.walks := rfl
@[simp] theorem State.touch_pgreqs (s : State) (e : TlbEntry) : (s.touch e).pgreqs = s.pgreqs := rfl
@[simp] theorem State.touch_ctxs (s : State) (e : TlbEntry) : (s.touch e).ctxs = s.ctxs := rfl
@[simp] theorem State.touch_quayCtx (s : State) (e : TlbEntry) : (s.touch e).quayCtx = s.quayCtx := rfl
@[simp] theorem State.touch_ctxq (s : State) (e : TlbEntry) : (s.touch e).ctxq = s.ctxq := rfl
@[simp] theorem State.touch_handovers (s : State) (e : TlbEntry) : (s.touch e).handovers = s.handovers := rfl
@[simp] theorem State.touch_preempts (s : State) (e : TlbEntry) : (s.touch e).preempts = s.preempts := rfl
@[simp] theorem State.touch_saves (s : State) (e : TlbEntry) : (s.touch e).saves = s.saves := rfl
@[simp] theorem State.touch_areaDue (s : State) (e : TlbEntry) : (s.touch e).areaDue = s.areaDue := rfl
@[simp] theorem State.touch_sections (s : State) (e : TlbEntry) : (s.touch e).sections = s.sections := rfl
@[simp] theorem State.touch_quota (s : State) (e : TlbEntry) : (s.touch e).quota = s.quota := rfl
@[simp] theorem State.touch_meters (s : State) (e : TlbEntry) : (s.touch e).meters = s.meters := rfl
@[simp] theorem State.touch_launches (s : State) (e : TlbEntry) : (s.touch e).launches = s.launches := rfl
@[simp] theorem State.touch_ready (s : State) (e : TlbEntry) : (s.touch e).ready = s.ready := rfl
@[simp] theorem State.touch_lastQueue (s : State) (e : TlbEntry) : (s.touch e).lastQueue = s.lastQueue := rfl
@[simp] theorem State.touch_inbox (s : State) (e : TlbEntry) : (s.touch e).inbox = s.inbox := rfl
@[simp] theorem State.touch_outbox (s : State) (e : TlbEntry) : (s.touch e).outbox = s.outbox := rfl
@[simp] theorem State.touch_links (s : State) (e : TlbEntry) : (s.touch e).links = s.links := rfl
@[simp] theorem State.touch_remotes (s : State) (e : TlbEntry) : (s.touch e).remotes = s.remotes := rfl
@[simp] theorem State.touch_remoteHolds (s : State) (e : TlbEntry) : (s.touch e).remoteHolds = s.remoteHolds := rfl
@[simp] theorem State.touch_farRanks (s : State) (e : TlbEntry) : (s.touch e).farRanks = s.farRanks := rfl
@[simp] theorem State.touch_collIn (s : State) (e : TlbEntry) : (s.touch e).collIn = s.collIn := rfl
@[simp] theorem State.touch_domain (s : State) (e : TlbEntry) : (s.touch e).domain = s.domain := rfl
@[simp] theorem State.touch_upsets (s : State) (e : TlbEntry) : (s.touch e).upsets = s.upsets := rfl

/-! ### `later` changes the clock alone -/

@[simp] theorem State.later_agenda (s : State) : (s.later).agenda = s.agenda := rfl
@[simp] theorem State.later_freeCtr (s : State) : (s.later).freeCtr = s.freeCtr := rfl
@[simp] theorem State.later_turn (s : State) : (s.later).turn = s.turn := rfl
@[simp] theorem State.later_nextId (s : State) : (s.later).nextId = s.nextId := rfl
@[simp] theorem State.later_dev (s : State) : (s.later).dev = s.dev := rfl
@[simp] theorem State.later_pass (s : State) : (s.later).pass = s.pass := rfl
@[simp] theorem State.later_parked (s : State) : (s.later).parked = s.parked := rfl
@[simp] theorem State.later_threads (s : State) : (s.later).threads = s.threads := rfl
@[simp] theorem State.later_entries (s : State) : (s.later).entries = s.entries := rfl
@[simp] theorem State.later_planes (s : State) : (s.later).planes = s.planes := rfl
@[simp] theorem State.later_groups (s : State) : (s.later).groups = s.groups := rfl
@[simp] theorem State.later_greds (s : State) : (s.later).greds = s.greds := rfl
@[simp] theorem State.later_waits (s : State) : (s.later).waits = s.waits := rfl
@[simp] theorem State.later_bollards (s : State) : (s.later).bollards = s.bollards := rfl
@[simp] theorem State.later_weighed (s : State) : (s.later).weighed = s.weighed := rfl
@[simp] theorem State.later_ops (s : State) : (s.later).ops = s.ops := rfl
@[simp] theorem State.later_scores (s : State) : (s.later).scores = s.scores := rfl
@[simp] theorem State.later_regions (s : State) : (s.later).regions = s.regions := rfl
@[simp] theorem State.later_latch (s : State) : (s.later).latch = s.latch := rfl
@[simp] theorem State.later_nodes (s : State) : (s.later).nodes = s.nodes := rfl
@[simp] theorem State.later_units (s : State) : (s.later).units = s.units := rfl
@[simp] theorem State.later_mem (s : State) : (s.later).mem = s.mem := rfl
@[simp] theorem State.later_poisoned (s : State) : (s.later).poisoned = s.poisoned := rfl
@[simp] theorem State.later_vmem (s : State) : (s.later).vmem = s.vmem := rfl
@[simp] theorem State.later_vlines (s : State) : (s.later).vlines = s.vlines := rfl
@[simp] theorem State.later_presence (s : State) : (s.later).presence = s.presence := rfl
@[simp] theorem State.later_vwritten (s : State) : (s.later).vwritten = s.vwritten := rfl
@[simp] theorem State.later_fills (s : State) : (s.later).fills = s.fills := rfl
@[simp] theorem State.later_framePrio (s : State) : (s.later).framePrio = s.framePrio := rfl
@[simp] theorem State.later_holdWaits (s : State) : (s.later).holdWaits = s.holdWaits := rfl
@[simp] theorem State.later_dir (s : State) : (s.later).dir = s.dir := rfl
@[simp] theorem State.later_copies (s : State) : (s.later).copies = s.copies := rfl
@[simp] theorem State.later_reqs (s : State) : (s.later).reqs = s.reqs := rfl
@[simp] theorem State.later_answers (s : State) : (s.later).answers = s.answers := rfl
@[simp] theorem State.later_replicas (s : State) : (s.later).replicas = s.replicas := rfl
@[simp] theorem State.later_net (s : State) : (s.later).net = s.net := rfl
@[simp] theorem State.later_homeWait (s : State) : (s.later).homeWait = s.homeWait := rfl
@[simp] theorem State.later_collecting (s : State) : (s.later).collecting = s.collecting := rfl
@[simp] theorem State.later_recalls (s : State) : (s.later).recalls = s.recalls := rfl
@[simp] theorem State.later_pers (s : State) : (s.later).pers = s.pers := rfl
@[simp] theorem State.later_frz (s : State) : (s.later).frz = s.frz := rfl
@[simp] theorem State.later_gens (s : State) : (s.later).gens = s.gens := rfl
@[simp] theorem State.later_genWait (s : State) : (s.later).genWait = s.genWait := rfl
@[simp] theorem State.later_sweeps (s : State) : (s.later).sweeps = s.sweeps := rfl
@[simp] theorem State.later_pageOrder (s : State) : (s.later).pageOrder = s.pageOrder := rfl
@[simp] theorem State.later_paying (s : State) : (s.later).paying = s.paying := rfl
@[simp] theorem State.later_farPages (s : State) : (s.later).farPages = s.farPages := rfl
@[simp] theorem State.later_dooms (s : State) : (s.later).dooms = s.dooms := rfl
@[simp] theorem State.later_fmt (s : State) : (s.later).fmt = s.fmt := rfl
@[simp] theorem State.later_sliceOwner (s : State) : (s.later).sliceOwner = s.sliceOwner := rfl
@[simp] theorem State.later_quayPart (s : State) : (s.later).quayPart = s.quayPart := rfl
@[simp] theorem State.later_absent (s : State) : (s.later).absent = s.absent := rfl
@[simp] theorem State.later_partOwner (s : State) : (s.later).partOwner = s.partOwner := rfl
@[simp] theorem State.later_partNet (s : State) : (s.later).partNet = s.partNet := rfl
@[simp] theorem State.later_netpol (s : State) : (s.later).netpol = s.netpol := rfl
@[simp] theorem State.later_tlb (s : State) : (s.later).tlb = s.tlb := rfl
@[simp] theorem State.later_walks (s : State) : (s.later).walks = s.walks := rfl
@[simp] theorem State.later_pgreqs (s : State) : (s.later).pgreqs = s.pgreqs := rfl
@[simp] theorem State.later_ctxs (s : State) : (s.later).ctxs = s.ctxs := rfl
@[simp] theorem State.later_quayCtx (s : State) : (s.later).quayCtx = s.quayCtx := rfl
@[simp] theorem State.later_ctxq (s : State) : (s.later).ctxq = s.ctxq := rfl
@[simp] theorem State.later_handovers (s : State) : (s.later).handovers = s.handovers := rfl
@[simp] theorem State.later_preempts (s : State) : (s.later).preempts = s.preempts := rfl
@[simp] theorem State.later_saves (s : State) : (s.later).saves = s.saves := rfl
@[simp] theorem State.later_areaDue (s : State) : (s.later).areaDue = s.areaDue := rfl
@[simp] theorem State.later_sections (s : State) : (s.later).sections = s.sections := rfl
@[simp] theorem State.later_quota (s : State) : (s.later).quota = s.quota := rfl
@[simp] theorem State.later_meters (s : State) : (s.later).meters = s.meters := rfl
@[simp] theorem State.later_launches (s : State) : (s.later).launches = s.launches := rfl
@[simp] theorem State.later_ready (s : State) : (s.later).ready = s.ready := rfl
@[simp] theorem State.later_lastQueue (s : State) : (s.later).lastQueue = s.lastQueue := rfl
@[simp] theorem State.later_inbox (s : State) : (s.later).inbox = s.inbox := rfl
@[simp] theorem State.later_outbox (s : State) : (s.later).outbox = s.outbox := rfl
@[simp] theorem State.later_links (s : State) : (s.later).links = s.links := rfl
@[simp] theorem State.later_remotes (s : State) : (s.later).remotes = s.remotes := rfl
@[simp] theorem State.later_remoteHolds (s : State) : (s.later).remoteHolds = s.remoteHolds := rfl
@[simp] theorem State.later_farRanks (s : State) : (s.later).farRanks = s.farRanks := rfl
@[simp] theorem State.later_collIn (s : State) : (s.later).collIn = s.collIn := rfl
@[simp] theorem State.later_domain (s : State) : (s.later).domain = s.domain := rfl
@[simp] theorem State.later_upsets (s : State) : (s.later).upsets = s.upsets := rfl

end Sys2Proof.Machine
end

