-- ==== Sys2Proof/Laws/Memory.lean ====
section
/-! SUPPORT. Every operation of a memory keeps its one form, and what the shared operations over the module's memory and
vaults do to that form. -/

namespace Sys2Proof.Machine

theorem Mem.above_mono : ∀ (m : Mem) {b c : Nat}, c ≤ b → Mem.above b m = true → Mem.above c m = true
  | [], _, _, _, _ => rfl
  | (k, v) :: t, b, c, h, hm => by
    simp only [Mem.above, Bool.and_eq_true, decide_eq_true_eq] at hm ⊢
    exact ⟨⟨by omega, hm.1.2⟩, hm.2⟩

theorem Mem.above_write : ∀ (m : Mem) (b a : Nat) (v : Byte), b ≤ a → Mem.above b m = true →
    Mem.above b (Mem.write m a v) = true
  | [], b, a, v, h, _ => by
    unfold Mem.write
    split <;> simp_all [Mem.above]
  | (k, w) :: t, b, a, v, h, hm => by
    simp only [Mem.above, Bool.and_eq_true, decide_eq_true_eq] at hm
    unfold Mem.write
    split
    · split
      · simp_all [Mem.above]
      · rename_i hv
        simp only [Mem.above, Bool.and_eq_true, decide_eq_true_eq]
        exact ⟨⟨h, by simpa using hv⟩, ⟨by omega, hm.1.2⟩, hm.2⟩
    · split
      · split
        · exact Mem.above_mono t (by omega) hm.2
        · simp_all [Mem.above]
      · simp only [Mem.above, Bool.and_eq_true, decide_eq_true_eq]
        exact ⟨hm.1, Mem.above_write t (k + 1) a v (by omega) hm.2⟩

/-- A write of one byte keeps the form. -/
theorem Mem.wf_write (m : Mem) (a : Nat) (v : Byte) (h : m.wf = true) : (Mem.write m a v).wf = true :=
  Mem.above_write m 0 a v (Nat.zero_le _) h

/-- A write of bytes keeps the form. -/
theorem Mem.wf_writeN (bs : List Byte) : ∀ (m : Mem) (a : Nat), m.wf = true → (Mem.writeN m a bs).wf = true := by
  induction bs with
  | nil => intro m a h; exact h
  | cons x xs ih => intro m a h; exact ih _ _ (Mem.wf_write m a x h)

theorem Mem.above_filter (p : Host.Cell → Bool) : ∀ (m : Mem) (b : Nat), Mem.above b m = true →
    Mem.above b (m.filter p) = true
  | [], _, _ => rfl
  | (k, v) :: t, b, h => by
    simp only [Mem.above, Bool.and_eq_true, decide_eq_true_eq] at h
    rw [List.filter_cons]
    split
    · simp only [Mem.above, Bool.and_eq_true, decide_eq_true_eq]
      exact ⟨h.1, Mem.above_filter p t (k + 1) h.2⟩
    · exact Mem.above_mono _ (by omega) (Mem.above_filter p t (k + 1) h.2)

/-- Dropping cells keeps the form. -/
theorem Mem.wf_filter (p : Host.Cell → Bool) (m : Mem) (h : m.wf = true) : Mem.wf (m.filter p) = true :=
  Mem.above_filter p m 0 h

/-- A write of global memory keeps the form of both memories. -/
theorem State.gwrite_wf (s : State) (pa : Nat) (bs : List Byte) (p : Bool) (h : s.mem.wf = true ∧ s.vmem.wf = true) :
    (s.gwrite pa bs p).mem.wf = true ∧ (s.gwrite pa bs p).vmem.wf = true := by
  have key : ∀ (t : State) (l : Nat) (b : Bool), (t.setPoison l b).mem = t.mem ∧ (t.setPoison l b).vmem = t.vmem := by
    intro t l b
    unfold State.setPoison
    split
    · split <;> exact ⟨rfl, rfl⟩
    · exact ⟨rfl, rfl⟩
  unfold State.gwrite
  dsimp only
  split
  · rw [(key _ _ _).1, (key _ _ _).2]
    exact ⟨Mem.wf_writeN _ _ _ h.1, h.2⟩
  · split
    · rw [(key _ _ _).1, (key _ _ _).2]
      exact ⟨Mem.wf_writeN _ _ _ h.1, h.2⟩
    · exact ⟨Mem.wf_writeN _ _ _ h.1, h.2⟩

/-- A store into a vault keeps the form of both memories. -/
theorem State.vstore_wf (s : State) (q off : Nat) (bs : List Byte) (p : Bool) (h : s.mem.wf = true ∧ s.vmem.wf = true) :
    (s.vstore q off bs p).mem.wf = true ∧ (s.vstore q off bs p).vmem.wf = true :=
  ⟨h.1, Mem.wf_writeN _ _ _ h.2⟩

/-- A whole-line write into a vault keeps the form of both memories. -/
theorem State.vstoreLine_wf (s : State) (q off : Nat) (bs : List Byte) (l : BitVec 8) (t : BitVec 4) (p : Bool)
    (h : s.mem.wf = true ∧ s.vmem.wf = true) :
    (s.vstoreLine q off bs l t p).mem.wf = true ∧ (s.vstoreLine q off bs l t p).vmem.wf = true :=
  ⟨h.1, Mem.wf_writeN _ _ _ h.2⟩

/-- Zeroing a vault keeps the form of both memories. -/
theorem State.vzero_wf (s : State) (q : Nat) (h : s.mem.wf = true ∧ s.vmem.wf = true) :
    (s.vzero q).mem.wf = true ∧ (s.vzero q).vmem.wf = true :=
  ⟨h.1, Mem.wf_filter _ _ h.2⟩

/-- The memories of the machine after reset stand in their one form. -/
theorem State.reset_memories_wf : State.reset.mem.wf = true ∧ State.reset.vmem.wf = true := ⟨rfl, rfl⟩

end Sys2Proof.Machine
end

