-- ==== Sys2Proof/Laws/PerInstr.lean ====
section
/-! SUPPORT. Statements about every instruction as syntax, one lemma per constructor. -/

/-- An instruction has a form exactly where it has the fields of a word (R175, R180), so that it is encoded as a word. -/
def Sys2Proof.Laws.FormFields.Statement (i : Sys2Proof.Instr) : Prop :=
  (Sys2Proof.Machine.Instr.form i).isSome = (Sys2Proof.Machine.Instr.fields i).isSome ∧
    (Sys2Proof.Machine.Instr.encode i).isSome = (Sys2Proof.Machine.Instr.fields i).isSome

theorem Sys2Proof.Laws.FormFields.br (w : Sys2Proof.Fields) : Sys2Proof.Laws.FormFields.Statement (.br w) :=
  ⟨rfl, rfl⟩
theorem Sys2Proof.Laws.FormFields.bri (w : Sys2Proof.Fields) : Sys2Proof.Laws.FormFields.Statement (.bri w) :=
  ⟨rfl, rfl⟩
theorem Sys2Proof.Laws.FormFields.call (w : Sys2Proof.Fields) : Sys2Proof.Laws.FormFields.Statement (.call w) :=
  ⟨rfl, rfl⟩
theorem Sys2Proof.Laws.FormFields.ret (w : Sys2Proof.Fields) : Sys2Proof.Laws.FormFields.Statement (.ret w) :=
  ⟨rfl, rfl⟩
theorem Sys2Proof.Laws.FormFields.exit (w : Sys2Proof.Fields) : Sys2Proof.Laws.FormFields.Statement (.exit w) :=
  ⟨rfl, rfl⟩
theorem Sys2Proof.Laws.FormFields.trap (w : Sys2Proof.Fields) : Sys2Proof.Laws.FormFields.Statement (.trap w) :=
  ⟨rfl, rfl⟩
theorem Sys2Proof.Laws.FormFields.iadd (t : Sys2Proof.IntTy) (w : Sys2Proof.Fields) : Sys2Proof.Laws.FormFields.Statement (.iadd t w) :=
  ⟨rfl, rfl⟩
theorem Sys2Proof.Laws.FormFields.isub (t : Sys2Proof.IntTy) (w : Sys2Proof.Fields) : Sys2Proof.Laws.FormFields.Statement (.isub t w) :=
  ⟨rfl, rfl⟩
theorem Sys2Proof.Laws.FormFields.imul (t : Sys2Proof.IntTy) (w : Sys2Proof.Fields) : Sys2Proof.Laws.FormFields.Statement (.imul t w) :=
  ⟨rfl, rfl⟩
theorem Sys2Proof.Laws.FormFields.imulhi (t : Sys2Proof.IntTy) (w : Sys2Proof.Fields) : Sys2Proof.Laws.FormFields.Statement (.imulhi t w) :=
  ⟨rfl, rfl⟩
theorem Sys2Proof.Laws.FormFields.imad (t : Sys2Proof.IntTy) (w : Sys2Proof.Fields) : Sys2Proof.Laws.FormFields.Statement (.imad t w) :=
  ⟨rfl, rfl⟩
theorem Sys2Proof.Laws.FormFields.idiv (t : Sys2Proof.IntTy) (w : Sys2Proof.Fields) : Sys2Proof.Laws.FormFields.Statement (.idiv t w) :=
  ⟨rfl, rfl⟩
theorem Sys2Proof.Laws.FormFields.irem (t : Sys2Proof.IntTy) (w : Sys2Proof.Fields) : Sys2Proof.Laws.FormFields.Statement (.irem t w) :=
  ⟨rfl, rfl⟩
theorem Sys2Proof.Laws.FormFields.ineg (t : Sys2Proof.SIntTy) (w : Sys2Proof.Fields) : Sys2Proof.Laws.FormFields.Statement (.ineg t w) :=
  ⟨rfl, rfl⟩
theorem Sys2Proof.Laws.FormFields.iabs (t : Sys2Proof.SIntTy) (w : Sys2Proof.Fields) : Sys2Proof.Laws.FormFields.Statement (.iabs t w) :=
  ⟨rfl, rfl⟩
theorem Sys2Proof.Laws.FormFields.imin (t : Sys2Proof.IntTy) (w : Sys2Proof.Fields) : Sys2Proof.Laws.FormFields.Statement (.imin t w) :=
  ⟨rfl, rfl⟩
theorem Sys2Proof.Laws.FormFields.imax (t : Sys2Proof.IntTy) (w : Sys2Proof.Fields) : Sys2Proof.Laws.FormFields.Statement (.imax t w) :=
  ⟨rfl, rfl⟩
theorem Sys2Proof.Laws.FormFields.lea (t : Sys2Proof.LeaTy) (sc : BitVec 2) (w : Sys2Proof.Fields) : Sys2Proof.Laws.FormFields.Statement (.lea t sc w) :=
  ⟨rfl, rfl⟩
theorem Sys2Proof.Laws.FormFields.iaddc (t : Sys2Proof.CarryTy) (w : Sys2Proof.Fields) : Sys2Proof.Laws.FormFields.Statement (.iaddc t w) :=
  ⟨rfl, rfl⟩
theorem Sys2Proof.Laws.FormFields.iaddSat (t : Sys2Proof.IntTy) (w : Sys2Proof.Fields) : Sys2Proof.Laws.FormFields.Statement (.iaddSat t w) :=
  ⟨rfl, rfl⟩
theorem Sys2Proof.Laws.FormFields.isubSat (t : Sys2Proof.IntTy) (w : Sys2Proof.Fields) : Sys2Proof.Laws.FormFields.Statement (.isubSat t w) :=
  ⟨rfl, rfl⟩
theorem Sys2Proof.Laws.FormFields.and (n : Sys2Proof.Width) (w : Sys2Proof.Fields) : Sys2Proof.Laws.FormFields.Statement (.and n w) :=
  ⟨rfl, rfl⟩
theorem Sys2Proof.Laws.FormFields.or (n : Sys2Proof.Width) (w : Sys2Proof.Fields) : Sys2Proof.Laws.FormFields.Statement (.or n w) :=
  ⟨rfl, rfl⟩
theorem Sys2Proof.Laws.FormFields.xor (n : Sys2Proof.Width) (w : Sys2Proof.Fields) : Sys2Proof.Laws.FormFields.Statement (.xor n w) :=
  ⟨rfl, rfl⟩
theorem Sys2Proof.Laws.FormFields.andn (n : Sys2Proof.Width) (w : Sys2Proof.Fields) : Sys2Proof.Laws.FormFields.Statement (.andn n w) :=
  ⟨rfl, rfl⟩
theorem Sys2Proof.Laws.FormFields.not (n : Sys2Proof.Width) (w : Sys2Proof.Fields) : Sys2Proof.Laws.FormFields.Statement (.not n w) :=
  ⟨rfl, rfl⟩
theorem Sys2Proof.Laws.FormFields.shl (n : Sys2Proof.Width) (w : Sys2Proof.Fields) : Sys2Proof.Laws.FormFields.Statement (.shl n w) :=
  ⟨rfl, rfl⟩
theorem Sys2Proof.Laws.FormFields.shr (n : Sys2Proof.Width) (w : Sys2Proof.Fields) : Sys2Proof.Laws.FormFields.Statement (.shr n w) :=
  ⟨rfl, rfl⟩
theorem Sys2Proof.Laws.FormFields.sar (n : Sys2Proof.Width) (w : Sys2Proof.Fields) : Sys2Proof.Laws.FormFields.Statement (.sar n w) :=
  ⟨rfl, rfl⟩
theorem Sys2Proof.Laws.FormFields.rotl (n : Sys2Proof.Width) (w : Sys2Proof.Fields) : Sys2Proof.Laws.FormFields.Statement (.rotl n w) :=
  ⟨rfl, rfl⟩
theorem Sys2Proof.Laws.FormFields.rotr (n : Sys2Proof.Width) (w : Sys2Proof.Fields) : Sys2Proof.Laws.FormFields.Statement (.rotr n w) :=
  ⟨rfl, rfl⟩
theorem Sys2Proof.Laws.FormFields.popc (n : Sys2Proof.Width) (w : Sys2Proof.Fields) : Sys2Proof.Laws.FormFields.Statement (.popc n w) :=
  ⟨rfl, rfl⟩
theorem Sys2Proof.Laws.FormFields.clz (n : Sys2Proof.Width) (w : Sys2Proof.Fields) : Sys2Proof.Laws.FormFields.Statement (.clz n w) :=
  ⟨rfl, rfl⟩
theorem Sys2Proof.Laws.FormFields.ctz (n : Sys2Proof.Width) (w : Sys2Proof.Fields) : Sys2Proof.Laws.FormFields.Statement (.ctz n w) :=
  ⟨rfl, rfl⟩
theorem Sys2Proof.Laws.FormFields.brev (n : Sys2Proof.Width) (w : Sys2Proof.Fields) : Sys2Proof.Laws.FormFields.Statement (.brev n w) :=
  ⟨rfl, rfl⟩
theorem Sys2Proof.Laws.FormFields.bfx (n : Sys2Proof.Width) (w : Sys2Proof.Fields) : Sys2Proof.Laws.FormFields.Statement (.bfx n w) :=
  ⟨rfl, rfl⟩
theorem Sys2Proof.Laws.FormFields.bfi (n : Sys2Proof.Width) (w : Sys2Proof.Fields) : Sys2Proof.Laws.FormFields.Statement (.bfi n w) :=
  ⟨rfl, rfl⟩
theorem Sys2Proof.Laws.FormFields.bperm (n : Sys2Proof.Width) (w : Sys2Proof.Fields) : Sys2Proof.Laws.FormFields.Statement (.bperm n w) :=
  ⟨rfl, rfl⟩
theorem Sys2Proof.Laws.FormFields.icmp (c : Sys2Proof.Cmp) (t : Sys2Proof.IntTy) (w : Sys2Proof.Fields) : Sys2Proof.Laws.FormFields.Statement (.icmp c t w) :=
  ⟨rfl, rfl⟩
theorem Sys2Proof.Laws.FormFields.isel (n : Sys2Proof.Width) (w : Sys2Proof.Fields) : Sys2Proof.Laws.FormFields.Statement (.isel n w) :=
  ⟨rfl, rfl⟩
theorem Sys2Proof.Laws.FormFields.pand (w : Sys2Proof.Fields) : Sys2Proof.Laws.FormFields.Statement (.pand w) :=
  ⟨rfl, rfl⟩
theorem Sys2Proof.Laws.FormFields.por (w : Sys2Proof.Fields) : Sys2Proof.Laws.FormFields.Statement (.por w) :=
  ⟨rfl, rfl⟩
theorem Sys2Proof.Laws.FormFields.pxor (w : Sys2Proof.Fields) : Sys2Proof.Laws.FormFields.Statement (.pxor w) :=
  ⟨rfl, rfl⟩
theorem Sys2Proof.Laws.FormFields.pnot (w : Sys2Proof.Fields) : Sys2Proof.Laws.FormFields.Statement (.pnot w) :=
  ⟨rfl, rfl⟩
theorem Sys2Proof.Laws.FormFields.pset (w : Sys2Proof.Fields) : Sys2Proof.Laws.FormFields.Statement (.pset w) :=
  ⟨rfl, rfl⟩
theorem Sys2Proof.Laws.FormFields.pmov (w : Sys2Proof.Fields) : Sys2Proof.Laws.FormFields.Statement (.pmov w) :=
  ⟨rfl, rfl⟩
theorem Sys2Proof.Laws.FormFields.ppack (w : Sys2Proof.Fields) : Sys2Proof.Laws.FormFields.Statement (.ppack w) :=
  ⟨rfl, rfl⟩
theorem Sys2Proof.Laws.FormFields.fadd (w : Sys2Proof.Fields) : Sys2Proof.Laws.FormFields.Statement (.fadd w) :=
  ⟨rfl, rfl⟩
theorem Sys2Proof.Laws.FormFields.fsub (w : Sys2Proof.Fields) : Sys2Proof.Laws.FormFields.Statement (.fsub w) :=
  ⟨rfl, rfl⟩
theorem Sys2Proof.Laws.FormFields.fmul (w : Sys2Proof.Fields) : Sys2Proof.Laws.FormFields.Statement (.fmul w) :=
  ⟨rfl, rfl⟩
theorem Sys2Proof.Laws.FormFields.ffma (w : Sys2Proof.Fields) : Sys2Proof.Laws.FormFields.Statement (.ffma w) :=
  ⟨rfl, rfl⟩
theorem Sys2Proof.Laws.FormFields.fmin (w : Sys2Proof.Fields) : Sys2Proof.Laws.FormFields.Statement (.fmin w) :=
  ⟨rfl, rfl⟩
theorem Sys2Proof.Laws.FormFields.fmax (w : Sys2Proof.Fields) : Sys2Proof.Laws.FormFields.Statement (.fmax w) :=
  ⟨rfl, rfl⟩
theorem Sys2Proof.Laws.FormFields.fabs (w : Sys2Proof.Fields) : Sys2Proof.Laws.FormFields.Statement (.fabs w) :=
  ⟨rfl, rfl⟩
theorem Sys2Proof.Laws.FormFields.fneg (w : Sys2Proof.Fields) : Sys2Proof.Laws.FormFields.Statement (.fneg w) :=
  ⟨rfl, rfl⟩
theorem Sys2Proof.Laws.FormFields.fcmp (c : Sys2Proof.FCmp) (w : Sys2Proof.Fields) : Sys2Proof.Laws.FormFields.Statement (.fcmp c w) :=
  ⟨rfl, rfl⟩
theorem Sys2Proof.Laws.FormFields.fsel (w : Sys2Proof.Fields) : Sys2Proof.Laws.FormFields.Statement (.fsel w) :=
  ⟨rfl, rfl⟩
theorem Sys2Proof.Laws.FormFields.fclass (w : Sys2Proof.Fields) : Sys2Proof.Laws.FormFields.Statement (.fclass w) :=
  ⟨rfl, rfl⟩
theorem Sys2Proof.Laws.FormFields.frnd (mode : Sys2Proof.RndLetter) (w : Sys2Proof.Fields) : Sys2Proof.Laws.FormFields.Statement (.frnd mode w) :=
  ⟨rfl, rfl⟩
theorem Sys2Proof.Laws.FormFields.fscale (w : Sys2Proof.Fields) : Sys2Proof.Laws.FormFields.Statement (.fscale w) :=
  ⟨rfl, rfl⟩
theorem Sys2Proof.Laws.FormFields.fcopysign (w : Sys2Proof.Fields) : Sys2Proof.Laws.FormFields.Statement (.fcopysign w) :=
  ⟨rfl, rfl⟩
theorem Sys2Proof.Laws.FormFields.hadd2 (t : Sys2Proof.HalfFmt) (w : Sys2Proof.Fields) : Sys2Proof.Laws.FormFields.Statement (.hadd2 t w) :=
  ⟨rfl, rfl⟩
theorem Sys2Proof.Laws.FormFields.hmul2 (t : Sys2Proof.HalfFmt) (w : Sys2Proof.Fields) : Sys2Proof.Laws.FormFields.Statement (.hmul2 t w) :=
  ⟨rfl, rfl⟩
theorem Sys2Proof.Laws.FormFields.hfma2 (t : Sys2Proof.HalfFmt) (w : Sys2Proof.Fields) : Sys2Proof.Laws.FormFields.Statement (.hfma2 t w) :=
  ⟨rfl, rfl⟩
theorem Sys2Proof.Laws.FormFields.dot2 (t : Sys2Proof.HalfFmt) (w : Sys2Proof.Fields) : Sys2Proof.Laws.FormFields.Statement (.dot2 t w) :=
  ⟨rfl, rfl⟩
theorem Sys2Proof.Laws.FormFields.dot4 (w : Sys2Proof.Fields) : Sys2Proof.Laws.FormFields.Statement (.dot4 w) :=
  ⟨rfl, rfl⟩
theorem Sys2Proof.Laws.FormFields.dotds (t : Sys2Proof.ActFmt) (w : Sys2Proof.Fields) : Sys2Proof.Laws.FormFields.Statement (.dotds t w) :=
  ⟨rfl, rfl⟩
theorem Sys2Proof.Laws.FormFields.cvt (dst : Sys2Proof.CvtFmt) (src : Sys2Proof.CvtFmt) (w : Sys2Proof.Fields) : Sys2Proof.Laws.FormFields.Statement (.cvt dst src w) :=
  ⟨rfl, rfl⟩
theorem Sys2Proof.Laws.FormFields.cvtF32Ds8 (w : Sys2Proof.Fields) : Sys2Proof.Laws.FormFields.Statement (.cvtF32Ds8 w) :=
  ⟨rfl, rfl⟩
theorem Sys2Proof.Laws.FormFields.dsenc (w : Sys2Proof.Fields) : Sys2Proof.Laws.FormFields.Statement (.dsenc w) :=
  ⟨rfl, rfl⟩
theorem Sys2Proof.Laws.FormFields.pack2 (t : Sys2Proof.PackFmt) (w : Sys2Proof.Fields) : Sys2Proof.Laws.FormFields.Statement (.pack2 t w) :=
  ⟨rfl, rfl⟩
theorem Sys2Proof.Laws.FormFields.unpack2 (t : Sys2Proof.PackFmt) (w : Sys2Proof.Fields) : Sys2Proof.Laws.FormFields.Statement (.unpack2 t w) :=
  ⟨rfl, rfl⟩
theorem Sys2Proof.Laws.FormFields.rcp (w : Sys2Proof.Fields) : Sys2Proof.Laws.FormFields.Statement (.rcp w) :=
  ⟨rfl, rfl⟩
theorem Sys2Proof.Laws.FormFields.rsq (w : Sys2Proof.Fields) : Sys2Proof.Laws.FormFields.Statement (.rsq w) :=
  ⟨rfl, rfl⟩
theorem Sys2Proof.Laws.FormFields.sqrt (w : Sys2Proof.Fields) : Sys2Proof.Laws.FormFields.Statement (.sqrt w) :=
  ⟨rfl, rfl⟩
theorem Sys2Proof.Laws.FormFields.div (w : Sys2Proof.Fields) : Sys2Proof.Laws.FormFields.Statement (.div w) :=
  ⟨rfl, rfl⟩
theorem Sys2Proof.Laws.FormFields.exp2 (w : Sys2Proof.Fields) : Sys2Proof.Laws.FormFields.Statement (.exp2 w) :=
  ⟨rfl, rfl⟩
theorem Sys2Proof.Laws.FormFields.log2 (w : Sys2Proof.Fields) : Sys2Proof.Laws.FormFields.Statement (.log2 w) :=
  ⟨rfl, rfl⟩
theorem Sys2Proof.Laws.FormFields.sin (w : Sys2Proof.Fields) : Sys2Proof.Laws.FormFields.Statement (.sin w) :=
  ⟨rfl, rfl⟩
theorem Sys2Proof.Laws.FormFields.cos (w : Sys2Proof.Fields) : Sys2Proof.Laws.FormFields.Statement (.cos w) :=
  ⟨rfl, rfl⟩
theorem Sys2Proof.Laws.FormFields.tanh (w : Sys2Proof.Fields) : Sys2Proof.Laws.FormFields.Statement (.tanh w) :=
  ⟨rfl, rfl⟩
theorem Sys2Proof.Laws.FormFields.mov (w : Sys2Proof.Fields) : Sys2Proof.Laws.FormFields.Statement (.mov w) :=
  ⟨rfl, rfl⟩
theorem Sys2Proof.Laws.FormFields.movi (w : Sys2Proof.Fields) : Sys2Proof.Laws.FormFields.Statement (.movi w) :=
  ⟨rfl, rfl⟩
theorem Sys2Proof.Laws.FormFields.movh (w : Sys2Proof.Fields) : Sys2Proof.Laws.FormFields.Statement (.movh w) :=
  ⟨rfl, rfl⟩
theorem Sys2Proof.Laws.FormFields.fan (w : Sys2Proof.Fields) : Sys2Proof.Laws.FormFields.Statement (.fan w) :=
  ⟨rfl, rfl⟩
theorem Sys2Proof.Laws.FormFields.null (w : Sys2Proof.Fields) : Sys2Proof.Laws.FormFields.Statement (.null w) :=
  ⟨rfl, rfl⟩
theorem Sys2Proof.Laws.FormFields.sreg (w : Sys2Proof.Fields) : Sys2Proof.Laws.FormFields.Statement (.sreg w) :=
  ⟨rfl, rfl⟩
theorem Sys2Proof.Laws.FormFields.ld (t : Sys2Proof.LdTy) (sp : Sys2Proof.Space) (w : Sys2Proof.Fields) : Sys2Proof.Laws.FormFields.Statement (.ld t sp w) :=
  ⟨rfl, rfl⟩
theorem Sys2Proof.Laws.FormFields.st (n : Sys2Proof.Size) (sp : Sys2Proof.StSpace) (w : Sys2Proof.Fields) : Sys2Proof.Laws.FormFields.Statement (.st n sp w) :=
  ⟨rfl, rfl⟩
theorem Sys2Proof.Laws.FormFields.ldv (sp : Sys2Proof.Space) (w : Sys2Proof.Fields) : Sys2Proof.Laws.FormFields.Statement (.ldv sp w) :=
  ⟨rfl, rfl⟩
theorem Sys2Proof.Laws.FormFields.stv (sp : Sys2Proof.StSpace) (w : Sys2Proof.Fields) : Sys2Proof.Laws.FormFields.Statement (.stv sp w) :=
  ⟨rfl, rfl⟩
theorem Sys2Proof.Laws.FormFields.ldNc (n : Sys2Proof.Size) (w : Sys2Proof.Fields) : Sys2Proof.Laws.FormFields.Statement (.ldNc n w) :=
  ⟨rfl, rfl⟩
theorem Sys2Proof.Laws.FormFields.pf (w : Sys2Proof.Fields) : Sys2Proof.Laws.FormFields.Statement (.pf w) :=
  ⟨rfl, rfl⟩
theorem Sys2Proof.Laws.FormFields.atomAdd (t : Sys2Proof.AtTy) (sp : Sys2Proof.AtSpace) (w : Sys2Proof.Fields) : Sys2Proof.Laws.FormFields.Statement (.atomAdd t sp w) :=
  ⟨rfl, rfl⟩
theorem Sys2Proof.Laws.FormFields.atomSub (t : Sys2Proof.AtTy) (sp : Sys2Proof.AtSpace) (w : Sys2Proof.Fields) : Sys2Proof.Laws.FormFields.Statement (.atomSub t sp w) :=
  ⟨rfl, rfl⟩
theorem Sys2Proof.Laws.FormFields.atomMin (t : Sys2Proof.AtTy) (sp : Sys2Proof.AtSpace) (w : Sys2Proof.Fields) : Sys2Proof.Laws.FormFields.Statement (.atomMin t sp w) :=
  ⟨rfl, rfl⟩
theorem Sys2Proof.Laws.FormFields.atomMax (t : Sys2Proof.AtTy) (sp : Sys2Proof.AtSpace) (w : Sys2Proof.Fields) : Sys2Proof.Laws.FormFields.Statement (.atomMax t sp w) :=
  ⟨rfl, rfl⟩
theorem Sys2Proof.Laws.FormFields.atomAnd (n : Sys2Proof.Width) (sp : Sys2Proof.AtSpace) (w : Sys2Proof.Fields) : Sys2Proof.Laws.FormFields.Statement (.atomAnd n sp w) :=
  ⟨rfl, rfl⟩
theorem Sys2Proof.Laws.FormFields.atomOr (n : Sys2Proof.Width) (sp : Sys2Proof.AtSpace) (w : Sys2Proof.Fields) : Sys2Proof.Laws.FormFields.Statement (.atomOr n sp w) :=
  ⟨rfl, rfl⟩
theorem Sys2Proof.Laws.FormFields.atomXor (n : Sys2Proof.Width) (sp : Sys2Proof.AtSpace) (w : Sys2Proof.Fields) : Sys2Proof.Laws.FormFields.Statement (.atomXor n sp w) :=
  ⟨rfl, rfl⟩
theorem Sys2Proof.Laws.FormFields.atomExch (n : Sys2Proof.Width) (sp : Sys2Proof.AtSpace) (w : Sys2Proof.Fields) : Sys2Proof.Laws.FormFields.Statement (.atomExch n sp w) :=
  ⟨rfl, rfl⟩
theorem Sys2Proof.Laws.FormFields.atomInc (t : Sys2Proof.AtTy) (sp : Sys2Proof.AtSpace) (w : Sys2Proof.Fields) : Sys2Proof.Laws.FormFields.Statement (.atomInc t sp w) :=
  ⟨rfl, rfl⟩
theorem Sys2Proof.Laws.FormFields.atomDec (t : Sys2Proof.AtTy) (sp : Sys2Proof.AtSpace) (w : Sys2Proof.Fields) : Sys2Proof.Laws.FormFields.Statement (.atomDec t sp w) :=
  ⟨rfl, rfl⟩
theorem Sys2Proof.Laws.FormFields.atomFaddF32 (sp : Sys2Proof.AtSpace) (w : Sys2Proof.Fields) : Sys2Proof.Laws.FormFields.Statement (.atomFaddF32 sp w) :=
  ⟨rfl, rfl⟩
theorem Sys2Proof.Laws.FormFields.atomFadd2Bf16 (sp : Sys2Proof.AtSpace) (w : Sys2Proof.Fields) : Sys2Proof.Laws.FormFields.Statement (.atomFadd2Bf16 sp w) :=
  ⟨rfl, rfl⟩
theorem Sys2Proof.Laws.FormFields.cas (n : Sys2Proof.Width) (sp : Sys2Proof.AtSpace) (w : Sys2Proof.Fields) : Sys2Proof.Laws.FormFields.Statement (.cas n sp w) :=
  ⟨rfl, rfl⟩
theorem Sys2Proof.Laws.FormFields.casB128 (sp : Sys2Proof.AtSpace) (w : Sys2Proof.Fields) : Sys2Proof.Laws.FormFields.Statement (.casB128 sp w) :=
  ⟨rfl, rfl⟩
theorem Sys2Proof.Laws.FormFields.fence (w : Sys2Proof.Fields) : Sys2Proof.Laws.FormFields.Statement (.fence w) :=
  ⟨rfl, rfl⟩
theorem Sys2Proof.Laws.FormFields.bar (w : Sys2Proof.Fields) : Sys2Proof.Laws.FormFields.Statement (.bar w) :=
  ⟨rfl, rfl⟩
theorem Sys2Proof.Laws.FormFields.barArrive (w : Sys2Proof.Fields) : Sys2Proof.Laws.FormFields.Statement (.barArrive w) :=
  ⟨rfl, rfl⟩
theorem Sys2Proof.Laws.FormFields.barWait (w : Sys2Proof.Fields) : Sys2Proof.Laws.FormFields.Statement (.barWait w) :=
  ⟨rfl, rfl⟩
theorem Sys2Proof.Laws.FormFields.coInit (w : Sys2Proof.Fields) : Sys2Proof.Laws.FormFields.Statement (.coInit w) :=
  ⟨rfl, rfl⟩
theorem Sys2Proof.Laws.FormFields.coArrive (w : Sys2Proof.Fields) : Sys2Proof.Laws.FormFields.Statement (.coArrive w) :=
  ⟨rfl, rfl⟩
theorem Sys2Proof.Laws.FormFields.coWait (w : Sys2Proof.Fields) : Sys2Proof.Laws.FormFields.Statement (.coWait w) :=
  ⟨rfl, rfl⟩
theorem Sys2Proof.Laws.FormFields.elect (w : Sys2Proof.Fields) : Sys2Proof.Laws.FormFields.Statement (.elect w) :=
  ⟨rfl, rfl⟩
theorem Sys2Proof.Laws.FormFields.gredAdd (t : Sys2Proof.GredTy) (w : Sys2Proof.Fields) : Sys2Proof.Laws.FormFields.Statement (.gredAdd t w) :=
  ⟨rfl, rfl⟩
theorem Sys2Proof.Laws.FormFields.gredMin (t : Sys2Proof.GredTy) (w : Sys2Proof.Fields) : Sys2Proof.Laws.FormFields.Statement (.gredMin t w) :=
  ⟨rfl, rfl⟩
theorem Sys2Proof.Laws.FormFields.gredMax (t : Sys2Proof.GredTy) (w : Sys2Proof.Fields) : Sys2Proof.Laws.FormFields.Statement (.gredMax t w) :=
  ⟨rfl, rfl⟩
theorem Sys2Proof.Laws.FormFields.cpG2v (w : Sys2Proof.Fields) : Sys2Proof.Laws.FormFields.Statement (.cpG2v w) :=
  ⟨rfl, rfl⟩
theorem Sys2Proof.Laws.FormFields.cpV2g (w : Sys2Proof.Fields) : Sys2Proof.Laws.FormFields.Statement (.cpV2g w) :=
  ⟨rfl, rfl⟩
theorem Sys2Proof.Laws.FormFields.cpV2v (w : Sys2Proof.Fields) : Sys2Proof.Laws.FormFields.Statement (.cpV2v w) :=
  ⟨rfl, rfl⟩
theorem Sys2Proof.Laws.FormFields.cpMc (w : Sys2Proof.Fields) : Sys2Proof.Laws.FormFields.Statement (.cpMc w) :=
  ⟨rfl, rfl⟩
theorem Sys2Proof.Laws.FormFields.seal (w : Sys2Proof.Fields) : Sys2Proof.Laws.FormFields.Statement (.seal w) :=
  ⟨rfl, rfl⟩
theorem Sys2Proof.Laws.FormFields.unseal (w : Sys2Proof.Fields) : Sys2Proof.Laws.FormFields.Statement (.unseal w) :=
  ⟨rfl, rfl⟩
theorem Sys2Proof.Laws.FormFields.vmap (w : Sys2Proof.Fields) : Sys2Proof.Laws.FormFields.Statement (.vmap w) :=
  ⟨rfl, rfl⟩
theorem Sys2Proof.Laws.FormFields.vunmap (w : Sys2Proof.Fields) : Sys2Proof.Laws.FormFields.Statement (.vunmap w) :=
  ⟨rfl, rfl⟩
theorem Sys2Proof.Laws.FormFields.vflush (w : Sys2Proof.Fields) : Sys2Proof.Laws.FormFields.Statement (.vflush w) :=
  ⟨rfl, rfl⟩
theorem Sys2Proof.Laws.FormFields.gath (w : Sys2Proof.Fields) : Sys2Proof.Laws.FormFields.Statement (.gath w) :=
  ⟨rfl, rfl⟩
theorem Sys2Proof.Laws.FormFields.collAllred (t : Sys2Proof.CollTy) (w : Sys2Proof.Fields) : Sys2Proof.Laws.FormFields.Statement (.collAllred t w) :=
  ⟨rfl, rfl⟩
theorem Sys2Proof.Laws.FormFields.collRedsc (t : Sys2Proof.CollTy) (w : Sys2Proof.Fields) : Sys2Proof.Laws.FormFields.Statement (.collRedsc t w) :=
  ⟨rfl, rfl⟩
theorem Sys2Proof.Laws.FormFields.collAllgath (w : Sys2Proof.Fields) : Sys2Proof.Laws.FormFields.Statement (.collAllgath w) :=
  ⟨rfl, rfl⟩
theorem Sys2Proof.Laws.FormFields.collBcast (w : Sys2Proof.Fields) : Sys2Proof.Laws.FormFields.Statement (.collBcast w) :=
  ⟨rfl, rfl⟩
theorem Sys2Proof.Laws.FormFields.seqGemm (w : Sys2Proof.Fields) : Sys2Proof.Laws.FormFields.Statement (.seqGemm w) :=
  ⟨rfl, rfl⟩
theorem Sys2Proof.Laws.FormFields.seqAttn (w : Sys2Proof.Fields) : Sys2Proof.Laws.FormFields.Statement (.seqAttn w) :=
  ⟨rfl, rfl⟩
theorem Sys2Proof.Laws.FormFields.frz (w : Sys2Proof.Fields) : Sys2Proof.Laws.FormFields.Statement (.frz w) :=
  ⟨rfl, rfl⟩
theorem Sys2Proof.Laws.FormFields.thaw (w : Sys2Proof.Fields) : Sys2Proof.Laws.FormFields.Statement (.thaw w) :=
  ⟨rfl, rfl⟩
theorem Sys2Proof.Laws.FormFields.qpost (w : Sys2Proof.Fields) : Sys2Proof.Laws.FormFields.Statement (.qpost w) :=
  ⟨rfl, rfl⟩
theorem Sys2Proof.Laws.FormFields.mmaCfg (w : Sys2Proof.Fields) : Sys2Proof.Laws.FormFields.Statement (.mmaCfg w) :=
  ⟨rfl, rfl⟩
theorem Sys2Proof.Laws.FormFields.mma (w : Sys2Proof.Fields) : Sys2Proof.Laws.FormFields.Statement (.mma w) :=
  ⟨rfl, rfl⟩
theorem Sys2Proof.Laws.FormFields.mmaRel (w : Sys2Proof.Fields) : Sys2Proof.Laws.FormFields.Statement (.mmaRel w) :=
  ⟨rfl, rfl⟩
theorem Sys2Proof.Laws.FormFields.mmaClr (w : Sys2Proof.Fields) : Sys2Proof.Laws.FormFields.Statement (.mmaClr w) :=
  ⟨rfl, rfl⟩
theorem Sys2Proof.Laws.FormFields.srd (w : Sys2Proof.Fields) : Sys2Proof.Laws.FormFields.Statement (.srd w) :=
  ⟨rfl, rfl⟩
theorem Sys2Proof.Laws.FormFields.swr (w : Sys2Proof.Fields) : Sys2Proof.Laws.FormFields.Statement (.swr w) :=
  ⟨rfl, rfl⟩
theorem Sys2Proof.Laws.FormFields.trapRet (w : Sys2Proof.Fields) : Sys2Proof.Laws.FormFields.Statement (.trapRet w) :=
  ⟨rfl, rfl⟩
theorem Sys2Proof.Laws.FormFields.trapSub (w : Sys2Proof.Fields) : Sys2Proof.Laws.FormFields.Statement (.trapSub w) :=
  ⟨rfl, rfl⟩
theorem Sys2Proof.Laws.FormFields.ctxNew (at' : Sys2Proof.CtxSite) : Sys2Proof.Laws.FormFields.Statement (.ctxNew at') := by
  cases at' <;> exact ⟨rfl, rfl⟩
theorem Sys2Proof.Laws.FormFields.ctxGiveQuays (at' : Sys2Proof.CtxSite) : Sys2Proof.Laws.FormFields.Statement (.ctxGiveQuays at') := by
  cases at' <;> exact ⟨rfl, rfl⟩
theorem Sys2Proof.Laws.FormFields.ctxGiveMemory (at' : Sys2Proof.CtxSite) : Sys2Proof.Laws.FormFields.Statement (.ctxGiveMemory at') := by
  cases at' <;> exact ⟨rfl, rfl⟩
theorem Sys2Proof.Laws.FormFields.ctxGiveQueue (at' : Sys2Proof.CtxSite) : Sys2Proof.Laws.FormFields.Statement (.ctxGiveQueue at') := by
  cases at' <;> exact ⟨rfl, rfl⟩
theorem Sys2Proof.Laws.FormFields.ctxGiveEnergy (at' : Sys2Proof.CtxSite) : Sys2Proof.Laws.FormFields.Statement (.ctxGiveEnergy at') := by
  cases at' <;> exact ⟨rfl, rfl⟩
theorem Sys2Proof.Laws.FormFields.ctxTakeQuays (at' : Sys2Proof.CtxSite) : Sys2Proof.Laws.FormFields.Statement (.ctxTakeQuays at') := by
  cases at' <;> exact ⟨rfl, rfl⟩
theorem Sys2Proof.Laws.FormFields.ctxTakeMemory (at' : Sys2Proof.CtxSite) : Sys2Proof.Laws.FormFields.Statement (.ctxTakeMemory at') := by
  cases at' <;> exact ⟨rfl, rfl⟩
theorem Sys2Proof.Laws.FormFields.ctxTakeQueue (at' : Sys2Proof.CtxSite) : Sys2Proof.Laws.FormFields.Statement (.ctxTakeQueue at') := by
  cases at' <;> exact ⟨rfl, rfl⟩
theorem Sys2Proof.Laws.FormFields.ctxTakeEnergy (at' : Sys2Proof.CtxSite) : Sys2Proof.Laws.FormFields.Statement (.ctxTakeEnergy at') := by
  cases at' <;> exact ⟨rfl, rfl⟩
theorem Sys2Proof.Laws.FormFields.ctxMap (at' : Sys2Proof.CtxSite) : Sys2Proof.Laws.FormFields.Statement (.ctxMap at') := by
  cases at' <;> exact ⟨rfl, rfl⟩
theorem Sys2Proof.Laws.FormFields.ctxUnmap (at' : Sys2Proof.CtxSite) : Sys2Proof.Laws.FormFields.Statement (.ctxUnmap at') := by
  cases at' <;> exact ⟨rfl, rfl⟩
theorem Sys2Proof.Laws.FormFields.ctxUnmapRenewal (at' : Sys2Proof.CtxSite) : Sys2Proof.Laws.FormFields.Statement (.ctxUnmapRenewal at') := by
  cases at' <;> exact ⟨rfl, rfl⟩
theorem Sys2Proof.Laws.FormFields.ctxRun (at' : Sys2Proof.CtxSite) : Sys2Proof.Laws.FormFields.Statement (.ctxRun at') := by
  cases at' <;> exact ⟨rfl, rfl⟩
theorem Sys2Proof.Laws.FormFields.ctxStop (at' : Sys2Proof.CtxSite) : Sys2Proof.Laws.FormFields.Statement (.ctxStop at') := by
  cases at' <;> exact ⟨rfl, rfl⟩
theorem Sys2Proof.Laws.FormFields.ctxStopEnd (at' : Sys2Proof.CtxSite) : Sys2Proof.Laws.FormFields.Statement (.ctxStopEnd at') := by
  cases at' <;> exact ⟨rfl, rfl⟩
theorem Sys2Proof.Laws.FormFields.ctxStopRelease (at' : Sys2Proof.CtxSite) : Sys2Proof.Laws.FormFields.Statement (.ctxStopRelease at') := by
  cases at' <;> exact ⟨rfl, rfl⟩
theorem Sys2Proof.Laws.FormFields.enRead (w : Sys2Proof.Fields) : Sys2Proof.Laws.FormFields.Statement (.enRead w) :=
  ⟨rfl, rfl⟩
theorem Sys2Proof.Laws.FormFields.enQuota (at' : Sys2Proof.CtxSite) : Sys2Proof.Laws.FormFields.Statement (.enQuota at') := by
  cases at' <;> exact ⟨rfl, rfl⟩
theorem Sys2Proof.Laws.FormFields.launch (w : Sys2Proof.Fields) : Sys2Proof.Laws.FormFields.Statement (.launch w) :=
  ⟨rfl, rfl⟩
theorem Sys2Proof.Laws.FormFields.spawn (w : Sys2Proof.Fields) : Sys2Proof.Laws.FormFields.Statement (.spawn w) :=
  ⟨rfl, rfl⟩
theorem Sys2Proof.Laws.FormFields.joinPut (w : Sys2Proof.Fields) : Sys2Proof.Laws.FormFields.Statement (.joinPut w) :=
  ⟨rfl, rfl⟩
theorem Sys2Proof.Laws.FormFields.pgreqAckRetry (w : Sys2Proof.Fields) : Sys2Proof.Laws.FormFields.Statement (.pgreqAckRetry w) :=
  ⟨rfl, rfl⟩
theorem Sys2Proof.Laws.FormFields.pgreqAckRefuse (w : Sys2Proof.Fields) : Sys2Proof.Laws.FormFields.Statement (.pgreqAckRefuse w) :=
  ⟨rfl, rfl⟩
theorem Sys2Proof.Laws.FormFields.dlogStart (at' : Sys2Proof.CtxSite) : Sys2Proof.Laws.FormFields.Statement (.dlogStart at') := by
  cases at' <;> exact ⟨rfl, rfl⟩
theorem Sys2Proof.Laws.FormFields.dlogStop (at' : Sys2Proof.CtxSite) : Sys2Proof.Laws.FormFields.Statement (.dlogStop at') := by
  cases at' <;> exact ⟨rfl, rfl⟩
theorem Sys2Proof.Laws.FormFields.partChg (at' : Sys2Proof.CtxSite) : Sys2Proof.Laws.FormFields.Statement (.partChg at') := by
  cases at' <;> exact ⟨rfl, rfl⟩
theorem Sys2Proof.Laws.FormFields.cmdLaunch (c : Nat) (q : Nat) : Sys2Proof.Laws.FormFields.Statement (.cmdLaunch c q) :=
  ⟨rfl, rfl⟩
theorem Sys2Proof.Laws.FormFields.cmdWait (c : Nat) (q : Nat) : Sys2Proof.Laws.FormFields.Statement (.cmdWait c q) :=
  ⟨rfl, rfl⟩
theorem Sys2Proof.Laws.FormFields.waitReread (c : Nat) (q : Nat) : Sys2Proof.Laws.FormFields.Statement (.waitReread c q) :=
  ⟨rfl, rfl⟩
theorem Sys2Proof.Laws.FormFields.cmdSignalWrite (c : Nat) (q : Nat) : Sys2Proof.Laws.FormFields.Statement (.cmdSignalWrite c q) :=
  ⟨rfl, rfl⟩
theorem Sys2Proof.Laws.FormFields.cmdSignalAdd (c : Nat) (q : Nat) : Sys2Proof.Laws.FormFields.Statement (.cmdSignalAdd c q) :=
  ⟨rfl, rfl⟩
theorem Sys2Proof.Laws.FormFields.cmdCopyG2v (c : Nat) (q : Nat) : Sys2Proof.Laws.FormFields.Statement (.cmdCopyG2v c q) :=
  ⟨rfl, rfl⟩
theorem Sys2Proof.Laws.FormFields.cmdCopyV2g (c : Nat) (q : Nat) : Sys2Proof.Laws.FormFields.Statement (.cmdCopyV2g c q) :=
  ⟨rfl, rfl⟩
theorem Sys2Proof.Laws.FormFields.cmdCopyV2v (c : Nat) (q : Nat) : Sys2Proof.Laws.FormFields.Statement (.cmdCopyV2v c q) :=
  ⟨rfl, rfl⟩
theorem Sys2Proof.Laws.FormFields.cmdCopyMc (c : Nat) (q : Nat) : Sys2Proof.Laws.FormFields.Statement (.cmdCopyMc c q) :=
  ⟨rfl, rfl⟩
theorem Sys2Proof.Laws.FormFields.cmdCollAllredBf16 (c : Nat) (q : Nat) : Sys2Proof.Laws.FormFields.Statement (.cmdCollAllredBf16 c q) :=
  ⟨rfl, rfl⟩
theorem Sys2Proof.Laws.FormFields.cmdCollAllredF32 (c : Nat) (q : Nat) : Sys2Proof.Laws.FormFields.Statement (.cmdCollAllredF32 c q) :=
  ⟨rfl, rfl⟩
theorem Sys2Proof.Laws.FormFields.cmdCollRedscBf16 (c : Nat) (q : Nat) : Sys2Proof.Laws.FormFields.Statement (.cmdCollRedscBf16 c q) :=
  ⟨rfl, rfl⟩
theorem Sys2Proof.Laws.FormFields.cmdCollRedscF32 (c : Nat) (q : Nat) : Sys2Proof.Laws.FormFields.Statement (.cmdCollRedscF32 c q) :=
  ⟨rfl, rfl⟩
theorem Sys2Proof.Laws.FormFields.cmdCollAllgath (c : Nat) (q : Nat) : Sys2Proof.Laws.FormFields.Statement (.cmdCollAllgath c q) :=
  ⟨rfl, rfl⟩
theorem Sys2Proof.Laws.FormFields.cmdCollBcast (c : Nat) (q : Nat) : Sys2Proof.Laws.FormFields.Statement (.cmdCollBcast c q) :=
  ⟨rfl, rfl⟩
theorem Sys2Proof.Laws.FormFields.cmdFreeze (c : Nat) (q : Nat) : Sys2Proof.Laws.FormFields.Statement (.cmdFreeze c q) :=
  ⟨rfl, rfl⟩
theorem Sys2Proof.Laws.FormFields.cmdThaw (c : Nat) (q : Nat) : Sys2Proof.Laws.FormFields.Statement (.cmdThaw c q) :=
  ⟨rfl, rfl⟩
theorem Sys2Proof.Laws.FormFields.queueWake (c : Nat) (q : Nat) : Sys2Proof.Laws.FormFields.Statement (.queueWake c q) :=
  ⟨rfl, rfl⟩
theorem Sys2Proof.Laws.FormFields.mrd (n : Nat) : Sys2Proof.Laws.FormFields.Statement (.mrd n) :=
  ⟨rfl, rfl⟩
theorem Sys2Proof.Laws.FormFields.mwr (n : Nat) : Sys2Proof.Laws.FormFields.Statement (.mwr n) :=
  ⟨rfl, rfl⟩
theorem Sys2Proof.Laws.FormFields.qpostMessage (n : Nat) : Sys2Proof.Laws.FormFields.Statement (.qpostMessage n) :=
  ⟨rfl, rfl⟩
theorem Sys2Proof.Laws.FormFields.ctxop (n : Nat) : Sys2Proof.Laws.FormFields.Statement (.ctxop n) :=
  ⟨rfl, rfl⟩
theorem Sys2Proof.Laws.FormFields.pgack (n : Nat) : Sys2Proof.Laws.FormFields.Statement (.pgack n) :=
  ⟨rfl, rfl⟩
theorem Sys2Proof.Laws.FormFields.enread (n : Nat) : Sys2Proof.Laws.FormFields.Statement (.enread n) :=
  ⟨rfl, rfl⟩
theorem Sys2Proof.Laws.FormFields.attest (n : Nat) : Sys2Proof.Laws.FormFields.Statement (.attest n) :=
  ⟨rfl, rfl⟩
theorem Sys2Proof.Laws.FormFields.gets (n : Nat) : Sys2Proof.Laws.FormFields.Statement (.gets n) :=
  ⟨rfl, rfl⟩
theorem Sys2Proof.Laws.FormFields.getm (n : Nat) : Sys2Proof.Laws.FormFields.Statement (.getm n) :=
  ⟨rfl, rfl⟩
theorem Sys2Proof.Laws.FormFields.data (n : Nat) (victim : Option Nat) : Sys2Proof.Laws.FormFields.Statement (.data n victim) :=
  ⟨rfl, rfl⟩
theorem Sys2Proof.Laws.FormFields.tok (n : Nat) : Sys2Proof.Laws.FormFields.Statement (.tok n) :=
  ⟨rfl, rfl⟩
theorem Sys2Proof.Laws.FormFields.inv (n : Nat) : Sys2Proof.Laws.FormFields.Statement (.inv n) :=
  ⟨rfl, rfl⟩
theorem Sys2Proof.Laws.FormFields.fwds (n : Nat) : Sys2Proof.Laws.FormFields.Statement (.fwds n) :=
  ⟨rfl, rfl⟩
theorem Sys2Proof.Laws.FormFields.wb (n : Nat) : Sys2Proof.Laws.FormFields.Statement (.wb n) :=
  ⟨rfl, rfl⟩
theorem Sys2Proof.Laws.FormFields.put (n : Nat) : Sys2Proof.Laws.FormFields.Statement (.put n) :=
  ⟨rfl, rfl⟩
theorem Sys2Proof.Laws.FormFields.collect (n : Nat) : Sys2Proof.Laws.FormFields.Statement (.collect n) :=
  ⟨rfl, rfl⟩
theorem Sys2Proof.Laws.FormFields.done (n : Nat) : Sys2Proof.Laws.FormFields.Statement (.done n) :=
  ⟨rfl, rfl⟩
theorem Sys2Proof.Laws.FormFields.persistentRequest (holder : Nat) (line : Nat) : Sys2Proof.Laws.FormFields.Statement (.persistentRequest holder line) :=
  ⟨rfl, rfl⟩
theorem Sys2Proof.Laws.FormFields.preq (n : Nat) : Sys2Proof.Laws.FormFields.Statement (.preq n) :=
  ⟨rfl, rfl⟩
theorem Sys2Proof.Laws.FormFields.pact (n : Nat) : Sys2Proof.Laws.FormFields.Statement (.pact n) :=
  ⟨rfl, rfl⟩
theorem Sys2Proof.Laws.FormFields.pdone (n : Nat) : Sys2Proof.Laws.FormFields.Statement (.pdone n) :=
  ⟨rfl, rfl⟩
theorem Sys2Proof.Laws.FormFields.pdeact (n : Nat) : Sys2Proof.Laws.FormFields.Statement (.pdeact n) :=
  ⟨rfl, rfl⟩
theorem Sys2Proof.Laws.FormFields.fdata (n : Nat) : Sys2Proof.Laws.FormFields.Statement (.fdata n) :=
  ⟨rfl, rfl⟩
theorem Sys2Proof.Laws.FormFields.refuse (n : Nat) : Sys2Proof.Laws.FormFields.Statement (.refuse n) :=
  ⟨rfl, rfl⟩
theorem Sys2Proof.Laws.FormFields.sweep (n : Nat) : Sys2Proof.Laws.FormFields.Statement (.sweep n) :=
  ⟨rfl, rfl⟩
theorem Sys2Proof.Laws.FormFields.swack (n : Nat) : Sys2Proof.Laws.FormFields.Statement (.swack n) :=
  ⟨rfl, rfl⟩
theorem Sys2Proof.Laws.FormFields.uncachedAccess (n : Nat) : Sys2Proof.Laws.FormFields.Statement (.uncachedAccess n) :=
  ⟨rfl, rfl⟩
theorem Sys2Proof.Laws.FormFields.remoteRequest (r : Sys2Proof.RemoteReq) : Sys2Proof.Laws.FormFields.Statement (.remoteRequest r) :=
  ⟨rfl, rfl⟩
theorem Sys2Proof.Laws.FormFields.walkStart (die : Nat) : Sys2Proof.Laws.FormFields.Statement (.walkStart die) :=
  ⟨rfl, rfl⟩
theorem Sys2Proof.Laws.FormFields.walkComplete (die : Nat) (n : Nat) : Sys2Proof.Laws.FormFields.Statement (.walkComplete die n) :=
  ⟨rfl, rfl⟩
theorem Sys2Proof.Laws.FormFields.pgreqAppend (n : Nat) : Sys2Proof.Laws.FormFields.Statement (.pgreqAppend n) :=
  ⟨rfl, rfl⟩
theorem Sys2Proof.Laws.FormFields.translationExpiry (quay : Nat) (n : Nat) : Sys2Proof.Laws.FormFields.Statement (.translationExpiry quay n) :=
  ⟨rfl, rfl⟩
theorem Sys2Proof.Laws.FormFields.generationIncrement (n : Nat) : Sys2Proof.Laws.FormFields.Statement (.generationIncrement n) :=
  ⟨rfl, rfl⟩
theorem Sys2Proof.Laws.FormFields.planeChoose (quay : Nat) (plane : Nat) : Sys2Proof.Laws.FormFields.Statement (.planeChoose quay plane) :=
  ⟨rfl, rfl⟩
theorem Sys2Proof.Laws.FormFields.blockConfigure (quay : Nat) (plane : Nat) : Sys2Proof.Laws.FormFields.Statement (.blockConfigure quay plane) :=
  ⟨rfl, rfl⟩
theorem Sys2Proof.Laws.FormFields.threadAdmit (quay : Nat) (plane : Nat) (slot : Nat) : Sys2Proof.Laws.FormFields.Statement (.threadAdmit quay plane slot) :=
  ⟨rfl, rfl⟩
theorem Sys2Proof.Laws.FormFields.blockResolve : Sys2Proof.Laws.FormFields.Statement (.blockResolve) :=
  ⟨rfl, rfl⟩
theorem Sys2Proof.Laws.FormFields.commit : Sys2Proof.Laws.FormFields.Statement (.commit) :=
  ⟨rfl, rfl⟩
theorem Sys2Proof.Laws.FormFields.entryAged (quay : Nat) (entry : Nat) : Sys2Proof.Laws.FormFields.Statement (.entryAged quay entry) :=
  ⟨rfl, rfl⟩
theorem Sys2Proof.Laws.FormFields.coalesceHoldEnd (quay : Nat) (entry : Nat) : Sys2Proof.Laws.FormFields.Statement (.coalesceHoldEnd quay entry) :=
  ⟨rfl, rfl⟩
theorem Sys2Proof.Laws.FormFields.runOpenTimeout (quay : Nat) (plane : Nat) : Sys2Proof.Laws.FormFields.Statement (.runOpenTimeout quay plane) :=
  ⟨rfl, rfl⟩
theorem Sys2Proof.Laws.FormFields.drainTimeout (quay : Nat) (plane : Nat) : Sys2Proof.Laws.FormFields.Statement (.drainTimeout quay plane) :=
  ⟨rfl, rfl⟩
theorem Sys2Proof.Laws.FormFields.bollardWeightUpdate (quay : Nat) (bollard : Nat) (waiting : List Nat) : Sys2Proof.Laws.FormFields.Statement (.bollardWeightUpdate quay bollard waiting) :=
  ⟨rfl, rfl⟩
theorem Sys2Proof.Laws.FormFields.bollardUncorrectable (quay : Nat) (bollard : Nat) : Sys2Proof.Laws.FormFields.Statement (.bollardUncorrectable quay bollard) :=
  ⟨rfl, rfl⟩
theorem Sys2Proof.Laws.FormFields.storePerform (quay : Nat) (slot : Nat) : Sys2Proof.Laws.FormFields.Statement (.storePerform quay slot) :=
  ⟨rfl, rfl⟩
theorem Sys2Proof.Laws.FormFields.holdBreak (n : Nat) : Sys2Proof.Laws.FormFields.Statement (.holdBreak n) :=
  ⟨rfl, rfl⟩
theorem Sys2Proof.Laws.FormFields.barrierArrival (quay : Nat) (slot : Nat) : Sys2Proof.Laws.FormFields.Statement (.barrierArrival quay slot) :=
  ⟨rfl, rfl⟩
theorem Sys2Proof.Laws.FormFields.coWaitWake (quay : Nat) (slot : Nat) : Sys2Proof.Laws.FormFields.Statement (.coWaitWake quay slot) :=
  ⟨rfl, rfl⟩
theorem Sys2Proof.Laws.FormFields.coWaitPoll (quay : Nat) (slot : Nat) : Sys2Proof.Laws.FormFields.Statement (.coWaitPoll quay slot) :=
  ⟨rfl, rfl⟩
theorem Sys2Proof.Laws.FormFields.workgroupDispatch (n : Nat) (quays : List Nat) : Sys2Proof.Laws.FormFields.Statement (.workgroupDispatch n quays) :=
  ⟨rfl, rfl⟩
theorem Sys2Proof.Laws.FormFields.workgroupComplete (n : Nat) : Sys2Proof.Laws.FormFields.Statement (.workgroupComplete n) :=
  ⟨rfl, rfl⟩
theorem Sys2Proof.Laws.FormFields.launchComplete (n : Nat) : Sys2Proof.Laws.FormFields.Statement (.launchComplete n) :=
  ⟨rfl, rfl⟩
theorem Sys2Proof.Laws.FormFields.copyChunkDone (op : Nat) : Sys2Proof.Laws.FormFields.Statement (.copyChunkDone op) :=
  ⟨rfl, rfl⟩
theorem Sys2Proof.Laws.FormFields.scoreboardRetire (quay : Nat) (n : Nat) : Sys2Proof.Laws.FormFields.Statement (.scoreboardRetire quay n) :=
  ⟨rfl, rfl⟩
theorem Sys2Proof.Laws.FormFields.completionRaise (op : Nat) : Sys2Proof.Laws.FormFields.Statement (.completionRaise op) :=
  ⟨rfl, rfl⟩
theorem Sys2Proof.Laws.FormFields.gatherRow (op : Nat) : Sys2Proof.Laws.FormFields.Statement (.gatherRow op) :=
  ⟨rfl, rfl⟩
theorem Sys2Proof.Laws.FormFields.collChunkReduce (n : Nat) : Sys2Proof.Laws.FormFields.Statement (.collChunkReduce n) :=
  ⟨rfl, rfl⟩
theorem Sys2Proof.Laws.FormFields.seqStep (op : Nat) : Sys2Proof.Laws.FormFields.Statement (.seqStep op) :=
  ⟨rfl, rfl⟩
theorem Sys2Proof.Laws.FormFields.mappedFill (quay : Nat) (line : Nat) : Sys2Proof.Laws.FormFields.Statement (.mappedFill quay line) :=
  ⟨rfl, rfl⟩
theorem Sys2Proof.Laws.FormFields.vflushDone (op : Nat) : Sys2Proof.Laws.FormFields.Statement (.vflushDone op) :=
  ⟨rfl, rfl⟩
theorem Sys2Proof.Laws.FormFields.vunmapDone (op : Nat) : Sys2Proof.Laws.FormFields.Statement (.vunmapDone op) :=
  ⟨rfl, rfl⟩
theorem Sys2Proof.Laws.FormFields.sealDone (op : Nat) : Sys2Proof.Laws.FormFields.Statement (.sealDone op) :=
  ⟨rfl, rfl⟩
theorem Sys2Proof.Laws.FormFields.unsealDone (op : Nat) : Sys2Proof.Laws.FormFields.Statement (.unsealDone op) :=
  ⟨rfl, rfl⟩
theorem Sys2Proof.Laws.FormFields.freezePage (op : Nat) : Sys2Proof.Laws.FormFields.Statement (.freezePage op) :=
  ⟨rfl, rfl⟩
theorem Sys2Proof.Laws.FormFields.pageFrozen (page : Nat) : Sys2Proof.Laws.FormFields.Statement (.pageFrozen page) :=
  ⟨rfl, rfl⟩
theorem Sys2Proof.Laws.FormFields.thawPage (op : Nat) : Sys2Proof.Laws.FormFields.Statement (.thawPage op) :=
  ⟨rfl, rfl⟩
theorem Sys2Proof.Laws.FormFields.matrixQueueHead (pair : Nat) : Sys2Proof.Laws.FormFields.Statement (.matrixQueueHead pair) :=
  ⟨rfl, rfl⟩
theorem Sys2Proof.Laws.FormFields.endOfRow (pair : Nat) : Sys2Proof.Laws.FormFields.Statement (.endOfRow pair) :=
  ⟨rfl, rfl⟩
theorem Sys2Proof.Laws.FormFields.nodeRelease (pair : Nat) : Sys2Proof.Laws.FormFields.Statement (.nodeRelease pair) :=
  ⟨rfl, rfl⟩
theorem Sys2Proof.Laws.FormFields.endOfOperation (pair : Nat) : Sys2Proof.Laws.FormFields.Statement (.endOfOperation pair) :=
  ⟨rfl, rfl⟩
theorem Sys2Proof.Laws.FormFields.fmtRegionEnable (die : Nat) (region : Nat) (v : Sys2Proof.Word) : Sys2Proof.Laws.FormFields.Statement (.fmtRegionEnable die region v) :=
  ⟨rfl, rfl⟩
theorem Sys2Proof.Laws.FormFields.fmtRegionDisable (die : Nat) (region : Nat) (v : Sys2Proof.Word) : Sys2Proof.Laws.FormFields.Statement (.fmtRegionDisable die region v) :=
  ⟨rfl, rfl⟩
theorem Sys2Proof.Laws.FormFields.fmtRegionBusyClear (die : Nat) (region : Nat) : Sys2Proof.Laws.FormFields.Statement (.fmtRegionBusyClear die region) :=
  ⟨rfl, rfl⟩
theorem Sys2Proof.Laws.FormFields.netpolWrite (part : Nat) (v : Sys2Proof.Word) : Sys2Proof.Laws.FormFields.Statement (.netpolWrite part v) :=
  ⟨rfl, rfl⟩
theorem Sys2Proof.Laws.FormFields.controlWindowWrite (die : Nat) (off : Nat) (v : Sys2Proof.Word) : Sys2Proof.Laws.FormFields.Statement (.controlWindowWrite die off v) :=
  ⟨rfl, rfl⟩
theorem Sys2Proof.Laws.FormFields.contextOpDone (n : Nat) : Sys2Proof.Laws.FormFields.Statement (.contextOpDone n) :=
  ⟨rfl, rfl⟩
theorem Sys2Proof.Laws.FormFields.vaultHandover (n : Nat) : Sys2Proof.Laws.FormFields.Statement (.vaultHandover n) :=
  ⟨rfl, rfl⟩
theorem Sys2Proof.Laws.FormFields.preemptStopReached (n : Nat) (agent : Sys2Proof.StopAgent) : Sys2Proof.Laws.FormFields.Statement (.preemptStopReached n agent) :=
  ⟨rfl, rfl⟩
theorem Sys2Proof.Laws.FormFields.preemptDrainLimit (n : Nat) : Sys2Proof.Laws.FormFields.Statement (.preemptDrainLimit n) :=
  ⟨rfl, rfl⟩
theorem Sys2Proof.Laws.FormFields.preemptionComplete (n : Nat) : Sys2Proof.Laws.FormFields.Statement (.preemptionComplete n) :=
  ⟨rfl, rfl⟩
theorem Sys2Proof.Laws.FormFields.saveChunk (n : Nat) : Sys2Proof.Laws.FormFields.Statement (.saveChunk n) :=
  ⟨rfl, rfl⟩
theorem Sys2Proof.Laws.FormFields.restore (n : Nat) : Sys2Proof.Laws.FormFields.Statement (.restore n) :=
  ⟨rfl, rfl⟩
theorem Sys2Proof.Laws.FormFields.timeSliceEnd (part : Nat) : Sys2Proof.Laws.FormFields.Statement (.timeSliceEnd part) :=
  ⟨rfl, rfl⟩
theorem Sys2Proof.Laws.FormFields.lamplighterArrival : Sys2Proof.Laws.FormFields.Statement (.lamplighterArrival) :=
  ⟨rfl, rfl⟩
theorem Sys2Proof.Laws.FormFields.tick : Sys2Proof.Laws.FormFields.Statement (.tick) :=
  ⟨rfl, rfl⟩
theorem Sys2Proof.Laws.FormFields.exhaustionPreempt (c : Nat) : Sys2Proof.Laws.FormFields.Statement (.exhaustionPreempt c) :=
  ⟨rfl, rfl⟩
theorem Sys2Proof.Laws.FormFields.powerWindow (milliwatts : Nat) : Sys2Proof.Laws.FormFields.Statement (.powerWindow milliwatts) :=
  ⟨rfl, rfl⟩
theorem Sys2Proof.Laws.FormFields.thermalThrottle (die : Nat) (celsius : Nat) : Sys2Proof.Laws.FormFields.Statement (.thermalThrottle die celsius) :=
  ⟨rfl, rfl⟩
theorem Sys2Proof.Laws.FormFields.thermalTrip (die : Nat) (celsius : Nat) : Sys2Proof.Laws.FormFields.Statement (.thermalTrip die celsius) :=
  ⟨rfl, rfl⟩
theorem Sys2Proof.Laws.FormFields.patrolScrub (slice : Nat) (find : Sys2Proof.ScrubFind) : Sys2Proof.Laws.FormFields.Statement (.patrolScrub slice find) :=
  ⟨rfl, rfl⟩
theorem Sys2Proof.Laws.FormFields.linkFrame (peer : Nat) (body : Sys2Proof.LinkBody) : Sys2Proof.Laws.FormFields.Statement (.linkFrame peer body) :=
  ⟨rfl, rfl⟩
theorem Sys2Proof.Laws.FormFields.flitRetransmit : Sys2Proof.Laws.FormFields.Statement (.flitRetransmit) :=
  ⟨rfl, rfl⟩
theorem Sys2Proof.Laws.FormFields.keepalive : Sys2Proof.Laws.FormFields.Statement (.keepalive) :=
  ⟨rfl, rfl⟩
theorem Sys2Proof.Laws.FormFields.peerLost (peer : Nat) : Sys2Proof.Laws.FormFields.Statement (.peerLost peer) :=
  ⟨rfl, rfl⟩
theorem Sys2Proof.Laws.FormFields.swackTimeout (page : Nat) (peer : Nat) : Sys2Proof.Laws.FormFields.Statement (.swackTimeout page peer) :=
  ⟨rfl, rfl⟩
theorem Sys2Proof.Laws.FormFields.powerOnReset (failStep : Nat) : Sys2Proof.Laws.FormFields.Statement (.powerOnReset failStep) :=
  ⟨rfl, rfl⟩
theorem Sys2Proof.Laws.FormFields.blockPinned (quay : Nat) (entry : Nat) : Sys2Proof.Laws.FormFields.Statement (.blockPinned quay entry) :=
  ⟨rfl, rfl⟩
theorem Sys2Proof.Laws.FormFields.malformedMessage (n : Nat) : Sys2Proof.Laws.FormFields.Statement (.malformedMessage n) :=
  ⟨rfl, rfl⟩
end

