-- ==== Sys2Proof/Tests/Slice0.lean ====
section
/-! SUPPORT. Tests: ill-formed terms that the checks refuse, words written out from the manual's encodings, values of the
manual's own examples, and for every statement states that meet its hypotheses. -/

open Sys2Proof Sys2Proof.Machine Sys2Proof.Safety

namespace Sys2Proof.Tests

set_option Elab.async false

/-! ### Ill-formed terms -/

/-- Fields with no guard and no target. -/
def w0 : Fields := ⟨.none, 0, 0, .empty, .empty, .empty⟩

/-- R175: a predicate guard names p0 to p47. -/
theorem test_wf_guard_predicate : Instr.wf (.mov { w0 with guard := .ifTrue 48 }) = false := by decide +kernel
/-- R184: a form that reads port g takes no port guard. -/
theorem test_wf_guard_port : Instr.wf (.imad .n32 { w0 with guard := .port }) = false := by decide +kernel
/-- R176: an immediate stands in F2 only. -/
theorem test_wf_immediate_place : Instr.wf (.iadd .n32 { w0 with f0 := .imm 1 }) = false := by decide +kernel
/-- R176: a form with no result names no destination. -/
theorem test_wf_no_destination : Instr.wf (.fence { w0 with f0 := .slot 3, f2 := .imm 0 }) = false := by decide +kernel
/-- R177: an own immediate is not left out. -/
theorem test_wf_f2_kind : Instr.wf (.movi w0) = false := by decide +kernel
/-- R179: the formats of a conversion differ. -/
theorem test_wf_cvt_same : Instr.wf (.cvt .f32 .f32 w0) = false := by decide +kernel
/-- R219: the selector of a special value is at most 16. -/
theorem test_wf_sreg_selector : Instr.wf (.sreg { w0 with f2 := .imm 17 }) = false := by decide +kernel
/-- R396: a system register selector names a code up to 9. -/
theorem test_wf_srd_selector : Instr.wf (.srd { w0 with f2 := .imm 10 }) = false := by decide +kernel
/-- R396: the word of a selector is 0 but for code 2. -/
theorem test_wf_srd_word : Instr.wf (.srd { w0 with f2 := .imm 0x103 }) = false := by decide +kernel
/-- R282: bits 11:0 of F2 of an engine form are 0. -/
theorem test_wf_engine_low : Instr.wf (.cpG2v { w0 with f2 := .imm 1 }) = false := by decide +kernel
/-- R325: bits 11:0 of F2 of a completion form are 0. -/
theorem test_wf_object_low : Instr.wf (.coInit { w0 with f2 := .imm 4 }) = false := by decide +kernel
/-- A step names a quay of the module. -/
theorem test_wf_event_quay : Instr.wf (.blockPinned 256 0) = false := by decide +kernel
/-- A step names a queue of a context. -/
theorem test_wf_event_queue : Instr.wf (.cmdLaunch 0 64) = false := by decide +kernel
/-- What the checks let through. -/
theorem test_wf_accepts : Instr.wf (.mov w0) = true ∧ Instr.wf (.srd { w0 with f2 := .imm 0x802 }) = true ∧
    Instr.wf (.blockPinned 255 63) = true := by decide +kernel

/-! ### Words of the manual's encodings, one for each family -/

/-- Class 0x0 (R496, R480): `br` 2 blocks on; `exit #3`. -/
theorem test_decode_control :
    decodeWord 0x000000000000000000300002#96 = .ok (.br { w0 with f2 := .imm 2 }) ∧
    decodeWord 0x020000000000000000300003#96 = .ok (.exit { w0 with f2 := .imm 3 }) := by decide +kernel
/-- Classes 0x1 to 0x7 (R465, R200, R220, R496). -/
theorem test_decode_computing :
    decodeWord 0x238000020000000000300001#96 = .ok (.sar .b32 ⟨.none, 0, 0, .slot 0, .empty, .imm 1⟩) ∧
    decodeWord 0x200000010800042600300001#96 =
      .ok (.and .b32 ⟨.none, 0, 0, .target 8 .a, .target 9 .g, .imm 1⟩) ∧
    decodeWord 0x31800001040008000033F800#96 = .ok (.ffma ⟨.none, 0, 0, .target 4 .a, .slot 0, .imm 0x3F800⟩) ∧
    decodeWord 0x7080000101000000003010A0#96 = .ok (.movi ⟨.none, 0, 0, .target 1 .a, .empty, .imm 0x10A0⟩) := by
  decide +kernel
/-- Classes 0x8 to 0xD (R480, R496, R475). -/
theorem test_decode_memory_and_engines :
    decodeWord 0x901000010200080000305000#96 = .ok (.atomAdd .n32 .g ⟨.none, 0, 0, .target 2 .a, .slot 0, .imm 0x5000⟩) ∧
    decodeWord 0xA28000000000000000380002#96 = .ok (.coWait { w0 with f2 := .imm 0x80002 }) ∧
    decodeWord 0xB50000000000000000304000#96 = .ok (.collAllred .bf16 { w0 with f2 := .imm 0x4000 }) ∧
    decodeWord 0xC08000000000000000300001#96 = .ok (.mma { w0 with f2 := .imm 1 }) ∧
    decodeWord 0xD18000000000000000000000#96 = .ok (.trapSub w0) ∧
    decodeWord 0xD10000000000000000000000#96 = .ok (.trapRet w0) := by decide +kernel
/-- Class 0xE is no class; a reserved bit of a word is refused (R175). -/
theorem test_decode_refuses :
    decodeTableWord 96 0xE00000000000000000000000 = none ∧ decodeTableWord 96 0xD18000002000000000000000 = none := by
  decide +kernel

/-! ### Every form, by CLASS and FUNC as the manual's tables give them (R181 to R183, R261, R281, R324, R394) -/

/-- The word with bits 95:84 `code`, no guard, empty F0 and F1, and bits 21:0 `f2`, decodes to the form. -/
def reads (f2 : Nat) (x : Nat × (Fields → Instr)) : Bool :=
  match decodeWord (BitVec.ofNat 96 (x.1 * 2 ^ 84 + f2)) with
  | .ok i => decide (i = x.2 { w0 with f2 := if f2 = 0 then .empty else .imm (BitVec.ofNat _ f2) })
  | .error _ => false

/-- F2 as an immediate of value `v` (R176). -/
def imm (v : Nat) : Nat := 0x300000 + v

theorem test_decode_every_0_1 :
    ([(0x000, Instr.br), (0x010, .call)].all (reads (imm 1)) &&
      [(0x008, Instr.bri), (0x018, .ret), (0x020, .exit), (0x028, .trap), (0x100, .iadd .s32), (0x109, .isub .n32),
       (0x112, .imul .s64), (0x11B, .imulhi .n64), (0x124, .imad .s16), (0x12D, .idiv .n16), (0x136, .irem .s8),
       (0x13A, .ineg .s64), (0x144, .iabs .s16), (0x14F, .imin .n8), (0x150, .imax .s32), (0x15B, .lea .s32 3),
       (0x15F, .lea .n32 3), (0x161, .iaddc .n32), (0x163, .iaddc .n64), (0x16E, .iaddSat .s8),
       (0x177, .isubSat .n8)].all (reads 0)) = true := by decide +kernel

theorem test_decode_every_2 :
    [(0x200, Instr.and .b32), (0x209, .or .b64), (0x210, .xor .b32), (0x219, .andn .b64), (0x220, .not .b32),
     (0x229, .shl .b64), (0x230, .shr .b32), (0x239, .sar .b64), (0x240, .rotl .b32), (0x249, .rotr .b64),
     (0x250, .popc .b32), (0x259, .clz .b64), (0x260, .ctz .b32), (0x269, .brev .b64), (0x270, .bfx .b32),
     (0x279, .bfi .b64), (0x280, .bperm .b32), (0x289, .icmp .eq .n32), (0x292, .icmp .ne .s64), (0x298, .icmp .lt .s32),
     (0x2A1, .icmp .le .n32), (0x2AC, .icmp .gt .s16), (0x2B7, .icmp .ge .n8), (0x2B8, .isel .b32), (0x2C0, .pand),
     (0x2C8, .por), (0x2D0, .pxor), (0x2D8, .pnot), (0x2E0, .pset), (0x2E8, .pmov), (0x2F0, .ppack)].all (reads 0) = true := by
  decide +kernel

theorem test_decode_every_3_4 :
    [(0x300, Instr.fadd), (0x308, .fsub), (0x310, .fmul), (0x318, .ffma), (0x320, .fmin), (0x328, .fmax), (0x330, .fabs),
     (0x338, .fneg), (0x342, .fcmp .lt), (0x347, .fcmp .or), (0x348, .fsel), (0x350, .fclass), (0x359, .frnd .z),
     (0x360, .fscale), (0x368, .fcopysign), (0x400, .hadd2 .f16), (0x409, .hmul2 .bf16), (0x410, .hfma2 .f16),
     (0x419, .dot2 .bf16), (0x420, .dot4), (0x428, .dotds .f8a), (0x429, .dotds .f8b)].all (reads 0) = true := by
  decide +kernel

theorem test_decode_every_5_6_7 :
    ([(0x5A8, Instr.cvt .bf16 .f32), (0x58A, .cvt .f32 .bf16), (0x506, .cvt .s32 .s8), (0x5C9, .cvt .f8b .f16),
      (0x58D, .cvtF32Ds8), (0x5D8, .dsenc), (0x5E9, .pack2 .f16), (0x5EC, .pack2 .f8b), (0x5FA, .unpack2 .bf16),
      (0x5FB, .unpack2 .f8a), (0x600, .rcp), (0x608, .rsq), (0x610, .sqrt), (0x618, .div), (0x620, .exp2), (0x628, .log2),
      (0x630, .sin), (0x638, .cos), (0x640, .tanh), (0x700, .mov), (0x710, .movh), (0x718, .fan),
      (0x720, .null)].all (reads 0) &&
     [(0x708, Instr.movi), (0x728, .sreg)].all (reads (imm 3))) = true := by decide +kernel

theorem test_decode_every_8_9 :
    ([(0x825, Instr.ld .s16 .v), (0x802, .ld .n32 .g), (0x853, .st .b64 .l), (0x868, .ldv .vl), (0x880, .stv .g),
      (0x8A3, .ldNc .b64), (0x8C0, .pf)].all (reads (imm 0)) &&
     [(0x901, Instr.atomAdd .n32 .g), (0x914, .atomSub .s32 .v), (0x92A, .atomMin .s64 .vl), (0x933, .atomMax .n64 .g),
      (0x940, .atomAnd .b32 .g), (0x956, .atomOr .b64 .v), (0x968, .atomXor .b32 .vl), (0x972, .atomExch .b64 .g),
      (0x981, .atomInc .n32 .g), (0x991, .atomDec .n32 .g), (0x9A0, .atomFaddF32 .g), (0x9B4, .atomFadd2Bf16 .v),
      (0x9C2, .cas .b64 .g), (0x9C1, .casB128 .g)].all (reads (imm 0x5000)) &&
     reads (imm 0xD400) (0x9D0, Instr.fence)) = true := by decide +kernel

theorem test_decode_every_A_B :
    ([(0xA00, Instr.bar), (0xA10, .barWait)].all (reads (imm 1)) && reads (imm 0x80002) (0xA28, Instr.coWait) &&
     [(0xA08, Instr.barArrive), (0xA30, .elect), (0xA38, .gredAdd .f32), (0xA41, .gredMin .s32),
      (0xA48, .gredMax .f32)].all (reads 0) &&
     [(0xA18, Instr.coInit), (0xA20, .coArrive), (0xB00, .cpG2v), (0xB08, .cpV2g), (0xB10, .cpV2v), (0xB18, .cpMc),
      (0xB20, .seal), (0xB28, .unseal), (0xB30, .vmap), (0xB38, .vunmap), (0xB40, .vflush), (0xB48, .gath),
      (0xB50, .collAllred .bf16), (0xB51, .collAllred .f32), (0xB58, .collRedsc .bf16), (0xB59, .collRedsc .f32),
      (0xB62, .collAllgath), (0xB6A, .collBcast), (0xB70, .seqGemm), (0xB78, .seqAttn), (0xB80, .frz), (0xB88, .thaw),
      (0xB90, .qpost)].all (reads (imm 0x4000))) = true := by decide +kernel

theorem test_decode_every_C_D :
    ([(0xC00, Instr.mmaCfg), (0xC08, .mma), (0xC10, .mmaRel), (0xC18, .mmaClr), (0xD10, .trapRet), (0xD18, .trapSub),
      (0xD20, .ctxNew ∘ .fire), (0xD28, .ctxGiveQuays ∘ .fire), (0xD30, .ctxTakeQuays ∘ .fire), (0xD38, .ctxMap ∘ .fire),
      (0xD40, .ctxUnmap ∘ .fire), (0xD48, .ctxRun ∘ .fire), (0xD50, .ctxStop ∘ .fire), (0xD58, .enRead),
      (0xD60, .enQuota ∘ .fire), (0xD80, .pgreqAckRetry), (0xD88, .dlogStart ∘ .fire),
      (0xD90, .partChg ∘ .fire)].all (reads 0) &&
     reads (imm 0x302) (0xD00, Instr.srd) && reads (imm 3) (0xD08, Instr.swr) &&
     [(0xD68, Instr.launch), (0xD70, .spawn), (0xD78, .joinPut)].all (reads (imm 0x4000))) = true := by decide +kernel

/-! ### States for the tests -/

/-- A pass whose current instruction has tokens at its three ports. -/
def ready (a b g : Word) : State :=
  withPass State.reset { fetchPass 0 with
    ports := [{ idx := 0, port := .a, val := some { data := a } }, { idx := 0, port := .b, val := some { data := b } },
              { idx := 0, port := .g, val := some { data := g } }] }

/-- Fields that send the result to port a of instruction 1. -/
def wt : Fields := { w0 with f0 := .target 1 .a }

/-- What an instruction that fires sends to port a of instruction 1. -/
def result (i : Fields → Instr) (a b g : Word) : Option Word :=
  match exec (i wt) (ready a b g) with
  | .next t => (t.pass.port 1 .a).map (·.data)
  | _ => none

/-- The cause of the trap that an instruction records. -/
def causeOf (i : Instr) (s : State) : Option (BitVec 8) :=
  match exec i s with
  | .next t => t.pass.trap.map (·.cause)
  | _ => none

/-! ### Values of the manual's own examples -/

/-- R204: `imulhi` of −2 and 3, signed and unsigned. -/
theorem test_imulhi : result (.imulhi .s32) 0xFFFFFFFE 3 0 = some 0xFFFFFFFF ∧
    result (.imulhi .n32) 0xFFFFFFFE 3 0 = some 2 := by decide +kernel
/-- R204: `iadd.sat.s8` of 100 and 100. -/
theorem test_iadd_sat : result (.iaddSat .s8) 100 100 0 = some 127 := by decide +kernel
/-- R204: `isub.sat.n16` of 3 and 5. -/
theorem test_isub_sat : result (.isubSat .n16) 3 5 0 = some 0 := by decide +kernel
/-- R204: the negation of the most negative value is itself, sign-extended to 32 bits. -/
theorem test_ineg : result (.ineg .s8) 0x80 0 0 = some 0xFFFFFF80 := by decide +kernel
/-- R205: −7 divided by 2. -/
theorem test_idiv : result (.idiv .s32) 0xFFFFFFF9 2 0 = some 0xFFFFFFFD ∧
    result (.idiv .n8) 5 0 0 = some 0xFF := by decide +kernel
/-- R205: the remainder of −7 by 2, and of a division by 0. -/
theorem test_irem : result (.irem .s32) 0xFFFFFFF9 2 0 = some 0xFFFFFFFF ∧ result (.irem .s32) 5 0 0 = some 5 := by
  decide +kernel
/-- R206: the worked example of `lea`, both index types. -/
theorem test_lea : result (.lea .s32 3) 0x100000000 0xFFFFFFFF 0 = some 0xFFFFFFF8 ∧
    result (.lea .n32 3) 0x100000000 0xFFFFFFFF 0 = some 0x8FFFFFFF8 := by decide +kernel
/-- R207: the carry of `iaddc.n32` stands in bit 32. -/
theorem test_iaddc : result (.iaddc .n32) 0xFFFFFFFF 0 1 = some 0x100000000 := by decide +kernel
/-- R209: `shl.b32` of 1 by 33. -/
theorem test_shl : result (.shl .b32) 1 33 0 = some 0 := by decide +kernel
/-- R209: `rotl.b32` of 1 by 33. -/
theorem test_rotl : result (.rotl .b32) 1 33 0 = some 2 := by decide +kernel
/-- R209: `sar` past the width fills with the sign bit. -/
theorem test_sar : result (.sar .b32) 0x80000000 40 0 = some 0xFFFFFFFF := by decide +kernel
/-- R210: counts of 0. -/
theorem test_clz_ctz : result (.clz .b32) 0 0 0 = some 32 ∧ result (.ctz .b64) 0 0 0 = some 64 := by decide +kernel
/-- R211: a `bfi` of length 0 gives a. -/
theorem test_bfi : result (.bfi .b32) 0xABCD 0x3 0xFF = some 0xABCD := by decide +kernel
/-- R212: `bperm.b32` with 0x0123 reverses the bytes. -/
theorem test_bperm : result (.bperm .b32) 0x11223344 0x0123 0 = some 0x44332211 := by decide +kernel
/-- R213: `icmp.lt` of 0xFFFF_FFFF and 0, signed and unsigned. -/
theorem test_icmp : result (.icmp .lt .s32) 0xFFFFFFFF 0 0 = some 1 ∧
    result (.icmp .lt .n32) 0xFFFFFFFF 0 0 = some 0 := by decide +kernel
/-- R217: the second step of the worked constant. -/
theorem test_movh : result .movh 0x12345 0x6789A 0 = some 0x123456789A := by decide +kernel
/-- R239: 1 + 2^−8 rounds to even in BF16. -/
theorem test_cvt_bf16 : result (.cvt .bf16 .f32) 0x3F808000 0 0 = some 0x3F80 := by decide +kernel
/-- R237: 0.6875, 1/128 and −0.98 as DS8 codes. -/
theorem test_dsenc : result .dsenc 0x3F300000 0 0 = some 0x12 ∧ result .dsenc 0x3C000000 0 0 = some 0x77 ∧
    result .dsenc 0xBF7AE148 0 0 = some 0x86 := by decide +kernel
/-- R228: −0.5 rounds to −0. -/
theorem test_frnd : result (.frnd .z) 0xBF000000 0 0 = some 0x80000000 := by decide +kernel
/-- R326: a `bri` target whose low bits are not 0. -/
theorem test_bri : causeOf (.bri w0) (ready 1 0 0) = some 0x07 := by decide +kernel
/-- R329: `trap`. -/
theorem test_trap : causeOf (.trap w0) (ready 5 0 0) = some 0x06 := by decide +kernel
/-- R331: a barrier operand above 15. -/
theorem test_bar : causeOf (.bar w0) (ready 16 0 0) = some 0x0A := by decide +kernel
/-- R121: the raise that completes a phase of one arrival turns PHASE and clears COUNT. -/
theorem test_raise : raiseObject (1#32 ++ 0#96) 0 = 1#32 ++ 0#95 ++ 1#1 := by decide +kernel

/-! ### Hypotheses that are met: firing -/

/-- Whatever the form, it fires in `ready` with the three values. -/
theorem fires_ready (i : Instr) (f : Form) (a b g : Word) (hf : Instr.form i = some f) :
    Fires i w0 ⟨if f.ra then a else 0, if f.rb then b else 0, if f.rg then g else 0⟩ (ready a b g) := by
  have hi : immPort f w0 = none := by unfold immPort; cases f.imm <;> rfl
  refine ⟨?_, rfl⟩
  show Option.map (fun f => (ready a b g).pass.firing f w0) (Instr.form i) = _
  rw [hf, Option.map_some]
  simp only [Pass.firing, tokenPorts, Pass.dataOr0, Pass.data, hi]
  obtain ⟨cls, func, ra, rb, rg, imm, result, branch, kind, f2⟩ := f
  cases ra <;> cases rb <;> cases rg <;> rfl

/-- The shape of a witness that a form fires. -/
def FiresSome (i : Instr) : Prop := ∃ v s, Fires i w0 v s

theorem witness_forms_fire (i : Instr) (f : Form) (hf : Instr.form i = some f) : FiresSome i :=
  ⟨_, _, fires_ready i f 1 2 3 hf⟩

theorem witness_IntegerResults : FiresSome (.iadd .n32 w0) ∧ FiresSome (.idiv .s8 w0) ∧ FiresSome (.ineg .s16 w0) ∧
    FiresSome (.lea .n32 3 w0) ∧ FiresSome (.iaddc .n64 w0) ∧ FiresSome (.isubSat .s64 w0) :=
  ⟨witness_forms_fire _ _ rfl, witness_forms_fire _ _ rfl, witness_forms_fire _ _ rfl, witness_forms_fire _ _ rfl,
    witness_forms_fire _ _ rfl, witness_forms_fire _ _ rfl⟩

theorem witness_LogicResults : FiresSome (.and .b32 w0) ∧ FiresSome (.not .b64 w0) ∧ FiresSome (.shl .b32 w0) ∧
    FiresSome (.bfi .b64 w0) ∧ FiresSome (.bperm .b32 w0) :=
  ⟨witness_forms_fire _ _ rfl, witness_forms_fire _ _ rfl, witness_forms_fire _ _ rfl, witness_forms_fire _ _ rfl,
    witness_forms_fire _ _ rfl⟩

theorem witness_ComparePredicateAndMoveResults : FiresSome (.icmp .lt .s32 w0) ∧ FiresSome (.isel .b64 w0) ∧
    FiresSome (.ppack w0) ∧ FiresSome (.mov w0) ∧ FiresSome (.movi w0) ∧ FiresSome (.sreg w0) :=
  ⟨witness_forms_fire _ _ rfl, witness_forms_fire _ _ rfl, witness_forms_fire _ _ rfl, witness_forms_fire _ _ rfl,
    witness_forms_fire _ _ rfl, witness_forms_fire _ _ rfl⟩

/-- With no exception enabled a sum is as the statement says; with the inexact exception enabled it traps. -/
theorem witness_FloatingPointResults : FiresSome (.fadd w0) ∧ FiresSome (.fabs w0) ∧ FiresSome (.dotds .f8a w0) ∧
    enabledExc (ready 1 2 3) &&& (fword (fp2 fmtF32 fAdd (ready 1 2 3).pass.block 1 2)).2 = 0 :=
  ⟨witness_forms_fire _ _ rfl, witness_forms_fire _ _ rfl, witness_forms_fire _ _ rfl, by decide +kernel⟩

/-- A pass whose block enables every exception. -/
def readyEnabled (a b g : Word) : State :=
  withPass (ready a b g) { (ready a b g).pass with snap := { (ready a b g).pass.snap with fpctl := 0x1F00 } }

theorem witness_ConversionAndSpecialResults : FiresSome (.cvt .bf16 .f32 w0) ∧ FiresSome (.unpack2 .bf16 w0) ∧
    FiresSome (.rcp w0) ∧ Fires (.dsenc w0) w0 ⟨0x3F300000, 0, 0⟩ (readyEnabled 0x3F300000 0 0) ∧
    enabledExc (readyEnabled 0x3F300000 0 0) &&& (dsencVal (readyEnabled 0x3F300000 0 0).pass.block ⟨0x3F300000, 0, 0⟩).2
      ≠ 0 :=
  ⟨witness_forms_fire _ _ rfl, witness_forms_fire _ _ rfl, witness_forms_fire _ _ rfl,
    by constructor <;> decide +kernel, by decide +kernel⟩

theorem witness_OperandsAndResultsOfIntegers : intLo .s8 ≤ intHi .s8 ∧ intLo .n64 ≤ 0 ∧ 0 ≤ intHi .n64 := by
  decide +kernel

/-- Every clause at a boundary: a divisor 0, the most negative value by −1, the largest by the largest. -/
theorem witness_DivisionAndCarryMean :
    (intLo .s8 ≤ -128 ∧ (-128 : Int) ≤ intHi .s8 ∧ intLo .s8 ≤ 0 ∧ 0 ≤ intHi .s8) ∧
    (intSigned .s8 = true ∧ (-128 : Int) = intLo .s8 ∧ intLo .s8 ≤ -1 ∧ -1 ≤ intHi .s8) ∧
    ((127 : Int) ≤ intHi .s8 ∧ (127 : Int) ≠ 0 ∧ ¬((127 : Int) = intLo .s8)) := by decide +kernel

theorem witness_BitCountsMean : (0 : Nat) < 2 ^ 0 ∧ 2 ^ 32 - 1 < 2 ^ 32 := by decide +kernel

/-! ### Encoding, steps, ports -/

theorem witness_DecodeEncodeAgree : Instr.canonical (.cvt .bf16 .f32 wt) = .cvt .bf16 .f32 wt ∧
    Instr.wf (.cvt .bf16 .f32 wt) = true ∧ (Instr.encode (.cvt .bf16 .f32 wt)).isSome = true := by decide +kernel

theorem witness_DecodedWordsEncodeBack :
    decodeWord 0x020000000000000000300003#96 = .ok (.exit { w0 with f2 := .imm 3 }) := by decide +kernel

theorem witness_EncodedWordsDecode : (0xE#4 ++ 0#92).extractLsb' 92 4 = 14 ∧ (0xF#4 ++ 0#92).extractLsb' 92 4 = 15 := by
  decide +kernel

/-- The word of `mov` placed at reset. -/
def placed0 : State := State.reset.withFetchWord 96 0x700000000000000000000000

theorem witness_StepRunsDecodedInstruction : placed0.dev.inReset = false ∧ placed0.agenda = [] ∧
    placed0.clock + 1 < tickCycles * (placed0.dev.ticks + 1) ∧ placed0.canRun placed0.pass = true ∧
    (let u : State := { placed0 with clock := placed0.clock + 1 };
      u.turnPass = u ∧ u.canRun u.pass = true ∧ u.nextWord u.pass = some 0) ∧
    decodeWord (placed0.pass.block.words.getD 0 0) = .ok (.mov w0) ∧
    (let s : State := { State.reset with parked := [placed0.pass] };
      s.canRun s.pass = false ∧ s.parked.find? s.canRun = some placed0.pass) := by
  and_intros <;> decide +kernel

theorem witness_OutsideEventsAndPlacedWordsRun :
    (∃ s : State, s.dev.inReset = false ∧ s.agenda = [.flitRetransmit]) ∧
    decodeTableWord 96 0x700000000000000000000000 = some (.mov w0) ∧
    ({ placed0 with clock := 1 } : State).nextWord placed0.pass = some 0 :=
  ⟨⟨{ State.reset with agenda := [.flitRetransmit] }, rfl, rfl⟩, by decide +kernel, by decide +kernel⟩

/-- A block of two words; the second, a `mov`, sends its result to port a of the first. -/
def block2 : Block := { words := [0, (Instr.encode (.mov { w0 with f0 := .target 0 .a })).getD 0] }

/-- `ready` with other cells at its ports, in a block of two words. -/
def portsOf (l : List PortCell) : State := withPass State.reset { fetchPass 0 with block := block2, ports := l }

theorem witness_EveryWordFiresByTheRule :
    firingOf (.mov w0) w0 (portsOf []) = some .wait ∧
    firingOf (.mov { w0 with guard := .ifTrue 0 }) { w0 with guard := .ifTrue 0 } (portsOf []) = some .guardFalse ∧
    firingOf (.mov w0) w0 (portsOf [{ idx := 0, port := .a, val := some { null := true } }]) = some .allNull ∧
    firingOf (.mov w0) w0 (portsOf [{ idx := 0, port := .a, val := some { notReady := true } }]) = some .notReady ∧
    firingOf (.iadd .n32 w0) w0 (portsOf [{ idx := 0, port := .a, val := some { null := true } },
      { idx := 0, port := .b, val := some {} }]) = some .conflict ∧
    (portsOf []).substitution = none ∧
    ({ ready 1 2 3 with threads := [{ st := .active, subs := [(0, 9)] }] } : State).substitution = some 9 ∧
    firingOf (.mov w0) w0 { ready 1 2 3 with threads := [{ st := .active, subs := [(0, 9)] }] } = some (.act ⟨1, 0, 0⟩) := by
  and_intros <;> decide +kernel

theorem witness_PortsAndTrapsResolve :
    ((fetchPass 0).cell 5 .a).val = none ∧ ((fetchPass 0).cell 0 .a).val.isSome = true ∧ (fetchPass 0).trap = none ∧
    (fetchPass 0).block.producers 5 .a ≤ ((fetchPass 0).cell 5 .a).nulls + 1 ∧
    (let p : Pass := { block := { block2 with words := block2.words ++ block2.words } };
      (p.cell 0 .a).val = none ∧ (p.cell 0 .a).nulls + 1 < p.block.producers 0 .a) ∧
    ((fetchPass 0).slotCell 31).val = none ∧
    (let p : Pass := { slots := [{ k := 31, val := some {}, high := 2, many := true }] };
      (p.slotCell 31).val.isSome = true ∧ p.slotCell 31 ∈ p.slots ∧ (p.slotCell 31).many = true) ∧
    ({ cause := 2, idx := 1 } : TrapNote).idx ≠ ({ cause := 2, idx := 0 } : TrapNote).idx := by
  and_intros <;> decide +kernel

theorem witness_WordsActOnTheirPassAlone : (∃ t, exec (.mov w0) (ready 1 2 3) = .next t) ∧
    (∃ t, exec (.st .b32 .g w0) (ready 1 2 3) = .next t) ∧
    ((ready 1 2 3).ctx (ready 1 2 3).pass.ctx).dlog.getLsbD 0 = false := ⟨⟨_, rfl⟩, ⟨_, rfl⟩, by decide +kernel⟩

/-! ### Hypotheses that are met: control, memory, engines, system -/

/-- `ready` with a thread in the slot of the pass. -/
def readyT (a b g : Word) (t : Thread) : State := { ready a b g with threads := [t] }

theorem witness_BranchesFireOrTrap :
    FiresSome (.br w0) ∧ Fires (.bri w0) w0 ⟨64, 0, 0⟩ (ready 64 0 0) ∧
    Fires (.bri w0) w0 ⟨BitVec.ofNat 64 (2 ^ 56 - 64), 0, 0⟩ (ready (BitVec.ofNat 64 (2 ^ 56 - 64)) 0 0) ∧
    (BitVec.ofNat 64 (2 ^ 56 - 64)).extractLsb' 56 8 = 0 ∧
    (BitVec.ofNat 64 (2 ^ 56)).extractLsb' 0 6 = 0 ∧ (BitVec.ofNat 64 (2 ^ 56)).extractLsb' 56 8 ≠ 0 ∧
    Fires (.call w0) w0 ⟨0, 0, 0⟩ (readyT 0 0 0 { csd := 7 }) ∧ (mine (readyT 0 0 0 { csd := 7 })).csd < 8 ∧
    8 ≤ (mine (readyT 0 0 0 { csd := 8 })).csd ∧ Fires (.ret w0) w0 ⟨0, 0, 0⟩ (readyT 0 0 0 { csd := 1 }) ∧
    0 < (mine (readyT 0 0 0 { csd := 1 })).csd ∧ (mine (ready 0 0 0)).csd = 0 ∧ FiresSome (.exit w0) ∧
    FiresSome (.trap w0) := by
  refine ⟨witness_forms_fire _ _ rfl, ?_⟩
  and_intros <;> first | decide +kernel | exact witness_forms_fire _ _ rfl

theorem witness_BarriersFire :
    Fires (.bar w0) w0 ⟨15, 0, 0⟩ (ready 15 0 0) ∧ barState (ready 15 0 0) 15 = 0 ∧
    Fires (.bar w0) w0 ⟨16, 0, 0⟩ (ready 16 0 0) ∧
    Fires (.barWait w0) w0 ⟨0, 0, 0⟩ (readyT 0 0 0 { bars := List.replicate 16 1 }) ∧
    barState (readyT 0 0 0 { bars := List.replicate 16 1 }) 0 = 1 ∧
    barState (readyT 0 0 0 { bars := List.replicate 16 2 }) 15 = 2 ∧
    Fires (.barArrive w0) w0 ⟨15, 0, 0⟩ (ready 15 0 0) := by
  and_intros <;> decide +kernel

/-- A cached translation of the first page. -/
def page0 : TlbEntry := { quay := 0, ctx := 0, va := 0, size := 16, pa := 0, w := true, x := true, gen := 0 }

/-- `ready` with that translation and every token of the first line at the cache of quay 0. -/
def readyM (a b g : Word) : State :=
  { ready a b g with tlb := [page0], copies := [{ holder := 0, line := 0, tokens := 512, owner := true }] }

theorem bit0_zero : BitVec.getLsbD (0 : Word) 0 = false := by decide

theorem vault_writeReady (a b g : Word) (n off : Nat) : WriteReady (.vault 0 off) n (.vault 0 off) 0 (ready a b g) := by
  refine ⟨?_, fun va h => by cases h⟩
  and_intros <;> rfl

theorem global_writeHeld (a b g : Word) (n : Nat) (k : Word) (hk : k = 0 ∨ k = 8) :
    WriteHeld (.virt k) n (.glob k.toNat) 0 (readyM a b g) := by
  rcases hk with rfl | rfl <;> refine Exists.intro page0 ?_ <;> and_intros <;> first | rfl | trivial | (intro _; exact bit0_zero)

theorem global_writeReady (a b g : Word) (n : Nat) (k : Word) (hk : k = 0 ∨ k = 8) :
    WriteReady (.virt k) n (.glob k.toNat) 0 (readyM a b g) :=
  ⟨global_writeHeld a b g n k hk, fun _ _ => rfl⟩

theorem global_readReady (a b g : Word) (k : Word) (hk : k = 0 ∨ k = 8) :
    ReadReady (.virt k) 8 (.glob k.toNat) (readyM a b g) := by
  rcases hk with rfl | rfl <;> refine Exists.intro page0 ?_ <;> and_intros <;> first | rfl | trivial | (intro _; exact bit0_zero)

theorem vault_readReady (a b g : Word) : ReadReady (.vault 0 64) 8 (.vault 0 64) (ready a b g) := by
  and_intros <;> rfl

theorem witness_CompletionObjectsAndReductionsFire :
    ObjectAt 64 (.virt 64) (ready 64 1 0) ∧ ObjectAt (1#64 <<< 63 ||| 64) (.vault 0 64) (ready (1#64 <<< 63 ||| 64) 1 0) ∧
    Fires (.coInit w0) w0 ⟨1#64 <<< 63 ||| 64, 1, 0⟩ (ready (1#64 <<< 63 ||| 64) 1 0) ∧
    WriteReady (.vault 0 64) 16 (.vault 0 64) 0 (ready (1#64 <<< 63 ||| 64) 1 0) ∧
    (ready (1#64 <<< 63 ||| 64) 1 0).scopeOk (ready (1#64 <<< 63 ||| 64) 1 0).pass.ctx (Fields.scope w0) = true ∧
    FiresSome (.coArrive w0) ∧ FiresSome (.coWait w0) ∧ FiresSome (.elect w0) ∧ FiresSome (.gredAdd .f32 w0) ∧
    (BitVec.extractLsb' 0 24 (0xBFFFE0 : Word)).toNat % 32 = 0 ∧
    (BitVec.extractLsb' 0 24 (0xBFFFE0 : Word)).toNat + 32 ≤ vaultEnd ∧
    vaultEnd < (BitVec.extractLsb' 0 24 (0xC00000 : Word)).toNat + 32 ∧
    (BitVec.extractLsb' 0 24 (1 : Word)).toNat % 32 ≠ 0 := by
  refine ⟨Or.inl ?_, Or.inr ⟨0, 64, ?_⟩, ?_, vault_writeReady _ _ _ _ _, ?_, witness_forms_fire _ _ rfl,
    witness_forms_fire _ _ rfl, witness_forms_fire _ _ rfl, witness_forms_fire _ _ rfl, ?_⟩ <;>
    and_intros <;> first | decide +kernel | rfl

theorem witness_LoadAndPrefetchResults :
    (readyM 0 0 0).pass.lowerNotReady (Fields.lsid w0) = false ∧ Fires (.ld .n64 .g w0) w0 ⟨0, 0, 0⟩ (readyM 0 0 0) ∧
    (readyM 0 0 0).place .g (0 + Fields.off15 w0) 8 8 = .ok (.virt 0) ∧
    ReadReady (.virt 0) 8 (.glob 0) (readyM 0 0 0) ∧ ReadReady (Place.high (.virt 0)) 8 (.glob 8) (readyM 0 0 0) ∧
    Fires (.ldv .g w0) w0 ⟨0, 0, 0⟩ (readyM 0 0 0) ∧ Fires (.ldNc .b64 w0) w0 ⟨0, 0, 0⟩ (readyM 0 0 0) ∧
    Fires (.ld .n64 .v w0) w0 ⟨64, 0, 0⟩ (ready 64 0 0) ∧
    (ready 64 0 0).place .v (64 + Fields.off15 w0) 8 8 = .ok (.vault 0 64) ∧
    ReadReady (.vault 0 64) 8 (.vault 0 64) (ready 64 0 0) ∧
    Fires (.pf w0) w0 ⟨128, 0, 0⟩ (readyM 128 0 0) ∧ (ready 128 0 0).tlbHit 0 0 128 false = none ∧
    (readyM 128 0 0).tlbHit 0 0 128 false = some page0 ∧ Local (page0.xlate 128).pa (readyM 128 0 0) ∧
    (readyM 128 0 0).readable 0 0 ((page0.xlate 128).pa / 128) (page0.xlate 128).gen = false := by
  refine ⟨rfl, ?_, rfl, global_readReady _ _ _ 0 (.inl rfl), global_readReady _ _ _ 8 (.inr rfl), ?_, ?_, ?_, rfl,
    vault_readReady _ _ _, ?_, rfl, rfl, trivial, rfl⟩ <;> constructor <;> decide +kernel

theorem witness_StoresWaitForCommit :
    Fires (.st .b64 .g w0) w0 ⟨0, 7, 0⟩ (readyM 0 7 0) ∧ (readyM 0 7 0).place .g (0 + Fields.off15 w0) 8 8 = .ok (.virt 0) ∧
    WriteReady (.virt 0) 8 (.glob 0) 0 (readyM 0 7 0) ∧ WriteReady (Place.high (.virt 0)) 8 (.glob 8) 0 (readyM 0 7 0) ∧
    Fires (.stv .g w0) w0 ⟨0, 7, 9⟩ (readyM 0 7 9) ∧
    WriteReady (.vault 0 64) 8 (.vault 0 64) 0 (ready 64 7 0) := by
  refine ⟨?_, rfl, global_writeReady _ _ _ _ 0 (.inl rfl), global_writeReady _ _ _ _ 8 (.inr rfl), ?_,
    vault_writeReady _ _ _ _ _⟩ <;> constructor <;> decide +kernel

theorem witness_AddressChecks : (0 : Nat) < 1 ∧ (mine (ready 0 0 0)).psize < (0 : Word).toNat + 1 ∧
    (mine (ready 0 0 0)).lsize < (0 : Word).toNat + 1 := by decide +kernel

/-- R98: the upper half of a 16-byte access at the last 8 bytes of the address space is refused, as its address is. -/
theorem test_accessPastTheEnd :
    (match (ready 0 0 0).place .g 0xFFFFFFFFFFFFF8 16 8 with
     | .error e => decide (e = (0x11, 0x100000000000000))
     | .ok _ => false) = true := by decide +kernel

theorem witness_AtomicResults :
    Fires (.atomAdd .n32 .g w0) w0 ⟨0, 7, 0⟩ (readyM 0 7 0) ∧
    (readyM 0 7 0).scopeOk (readyM 0 7 0).pass.ctx (Fields.scope w0) = true ∧
    (readyM 0 7 0).place (atSpace .g) (0 + Fields.off10 w0) 4 4 = .ok (.virt 0) ∧
    HoldReady (.virt 0) 4 (.glob 0) 0 (readyM 0 7 0) ∧ Fires (.cas .b32 .g w0) w0 ⟨0, 7, 9⟩ (readyM 0 7 9) ∧
    Fires (.casB128 .g w0) w0 ⟨0, 64, 0⟩ (readyM 0 64 0) ∧ HoldReady (.virt 0) 16 (.glob 0) 0 (readyM 0 64 0) ∧
    (BitVec.extractLsb' 0 24 (64 : Word)).toNat % 32 = 0 ∧
    ReadReady (.vault 0 64) 32 (.vault 0 64) (readyM 0 64 0) ∧ FiresSome (.fence w0) := by
  refine ⟨?_, rfl, rfl, ⟨global_writeHeld _ _ _ _ 0 (.inl rfl), rfl, rfl, rfl⟩, ?_, ?_,
    ⟨global_writeHeld _ _ _ _ 0 (.inl rfl), rfl, rfl, rfl⟩, ?_, ?_, witness_forms_fire _ _ rfl⟩ <;>
    and_intros <;> first | decide +kernel | rfl

/-- A descriptor from its five fields (R284). -/
def desc (src dst len aux xtra : Nat) : BitVec 256 :=
  BitVec.ofNat 64 src ++ BitVec.ofNat 64 dst ++ BitVec.ofNat 32 len ++ BitVec.ofNat 32 aux ++ BitVec.ofNat 64 xtra

/-- `ready` with a descriptor at offset 64 of the vault of quay 0, and a launch queue enabled. -/
def readyD (d : BitVec 256) : State :=
  { ready 64 0 0 with
    vmem := Mem.writeN [] (vkey 0 64) (leBytes 32 d.toNat)
    ctxs := [{ num := 0, queues := [{ n := 0, desc := 1#64 <<< 63 }] }] }

/-- The hypotheses of the engine forms, but for firing, with a descriptor. -/
def EngineReady (k : OpKind) (d : BitVec 256) : Prop :=
  (readyD d).scopeOk (readyD d).pass.ctx (Fields.scope w0) = true ∧ DescAt 64 d w0 (readyD d) ∧
    engineRefusal (readyD d) (readyD d).pass.ctx k 0 d 0 = none

/-- Every engine form: a descriptor that its limits allow. -/
theorem witness_EngineFormsFire :
    Fires (.cpV2v w0) w0 ⟨64, 0, 0⟩ (readyD (desc 0 128 128 0 0)) ∧
    EngineReady .cpG2v (desc 0 128 12582912 0 0) ∧ EngineReady .cpV2g (desc 0 128 1 0 0) ∧
    EngineReady .cpV2v (desc 0 128 128 0 0) ∧ EngineReady .cpMc (desc 0 32 128 1 0) ∧
    EngineReady .seal (desc 0 0 4096 0 0) ∧ EngineReady .unseal 0 ∧ EngineReady .vmap (desc 0 0 4096 1 0) ∧
    EngineReady .vunmap 0 ∧ EngineReady .vflush 0 ∧ EngineReady .gath (desc 0 0 128 0x10001 0) ∧
    EngineReady (.allred .f32) (desc 0 0 4 0 0) ∧ EngineReady (.redsc .bf16) (desc 0 0 2 0 0) ∧
    EngineReady .allgath (desc 0 0 4 0 0) ∧ EngineReady .bcast (desc 0 0 4 0 0) ∧ EngineReady .frz (desc 0 0 65536 0 0) ∧
    EngineReady .thaw (desc 65536 0 65536 0 0) ∧ EngineReady .qpost (desc 0 0 32 0 0) ∧
    EngineReady .seqGemm 0 ∧ EngineReady .seqAttn (desc 0 0 0 15 0) ∧
    (readyD 0).pairRefusal = none ∧ oOperandOk (dSrc 0) = true ∧
    ReadReady (.vault 0 0) 64 (.vault 0 0) (readyD 0) := by
  and_intros <;> decide +kernel

/-- `ready` on quay 1. -/
def readyOdd (a b g : Word) : State := withPass (ready a b g) { (ready a b g).pass with quay := 1 }

theorem witness_MatrixFormsFire :
    (ready 64 3 0).pairRefusal = none ∧ Fires (.mma w0) w0 ⟨64, 3, 0⟩ (ready 64 3 0) ∧
    Fires (.mmaRel w0) w0 ⟨3, 0, 0⟩ (ready 3 0 0) ∧ Fires (.mmaClr w0) w0 ⟨4, 0, 0⟩ (ready 4 0 0) ∧
    Fires (.mmaCfg w0) w0 ⟨0, 0, 0⟩ (ready 0 0 0) ∧ (cfgOk 0 0 = true ∨ cfgOk 0 0 = false) ∧
    (readyOdd 64 3 0).pass.quay % 2 = 1 ∧ Fires (.mma w0) w0 ⟨64, 3, 0⟩ (readyOdd 64 3 0) ∧
    ({ ready 64 3 0 with quayCtx := [(1, 5)], pass := { (ready 64 3 0).pass with ctx := 5 } } : State).pass.quay % 2 = 0 ∧
    ({ ready 64 3 0 with quayCtx := [(1, 4)], ctxs := [{ num := 0 }, { num := 4 }, { num := 5 }],
                         pass := { (ready 64 3 0).pass with ctx := 5 } } : State).holdsQuay 5 1 = false := by
  and_intros <;> first | decide +kernel | rfl

theorem witness_SystemFormsFire :
    FiresSome (.srd w0) ∧ FiresSome (.swr w0) ∧ Fires (.trapRet w0) w0 ⟨0, 0, 0⟩ (readyT 0 0 0 { traprec := 1 <<< 63 }) ∧
    (mine (readyT 0 0 0 { traprec := 1 <<< 63 })).trapValid = true ∧ (mine (ready 0 0 0)).trapValid = false ∧
    Fires (.trapSub w0) w0 ⟨9, 127, 0⟩ (readyT 9 127 0 { traprec := 1 <<< 63 }) ∧
    (127 : Word).extractLsb' 7 57 = 0 ∧ Fires (.enRead w0) w0 ⟨0, 1, 0⟩ (ready 0 1 0) ∧
    (ready 0 1 0).ctxLive 0 = true ∧ (ready 0 1 0).inSubtree 0 0 = true ∧
    Fires (.pgreqAckRetry w0) w0 ⟨0, 1, 0⟩ (ready 0 1 0) ∧ (1 : Word).extractLsb' 1 63 = 0 ∧
    swrRefusal 9 0 = some 0x27 ∧ Fires (.swr w0) w0 ⟨0, 9, 0⟩ (ready 0 9 0) := by
  refine ⟨witness_forms_fire _ _ rfl, witness_forms_fire _ _ rfl, ?_⟩
  and_intros <;> decide +kernel

theorem witness_ContextAndTaskFormsFire :
    Fires (.ctxNew (.fire w0)) w0 ⟨64, 64, 0⟩ (ready 64 64 0) ∧ ObjectAt 64 (.virt 64) (ready 64 64 0) ∧
    Fires (.partChg (.fire w0)) w0 ⟨64, 64, 0⟩ (withPass (ready 64 64 0) { (ready 64 64 0).pass with ctx := 1 }) ∧
    Fires (.spawn w0) w0 ⟨64, 64, 1#64 <<< 32⟩ (ready 64 64 (1#64 <<< 32)) ∧
    ((1#64 <<< 32).extractLsb' 32 11).toNat = 1 ∧ spawnReserved (1#64 <<< 32) = true ∧
    (64 : Word).extractLsb' 0 6 = 0 ∧ (ready 64 64 0).vaultOperand 64 0 0 32 = .ok 0 64 ∧
    WriteReady (.vault 0 64) 32 (.vault 0 64) 0 (ready 64 64 0) ∧ FiresSome (.joinPut w0) ∧
    WriteReady (.vault 0 80) 4 (.vault 0 80) 0 (ready 64 64 0) ∧ WriteReady (.vault 0 96) 4 (.vault 0 96) 0 (ready 64 64 0) ∧
    Fires (.launch w0) w0 ⟨128, 0, 0⟩ (ready 128 0 0) ∧ (128 : Word).toNat % 128 = 0 := by
  refine ⟨?_, Or.inl ?_, ?_, ?_, rfl, ?_, rfl, rfl, vault_writeReady _ _ _ _ _,
    witness_forms_fire _ _ rfl, vault_writeReady _ _ _ _ _, vault_writeReady _ _ _ _ _, ?_, rfl⟩ <;>
    and_intros <;> first | decide +kernel | rfl

/-! ### Hypotheses that are met: messages, homes, translation -/

/-- Whether what is asked for is there. -/
def isOk {α : Type} : Asked α → Bool
  | .ok _ _ => true
  | _ => false

theorem ok_of_isOk {α : Type} {x : Asked α} (h : isOk x = true) : ∃ a s, x = .ok a s := by
  cases x with
  | ok a s => exact ⟨a, s, rfl⟩
  | wait s => cases h
  | fail n s => cases h

/-- The state in which what was asked for is. -/
def after {α : Type} : Asked α → State
  | .ok _ s | .wait s | .fail _ s => s

/-- Whether what is asked for is there, a given answer. -/
def gives {α : Type} [DecidableEq α] (x : Asked α) (a : α) : Bool :=
  match x with
  | .ok b _ => decide (b = a)
  | _ => false

theorem ok_of_gives {α : Type} [DecidableEq α] {x : Asked α} {a : α} (h : gives x a = true) : x = .ok a (after x) := by
  cases x with
  | ok b t =>
    simp only [gives, decide_eq_true_eq] at h
    rw [h]; rfl
  | wait s => cases h
  | fail n s => cases h

/-- Whether what is asked for is there, a given answer in a given state. -/
def isAt {α : Type} [DecidableEq α] (x : Asked α) (a : α) (s : State) : Bool :=
  match x with
  | .ok b t => decide (b = a) && decide (t = s)
  | _ => false

theorem ok_of_isAt {α : Type} [DecidableEq α] {x : Asked α} {a : α} {s : State} (h : isAt x a s = true) : x = .ok a s := by
  cases x with
  | ok b t =>
    simp only [isAt, Bool.and_eq_true, decide_eq_true_eq] at h
    rw [h.1, h.2]
  | wait s => cases h
  | fail n s => cases h

/-- A page table at address 0 that maps the first gigabyte of context 0's space to itself, writable and executable (R100). -/
def mem0 : Mem :=
  Mem.writeN (Mem.writeN (Mem.writeN [] 0 (leBytes 8 (2 ^ 63 + 0x1000))) 0x1000 (leBytes 8 (2 ^ 63 + 0x2000))) 0x2000
    (leBytes 8 (2 ^ 63 + 2 ^ 62 + 3))

/-- A booted module with that page table. -/
def booted : State := { State.reset with dev := { bootStep := 7 }, mem := mem0 }

/-- A message of function 0. -/
def bmsg (op flags : Nat) (body : List Byte) : BMsg :=
  { hdr := BitVec.ofNat 64 (op + body.length * 2 ^ 36 + flags), body := body }

/-- `booted` with one message in the inbox. -/
def inb (op flags : Nat) (body : List Byte) : State := { booted with inbox := [bmsg op flags body] }

/-- The descriptor of a launch queue of one slot at 0x10000, on die 0. -/
def qdesc : Word := BitVec.ofNat 64 (2 ^ 63 + 0x10000)

/-- `inb` for a poster of context 0's queue 0. -/
def inbQ : State :=
  { inb 3 0 (leBytes 8 0 ++ List.replicate 32 1) with ctxs := [{ num := 0, queues := [{ n := 0, desc := qdesc }] }] }

set_option maxRecDepth 10000 in
theorem witness_BeaconMessagesComplete :
    Received 0 1 (bmsg 1 (2 ^ 54) (leBytes 8 64 ++ leBytes 8 64)) (inb 1 (2 ^ 54) (leBytes 8 64 ++ leBytes 8 64)) ∧
    (bmsg 1 (2 ^ 54) (leBytes 8 64 ++ leBytes 8 64)).phys = true ∧ NodeServes 64 64 false booted ∧
    (booted.gmeta (64 / 128)).poison = false ∧ booted.heldAny (.glob 64) = false ∧ (booted.dirOf (64 / 128)).ownh = true ∧
    (bmsg 1 (2 ^ 54) (leBytes 8 64 ++ leBytes 8 64)).pos = 0 ∧ (bmsg 1 (2 ^ 54) (leBytes 8 64 ++ leBytes 8 64)).data = [] ∧
    Received 0 2 (bmsg 2 (2 ^ 54) (leBytes 8 127 ++ [1])) (inb 2 (2 ^ 54) (leBytes 8 127 ++ [1])) ∧
    NodeServes 127 1 true booted ∧ booted.heldAny (.glob 127) = false ∧ booted.hasDir (127 / 128) = false ∧
    booted.collecting = [] ∧ (bmsg 2 (2 ^ 54) (leBytes 8 127 ++ [1])).pos = 0 ∧
    (let m := bmsg 3 0 (leBytes 8 0 ++ List.replicate 32 1); let x := inbQ.queue 0 0;
      Received 0 3 m inbQ ∧ m.word 0 < 64 ∧ x.en = true ∧ m.phase = 0 ∧ m.notify = false ∧
        inbQ.nodeWord m (x.base + 0x100) = .ok 0 inbQ ∧
        (∃ k s2, inbQ.nodeUpdate m (x.base + 0x80) (fun k => if 0 + x.slots ≤ k then k else k + 1) = .ok k s2) ∧
        (∃ k s1, inbQ.nodeStore 0 { m with phase := 1 } false (x.base + 0x200 + 128 * (m.claimed % x.slots)) (m.body.drop 8) = .ok k s1) ∧
        inbQ.nodeWord { m with phase := 2 } x.base = .ok m.claimed inbQ ∧
        ∃ k s1, inbQ.nodeStore 0 { m with phase := 2 } false x.base (leBytes 8 (m.claimed + 1)) = .ok k s1) ∧
    Received 0 4 (bmsg 4 0 (leBytes 8 0x90 ++ List.replicate 64 0)) (inb 4 0 (leBytes 8 0x90 ++ List.replicate 64 0)) ∧
    Received 0 5 (bmsg 5 0 (leBytes 24 0)) (inb 5 0 (leBytes 24 0)) ∧
    Received 0 6 (bmsg 6 0 (leBytes 8 0 ++ leBytes 8 1)) (inb 6 0 (leBytes 8 0 ++ leBytes 8 1)) ∧
    booted.ctxLive 0 = true ∧ booted.inSubtree 0 0 = true ∧
    Received 0 7 (bmsg 7 0 (leBytes 32 9)) (inb 7 0 (leBytes 32 9)) ∧
    (bmsg 8 0 []).malformed = true ∧ (inb 8 0 []).inbox[0]? = some (bmsg 8 0 []) := by
  and_intros <;> first | exact ok_of_isAt (by decide +kernel) | exact ok_of_isOk (by decide +kernel) | decide +kernel | exact trivial | rfl

/-- A state in which one message is in flight. -/
def flying (s : State) (b : NetBody) : State := { s with net := [{ line := 0, holder := 3, body := b }] }

/-- A state in which line 0 has a directory entry. -/
def dir0 (htok : Nat) : State := { State.reset with dir := [{ line := 0, htok := htok }] }

theorem witness_HomesServeRequests :
    InFlight 0 { line := 0, holder := 3, body := .gets 0 0 0 } (flying State.reset (.gets 0 0 0)) State.reset ∧
    HomeServes { line := 0, holder := 3, body := .gets 0 0 0 } false 0 0 0 State.reset ∧
    (State.reset.dirOf 0).ownh = true ∧ 2 ≤ (State.reset.dirOf 0).htok ∧
    HomeServes { line := 0, holder := 3, body := .gets 0 0 0 } false 0 0 0 (dir0 1) ∧ ((dir0 1).dirOf 0).ownh = true ∧
    ((dir0 1).dirOf 0).htok < 2 ∧ ((dir0 2).dirOf 0).htok = 2 ∧
    HomeServes { line := 0, holder := 3, body := .getm 0 0 0 } true 0 0 0 State.reset ∧
    (let s : State := { State.reset with frz := [{ page := 0, st := .frozen, count := 1 }] };
      s.lineBusy 0 = false ∧ s.homeCheck 0 true 0 0 0 = .refuse cFrozen) ∧
    InFlight 0 { line := 0, holder := 3, body := .put 1 true {} } (flying (dir0 1) (.put 1 true {})) (dir0 1) ∧
    (dir0 1).activePers 0 = none ∧ ((dir0 1).dirOf 0).wip = false ∧
    (let s : State := { State.reset with dir := [{ line := 0, wip := true, hold := 0x805 }] };
      (s.dirOf 0).wip = true ∧ (s.dirOf 0).slot 0 = some 5 ∧ (5 : Nat) < homeHolder ∧ s.activePers 0 = none) := by
  and_intros <;> first | rfl | decide +kernel

/-- A request of cache 3 for line 0. -/
def req0 (write : Bool) : CohReq := { holder := 3, line := 0, write := write }

/-- A state in which cache 3 has asked for line 0 and holds some of its tokens. -/
def asks (write : Bool) (k : Nat) : State :=
  { State.reset with reqs := [req0 write], copies := [{ holder := 3, line := 0, tokens := k }] }

/-- A state in which cache 3 holds tokens of line 0, among them the owner token. -/
def owns (k : Nat) : State := { State.reset with copies := [{ holder := 3, line := 0, tokens := k, owner := true }] }

theorem witness_CachesAnswerMessages :
    InFlight 0 { line := 0, holder := 3, body := .data 1 false {} } (flying (asks false 0) (.data 1 false {})) (asks false 0) ∧
    (asks false 0).activePers 0 = none ∧ (asks false 0).reqOf 3 0 false = some (req0 false) ∧ (asks false 0).reqOf 3 0 true = none ∧ (req0 false).inv = none ∧
    (req0 false).noalloc = false ∧ (req0 false).pers = false ∧ (asks true 511).reqOf 3 0 true = some (req0 true) ∧
    ((asks true 511).copyOf 3 0).tokens + 1 = 512 ∧ ((asks true 510).copyOf 3 0).tokens + 1 < 512 ∧
    InFlight 0 { line := 0, holder := 3, body := .inv 4 } (flying (owns 1) (.inv 4)) (owns 1) ∧ (3 : Nat) ≠ 4 ∧ (4 : Nat) < homeHolder ∧ (owns 1).cacheKeeps 3 0 = false ∧
    0 < ((owns 1).copyOf 3 0).tokens ∧ ((owns 512).copyOf 3 0).owner = true ∧ 512 ≤ ((owns 512).copyOf 3 0).tokens ∧
    (owns 512).cacheKeeps 3 0 = false ∧ (owns 1).net = [] := by
  and_intros <;> first | rfl | decide +kernel

theorem witness_PersistentRequestsComplete :
    (let s : State := { asks false 0 with clock := 2048 };
      s.reqs = [req0 false] ∧ (req0 false).pers = false ∧ (req0 false).issued + 2048 ≤ s.clock) ∧
    (let q := { req0 false with pers := true }; let s : State := { State.reset with reqs := [q] };
      InFlight 0 { line := 0, holder := 3, body := .preq } (flying s .preq) s ∧
      s.reqs.find? (fun x => x.holder == 3 && x.line == 0 && x.pers) = some q ∧
      s.pers.countP (fun p => s.homeSlice (p.line * 128) == s.homeSlice (0 * 128)) < 32 ∧ s.heldRemotely 0 = false ∧
      s.pers = [] ∧ (3 : Nat) < homeHolder ∧
      s.homeCheck (0 * 128) q.write q.gen q.ctx q.quay = .serve ∧ s.dirVictim 0 = none ∧ s.readOnlyLine 0 = false) ∧
    (let q := { req0 true with pers := true };
      let s : State := { State.reset with reqs := [q], frz := [{ page := 0, st := .freezing }] };
      s.persCheck 0 q = .hold ∧
      s.reqs.find? (fun x => x.holder == 3 && x.line == 0 && x.pers) = some q ∧ s.pers = []) ∧
    InFlight 0 { line := 0, holder := 3, body := .pact 5 } (flying (owns 1) (.pact 5)) (owns 1) ∧
    (owns 1).cacheHolds 3 0 = false ∧ (owns 1).dueAt 3 0 false = false ∧
    (let s : State := { asks false 0 with pers := [{ line := 0, holder := 3, active := true }] };
      InFlight 0 { line := 0, holder := 3, body := .pdone } (flying s .pdone) s) ∧
    InFlight 0 { line := 0, holder := 3, body := .pdeact } (flying (asks true 0) .pdeact) (asks true 0) ∧
    (asks true 0).reqs = [req0 true] ∧ (req0 true).pers = false ∧
    (asks true 0).net ++ (asks true 0).homeWait = [] := by
  and_intros <;> first | rfl | decide +kernel

theorem witness_ReplicasAndRemoteAccessesComplete :
    InFlight 0 { line := 0, holder := 3, body := .fdata 0 {} } (flying (asks false 0) (.fdata 0 {})) (asks false 0) ∧
    (asks false 0).reqOf 3 0 false = some (req0 false) ∧ (3 : Nat) < 512 ∧
    InFlight 0 { line := 0, holder := 3, body := .sweep 0 0 } (flying State.reset (.sweep 0 0)) State.reset ∧
    (let s : State := { State.reset with
        sweeps := [{ page := 0, gen := 0, dies := [7], peers := [] }], frz := [{ page := 0, st := .thawing }] };
      InFlight 0 { line := 0, holder := 3, body := .swack 7 } (flying s (.swack 7)) s ∧ (s.frzOf 0).st = .thawing) ∧
    InFlight 0 { line := 0, holder := 3, body := .uncached (.load 8) 0 1 2 0 0 }
      (flying State.reset (.uncached (.load 8) 0 1 2 0 0)) State.reset ∧
    State.reset.lineBusy 0 = false ∧ State.reset.homeCheck 0 true 0 0 0 = .serve ∧
    (∃ s : State, RemoteServes { line := 0, body := .done } 0 1 true 0 s ∧ RemoteServes { line := 0, body := .done } 0 1 false 0 s ∧
      (s.dirOf 0).ownh = true ∧ s.hasDir 0 = false ∧ s.collecting = []) ∧
    (let s : State := { State.reset with remoteHolds := [{ src := 1, tag := 0, line := 8 }] };
      s.remoteHolds = [{ src := 1, tag := 0, line := 8 }] ∧ s.net = [] ∧ s.homeWait = [] ∧ s.pers = []) ∧
    (bitsOf 0x1000 44 8 = State.reset.domain.mod.toNat ∧ bitsOf (3 * 2 ^ 44) 44 8 = 3 ∧ State.reset.domain.mod.toNat ≠ 3 ∧
      State.reset.reachable 3 = false ∧
      ({ State.reset with domain := { en := true, routes := [(3, 1#64 <<< 63)] } } : State).reachable 3 = true) := by
  refine ⟨⟨rfl, rfl⟩, rfl, by decide, ⟨rfl, rfl⟩, ⟨⟨rfl, rfl⟩, rfl⟩, ⟨rfl, rfl⟩, rfl, rfl, ?_, ⟨rfl, rfl, rfl, rfl⟩,
    by decide +kernel⟩
  refine ⟨{ State.reset with domain := { rmask := (List.range 256).map fun k => (k, BitVec.allOnes 256) } }, ?_⟩
  and_intros <;> first | decide +kernel | rfl

/-- A miss of a load of a thread of quay 0 at an address. -/
def miss0 (va : Nat) : Miss := { who := .thread 0 0 0 0, quay := 0, kind := .load, va := va }

/-- Its walk, for context 0 on die 0. -/
def walk0 (va : Nat) (running : Bool) : Walk :=
  { die := 0, ctx := 0, page := va / 65536, misses := [miss0 va], running := running }

/-- `booted` with that walk. -/
def walking (va : Nat) (running : Bool) : State := { booted with walks := [walk0 va running] }

/-- `booted` without it. -/
def walked (va : Nat) : State := { walking va true with walks := (walking va true).walks.erase (walk0 va true) }

/-- The page it finds, for the translation cache. -/
def found (r : WalkRes) : Bool := match r with | .ok _ => true | _ => false

/-- Whether it needs no table of another module. -/
def near (r : WalkRes) : Bool := match r with | .far _ _ _ => false | _ => true

theorem notFar_of {r : WalkRes} (h : near r = true) : ∀ k a g, r ≠ .far k a g := by
  rintro k a g rfl
  cases h

theorem ok_of_found {r : WalkRes} (h : found r = true) : ∃ x, r = .ok x := by
  cases r with
  | ok x => exact ⟨x, rfl⟩
  | fail f => cases h
  | held => cases h
  | far m a g => cases h

/-- A page request not yet queued. -/
def pgreq0 : PgReq :=
  { id := 5, quay := 0, ctx := 0, owner := 0, stage2 := false, page := 0, addr := 0, kind := .load, cause := 0, level := 0, who := [] }

/-- `booted` with that request, where context 0 has a page-request queue of 16 entries at 0x10000 or none. -/
def requested (pg : Word) (r : PgReq) : State := { booted with pgreqs := [r], ctxs := [{ num := 0, pgreq := pg }] }

/-- Whether a hardware write was done. -/
def isDone : HwDone → Bool
  | .done _ => true
  | _ => false

theorem done_of_isDone {h : HwDone} (e : isDone h = true) : ∃ s, h = .done s := by
  cases h with
  | done s => exact ⟨s, rfl⟩
  | wait s => cases e
  | fault => cases e

/-- Whether a walk finds the page and its waiter goes on. -/
def goes (r : WalkRes) (f : Xlate → HwDone) : Bool := match r with | .ok x => isDone (f x) | _ => false

theorem goes_of {r : WalkRes} {f : Xlate → HwDone} (h : goes r f = true) : ∃ x, r = .ok x ∧ ∃ s, f x = .done s := by
  cases r with
  | ok x => exact ⟨x, rfl, done_of_isDone h⟩
  | fail f => cases h
  | held => cases h
  | far m a g => cases h

/-- The state in which a line that was read is. -/
def afterLine : LineSays → State
  | .ok _ _ s | .wait s | .stale _ s | .refused _ s => s

/-- Whether eight bytes of 0 were read. -/
def readsZero : LineSays → Bool
  | .ok bs md _ => decide (bs = leBytes 8 0) && decide (md = {})
  | _ => false

theorem reads_of_readsZero {r : LineSays} (h : readsZero r = true) : r = .ok (leBytes 8 0) {} (afterLine r) := by
  cases r with
  | ok bs md t =>
    simp only [readsZero, Bool.and_eq_true, decide_eq_true_eq] at h
    rw [h.1, h.2]; rfl
  | wait s => cases h
  | stale g s => cases h
  | refused k s => cases h

theorem witness_TranslationStepsComplete :
    ((walking 0 false).walks.countP fun w => w.die == 0 && w.running) < 4 ∧
    (walking 0 false).walks.find? (fun w => w.die == 0 && !w.running) = some (walk0 0 false) ∧
    (walking 0 true).runningWalk 0 0 = some (walk0 0 true) ∧ ((walking 0 true).walkOwned 0 0).1 = true ∧
    (∀ k a g, (walking 0 true).walk 0 0 false false ≠ .far k a g) ∧
    (∃ x, (walked 0).walkEnd 0 (miss0 0) = .ok x ∧ ∃ s1, ((walked 0).fillTlb 0 0 0 x).goOn 0 (miss0 0) x = .done s1) ∧
    (walking (2 ^ 40) true).runningWalk 0 0 = some (walk0 (2 ^ 40) true) ∧ ((walking (2 ^ 40) true).walkOwned 0 (2 ^ 40)).1 = true ∧
    (∀ k a g, (walking (2 ^ 40) true).walk 0 (2 ^ 40) false false ≠ .far k a g) ∧
    (∃ f, (walked (2 ^ 40)).walkEnd 0 (miss0 (2 ^ 40)) = .fail f ∧
      ((walked (2 ^ 40)).openRequest 0 (miss0 (2 ^ 40)) f).isSome = true) ∧
    (let s := requested 0x10001 pgreq0; FirstAppend 0 pgreq0 (some 0) s ∧ pgreq0.step = 0 ∧
      let s1 := afterLine (s.hwLook (.append 5) 0 0x10000 8)
      let s2 := afterLine (s1.hwLook (.append 5) 0 (0x10000 + 0x80) 8)
      s.hwLook (.append 5) 0 0x10000 8 = .ok (leBytes 8 0) {} s1 ∧
      s1.hwLook (.append 5) 0 (0x10000 + 0x80) 8 = .ok (leBytes 8 0) {} s2 ∧
      ∃ s3, s2.hwWrite (.append 5) 0 (0x10000 + 0x100) (leBytes 32 0) = .done s3) ∧
    (let r := { pgreq0 with queue := some 0, pgreg := 0x10001, step := 1 }; let s := requested 0x10001 r;
      s.openAppends[0]? = some r ∧
      ∃ s1, s.hwUpdate (.append 5) 0 0x10000 8 (fun bs => leBytes 8 (leNat bs + 1)) = .done s1) ∧
    (let r := { pgreq0 with queue := some 0, pgreg := 0x10001, step := 2 }; let s := requested 0x10001 r;
      s.openAppends[0]? = some r ∧ r.acked = false ∧ ∃ s1, s.hwRaise (.append 5) 0 (0x10000 + 0xF0) 0 = .done s1) ∧
    (let s := requested 0 pgreq0; FirstAppend 0 pgreq0 none s ∧ s.pgreqs.countP (·.toNode) < 256) ∧
    (let s : State := { State.reset with tlb := [page0], clock := 65536 };
      (s.tlb.filter fun e => e.quay == 0)[0]? = some page0 ∧ page0.filled + 65536 ≤ s.clock) ∧
    (let s : State := { State.reset with genWait := [9], clock := 2 ^ 30 }; s.genWait[0]? = some 9 ∧ s.bumpReady 9 = true) := by
  refine ⟨?_, ?_, ?_, ?_, notFar_of ?_, goes_of ?_, ?_, ?_, notFar_of ?_, ⟨_, rfl, ?_⟩, ⟨?_, ?_, reads_of_readsZero ?_, reads_of_readsZero ?_, done_of_isDone ?_⟩,
    ⟨?_, done_of_isDone ?_⟩, ⟨?_, ?_, done_of_isDone ?_⟩, ?_⟩
  all_goals and_intros
  all_goals first | decide +kernel | rfl

/-! ### Hypotheses that are met: planes, threads, commit -/

/-- The bytes of a block of one word, an `exit` with status 3 (R171, R172, R328). -/
def exitBytes : List Byte :=
  leBytes 12 (0xF1 * 2 ^ 88) ++ leBytes 12 0 ++ leBytes 12 0x020000000000000000300003

/-- R184: the block passes the checks of the placer; one with no branch does not. -/
theorem test_checkBlock : checkBlock exitBytes = none ∧
    checkBlock (leBytes 12 (0xF1 * 2 ^ 88) ++ leBytes 12 0 ++ leBytes 12 0x700000000000000000000000) = some 0 := by
  decide +kernel

/-- A thread that waits at the block at address 0 whose entry is pinned. -/
def waits : State :=
  { State.reset with
    threads := [{ st := .waiting }], entries := [{ pinned := true, bytes := exitBytes, vec := [0] }] }

/-- The same with the block's plane open, configured or not, holding a block of given bytes. -/
def opened (configured : Bool) (bytes : List Byte) : State :=
  { waits with
    entries := [{ pinned := true, bytes := bytes, vec := [0] }]
    planes := [{ st := .admitting, configured := configured, block := if configured then parseBlock bytes else {} }] }

/-- Whether an entry's block is fetched in one turn and fits the block cache. -/
def fetches (s : State) (q k : Nat) : Bool :=
  let e := s.entry q k
  match s.fetchBytes e e.ba.toNat 12 2 with
  | .stop _ | .refused _ _ => false
  | .ok h s1 =>
    let len := 12 * blockWords (wordOfBytes h)
    decide (s1.pinnedBytes q + len ≤ 65536) &&
      match s1.fetchBytes e (e.ba.toNat + 12) (len - 12) 40 with
      | .ok _ _ => true
      | .stop _ | .refused _ _ => false

/-- The hypotheses of a block that is pinned, but for the entry's own. -/
def BlockFetched (s : State) (q k : Nat) : Prop :=
  ∃ h s1, s.fetchBytes (s.entry q k) (s.entry q k).ba.toNat 12 2 = .ok h s1 ∧
    s1.pinnedBytes q + 12 * blockWords (wordOfBytes h) ≤ 65536 ∧
    ∃ b s2, s1.fetchBytes (s.entry q k) ((s.entry q k).ba.toNat + 12) (12 * blockWords (wordOfBytes h) - 12) 40 = .ok b s2

theorem blockFetched_of_fetches (s : State) (q k : Nat) (h : fetches s q k = true) : BlockFetched s q k := by
  unfold fetches at h
  simp only at h
  split at h
  · cases h
  · cases h
  · rename_i b s1 e1
    simp only [Bool.and_eq_true, decide_eq_true_eq] at h
    obtain ⟨h1, h2⟩ := h
    split at h2
    · rename_i c s2 e2
      exact ⟨_, _, e1, h1, _, _, e2⟩
    · cases h2
    · cases h2

theorem witness_PlanesOpenStopAndDrain :
    (waits.plane 0 0).st = .free ∧ waits.fabricHalted 0 = false ∧
    waits.chooseEntry 0 = some ({ pinned := true, bytes := exitBytes, vec := [0] }, false) ∧
    waits.entryValid 0 0 = true ∧ (waits.entry 0 0).pinned = true ∧ waits.waiting (waits.entry 0 0) ≠ [] ∧
    waits.heldEntry (waits.entry 0 0) = false ∧ waits.openEntry 0 0 = false ∧ waits.freePlane 0 = some 0 ∧
    (let s : State := { waits with entries := [{ vec := [0] }], tlb := [page0] };
      s.entryValid 0 0 = true ∧ (s.entry 0 0).pinned = false ∧ (s.entry 0 0).ba.extractLsb' 56 8 = 0 ∧
      s.fetchWaits (.fetch 0 0) = false ∧ s.fetchXlate 0 0 0 = some (page0.xlate 0) ∧ (s.dirOf ((page0.xlate 0).pa / 128)).ownh = true ∧ Local (page0.xlate 0).pa s ∧
      s.homeCheck (page0.xlate 0).pa false (page0.xlate 0).gen 0 0 = .serve ∧ s.heldLine (.glob 0) = false ∧
      (s.gmeta ((page0.xlate 0).pa / 128)).poison = false ∧
      BlockFetched s 0 0) ∧
    Placeable 0 0 (opened false exitBytes) ∧ Placeable 0 0 (opened false []) ∧
    checkBlock ((opened false exitBytes).entry 0 0).bytes = none ∧ ((opened false exitBytes).entry 0 0).vec = [0] ∧
    (checkBlock ((opened false []).entry 0 0).bytes).isSome = true ∧
    (let s : State := { waits with threads := [{ st := .waiting, stamp := 0xE000 }] }; s.isAged (s.entry 0 0) = true) ∧
    (let s : State := { opened true exitBytes with
        clock := 1024, entries := [{ vec := [0], pinned := true }, { e := 1, vec := [1] }] };
      (s.plane 0 0).st = .admitting ∧ (s.plane 0 0).opened + 1024 ≤ s.clock ∧ (s.plane 0 0).entry = 0 ∧
      s.entries.getLast? = some { e := 1, vec := [1] } ∧ s.waiting { e := 1, vec := [1] } ≠ []) ∧
    (let s : State := { State.reset with clock := 1024, planes := [{ st := .draining }] };
      (s.plane 0 0).st = .draining ∧ (s.plane 0 0).drainSince + 1024 ≤ s.clock) ∧
    State.reset.passes = [] ∧ State.reset.spq 0 < 4 ∧
    (let p : Pass := { live := true }; let s : State := { State.reset with pass := p }; s.passes = [p] ∧ p.quay = 0) := by
  and_intros <;> first | decide +kernel | exact blockFetched_of_fetches _ _ _ (by decide +kernel) | exact trivial

/-- The thread of slot 0 for the clauses of admission. -/
def admits (b : Block) (t : Thread) : State :=
  { opened true exitBytes with
    threads := [t], planes := [{ st := .admitting, configured := true, block := b }] }

theorem witness_ThreadsEnterBlocks :
    Admits 0 0 0 (opened true exitBytes) ∧ overBudget ((opened true exitBytes).plane 0 0).block { st := .waiting } = none ∧
    poisonedRead ((opened true exitBytes).plane 0 0).block { st := .waiting } = none ∧
    ((opened true exitBytes).plane 0 0).tags = [] ∧
    (List.range 256).find? (fun n => !((opened true exitBytes).plane 0 0).tags.any (·.1 == n)) = some 0 ∧
    (((opened true exitBytes).plane 0 0).block.h1.extractLsb' 88 8).toNat = 0 ∧
    (opened true exitBytes).pass.live = false ∧
    Admits 0 0 0 (admits { reads := [63#7 ++ 0#25] } { st := .waiting, budget := 48 }) ∧
    overBudget { reads := [63#7 ++ 0#25] } { st := .waiting, budget := 48 } = some 63 ∧
    Admits 0 0 0 (admits { reads := [63#7 ++ 0#25] } { st := .waiting, regPoison := 1#112 <<< 63 }) ∧
    overBudget { reads := [63#7 ++ 0#25] } { st := .waiting, regPoison := 1#112 <<< 63 } = none ∧
    poisonedRead { reads := [63#7 ++ 0#25] } { st := .waiting, regPoison := 1#112 <<< 63 } = some 63 := by
  and_intros <;> decide +kernel

/-- A branch that fired. -/
def fired0 : Fired := { idx := 0, target := 64, kind := .plain }

/-- A pass whose one instruction has resolved. -/
def ended (p : Pass) : State :=
  withPass State.reset { p with live := true, block := parseBlock exitBytes, done := [0] }

/-- Whether the writes of a commit can be performed. -/
def isYes (x : CanPerform) : Bool := match x with | .yes => true | _ => false

theorem yes_of_isYes {x : CanPerform} (h : isYes x = true) : x = .yes := by
  cases x with
  | yes => rfl
  | wait s => cases h
  | refused r c a => cases h

/-- A pass at its `exit` with stores, whose thread has traps to take. -/
def leaves (stores : List PendWrite) (late : List TrapNote) : State :=
  { ended { fired := [{ fired0 with kind := .exit 3 }], resolved := true, stores := stores } with
    threads := [{ st := .active, late := late }] }

theorem commits_of (f : Fired) (s : State)
    (h : (s.pass.live && s.pass.resolved && decide (s.pass.fired = [f]) && decide (s.pass.leaving ≠ 2) && !(mine s).writesOut &&
      (mine s).late.isEmpty && s.gredReady s.pass (mine s).group && s.entriesReady s.pass && (s.holdRemote s.pass).isNone &&
      isYes (s.canPerform s.pass f.exits s (s.atOnce s.pass f.exits))) = true) : Commits f s := by
  simp only [Bool.and_eq_true, Bool.not_eq_true', decide_eq_true_eq, Option.isNone_iff_eq_none, List.isEmpty_iff] at h
  obtain ⟨⟨⟨⟨⟨⟨⟨⟨⟨h1, h2⟩, h3⟩, h4⟩, h5⟩, h6⟩, h7⟩, h8⟩, h9⟩, h10⟩ := h
  exact ⟨h1, h2, h3, h4, fun _ => h5, fun _ => h6, h7, h8, h9, yes_of_isYes h10⟩

theorem witness_PassesResolveAndCommit :
    Ends (ended { fired := [fired0] }) ∧ (ended { fired := [fired0] }).pass.recorded = none ∧
    (let s := ended { trap := some { cause := 6 } }; Ends s ∧ s.pass.recorded = some { cause := 6 }) ∧
    (let s := ended { fired := [fired0, fired0] }; Ends s ∧ s.pass.recorded = none) ∧
    (Ends (ended {}) ∧ (ended {}).pass.recorded = none) ∧
    (let s : State := { ended { poison := true } with threads := [{ st := .active, poisonRuns := 3 }] };
      s.pass.allDone = true ∧ s.pass.poison = true ∧ (mine s).poisonBlk = s.pass.blk ∧ 3 ≤ (mine s).poisonRuns) ∧
    Commits fired0 (ended { fired := [fired0], resolved := true }) ∧
    Commits { fired0 with kind := .exit 3 } (ended { fired := [{ fired0 with kind := .exit 3 }], resolved := true }) ∧
    (let s : State := { ended { fired := [fired0], resolved := true, shadows := [{}] } with
        threads := [{ st := .active, released := [{ kind := .store }] }] };
      s.pass.shadows ≠ [] ∧ (mine s).writesOut = true) ∧
    (let s := leaves [] []; Commits { fired0 with kind := .exit 3 } s ∧
      ((s.sendWrites s.pass).thread 0 0).writesOut = false ∧ ((s.sendWrites s.pass).thread 0 0).late = []) ∧
    (let s := leaves [{ kind := .store, loc := .glob (3 * 2 ^ 44), bytes := leBytes 8 7 }] [];
      Commits { fired0 with kind := .exit 3 } s ∧ ((s.sendWrites s.pass).thread 0 0).writesOut = true) ∧
    (let s := leaves [] [{ cause := 0x15 }]; s.pass.fired = [{ fired0 with kind := .exit 3 }] ∧
      (mine s).writesOut = false ∧ (mine s).late = [{ cause := 0x15 }]) ∧
    (ended { fired := [fired0], resolved := true, leaving := 2 }).pass.leaving = 2 := by
  refine ⟨?_, ?_, ?_, ?_, ?_, ?_, commits_of _ _ (by decide +kernel), commits_of _ _ (by decide +kernel), ?_,
    ⟨commits_of _ _ (by decide +kernel), ?_⟩, ⟨commits_of _ _ (by decide +kernel), ?_⟩, ?_, ?_⟩ <;> and_intros <;> decide +kernel

theorem witness_CommitWritesRegistersAndBranches :
    ({} : Thread).x.length = 64 ∧
    (let p : Pass := { block := { writes := [5#7 ++ 0#25, 111#7 ++ 0#25] }, slots := [{ k := 1, val := some { data := 9 } }] };
      p.block.writes[1]? = some (111#7 ++ 0#25) ∧ ((111#7 ++ 0#25 : BitVec 32).extractLsb' 25 7).toNat = 111 ∧
      (p.slotCell 1).val = some { data := 9 } ∧ (p.slotCell 0).val = none) ∧
    ({ bars := List.replicate 16 2 } : Thread).bars.getD 15 0 = 2 ∧ ({} : Thread).bars.getD 0 0 ≠ 2 := by decide +kernel

/-- A write of 8 bytes to a vault, released. -/
def write8 : PendWrite := { kind := .store, loc := .vault 0 64, bytes := leBytes 8 7 }

/-- A state whose only thread has that write outstanding. -/
def releases : State := { State.reset with threads := [{ st := .active, group := 1, released := [write8] }] }

/-- A state whose only thread waits for a completion object in a vault. -/
def awaits (old : Bool) : State :=
  { State.reset with threads := [{ st := .blocked, on := .object 0 (.vault 0 64) old 0 0 }] }

/-- A write that answers a refusal after which thread 0 of quay 0 is resident names that refusal and the state. -/
theorem refusedTo {r : Perf}
    (h : (match r with
      | .refused _ _ s' => decide ((s'.thread 0 0).st ≠ .idle ∧ (s'.thread 0 0).st ≠ .free)
      | _ => false) = true) :
    ∃ s' c a, r = .refused c a s' ∧ (s'.thread 0 0).st ≠ .idle ∧ (s'.thread 0 0).st ≠ .free := by
  cases r <;> simp_all

theorem witness_ReleasedWritesComplete :
    (releases.thread 0 0).released = [write8] ∧ (∃ s', releases.perform (.write 0 0) 0 0 write8 = .done s') ∧
    (∃ s' c a, ({ releases with threads := [{ st := .waiting, released := [write8] }], regions := [{ mapped := true, npg := 1 }] } : State).perform (.write 0 0) 0 0 write8 = .refused c a s' ∧
      (s'.thread 0 0).st ≠ .idle ∧ (s'.thread 0 0).st ≠ .free) ∧
    write8.waiting = false ∧
    releases.holdsQuay write8.ctx 0 = true ∧ releases.scoredFor 0 0 write8.id 0 64 (max write8.size write8.span) = false ∧
    releases.bankWrite 0 64 (max write8.size write8.span) true false (releases.heldAgainst 0 0 (.vault 0 64))
      (releases.sealAfter 0 0 write8.id) = .go ∧
    (let s : State := { releases with groups := [{ id := 1, bars := [{ b := 4 }] }] };
      ((s.group (s.thread 0 0).group).bars.any fun x => x.b == 4) = true) ∧
    (({ awaits true with waits := [{ quay := 0, loc := .vault 0 64, woken := [0] }] } : State).waits.any fun w =>
      w.quay == 0 && w.woken.contains 0) = true ∧
    (((awaits true).thread 0 0).st = .blocked ∧ ((awaits true).thread 0 0).on = .object 0 (.vault 0 64) true 0 0 ∧
      ObjectRead ((awaits true).thread 0 0) 0 64 0 (awaits true) ∧ (0#128).getLsbD 0 ≠ true) ∧
    (ObjectRead ((awaits false).thread 0 0) 0 64 0 (awaits false) ∧ (0#128).getLsbD 0 = false ∧
      ((awaits false).thread 0 0).on = .object 0 (.vault 0 64) false 0 0) ∧
    (let p : Pass := { live := true, shadows := [{ loc := .glob 0 }] };
      let s : State := { withPass State.reset p with clock := 2048, net := [{ line := 0, holder := 0, body := .inv 1 }] };
      s.passes[0]? = some p ∧ p.holdAges = [(.glob 0, 0)] ∧ 0 + 2048 ≤ s.clock ∧ s.locWanted p.quay p.slot (.glob 0) = true) := by
  refine ⟨rfl, ⟨_, rfl⟩, refusedTo (by decide +kernel), ?_⟩
  and_intros <;> decide +kernel

/-! ### Hypotheses that are met: engines and matrix units -/

/-- An engine operation of quay 0. -/
def eop (k : OpKind) (d : BitVec 256) : EngOp := { id := 1, kind := k, desc := d }

/-- A state with that operation, a translation of the first page, and every token of line 0 at the copy cache. -/
def engine (o : EngOp) : State :=
  { State.reset with ops := [o], tlb := [page0], copies := [{ holder := copyHolder 0, line := 0, tokens := 512, owner := true }] }

theorem witness_CopiesAndGathersMoveTheirBytes :
    Canonical (engine (eop .cpV2v (desc 0 256 128 0 0))) ∧
    OpActs 1 .cpV2v (eop .cpV2v (desc 0 256 128 0 0)) (engine (eop .cpV2v (desc 0 256 128 0 0))) ∧
    (engine (eop .cpV2v (desc 0 256 128 0 0))).vaultOperand (dSrc (desc 0 256 128 0 0)) 0 0 128 = .ok 0 0 ∧
    (engine (eop .cpV2v (desc 0 256 128 0 0))).vaultOperand (dDst (desc 0 256 128 0 0)) 0 0 128 = .ok 0 256 ∧
    0 < dLen (desc 0 256 128 0 0) ∧ 0 % 128 + dLen (desc 0 256 128 0 0) ≤ 128 ∧
    256 % 128 + dLen (desc 0 256 128 0 0) ≤ 128 ∧ VaultOpen 0 256 128 (engine (eop .cpV2v (desc 0 256 128 0 0))) ∧
    (let d := desc 0 256 128 0x10001 0; let s := engine (eop .gath d);
      Canonical s ∧ OpActs 1 .gath (eop .gath d) s ∧ dLen d = 128 ∧ s.vaultOperand (dSrc d) 0 0 0 = .ok 0 0 ∧
      basinOf 0 = basinOf (eop .gath d).quay ∧ ((dXtra d).extractLsb' 0 24).toNat + 2 * 0 + 2 ≤ vaultEnd ∧
      leNat (s.vread 0 0 2) = 0 ∧ 0 < dAux d / 65536 ∧ ((dDst d).toNat + 0 * 128) % 128 = 0 ∧
      (dDst d).toNat + 0 * 128 + 128 ≤ vaultEnd ∧ VaultOpen 0 256 128 s ∧
      (s.regions.all fun r => r.quay != 0) = true) := by
  and_intros <;> decide +kernel

/-- Two ranks of a collective whose group list is at 0x10000. -/
def rank (q : Nat) : EngOp := { id := q + 1, quay := q, kind := .allgath, desc := desc 0 128 4 0 0x10000 }

/-- The state in which both stand ready. -/
def ranks : State :=
  { State.reset with
    mem := Mem.writeN mem0 0x10000 (leBytes 8 2 ++ leBytes 2 0 ++ leBytes 2 1), ops := [rank 0, rank 1]
    tlb := [{ page0 with va := 0x10000, pa := 0x10000 }], copies := [{ holder := copyHolder 0, line := 512, tokens := 1 }] }

/-- A `seq.gemm` with K = 64, K_C = 64. -/
def seqOp (next phase : Nat) : EngOp :=
  { eop .seqGemm 0 with ext := BitVec.ofNat 512 (64 + 64 * 2 ^ 400), next := next, phase := phase }

/-- Whether an operation's group list is read, names it once, and names ranks of this module only. -/
def listRead (s : State) (o : EngOp) : Bool :=
  match s.groupList o with
  | .ok g s1 =>
    let s2 := (s1.dropRemotes o).returnLines o
    decide (g.2.1 ≠ [] ∧ g.2.1.eraseDups = g.2.1 ∧ g.2.1.contains (s2.rankEntry o.quay) = true ∧
      ∀ e ∈ g.2.1, entryMod e = s2.domain.mod.toNat)
  | _ => false

/-- The hypotheses of a collective that is announced, but for its operation's own. -/
def ListRead (s : State) (o : EngOp) : Prop :=
  ∃ g s1, s.groupList o = .ok g s1 ∧ (let s2 := (s1.dropRemotes o).returnLines o;
    g.2.1 ≠ [] ∧ g.2.1.eraseDups = g.2.1 ∧ g.2.1.contains (s2.rankEntry o.quay) = true ∧
      ∀ e ∈ g.2.1, entryMod e = s2.domain.mod.toNat)

theorem listRead_of (s : State) (o : EngOp) (h : listRead s o = true) : ListRead s o := by
  unfold listRead at h
  split at h
  · rename_i g s1 e
    exact ⟨g, s1, e, of_decide_eq_true h⟩
  · cases h

/-- Whether it is read and has no rank. -/
def listEmpty (s : State) (o : EngOp) : Bool := match s.groupList o with | .ok g _ => decide (g.2.1 = []) | _ => false

theorem listEmpty_of (s : State) (o : EngOp) (h : listEmpty s o = true) : ∃ g s1, s.groupList o = .ok g s1 ∧ g.2.1 = [] := by
  unfold listEmpty at h
  split at h
  · rename_i g s1 e
    exact ⟨g, s1, e, of_decide_eq_true h⟩
  · cases h

/-- The two ranks once their lists have been read. -/
def known (q : Nat) : EngOp := { rank q with idxs := [0, 1], phase := 1 }

theorem witness_CollectivesAndSequencesStep :
    ListRead ranks (rank 0) ∧ ranks.op? 1 = some (rank 0) ∧ ranks.opRuns (rank 0) = true ∧ (rank 0).kind.isColl = true ∧
    (∃ g s1, ({ ranks with mem := mem0 } : State).groupList (rank 0) = .ok g s1 ∧ g.2.1 = []) ∧
    (let s : State := { ranks with ops := [known 0, known 1] };
      s.op? 1 = some (known 0) ∧ s.opRuns (known 0) = true ∧ s.opRuns (known 1) = true ∧ s.doomOf (s.rankEntry 0) [0, 1] = none ∧
      s.collRanks [0, 1] = some ([(known 0, 0), (known 1, 1)], []) ∧
      (let d := fun (x : EngOp × Nat) => collDesc x.1 (s.rankEntry x.1.quay) [0, 1];
        (s.collCheck 2 [d (known 0, 0), d (known 1, 1)] [(known 0, d (known 0, 0)), (known 1, d (known 1, 1))]).isNone = true)) ∧
    OpActs 1 .seqGemm (seqOp 64 0) (engine (seqOp 64 0)) ∧
    (engine (seqOp 64 0)).seqOk (seqOp 64 0) (dAux (seqOp 64 0).desc % 4) = true ∧
    mmaK (seqMd (seqOp 64 0).ext) ≤ 64 ∧ (engine (seqOp 64 0)).stepsOf 1 true = 0 ∧
    OpActs 1 .seqGemm (seqOp 0 0) (engine (seqOp 0 0)) ∧ (engine (seqOp 0 0)).seqOk (seqOp 0 0) 0 = true ∧
    0 < mmaK (seqMd (seqOp 0 0).ext) ∧ (engine (seqOp 0 0)).stepsOf 1 true ≤ 1 ∧
    OpActs 1 .seqGemm (seqOp 0 64) (engine (seqOp 0 64)) ∧
    (engine (seqOp 0 64)).seqOk (seqOp 0 64) 0 = true ∧
    (let s := engine (seqOp 0 64); let o := seqOp 0 64;
      let sb := (s.seqSizes o (dAux o.desc % 4)).2.1; let kc := seqKc o.ext;
      (s.seqIssue o (seqCopy o (seqBg o.ext + 63 * seqStride o.ext + 0 * sb) (seqScr o.ext 0 + 63 * kc * sb + 0 * sb)
        (kc * sb))).isSome = true) := by
  refine ⟨listRead_of _ _ ?_, ?_, ?_, ?_, listEmpty_of _ _ ?_, ?_⟩ <;> and_intros <;> decide +kernel

/-- An operation whose work is over, at its raise with status 4. -/
def raises (co : Word) : EngOp := { eop .cpV2v 0 with finished := true, phase := 104, co := co }

theorem witness_OperationsRaiseAndRetire :
    (let s : State := { State.reset with scores := [{ op := 9 }] };
      s.scores = [{ op := 9 }] ∧ (s.op? 9).isNone = true) ∧
    (engine { raises 0 with phase := 0 }).op? 1 = some { raises 0 with phase := 0 } ∧
    (engine { raises 0 with phase := 0 }).engHalted 0 = false ∧ (engine { raises 0 with phase := 0 }).storesPending (raises 0) = false ∧
    OpRaises 1 4 (raises 0) (engine (raises 0)) ∧
    (let co : Word := 1#64 <<< 63 ||| 64;
      OpRaises 1 4 (raises co) (engine (raises co)) ∧ co.getLsbD 63 = true ∧
      (engine (raises co)).vaultOperand ((co.extractLsb' 0 36).zeroExtend 64) 0 0 16 = .ok 0 64 ∧
      VaultOpen 0 64 16 (engine (raises co))) := by
  and_intros <;> decide +kernel

/-- Objects with EXPECT 0, with one arrival still to come, and with two. -/
theorem witness_ObjectsAreRaised : (255 : Nat) < 256 ∧ ((0 : BitVec 128).extractLsb' 96 32).toNat = 0 ∧
    ((2#32 ++ 1#32 ++ 0#64).extractLsb' 64 32).toNat + 1 = ((2#32 ++ 1#32 ++ 0#64).extractLsb' 96 32).toNat ∧
    ((2#32 ++ 0#96).extractLsb' 64 32).toNat < ((2#32 ++ 0#96).extractLsb' 96 32).toNat := by decide +kernel

/-- `engine` with a region at the start of the vault of quay 0. -/
def regioned (o : EngOp) (r : Region) (l : List VLine) : State := { engine o with regions := [r], vlines := l }

/-- Whether a line was read. -/
def lineOk : LineSays → Bool
  | .ok _ _ _ => true
  | _ => false

theorem ok_of_lineOk {r : LineSays} (h : lineOk r = true) : ∃ bs md s, r = .ok bs md s := by
  cases r with
  | ok bs md s => exact ⟨bs, md, s, rfl⟩
  | wait s => cases h
  | stale g s => cases h
  | refused k s => cases h

theorem witness_RegionsFillAndFree :
    (let r : Region := { mapped := true }; let f : Fill := { quay := 0, line := 0 };
      let s : State := { regioned (eop .vflush 0) r [] with fills := [f] };
      s.fills.find? (fun f => f.quay == 0 && f.line == 0) = some f ∧
      s.regionAt 0 0 = some r ∧ r.mapped = true ∧ r.st ≠ .unmapping ∧ (s.vmeta 0).v = false ∧
      s.tlbHit 0 r.ctx (r.vaOf (lineOff 0)) false = some page0 ∧
      ∃ bs md s1, ((s.touch page0).payBy r.ctx).readLine (.fill 0 0) (copyHolder 0) 0 r.ctx (page0.xlate (r.vaOf (lineOff 0))) 128 =
        .ok bs md s1) ∧
    (let r : Region := { mapped := true, st := .flushing }; let o := { eop .vflush 0 with phase := 1 };
      let s := regioned o r [];
      OpActs 1 .vflush o s ∧ s.regionOf o true = some r ∧ o.claimed = none ∧ o.lineAt = none ∧ o.ended = false ∧ s.dirtyLine r o.next = none) ∧
    (let r : Region := { mapped := true, st := .unmapping }; let o := { eop .vunmap 0 with phase := 1 };
      let s := regioned o r [];
      OpActs 1 .vunmap o s ∧ s.regionOf o true = some r ∧ s.dirtyLine r o.next = none) ∧
    (let r : Region := { mapped := true, st := .flushing, w := true }; let o := { eop .vflush 0 with phase := 1 };
      let l : VLine := { v := true, d := true };
      let s := regioned o r [l];
      OpActs 1 .vflush o s ∧ s.regionOf o true = some r ∧ s.dirtyLine r o.next = some l ∧ o.status = 0 ∧
      s.opLine o 0 0 (r.vaOf (lineOff l.key)) = .ok (page0.xlate 0) (s.touch page0) ∧ Local (page0.xlate 0).pa s) ∧
    (let o := eop .seal (desc 0 0 4096 0 0); let s := engine o;
      s.op? 1 = some o ∧ s.opAwake o = true ∧ o.phase = 0 ∧
      (s.addRegion { quay := o.quay, st := .sealing, ctx := o.ctx } (dDst o.desc).toNat (dLen o.desc)).isSome = true) ∧
    (let r : Region := { st := .sealing }; let o := { eop .seal (desc 0 0 4096 0 0) with phase := 1 };
      let s := regioned o r [];
      OpActs 1 .seal o s ∧ s.regionOf o false = some r ∧ s.scored 0 (dDst o.desc).toNat (dLen o.desc) = false) ∧
    (let r : Region := { st := .unsealing }; let o := { eop .unseal 0 with phase := 1 };
      let s := regioned o r [];
      OpActs 1 .unseal o s ∧ s.regionOf o false = some r ∧ r.refs = 0) := by
  and_intros <;> first | decide +kernel | exact trivial | exact ok_of_lineOk (by decide +kernel) | exact ok_of_isAt (by decide +kernel)

/-- `engine` with a freeze entry of page 0. -/
def freezes (o : EngOp) (f : FrzEntry) : State := { engine o with frz := [f] }

/-- An operation's next page is page 0, and it has its turn there. -/
def PageTurn (s : State) (o : EngOp) : Prop :=
  ∃ s1, s.frzPage o = .ok 0 s1 ∧ Local (0 * 65536) s1 ∧ (s1.pageTurn 1 0).1 = true ∧ s1.frzOf 0 = s.frzOf 0 ∧ o.claimed = none

/-- The same, to be evaluated. -/
def pageTurned (s : State) (o : EngOp) : Bool :=
  match s.frzPage o with
  | .ok p s1 => decide (p = 0 ∧ (s1.pageTurn 1 0).1 = true ∧ s1.frzOf 0 = s.frzOf 0 ∧ o.claimed = none) &&
      match s1.paKind (0 * 65536) with | .control _ _ | .remote _ => false | _ => true
  | _ => false

theorem pageTurn_of (s : State) (o : EngOp) (h : pageTurned s o = true) : PageTurn s o := by
  unfold pageTurned at h
  split at h
  · rename_i p s1 e
    rw [Bool.and_eq_true, decide_eq_true_eq] at h
    obtain ⟨⟨rfl, h2⟩, h3⟩ := h
    refine ⟨s1, e, ?_, h2⟩
    unfold Local
    split at h3 <;> simp_all
  · cases h

theorem witness_PagesFreezeAndThaw :
    (let o := eop .frz (desc 0 0 65536 0 0); let s := freezes o { page := 0 };
      OpActs 1 .frz o s ∧ PageTurn s o ∧ o.status = 0 ∧ o.phase = 0 ∧ (s.frzOf 0).st = .normal) ∧
    (let o := eop .frz (desc 0 0 65536 0 0); let s := freezes o { page := 0, st := .frozen, count := 254 };
      OpActs 1 .frz o s ∧ PageTurn s o ∧ (s.frzOf 0).count ≠ 255) ∧
    (let s := freezes (eop .frz 0) { page := 0, st := .freezing };
      (s.frzOf 0).st = .freezing ∧ s.regionMoving (0 * 65536) = false ∧ s.dir = [] ∧ s.remoteHolds = []) ∧
    (let o := eop .thaw (desc 0 0 65536 0 0); let s := freezes o { page := 0, st := .frozen, count := 1 };
      OpActs 1 .thaw o s ∧ PageTurn s o ∧ (s.frzOf 0).count = 1) ∧
    (let o := eop .thaw (desc 0 0 65536 0 0); let s := freezes o { page := 0, st := .frozen, count := 2 };
      OpActs 1 .thaw o s ∧ PageTurn s o ∧ 2 ≤ (s.frzOf 0).count.toNat) ∧
    (let o := { eop .thaw (desc 0 0 65536 0 0) with phase := 2, claimed := some 0 };
      let s := freezes o { page := 0, st := .thawing };
      OpActs 1 .thaw o s ∧ o.status = 0 ∧ o.claimed = some 0 ∧ o.phase = 2 ∧ s.bumpReady 0 = true) := by
  and_intros <;> first | decide +kernel | exact pageTurn_of _ _ (by decide +kernel)

/-- A state in which the matrix unit of pair 0 has an operation at its head. -/
def united (o : EngOp) (u : MatrixUnit) : State := { engine o with units := [{ u with queue := [1] }] }

theorem witness_MatrixUnitsStep :
    (let s := united (eop .mma 0) {};
      (s.unit 0).busy = false ∧ s.headOp (s.unit 0) = some (eop .mma 0) ∧ s.opRuns (eop .mma 0) = true ∧
      s.stepHalted (eop .mma 0) = false ∧ (eop .mma 0).status ≤ 1 ∧
      ∃ t s', s.mmaStart (s.unit 0) (eop .mma 0) = .ok t s') ∧
    (let s := united (eop .mmaRel 0) {}; s.headOp (s.unit 0) = some (eop .mmaRel 0) ∧ s.opRuns (eop .mmaRel 0) = true) ∧
    (let s := united (eop .mmaClr 0) {}; s.headOp (s.unit 0) = some (eop .mmaClr 0) ∧ (eop .mmaClr 0).quay % 2 = 0) ∧
    (let s := united (eop .mma 0) { busy := true, running := true, idxs := List.replicate 128 0xFFFF, desc := 64 };
      (s.unit 0).running = true ∧ (s.unit 0).tileDue = none ∧ (s.unit 0).endDue = false ∧
      s.headOp (s.unit 0) = some (eop .mma 0) ∧
      ∃ u' s', s.runGroups (eop .mma 0) (s.unit 0) (codeBytes (cfgA (s.node 0 (eop .mma 0).nodeNo).cfg)) 16 = .ok u' s') ∧
    (let s := united (eop .mma 0) { busy := true, tileDue := some (0, 2) };
      (s.unit 0).tileDue = some (0, 2) ∧ s.headOp (s.unit 0) = some (eop .mma 0) ∧
      s.releaseReady (eop .mma 0) 0 = .ok () s ∧ ∃ t s2, s.release (eop .mma 0) 0 2 = .ok t s2) ∧
    (let s := united (eop .mmaCfg 0) { busy := true, endDue := true };
      (s.unit 0).endDue = true ∧ (s.unit 0).status = 0 ∧ s.headOp (s.unit 0) = some (eop .mmaCfg 0)) ∧
    (let s := united (eop .mma 0) { busy := true, endDue := true };
      (s.unit 0).busy = true ∧ s.headOp (s.unit 0) = some (eop .mma 0) ∧ mmaOpco (s.unit 0).desc = 0) := by
  and_intros <;> first | decide +kernel | exact ok_of_isAt (by decide +kernel) | exact ok_of_isOk (by decide +kernel)

/-! ### Hypotheses that are met: the control window, queues, placement -/

/-- A format region of one page at 0x10000 with its codes at 0x20000. -/
def fmt0 : FmtRegion := { die := 0, r := 0, store := 0x10000, size := 1, scale := 0x20000 }

/-- A state with that region. -/
def windowed (g : FmtRegion) : State := { State.reset with fmt := [g] }

theorem enableErr_fmt0 (h : Word) (hf : h.extractLsb' 4 8 = 0) : (windowed fmt0).enableErr { fmt0 with ctl := h } = none := by
  have h1 : h.extractLsb' 8 4 = (h.extractLsb' 4 8).extractLsb' 4 4 := by
    ext i hi
    simp [← Nat.add_assoc, show 4 + i < 8 by omega]
  have h2 : h.extractLsb' 4 4 = (h.extractLsb' 4 8).extractLsb' 0 4 := by
    ext i hi
    simp [show i < 8 by omega]
  have a : ({ fmt0 with ctl := h } : FmtRegion).storedLen = fmt0.storedLen := by
    unfold FmtRegion.storedLen FmtRegion.fmtc; rw [h1, hf]; rfl
  have b : ({ fmt0 with ctl := h } : FmtRegion).scaleLen = fmt0.scaleLen := by
    unfold FmtRegion.scaleLen FmtRegion.gs; rw [h2, hf]; rfl
  have c : (windowed fmt0).enableErr { fmt0 with ctl := h } = (windowed fmt0).enableErr fmt0 := by
    unfold State.enableErr; rw [a, b]; rfl
  rw [c]
  decide +kernel

theorem witness_ControlWindowWritesComplete :
    ((windowed fmt0).region 0 0).busy = false ∧ ((windowed fmt0).region 0 0).en = false ∧
    (0 : Word).extractLsb' 12 44 = 0 ∧ (0 : Word).extractLsb' 0 4 = 0 ∧ ((0 : Word).extractLsb' 8 4).toNat ≤ 6 ∧
    ((0 : Word).extractLsb' 4 4).toNat ≤ 8 ∧
    (∀ h : Word, h.extractLsb' 4 8 = (0 : Word).extractLsb' 4 8 →
      (windowed fmt0).enableErr { (windowed fmt0).region 0 0 with ctl := h } = none) ∧
    (let g : FmtRegion := { fmt0 with ctl := 1#64 <<< 63 };
      ((windowed g).region 0 0).busy = false ∧ ((windowed g).region 0 0).en = true ∧ g.fmtc = 0 ∧ g.gs = 0 ∧
        (windowed g).viewFrozen ((windowed g).region 0 0) = false) ∧
    ((windowed { fmt0 with ctl := 1#64 <<< 62 }).region 0 0).busy = true ∧ State.reset.dir = [] ∧ State.reset.remoteHolds = [] ∧
    State.reset.domain.en = false ∧ Mem.wf State.reset.mem = true ∧ State.reset.mem = [] ∧
    (0x300000 : Word).extractLsb' 24 40 = 0 ∧ ((0x300000 : Word).extractLsb' 20 4).toNat ≤ 3 ∧ (31 : Nat) < 32 := by
  refine ⟨?_, ?_, ?_, ?_, ?_, ?_, fun h hf => enableErr_fmt0 h hf, ?_⟩ <;> and_intros <;> decide +kernel

/-- A module whose context 0 runs, with a queue whose command in hand is `m`, and a memory. -/
def serving (x : Queue) (mem : Mem) : State :=
  { booted with mem := mem, ctxs := [{ num := 0, run := true, caps := 0x100000000000000, queues := [x] }] }

/-- A command: OP, SUB, the word at byte 8, the word at byte 16, the descriptor; scope 4, quay 0. -/
def command (op sub : Nat) (a v : Nat) (d : BitVec 256) : BitVec 1024 :=
  BitVec.ofNat 1024 (op + (if op ≤ 3 then 0 else 1) * 2 ^ 8 + 4 * 2 ^ 10 + sub * 2 ^ 13 + a * 2 ^ 64 + v * 2 ^ 128 + d.toNat * 2 ^ 256)

/-- The queue whose command in hand is `m`. -/
def queued (m : BitVec 1024) : Queue := { n := 0, desc := qdesc, cmd := some m }

/-- A launch record: version 1, one level, one thread, DOMAIN 1, SCOPE 1. -/
def record1 (wgcomp : Nat) : BitVec 1024 :=
  BitVec.ofNat 1024 (1 + 2 ^ 20 + wgcomp * 2 ^ 256 + (1 + 1 * 2 ^ 4 + 1 * 2 ^ 8) * 2 ^ 512)

/-- The page table with a launch record at 0x20000. -/
def memLaunch : Mem := Mem.writeN mem0 0x20000 (leBytes 128 (record1 0).toNat)

/-- An engine command that is due and has room. -/
def EngineCommand (op sub : Nat) (k : OpKind) (d : BitVec 256) : Prop :=
  let m := command op sub 0 0 d; let s := serving (queued m) mem0;
  CommandDue 0 0 op sub (queued m) m s ∧ s.roomNow (cmdBits m 17 8) 1 (s.scoredDests (cmdBits m 17 8) 0 k (cmdDesc m)) = true

/-- The watch line of an address in the queue processor of die 0. -/
def watched (a : Nat) : Copy := { holder := watchHolder 0, line := a / 128, tokens := 1 }

theorem witness_QueueCommandsCompleteOrHalt :
    (let m := command 1 0 0x20000 0 0; let s := serving (queued m) memLaunch;
      CommandDue 0 0 1 0 (queued m) m s ∧
      let r := s.procRead (.queue 0 0) (queued m).die 0 (cmdWord m 8).toNat 128
      r = .ok (leBytes 128 (record1 0).toNat) (after r) ∧ (queued m).running = [] ∧ (after r).launches = [] ∧
      (after r).checkRecord 0 (BitVec.ofNat 1024 (leNat (leBytes 128 (record1 0).toNat))) = 0 ∧
      recBind (BitVec.ofNat 1024 (leNat (leBytes 128 (record1 0).toNat))) = 0) ∧
    (let m := command 2 0 0x20000 1 0;
      let s : State := { serving (queued m) memLaunch with copies := [watched 0x20000] };
      CommandDue 0 0 2 0 (queued m) m s ∧ (queued m).started = false ∧
      ∃ bs s1, s.procLine (.queue 0 0) (queued m).die 0 (cmdWord m 8).toNat 4 true = .ok bs s1) ∧
    (let m := command 2 0 0x20000 1 0; let x := { queued m with started := true, nextRead := 256 };
      let s : State := { serving x memLaunch with clock := 256, copies := [watched 0x20000] };
      CommandDue 0 0 2 0 x m s ∧ x.nextRead ≤ s.clock ∧
      ∃ bs s1, s.procLine (.queue 0 0) x.die 0 (cmdWord m 8).toNat 4 true = .ok bs s1) ∧
    (let m := command 2 0 0x20000 1 0; let x := { queued m with started := true, nextRead := 256 };
      let s : State := { serving x memLaunch with copies := [watched 0x20000] };
      CommandDue 0 0 2 0 x m s ∧ s.clock < x.nextRead ∧ s.tokenTaken x.die 0 (cmdWord m 8).toNat = false) ∧
    (let m := command 3 0 0x20000 1 0; let s := serving (queued m) memLaunch;
      CommandDue 0 0 3 0 (queued m) m s ∧
      (∃ h s1, s.procPa (.queue 0 0) (queued m).die 0 (cmdWord m 8).toNat true = .ok h s1) ∧
      ∃ s2, s.hwWrite (.queue 0 0) 0 (cmdWord m 8).toNat (leBytes 4 1) = .done s2) ∧
    (let m := command 3 1 0x20000 1 0; let s := serving (queued m) memLaunch;
      CommandDue 0 0 3 1 (queued m) m s ∧
      (∃ h s1, s.procPa (.queue 0 0) (queued m).die 0 (cmdWord m 8).toNat true = .ok h s1) ∧
      ∃ s2, s.hwUpdate (.queue 0 0) 0 (cmdWord m 8).toNat 4 (fun old => leBytes 4 ((leNat old + 1) % 2 ^ 32)) true = .done s2) ∧
    EngineCommand 4 0 .cpG2v (desc 0 128 128 0 0) ∧ EngineCommand 4 1 .cpV2g (desc 0 128 128 0 0) ∧
    EngineCommand 4 2 .cpV2v (desc 0 128 128 0 0) ∧ EngineCommand 4 3 .cpMc (desc 0 32 128 1 0) ∧
    EngineCommand 5 0 (.allred .bf16) (desc 0 0 4 0 0) ∧ EngineCommand 5 1 (.allred .f32) (desc 0 0 4 0 0) ∧
    EngineCommand 5 2 (.redsc .bf16) (desc 0 0 4 0 0) ∧ EngineCommand 5 3 (.redsc .f32) (desc 0 0 4 0 0) ∧
    EngineCommand 5 4 .allgath (desc 0 0 4 0 0) ∧ EngineCommand 5 5 .bcast (desc 0 0 4 0 0) ∧
    EngineCommand 6 0 .frz (desc 0 0 65536 0 0) ∧ EngineCommand 7 0 .thaw (desc 0 0 65536 0 0) ∧
    (let x : Queue := { n := 0, desc := qdesc }; let s := serving x (Mem.writeN mem0 0x10000 (leBytes 8 1));
      let s : State := { s with copies := [watched x.base] };
      s.settleQueue 0 0 = s ∧ s.serves 0 0 = true ∧ x.errDue = none ∧
      s.procLine (.queue 0 0) x.die 0 x.base 8 true = .ok (leBytes 8 1) s ∧
      let head := s.procLine (.queue 0 0) x.die 0 (x.base + 0x100) 8 false
      let slot := (after head).procRead (.queue 0 0) x.die 0 (x.base + 0x200) 128
      head = .ok (leBytes 8 0) (after head) ∧ leNat (leBytes 8 0) < leNat (leBytes 8 1) ∧
      slot = .ok (leBytes 128 0) (after slot) ∧
      (∃ h s1, (after slot).procPa (.queue 0 0) x.die 0 (x.base + 0x100) true = .ok h s1) ∧
      ∃ s2, (after slot).hwWrite (.queue 0 0) 0 (x.base + 0x100) (leBytes 8 1) = .done s2) ∧
    (let s := serving (queued 0) mem0; let x := queued 0;
      let y : Queue := { x with
        halted := true, refused := false, cmd := none, started := false, waitOp := none, errDue := some (s.checkCommand 0 0) };
      s.settleQueue 0 0 = s ∧ s.serves 0 0 = true ∧ x.errDue = none ∧ s.checkCommand 0 0 ≠ 0 ∧ (s.setQueue 0 y).queue 0 0 = y ∧
      (∃ h t1, (s.setQueue 0 y).procPa (.queue 0 0) x.die 0 (x.base + 0x180) true = .ok h t1) ∧
      ∃ u, (s.setQueue 0 y).hwWrite (.queue 0 0) 0 (x.base + 0x180)
        (leBytes 8 (x.cmdSlot % 2 ^ 32 + s.checkCommand 0 0 * 2 ^ 32)) = .done u) := by
  and_intros <;> first | decide +kernel | exact ok_of_isAt (by decide +kernel) | exact ok_of_gives (by decide +kernel) | exact ok_of_isOk (by decide +kernel) | (refine done_of_isDone ?_; decide +kernel)

/-- A task of one thread. -/
def task1 : Ready := { record := 1#256 <<< 160 }

/-- A launch of one workgroup. -/
def launch1 (wgcomp : Nat) : Launch := { id := 1, record := record1 wgcomp, total := 1, bindRead := true }

theorem witness_WorkIsPlacedAndCompleted :
    (let s : State := { serving {} mem0 with ready := [task1] };
      s.ready[0]? = some task1 ∧ s.taskTakes task1 0 = true ∧ s.higherWork 0 task1.prio none (s.ready.take 0) = false) ∧
    (let l := launch1 0; let s : State := { serving {} mem0 with launches := [l] };
      s.launches[0]? = some l ∧ s.launchTakes l [0] = true ∧ s.higherWork 0 l.prio (some (s.turnRank 0 l)) [] = false) ∧
    (let g : Group := { id := 2 }; let s : State := { State.reset with groups := [g] };
      s.groups[0]? = some g ∧ s.groupEnded g = true ∧ g.launch = none) ∧
    (let g : Group := { id := 2, launch := some 1 }; let l := launch1 0x30000;
      let s : State := { serving {} mem0 with groups := [g], launches := [l] };
      s.groupEnded g = true ∧ s.launch? 1 = some l ∧ recWgcomp l.record ≠ 0 ∧
      ∃ a s1, s.recordWrite (.group g.id) l.ctx (recWgcomp l.record + 32 * g.number) (leBytes 32 (g.record s.clock).toNat) = .ok a s1) ∧
    (let l := { launch1 0 with completed := 1 }; let s : State := { serving {} mem0 with launches := [l] };
      l.total ≤ l.completed ∧ ∃ a s1, s.recordWrite (.launch l.id) l.ctx (recDone l.record) (leBytes 32 (l.doneRecord s.clock).toNat) = .ok a s1) := by
  refine ⟨?_, ?_, ?_, ⟨?_, ?_, ?_, ok_of_isOk ?_⟩, ⟨?_, ok_of_isOk ?_⟩⟩ <;> and_intros <;> decide +kernel

/-! ### Hypotheses that are met: contexts -/

/-- A descriptor of a context operation from its eight words (R403). -/
def ctxDesc (w : List Nat) : BitVec 512 := BitVec.ofNat 512 (leNat (w.flatMap (leBytes 8)))

/-- An operation of context 0 at the controller, its descriptor read. -/
def cop (func : BitVec 8) (w : List Nat) : CtxOp := { func := func, issuer := 0, desc := ctxDesc w, src := .op 7, reach := 1 }

/-- Context 0 running with a queue, and its child 1. -/
def family (child : Ctx) (o : CtxOp) : State :=
  { booted with ctxs := [{ num := 0, run := true, queues := [{ n := 0, desc := qdesc }] }, child], ctxq := [o] }

/-- A child of context 0 with one free quay slot. -/
def child1 : Ctx := { num := 1, parent := 0, depth := 1, qtab := [none], maxq := 1, save := 0x1000000 }

/-- A launch-queue descriptor of eight slots. -/
def qdesc8 : Nat := 2 ^ 63 + 0x40300

theorem witness_ContextsAreMadeAndGivenTo :
    (let o := cop 0x20 [0, 0, 0x10000, 1, 0x800, 0, 0, 0]; let s := family child1 o;
      ContextTurn 0 0x20 o s ∧ o.unused [2, 3, 4, 5] = true ∧ o.word 2 % 65536 = 0 ∧ o.word 3 % 512 = 1 ∧
      bitsOf (o.word 3) 9 7 = 0 ∧ (o.word 3).testBit 24 = false ∧ o.word 4 % 2048 = 0 ∧ o.word 5 < 2 ^ 56 ∧
      s.freeContext = some 2 ∧ (s.ctx 0).depth < 7 ∧
      (s.walksWait 0 (o.word 2) ((4096 + 17825792 * (o.word 3 % 512) + 65535) / 65536) true).isNone = true ∧
      s.pinned 0 (o.word 2) ((4096 + 17825792 * (o.word 3 % 512) + 65535) / 65536) = some 0x10000 ∧
      BitVec.ofNat 8 (o.word 3 / 2 ^ 16) &&& ~~~(s.ctx 0).allow = 0) ∧
    (let o := cop 0x28 [1, 0, 0, 0, 1, 0, 0, 0]; let s := family child1 o;
      ChildTurn 0 0x28 o s ∧ o.kind = 0 ∧ o.unused [2, 4, 5, 6, 7] = true ∧ o.quays = [0] ∧
      ((o.quays.filter fun q => !s.holdsQuay 1 q).filter fun q => ((s.ctx 1).slotOf q).isNone).length ≤
        (s.ctx 1).qtab.countP (·.isNone) ∧ s.absent.contains 0 = false ∧ s.holdsQuay 0 0 = true ∧ s.handovers = [] ∧
      kvGet (s.partOfQuay 0) 0 s.partOwner = s.functionOf 1 ∧ s.assignee 0 = o.issuer) ∧
    (let o := cop 0x28 [1, 0, 1, 0, 0, 65536, 3, 0]; let s := family child1 o;
      ChildTurn 0 0x28 o s ∧ o.kind = 1 ∧ o.unused [2, 3, 4, 5, 6] = true ∧ o.word 5 = 65536 ∧ o.word 6 ≤ 3 ∧
      (s.ctx 1).grants = [] ∧ s.bmlim o 1 = .ok none s ∧
      (List.range 64).find? (fun k => !(s.ctx 1).grants.any (·.idx == k)) = some 0) ∧
    (let o := cop 0x28 [1, 0, 2, 0x100, qdesc8, 0, 0, 0]; let s := family child1 o;
      ChildTurn 0 0x28 o s ∧ o.kind = 2 ∧ o.nodeOnRoot = false ∧ o.unused [2, 3, 4] = true ∧
      bitsOf (o.word 3) 6 2 = 0 ∧ o.word 3 / 2 ^ 14 = 0 ∧ descriptorOk (BitVec.ofNat 64 (o.word 4)) = true ∧
      (s.queue 0 0).en = true ∧ (s.queue 1 1).en = false ∧ (s.queue 1 1).lentTo = none ∧ Queue.prio { desc := BitVec.ofNat 64 (o.word 4) } ≤ (s.queue 0 0).prio) ∧
    (let o := cop 0x28 [1, 0, 3, 5, 0, 0, 0, 0]; let s := family { child1 with expl := true } o;
      ChildTurn 0 0x28 o s ∧ o.kind = 3 ∧ o.unused [2, 3] = true ∧ (s.quotaAfter 1).1 = true ∧
      (s.quotaAfter 1).2 + o.word 3 < 2 ^ 63) ∧
    (let o := cop 0x30 [1, 0, 0x100, 0, 1, 0, 0, 0]; let s : State := { family child1 o with quayCtx := [(0, 1)] };
      ChildTurn 0 0x30 o s ∧ o.kind = 0 ∧ o.word 2 / 4 % 64 = 0 ∧ o.word 2 / 2 ^ 9 = 0 ∧
      o.unused [2, 4, 5, 6, 7] = true ∧ o.quays = [0] ∧ s.holdsQuay 1 0 = true) ∧
    (let o := cop 0x30 [1, 0, 1, 4, 0, 0, 0, 0];
      let g : Grant := { idx := 4, va := 0, ipa := 0, len := 65536, w := true, x := true };
      let s := family { child1 with grants := [g] } o;
      ChildTurn 0 0x30 o s ∧ o.kind = 1 ∧ o.unused [2, 3] = true ∧ (s.ctx 1).grants = [g] ∧ g.idx = o.word 3) ∧
    (let o := cop 0x30 [1, 0, 2, 0x100, 0, 0, 0, 0];
      let s : State := { family child1 o with ctxs := [
        { num := 0, queues := [{ n := 0, withdrawn := some qdesc, lentTo := some (1, 1) }] },
        { child1 with queues := [{ n := 1, desc := qdesc }] }] };
      ChildTurn 0 0x30 o s ∧ o.kind = 2 ∧ o.nodeOnRoot = false ∧ o.word 3 % 256 = 0 ∧ o.word 3 / 2 ^ 14 = 0 ∧
      bitsOf (o.word 3) 8 6 = 1 ∧ (s.queue 1 1).en = true ∧ (s.queue 1 1).lentTo = none ∧ (s.queue 1 1).waitOp = none ∧
      ((((s.setQueue 1 { n := 1 }).revokePosts 1 1).ctx 0).queues.find? (fun k => k.lentTo == some (1, 1))).isSome = true) ∧
    (let o := cop 0x30 [1, 0, 3, 5, 0, 0, 0, 0]; ChildTurn 0 0x30 o (family child1 o) ∧ o.kind = 3 ∧
      o.unused [2, 3] = true) := by
  and_intros <;> first | decide +kernel | exact ok_of_isAt (by decide +kernel)

/-- The partition state of reset with another owner still fits: only partition 0 reserves channels (R424). -/
theorem fits_reset (owner : Nat → Nat) : PartState.fits { State.reset.partState with owner := owner } = true := by
  have hsum : ∀ (P : Nat → Bool) (f : BitVec 60 → Nat),
      (((List.range 32).filter P).map fun k => f (State.reset.partState.net k)).foldl (· + ·) 0 ≤
        ((List.range 32).map fun k => f (State.reset.partState.net k)).foldl (· + ·) 0 := by
    intro P f
    rw [← List.sum_eq_foldl, ← List.sum_eq_foldl]
    exact List.Sublist.sum_le_sum (List.Sublist.map _ (List.filter_sublist)) (fun _ _ => Nat.zero_le _)
  have hv : ∀ P : Nat → Bool, ((List.range 5).all fun c =>
      decide ((((List.range 32).filter P).map fun k => netV (State.reset.partState.net k) c).foldl (· + ·) 0 ≤ 8) &&
        decide ((((List.range 32).filter P).map fun k => netS (State.reset.partState.net k) c).foldl (· + ·) 0 ≤ 128)) =
      true := by
    intro P
    have hb : ∀ c ∈ List.range 5, ((List.range 32).map fun k => netV (State.reset.partState.net k) c).foldl (· + ·) 0 ≤ 8 ∧
        ((List.range 32).map fun k => netS (State.reset.partState.net k) c).foldl (· + ·) 0 ≤ 128 := by decide +kernel
    rw [List.all_eq_true]
    intro c hc
    rw [Bool.and_eq_true, decide_eq_true_eq, decide_eq_true_eq]
    exact ⟨(hsum P fun n => netV n c).trans (hb c hc).1, (hsum P fun n => netS n c).trans (hb c hc).2⟩
  have he : ((List.range 32).all fun k => (State.reset.partState.dies k).isEmpty ||
      (List.range 5).all fun c => netV (State.reset.partState.net k) c != 0) = true := by decide +kernel
  unfold PartState.fits
  rw [Bool.and_eq_true, Bool.and_eq_true]
  refine ⟨⟨?_, ?_⟩, he⟩ <;> (rw [List.all_eq_true]; intro d _; exact hv _)

/-- The change-list entry that gives partition 1 to the control node's own function (R427). -/
def entry4 : ChangeEntry := { kind := 4, part := 1, unit := 0, slice := 0, zero := false, drain := false, net := 0, owner := 0 }

theorem checkList_entry4 (s : State) (h : s.quayPart = State.reset.quayPart ∧ s.sliceOwner = State.reset.sliceOwner ∧
    s.partNet = State.reset.partNet ∧ s.partOwner = State.reset.partOwner ∧ s.quayCtx = State.reset.quayCtx) :
    s.checkList s.partState [some entry4] 0 = none := by
  have h : s.partState = State.reset.partState := by
    obtain ⟨h1, h2, h3, h4, h5⟩ := h
    have hq : s.partOfQuay = State.reset.partOfQuay := funext fun q => by simp only [State.partOfQuay, h1]
    have hs : s.partOfSlice = State.reset.partOfSlice := funext fun q => by simp only [State.partOfSlice, h2]
    simp only [State.partState, State.assignee, hq, hs, h3, h4, h5]
  rw [h]
  have hn : (s.checkEntry State.reset.partState entry4).isSome = true := by
    unfold State.checkEntry
    have hg : ((List.range 256).any fun q => State.reset.partState.quayPart q == entry4.part &&
        State.reset.partState.assigned q) = false := by decide +kernel
    simp only [entry4] at hg ⊢
    simp only [hg]
    simp [fits_reset]
  unfold State.checkList
  cases hc : s.checkEntry State.reset.partState entry4 with
  | none => rw [hc] at hn; cases hn
  | some p => rfl

/-- The flattened tables have room for `ls` whatever else the die's hardware areas hold, when they take little (R406). -/
theorem stageRoom_small (s : State) (t : Nat) (ls : List Leaf)
    (h : ((s.ctxs.filter fun c => c.num != 0 && c.num != t && c.stageDie == (s.ctx t).stageDie).map
      fun c => tableBytes c.leaves).foldl (· + ·) (tableBytes ls) ≤ 16 * 94419968 - 2 ^ 30) : s.stageRoom t ls = true := by
  have := Nat.mod_lt (Config.tablesTaken (s.ctx t).stageDie) (show 2 ^ 30 > 0 by decide)
  exact decide_eq_true (by unfold tableSpace; omega)

theorem stageRoom_one (s : State) (hs : (s.ctxs.filter fun c => c.num != 0 && c.num != 1 && c.stageDie == (s.ctx 1).stageDie) = [])
    (l : Leaf) (h : l.ipa = 0) (hz : l.size = 16) : s.stageRoom 1 [l] = true := by
  apply stageRoom_small
  rw [hs]
  simp [tableBytes, h, hz]
  decide

theorem witness_ContextsAreMappedAndRun :
    (let o := cop 0x38 [1, 0, 0, 65536, 0x300, 0, 0, 0];
      let g : Grant := { idx := 0, va := 0x10000, ipa := 0, len := 65536, w := true, x := true };
      let s := family { child1 with grants := [g] } o;
      ChildTurn 0 0x38 o s ∧ o.unused [2, 3, 4] = true ∧ o.count = 0 ∧ (s.ctx 1).grants = [g] ∧
      g.ipa ≤ o.word 2 ∧ o.word 2 + 65536 ≤ g.ipa + g.len ∧ (s.walksWait 0 (g.va + (o.word 2 - g.ipa)) 1 false).isNone = true ∧
      s.mapSource 0 (g.va + (o.word 2 - g.ipa)) 16 = some (0x10000, true, true) ∧ s.bmlim o 1 = .ok none s ∧
      (s.ctx 1).leaves = [] ∧ s.bumpReady 1 = true ∧
      ∀ l : Leaf, l.ipa = 0 → l.size = 16 → s.stageRoom 1 [l] = true) ∧
    (let o := cop 0x40 [1, 0, 0, 0, 0, 0, 0, 0]; ChildTurn 0 0x40 o (family child1 o) ∧ o.targetOf ≠ o.issuer ∧
      (family child1 o).splitStop 1 0 0 = none) ∧
    (let o : CtxOp := { cop 0x40 [1, 0, 0, 65536, 0, 0, 0, 0] with issuer := 1 };
      let l : Leaf := { ipa := 0, size := 16, pa := 0x10000, w := true, x := true, gen := 0 };
      let s := family { child1 with leaves := [l] } o;
      ContextTurn 0 0x40 o s ∧ o.targetOf = o.issuer ∧ o.issuer ≠ 0 ∧ o.unused [2, 3] = true ∧
      (s.ctx 1).leafAt 0 = some l ∧ s.bumpReady ((l.pa + (o.word 2 - l.ipa)) / 65536) = true ∧
      s.stageRoom 1 ((s.ctx 1).renewed 0 0) = true) ∧
    (let o := cop 0x48 [1, 0, 0, 0, 0, 0, 0, 0]; let s := family child1 o;
      ChildTurn 0 0x48 o s ∧ (s.ctx 1).exhausted = false ∧ (s.ctx 1).run = false ∧ s.preempts = []) ∧
    (let o := cop 0x50 [1, 0, 0, 0, 0, 0, 0, 0]; ChildTurn 0 0x50 o (family child1 o) ∧ o.word 2 = 0) ∧
    (let o := cop 0x50 [1, 0, 3, 0, 0, 0, 0, 0]; ChildTurn 0 0x50 o (family child1 o) ∧ o.word 2 = 3) ∧
    (let o := cop 0x60 [1, 0, 1, 2 ^ 63 - 1, 0, 0, 0, 0]; ChildTurn 0 0x60 o (family child1 o) ∧
      o.unused [2, 3] = true ∧ o.word 3 < 2 ^ 63) ∧
    (let o := cop 0x88 [1, 0, 0x20000, 1, 0, 0, 0, 0]; let s := family child1 o;
      ChildTurn 0 0x88 o s ∧ o.word 3 = 1 ∧ (let r := s.ctxLine o 0 (o.word 2) 64; r = .ok (leBytes 64 0) (after r)) ∧
      (s.ctx 1).grants = [] ∧ (s.ctx 1).leaves = [] ∧ ∃ s2, (after (s.ctxLine o 0 (o.word 2) 64)).hwWrite o.waiter 0 (o.word 2) (leBytes 8 1) = .done s2) ∧
    (let o := cop 0x88 [1, 0, 0, 0, 0, 0, 0, 0]; let s := family child1 o;
      ChildTurn 0 0x88 o s ∧ o.word 3 = 0 ∧ (s.ctx 1).dlog.getLsbD 0 = false) ∧
    (let o := cop 0x88 [1, 0, 0, 0, 0, 0, 0, 0]; let s := family { child1 with dlog := 0x20001 } o;
      ChildTurn 0 0x88 o s ∧ (s.ctx 1).dlog.getLsbD 0 = true ∧ (let r := s.ctxLine o 0 0x20000 8; r = .ok (leBytes 8 0) (after r)) ∧
      ∃ s2, (after (s.ctxLine o 0 0x20000 8)).hwWrite o.waiter 0 0x20000 (leBytes 8 0) = .done s2) ∧
    (let o := cop 0x90 [0, 0, 0x20000, 1, 0, 0, 0, 0];
      let s : State := { family child1 o with mem := Mem.writeN mem0 0x20000 (leBytes 2 0x104) };
      ContextTurn 0 0x90 o s ∧ o.targetOf = 0 ∧ o.unused [2, 3] = true ∧
      (let r := s.changeList o (o.word 2) (o.word 3); r = .ok [BitVec.ofNat 256 0x104] (after r)) ∧ changeEntry (BitVec.ofNat 256 0x104) = some entry4 ∧
      let s2 := (after (s.changeList o (o.word 2) (o.word 3))).dropFar o.waiter
      s2.checkList s2.partState [some entry4] 0 = none) ∧
    (let o : CtxOp := { cop 0x48 [1] with phase := 9, src := .node 3 };
      (family child1 o).ctxq[0]? = some o ∧ o.phase = 9 ∧ (family child1 o).areasPending o = false ∧ o.src = .node 3) ∧
    (let o : CtxOp := { cop 0x48 [1] with phase := 9, src := .op 1 }; let e := eop (.ctx 0x48) 0;
      let s : State := { family child1 o with ops := [e] };
      s.areasPending o = false ∧ s.op? 1 = some e ∧ s.opAwake e = true ∧ e.status ≤ 1 ∧ VaultOpen e.quay e.a.toNat 16 s) := by
  refine ⟨?_, ?_, ?_, ?_, ?_, ?_, ?_, ?_, ?_, ?_, ⟨?_, ?_, ?_, ?_, ?_, checkList_entry4 _ (by decide +kernel)⟩, ?_, ?_⟩ <;>
    and_intros <;> first | decide +kernel | exact ok_of_gives (by decide +kernel) |
      exact done_of_isDone (by decide +kernel) | exact stageRoom_one _ (by decide +kernel) |
      exact stageRoom_small _ _ _ (by decide +kernel)

/-! ### Hypotheses that are met: traps, pre-emption, saves, power, links, reset, memory -/

/-- The page table with a handler table at 0x30000: handlers of causes 0x06 and 0x26 at 0x40 (R370). -/
def memTraps : Mem :=
  Mem.writeN (Mem.writeN mem0 0x30060 (leBytes 8 1 ++ leBytes 8 0x40)) 0x30260 (leBytes 8 1 ++ leBytes 8 0x40)

/-- A module with that table in context 0, its child 1, and one thread. -/
def handles (t : Thread) : State :=
  { booted with mem := memTraps, ctxs := [{ num := 0, run := true, trapvec := 0x30001 }, child1], threads := [t] }

/-- A state as the search for a handler sees it. -/
def searched (s : State) (t : Thread) : State := (s.leaveEntries t.quay t.slot).dropWaits t.quay t.slot

theorem witness_TrapsAreTaken :
    (let t : Thread := { st := .active, ctx := 1 };
      t.ih = false ∧ (searched (handles t) t).searchAsk (.handler 0 0) 0x06 (some t.ctx) 9 = none ∧
      (searched (handles t) t).findHandler (.handler 0 0) 0x06 (some t.ctx) 0 9 = some (0, 0x40, 1)) ∧
    (let t : Thread := { st := .active, ctx := 1, ih := true, hctx := 1 }; let s := searched (handles t) t;
      s.searchAsk (.handler 0 0) 0x26 (s.parentOf t.hctx) 9 = none ∧
      s.findHandler (.handler 0 0) 0x26 (s.parentOf t.hctx) 1 9 = some (0, 0x40, 1)) ∧
    (let t : Thread := { st := .active, ctx := 1 };
      (searched State.reset t).searchAsk (.handler 0 0) 0x06 (some t.ctx) 9 = none ∧
      (searched State.reset t).findHandler (.handler 0 0) 0x06 (some t.ctx) 0 9 = none) ∧
    (let t : Thread := { st := .active, ctx := 1 };
      let s : State := { handles t with remoteHolds := [{ src := 3, tag := 0, line := 0x600 }] };
      ((searched s t).searchAsk (.handler 0 0) 0x06 (some t.ctx) 9).isSome = true) ∧
    (handles {}).handler (.handler 0 0) 0 0x06 = some 0x40 ∧ (handles {}).handler (.handler 0 0) 0 0x07 = none ∧
    (handles {}).handler (.handler 0 0) 1 0x06 = none := by
  and_intros <;> decide +kernel

/-- A state with one pre-emption. -/
def preempting (p : Preempt) : State := { family child1 (cop 0x50 [1]) with preempts := [p] }

theorem witness_PreemptionsComplete :
    (let p : Preempt := { id := 3, root := 1, quays := [0], awaiting := [.fabric 0] };
      (preempting p).preempts = [p] ∧ p.awaiting.contains (.fabric 0) = true ∧ (preempting p).agentStopped p (.fabric 0) = true) ∧
    (let p : Preempt := { id := 3, root := 1, quays := [0], awaiting := [.fabric 0, .engines 0] };
      (preempting p).agentStopped p (.fabric 0) = true ∧ p.slice = false ∧ p.awaiting.filter (· != .fabric 0) ≠ []) ∧
    (let p : Preempt := { id := 3, root := 1, quays := [0], awaiting := [.fabric 0] };
      let s : State := { preempting p with ctxs := [{ num := 0 }, { child1 with qtab := [some 0] }], quayCtx := [(0, 1)],
                                           threads := [{ st := .waiting, ctx := 1 }] };
      s.preempts = [p] ∧ s.agentStopped p (.fabric 0) = true ∧ p.slice = false ∧ p.todo = [] ∧ p.saved = [] ∧ p.quays = [0] ∧
      (s.ctx (s.assignee 0)).slotOf 0 = some 0 ∧ s.quayBusy 0 = true) ∧
    (let x : Pass := { live := true }; let p : Preempt := { id := 3, root := 1, quays := [0], since := [(0, 0)] };
      let s : State := { preempting p with clock := 1024, pass := x };
      s.preempts[0]? = some p ∧ p.drain = true ∧ p.since = [(x.quay, 0)] ∧ 0 + 1024 ≤ s.clock ∧ s.pass = x ∧ x.live = true ∧
      x.leaving = 0 ∧ s.parked = []) ∧
    (let p : Preempt := { id := 3, root := 1, quays := [0], ending := true };
      let cs := ((p.quays.map (preempting p).assignee) ++ (if p.only then [] else [p.root])).eraseDups;
      (preempting p).preempts[0]? = some p ∧ p.ending = true ∧ (preempting p).saves = [] ∧ cs = [0, 1] ∧
      (cs.all fun c => !(preempting p).areaPending ((preempting p).ctx c) && !((preempting p).ctx c).lost) = true) ∧
    (let s := State.reset; child1.maxq ≠ 0 ∧ child1.save % 128 + (leBytes 8 2).length ≤ 128 ∧ s.areaDue = [] ∧
      s.hasDir (child1.save / 128) = false ∧ s.heldRemotely (child1.save / 128) = false ∧
      (s.frzOf (child1.save / 65536)).st = .normal ∧ s.collecting = []) ∧
    (let s : State := { State.reset with quayCtx := [(7, 1)] };
      ((List.range 256).filter fun q => s.partOfQuay q == 0 && s.assignee q != 0 && !s.absent.contains q &&
        !s.exchanging q && !s.preempts.any (fun p => p.quays.contains q || p.todo.contains q)) = [7]) ∧
    ((List.range 256).filter fun q => State.reset.partOfQuay q == 0 && State.reset.assignee q != 0 && !State.reset.absent.contains q &&
        !State.reset.exchanging q && !State.reset.preempts.any (fun p => p.quays.contains q || p.todo.contains q)) = [] ∧
    (let p : Preempt := { id := 3, root := 0, todo := [7, 9], only := true, slice := true };
      (preempting p).preempts.find? (fun p => !p.todo.isEmpty) = some p ∧ p.todo = 7 :: [9] ∧
      (preempting p).exchanging 7 = false ∧ ((preempting p).ctx ((preempting p).assignee 7)).lost = false) ∧
    (let s := family { child1 with expl := true, run := true } (cop 0x48 [1]);
      s.ctxLive 1 = true ∧ (s.ctx 1).exhausted = true ∧ (s.ctx 1).run = true) := by
  and_intros <;> decide +kernel

/-- A save of quay 0 to section 0 of context 1, or its restore. -/
def save1 (restore : Bool) : SaveOp :=
  { ctx := 1, quay := 0, sect := 0, restore := restore, frags := if restore then [] else [(0, [1, 2])] }

/-- A state with it, where the header of the save area says that section 0 holds state. -/
def savingAs (v : SaveOp) : State :=
  { family { child1 with run := true } (cop 0x48 [1]) with mem := Mem.writeN mem0 0x1000010 [1], saves := [v] }

/-- The same for the save or restore that has not begun. -/
def saving (restore : Bool) : State := savingAs (save1 restore)

/-- A state with a hand-over at a phase. -/
def handing (phase : Nat) : State :=
  { family child1 (cop 0x28 [1]) with handovers := [{ quay := 0, old := 0, new := 1, phase := phase }] }

theorem witness_SavesAndHandoversComplete :
    ((saving false).saves[0]? = some (save1 false) ∧ (saving false).saveStopped (save1 false) = false ∧
      (firstChunk (save1 false).frags).2 = [] ∧ (save1 false).bad = [] ∧
      (saving false).badWrite (((saving false).ctx 1).save + sectOff 0) (firstChunk (save1 false).frags).1 = none) ∧
    (let v := { save1 false with frags := [(0, [1, 2]), (4096, [3])] };
      (savingAs v).saves[0]? = some v ∧ (firstChunk v.frags).2 = [(4096, [3])]) ∧
    (let v := { save1 false with bad := [128] }; (savingAs v).saves[0]? = some v ∧ v.bad = 128 :: []) ∧
    (let s : State := { saving false with upsets := [.memory (0x1001000 / 128) false] };
      s.badWrite ((s.ctx 1).save + sectOff 0) (firstChunk (save1 false).frags).1 = some (0x1001000 / 128)) ∧
    ((saving true).saves[0]? = some (save1 true) ∧ (save1 true).restore = true ∧
      (saving true).saveStopped (save1 true) = false ∧ (saving true).areaPending ((saving true).ctx 1) = false ∧
      (saving true).runs 1 9 = true ∧ (save1 true).begun = false ∧ (saving true).holdsSect ((saving true).ctx 1) 0 = true) ∧
    (let v := { save1 true with begun := true, chunks := [(0, 64)] }; let s := savingAs v;
      let ask := s.areaOwned ((s.ctx 1).save + sectOff 0 + 0) 64;
      s.saves[0]? = some v ∧ s.handovers = [] ∧ (firstChunk v.chunks).1 = [(0, 64)] ∧ ask.1 = true ∧
      (ask.2.charge (meterQuay 0) 1 15 64).areaPoison ((s.ctx 1).save + sectOff 0 + 0) 64 = []) ∧
    (let v := { save1 true with begun := true, frags := [(0xA0, List.replicate 512 1)] }; let s := savingAs v;
      s.saves[0]? = some v ∧ v.chunks = [] ∧ s.handovers = [] ∧ s.quayBusy 0 = false ∧
      (leNat (v.read 0xA0 512)).testBit 0 = true) ∧
    ((handing 0).handovers[0]? = some { quay := 0, old := 0, new := 1, phase := 0 } ∧ (handing 0).groups = [] ∧
      (handing 0).ops = [] ∧ (handing 0).handoverWaits { quay := 0, old := 0, new := 1, phase := 0 } = false) ∧
    ((handing 1).handovers[0]? = some { quay := 0, old := 0, new := 1, phase := 1 } ∧ (handing 1).regions = [] ∧
      ((handing 1).ctx 0).slotOf 0 = none) ∧
    (let s : State := { saving true with handovers := [{ quay := 0, old := 1, new := 0, phase := 1 }],
                                         ctxs := [{ num := 0, run := true }, { child1 with qtab := [some 0] }] };
      s.handovers[0]? = some { quay := 0, old := 1, new := 0, phase := 1 } ∧ s.regions = [] ∧ s.ops = [] ∧
      (s.ctx 1).slotOf 0 = some 0 ∧ s.holdsSect (s.ctx 1) 0 = true) ∧
    (let s : State := { handing 1 with handovers := [{ quay := 0, old := 1, new := 0, phase := 1 }],
                                       ctxs := [{ num := 0 }, { child1 with qtab := [some 0] }] };
      (s.ctx 1).slotOf 0 = some 0 ∧ s.holdsSect (s.ctx 1) 0 = false) ∧
    ((handing 2).handovers[0]? = some { quay := 0, old := 0, new := 1, phase := 2 } ∧ (handing 2).saves = []) ∧
    (handing 3).handovers[0]? = some { quay := 0, old := 0, new := 1, phase := 3 } := by
  and_intros <;> decide +kernel

theorem witness_TicksPowerAndHeat :
    (let s : State := { State.reset with clock := tickCycles }; tickCycles * (s.dev.ticks + 1) ≤ s.clock) ∧
    State.reset.clock < tickCycles * (State.reset.dev.ticks + 1) ∧
    (let s := family { child1 with expl := true, remain := 9 } (cop 0x48 [1]);
      s.ctxLive 1 = true ∧ (s.ctx 1).expl = true ∧ s.ctxLive 0 = true ∧ (s.ctx 0).expl = false) ∧
    (3000000 : Nat) < 3000001 ∧ (2899999 : Nat) < 2900000 ∧ State.reset.dev.hot = [] ∧
    (2900000 : Nat) ≤ 3000000 ∧ (89 : Nat) < 90 ∧ ([4] : List Nat).contains 3 = false ∧ (94 : Nat) < 95 ∧
    State.reset.dev.tripped = false ∧ State.reset.preempts = [] ∧ State.reset.saves = [] ∧ (109 : Nat) < 110 := by
  and_intros <;> decide +kernel

theorem witness_ScrubAndLinksComplete :
    (let s : State := { State.reset with
        domain := { en := true, routes := [(3, 1#64 <<< 63)] }, clock := 50 * usCycles };
      s.peers.contains 3 = true ∧ kvGet 3 0 s.domain.lastFrame + 50 * usCycles ≤ s.clock) ∧
    (let s : State := { State.reset with clock := 100 * usCycles, sweeps := [{ page := 5, gen := 1, peers := [(3, 0)] }] };
      s.reachable 3 = false ∧ s.sweeps = [{ page := 5, gen := 1, peers := [(3, 0)] }] ∧ 0 + 100 * usCycles ≤ s.clock) := by
  and_intros <;> decide +kernel

/-- What is left of a boot that a step stops, with context 0. -/
def bootOf : Host.Outcome State Fault Refusal → Option (Nat × Nat × Bool)
  | .next u => some (u.dev.bootStep, u.dev.failStep, (u.ctx 0).run)
  | _ => none

/-- R454: a boot stopped at its first and at its last step. -/
theorem witness_ResetStateIsTheManuals : bootOf (exec (.powerOnReset 1) State.reset) = some (0, 1, false) ∧
    bootOf (exec (.powerOnReset 7) State.reset) = some (6, 7, false) := by
  decide +kernel

theorem witness_PowerOnResetBoots :
    bootOf (exec (.powerOnReset 0) State.reset) = some (7, 0, true) ∧ (1 : Nat) ≤ 1 ∧ (1 : Nat) ≤ 7 ∧ (7 : Nat) ≤ 7 := by
  decide +kernel

/-- A byte written over a listed one, and 0 written over it. -/
theorem witness_MemoryReadsWhatWasWritten : Mem.wf (Mem.write [] 5 7) = true ∧ Mem.read (Mem.write [] 5 7) 5 = 7 ∧
    Mem.write (Mem.write [] 5 7) 5 0 = [] ∧ Mem.wf (Mem.write (Mem.write [] 5 7) 4 1) = true ∧ (4 : Nat) ≠ 5 := by
  decide +kernel

theorem witness_MemoryStaysCanonical : Canonical State.reset ∧ Canonical booted ∧ ∃ t, step placed0 = .next t := by
  refine ⟨?_, ?_, ?_⟩
  · and_intros <;> decide +kernel
  · and_intros <;> decide +kernel
  · have h : (match step placed0 with | .next _ => true | _ => false) = true := by decide +kernel
    cases hs : step placed0 with
    | next t => exact ⟨t, rfl⟩
    | fault f => rw [hs] at h; cases h
    | refused r => rw [hs] at h; cases h

end Sys2Proof.Tests
end

/-! PROOFS. Integer, logic, compare, predicate and move forms (R204 to R219). -/

namespace Sys2Proof.Machine

open Sys2Proof.Safety

section

variable {i : Instr} {w : Fields} {v : PortVals} {s : State}

/-- A word that fires by `act`, where `act` emits `r`, gives `r`. -/
theorem gives_of_fire {act : PortVals → State → State} {r : Word} (hexec : exec i s = .next (s.fire i w act))
    (hact : act v (s.chargeFiring i) = (s.chargeFiring i).emitVal i w r) (hfires : Fires i w v s) : Gives i w s r := by
  unfold Gives
  rw [hexec, s.fire_of_fires i w v act hfires, hact]

/-- A word whose meaning is a value of its ports gives, when it fires, any `r` that value equals. -/
theorem gives_of_fireValue (f : PortVals → Word) {r : Word} (hexec : exec i s = .next (s.fireValue i w f)) (hr : f v = r)
    (hfires : Fires i w v s) : Gives i w s r :=
  gives_of_fire hexec (congrArg ((s.chargeFiring i).emitVal i w) hr) hfires

end

/-! ### Integer types and results (R41, R200, R205, R207) -/

theorem intLo_le_intHi (t : IntTy) : intLo t ≤ intHi t := by cases t <;> decide

theorem clampTo_eq_max_min (t : IntTy) (x : Int) : clampTo t x = max (intLo t) (min (intHi t) x) := by
  have hrange := intLo_le_intHi t
  unfold clampTo
  split_ifs <;> omega

theorem intResult_sub_pow (t : IntTy) (x : Int) : intResult t (x - ((2 ^ intWidth t : Nat) : Int)) = intResult t x := by
  simp only [intResult, Int.sub_emod_right]

theorem intOperand_n64 (v : Word) : intOperand .n64 v = v.toNat := by
  have hv : v.toNat % 2 ^ 64 = v.toNat := Nat.mod_eq_of_lt v.isLt
  simp only [intOperand, intSigned, intWidth, hv, Bool.false_and, Bool.false_eq_true, if_false]

theorem intResult_n64_toNat (x : Int) : (intResult .n64 x).toNat = (x % 2 ^ 64).toNat := by
  show (BitVec.ofNat 64 (x % ((2 ^ 64 : Nat) : Int)).toNat).toNat = _
  rw [BitVec.toNat_ofNat]
  omega

theorem iaddcVal_n64_toNat (a b g : Word) :
    (iaddcVal .n64 ⟨a, b, g⟩).toNat = (a.toNat + b.toNat + g.toNat % 2) / 2 ^ 64 := by
  have ha := a.isLt
  have hb := b.isLt
  simp only [iaddcVal, BitVec.toNat_ofNat]
  omega

/-! ### Quotient and remainder (R205) -/

theorem idivVal_zero (t : IntTy) (x : Int) : idivVal t x 0 = ((2 ^ intWidth t : Nat) : Int) - 1 := if_pos rfl

theorem iremVal_zero (t : IntTy) (x : Int) : iremVal t x 0 = x := if_pos rfl

/-- All ones are −1 in every type. -/
theorem intResult_idivVal_zero (t : IntTy) (x : Int) : intResult t (idivVal t x 0) = intResult t (-1) := by
  rw [idivVal_zero, ← intResult_sub_pow]
  congr 1
  omega

theorem idivVal_intLo_neg_one {t : IntTy} (hsigned : intSigned t = true) : idivVal t (intLo t) (-1) = intLo t := by
  simp [idivVal, hsigned]

theorem iremVal_intLo_neg_one {t : IntTy} (hsigned : intSigned t = true) : iremVal t (intLo t) (-1) = 0 := by
  simp [iremVal, hsigned]

section

variable {t : IntTy} {x y : Int} (hy : y ≠ 0) (hover : ¬(intSigned t = true ∧ x = intLo t ∧ y = -1))
include hy hover

theorem idivVal_eq_tdiv : idivVal t x y = x.tdiv y := by simp only [idivVal, if_neg hy, if_neg hover]

theorem iremVal_eq_tmod : iremVal t x y = x.tmod y := by
  simp only [iremVal, if_neg hy, if_neg hover]
  have h := Int.tdiv_mul_add_tmod x y
  omega

end

theorem natAbs_tmod_lt (x : Int) {y : Int} (hy : y ≠ 0) : (x.tmod y).natAbs < y.natAbs := by
  rw [Int.natAbs_tmod]
  exact Nat.mod_lt _ (Int.natAbs_pos.mpr hy)

theorem tmod_nonpos {x : Int} (y : Int) (hx : x ≤ 0) : x.tmod y ≤ 0 := by
  have h := Int.tmod_nonneg (a := -x) y (by omega)
  rw [Int.neg_tmod] at h
  omega

/-- Outside its two corners a division is exact, and its remainder is smaller than the divisor with the dividend's sign. -/
theorem idivVal_iremVal_spec {t : IntTy} {x y : Int} (hy : y ≠ 0)
    (hover : ¬(intSigned t = true ∧ x = intLo t ∧ y = -1)) :
    x = idivVal t x y * y + iremVal t x y ∧ (iremVal t x y).natAbs < y.natAbs ∧
      (0 ≤ x → 0 ≤ iremVal t x y) ∧ (x ≤ 0 → iremVal t x y ≤ 0) := by
  rw [idivVal_eq_tdiv hy hover, iremVal_eq_tmod hy hover]
  exact ⟨(Int.tdiv_mul_add_tmod x y).symm, natAbs_tmod_lt x hy, Int.tmod_nonneg y, tmod_nonpos y⟩

/-- The low words of two `iadd.n64` and the carry of `iaddc.n64` make the exact sum (R207). -/
theorem carried_sum_exact (a b g : Word) :
    (intResult .n64 (intOperand .n64 (intResult .n64 (intOperand .n64 a + intOperand .n64 b)) +
        ((g.toNat % 2 : Nat) : Int))).toNat + (iaddcVal .n64 ⟨a, b, g⟩).toNat * 2 ^ 64 =
      a.toNat + b.toNat + g.toNat % 2 := by
  simp only [intOperand_n64, intResult_n64_toNat, iaddcVal_n64_toNat]
  omega

/-- Settles O11: the corners of R205 by cases on the divisor, the rest from truncating division; the sum by its words. -/
theorem divisionAndCarryMean : Obligations.DivisionAndCarryMean := by
  unfold Obligations.DivisionAndCarryMean
  refine ⟨fun t x y _ _ _ _ => ⟨?divisorZero, ?overflow, idivVal_iremVal_spec⟩, carried_sum_exact⟩
  case divisorZero =>
    rintro rfl
    exact ⟨intResult_idivVal_zero t x, iremVal_zero t x⟩
  case overflow =>
    rintro hsigned rfl rfl
    exact ⟨idivVal_intLo_neg_one hsigned, iremVal_intLo_neg_one hsigned⟩

/-- Settles O10: each form is a value of its ports; only saturation is stated in other words than the model's. -/
theorem integerResults : Obligations.IntegerResults := by
  unfold Obligations.IntegerResults
  intro t g w v s
  exact ⟨gives_of_fireValue (int2 t (· + ·)) rfl rfl,
    gives_of_fireValue (int2 t (· - ·)) rfl rfl,
    gives_of_fireValue (int2 t (· * ·)) rfl rfl,
    gives_of_fireValue (int2 t fun x y => x * y / ((2 ^ intWidth t : Nat) : Int)) rfl rfl,
    gives_of_fireValue (fun v => intResult t (intOperand t v.a * intOperand t v.b + intOperand t v.g)) rfl rfl,
    gives_of_fireValue (int2 t (idivVal t)) rfl rfl,
    gives_of_fireValue (int2 t (iremVal t)) rfl rfl,
    gives_of_fireValue (fun v => intResult (sintTy g) (-intOperand (sintTy g) v.a)) rfl rfl,
    gives_of_fireValue (fun v => intResult (sintTy g) ((intOperand (sintTy g) v.a).natAbs : Int)) rfl rfl,
    gives_of_fireValue (int2 t min) rfl rfl,
    gives_of_fireValue (int2 t max) rfl rfl,
    fun u k => gives_of_fireValue (leaVal u k) rfl rfl,
    gives_of_fireValue (iaddcVal .n32) rfl rfl,
    gives_of_fireValue (iaddcVal .n64) rfl rfl,
    gives_of_fireValue (int2 t fun x y => clampTo t (x + y)) rfl (congrArg (intResult t) (clampTo_eq_max_min t _)),
    gives_of_fireValue (int2 t fun x y => clampTo t (x - y)) rfl (congrArg (intResult t) (clampTo_eq_max_min t _))⟩

/-- Settles O12: each form is a value of its ports, that of the statement. -/
theorem logicResults : Obligations.LogicResults := by
  unfold Obligations.LogicResults
  intro n w v s
  exact ⟨gives_of_fireValue (logic2 n (· &&& ·)) rfl rfl,
    gives_of_fireValue (logic2 n (· ||| ·)) rfl rfl,
    gives_of_fireValue (logic2 n (· ^^^ ·)) rfl rfl,
    gives_of_fireValue (logic2 n fun a b => a &&& ~~~b) rfl rfl,
    gives_of_fireValue (fun v => lowBits n (~~~v.a)) rfl rfl,
    gives_of_fireValue (shlVal n) rfl rfl,
    gives_of_fireValue (shrVal n) rfl rfl,
    gives_of_fireValue (sarVal n) rfl rfl,
    gives_of_fireValue (rotlVal n) rfl rfl,
    gives_of_fireValue (rotrVal n) rfl rfl,
    gives_of_fireValue (countVal n popcount) rfl rfl,
    gives_of_fireValue (countVal n leadingZeros) rfl rfl,
    gives_of_fireValue (countVal n trailingZeros) rfl rfl,
    gives_of_fireValue (countVal n reverseBits) rfl rfl,
    gives_of_fireValue (bfxVal n) rfl rfl,
    gives_of_fireValue (bfiVal n) rfl rfl,
    gives_of_fireValue (fun v => BitVec.ofNat 64 (bpermVal (widthBits n / 8) v (widthBits n / 8))) rfl rfl⟩

/-! ### Compares, predicates and moves (R213 to R219) -/

theorem bit1_decide (p : Prop) [Decidable p] : bit1 (decide p) = if p then 1 else 0 := by
  simp only [bit1, decide_eq_true_eq]

theorem bit1_not (b : Bool) : bit1 (!b) = if b then 0 else 1 := by cases b <;> rfl

theorem bit1_bne_zero (v : Word) : bit1 (v != 0) = if v = 0 then 0 else 1 := by
  rw [bne, bit1_not, beq_eq_decide]
  simp only [decide_eq_true_eq]

/-- An `icmp` gives 1 where the relation `p` that its condition stands for holds, else 0 (R213). -/
theorem icmp_gives (c : Cmp) {t : IntTy} {w : Fields} {v : PortVals} {s : State} (p : Prop) [Decidable p]
    (hc : cmpHolds c (intOperand t v.a) (intOperand t v.b) = decide p) (hfires : Fires (.icmp c t w) w v s) :
    Gives (.icmp c t w) w s (if p then 1 else 0) :=
  gives_of_fireValue (fun v => bit1 (cmpHolds c (intOperand t v.a) (intOperand t v.b))) rfl
    ((congrArg bit1 hc).trans (bit1_decide p)) hfires

/-- A special value does not depend on the meters. -/
theorem State.special_chargeFiring (s : State) (i : Instr) (sel : Nat) :
    (s.chargeFiring i).special sel = s.special sel := by
  rw [s.chargeFiring_only i]
  rfl

/-- `null` emits null, charged, whatever its guard (R218). -/
theorem exec_null_of_no_substitution {w : Fields} {s : State} (h : s.substitution = none) :
    exec (.null w) s = .next ((s.chargeFiring (.null w)).emitNull (.null w) w) := by
  show execNull w s = _
  simp only [execNull, h]

/-- A substitution held for a `null` is emitted in its place, uncharged (R372, log entry 82). -/
theorem exec_null_of_substitution {w : Fields} {s : State} {x : Word} (h : s.substitution = some x) :
    exec (.null w) s = .next (s.emitVal (.null w) w x) := by
  show execNull w s = _
  simp only [execNull, h]


/-- Settles O14: each form is a value of its ports, `sreg` a value of the state, and `null` emits by the substitution. -/
theorem comparePredicateAndMoveResults : Obligations.ComparePredicateAndMoveResults := by
  unfold Obligations.ComparePredicateAndMoveResults
  refine ⟨fun t n w v s => ?comparesAndPredicates, fun w v s => ?moves⟩
  case comparesAndPredicates =>
    exact ⟨icmp_gives .eq _ rfl, icmp_gives .ne _ rfl, icmp_gives .lt _ rfl,
      icmp_gives .le _ rfl, icmp_gives .gt _ rfl, icmp_gives .ge _ rfl,
      gives_of_fireValue (fun v => lowBits n (if v.g.getLsbD 0 then v.a else v.b)) rfl rfl,
      gives_of_fireValue (pred2 (· && ·)) rfl rfl,
      gives_of_fireValue (pred2 (· || ·)) rfl rfl,
      gives_of_fireValue (pred2 (· != ·)) rfl rfl,
      gives_of_fireValue (fun v => bit1 (!v.a.getLsbD 0)) rfl (bit1_not _),
      gives_of_fireValue (fun v => bit1 (v.a != 0)) rfl (bit1_bne_zero _),
      gives_of_fireValue (fun v => bit1 (v.a.getLsbD 0)) rfl rfl,
      gives_of_fireValue (fun v => v.a * 2 + bit1 (v.b.getLsbD 0)) rfl rfl⟩
  case moves =>
    exact ⟨gives_of_fireValue (·.a) rfl rfl,
      gives_of_fireValue (·.a) rfl rfl,
      gives_of_fireValue (fun v => (v.a <<< 20) + (v.b.extractLsb' 0 20).zeroExtend 64) rfl rfl,
      gives_of_fireValue (·.a) rfl rfl,
      exec_null_of_no_substitution,
      fun _ => exec_null_of_substitution,
      gives_of_fire (act := fun v u => u.emitVal (.sreg w) w (u.special v.a.toNat)) rfl
        (congrArg _ (s.special_chargeFiring (.sreg w) v.a.toNat))⟩

end Sys2Proof.Machine

namespace Sys2Proof.Machine
open Sys2Proof.Safety

/-! ### Encoding: each class and function code is read as the row that has it, and each row decodes from its codes -/

/-- The instruction is the one that a word of class `cls` and function `func` with fields `w` stands for. -/
def Reads (cls : BitVec 4) (func : BitVec 8) (w : Fields) (i : Instr) : Prop :=
  Instr.canonical i = i ∧ Instr.fields i = some w ∧
    (Instr.form i).map (fun f => (f.cls, f.func)) = some (cls, func)

theorem only_eq_some {v : BitVec 3} {i j : Instr} (h : only v i = some j) : v = 0 ∧ i = j := by
  unfold only at h
  split at h
  · next hv => exact ⟨hv, Option.some.inj h⟩
  · contradiction

section
variable {α : Type} {n : Nat} {cls : BitVec 4} {w : Fields} {i j : Instr}

/-- Where a code picks a variant of a row, and each variant has the code that picks it, the row's instruction is read. -/
theorem reads_of_map {v : BitVec n} {ofCode : BitVec n → Option α} {code : α → BitVec n}
    (hcode : ∀ {v a}, ofCode v = some a → code a = v) (func : BitVec n → BitVec 8) {g : α → Instr}
    (h : (ofCode v).map g = some i) (hg : ∀ a, Reads cls (func (code a)) w (g a)) : Reads cls (func v) w i := by
  obtain ⟨a, ha, rfl⟩ := Option.map_eq_some_iff.mp h
  exact hcode ha ▸ hg a

/-- As `reads_of_map`, where every code picks a variant. -/
theorem reads_of_total {v : BitVec n} {ofCode : BitVec n → α} {code : α → BitVec n} (hcode : ∀ v, code (ofCode v) = v)
    (func : BitVec n → BitVec 8) (g : α → Instr) (h : some (g (ofCode v)) = some i)
    (hg : ∀ a, Reads cls (func (code a)) w (g a)) : Reads cls (func v) w i := by
  obtain rfl := Option.some.inj h
  have hread := hg (ofCode v)
  rwa [hcode v] at hread

theorem reads_of_only {op : Nat} {v : BitVec 3} (h : only v j = some i) (hj : Reads cls (opVar op 0) w j) :
    Reads cls (opVar op v) w i := by
  obtain ⟨rfl, rfl⟩ := only_eq_some h
  exact hj

theorem reads_of_ite {c : Prop} [Decidable c] {func : BitVec 8} (h : (if c then some j else none) = some i)
    (hj : c → Reads cls func w j) : Reads cls func w i := by
  split at h
  · next hc => exact Option.some.inj h ▸ hj hc
  · contradiction

end

theorem IntTy.code_ofCode : ∀ v : BitVec 3, IntTy.code (IntTy.ofCode v) = v := by decide
theorem FCmp.code_ofCode : ∀ v : BitVec 3, FCmp.code (FCmp.ofCode v) = v := by decide
theorem Size.code_ofCode : ∀ v : BitVec 2, Size.code (Size.ofCode v) = v := by decide
theorem AtTy.code_ofCode : ∀ v : BitVec 2, AtTy.code (AtTy.ofCode v) = v := by decide
theorem SIntTy.code_of_ofCode : ∀ (v : BitVec 3) (t : SIntTy), SIntTy.ofCode v = some t → SIntTy.code t = v := by decide
theorem Width.code_of_ofCode : ∀ (v : BitVec 3) (t : Width), Width.ofCode v = some t → Width.code t = v := by decide
theorem RndLetter.code_of_ofCode : ∀ (v : BitVec 3) (t : RndLetter), RndLetter.ofCode v = some t → RndLetter.code t = v := by decide
theorem HalfFmt.code_of_ofCode : ∀ (v : BitVec 3) (t : HalfFmt), HalfFmt.ofCode v = some t → HalfFmt.code t = v := by decide
theorem CvtFmt.code_of_ofCode : ∀ (v : BitVec 4) (t : CvtFmt), CvtFmt.ofCode v = some t → CvtFmt.code t = v := by decide
theorem PackFmt.code_of_ofCode : ∀ (v : BitVec 4) (t : PackFmt), PackFmt.ofCode v = some t → PackFmt.code t = v := by decide
theorem Space.code_of_ofCode : ∀ (v : BitVec 3) (t : Space), Space.ofCode v = some t → Space.code t = v := by decide
theorem StSpace.code_of_ofCode : ∀ (v : BitVec 3) (t : StSpace), StSpace.ofCode v = some t → StSpace.code t = v := by decide
theorem AtSpace.code_of_ofCode : ∀ (v : BitVec 2) (t : AtSpace), AtSpace.ofCode v = some t → AtSpace.code t = v := by decide
theorem Width.atCode_of_ofAtCode : ∀ (v : BitVec 2) (t : Width), Width.ofAtCode v = some t → Width.atCode t = v := by decide
theorem GredTy.code_of_gredTy : ∀ (v : BitVec 3) (t : GredTy), gredTy v = some t → GredTy.code t = v := by decide
theorem CollTy.code_of_collTy : ∀ (v : BitVec 3) (t : CollTy), collTy v = some t → CollTy.code t = v := by decide

theorem decode0_reads {w : Fields} {i : Instr} {v : BitVec 3} : ∀ {op : Nat}, decode0 op v w = some i →
    Reads 0 (opVar op v) w i
  | 0, h | 1, h | 2, h | 3, h | 4, h | 5, h => reads_of_only h ⟨rfl, rfl, rfl⟩

theorem LeaTy.code_append (v : BitVec 3) :
    LeaTy.code (if v.extractLsb' 2 1 = 0 then .s32 else .n32) ++ v.extractLsb' 0 2 = v := by
  decide +revert

theorem decode1_reads {w : Fields} {i : Instr} {v : BitVec 3} : ∀ {op : Nat}, decode1 op v w = some i →
    Reads 1 (opVar op v) w i
  | 0, h => reads_of_total IntTy.code_ofCode (opVar 0) (.iadd · w) h fun _ => ⟨rfl, rfl, rfl⟩
  | 1, h => reads_of_total IntTy.code_ofCode (opVar 1) (.isub · w) h fun _ => ⟨rfl, rfl, rfl⟩
  | 2, h => reads_of_total IntTy.code_ofCode (opVar 2) (.imul · w) h fun _ => ⟨rfl, rfl, rfl⟩
  | 3, h => reads_of_total IntTy.code_ofCode (opVar 3) (.imulhi · w) h fun _ => ⟨rfl, rfl, rfl⟩
  | 4, h => reads_of_total IntTy.code_ofCode (opVar 4) (.imad · w) h fun _ => ⟨rfl, rfl, rfl⟩
  | 5, h => reads_of_total IntTy.code_ofCode (opVar 5) (.idiv · w) h fun _ => ⟨rfl, rfl, rfl⟩
  | 6, h => reads_of_total IntTy.code_ofCode (opVar 6) (.irem · w) h fun _ => ⟨rfl, rfl, rfl⟩
  | 7, h => reads_of_map (SIntTy.code_of_ofCode _ _) (opVar 7) h fun _ => ⟨rfl, rfl, rfl⟩
  | 8, h => reads_of_map (SIntTy.code_of_ofCode _ _) (opVar 8) h fun _ => ⟨rfl, rfl, rfl⟩
  | 9, h => reads_of_total IntTy.code_ofCode (opVar 9) (.imin · w) h fun _ => ⟨rfl, rfl, rfl⟩
  | 10, h => reads_of_total IntTy.code_ofCode (opVar 10) (.imax · w) h fun _ => ⟨rfl, rfl, rfl⟩
  | 11, h => by
    simp only [decode1, Option.some.injEq] at h
    subst h
    refine ⟨rfl, rfl, ?_⟩
    show some (1#4, opVar 11 (LeaTy.code (if v.extractLsb' 2 1 = 0 then .s32 else .n32) ++ v.extractLsb' 0 2)) = _
    rw [LeaTy.code_append]
    rfl
  | 12, h => by
    simp only [decode1] at h
    split at h
    · next hv => exact Option.some.inj h ▸ hv ▸ ⟨rfl, rfl, rfl⟩
    · exact reads_of_ite h fun hv => hv ▸ ⟨rfl, rfl, rfl⟩
  | 13, h => reads_of_total IntTy.code_ofCode (opVar 13) (.iaddSat · w) h fun _ => ⟨rfl, rfl, rfl⟩
  | 14, h => reads_of_total IntTy.code_ofCode (opVar 14) (.isubSat · w) h fun _ => ⟨rfl, rfl, rfl⟩

theorem decode2_reads {w : Fields} {i : Instr} {v : BitVec 3} : ∀ {op : Nat}, decode2 op v w = some i →
    Reads 2 (opVar op v) w i
  | 0, h => reads_of_map (Width.code_of_ofCode _ _) (opVar 0) h fun _ => ⟨rfl, rfl, rfl⟩
  | 1, h => reads_of_map (Width.code_of_ofCode _ _) (opVar 1) h fun _ => ⟨rfl, rfl, rfl⟩
  | 2, h => reads_of_map (Width.code_of_ofCode _ _) (opVar 2) h fun _ => ⟨rfl, rfl, rfl⟩
  | 3, h => reads_of_map (Width.code_of_ofCode _ _) (opVar 3) h fun _ => ⟨rfl, rfl, rfl⟩
  | 4, h => reads_of_map (Width.code_of_ofCode _ _) (opVar 4) h fun _ => ⟨rfl, rfl, rfl⟩
  | 5, h => reads_of_map (Width.code_of_ofCode _ _) (opVar 5) h fun _ => ⟨rfl, rfl, rfl⟩
  | 6, h => reads_of_map (Width.code_of_ofCode _ _) (opVar 6) h fun _ => ⟨rfl, rfl, rfl⟩
  | 7, h => reads_of_map (Width.code_of_ofCode _ _) (opVar 7) h fun _ => ⟨rfl, rfl, rfl⟩
  | 8, h => reads_of_map (Width.code_of_ofCode _ _) (opVar 8) h fun _ => ⟨rfl, rfl, rfl⟩
  | 9, h => reads_of_map (Width.code_of_ofCode _ _) (opVar 9) h fun _ => ⟨rfl, rfl, rfl⟩
  | 10, h => reads_of_map (Width.code_of_ofCode _ _) (opVar 10) h fun _ => ⟨rfl, rfl, rfl⟩
  | 11, h => reads_of_map (Width.code_of_ofCode _ _) (opVar 11) h fun _ => ⟨rfl, rfl, rfl⟩
  | 12, h => reads_of_map (Width.code_of_ofCode _ _) (opVar 12) h fun _ => ⟨rfl, rfl, rfl⟩
  | 13, h => reads_of_map (Width.code_of_ofCode _ _) (opVar 13) h fun _ => ⟨rfl, rfl, rfl⟩
  | 14, h => reads_of_map (Width.code_of_ofCode _ _) (opVar 14) h fun _ => ⟨rfl, rfl, rfl⟩
  | 15, h => reads_of_map (Width.code_of_ofCode _ _) (opVar 15) h fun _ => ⟨rfl, rfl, rfl⟩
  | 16, h => reads_of_map (Width.code_of_ofCode _ _) (opVar 16) h fun _ => ⟨rfl, rfl, rfl⟩
  | 17, h => reads_of_total IntTy.code_ofCode (opVar 17) (.icmp .eq · w) h fun _ => ⟨rfl, rfl, rfl⟩
  | 18, h => reads_of_total IntTy.code_ofCode (opVar 18) (.icmp .ne · w) h fun _ => ⟨rfl, rfl, rfl⟩
  | 19, h => reads_of_total IntTy.code_ofCode (opVar 19) (.icmp .lt · w) h fun _ => ⟨rfl, rfl, rfl⟩
  | 20, h => reads_of_total IntTy.code_ofCode (opVar 20) (.icmp .le · w) h fun _ => ⟨rfl, rfl, rfl⟩
  | 21, h => reads_of_total IntTy.code_ofCode (opVar 21) (.icmp .gt · w) h fun _ => ⟨rfl, rfl, rfl⟩
  | 22, h => reads_of_total IntTy.code_ofCode (opVar 22) (.icmp .ge · w) h fun _ => ⟨rfl, rfl, rfl⟩
  | 23, h => reads_of_map (Width.code_of_ofCode _ _) (opVar 23) h fun _ => ⟨rfl, rfl, rfl⟩
  | 24, h | 25, h | 26, h | 27, h | 28, h | 29, h | 30, h => reads_of_only h ⟨rfl, rfl, rfl⟩

theorem decode3_reads {w : Fields} {i : Instr} {v : BitVec 3} : ∀ {op : Nat}, decode3 op v w = some i →
    Reads 3 (opVar op v) w i
  | 0, h | 1, h | 2, h | 3, h | 4, h | 5, h | 6, h | 7, h => reads_of_only h ⟨rfl, rfl, rfl⟩
  | 8, h => reads_of_total FCmp.code_ofCode (opVar 8) (.fcmp · w) h fun _ => ⟨rfl, rfl, rfl⟩
  | 9, h | 10, h => reads_of_only h ⟨rfl, rfl, rfl⟩
  | 11, h => reads_of_map (RndLetter.code_of_ofCode _ _) (opVar 11) h fun _ => ⟨rfl, rfl, rfl⟩
  | 12, h | 13, h => reads_of_only h ⟨rfl, rfl, rfl⟩

theorem decode4_reads {w : Fields} {i : Instr} {v : BitVec 3} : ∀ {op : Nat}, decode4 op v w = some i →
    Reads 4 (opVar op v) w i
  | 0, h => reads_of_map (HalfFmt.code_of_ofCode _ _) (opVar 0) h fun _ => ⟨rfl, rfl, rfl⟩
  | 1, h => reads_of_map (HalfFmt.code_of_ofCode _ _) (opVar 1) h fun _ => ⟨rfl, rfl, rfl⟩
  | 2, h => reads_of_map (HalfFmt.code_of_ofCode _ _) (opVar 2) h fun _ => ⟨rfl, rfl, rfl⟩
  | 3, h => reads_of_map (HalfFmt.code_of_ofCode _ _) (opVar 3) h fun _ => ⟨rfl, rfl, rfl⟩
  | 4, h => reads_of_only h ⟨rfl, rfl, rfl⟩
  | 5, h => by
    simp only [decode4] at h
    split at h
    · next hv => exact Option.some.inj h ▸ hv ▸ ⟨rfl, rfl, rfl⟩
    · exact reads_of_ite h fun hv => hv ▸ ⟨rfl, rfl, rfl⟩

theorem decode5_reads {w : Fields} {i : Instr} {dst src : BitVec 4} (h : decode5 dst src w = some i) :
    Reads 5 (dst ++ src) w i := by
  unfold decode5 at h
  split at h
  case isTrue hd => exact hd ▸ reads_of_map (PackFmt.code_of_ofCode _ _) (0xE#4 ++ ·) h fun _ => ⟨rfl, rfl, rfl⟩
  split at h
  case isTrue hd => exact hd ▸ reads_of_map (PackFmt.code_of_ofCode _ _) (0xF#4 ++ ·) h fun _ => ⟨rfl, rfl, rfl⟩
  split at h
  case isTrue hd => exact Option.some.inj h ▸ hd.1 ▸ hd.2 ▸ ⟨rfl, rfl, rfl⟩
  split at h
  case isTrue hd => exact Option.some.inj h ▸ hd.1 ▸ hd.2 ▸ ⟨rfl, rfl, rfl⟩
  split at h
  case isTrue => contradiction
  split at h
  case h_1 d s hd hs =>
    rw [← CvtFmt.code_of_ofCode _ _ hd, ← CvtFmt.code_of_ofCode _ _ hs]
    exact Option.some.inj h ▸ ⟨rfl, rfl, rfl⟩
  case h_2 => contradiction

theorem decode6_reads {w : Fields} {i : Instr} {v : BitVec 3} : ∀ {op : Nat}, decode6 op v w = some i →
    Reads 6 (opVar op v) w i
  | 0, h | 1, h | 2, h | 3, h | 4, h | 5, h | 6, h | 7, h | 8, h => reads_of_only h ⟨rfl, rfl, rfl⟩

theorem decode7_reads {w : Fields} {i : Instr} {v : BitVec 3} : ∀ {op : Nat}, decode7 op v w = some i →
    Reads 7 (opVar op v) w i
  | 0, h | 1, h | 2, h | 3, h | 4, h | 5, h => reads_of_only h ⟨rfl, rfl, rfl⟩

theorem unsignedLd_code : ∀ sz : BitVec 2, LdTy.code (unsignedLd sz) = (0, sz) := by decide
theorem signedLd_code : ∀ (sz : BitVec 2) (t : LdTy), signedLd sz = some t → LdTy.code t = (1, sz) := by decide

theorem decode8_reads {w : Fields} {i : Instr} {op sp : BitVec 3} {sz : BitVec 2} (h : decode8 op sp sz w = some i) :
    Reads 8 (func8 op sp sz) w i := by
  obtain ⟨n, rfl⟩ : ∃ n : Fin 8, op = BitVec.ofFin n := ⟨op.toFin, rfl⟩
  match n with
  | 0 =>
    refine reads_of_map (Space.code_of_ofCode _ _) (func8 0 · sz) (g := (.ld (unsignedLd sz) · w)) h fun sp => ⟨rfl, rfl, ?_⟩
    show some (8#4, func8 (LdTy.code (unsignedLd sz)).1 (Space.code sp) (LdTy.code (unsignedLd sz)).2) = _
    rw [unsignedLd_code]
    rfl
  | 1 =>
    change (match signedLd sz with | some t => (Space.ofCode sp).map (Instr.ld t · w) | none => none) = some i at h
    split at h
    case h_1 t ht =>
      refine reads_of_map (Space.code_of_ofCode _ _) (func8 1 · sz) h fun sp => ⟨rfl, rfl, ?_⟩
      show some (8#4, func8 (LdTy.code t).1 (Space.code sp) (LdTy.code t).2) = _
      rw [signedLd_code sz t ht]
      rfl
    case h_2 => contradiction
  | 2 =>
    refine reads_of_map (StSpace.code_of_ofCode _ _) (func8 2 · sz) (g := (.st (Size.ofCode sz) · w)) h fun sp => ⟨rfl, rfl, ?_⟩
    show some (8#4, func8 2 (StSpace.code sp) (Size.code (Size.ofCode sz))) = _
    rw [Size.code_ofCode]
    rfl
  | 3 =>
    obtain ⟨rfl, h⟩ := Option.ite_none_right_eq_some.mp h
    exact reads_of_map (Space.code_of_ofCode _ _) (func8 3 · 0) h fun _ => ⟨rfl, rfl, rfl⟩
  | 4 =>
    obtain ⟨rfl, h⟩ := Option.ite_none_right_eq_some.mp h
    exact reads_of_map (StSpace.code_of_ofCode _ _) (func8 4 · 0) h fun _ => ⟨rfl, rfl, rfl⟩
  | 5 =>
    obtain ⟨rfl, h⟩ := Option.ite_none_right_eq_some.mp h
    exact reads_of_total Size.code_ofCode (func8 5 0 ·) (.ldNc · w) h fun _ => ⟨rfl, rfl, rfl⟩
  | 6 =>
    obtain ⟨⟨rfl, rfl⟩, h⟩ := Option.ite_none_right_eq_some.mp h
    exact Option.some.inj h ▸ ⟨rfl, rfl, rfl⟩
  | 7 => exact nomatch h

section
variable {w : Fields} {i : Instr} {sp ty : BitVec 2}

/-- The rows of class 0x9 that have each of the integer types. -/
theorem reads_of_atTy (op : BitVec 4) (g : AtTy → AtSpace → Instr) (h : (AtSpace.ofCode sp).map (g (AtTy.ofCode ty)) = some i)
    (hg : ∀ t a, Reads 9 (func9 op (AtSpace.code a) (AtTy.code t)) w (g t a)) : Reads 9 (func9 op sp ty) w i :=
  reads_of_map (AtSpace.code_of_ofCode _ _) (func9 op · ty) h fun a => by
    have hread := hg (AtTy.ofCode ty) a
    rwa [AtTy.code_ofCode] at hread

/-- The rows of class 0x9 that have each of the two widths. -/
theorem reads_of_atWidth (op : BitVec 4) (g : Width → AtSpace → Instr)
    (h : (match Width.ofAtCode ty with | some n => (AtSpace.ofCode sp).map (g n) | none => none) = some i)
    (hg : ∀ n a, Reads 9 (func9 op (AtSpace.code a) (Width.atCode n)) w (g n a)) : Reads 9 (func9 op sp ty) w i := by
  split at h
  case h_1 n hn =>
    rw [← Width.atCode_of_ofAtCode _ _ hn]
    exact reads_of_map (AtSpace.code_of_ofCode _ _) (func9 op · _) h (hg n)
  case h_2 => contradiction

theorem decode9_reads {op : BitVec 4} (h : decode9 op sp ty w = some i) : Reads 9 (func9 op sp ty) w i := by
  obtain ⟨n, rfl⟩ : ∃ n : Fin 16, op = BitVec.ofFin n := ⟨op.toFin, rfl⟩
  match n with
  | 0 => exact reads_of_atTy 0 (.atomAdd · · w) h fun _ _ => ⟨rfl, rfl, rfl⟩
  | 1 => exact reads_of_atTy 1 (.atomSub · · w) h fun _ _ => ⟨rfl, rfl, rfl⟩
  | 2 => exact reads_of_atTy 2 (.atomMin · · w) h fun _ _ => ⟨rfl, rfl, rfl⟩
  | 3 => exact reads_of_atTy 3 (.atomMax · · w) h fun _ _ => ⟨rfl, rfl, rfl⟩
  | 8 => exact reads_of_atTy 8 (.atomInc · · w) h fun _ _ => ⟨rfl, rfl, rfl⟩
  | 9 => exact reads_of_atTy 9 (.atomDec · · w) h fun _ _ => ⟨rfl, rfl, rfl⟩
  | 4 => exact reads_of_atWidth 4 (.atomAnd · · w) h fun _ _ => ⟨rfl, rfl, rfl⟩
  | 5 => exact reads_of_atWidth 5 (.atomOr · · w) h fun _ _ => ⟨rfl, rfl, rfl⟩
  | 6 => exact reads_of_atWidth 6 (.atomXor · · w) h fun _ _ => ⟨rfl, rfl, rfl⟩
  | 7 => exact reads_of_atWidth 7 (.atomExch · · w) h fun _ _ => ⟨rfl, rfl, rfl⟩
  | 10 =>
    obtain ⟨rfl, h⟩ := Option.ite_none_right_eq_some.mp h
    exact reads_of_map (AtSpace.code_of_ofCode _ _) (func9 10 · 0) h fun _ => ⟨rfl, rfl, rfl⟩
  | 11 =>
    obtain ⟨rfl, h⟩ := Option.ite_none_right_eq_some.mp h
    exact reads_of_map (AtSpace.code_of_ofCode _ _) (func9 11 · 0) h fun _ => ⟨rfl, rfl, rfl⟩
  | 12 =>
    change (if ty = 1 then _ else _) = _ at h
    split at h
    case isTrue hty => exact hty ▸ reads_of_map (AtSpace.code_of_ofCode _ _) (func9 12 · 1) h fun _ => ⟨rfl, rfl, rfl⟩
    case isFalse => exact reads_of_atWidth 12 (.cas · · w) h fun _ _ => ⟨rfl, rfl, rfl⟩
  | 13 =>
    obtain ⟨⟨rfl, rfl⟩, h⟩ := Option.ite_none_right_eq_some.mp h
    exact Option.some.inj h ▸ ⟨rfl, rfl, rfl⟩
  | 14 | 15 => exact nomatch h

end

theorem decodeA_reads {w : Fields} {i : Instr} {v : BitVec 3} : ∀ {op : Nat}, decodeA op v w = some i →
    Reads 0xA (opVar op v) w i
  | 0, h | 1, h | 2, h | 3, h | 4, h | 5, h | 6, h => reads_of_only h ⟨rfl, rfl, rfl⟩
  | 7, h => reads_of_map (GredTy.code_of_gredTy _ _) (opVar 7) h fun _ => ⟨rfl, rfl, rfl⟩
  | 8, h => reads_of_map (GredTy.code_of_gredTy _ _) (opVar 8) h fun _ => ⟨rfl, rfl, rfl⟩
  | 9, h => reads_of_map (GredTy.code_of_gredTy _ _) (opVar 9) h fun _ => ⟨rfl, rfl, rfl⟩

theorem decodeB_reads {w : Fields} {i : Instr} {v : BitVec 3} : ∀ {op : Nat}, decodeB op v w = some i →
    Reads 0xB (opVar op v) w i
  | 0, h | 1, h | 2, h | 3, h | 4, h | 5, h | 6, h | 7, h | 8, h | 9, h => reads_of_only h ⟨rfl, rfl, rfl⟩
  | 10, h => reads_of_map (CollTy.code_of_collTy _ _) (opVar 10) h fun _ => ⟨rfl, rfl, rfl⟩
  | 11, h => reads_of_map (CollTy.code_of_collTy _ _) (opVar 11) h fun _ => ⟨rfl, rfl, rfl⟩
  | 12, h | 13, h => reads_of_ite h fun hv => hv ▸ ⟨rfl, rfl, rfl⟩
  | 14, h | 15, h | 16, h | 17, h | 18, h => reads_of_only h ⟨rfl, rfl, rfl⟩

theorem decodeC_reads {w : Fields} {i : Instr} {v : BitVec 3} : ∀ {op : Nat}, decodeC op v w = some i →
    Reads 0xC (opVar op v) w i
  | 0, h | 1, h | 2, h | 3, h => reads_of_only h ⟨rfl, rfl, rfl⟩

theorem decodeD_reads {w : Fields} {i : Instr} {v : BitVec 3} : ∀ {op : Nat}, decodeD op v w = some i →
    Reads 0xD (opVar op v) w i
  | 0, h | 1, h | 2, h | 3, h | 4, h | 5, h | 6, h | 7, h | 8, h | 9, h | 10, h | 11, h | 12, h | 13, h | 14, h | 15, h | 16, h | 17, h | 18, h => reads_of_only h ⟨rfl, rfl, rfl⟩

theorem opVar_extract : ∀ func : BitVec 8, opVar (func.extractLsb' 3 5).toNat (func.extractLsb' 0 3) = func := by decide
theorem append_nibbles : ∀ func : BitVec 8, func.extractLsb' 4 4 ++ func.extractLsb' 0 4 = func := by decide
theorem func8_extract : ∀ func : BitVec 8,
    func8 (func.extractLsb' 5 3) (func.extractLsb' 2 3) (func.extractLsb' 0 2) = func := by decide
theorem func9_extract : ∀ func : BitVec 8,
    func9 (func.extractLsb' 4 4) (func.extractLsb' 2 2) (func.extractLsb' 0 2) = func := by decide

/-- What the decoder reads from a class and a function code is the row that has them. -/
theorem decodeOp_reads {cls : BitVec 4} {func : BitVec 8} {w : Fields} {i : Instr} (h : decodeOp cls func w = .ok i) :
    Reads cls func w i := by
  obtain ⟨n, rfl⟩ : ∃ n : Fin 16, cls = BitVec.ofFin n := ⟨cls.toFin, rfl⟩
  simp only [decodeOp] at h
  split at h
  case isTrue => contradiction
  split at h
  case isTrue => contradiction
  split at h
  case h_2 => contradiction
  case h_1 j hread =>
    obtain rfl := Except.ok.inj h
    match n with
    | 0 => exact opVar_extract func ▸ decode0_reads hread
    | 1 => exact opVar_extract func ▸ decode1_reads hread
    | 2 => exact opVar_extract func ▸ decode2_reads hread
    | 3 => exact opVar_extract func ▸ decode3_reads hread
    | 4 => exact opVar_extract func ▸ decode4_reads hread
    | 5 => exact append_nibbles func ▸ decode5_reads hread
    | 6 => exact opVar_extract func ▸ decode6_reads hread
    | 7 => exact opVar_extract func ▸ decode7_reads hread
    | 8 => exact func8_extract func ▸ decode8_reads hread
    | 9 => exact func9_extract func ▸ decode9_reads hread
    | 10 => exact opVar_extract func ▸ decodeA_reads hread
    | 11 => exact opVar_extract func ▸ decodeB_reads hread
    | 12 => exact opVar_extract func ▸ decodeC_reads hread
    | 13 => exact opVar_extract func ▸ decodeD_reads hread
    | 14 | 15 => exact nomatch hread

/-- The class and function code of a row's form, with its fields, decode to the row. -/
def DecodesBack (i : Instr) : Prop :=
  ∀ f ∈ Instr.form i, ∀ w ∈ Instr.fields i, decodeOp f.cls f.func w = .ok i

theorem decodesBack_of {i : Instr} {f : Form} {w : Fields} (hf : Instr.form i = some f) (hw : Instr.fields i = some w)
    (h : decodeOp f.cls f.func w = .ok i) : DecodesBack i := by
  intro f' hf' w' hw'
  rwa [← Option.mem_unique hf hf', ← Option.mem_unique hw hw']

theorem CvtFmt.ofCode_code (d : CvtFmt) : CvtFmt.ofCode (CvtFmt.code d) = some d := by cases d <;> rfl

theorem CvtFmt.code_ne (d : CvtFmt) : CvtFmt.code d ≠ 0xD ∧ CvtFmt.code d ≠ 0xE ∧ CvtFmt.code d ≠ 0xF := by
  cases d <;> decide

theorem extract_append_nibbles (a b : BitVec 4) : (a ++ b).extractLsb' 4 4 = a ∧ (a ++ b).extractLsb' 0 4 = b :=
  ⟨BitVec.extractLsb'_append_eq_left, BitVec.extractLsb'_append_eq_right⟩

theorem decodeOp_of_decode5 {func : BitVec 8} {w : Fields} {i : Instr}
    (h : decode5 (func.extractLsb' 4 4) (func.extractLsb' 0 4) w = some i) : decodeOp 5 func w = .ok i := by
  show (match decode5 (func.extractLsb' 4 4) (func.extractLsb' 0 4) w with
    | some i => Except.ok i
    | none => Except.error (DecodeError.unassigned 5 func)) = .ok i
  rw [h]

theorem decodesBack_cvt {d s : CvtFmt} (w : Fields) (hne : d ≠ s) : DecodesBack (.cvt d s w) := by
  have hcode : CvtFmt.code d ≠ CvtFmt.code s := fun h =>
    hne (Option.some.inj ((CvtFmt.ofCode_code d).symm.trans (h ▸ CvtFmt.ofCode_code s)))
  obtain ⟨hdD, hdE, hdF⟩ := CvtFmt.code_ne d
  obtain ⟨hsD, -, -⟩ := CvtFmt.code_ne s
  refine decodesBack_of rfl rfl ?_
  have hread : decode5 (CvtFmt.code d) (CvtFmt.code s) w = some (.cvt d s w) := by
    simp only [decode5, hdD, hdE, hdF, hsD, hcode, CvtFmt.ofCode_code, and_false, false_and, if_false]
  obtain ⟨hhigh, hlow⟩ := extract_append_nibbles (CvtFmt.code d) (CvtFmt.code s)
  exact decodeOp_of_decode5 (func := CvtFmt.code d ++ CvtFmt.code s) (by rw [hhigh, hlow, hread])

theorem decodesBack_of_canonical (i : Instr) (hcanonical : Instr.canonical i = i) (hextra : Instr.extraOk i = true) :
    DecodesBack i := by
  cases i with
  | pgreqAckRefuse w => exact nomatch hcanonical
  | iadd t w | isub t w | imul t w | imulhi t w | imad t w | idiv t w | irem t w | imin t w | imax t w
  | iaddSat t w | isubSat t w => exact decodesBack_of rfl rfl (by cases t <;> rfl)
  | ineg t w | iabs t w => exact decodesBack_of rfl rfl (by cases t <;> rfl)
  | lea t sc w =>
    obtain ⟨k, rfl⟩ : ∃ k : Fin 4, sc = BitVec.ofFin k := ⟨sc.toFin, rfl⟩
    exact decodesBack_of rfl rfl (by cases t <;> fin_cases k <;> rfl)
  | iaddc t w => exact decodesBack_of rfl rfl (by cases t <;> rfl)
  | and n w | or n w | xor n w | andn n w | not n w | shl n w | shr n w | sar n w | rotl n w | rotr n w | popc n w
  | clz n w | ctz n w | brev n w | bfx n w | bfi n w | bperm n w | isel n w =>
    exact decodesBack_of rfl rfl (by cases n <;> rfl)
  | icmp c t w => exact decodesBack_of rfl rfl (by cases c <;> cases t <;> rfl)
  | fcmp c w => exact decodesBack_of rfl rfl (by cases c <;> rfl)
  | frnd mode w => exact decodesBack_of rfl rfl (by cases mode <;> rfl)
  | hadd2 t w | hmul2 t w | hfma2 t w | dot2 t w => exact decodesBack_of rfl rfl (by cases t <;> rfl)
  | dotds t w => exact decodesBack_of rfl rfl (by cases t <;> rfl)
  | cvt dst src w => exact decodesBack_cvt w (by simpa [Instr.extraOk] using hextra)
  | pack2 t w | unpack2 t w => exact decodesBack_of rfl rfl (by cases t <;> rfl)
  | ld t sp w => exact decodesBack_of rfl rfl (by cases t <;> cases sp <;> rfl)
  | st n sp w => exact decodesBack_of rfl rfl (by cases n <;> cases sp <;> rfl)
  | ldv sp w => exact decodesBack_of rfl rfl (by cases sp <;> rfl)
  | stv sp w => exact decodesBack_of rfl rfl (by cases sp <;> rfl)
  | ldNc n w => exact decodesBack_of rfl rfl (by cases n <;> rfl)
  | atomAdd t sp w | atomSub t sp w | atomMin t sp w | atomMax t sp w | atomInc t sp w | atomDec t sp w =>
    exact decodesBack_of rfl rfl (by cases t <;> cases sp <;> rfl)
  | atomAnd n sp w | atomOr n sp w | atomXor n sp w | atomExch n sp w | cas n sp w =>
    exact decodesBack_of rfl rfl (by cases n <;> cases sp <;> rfl)
  | atomFaddF32 sp w | atomFadd2Bf16 sp w | casB128 sp w => exact decodesBack_of rfl rfl (by cases sp <;> rfl)
  | gredAdd t w | gredMin t w | gredMax t w => exact decodesBack_of rfl rfl (by cases t <;> rfl)
  | collAllred t w | collRedsc t w => exact decodesBack_of rfl rfl (by cases t <;> rfl)
  | ctxNew at' | ctxGiveQuays at' | ctxTakeQuays at' | ctxMap at' | ctxUnmap at' | ctxRun at' | ctxStop at'
  | enQuota at' | dlogStart at' | partChg at' =>
    cases at' with
    | fire w => exact decodesBack_of rfl rfl rfl
    | perform n => exact fun _ h => nomatch h
  | ctxGiveMemory at' | ctxGiveQueue at' | ctxGiveEnergy at' | ctxTakeMemory at' | ctxTakeQueue at'
  | ctxTakeEnergy at' | ctxUnmapRenewal at' | ctxStopEnd at' | ctxStopRelease at' | dlogStop at' =>
    cases at' with
    | fire w => exact nomatch hcanonical
    | perform n => exact fun _ h => nomatch h
  | cmdLaunch | cmdWait | waitReread | cmdSignalWrite | cmdSignalAdd | cmdCopyG2v | cmdCopyV2g | cmdCopyV2v
  | cmdCopyMc | cmdCollAllredBf16 | cmdCollAllredF32 | cmdCollRedscBf16 | cmdCollRedscF32 | cmdCollAllgath
  | cmdCollBcast | cmdFreeze | cmdThaw | queueWake | mrd | mwr | qpostMessage | ctxop | pgack | enread | attest
  | gets | getm | data | tok | inv | fwds | wb | put | collect | done | persistentRequest | preq | pact | pdone
  | pdeact | fdata | refuse | sweep | swack | uncachedAccess | remoteRequest | walkStart | walkComplete
  | pgreqAppend | translationExpiry | generationIncrement | planeChoose | blockConfigure | threadAdmit
  | blockResolve | commit | entryAged | coalesceHoldEnd | runOpenTimeout | drainTimeout | bollardWeightUpdate
  | bollardUncorrectable | storePerform | holdBreak | barrierArrival | coWaitWake | coWaitPoll | workgroupDispatch
  | workgroupComplete | launchComplete | copyChunkDone | scoreboardRetire | completionRaise | gatherRow
  | collChunkReduce | seqStep | mappedFill | vflushDone | vunmapDone | sealDone | unsealDone | freezePage
  | pageFrozen | thawPage | matrixQueueHead | endOfRow | nodeRelease | endOfOperation | fmtRegionEnable
  | fmtRegionDisable | fmtRegionBusyClear | netpolWrite | controlWindowWrite | contextOpDone | vaultHandover
  | preemptStopReached | preemptDrainLimit | preemptionComplete | saveChunk | restore | timeSliceEnd
  | lamplighterArrival | tick | exhaustionPreempt | powerWindow | thermalThrottle | thermalTrip | patrolScrub
  | linkFrame | flitRetransmit | keepalive | peerLost | swackTimeout | powerOnReset | blockPinned
  | malformedMessage => exact fun _ h => nomatch h
  | _ => exact decodesBack_of rfl rfl rfl

/-! ### Operand fields, guards and the fields of a word -/

theorem Port.ofCode_code (p : Port) : Port.ofCode (Port.code p) = some p := by cases p <;> rfl

theorem Port.code_of_ofCode : ∀ (v : BitVec 2) (p : Port), Port.ofCode v = some p → Port.code p = v := by decide

theorem extract_target_bits (i : BitVec 7) (p : Port) :
    let v := Operand.bits (.target i p)
    v.extractLsb' 20 2 = 1 ∧ v.extractLsb' 19 1 = 0 ∧ v.extractLsb' 12 7 = i ∧ v.extractLsb' 10 2 = Port.code p ∧
      v.extractLsb' 0 10 = 0 := by
  refine ⟨?_, ?_, ?_, ?_, ?_⟩ <;> change BitVec.extractLsb' (n := 2 + 1 + 7 + 2 + 10) _ _ _ = _ <;>
    simp (disch := decide) only [Operand.bits, BitVec.extractLsb'_append_eq_of_le, BitVec.extractLsb'_append_eq_of_add_le,
      BitVec.extractLsb'_eq_self, Nat.reduceSub] <;> rfl

theorem extract_slot_bits : ∀ k : BitVec 5,
    let v := Operand.bits (.slot k)
    v.extractLsb' 20 2 = 2 ∧ v.extractLsb' 5 15 = 0 ∧ v.extractLsb' 0 5 = k := by decide

theorem decodeOperand_bits (n : Nat) (o : Operand) : decodeOperand n (Operand.bits o) = .ok o := by
  cases o with
  | empty => rfl
  | target i p =>
    obtain ⟨hkind, hzero, hidx, hport, hlow⟩ := extract_target_bits i p
    simp only [decodeOperand, hkind, hzero, hidx, hport, hlow, Port.ofCode_code]
    rfl
  | slot k =>
    obtain ⟨hkind, hzero, hslot⟩ := extract_slot_bits k
    simp only [decodeOperand, hkind, hzero, hslot]
    rfl
  | imm v =>
    have hkind : (Operand.bits (.imm v)).extractLsb' 20 2 = 3 := BitVec.extractLsb'_append_eq_left
    have hval : (Operand.bits (.imm v)).extractLsb' 0 20 = v := BitVec.extractLsb'_append_eq_right
    simp only [decodeOperand, hkind, hval]
    rfl

theorem append_extract_operand (v : BitVec 22) :
    v.extractLsb' 20 2 ++ v.extractLsb' 0 20 = v ∧ v.extractLsb' 20 2 ++ v.extractLsb' 5 15 ++ v.extractLsb' 0 5 = v ∧
      v.extractLsb' 20 2 ++ v.extractLsb' 19 1 ++ v.extractLsb' 12 7 ++ v.extractLsb' 10 2 ++ v.extractLsb' 0 10 = v := by
  refine ⟨?_, ?_, ?_⟩ <;>
    simp (disch := decide) only [BitVec.extractLsb'_append_extractLsb'_eq_extractLsb', BitVec.extractLsb'_eq_self]

theorem eq_three_of_not_less : ∀ v : BitVec 2, (v.toNat = 0 → False) → (v.toNat = 1 → False) → (v.toNat = 2 → False) →
    v = 3 := by decide

theorem bits_of_decodeOperand {n : Nat} {v : BitVec 22} {o : Operand} (h : decodeOperand n v = .ok o) :
    Operand.bits o = v := by
  obtain ⟨himm, hslot, htarget⟩ := append_extract_operand v
  unfold decodeOperand at h
  split at h
  case h_1 hkind =>
    split at h
    case isTrue hzero =>
      obtain rfl := Except.ok.inj h
      rw [BitVec.eq_of_toNat_eq (x := v.extractLsb' 20 2) (y := 0) hkind, hzero] at himm
      exact himm
    case isFalse => contradiction
  case h_2 hkind =>
    split at h
    case isTrue hzero =>
      split at h
      case h_1 p hp =>
        obtain rfl := Except.ok.inj h
        rw [BitVec.eq_of_toNat_eq (x := v.extractLsb' 20 2) (y := 1) hkind, hzero.1, hzero.2,
          ← Port.code_of_ofCode _ _ hp] at htarget
        exact htarget
      case h_2 => contradiction
    case isFalse => contradiction
  case h_3 hkind =>
    split at h
    case isTrue hzero =>
      obtain rfl := Except.ok.inj h
      rw [BitVec.eq_of_toNat_eq (x := v.extractLsb' 20 2) (y := 2) hkind, hzero] at hslot
      exact hslot
    case isFalse => contradiction
  case h_4 h0 h1 h2 =>
    obtain rfl := Except.ok.inj h
    rw [eq_three_of_not_less (v.extractLsb' 20 2) h0 h1 h2] at himm
    exact himm

theorem decodeGuard_bits {g : Guard} (hg : Guard.predOk g = true) :
    decodeGuard (Guard.bits g).1 (Guard.bits g).2 = .ok g := by
  cases g with
  | none | port => rfl
  | ifTrue p | ifFalse p => exact if_pos (of_decide_eq_true hg)

theorem bits_of_decodeGuard {m : BitVec 2} {p : BitVec 6} {g : Guard} (h : decodeGuard m p = .ok g) :
    Guard.bits g = (m, p) ∧ Guard.predOk g = true := by
  unfold decodeGuard at h
  split at h <;> split at h
  case h_1.isTrue hm hp =>
    obtain rfl := Except.ok.inj h
    exact ⟨Prod.ext (BitVec.eq_of_toNat_eq hm.symm) hp.symm, rfl⟩
  case h_2.isTrue hm hp | h_3.isTrue hm hp =>
    obtain rfl := Except.ok.inj h
    exact ⟨Prod.ext (BitVec.eq_of_toNat_eq hm.symm) rfl, decide_eq_true hp⟩
  case h_4.isTrue h0 h1 h2 hp =>
    obtain rfl := Except.ok.inj h
    exact ⟨Prod.ext (eq_three_of_not_less m h0 h1 h2).symm hp.symm, rfl⟩
  all_goals contradiction

/-- The parts of ten bit strings in a row, by position. -/
theorem extract_append_ten (a : BitVec 4) (b : BitVec 8) (c : BitVec 2) (d : BitVec 6) (e : BitVec 2) (f g : BitVec 4)
    (x y z : BitVec 22) :
    let v := a ++ b ++ c ++ d ++ e ++ f ++ g ++ x ++ y ++ z
    v.extractLsb' 92 4 = a ∧ v.extractLsb' 84 8 = b ∧ v.extractLsb' 82 2 = c ∧ v.extractLsb' 76 6 = d ∧
      v.extractLsb' 74 2 = e ∧ v.extractLsb' 70 4 = f ∧ v.extractLsb' 66 4 = g ∧ v.extractLsb' 44 22 = x ∧
      v.extractLsb' 22 22 = y ∧ v.extractLsb' 0 22 = z := by
  refine ⟨?_, ?_, ?_, ?_, ?_, ?_, ?_, ?_, ?_, ?_⟩ <;>
    simp (disch := decide) only [BitVec.extractLsb'_append_eq_of_le, BitVec.extractLsb'_append_eq_of_add_le,
      BitVec.extractLsb'_eq_self, Nat.reduceSub]

theorem append_extract_ten (w : Word96) :
    w.extractLsb' 92 4 ++ w.extractLsb' 84 8 ++ w.extractLsb' 82 2 ++ w.extractLsb' 76 6 ++ w.extractLsb' 74 2 ++
      w.extractLsb' 70 4 ++ w.extractLsb' 66 4 ++ w.extractLsb' 44 22 ++ w.extractLsb' 22 22 ++ w.extractLsb' 0 22 = w := by
  simp (disch := decide) only [BitVec.extractLsb'_append_extractLsb'_eq_extractLsb', BitVec.extractLsb'_eq_self]

theorem encodeFields_parts (cls : BitVec 4) (func : BitVec 8) (w : Fields) :
    (encodeFields cls func w).extractLsb' 92 4 = cls ∧ (encodeFields cls func w).extractLsb' 84 8 = func ∧
      (Guard.predOk w.guard = true → decodeFields (encodeFields cls func w) = .ok w) := by
  obtain ⟨hcls, hfunc, hmode, hpred, hlat, hgrp, hres, h0, h1, h2⟩ := extract_append_ten cls func (Guard.bits w.guard).1
    (Guard.bits w.guard).2 w.lat w.grp 0 (Operand.bits w.f0) (Operand.bits w.f1) (Operand.bits w.f2)
  refine ⟨hcls, hfunc, fun hg => ?_⟩
  change (encodeFields cls func w).extractLsb' 82 2 = _ at hmode
  change (encodeFields cls func w).extractLsb' 76 6 = _ at hpred
  change (encodeFields cls func w).extractLsb' 74 2 = _ at hlat
  change (encodeFields cls func w).extractLsb' 70 4 = _ at hgrp
  change (encodeFields cls func w).extractLsb' 66 4 = _ at hres
  change (encodeFields cls func w).extractLsb' 44 22 = _ at h0
  change (encodeFields cls func w).extractLsb' 22 22 = _ at h1
  change (encodeFields cls func w).extractLsb' 0 22 = _ at h2
  simp only [decodeFields, hmode, hpred, hlat, hgrp, hres, h0, h1, h2, decodeGuard_bits hg, decodeOperand_bits]
  rfl

theorem encodeFields_of_decodeFields {v : Word96} {w : Fields} (h : decodeFields v = .ok w) :
    encodeFields (v.extractLsb' 92 4) (v.extractLsb' 84 8) w = v ∧ Guard.predOk w.guard = true := by
  unfold decodeFields at h
  split at h
  case isFalse => contradiction
  case isTrue hres =>
    split at h
    case h_1 g f0 f1 f2 hg h0 h1 h2 =>
      obtain rfl := Except.ok.inj h
      obtain ⟨hbits, hok⟩ := bits_of_decodeGuard hg
      refine ⟨?_, hok⟩
      simp only [encodeFields, hbits, bits_of_decodeOperand h0, bits_of_decodeOperand h1, bits_of_decodeOperand h2]
      have hparts := append_extract_ten v
      rw [hres] at hparts
      exact hparts
    all_goals contradiction

/-! ### The rules of a form -/

theorem checkForm_eq_ok {i j : Instr} (h : checkForm i = .ok j) :
    j = i ∧ ∃ f w, Instr.form i = some f ∧ Instr.fields i = some w ∧ guardPortOk f w = true ∧ immPlaceOk w = true ∧
      destOk f w = true ∧ f2Ok f w = true ∧ Instr.extraOk i = true := by
  unfold checkForm at h
  split at h
  case h_2 => contradiction
  case h_1 f w hf hw =>
    simp only [Bool.eq_false_iff] at h
    split at h <;> try contradiction
    split at h <;> try contradiction
    split at h <;> try contradiction
    split at h <;> try contradiction
    split at h <;> try contradiction
    next hguard himm hdest hf2 hextra =>
      exact ⟨(Except.ok.inj h).symm, f, w, hf, hw, not_not.mp hguard, not_not.mp himm, not_not.mp hdest, not_not.mp hf2,
        not_not.mp hextra⟩

theorem checkForm_of_ok {i : Instr} {f : Form} {w : Fields} (hf : Instr.form i = some f) (hw : Instr.fields i = some w)
    (hok : fieldsOk f w = true) (hextra : Instr.extraOk i = true) : checkForm i = .ok i := by
  simp only [fieldsOk, Bool.and_eq_true] at hok
  obtain ⟨⟨⟨⟨hpred, hguard⟩, himm⟩, hdest⟩, hf2⟩ := hok
  simp [checkForm, hf, hw, hguard, himm, hdest, hf2, hextra]

/-- The form and the fields of an instruction that has a word. -/
theorem encode_eq_some {i : Instr} {v : Word96} (h : Instr.encode i = some v) :
    ∃ f w, Instr.form i = some f ∧ Instr.fields i = some w ∧ encodeFields f.cls f.func w = v := by
  unfold Instr.encode at h
  split at h
  case h_1 f w hf hw => exact ⟨f, w, hf, hw, Option.some.inj h⟩
  case h_2 => contradiction

/-- Settles O1: each field of the word decodes to itself, and the class and function code to the row that has them. -/
theorem decodeEncodeAgree : Obligations.DecodeEncodeAgree := by
  unfold Obligations.DecodeEncodeAgree
  intro i v hcanonical hwf hencode
  obtain ⟨f, w, hf, hw, rfl⟩ := encode_eq_some hencode
  simp only [Instr.wf, hf, hw, Bool.and_eq_true] at hwf
  obtain ⟨hok, hextra⟩ := hwf
  have hpred : Guard.predOk w.guard = true := by
    simp only [fieldsOk, Bool.and_eq_true] at hok
    exact hok.1.1.1.1
  obtain ⟨hcls, hfunc, hfields⟩ := encodeFields_parts f.cls f.func w
  simp only [decodeWord, hfields hpred, hcls, hfunc, decodesBack_of_canonical i hcanonical hextra f hf w hw]
  exact checkForm_of_ok hf hw hok hextra

/-- Settles O2: the decoder reads a row that has the word's class and function code, and its fields from the word's own. -/
theorem decodedWordsEncodeBack : Obligations.DecodedWordsEncodeBack := by
  unfold Obligations.DecodedWordsEncodeBack
  intro v i h
  unfold decodeWord at h
  split at h
  case h_1 => contradiction
  case h_2 w hfields =>
    split at h
    case h_1 => contradiction
    case h_2 j hop =>
      obtain ⟨rfl, f, w', hf, hw, hguard, himm, hdest, hf2, hextra⟩ := checkForm_eq_ok h
      obtain ⟨hcanonical, hw', hcodes⟩ := decodeOp_reads hop
      obtain rfl := Option.some.inj (hw.symm.trans hw')
      obtain ⟨hencode, hpred⟩ := encodeFields_of_decodeFields hfields
      simp only [hf, Option.map_some, Option.some.injEq, Prod.mk.injEq] at hcodes
      refine ⟨?_, hcanonical, ?_⟩
      · simp [Instr.wf, hf, hw, fieldsOk, hpred, hguard, himm, hdest, hf2, hextra]
      · simp only [Instr.encode, hf, hw, hcodes.1, hcodes.2, hencode]

/-- Settles O3: the ten words are decoded, and no row has class 0xE or 0xF. -/
theorem encodedWordsDecode : Obligations.EncodedWordsDecode := by
  unfold Obligations.EncodedWordsDecode
  refine ⟨by decide, fun v hcls => ?_⟩
  unfold decodeWord
  split
  case h_1 e _ => exact ⟨e, rfl⟩
  case h_2 w _ =>
    rcases hcls with hcls | hcls
    · simp [hcls, decodeOp]
    · simp [hcls, decodeOp]

end Sys2Proof.Machine

namespace Sys2Proof.Machine
open Sys2Proof.Safety

/-! ### Memory in its one form -/

/-- An address below every listed one reads as an unlisted byte. -/
theorem Mem.read_of_above : ∀ (m : Mem) {b a : Nat}, Mem.above b m = true → a < b → Mem.read m a = 0
  | [], _, _, _, _ => rfl
  | (k, v) :: t, b, a, h, hlt => by
    simp only [Mem.above, Bool.and_eq_true, decide_eq_true_eq] at h
    obtain ⟨⟨hk, -⟩, ht⟩ := h
    rw [Mem.read, if_neg (by omega), Mem.read_of_above t ht (by omega)]

theorem Mem.read_write : ∀ (m : Mem) {b : Nat} (p q : Nat) (v : Byte), Mem.above b m = true →
    Mem.read (Mem.write m p v) q = if p = q then v else Mem.read m q
  | [], _, p, q, v, _ => by
    unfold Mem.write
    split <;> simp_all [Mem.read]
  | (k, w) :: t, b, p, q, v, h => by
    simp only [Mem.above, Bool.and_eq_true, decide_eq_true_eq] at h
    obtain ⟨⟨hk, -⟩, ht⟩ := h
    have hunlisted : p = q → p ≤ k → Mem.read t q = 0 := fun hpq hpk => Mem.read_of_above t ht (by omega)
    unfold Mem.write
    split
    case isTrue hlt => split <;> grind [Mem.read]
    case isFalse hge =>
      split
      case isTrue heq => split <;> grind [Mem.read]
      case isFalse hne =>
        have hrest := Mem.read_write t p q v ht
        grind [Mem.read]

/-- Memories in the one form that read alike are the same data: their first cells agree, then their rests. -/
theorem Mem.eq_of_read : ∀ (m m' : Mem) {b : Nat}, Mem.above b m = true → Mem.above b m' = true →
    (∀ x, Mem.read m' x = Mem.read m x) → m' = m
  | [], [], _, _, _, _ => rfl
  | [], (k, v) :: t, b, _, h, heq => by
    simp only [Mem.above, Bool.and_eq_true, bne_iff_ne] at h
    have hk := heq k
    simp_all [Mem.read]
  | (k, v) :: t, [], b, h, _, heq => by
    simp only [Mem.above, Bool.and_eq_true, bne_iff_ne] at h
    have hk := heq k
    simp_all [Mem.read]
  | (k, v) :: t, (k', v') :: t', b, h, h', heq => by
    simp only [Mem.above, Bool.and_eq_true, bne_iff_ne, decide_eq_true_eq] at h h'
    obtain ⟨⟨hb, hv⟩, ht⟩ := h
    obtain ⟨⟨hb', hv'⟩, ht'⟩ := h'
    have hk := heq k
    have hk' := heq k'
    simp only [Mem.read, if_true] at hk hk'
    obtain rfl : k' = k := by
      rcases Nat.lt_trichotomy k k' with hlt | heq | hlt
      · exact absurd (Mem.read_of_above t' ht' (a := k) (by omega)) (by grind)
      · exact heq.symm
      · exact absurd (Mem.read_of_above t ht (a := k') (by omega)) (by grind)
    have hrest : t' = t := Mem.eq_of_read t t' ht ht' fun x => by
      rcases Nat.lt_or_ge x (k' + 1) with hlt | hge
      · rw [Mem.read_of_above t ht hlt, Mem.read_of_above t' ht' hlt]
      · have hx := heq x
        rwa [Mem.read, Mem.read, if_neg (by omega), if_neg (by omega)] at hx
    simp_all

/-- Settles O58: in the form, an address below the listed ones is unlisted, so reads decide the list. -/
theorem memoryReadsWhatWasWritten : Obligations.MemoryReadsWhatWasWritten := by
  unfold Obligations.MemoryReadsWhatWasWritten
  intro m p q v hwf
  refine ⟨?_, fun hne => ?_, Mem.wf_write m p v hwf, fun m' hwf' heq => Mem.eq_of_read m m' hwf hwf' heq⟩
  · rw [Mem.read_write m p p v hwf, if_pos rfl]
  · rw [Mem.read_write m p q v hwf, if_neg hne.symm]

end Sys2Proof.Machine

namespace Sys2Proof.Machine
open Sys2Proof.Safety

/-! ### The counts and the reversal of bits (R210) -/

theorem testBit_reverseBits (k : Nat) : ∀ x i : Nat, (reverseBits x k).testBit i = (decide (i < k) && x.testBit (k - 1 - i)) := by
  induction k with
  | zero => intro x i; simp [reverseBits]
  | succ k ih =>
    intro x i
    have hlow : reverseBits (x / 2) k < 2 ^ k := Nat.lt_pow_two_of_testBit _ fun j hj => by
      rw [ih, decide_eq_false (by omega), Bool.false_and]
    rw [reverseBits, Nat.mul_comm, Nat.testBit_two_pow_mul_add _ hlow, ih]
    split
    case isTrue hi =>
      rw [Nat.testBit_div_two]
      have hidx : k - 1 - i + 1 = k + 1 - 1 - i := by omega
      simp [hidx, hi, Nat.lt_succ_of_lt hi]
    case isFalse hi =>
      rcases Nat.eq_or_lt_of_not_lt hi with rfl | hlt
      · rcases Nat.mod_two_eq_zero_or_one x with h | h <;> simp [h, Nat.testBit_zero]
      · have htop : (x % 2).testBit (i - k) = false :=
          Nat.testBit_lt_two_pow (Nat.lt_of_lt_of_le (Nat.mod_lt x (by decide)) (Nat.le_self_pow (by omega) 2))
        simp [htop, show ¬i < k + 1 by omega]

theorem reverseBits_lt (x k : Nat) : reverseBits x k < 2 ^ k :=
  Nat.lt_pow_two_of_testBit _ fun i hi => by rw [testBit_reverseBits, decide_eq_false (by omega), Bool.false_and]

theorem reverseBits_reverseBits {x k : Nat} (hx : x < 2 ^ k) : reverseBits (reverseBits x k) k = x := by
  apply Nat.eq_of_testBit_eq
  intro i
  rw [testBit_reverseBits, testBit_reverseBits]
  by_cases hi : i < k
  · have hidx : k - 1 - (k - 1 - i) = i := by omega
    simp [hi, hidx, show k - 1 - i < k by omega]
  · simp [hi, Nat.testBit_lt_two_pow (Nat.lt_of_lt_of_le hx (Nat.pow_le_pow_right (by decide) (Nat.le_of_not_lt hi)))]

theorem popcount_eq_sum (k : Nat) : ∀ x : Nat, popcount x k = ∑ i ∈ Finset.range k, (x.testBit i).toNat := by
  induction k with
  | zero => intro x; rfl
  | succ k ih =>
    intro x
    rw [popcount, ih, Finset.sum_range_succ', Nat.add_comm]
    simp only [Nat.testBit_div_two, Nat.testBit_zero]
    rcases Nat.mod_two_eq_zero_or_one x with h | h <;> simp [h]

theorem popcount_reverseBits (x k : Nat) : popcount (reverseBits x k) k = popcount x k := by
  rw [popcount_eq_sum, popcount_eq_sum, ← Finset.sum_range_reflect]
  refine Finset.sum_congr rfl fun i hi => ?_
  have hlt := Finset.mem_range.mp hi
  have hidx : k - 1 - (k - 1 - i) = i := by omega
  simp [testBit_reverseBits, hidx, show k - 1 - i < k by omega]

/-- The count of trailing zeros divides the number by that power of two; below `k` it ends at a bit that is set. -/
theorem trailingZeros_spec (k : Nat) : ∀ x : Nat, x % 2 ^ trailingZeros x k = 0 ∧ trailingZeros x k ≤ k ∧
    (trailingZeros x k < k → x / 2 ^ trailingZeros x k % 2 = 1) ∧ (trailingZeros x k = k → x % 2 ^ k = 0) := by
  induction k with
  | zero => intro x; simp [trailingZeros, Nat.mod_one]
  | succ k ih =>
    intro x
    obtain ⟨hdvd, hle, hbit, hend⟩ := ih (x / 2)
    unfold trailingZeros
    split
    case isTrue hodd => simp [hodd, Nat.mod_one]
    case isFalse heven =>
      have hdouble : x = 2 * (x / 2) := by omega
      have hmod : ∀ n, x / 2 % 2 ^ n = 0 → x % 2 ^ (1 + n) = 0 := fun n hn => by
        rw [hdouble, Nat.pow_add, Nat.pow_one, Nat.mul_mod_mul_left, hn, Nat.mul_zero]
      refine ⟨hmod _ hdvd, by omega, fun hlt => ?_, fun heq => ?_⟩
      · rw [Nat.pow_add, Nat.pow_one, ← Nat.div_div_eq_div_mul]
        exact hbit (by omega)
      · rw [Nat.add_comm k 1]
        exact hmod _ (hend (by omega))

theorem trailingZeros_zero (k : Nat) : trailingZeros 0 k = k := by
  obtain ⟨-, hle, hbit, -⟩ := trailingZeros_spec k 0
  rcases Nat.eq_or_lt_of_le hle with heq | hlt
  · exact heq
  · simpa using hbit hlt

theorem trailingZeros_lt {x k : Nat} (hx : x < 2 ^ k) (hne : x ≠ 0) : trailingZeros x k < k := by
  obtain ⟨-, hle, -, hend⟩ := trailingZeros_spec k x
  refine Nat.lt_of_le_of_ne hle fun heq => hne ?_
  rw [← Nat.mod_eq_of_lt hx, hend heq]

theorem reverseBits_zero (k : Nat) : reverseBits 0 k = 0 := by
  apply Nat.eq_of_testBit_eq
  simp [testBit_reverseBits]

/-- The zeros counted from the top are clear bits, so that the number lies below the bit under them. -/
theorem lt_of_leadingZeros {x k : Nat} (hx : x < 2 ^ k) : x < 2 ^ (k - leadingZeros x k) := by
  obtain ⟨hdvd, -, -, -⟩ := trailingZeros_spec k (reverseBits x k)
  apply Nat.lt_pow_two_of_testBit
  intro i hi
  by_cases hik : i < k
  · have hclear : (reverseBits x k).testBit (k - 1 - i) = false := by
      have hlow := congrArg (·.testBit (k - 1 - i)) hdvd
      simp only [Nat.testBit_mod_two_pow, Nat.zero_testBit] at hlow
      rwa [decide_eq_true (show k - 1 - i < trailingZeros (reverseBits x k) k by unfold leadingZeros at hi; omega),
        Bool.true_and] at hlow
    rw [testBit_reverseBits, decide_eq_true (by omega), Bool.true_and] at hclear
    rwa [show k - 1 - (k - 1 - i) = i by omega] at hclear
  · exact Nat.testBit_lt_two_pow (Nat.lt_of_lt_of_le hx (Nat.pow_le_pow_right (by decide) (Nat.le_of_not_lt hik)))

theorem le_of_leadingZeros {x k : Nat} (hx : x < 2 ^ k) (hne : x ≠ 0) : 2 ^ (k - leadingZeros x k - 1) ≤ x := by
  have hrev : reverseBits x k ≠ 0 := fun h => hne (by rw [← reverseBits_reverseBits hx, h, reverseBits_zero])
  have hlt := trailingZeros_lt (reverseBits_lt x k) hrev
  obtain ⟨-, -, hbit, -⟩ := trailingZeros_spec k (reverseBits x k)
  have hset : (reverseBits x k).testBit (leadingZeros x k) = true := by
    rw [Nat.testBit_eq_decide_div_mod_eq]
    exact decide_eq_true (hbit hlt)
  rw [testBit_reverseBits, Bool.and_eq_true] at hset
  rw [Nat.sub_right_comm]
  exact Nat.ge_two_pow_of_testBit hset.2

/-- Settles O13: the reversal moves bit `i` to `k - 1 - i`; the counts end at a bit that is set. -/
theorem bitCountsMean : Obligations.BitCountsMean := by
  unfold Obligations.BitCountsMean
  intro x k hx
  obtain ⟨hdvd, -, hbit, -⟩ := trailingZeros_spec k x
  refine ⟨reverseBits_reverseBits hx, popcount_reverseBits x k, lt_of_leadingZeros hx, le_of_leadingZeros hx, ?_, hdvd,
    fun hne => hbit (trailingZeros_lt hx hne), ?_⟩
  · rintro rfl
    rw [leadingZeros, reverseBits_zero, trailingZeros_zero]
  · rintro rfl
    exact trailingZeros_zero k

end Sys2Proof.Machine

namespace Sys2Proof.Machine
open Sys2Proof.Safety

/-! ### Tables, ports and recorded traps (R186, R191) -/

/-- A record set under its own key is the one found there. -/
theorem tget_tset {α : Type} (p : α → Bool) (d v : α) (hv : p v = true) : ∀ l : List α, tget p d (tset p v l) = v
  | [] => by simp [tget, tset, hv]
  | x :: xs => by
    unfold tset
    split
    case isTrue => simp [tget, hv]
    case isFalse hx =>
      have hrest := tget_tset p d v hv xs
      simpa [tget, List.find?_cons, hx] using hrest

/-- The record found under a key has the key, or is the default. -/
theorem tget_key {α : Type} (p : α → Bool) (d : α) (hd : p d = true) (l : List α) : p (tget p d l) = true := by
  unfold tget
  cases h : l.find? p with
  | none => exact hd
  | some x => exact List.find?_some h

theorem Pass.cell_key (p : Pass) (k : Nat) (port : Port) :
    ((p.cell k port).idx == k && (p.cell k port).port == port) = true :=
  tget_key (fun c : PortCell => c.idx == k && c.port == port) { idx := k, port := port } (by simp) p.ports

theorem Pass.slotCell_key (p : Pass) (k : Nat) : ((p.slotCell k).k == k) = true :=
  tget_key (fun c : SlotCell => c.k == k) { k := k } (by simp) p.slots

theorem Pass.cell_of_ports {q : Pass} {k : Nat} {port : Port} {c : PortCell} {l : List PortCell}
    (hq : q.ports = tset (fun x => x.idx == k && x.port == port) c l) (hc : (c.idx == k && c.port == port) = true) :
    q.cell k port = c := by
  rw [Pass.cell, hq]
  exact tget_tset (fun x : PortCell => x.idx == k && x.port == port) _ c hc l

theorem Pass.slotCell_of_slots {q : Pass} {k : Nat} {c : SlotCell} {l : List SlotCell}
    (hq : q.slots = tset (fun x => x.k == k) c l) (hc : (c.k == k) = true) : q.slotCell k = c := by
  rw [Pass.slotCell, hq]
  exact tget_tset (fun x : SlotCell => x.k == k) _ c hc l

section
variable {p : Pass} {k i : Nat} {port : Port} {t : Tok}

theorem Pass.toPort_of_null (hnull : t.null = true) :
    (p.toPort k port t).cell k port = { p.cell k port with nulls := (p.cell k port).nulls + 1 } ∧
      (p.toPort k port t).block = p.block := by
  simp only [Pass.toPort, hnull, if_true, and_true]
  exact Pass.cell_of_ports rfl (p.cell_key k port)

theorem Pass.toPort_of_first (hnull : t.null = false) (hval : (p.cell k port).val = none) :
    (p.toPort k port t).cell k port = { p.cell k port with val := some t } := by
  simp only [Pass.toPort, hnull, hval, Bool.false_eq_true, if_false]
  exact Pass.cell_of_ports rfl (p.cell_key k port)

theorem Pass.toPort_of_second (hnull : t.null = false) (hval : (p.cell k port).val.isSome = true) (htrap : p.trap = none) :
    (p.toPort k port t).trap = some { cause := 0x02, idx := k } ∧ (p.toPort k port t).port k port = p.port k port := by
  obtain ⟨x, hx⟩ := Option.isSome_iff_exists.mp hval
  simp only [Pass.toPort, hnull, hx, Bool.false_eq_true, if_false, Pass.note, htrap, true_and]
  rfl

theorem Pass.toSlot_of_first (hnull : t.null = false) (hval : (p.slotCell k).val = none) :
    (p.toSlot k i t).slotCell k = { p.slotCell k with val := some t, high := i } := by
  simp only [Pass.toSlot, hnull, hval, Bool.false_eq_true, if_false]
  exact Pass.slotCell_of_slots rfl (p.slotCell_key k)

theorem Pass.toSlot_of_second (hnull : t.null = false) (hval : (p.slotCell k).val.isSome = true) :
    (p.toSlot k i t).slotCell k = { p.slotCell k with high := max (p.slotCell k).high i, many := true } := by
  obtain ⟨x, hx⟩ := Option.isSome_iff_exists.mp hval
  simp only [Pass.toSlot, hnull, hx, Bool.false_eq_true, if_false]
  exact Pass.slotCell_of_slots rfl (p.slotCell_key k)

end

theorem Pass.note_of_no_trap {p : Pass} (h : p.trap = none) (n : TrapNote) : p.note n = { p with trap := some n } := by
  simp only [Pass.note, h]

/-- Of two traps at different indexes the one at the lower stands, whichever is recorded first (R191). -/
theorem Pass.note_note_trap {p : Pass} {x y : TrapNote} (h : p.trap = none) (hne : x.idx ≠ y.idx) :
    ((p.note x).note y).trap = some (if x.idx < y.idx then x else y) := by
  rw [Pass.note_of_no_trap h]
  have hbeq : (y.idx == x.idx) = false := beq_false_of_ne hne.symm
  simp only [Pass.note, hbeq, Bool.false_and, Bool.or_false, decide_eq_true_eq]
  rcases Nat.lt_or_gt_of_ne hne with hlt | hgt
  · rw [if_neg (by omega), if_pos hlt]
  · rw [if_pos hgt, if_neg (by omega)]

/-- Settles O7: each part is what the delivery leaves in the cell it names. -/
theorem portsAndTrapsResolve : Obligations.PortsAndTrapsResolve := by
  unfold Obligations.PortsAndTrapsResolve
  refine ⟨fun p k port t => ⟨?first, Pass.toPort_of_second, ?allNull, ?someNull⟩, fun p k i t hnull => ?slots, ?conflicts,
    fun p x y => Pass.note_note_trap⟩
  case first =>
    intro hnull hval
    rw [Pass.port, Pass.toPort_of_first hnull hval]
  case allNull =>
    intro hnull hval hle
    obtain ⟨hcell, hblock⟩ := Pass.toPort_of_null (p := p) (k := k) (port := port) hnull
    simp only [Pass.port, hcell, hblock, hval, if_pos hle]
  case someNull =>
    intro hnull hval hlt
    obtain ⟨hcell, hblock⟩ := Pass.toPort_of_null (p := p) (k := k) (port := port) hnull
    simp only [Pass.port, hcell, hblock, hval, if_neg (Nat.not_le.mpr hlt)]
  case slots => exact ⟨Pass.toSlot_of_first hnull, Pass.toSlot_of_second hnull⟩
  case conflicts =>
    intro p c hmem hmany
    exact List.mem_append_left _ (List.mem_map.mpr ⟨c, List.mem_filter.mpr ⟨hmem, hmany⟩, rfl⟩)

/-! ### The firing rule (R186, R187, R372) -/

/-- An instruction that answers by the firing rule, whatever its effect is. -/
def FiresByRule (i : Instr) (w : Fields) : Prop := ∃ act, ∀ s, exec i s = .next (s.fire i w act)

theorem firesByRule_of {i : Instr} {w w' : Fields} (h : FiresByRule i w) (hw : some w = some w') : FiresByRule i w' :=
  Option.some.inj hw ▸ h

/-- Every word form but `null` answers by the firing rule. -/
theorem firesByRule {i : Instr} {w : Fields} (hw : Instr.fields i = some w) (hnull : ∀ x, i ≠ .null x) : FiresByRule i w := by
  cases i with
  | null x => exact absurd rfl (hnull x)
  | ctxNew at' | ctxGiveQuays at' | ctxGiveMemory at' | ctxGiveQueue at' | ctxGiveEnergy at' | ctxTakeQuays at'
  | ctxTakeMemory at' | ctxTakeQueue at' | ctxTakeEnergy at' | ctxMap at' | ctxUnmap at' | ctxUnmapRenewal at' | ctxRun at'
  | ctxStop at' | ctxStopEnd at' | ctxStopRelease at' | enQuota at' | dlogStart at' | dlogStop at' | partChg at' =>
    cases at' with
    | fire x => exact firesByRule_of ⟨_, fun _ => rfl⟩ hw
    | perform n => exact nomatch hw
  | cmdLaunch | cmdWait | waitReread | cmdSignalWrite | cmdSignalAdd | cmdCopyG2v | cmdCopyV2g | cmdCopyV2v
  | cmdCopyMc | cmdCollAllredBf16 | cmdCollAllredF32 | cmdCollRedscBf16 | cmdCollRedscF32 | cmdCollAllgath
  | cmdCollBcast | cmdFreeze | cmdThaw | queueWake | mrd | mwr | qpostMessage | ctxop | pgack | enread | attest
  | gets | getm | data | tok | inv | fwds | wb | put | collect | done | persistentRequest | preq | pact | pdone
  | pdeact | fdata | refuse | sweep | swack | uncachedAccess | remoteRequest | walkStart | walkComplete
  | pgreqAppend | translationExpiry | generationIncrement | planeChoose | blockConfigure | threadAdmit
  | blockResolve | commit | entryAged | coalesceHoldEnd | runOpenTimeout | drainTimeout | bollardWeightUpdate
  | bollardUncorrectable | storePerform | holdBreak | barrierArrival | coWaitWake | coWaitPoll | workgroupDispatch
  | workgroupComplete | launchComplete | copyChunkDone | scoreboardRetire | completionRaise | gatherRow
  | collChunkReduce | seqStep | mappedFill | vflushDone | vunmapDone | sealDone | unsealDone | freezePage
  | pageFrozen | thawPage | matrixQueueHead | endOfRow | nodeRelease | endOfOperation | fmtRegionEnable
  | fmtRegionDisable | fmtRegionBusyClear | netpolWrite | controlWindowWrite | contextOpDone | vaultHandover
  | preemptStopReached | preemptDrainLimit | preemptionComplete | saveChunk | restore | timeSliceEnd
  | lamplighterArrival | tick | exhaustionPreempt | powerWindow | thermalThrottle | thermalTrip | patrolScrub
  | linkFrame | flitRetransmit | keepalive | peerLost | swackTimeout | powerOnReset | blockPinned
  | malformedMessage => exact nomatch hw
  | _ => exact firesByRule_of ⟨_, fun _ => rfl⟩ hw

/-- A substitution replaces what the instruction would do by its value, where the form has a result, else by null. -/
theorem State.fire_of_substitution {s : State} {i : Instr} {w : Fields} {f : Form} {v : PortVals} {x : Word}
    {act : PortVals → State → State} (hform : Instr.form i = some f) (hact : firingOf i w s = some (.act v))
    (hsub : s.substitution = some x) : s.fire i w act = if f.result then s.emitVal i w x else s.emitNull i w := by
  simp only [firingOf, hform, Option.map_some, Option.some.injEq] at hact
  simp only [State.fire, hform, hact, hsub]

/-- Settles O6: every form but `null` answers by `State.fire`, whose cases are the rule. -/
theorem everyWordFiresByTheRule : Obligations.EveryWordFiresByTheRule := by
  unfold Obligations.EveryWordFiresByTheRule
  refine ⟨fun i w s hw hnull => ?rule, fun i w f v x s hw hnull hform hact hsub => ?substituted⟩
  case rule =>
    obtain ⟨act, hexec⟩ := firesByRule hw hnull
    rw [hexec s]
    exact ⟨fun h => congrArg _ (s.fire_wait i w act h), fun h => congrArg _ (s.fire_guardFalse i w act h),
      fun h => congrArg _ (s.fire_allNull i w act h), fun h => congrArg _ (s.fire_notReady i w act h),
      fun h hsub => congrArg _ (s.fire_conflict i w act hsub h)⟩
  case substituted =>
    obtain ⟨act, hexec⟩ := firesByRule hw hnull
    rw [hexec s, State.fire_of_substitution hform hact hsub]

end Sys2Proof.Machine

namespace Sys2Proof.Machine
open Sys2Proof.Safety

/-! ### The raise of a completion object (R121) -/

/-- The parts of a completion object, by position. -/
theorem extract_object (a c : BitVec 32) (st : BitVec 8) (e : BitVec 16) (r : BitVec 39) (p : BitVec 1) :
    let v := a ++ c ++ st ++ e ++ r ++ p
    v.extractLsb' 96 32 = a ∧ v.extractLsb' 64 32 = c ∧ v.extractLsb' 56 8 = st ∧ v.extractLsb' 40 16 = e ∧
      v.extractLsb' 1 39 = r ∧ v.extractLsb' 0 1 = p := by
  refine ⟨?_, ?_, ?_, ?_, ?_, ?_⟩ <;>
    simp (disch := decide) only [BitVec.extractLsb'_append_eq_of_le, BitVec.extractLsb'_append_eq_of_add_le,
      BitVec.extractLsb'_eq_self, Nat.reduceSub]

/-- A bit is bit 0 of the one-bit string there. -/
theorem getLsbD_zero_eq {n : Nat} (v : BitVec n) : v.getLsbD 0 = (v.extractLsb' 0 1).getLsbD 0 := by simp

/-- The parts of a completion object built of numbers. -/
theorem extract_object_of_nat (e : Nat) {c st er : Nat} (hst : st < 256) (her : er < 65536) (r : BitVec 39)
    (p : BitVec 1) :
    let v := BitVec.ofNat 32 e ++ BitVec.ofNat 32 c ++ BitVec.ofNat 8 st ++ BitVec.ofNat 16 er ++ r ++ p
    v.extractLsb' 96 32 = BitVec.ofNat 32 e ∧ (c < 2 ^ 32 → (v.extractLsb' 64 32).toNat = c) ∧ (v.extractLsb' 56 8).toNat = st ∧
      (v.extractLsb' 40 16).toNat = er ∧ v.extractLsb' 1 39 = r ∧ v.getLsbD 0 = p.getLsbD 0 := by
  obtain ⟨hE, hC, hS, hR, hrest, hP⟩ := extract_object (BitVec.ofNat 32 e) (BitVec.ofNat 32 c) (BitVec.ofNat 8 st)
    (BitVec.ofNat 16 er) r p
  refine ⟨hE, fun hc => (congrArg _ hC).trans ?_, (congrArg _ hS).trans ?_, (congrArg _ hR).trans ?_, hrest, ?_⟩
  · rw [BitVec.toNat_ofNat, Nat.mod_eq_of_lt hc]
  · rw [BitVec.toNat_ofNat, Nat.mod_eq_of_lt hst]
  · rw [BitVec.toNat_ofNat, Nat.mod_eq_of_lt her]
  · rw [getLsbD_zero_eq, hP]

/-- Settles O42: in each branch of the raise the object is built of parts that the statement names. -/
theorem objectsAreRaised : Obligations.ObjectsAreRaised := by
  unfold Obligations.ObjectsAreRaised
  intro o st hst expect count status errs r
  have hexpect : expect < 2 ^ 32 := (o.extractLsb' 96 32).isLt
  have hcount : count < 2 ^ 32 := (o.extractLsb' 64 32).isLt
  have hstatus : (if st ≠ 0 ∧ status = 0 then st else status) < 256 := by
    have := (o.extractLsb' 56 8).isLt
    grind
  have herrs : errs < 65536 := by
    have := (o.extractLsb' 40 16).isLt
    grind
  have herrs' : (if st ≠ 0 then min (errs + 1) 65535 else errs) < 65536 := by grind
  have hback : BitVec.ofNat 32 expect = o.extractLsb' 96 32 := BitVec.ofNat_toNat ..
  have hphase : o.getLsbD 0 = (o.extractLsb' 0 1).getLsbD 0 := getLsbD_zero_eq o
  by_cases h0 : expect = 0
  case pos =>
    have hr : r = _ := if_pos h0
    obtain ⟨hE, hC, hS, -, hrest, hP⟩ := extract_object_of_nat expect (c := count) (show 10 < 256 by decide) herrs
      (o.extractLsb' 1 39) (o.extractLsb' 0 1)
    rw [hr, hphase]
    exact ⟨hE.trans hback, hrest, fun _ => ⟨hS, hP, BitVec.eq_of_toNat_eq (hC hcount)⟩, fun hne => absurd h0 hne⟩
  case neg =>
    by_cases hlast : count + 1 = expect
    case pos =>
      have hr : r = _ := (if_neg h0).trans (if_pos hlast)
      obtain ⟨hE, hC, hS, hR, hrest, hP⟩ := extract_object_of_nat expect (c := 0) hstatus herrs'
        (o.extractLsb' 1 39) (~~~o.extractLsb' 0 1)
      rw [hr, hphase, if_pos hlast, if_pos hlast]
      exact ⟨hE.trans hback, hrest, fun h => absurd h h0, fun _ _ => ⟨hS, hR, hC (by decide), hP.trans (by simp)⟩⟩
    case neg =>
      have hr : r = _ := (if_neg h0).trans (if_neg hlast)
      obtain ⟨hE, hC, hS, hR, hrest, hP⟩ := extract_object_of_nat expect (c := count + 1) hstatus herrs'
        (o.extractLsb' 1 39) (o.extractLsb' 0 1)
      rw [hr, hphase, if_neg hlast, if_neg hlast]
      exact ⟨hE.trans hback, hrest, fun h => absurd h h0, fun _ hlt => ⟨hS, hR, hC (by omega), hP⟩⟩

end Sys2Proof.Machine

namespace Sys2Proof.Machine
open Sys2Proof.Safety

/-! ### Threads and registers (R160, R163) -/

@[simp] theorem State.thread_key (s : State) (q sl : Nat) : (s.thread q sl).quay = q ∧ (s.thread q sl).slot = sl := by
  have h := tget_key (fun t : Thread => t.quay == q && t.slot == sl) { quay := q, slot := sl } (by simp) s.threads
  simpa [State.thread] using h

theorem State.thread_setThread (s : State) (t : Thread) : (s.setThread t).thread t.quay t.slot = t :=
  tget_tset (fun u : Thread => u.quay == t.quay && u.slot == t.slot) _ t (by simp) s.threads

/-- A slot's thread set anew, quay and slot kept, is what the slot then holds. -/
theorem State.thread_setThread_of_key {s : State} {q sl : Nat} {t : Thread} (hq : t.quay = q) (hsl : t.slot = sl) :
    (s.setThread t).thread q sl = t := by
  subst hq hsl
  exact s.thread_setThread t

theorem Thread.setReg_x_length (t : Thread) (r : Nat) (v : Word) : (t.setReg r v).x.length = t.x.length := by
  unfold Thread.setReg
  split
  · exact List.length_set
  · rfl

/-- A predicate bit written is the one value, the others stay. -/
theorem getLsbD_set_bit (p : BitVec 48) (b : Bool) (i j : Nat) :
    (if b then p ||| 1#48 <<< j else p &&& ~~~(1#48 <<< j)).getLsbD i = if i = j ∧ i < 48 then b else p.getLsbD i := by
  have hone : (1#48 <<< j).getLsbD i = decide (i = j ∧ i < 48) := by
    simp only [BitVec.getLsbD_shiftLeft, BitVec.getLsbD_one]
    grind
  cases b
  · simp only [Bool.false_eq_true, if_false, BitVec.getLsbD_and, BitVec.getLsbD_not, hone]
    have hout : ¬i < 48 → p.getLsbD i = false := fun hi => BitVec.getLsbD_of_ge p i (by omega)
    grind
  · simp only [if_true, BitVec.getLsbD_or, hone]
    grind

theorem Thread.reg_setReg (t : Thread) {r : Nat} (r' : Nat) (v : Word) (hlen : t.x.length = 64) (hr : r < 112) :
    (t.setReg r' v).reg r = if r' = r then (if r < 64 then v else if v.getLsbD 0 then 1 else 0) else t.reg r := by
  unfold Thread.setReg Thread.reg
  by_cases hx : r < 64 <;> by_cases hx' : r' < 64
  · simp only [hx, hx', if_true, List.getD_eq_getElem?_getD, List.getElem?_set, hlen]
    grind
  · simp only [hx, hx', if_true, if_false, if_neg (show r' ≠ r by omega)]
  · simp only [hx, hx', if_true, if_false, if_neg (show r' ≠ r by omega)]
  · simp only [hx, hx', if_false, getLsbD_set_bit]
    grind

/-- One write entry, with its slot, of a commit's register writes (R162). -/
def Thread.applySlot (p : Pass) (t : Thread) (e : BitVec 32 × Nat) : Thread :=
  match (p.slotCell e.2).val with
  | some tok => t.setReg (e.1.extractLsb' 25 7).toNat tok.data
  | none => t

theorem Thread.applySlots_eq_foldl (t : Thread) (p : Pass) :
    t.applySlots p = p.block.writes.zipIdx.foldl (Thread.applySlot p) t := rfl

theorem Thread.applySlot_x_length (p : Pass) (t : Thread) (e : BitVec 32 × Nat) :
    (Thread.applySlot p t e).x.length = t.x.length := by
  unfold Thread.applySlot
  split
  · exact t.setReg_x_length _ _
  · rfl

theorem Thread.foldl_applySlot_x_length (p : Pass) (l : List (BitVec 32 × Nat)) (t : Thread) :
    (l.foldl (Thread.applySlot p) t).x.length = t.x.length := by
  induction l generalizing t with
  | nil => rfl
  | cons e l ih => exact (ih _).trans (applySlot_x_length p t e)

/-- A register that no entry with a value names keeps its value. -/
theorem Thread.reg_foldl_applySlot_of_unnamed (p : Pass) {r : Nat} (hr : r < 112) (l : List (BitVec 32 × Nat)) (t : Thread)
    (hlen : t.x.length = 64) (h : ∀ e ∈ l, (e.1.extractLsb' 25 7).toNat = r → (p.slotCell e.2).val = none) :
    (l.foldl (Thread.applySlot p) t).reg r = t.reg r := by
  induction l generalizing t with
  | nil => rfl
  | cons e l ih =>
    have hstep : (Thread.applySlot p t e).reg r = t.reg r := by
      unfold Thread.applySlot
      split
      case h_1 tok htok =>
        rw [t.reg_setReg _ _ hlen hr, if_neg]
        intro hname
        rw [h e List.mem_cons_self hname] at htok
        contradiction
      case h_2 => rfl
    rw [List.foldl_cons, ih _ ((applySlot_x_length p t e).trans hlen) fun x hx => h x (List.mem_cons_of_mem e hx), hstep]

/-- The last entry with a value that names a register gives it that value. -/
theorem Thread.reg_applySlots_of_last {t : Thread} {p : Pass} {r k : Nat} {e : BitVec 32} {tok : Tok} (hlen : t.x.length = 64)
    (hr : r < 112) (he : p.block.writes[k]? = some e) (hname : (e.extractLsb' 25 7).toNat = r)
    (hval : (p.slotCell k).val = some tok)
    (hlast : ∀ j e', k < j → p.block.writes[j]? = some e' → (e'.extractLsb' 25 7).toNat = r → (p.slotCell j).val = none) :
    (t.applySlots p).reg r = if r < 64 then tok.data else if tok.data.getLsbD 0 then 1 else 0 := by
  obtain ⟨hk, hget⟩ := List.getElem?_eq_some_iff.mp he
  have hzip : k < p.block.writes.zipIdx.length := by rwa [List.length_zipIdx]
  rw [Thread.applySlots_eq_foldl, ← List.take_append_drop k p.block.writes.zipIdx, List.drop_eq_getElem_cons hzip,
    List.foldl_append, List.foldl_cons]
  generalize hu : (p.block.writes.zipIdx.take k).foldl (Thread.applySlot p) t = u
  have hulen : u.x.length = 64 := by rw [← hu, foldl_applySlot_x_length, hlen]
  have hentry : p.block.writes.zipIdx[k] = (e, k) := by simp [List.getElem_zipIdx, hget]
  rw [reg_foldl_applySlot_of_unnamed p hr _ _ ((applySlot_x_length ..).trans hulen), hentry]
  · simp only [Thread.applySlot, hval, u.reg_setReg _ _ hulen hr, hname, if_true]
  · intro x hx hxname
    obtain ⟨i, hi⟩ := List.mem_iff_getElem?.mp hx
    rw [List.getElem?_drop, List.getElem?_zipIdx, Option.map_eq_some_iff] at hi
    obtain ⟨e', he', rfl⟩ := hi
    simp only [Nat.zero_add] at hxname ⊢
    exact hlast _ e' (by omega) he' hxname

/-- Settles O37: the last slot that names a register writes it; each branch sets the thread of the pass anew. -/
theorem commitWritesRegistersAndBranches : Obligations.CommitWritesRegistersAndBranches := by
  unfold Obligations.CommitWritesRegistersAndBranches
  refine ⟨fun t p r hlen hr => ⟨fun h => ?unnamed, fun k e tok he hname hval hlast =>
    Thread.reg_applySlots_of_last hlen hr he hname hval hlast⟩, fun s p i target ra b => ?branches⟩
  case unnamed =>
    refine Thread.reg_foldl_applySlot_of_unnamed p hr _ t hlen fun e he hname => ?_
    exact h e.2 e.1 (List.mem_zipIdx_iff_getElem?.mp he) hname
  case branches =>
    intro t
    obtain ⟨hq, hsl⟩ := s.thread_key p.quay p.slot
    refine ⟨?_, ?_, ?_, ?_, fun hbar => ?_, fun hbar => ?_⟩
    · exact State.thread_setThread_of_key hq hsl
    · exact State.thread_setThread_of_key hq hsl
    · exact State.thread_setThread_of_key hq hsl
    · have hthread : (s.takeBranch p ⟨i, target, .trapRet⟩).thread p.quay p.slot = t.trapReturn s.stamp :=
        State.thread_setThread_of_key hq hsl
      rw [hthread]
      exact ⟨rfl, rfl, rfl, BitVec.getLsbD_zero .., rfl, rfl, rfl, rfl⟩
    · have hpass : s.takeBranch p ⟨i, target, .barWait b⟩ =
          s.setThread { t with st := .waiting, nba := target, bars := t.bars.set b 0 } := if_pos hbar
      rw [hpass]
      exact State.thread_setThread_of_key hq hsl
    · have hblock : s.takeBranch p ⟨i, target, .barWait b⟩ =
          s.setThread { t with st := .blocked, on := .barrier b, nba := target } := if_neg hbar
      rw [hblock]
      exact State.thread_setThread_of_key hq hsl

end Sys2Proof.Machine

namespace Sys2Proof.Machine
open Sys2Proof.Safety

/-! ### A step (log entries 1 and 3) -/

/-- A step that takes an event of the outside (log entry 1). -/
theorem step_of_event {s : State} {i : Instr} {rest : List Instr} (hreset : s.dev.inReset = false)
    (hagenda : s.agenda = i :: rest) : step s = exec i { s with clock := s.clock + 1, agenda := rest } := by
  simp [step, hreset, stepOn, State.later, hagenda]

/-- With no event waiting and no tick due, a pass that may go on goes on with the word it takes next. -/
theorem stepOn_of_word {u v : State} {k : Nat} {i : Instr} (hagenda : u.agenda = [])
    (htick : u.clock < tickCycles * (u.dev.ticks + 1)) (hv : u.turnPass = v)
    (hrun : v.canRun v.pass = true) (hword : v.nextWord v.pass = some k)
    (hdecode : decodeWord (v.pass.block.words.getD k 0) = .ok i) :
    stepOn u = exec i { v with pass := { v.pass with cur := k } } := by
  simp only [stepOn, hagenda, if_neg (Nat.not_le.mpr htick), hv, hrun, if_true, stepPass, hword, hdecode]

theorem step_of_not_inReset {s : State} (hreset : s.dev.inReset = false) : step s = stepOn { s with clock := s.clock + 1 } := by
  simp only [step, hreset, Bool.false_eq_true, if_false]
  rfl

theorem State.turnPass_of_canRun {u : State} (h : u.canRun u.pass = true) : u.turnPass = u := if_pos h

theorem State.turnPass_of_parked {u : State} {p : Pass} (hcurrent : u.canRun u.pass = false)
    (hfind : u.parked.find? u.canRun = some p) :
    u.turnPass = { u with pass := p, parked := u.parked.erase p ++ if u.pass.live then [u.pass] else [] } := by
  simp only [State.turnPass, hcurrent, hfind, Bool.false_eq_true, if_false]

/-- Settles O4: the step's branches in the model's order. -/
theorem stepRunsDecodedInstruction : Obligations.StepRunsDecodedInstruction := by
  unfold Obligations.StepRunsDecodedInstruction
  intro s k i hreset hagenda htick u v
  refine ⟨fun hrun hword hdecode => ?_, State.turnPass_of_canRun, fun _ => State.turnPass_of_parked⟩
  rw [step_of_not_inReset hreset]
  exact stepOn_of_word hagenda htick rfl hrun hword hdecode

theorem decodeWord_of_decodeTableWord {n w : Nat} {i : Instr} (h : decodeTableWord n w = some i) :
    decodeWord (wordOfBytes (leBytes 12 (w % 2 ^ n))) = .ok i := by
  unfold decodeTableWord at h
  split at h
  case h_1 j hj => rw [hj, Option.some.inj h]
  case h_2 => contradiction

/-- The pass of a placed word may go on as soon as its word may be taken. -/
theorem canRun_withFetchWord {n w k : Nat} :
    let u : State := { State.reset.withFetchWord n w with clock := 1 }
    u.nextWord u.pass = some k → u.canRun u.pass = true := by
  intro u hword
  have hexchanging : u.exchanging u.pass.quay = false := rfl
  simp only [State.canRun, hword, hexchanging]
  rfl

/-- Settles O5: the branches of a step for a waiting event, and for a placed word, which the pass takes first. -/
theorem outsideEventsAndPlacedWordsRun : Obligations.OutsideEventsAndPlacedWordsRun := by
  unfold Obligations.OutsideEventsAndPlacedWordsRun
  refine ⟨fun s i rest => step_of_event, fun n w i hdecode _ => ?_⟩
  intro u hword
  have hrun := canRun_withFetchWord hword
  have hturn : u.turnPass = u := State.turnPass_of_canRun hrun
  have hstep := stepOn_of_word (u := u) rfl (show 1 < tickCycles * (0 + 1) by decide) hturn hrun hword (decodeWord_of_decodeTableWord hdecode)
  have hcur : ({ u with pass := { u.pass with cur := 0 } } : State) = u := rfl
  rw [hcur] at hstep
  exact (step_of_not_inReset rfl).trans hstep

end Sys2Proof.Machine

namespace Sys2Proof.Machine
open Sys2Proof.Safety

section
variable {i : Instr} {w : Fields} {v : PortVals} {s : State}

/-- A word that fires answers what its effect leaves. -/
theorem exec_of_fire {act : PortVals → State → State} {t : State} (hexec : exec i s = .next (s.fire i w act))
    (hact : act v (s.chargeFiring i) = t) (hfires : Fires i w v s) : exec i s = .next t := by
  rw [hexec, s.fire_of_fires i w v act hfires, hact]

/-! ### Floating-point forms (R51, R52, R220) -/

theorem State.emitFp_of_not_enabled {u : State} {r : Word} {e : Exc} (h : u.pass.snap.fpctl.extractLsb' 8 5 &&& e = 0) :
    u.emitFp i w r e = { u.emitVal i w r with
      pass := { (u.emitVal i w r).pass with raised := (u.emitVal i w r).pass.raised ||| e } } := if_pos h

theorem State.emitFp_of_enabled {u : State} {r : Word} {e : Exc} (h : u.pass.snap.fpctl.extractLsb' 8 5 &&& e ≠ 0) :
    u.emitFp i w r e = (withPass u (u.pass.note { cause := 0x05, idx := u.pass.cur, fpx := e })).emitNull i w := if_neg h

/-- A floating-point form that fires gives the value and raises the exceptions that its function has at the ports. -/
theorem givesFp_of_fireFp (f : Block → PortVals → Word × Exc) {r : Word × Exc} (hexec : exec i s = .next (s.fireFp i w f))
    (hr : f s.pass.block v = r) (hfires : Fires i w v s) : GivesFp i w s r := by
  intro hquiet
  refine ⟨_, exec_of_fire (t := (s.chargeFiring i).emitFp i w r.1 r.2) hexec ?_ hfires,
    State.emitFp_of_not_enabled (u := s.chargeFiring i) hquiet⟩
  exact congrArg (fun x : Word × Exc => (s.chargeFiring i).emitFp i w x.1 x.2) hr

/-- A floating-point form one of whose exceptions is enabled records the trap and emits null. -/
theorem exec_fireFp_of_enabled (f : Block → PortVals → Word × Exc) {e : Exc} (hexec : exec i s = .next (s.fireFp i w f))
    (he : e = (f s.pass.block v).2) (hfires : Fires i w v s) (henabled : enabledExc s &&& e ≠ 0) :
    ∃ t, exec i s = .next t ∧
      t = (withPass (s.chargeFiring i) (s.pass.note { cause := 0x05, idx := s.pass.cur, fpx := e })).emitNull i w := by
  subst he
  exact ⟨_, exec_of_fire hexec rfl hfires, State.emitFp_of_enabled (u := s.chargeFiring i) henabled⟩

end

/-- Settles O15: each form is a function of the block and its ports, that of the statement. -/
theorem floatingPointResults : Obligations.FloatingPointResults := by
  unfold Obligations.FloatingPointResults
  intro w v s b
  exact ⟨givesFp_of_fireFp (fun b v => fword (fp2 fmtF32 fAdd b v.a v.b)) rfl rfl,
    givesFp_of_fireFp (fun b v => fword (fp2 fmtF32 fSub b v.a v.b)) rfl rfl,
    givesFp_of_fireFp (fun b v => fword (fp2 fmtF32 (fun _ => fMul) b v.a v.b)) rfl rfl,
    givesFp_of_fireFp (fun b v => fword (fp3 fmtF32 b v.a v.b v.g)) rfl rfl,
    givesFp_of_fireFp (fminmax true) rfl rfl,
    givesFp_of_fireFp (fminmax false) rfl rfl,
    gives_of_fireValue (fun v => v.a &&& 0x7FFFFFFF) rfl rfl,
    gives_of_fireValue (fun v => (v.a &&& 0xFFFFFFFF) ^^^ 0x80000000) rfl rfl,
    fun c => givesFp_of_fireFp (fcmpVal c) rfl rfl,
    gives_of_fireValue (fun v => (if v.g.getLsbD 0 then v.a else v.b) &&& 0xFFFFFFFF) rfl rfl,
    gives_of_fireValue fclassVal rfl rfl,
    fun r => givesFp_of_fireFp (frndVal (rndMode r)) rfl rfl,
    givesFp_of_fireFp fscaleVal rfl rfl,
    gives_of_fireValue (fun v => (v.a &&& 0x7FFFFFFF) ||| (v.b &&& 0x80000000)) rfl rfl,
    fun t => givesFp_of_fireFp
      (fun b v => packed fun k => fp2 (halfFmt t) fAdd b (lane16 v.a k) (lane16 v.b k)) rfl rfl,
    fun t => givesFp_of_fireFp
      (fun b v => packed fun k => fp2 (halfFmt t) (fun _ => fMul) b (lane16 v.a k) (lane16 v.b k)) rfl rfl,
    fun t => givesFp_of_fireFp
      (fun b v => packed fun k => fp3 (halfFmt t) b (lane16 v.a k) (lane16 v.b k) (lane16 v.g k)) rfl rfl,
    fun t => givesFp_of_fireFp (dot2Val (halfFmt t)) rfl rfl,
    gives_of_fireValue dot4Val rfl rfl,
    fun t => givesFp_of_fireFp (dotdsVal (actFmt t)) rfl rfl⟩

/-- Settles O16: each form is a function of the block and its ports; an enabled exception takes the other branch. -/
theorem conversionAndSpecialResults : Obligations.ConversionAndSpecialResults := by
  unfold Obligations.ConversionAndSpecialResults
  refine ⟨fun w v s => ?results, fun w v s i e hform hfires henabled => ?traps⟩
  case results =>
    exact ⟨fun d f => givesFp_of_fireFp (cvtVal d f) rfl rfl,
      gives_of_fireValue cvtDs8Val rfl rfl,
      givesFp_of_fireFp dsencVal rfl rfl,
      fun t => givesFp_of_fireFp (pack2Val (packFmt t)) rfl rfl,
      fun t => gives_of_fireValue (unpack2Val (packFmt t)) rfl rfl,
      givesFp_of_fireFp (sfu1 rcpRes) rfl rfl,
      givesFp_of_fireFp (sfu1 rsqRes) rfl rfl,
      givesFp_of_fireFp sqrtVal rfl rfl,
      givesFp_of_fireFp (fun b v => fword (fp2 fmtF32 (fun _ => fDiv) b v.a v.b)) rfl rfl,
      givesFp_of_fireFp (sfu1 exp2Res) rfl rfl,
      givesFp_of_fireFp (sfu1 log2Res) rfl rfl,
      givesFp_of_fireFp (sfu1 (trigRes true 6)) rfl rfl,
      givesFp_of_fireFp (sfu1 (trigRes false 7)) rfl rfl,
      givesFp_of_fireFp (sfu1 tanhRes) rfl rfl⟩
  case traps =>
    rcases hform with ⟨rfl, he⟩ | ⟨rfl, he⟩ | ⟨rfl, he⟩ | ⟨rfl, he⟩
    · exact exec_fireFp_of_enabled (fun b v => fword (fp2 fmtF32 fAdd b v.a v.b)) rfl he hfires henabled
    · exact exec_fireFp_of_enabled
        (fun b v => packed fun k => fp2 fmtBF16 (fun _ => fMul) b (lane16 v.a k) (lane16 v.b k)) rfl he hfires henabled
    · exact exec_fireFp_of_enabled dsencVal rfl he hfires henabled
    · exact exec_fireFp_of_enabled sqrtVal rfl he hfires henabled

end Sys2Proof.Machine

namespace Sys2Proof.Machine
open Sys2Proof.Safety

/-! ### Branches and barriers (R326 to R332) -/

/-- Settles O17: each branch form tests what its traps name, in the model's order, and else fires its branch. -/
theorem branchesFireOrTrap : Obligations.BranchesFireOrTrap := by
  unfold Obligations.BranchesFireOrTrap
  refine ⟨fun w v s => ⟨?br, fun hf halign hcanon => ?bri, fun hf hcsd => ?call, fun hf hcsd => ?ret, ?exit⟩,
    fun w v s => ⟨fun hf halign => ?misaligned, fun hf halign hcanon => ?nonCanonical, fun hf hcsd => ?deep,
      fun hf hcsd => ?empty, ?trap⟩⟩
  case br => exact exec_of_fire rfl rfl
  case bri => exact exec_of_fire rfl ((if_neg (not_not.mpr halign)).trans (if_neg (not_not.mpr hcanon))) hf
  case call => exact exec_of_fire rfl (if_neg (Nat.not_le.mpr hcsd)) hf
  case ret => exact exec_of_fire rfl (if_neg (Nat.pos_iff_ne_zero.mp hcsd)) hf
  case exit => exact exec_of_fire rfl rfl
  case misaligned => exact exec_of_fire rfl (if_pos halign) hf
  case nonCanonical => exact exec_of_fire rfl ((if_neg (not_not.mpr halign)).trans (if_pos hcanon)) hf
  case deep => exact exec_of_fire rfl (if_pos hcsd) hf
  case empty => exact exec_of_fire rfl (if_pos hcsd) hf
  case trap => exact exec_of_fire rfl rfl

section
variable {i : Instr} {w : Fields} {v : PortVals} {u : State} {accept : BitVec 2 → Bool} {k : Nat → State → State}

theorem State.barrier_of_accepted (hle : v.a.toNat ≤ 15) (hstate : accept (barState u v.a.toNat) = true) :
    u.barrier i w v accept k = k v.a.toNat u :=
  (if_neg (Nat.not_lt.mpr hle)).trans (if_pos hstate)

theorem State.barrier_of_above (hgt : 16 ≤ v.a.toNat) : u.barrier i w v accept k = u.trapHere i w 0x0A 0 := if_pos hgt

theorem State.barrier_of_not_accepted (hle : v.a.toNat ≤ 15) (hstate : accept (barState u v.a.toNat) = false) :
    u.barrier i w v accept k = u.trapHere i w 0x0B 0 :=
  (if_neg (Nat.not_lt.mpr hle)).trans (if_neg (Bool.eq_false_iff.mp hstate))

end

/-- Settles O18: each form is `State.barrier` with the states it accepts. -/
theorem barriersFire : Obligations.BarriersFire := by
  unfold Obligations.BarriersFire
  intro w v s b
  refine ⟨fun hf hle hst => ?_, fun hf hle hst => ?_, fun hf hle hst => ?_, fun hf hgt => ?_, fun hf hle hst => ?_,
    fun hf hle hst => ?_, fun hf hle hst => ?_⟩
  · exact exec_of_fire rfl (State.barrier_of_accepted hle (beq_iff_eq.mpr hst)) hf
  · exact exec_of_fire rfl (State.barrier_of_accepted hle (beq_iff_eq.mpr hst)) hf
  · exact exec_of_fire rfl (State.barrier_of_accepted hle
      (Bool.or_eq_true_iff.mpr (hst.imp beq_iff_eq.mpr beq_iff_eq.mpr))) hf
  · exact exec_of_fire rfl (State.barrier_of_above hgt) hf
  · exact exec_of_fire rfl (State.barrier_of_not_accepted hle (beq_eq_false_iff_ne.mpr hst)) hf
  · exact exec_of_fire rfl (State.barrier_of_not_accepted hle (beq_eq_false_iff_ne.mpr hst)) hf
  · exact exec_of_fire rfl (State.barrier_of_not_accepted hle
      (congrArg (fun x : BitVec 2 => x == 1 || x == 2) hst)) hf

end Sys2Proof.Machine

namespace Sys2Proof.Machine
open Sys2Proof.Safety

/-! ### Accesses that nothing holds back: what each step of an access answers (R106 to R108, R136, R148, R265, R270) -/

@[simp] theorem Got.andThen_ok {α β : Type} (v : α) (s : State) (k : α → State → Got β) : (Got.ok v s).andThen k = k v s := rfl

@[simp] theorem Got.done_ok {α : Type} (v : α) (s : State) (k : α → State → State) : (Got.ok v s).done k = k v s := rfl

section
variable {i : Instr} {w : Fields} {u : State} {n : Nat}

/-- A cached translation answers at the port, and is the one last used (R106, R108). -/
theorem State.port_of_translated {va : Word} {write : Bool} {e : TlbEntry} {kind : AccKind} (h : Translated va write e u) :
    u.port i w u.pass.ctx va.toNat write kind = .ok (e.xlate va.toNat) (u.touch e) := by
  obtain ⟨hwaits, hhit, hlog⟩ := h
  have hdone : (if write then (u.touch e).sawWrite u.pass.quay u.pass.ctx e va.toNat else .done (u.touch e)) =
      HwDone.done (u.touch e) := by
    cases write with
    | false => rfl
    | true =>
      have hlog' : ((u.touch e).ctx u.pass.ctx).dlog.getLsbD 0 = false := hlog rfl
      simp only [if_true, State.sawWrite, hlog', Bool.false_and, Bool.false_eq_true, if_false]
  simp only [State.port, State.portAt, hwaits, hhit, hdone, Bool.false_eq_true, if_false]

theorem used_virt_of_translated {va : Word} {write : Bool} {e : TlbEntry} (h : Translated va write e u) :
    used (.virt va) write u = u.touch e := by
  obtain ⟨-, hhit, -⟩ := h
  simp only [used, hhit]

/-- A line that may be read, or written, where it is held is had at once, with the metadata held beside it (R76). -/
theorem State.acquire_of_held {c va h : Nat} {x : Xlate} {write alloc : Bool} {kind : AccKind}
    (hanswer : u.answerOf h (x.pa / 128) u.me write = none)
    (hheld : (if write then u.writable h (x.pa / 128) else u.readable h u.pass.quay (x.pa / 128) x.gen) = true) :
    u.acquire i w c va x h write alloc kind = .ok (u.lineMeta h u.pass.quay (x.pa / 128) x.gen) u := by
  simp only [State.acquire, hanswer, hheld, if_true]

theorem State.needFill_of_no_region {q off : Nat} (h : (u.regions.all fun r => r.quay != q) = true) :
    u.needFill i w q off = .ok () u := by
  have hnone : u.regionAt q off = none := by
    unfold State.regionAt
    rw [List.find?_eq_none]
    intro r hr
    have hq := List.all_eq_true.mp h r hr
    simp_all
  simp only [State.needFill, hnone]

/-- A vault range that nothing holds back is ready (R142, R144, R146, R148). -/
theorem State.vaultReady_of_free {q off : Nat} {write : Bool} (h : VaultFree q off n u)
    (hheld : write = true → u.heldByOther (.vault q off) = false) : u.vaultReady i w q off n write = .ok () u := by
  obtain ⟨hregions, hscored, hpending⟩ := h
  have hnone : (u.regions.filter fun r => r.quay == q && overlaps off n (r.vpg * 4096) ((r.npg + 1) * 4096)) = [] := by
    rw [List.filter_eq_nil_iff]
    intro r hr
    have hq := List.all_eq_true.mp hregions r hr
    simp_all
  have hheld' : (write && u.heldByOther (.vault q off)) = false := by
    cases write with
    | false => rfl
    | true => exact hheld rfl
  simp only [State.vaultReady, hscored, hpending, hnone, hheld', List.any_nil, Bool.and_false, Bool.or_false,
    Bool.false_eq_true, if_false, State.needFill_of_no_region hregions, Got.andThen_ok]

/-- The kinds of address of this module's memory (R56). -/
theorem paKind_of_local {pa : Nat} (h : Local pa u) :
    (∃ sl off, u.paKind pa = .hbm sl off) ∨ (∃ d r off, u.paKind pa = .view d r off) ∨ u.paKind pa = .none := by
  unfold Local at h
  cases hk : u.paKind pa with
  | hbm sl off => exact .inl ⟨sl, off, rfl⟩
  | view d r off => exact .inr (.inl ⟨d, r, off, rfl⟩)
  | none => exact .inr (.inr rfl)
  | control d off | remote m => simp [hk] at h

theorem State.noteRead_of_covered {j : Nat} {l : Loc} (h : u.pass.covered j l n = true) : u.noteRead j l n = u := if_pos h

/-- Bytes of global memory at an address that may be read now: those of lower stores forwarded, the rest as memory holds
them (R190, R265). -/
theorem State.globalBytes_of_ready {va : Word} {l : Loc} {nc single : Bool} (h : ReadReady (.virt va) n l u) :
    u.globalBytes i w va n nc single = .ok (u.locRead (Fields.lsid w) l n) (loaded w (.virt va) l n u) := by
  obtain ⟨e, htrans, rfl, hlocal, hpending, hanswer, hreadable, hpoison⟩ := h
  have hpending' : (u.touch e).ownPending (.glob (e.xlate va.toNat).pa) n = false := hpending
  have hpoison' : ((u.touch e).lineMeta (u.touch e).pass.quay (u.touch e).pass.quay ((e.xlate va.toNat).pa / 128)
    (e.xlate va.toNat).gen).poison = false := hpoison
  have hacquire : ∀ alloc, (u.touch e).acquire i w (u.touch e).pass.ctx va.toNat (e.xlate va.toNat) (u.touch e).pass.quay false
      alloc .load = .ok _ (u.touch e) := fun alloc =>
    State.acquire_of_held (u := u.touch e) (write := false) hanswer hreadable
  rw [State.globalBytes, State.port_of_translated htrans, Got.andThen_ok, loaded, used_virt_of_translated htrans]
  by_cases hcovered : (u.touch e).pass.covered (Fields.lsid w) (.glob (e.xlate va.toNat).pa) n = true
  · rcases paKind_of_local (u := u.touch e) hlocal with ⟨sl, off, hk⟩ | ⟨d, r, off, hk⟩ | hk <;>
      simp only [hk, hpending', hcovered, Bool.false_and, Bool.false_eq_true, if_false, if_true, noted,
        State.noteRead_of_covered] <;> rfl
  · rcases paKind_of_local (u := u.touch e) hlocal with ⟨sl, off, hk⟩ | ⟨d, r, off, hk⟩ | hk <;>
      simp only [hk, hpending', hcovered, Bool.false_and, Bool.false_eq_true, if_false, hacquire, Got.andThen_ok, hpoison',
        noted] <;> rfl

/-- Bytes of a vault range that may be read now (R136, R148). -/
theorem State.vaultBytes_of_ready {q off : Nat} {l : Loc} (h : ReadReady (.vault q off) n l u) :
    u.vaultBytes i w q off n = .ok (u.locRead (Fields.lsid w) l n) (loaded w (.vault q off) l n u) := by
  obtain ⟨hfree, hpoison, rfl⟩ := h
  have hpoison' : ¬(u.pass.covered (Fields.lsid w) (.vault q off) n = false ∧ u.locPoison (.vault q off) n = true) :=
    fun hp => Bool.false_ne_true (hpoison.symm.trans hp.2)
  rw [State.vaultBytes, State.vaultReady_of_free hfree (by simp), Got.andThen_ok, if_neg hpoison']
  rfl

/-- Bytes of a place that may be read now. -/
theorem State.placeBytes_of_ready {p : Place} {l : Loc} {nc single : Bool} (h : ReadReady p n l u) :
    u.placeBytes i w p n nc single = .ok (u.locRead (Fields.lsid w) l n) (loaded w p l n u) := by
  cases p with
  | virt va => exact State.globalBytes_of_ready h
  | vault q off => exact State.vaultBytes_of_ready h

end

end Sys2Proof.Machine

namespace Sys2Proof.Machine
open Sys2Proof.Safety

section
variable {i : Instr} {w : Fields} {u : State} {n : Nat}

/-! ### Loads (R262, R264, R267) -/

theorem State.noteRead_only (u : State) (j : Nat) (l : Loc) (n : Nat) :
    u.noteRead j l n = { u with pass := { u.pass with reads := (u.noteRead j l n).pass.reads } } := by
  unfold State.noteRead
  split <;> rfl

theorem State.chargeMove_only (u : State) (c source dest n : Nat) :
    u.chargeMove c source dest n = { u with meters := (u.chargeMove c source dest n).meters } := by
  unfold State.chargeMove
  split <;> rfl

/-- What a read noted for its own LSID gives no later read of that LSID (R298). -/
theorem State.locRead_noteRead (u : State) (j : Nat) (l l' : Loc) (m : Nat) :
    (u.noteRead j l m).locRead j l' n = u.locRead j l' n := by
  have hfound : ∀ k, (u.noteRead j l m).pass.found j k = u.pass.found j k := by
    intro k
    unfold State.noteRead
    split
    · rfl
    · simp [Pass.found, List.filterMap_append, List.filterMap_map, Function.comp_def]
  have hforward : ∀ k, (u.noteRead j l m).pass.forward j k = u.pass.forward j k := by
    intro k
    rw [u.noteRead_only]
    rfl
  have hbyte : ∀ k, (u.noteRead j l m).locByte k = u.locByte k := by
    intro k
    rw [u.noteRead_only]
    rfl
  simp only [State.locRead, hfound, hforward, hbyte]

/-- A state after a read of bytes differs from the one before in its charge and in what the read noted. -/
theorem noted_only (w : Fields) (l : Loc) (n : Nat) (u : State) :
    ∃ m r, noted w l n u = { u with meters := m, pass := { u.pass with reads := r } } := by
  cases l with
  | glob a => exact ⟨_, _, u.noteRead_only _ _ _⟩
  | vault q off =>
    simp only [noted]
    rw [State.noteRead_only, State.chargeMove_only]
    exact ⟨_, _, rfl⟩

theorem readReady_noted {p : Place} {l l' : Loc} {m : Nat} (h : ReadReady p n l u) : ReadReady p n l (noted w l' m u) := by
  obtain ⟨ms, r, hnoted⟩ := noted_only w l' m u
  rw [hnoted]
  cases p with
  | virt va => exact h
  | vault q off => exact h

/-- The cached translation found for an address after the use of one is the one found before, used or not. -/
theorem State.tlbHit_touch {q c va : Nat} {write : Bool} {e e' : TlbEntry} (h : u.tlbHit q c va write = some e) :
    (u.touch e').tlbHit q c va write = some (if e = e' then { e with used := u.clock } else e) := by
  unfold State.tlbHit State.touch at *
  rw [List.find?_map]
  have hkeep : ∀ p : TlbEntry → Bool, (∀ x t, p { x with used := t } = p x) →
      (p ∘ fun x => if x = e' then { x with used := u.clock } else x) = p := by
    intro p hp
    funext x
    simp only [Function.comp]
    split
    · exact hp x _
    · rfl
  rw [hkeep _ fun _ _ => rfl]
  exact congrArg (Option.map fun x => if x = e' then { x with used := u.clock } else x) h

/-- Using a cached translation leaves every place readable that was. -/
theorem readReady_touch {p : Place} {l : Loc} {e : TlbEntry} (h : ReadReady p n l u) : ReadReady p n l (u.touch e) := by
  cases p with
  | vault q off => exact h
  | virt va =>
    obtain ⟨e', ⟨hwaits, hhit, hlog⟩, rfl, hlocal, hpending, hanswer, hreadable, hpoison⟩ := h
    have hhit' := State.tlbHit_touch (e' := e) hhit
    split at hhit'
    · exact ⟨_, ⟨hwaits, hhit', hlog⟩, rfl, hlocal, hpending, hanswer, hreadable, hpoison⟩
    · exact ⟨_, ⟨hwaits, hhit', hlog⟩, rfl, hlocal, hpending, hanswer, hreadable, hpoison⟩

theorem used_eq (p : Place) (write : Bool) (u : State) : used p write u = u ∨ ∃ e, used p write u = u.touch e := by
  cases p with
  | vault q off => exact .inl rfl
  | virt va =>
    simp only [used]
    split
    · next e _ => exact .inr ⟨e, rfl⟩
    · exact .inl rfl

theorem readReady_loaded {p p' : Place} {l l' : Loc} {m : Nat} (h : ReadReady p n l u) :
    ReadReady p n l (loaded w p' l' m u) := by
  apply readReady_noted
  rcases used_eq p' false u with heq | ⟨e, heq⟩ <;> rw [heq]
  · exact h
  · exact readReady_touch h

theorem locRead_loaded {p : Place} {l l' : Loc} {m : Nat} :
    (loaded w p l m u).locRead (Fields.lsid w) l' n = u.locRead (Fields.lsid w) l' n := by
  have hused : (used p false u).locRead (Fields.lsid w) l' n = u.locRead (Fields.lsid w) l' n := by
    rcases used_eq p false u with heq | ⟨e, heq⟩
    · rw [heq]
    · rw [heq]
      rfl
  rw [← hused, loaded]
  cases l with
  | glob a => exact State.locRead_noteRead ..
  | vault q off =>
    refine (State.locRead_noteRead ..).trans ?_
    rw [State.chargeMove_only]
    rfl

/-- A load of up to eight bytes of a place that may be read now goes on with the bytes there. -/
theorem State.load_of_ready {sp : Space} {a : Word} {al : Nat} {nc : Bool} {k : List Byte → State → State} {p : Place} {l : Loc}
    (hlower : u.pass.lowerNotReady (Fields.lsid w) = false) (hplace : u.place sp (a + Fields.off15 w) n al = .ok p)
    (hn : n ≤ 8) (h : ReadReady p n l u) :
    u.load i w sp a n al nc k = k (u.locRead (Fields.lsid w) l n) (loaded w p l n u) := by
  simp only [State.load, hlower, Bool.false_eq_true, if_false, hplace, State.gotPlace, Got.andThen_ok, if_pos hn,
    State.placeBytes_of_ready h, Got.done_ok]

/-- A load of 16 bytes takes its two halves one after the other. -/
theorem State.load_of_ready_pair {sp : Space} {a : Word} {nc : Bool} {k : List Byte → State → State} {p : Place} {l l' : Loc}
    (hlower : u.pass.lowerNotReady (Fields.lsid w) = false) (hplace : u.place sp (a + Fields.off15 w) 16 8 = .ok p)
    (h : ReadReady p 8 l u) (h' : ReadReady p.high 8 l' u) :
    u.load i w sp a 16 8 nc k = k (u.locRead (Fields.lsid w) l 8 ++ u.locRead (Fields.lsid w) l' 8)
      (loaded w p.high l' 8 (loaded w p l 8 u)) := by
  have hnot : ¬16 ≤ 8 := by decide
  simp only [State.load, hlower, Bool.false_eq_true, if_false, hplace, State.gotPlace, Got.andThen_ok, if_neg hnot,
    State.placeBytes_of_ready h, State.placeBytes_of_ready (readReady_loaded (w := w) (p' := p) (l' := l) (m := 8) h'),
    locRead_loaded, Got.done_ok]

theorem State.locRead_length (u : State) (j : Nat) (l : Loc) (n : Nat) : (u.locRead j l n).length = n := by
  simp [State.locRead]

theorem ldBytes_le (t : LdTy) : ldBytes t ≤ 8 := by cases t <;> decide

theorem sizeBytes_le (n : Size) : sizeBytes n ≤ 8 := by cases n <;> decide

end

@[simp] theorem State.request_pass (u : State) (r : CohReq) : (u.request r).pass = u.pass := by
  unfold State.request
  dsimp only
  split
  · rfl
  · split
    · rfl
    · rw [State.post_pass]

/-! ### A charge for a firing changes no access -/

theorem State.place_chargeFiring (s : State) (i : Instr) (sp : Space) (ea : Word) (n al : Nat) :
    (s.chargeFiring i).place sp ea n al = s.place sp ea n al := rfl

theorem readReady_chargeFiring {s : State} {p : Place} {n : Nat} {l : Loc} (i : Instr) (h : ReadReady p n l s) :
    ReadReady p n l (s.chargeFiring i) := by
  cases p with
  | virt va => exact h
  | vault q off => exact h

theorem State.locRead_chargeFiring (s : State) (i : Instr) (j : Nat) (l : Loc) (n : Nat) :
    (s.chargeFiring i).locRead j l n = s.locRead j l n := rfl

/-- Settles O20: a load is its place, its bytes and what it emits; the halves of `ldv` are read one after the other. -/
theorem loadAndPrefetchResults : Obligations.LoadAndPrefetchResults := by
  unfold Obligations.LoadAndPrefetchResults
  refine ⟨fun w v p l l' s hlower => ⟨fun t sp hf hplace h => ?ld, fun n hf hplace h => ?ldNc, fun sp hf hplace h h' => ?ldv⟩,
    fun w v s hf => ⟨fun hmiss => ?dropped, fun e hhit hva hlocal hunread => ?requested⟩⟩
  case ld =>
    exact exec_of_fire rfl (State.load_of_ready hlower ((s.place_chargeFiring ..).trans hplace) (ldBytes_le t)
      (readReady_chargeFiring _ h)) hf
  case ldNc =>
    exact exec_of_fire rfl (State.load_of_ready hlower ((s.place_chargeFiring ..).trans hplace) (sizeBytes_le n)
      (readReady_chargeFiring _ h)) hf
  case ldv =>
    refine exec_of_fire (t := _) rfl ((State.load_of_ready_pair (u := s.chargeFiring (.ldv sp w)) (i := .ldv sp w) hlower hplace
      (readReady_chargeFiring _ h) (readReady_chargeFiring _ h')).trans ?_) hf
    simp only [List.take_left' (State.locRead_length ..), List.drop_left' (State.locRead_length ..),
      State.locRead_chargeFiring]
  case dropped =>
    refine exec_of_fire rfl ?_ hf
    have hmiss' : (s.chargeFiring (.pf w)).tlbHit s.pass.quay s.pass.ctx (v.a + Fields.off15 w).toNat false = none := hmiss
    simp only [State.chargeFiring_pass, hmiss']
    rfl
  case requested =>
    refine exec_of_fire rfl ?_ hf
    have hhit' : (s.chargeFiring (.pf w)).tlbHit s.pass.quay s.pass.ctx (v.a + Fields.off15 w).toNat false = some e := hhit
    have hunread' : ((s.chargeFiring (.pf w)).touch e).readable s.pass.quay s.pass.quay
        ((e.xlate (v.a + Fields.off15 w).toNat).pa / 128) (e.xlate (v.a + Fields.off15 w).toNat).gen = false := hunread
    simp only [State.chargeFiring_pass, hhit', State.touch_pass, hunread', decide_eq_true hva, Bool.not_false, Bool.and_self,
      if_true]
    rcases paKind_of_local (u := (s.chargeFiring (.pf w)).touch e) hlocal with ⟨sl, off, hk⟩ | ⟨d, r, off, hk⟩ | hk <;>
      simp only [hk, State.request_pass, State.touch_pass, State.chargeFiring_pass]

end Sys2Proof.Machine

namespace Sys2Proof.Machine
open Sys2Proof.Safety

/-! ### Stores (R262, R270) -/

section
variable {i : Instr} {w : Fields} {u : State} {n : Nat} {p : Place} {l : Loc} {gen : BitVec 8}

/-- The write permission of a global place that may be written, at the state after its translation (R76, R270). -/
theorem State.acquire_of_writable {va : Word} {e : TlbEntry} {alloc : Bool} {kind : AccKind}
    (hanswer : u.answerOf u.pass.quay ((e.xlate va.toNat).pa / 128) u.me true = none)
    (hwritable : u.writable u.pass.quay ((e.xlate va.toNat).pa / 128) = true) :
    (u.touch e).acquire i w (u.touch e).pass.ctx va.toNat (e.xlate va.toNat) (u.touch e).pass.quay true alloc kind =
      .ok ((u.touch e).lineMeta (u.touch e).pass.quay (u.touch e).pass.quay ((e.xlate va.toNat).pa / 128)
        (e.xlate va.toNat).gen) (u.touch e) :=
  State.acquire_of_held (u := u.touch e) (write := true) hanswer hwritable

theorem State.globalStore_of_ready {va : Word} {bs : List Byte} {single : Bool} (h : WriteReady (.virt va) bs.length l gen u) :
    u.globalStore i w va bs single = .ok (writeRecord .store (.virt va) l gen bs w 0 u) (used (.virt va) true u) := by
  obtain ⟨⟨e, htrans, rfl, rfl, hlocal, hanswer, hwritable⟩, hfreeze⟩ := h
  have hfreeze' : (u.touch e).ownFreeze va.toNat = false := hfreeze va rfl
  rw [State.globalStore, State.port_of_translated htrans, Got.andThen_ok, used_virt_of_translated htrans]
  rcases paKind_of_local (u := u.touch e) hlocal with ⟨sl, off, hk⟩ | ⟨d, r, off, hk⟩ | hk <;>
    simp only [hk, hfreeze', Bool.false_eq_true, if_false, State.acquire_of_writable hanswer hwritable, Got.andThen_ok] <;> rfl

theorem State.vaultStore_of_ready {q off : Nat} {bs : List Byte} (h : WriteReady (.vault q off) bs.length l gen u) :
    u.vaultStore i w q off bs = .ok (writeRecord .store (.vault q off) l gen bs w 0 u) u := by
  obtain ⟨⟨hfree, hheld, rfl, rfl⟩, -⟩ := h
  rw [State.vaultStore, State.vaultReady_of_free hfree fun _ => hheld, Got.andThen_ok]
  rfl

/-- A part of a store whose place may be written is a record of the block store buffer. -/
theorem State.placeStore_of_ready {bs : List Byte} {single : Bool} (h : WriteReady p bs.length l gen u) :
    u.placeStore i w p bs single = .ok (writeRecord .store p l gen bs w 0 u) (used p true u) := by
  cases p with
  | virt va => exact State.globalStore_of_ready h
  | vault q off => exact State.vaultStore_of_ready h

/-- Using a cached translation leaves every place writable that was. -/
theorem writeHeld_touch {e : TlbEntry} (h : WriteHeld p n l gen u) : WriteHeld p n l gen (u.touch e) := by
  cases p with
  | vault q off => exact h
  | virt va =>
    obtain ⟨e', ⟨hwaits, hhit, hlog⟩, rfl, rfl, hlocal, hanswer, hwritable⟩ := h
    have hhit' := State.tlbHit_touch (e' := e) hhit
    split at hhit'
    · exact ⟨_, ⟨hwaits, hhit', hlog⟩, rfl, rfl, hlocal, hanswer, hwritable⟩
    · exact ⟨_, ⟨hwaits, hhit', hlog⟩, rfl, rfl, hlocal, hanswer, hwritable⟩

theorem writeReady_used {p' : Place} {write : Bool} (h : WriteReady p n l gen u) : WriteReady p n l gen (used p' write u) := by
  rcases used_eq p' write u with heq | ⟨e, heq⟩ <;> rw [heq]
  · exact h
  · exact ⟨writeHeld_touch h.1, h.2⟩

theorem writeHeld_chargeFiring {s : State} (i : Instr) (h : WriteHeld p n l gen s) : WriteHeld p n l gen (s.chargeFiring i) := by
  cases p with
  | virt va => exact h
  | vault q off => exact h

theorem writeReady_chargeFiring {s : State} (i : Instr) (h : WriteReady p n l gen s) :
    WriteReady p n l gen (s.chargeFiring i) := ⟨writeHeld_chargeFiring i h.1, h.2⟩

theorem writeRecord_used (kind : WriteKind) (p p' : Place) (bs : List Byte) (scope : BitVec 3) (write : Bool) :
    writeRecord kind p l gen bs w scope (used p' write u) = writeRecord kind p l gen bs w scope u := by
  rcases used_eq p' write u with heq | ⟨e, heq⟩
  · rw [heq]
  · rw [heq]
    rfl

theorem used_mem (p : Place) (write : Bool) (u : State) : (used p write u).mem = u.mem := by
  rcases used_eq p write u with heq | ⟨e, heq⟩
  · rw [heq]
  · rw [heq, State.touch_mem]

theorem used_vmem (p : Place) (write : Bool) (u : State) : (used p write u).vmem = u.vmem := by
  rcases used_eq p write u with heq | ⟨e, heq⟩
  · rw [heq]
  · rw [heq, State.touch_vmem]

theorem leBytes_length : ∀ n v : Nat, (leBytes n v).length = n
  | 0, _ => rfl
  | n + 1, v => congrArg (· + 1) (leBytes_length n (v / 256))

end

/-- Settles O21: each part of a store becomes a record of the buffer; only the translation used and the pass change. -/
theorem storesWaitForCommit : Obligations.StoresWaitForCommit := by
  unfold Obligations.StoresWaitForCommit
  intro w v p l l' g g' s
  refine ⟨fun n sp hf hplace h => ?st, fun sp hf hplace h h' => ?stv⟩
  case st =>
    have hstore : (s.chargeFiring (.st n sp w)).placeStore (.st n sp w) w p (leBytes (sizeBytes n) v.b.toNat) true = .ok _ _ :=
      State.placeStore_of_ready (writeReady_chargeFiring _ (by rwa [leBytes_length]))
    refine ⟨_, exec_of_fire rfl ?_ hf, rfl, fun a => ?_, fun a => ?_⟩
    · simp only [State.place_chargeFiring, hplace, State.gotPlace, Got.andThen_ok, hstore, Got.done_ok]
      rfl
    · simp only [State.buffer_mem, used_mem, State.chargeFiring_mem]
    · simp only [State.buffer_vmem, used_vmem, State.chargeFiring_vmem]
  case stv =>
    have hlow : (s.chargeFiring (.stv sp w)).placeStore (.stv sp w) w p (leBytes 8 v.b.toNat) false = .ok _ _ :=
      State.placeStore_of_ready (writeReady_chargeFiring _ (by rwa [leBytes_length]))
    have hhigh : (used p true (s.chargeFiring (.stv sp w))).placeStore (.stv sp w) w p.high (leBytes 8 v.g.toNat) false =
        .ok _ _ := State.placeStore_of_ready (writeReady_used (writeReady_chargeFiring _ (by rwa [leBytes_length])))
    refine ⟨_, exec_of_fire rfl ?_ hf, rfl, fun a => ?_, fun a => ?_⟩
    · simp only [State.place_chargeFiring, hplace, State.gotPlace, Got.andThen_ok, hlow, hhigh, Got.done_ok, writeRecord_used]
      rfl
    · simp only [State.buffer_mem, used_mem, State.chargeFiring_mem]
    · simp only [State.buffer_vmem, used_vmem, State.chargeFiring_vmem]

end Sys2Proof.Machine

namespace Sys2Proof.Machine
open Sys2Proof.Safety

/-! ### Addresses (R98, R135, R263, R264) -/

theorem extractLsb'_extractLsb'_low {n : Nat} (x : BitVec n) (m start len : Nat) (h : start + len ≤ m) :
    (x.extractLsb' 0 m).extractLsb' start len = x.extractLsb' start len := by
  apply BitVec.eq_of_getLsbD_eq
  intro k hk
  simp only [BitVec.getLsbD_extractLsb', Nat.zero_add]
  have hlt : start + k < m := by omega
  simp [hlt]

/-- Settles O22: each check of a place is a branch of the model's, the vault's on the low 32 bits of the address. -/
theorem addressChecks : Obligations.AddressChecks := by
  unfold Obligations.AddressChecks
  intro s ea n al _
  refine ⟨rfl, ?vault, fun h => if_pos h, fun h => if_pos h⟩
  have hlow : (ea.extractLsb' 0 32).extractLsb' 0 24 = ea.extractLsb' 0 24 := extractLsb'_extractLsb'_low ea 32 0 24 (by decide)
  have hhigh : (ea.extractLsb' 0 32).extractLsb' 29 3 = ea.extractLsb' 29 3 := extractLsb'_extractLsb'_low ea 32 29 3 (by decide)
  have hend : ∀ off, off + n > vaultEnd ↔ 12582912 < off + n := fun off => Iff.rfl
  simp only [State.place, State.vaultPlace, hlow, hhigh, Bool.false_eq_true, false_and, if_false, hend]
  split
  · rfl
  · split
    · rfl
    · by_cases h : ea.extractLsb' 29 3 ≠ 0 ∨ 12582912 < (ea.extractLsb' 0 24).toNat + n
      · rw [if_pos h, if_pos h]
        rfl
      · rw [if_neg h, if_neg h]

/-! ### Atomics (R261, R272, R276) -/

section
variable {i : Instr} {w : Fields} {u : State} {n : Nat} {p : Place} {l : Loc} {gen : BitVec 8}

theorem State.globalOld_of_ready {va : Word} (h : HoldReady (.virt va) n l gen u) :
    u.globalOld i w va n = .ok (l, gen, u.locRead (Fields.lsid w) l n) (noted w l n (used (.virt va) true u)) := by
  obtain ⟨⟨e, htrans, rfl, rfl, hlocal, hanswer, hwritable⟩, hpending, hheld, hpoison⟩ := h
  have hpending' : (u.touch e).ownPending (.glob (e.xlate va.toNat).pa) n = false := hpending
  have hheld' : (u.touch e).heldByOther (.glob (e.xlate va.toNat).pa) = false := hheld
  have hpoison' : ((u.touch e).lineMeta (u.touch e).pass.quay (u.touch e).pass.quay ((e.xlate va.toNat).pa / 128)
    (e.xlate va.toNat).gen).poison = false := hpoison
  rw [State.globalOld, State.port_of_translated htrans, Got.andThen_ok, used_virt_of_translated htrans]
  rcases paKind_of_local (u := u.touch e) hlocal with ⟨sl, off, hk⟩ | ⟨d, r, off, hk⟩ | hk <;>
    simp only [hk, hpending', hheld', Bool.false_eq_true, if_false, State.acquire_of_writable hanswer hwritable,
      Got.andThen_ok, hpoison', and_false] <;> rfl

theorem State.vaultOld_of_ready {q off : Nat} (h : HoldReady (.vault q off) n l gen u) :
    u.vaultOld i w q off n = .ok (l, gen, u.locRead (Fields.lsid w) l n) (noted w l n u) := by
  obtain ⟨⟨hfree, hheld, rfl, rfl⟩, -, -, hpoison⟩ := h
  have hpoison' : ¬(u.pass.covered (Fields.lsid w) (.vault q off) n = false ∧ u.locPoison (.vault q off) n = true) :=
    fun hp => Bool.false_ne_true (hpoison.symm.trans hp.2)
  rw [State.vaultOld, State.vaultReady_of_free hfree fun _ => hheld, Got.andThen_ok, if_neg hpoison']
  rfl

/-- The scope, the place and the old bytes of an atomic that may hold its location now. -/
theorem State.atomicOld_of_ready {sp : AtSpace} {a : Word} (hscope : u.scopeOk u.pass.ctx (Fields.scope w) = true)
    (hplace : u.place (atSpace sp) (a + Fields.off10 w) n n = .ok p) (h : HoldReady p n l gen u) :
    u.atomicOld i w sp a n = .ok (p, l, gen, u.locRead (Fields.lsid w) l n) (noted w l n (used p true u)) := by
  simp only [State.atomicOld, State.gotScope, hscope, if_true, Got.andThen_ok, hplace, State.gotPlace]
  cases p with
  | virt va =>
    dsimp only
    rw [State.globalOld_of_ready h, Got.andThen_ok]
  | vault q off =>
    dsimp only
    rw [State.vaultOld_of_ready h, Got.andThen_ok]
    rfl

theorem holdReady_chargeFiring {s : State} (i : Instr) (h : HoldReady p n l gen s) : HoldReady p n l gen (s.chargeFiring i) := by
  obtain ⟨hwrite, hpending, hheld, hpoison⟩ := h
  exact ⟨writeHeld_chargeFiring i hwrite, hpending, hheld, by cases l <;> exact hpoison⟩

theorem holdReady_noted {l' : Loc} {m : Nat} (h : HoldReady p n l gen u) : HoldReady p n l gen (noted w l' m u) := by
  obtain ⟨hwrite, hpending, hheld, hpoison⟩ := h
  obtain ⟨ms, r, hnoted⟩ := noted_only w l' m u
  rw [hnoted]
  exact ⟨by cases p <;> exact hwrite, hpending, hheld, by cases l <;> exact hpoison⟩

/-- The block of `cas.b128` at an offset that its checks let through (R276). -/
theorem State.casBlock_of_ready {b : Word} {off : Nat} (hoff : off = (b.extractLsb' 0 24).toNat) (halign : off % 32 = 0)
    (hend : off + 32 ≤ vaultEnd) (h : ReadReady (ownPlace off u) 32 (.vault u.pass.quay off) u) :
    u.casBlock i w b = .ok (u.locRead (Fields.lsid w) (.vault u.pass.quay off) 32) (ownLoaded w off 32 u) := by
  have hin : ¬(off + 32 > vaultEnd) := by omega
  rw [State.casBlock, ← hoff]
  simp only [halign, ne_eq, not_true, if_false, hin]
  exact State.vaultBytes_of_ready h

/-- An atomic that fires and may hold its location holds it with its new value, and gives the old one (R272). -/
theorem exec_atomic {s : State} {sp : AtSpace} {v : PortVals} (f : Word → Word → Word)
    (hexec : exec i s = .next (s.atomic i w sp n f)) (h : AtomicFires i w sp n v p l gen s) :
    exec i s = .next (swapped i w n p l gen (f (oldOf w n l s) v.b) s) := by
  obtain ⟨hf, hscope, hplace, hready⟩ := h
  rw [hexec, State.atomic, s.fire_of_fires i w v _ hf]
  rw [State.atomicOld_of_ready (u := s.chargeFiring i) hscope ((s.place_chargeFiring ..).trans hplace)
    (holdReady_chargeFiring i hready)]
  simp only [Got.done_ok, swapped, heldRead, oldOf, State.locRead_chargeFiring]

end

/-- Settles O23: the atomics are one form with a function of old value and port b; `cas` compares before it holds. -/
theorem atomicResults : Obligations.AtomicResults := by
  unfold Obligations.AtomicResults
  refine ⟨fun t n sp w v p l g s => ?atomics, fun sp w v p l g s => ⟨fun n h => ?cas, fun off blk h hoff halign hend hblk heq =>
    ?casB128, fun hf hscope => ?fence⟩⟩
  case atomics =>
    exact ⟨exec_atomic (atInt t (· + ·)) rfl, exec_atomic (atInt t (· - ·)) rfl, exec_atomic (atInt t min) rfl,
      exec_atomic (atInt t max) rfl, exec_atomic (atInt t fun o b => if o ≥ b then 0 else o + 1) rfl,
      exec_atomic (atInt t fun o b => if o = 0 ∨ o > b then b else o - 1) rfl, exec_atomic (· &&& ·) rfl,
      exec_atomic (· ||| ·) rfl, exec_atomic (· ^^^ ·) rfl, exec_atomic (fun _ b => b) rfl, exec_atomic atomFadd rfl,
      exec_atomic atomFadd2 rfl⟩
  case cas =>
    obtain ⟨hf, hscope, hplace, hready⟩ := h
    refine exec_of_fire rfl ?_ hf
    simp only [State.atomicOld_of_ready (u := s.chargeFiring (.cas n sp w)) hscope ((s.place_chargeFiring ..).trans hplace)
      (holdReady_chargeFiring _ hready), Got.done_ok, State.locRead_chargeFiring, beq_iff_eq]
    rfl
  case fence =>
    refine exec_of_fire rfl ?_ hf
    have hscope' : (s.chargeFiring (.fence w)).scopeOk (s.chargeFiring (.fence w)).pass.ctx (Fields.scope w) = true := hscope
    simp only [State.gotScope, hscope', if_true, Got.done_ok]
    rfl
  case casB128 =>
    obtain ⟨hf, hscope, hplace, hready⟩ := h
    have hscope' : (s.chargeFiring (.casB128 sp w)).scopeOk (s.chargeFiring (.casB128 sp w)).pass.ctx (Fields.scope w) = true :=
      hscope
    have hb : (s.chargeFiring (.casB128 sp w)).casBlock (.casB128 sp w) w v.b =
        .ok blk (ownLoaded w off 32 (s.chargeFiring (.casB128 sp w))) := by
      rw [State.casBlock_of_ready (u := s.chargeFiring (.casB128 sp w)) hoff halign hend (readReady_chargeFiring _ hblk), heq]
      rfl
    obtain ⟨ms, r, hnoted⟩ := noted_only w (.vault s.pass.quay off) 32 (s.chargeFiring (.casB128 sp w))
    have hown : ownLoaded w off 32 (s.chargeFiring (.casB128 sp w)) =
        { s.chargeFiring (.casB128 sp w) with
          meters := ms, pass := { (s.chargeFiring (.casB128 sp w)).pass with reads := r } } := hnoted
    have hscopeOwn : (ownLoaded w off 32 (s.chargeFiring (.casB128 sp w))).scopeOk
        (ownLoaded w off 32 (s.chargeFiring (.casB128 sp w))).pass.ctx (Fields.scope w) = true := by rw [hown]; exact hscope
    have hplaceOwn : (ownLoaded w off 32 (s.chargeFiring (.casB128 sp w))).place (atSpace sp) (v.a + Fields.off10 w) 16 16 =
        .ok p := by rw [hown]; exact hplace
    have hold : HoldReady p 16 l g (ownLoaded w off 32 (s.chargeFiring (.casB128 sp w))) :=
      holdReady_noted (holdReady_chargeFiring _ hready)
    have hread : (ownLoaded w off 32 (s.chargeFiring (.casB128 sp w))).locRead (Fields.lsid w) l 16 =
        s.locRead (Fields.lsid w) l 16 := locRead_loaded
    refine exec_of_fire rfl ?_ hf
    simp only [State.gotScope, hscope', if_true, Got.andThen_ok, hb, Got.done_ok,
      State.atomicOld_of_ready hscopeOwn hplaceOwn hold, hread, beq_iff_eq, ← hoff]
    rfl

end Sys2Proof.Machine

namespace Sys2Proof.Machine
open Sys2Proof.Safety

/-! ### Completion objects and group reductions (R258, R334 to R338) -/

section
variable {i : Instr} {w : Fields} {u : State} {n : Nat} {p : Place} {l : Loc} {gen : BitVec 8}

theorem used_pass (p : Place) (write : Bool) (u : State) : (used p write u).pass = u.pass := by
  rcases used_eq p write u with heq | ⟨e, heq⟩
  · rw [heq]
  · rw [heq, State.touch_pass]

/-- The place of an object that its operand names (R334, R403). -/
theorem State.objectPlace_of_objectAt {o : Word} {held : Bool} (h : ObjectAt o p u) :
    u.objectPlace i w o held = .ok p u := by
  rcases h with ⟨hne, hglobal, hcanon, halign, rfl⟩ | ⟨tq, off, hvault, hreserved, halign, hoperand, rfl⟩
  · simp only [State.objectPlace, hne, hglobal, hcanon, halign, ne_eq, not_true, if_false, Bool.false_eq_true]
  · have hne : o ≠ 0 := by
      rintro rfl
      exact absurd hvault (by decide)
    simp only [State.objectPlace, hne, hvault, hreserved, halign, ne_eq, not_true, if_false, if_true, hoperand]

theorem State.gotObject_of_objectAt {o : Word} (h : ObjectAt o p u) : u.gotObject i w o = .ok p u :=
  State.objectPlace_of_objectAt h

theorem State.gotScope_of_ok {sc : BitVec 3} (h : u.scopeOk u.pass.ctx sc = true) : u.gotScope i w sc = .ok () u := if_pos h

/-- A write to an object that may be stored to is a record of the block store buffer (R270, R334). -/
theorem State.objectWrite_of_ready {kind : WriteKind} {bs : List Byte} (h : WriteReady p 16 l gen u) :
    u.objectWrite i w p kind bs = .ok (writeRecord kind p l gen bs w (Fields.scope w) u) (used p true u) := by
  have hlen : (List.replicate 16 (0 : Byte)).length = 16 := rfl
  cases p with
  | virt va =>
    simp only [State.objectWrite, State.globalStore_of_ready (bs := List.replicate 16 0) (hlen.symm ▸ h), Got.andThen_ok]
    rfl
  | vault q off =>
    simp only [State.objectWrite, State.vaultStore_of_ready (bs := List.replicate 16 0) (hlen.symm ▸ h), Got.andThen_ok]
    rfl

/-- The write of an object form whose operand, scope and place stand. -/
theorem State.object_of_ready {o : Word} {kind : WriteKind} {bs : List Byte} (hobject : ObjectAt o p u)
    (hscope : u.scopeOk u.pass.ctx (Fields.scope w) = true) (h : WriteReady p 16 l gen u) :
    ((u.gotObject i w o).andThen fun p s => (s.gotScope i w (Fields.scope w)).andThen fun _ s => s.objectWrite i w p kind bs) =
      .ok (writeRecord kind p l gen bs w (Fields.scope w) u) (used p true u) := by
  rw [State.gotObject_of_objectAt hobject, Got.andThen_ok, State.gotScope_of_ok hscope, Got.andThen_ok,
    State.objectWrite_of_ready h]

end

section
variable {i : Instr} {w : Fields} {v : PortVals} {s : State} {t : GredTy} {op : Nat}

/-- A group reduction is captured where its record offset stands (R258). -/
theorem gred_of_aligned (hexec : exec i s = .next (s.gred i w op t)) (halign : (v.b.extractLsb' 0 24).toNat % 32 = 0)
    (hend : (v.b.extractLsb' 0 24).toNat + 32 ≤ vaultEnd) (hf : Fires i w v s) :
    exec i s = .next ((withPass (s.chargeFiring i) { s.pass with greds := s.pass.greds ++
      [{ idx := s.pass.cur, op := op, flt := t == .f32, rnd := s.pass.block.h0.extractLsb' 66 3,
         ftz := s.pass.block.h0.getLsbD 65, val := some (v.a.extractLsb' 0 32),
         off := some (v.b.extractLsb' 0 24).toNat }] }).emitVal i w v.b) :=
  exec_of_fire hexec ((if_neg (not_not.mpr halign)).trans (if_neg (Nat.not_lt.mpr hend))) hf

theorem gred_traps_of_misaligned (hexec : exec i s = .next (s.gred i w op t))
    (halign : (v.b.extractLsb' 0 24).toNat % 32 ≠ 0) (hf : Fires i w v s) : Traps i w s cMisaligned v.b :=
  exec_of_fire hexec (if_pos halign) hf

theorem gred_traps_of_past_end (hexec : exec i s = .next (s.gred i w op t))
    (halign : (v.b.extractLsb' 0 24).toNat % 32 = 0) (hend : vaultEnd < (v.b.extractLsb' 0 24).toNat + 32)
    (hf : Fires i w v s) : Traps i w s cVaultAddr v.b :=
  exec_of_fire hexec ((if_neg (not_not.mpr halign)).trans (if_pos hend)) hf

end

/-- Settles O19: the object forms are place, scope and write; the reductions are one form with a number. -/
theorem completionObjectsAndReductionsFire : Obligations.CompletionObjectsAndReductionsFire := by
  unfold Obligations.CompletionObjectsAndReductionsFire
  refine ⟨fun w v p l gen s hobject => ⟨fun hf hexpect hzero hscope h => ?coInit, fun hf hzero hscope h => ?coArrive,
    fun hf hscope => ?coWait, fun hf => ?elect⟩, fun t w v s => ⟨fun halign hend => ?reduced, fun i hi hf => ?traps⟩⟩
  case coInit =>
    have hok := State.object_of_ready (i := .coInit w) (w := w) (u := s.chargeFiring (.coInit w)) (kind := .coInit v.b)
      (bs := leBytes 16 (v.b.extractLsb' 0 32 ++ 0#95 ++ v.b.extractLsb' 32 1).toNat) hobject hscope
      (writeReady_chargeFiring _ h)
    refine exec_of_fire rfl ((if_neg (not_or.mpr ⟨hexpect, not_not.mpr hzero⟩)).trans ?_) hf
    rw [hok, Got.done_ok, used_pass]
    rfl
  case coArrive =>
    have hok := State.object_of_ready (i := .coArrive w) (w := w) (u := s.chargeFiring (.coArrive w))
      (kind := .coArrive (v.b.extractLsb' 0 8)) (bs := []) hobject hscope (writeReady_chargeFiring _ h)
    refine exec_of_fire rfl ((if_neg (not_not.mpr hzero)).trans ?_) hf
    rw [hok, Got.done_ok, used_pass]
    rfl
  case coWait =>
    refine exec_of_fire rfl ?_ hf
    have hobject' : ObjectAt v.a p (s.chargeFiring (.coWait w)) := hobject
    have hscope' : (s.chargeFiring (.coWait w)).scopeOk (s.chargeFiring (.coWait w)).pass.ctx
      ((Operand.immOr0 w.f2).extractLsb' 17 3) = true := hscope
    dsimp only
    rw [State.gotObject_of_objectAt hobject', Got.andThen_ok, State.gotScope_of_ok hscope', Got.andThen_ok, Got.done_ok]
    rfl
  case elect => exact exec_of_fire rfl rfl hf
  case reduced => exact ⟨gred_of_aligned rfl halign hend, gred_of_aligned rfl halign hend, gred_of_aligned rfl halign hend⟩
  case traps =>
    rcases hi with rfl | rfl | rfl
    · exact ⟨fun h => gred_traps_of_misaligned rfl h hf, fun halign hend => gred_traps_of_past_end rfl halign hend hf⟩
    · exact ⟨fun h => gred_traps_of_misaligned rfl h hf, fun halign hend => gred_traps_of_past_end rfl halign hend hf⟩
    · exact ⟨fun h => gred_traps_of_misaligned rfl h hf, fun halign hend => gred_traps_of_past_end rfl halign hend hf⟩

end Sys2Proof.Machine

namespace Sys2Proof.Machine
open Sys2Proof.Safety

/-! ### Engine forms (R282, R285) -/

section
variable {i : Instr} {w : Fields} {u : State} {off n : Nat}

/-- A load of the own vault changes only the meters and what its pass has read. -/
theorem ownLoaded_only (w : Fields) (off n : Nat) (u : State) :
    ∃ m r, ownLoaded w off n u = { u with meters := m, pass := { u.pass with reads := r } } :=
  noted_only w (.vault u.pass.quay off) n u

@[simp] theorem ownLoaded_cur : (ownLoaded w off n u).pass.cur = u.pass.cur := by
  obtain ⟨m, r, h⟩ := ownLoaded_only w off n u
  rw [h]

@[simp] theorem ownLoaded_quay : (ownLoaded w off n u).pass.quay = u.pass.quay := by
  obtain ⟨m, r, h⟩ := ownLoaded_only w off n u
  rw [h]

@[simp] theorem ownLoaded_ctx : (ownLoaded w off n u).pass.ctx = u.pass.ctx := by
  obtain ⟨m, r, h⟩ := ownLoaded_only w off n u
  rw [h]

@[simp] theorem engineRefusal_ownLoaded (c : Nat) (k : OpKind) (co : Word) (d : BitVec 256) (e : BitVec 512) :
    engineRefusal (ownLoaded w off n u) c k co d e = engineRefusal u c k co d e := by
  obtain ⟨m, r, h⟩ := ownLoaded_only w off n u
  rw [h]
  rfl

/-- The bytes of the own vault that a form reads once it is charged. -/
theorem State.ownBytes_of_ready {s : State} (h : ReadReady (.vault s.pass.quay off) n (.vault s.pass.quay off) s) :
    (s.chargeFiring i).vaultBytes i w s.pass.quay off n =
      .ok (s.locRead (Fields.lsid w) (.vault s.pass.quay off) n) (ownLoaded w off n (s.chargeFiring i)) :=
  State.vaultBytes_of_ready (readReady_chargeFiring i h)

/-- The same of a form that has read its own vault before. -/
theorem State.ownBytes_of_loaded {s : State} {off' m : Nat}
    (h : ReadReady (.vault s.pass.quay off) n (.vault s.pass.quay off) s) :
    (ownLoaded w off' m (s.chargeFiring i)).vaultBytes i w s.pass.quay off n =
      .ok (s.locRead (Fields.lsid w) (.vault s.pass.quay off) n)
        (ownLoaded w off n (ownLoaded w off' m (s.chargeFiring i))) := by
  have hready : ReadReady (.vault s.pass.quay off) n (.vault s.pass.quay off) (ownLoaded w off' m (s.chargeFiring i)) :=
    readReady_loaded (readReady_chargeFiring i h)
  rw [State.vaultBytes_of_ready hready, ownLoaded, locRead_loaded, State.locRead_chargeFiring]
  have hquay := ownLoaded_quay (w := w) (off := off') (n := m) (u := s.chargeFiring i)
  simp only [ownLoaded, ownPlace] at hquay ⊢
  rw [hquay]
  rfl

/-- A form other than a sequence reads its descriptor and is captured (R282, R285). -/
theorem exec_engine {s : State} {k : OpKind} {v : PortVals} {d : BitVec 256}
    (hk : (k == .seqGemm || k == .seqAttn) = false) (hexec : exec i s = .next (s.engine i w k))
    (h : EngineFires i k w v d s) : exec i s = .next (engaged i k w v d s) := by
  obtain ⟨hf, hscope, ⟨halign, hend, hready, rfl⟩, hstands⟩ := h
  have hscope' : (s.chargeFiring i).scopeOk s.pass.ctx (Fields.scope w) = true := hscope
  have hstands' : ∀ d, engineRefusal (s.chargeFiring i) s.pass.ctx k v.b d 0 = engineRefusal s s.pass.ctx k v.b d 0 := fun _ => rfl
  rw [hexec, State.engine, s.fire_of_fires i w v _ hf]
  simp only [hk, Bool.false_eq_true, false_and, if_false, halign, ne_eq, not_true, Nat.not_lt.mpr hend,
    State.gotScope, State.chargeFiring_pass, hscope', if_true, Got.andThen_ok, State.ownBytes_of_ready hready, Got.done_ok,
    ownLoaded_ctx, engineRefusal_ownLoaded, hstands', hstands, ownLoaded_cur, engaged, captured]

/-- A sequence form reads both its descriptors and is captured (R129, R291, R292). -/
theorem exec_sequence {s : State} {k : OpKind} {v : PortVals} {d : BitVec 256} {e : BitVec 512}
    (hk : (k == .seqGemm || k == .seqAttn) = true) (hexec : exec i s = .next (s.engine i w k))
    (h : SequenceFires i k w v d e s) : exec i s = .next (sequenced i k w v d e s) := by
  obtain ⟨hf, hpair, hscope, ⟨halign, hend, hready, rfl⟩, hform, halignExt, hendExt, hreadyExt, rfl, hstands⟩ := h
  have hscope' : (s.chargeFiring i).scopeOk s.pass.ctx (Fields.scope w) = true := hscope
  have hpair' : (s.chargeFiring i).pairRefusal = none := hpair
  have hstands' : ∀ d e, engineRefusal (s.chargeFiring i) s.pass.ctx k v.b d e = engineRefusal s s.pass.ctx k v.b d e :=
    fun _ _ => rfl
  rw [hexec, State.engine, s.fire_of_fires i w v _ hf]
  simp only [hk, true_and, hpair', Option.isSome_none, Bool.false_eq_true, if_false, halign, ne_eq, not_true,
    Nat.not_lt.mpr hend, State.gotScope, State.chargeFiring_pass, hscope', if_true, Got.andThen_ok,
    State.ownBytes_of_ready hready, hform, halignExt, hendExt, and_self, ownLoaded_quay, State.ownBytes_of_loaded hreadyExt,
    Got.done_ok, ownLoaded_ctx, engineRefusal_ownLoaded, hstands', hstands, ownLoaded_cur, sequenced, captured]

end

/-- Settles O24: the engine forms are one form with a kind; the sequences read a second descriptor. -/
theorem engineFormsFire : Obligations.EngineFormsFire := by
  unfold Obligations.EngineFormsFire
  intro t w v s
  exact ⟨fun _ => exec_engine rfl rfl, fun _ => exec_engine rfl rfl, fun _ => exec_engine rfl rfl,
    fun _ => exec_engine rfl rfl, fun _ => exec_engine rfl rfl, fun _ => exec_engine rfl rfl, fun _ => exec_engine rfl rfl,
    fun _ => exec_engine rfl rfl, fun _ => exec_engine rfl rfl, fun _ => exec_engine rfl rfl, fun _ => exec_engine rfl rfl,
    fun _ => exec_engine rfl rfl, fun _ => exec_engine rfl rfl, fun _ => exec_engine rfl rfl, fun _ => exec_engine rfl rfl,
    fun _ => exec_engine rfl rfl, fun _ => exec_engine rfl rfl, fun _ _ => exec_sequence rfl rfl,
    fun _ _ => exec_sequence rfl rfl⟩

/-! ### Matrix forms (R243, R248 to R252) -/

section
variable {i : Instr} {w : Fields} {s : State} {k : OpKind} {v : PortVals} {check : PortVals → Option (BitVec 8 × Word)}

/-- A matrix form on a pair that is its own, whose check passes, is captured (R243). -/
theorem exec_matrix (hexec : exec i s = .next (s.matrix i w k check)) (hpair : s.pairRefusal = none) (hcheck : check v = none)
    (hf : Fires i w v s) :
    exec i s = .next (captured i w { idx := s.pass.cur, kind := k, a := v.a, b := v.b, scope := 4 } v.a (s.chargeFiring i)) := by
  have hpair' : (s.chargeFiring i).pairRefusal = none := hpair
  refine exec_of_fire hexec ?_ hf
  simp only [hpair', hcheck]
  rfl

theorem matrix_traps_of_check {c : BitVec 8} {a : Word} (hexec : exec i s = .next (s.matrix i w k check))
    (hpair : s.pairRefusal = none) (hcheck : check v = some (c, a)) (hf : Fires i w v s) : Traps i w s c a := by
  have hpair' : (s.chargeFiring i).pairRefusal = none := hpair
  refine exec_of_fire hexec ?_ hf
  simp only [hpair', hcheck]

theorem matrix_traps_of_pair {c : BitVec 8} (hexec : exec i s = .next (s.matrix i w k check))
    (hpair : s.pairRefusal = some c) (hf : Fires i w v s) : Traps i w s c 0 := by
  have hpair' : (s.chargeFiring i).pairRefusal = some c := hpair
  refine exec_of_fire hexec ?_ hf
  simp only [hpair']

theorem nodeCheck_of_le {x : Word} (h : x.toNat ≤ 3) : nodeCheck x = none := if_neg (Nat.not_lt.mpr h)

end

/-- Settles O25: the pair is checked first, then the operands that each form checks. -/
theorem matrixFormsFire : Obligations.MatrixFormsFire := by
  unfold Obligations.MatrixFormsFire
  intro w v s
  refine ⟨fun hpair hf hcfg => ?_, fun hpair hf hnode hend => ?_, fun hpair hf hnode => ?_, fun hpair hf hnode => ?_,
    fun hpair hf hnode => ?_, fun hpair hf hcfg => ?_, fun hodd hf => ?_, fun heven hheld hf => ?_⟩
  · exact exec_matrix rfl hpair (if_pos hcfg) hf
  · refine exec_matrix rfl hpair ?_ hf
    simp only [nodeCheck_of_le hnode, gt_iff_lt, Nat.not_lt.mpr hend, if_false]
  · exact exec_matrix rfl hpair (nodeCheck_of_le hnode) hf
  · exact exec_matrix rfl hpair (nodeCheck_of_le hnode) hf
  · exact matrix_traps_of_check rfl hpair (if_pos hnode) hf
  · exact matrix_traps_of_check rfl hpair (if_neg (Bool.eq_false_iff.mp hcfg)) hf
  · exact matrix_traps_of_pair rfl (if_pos hodd) hf
  · exact matrix_traps_of_pair rfl ((if_neg (by omega)).trans (if_pos hheld)) hf

/-! ### System, context and task forms (R339 to R343, R395 to R414) -/

theorem swrRefusal_cause {code : Nat} {x : Word} {c : BitVec 8} (h : swrRefusal code x = some c) : c = 0x27 ∨ c = 0x28 := by
  unfold swrRefusal at h
  split at h
  · split at h
    · exact .inr (Option.some.inj h).symm
    · cases h
  · cases h
  · split at h
    · exact .inr (Option.some.inj h).symm
    · cases h
  · exact .inl (Option.some.inj h).symm

/-- Settles O26: each form tests what its traps name, in the model's order, and else does what it does. -/
theorem systemFormsFire : Obligations.SystemFormsFire := by
  unfold Obligations.SystemFormsFire
  refine ⟨fun w v s => ⟨?srd, fun hf hok => ?swr, fun hf hvalid => ?trapRet, fun hf hvalid => ?noTrapRet,
    fun hf hzero hvalid hroom hnew => ?trapSub, fun hf hzero hlive hsub hb => ?enRead, fun hf hzero => ?retry,
    fun hf hzero => ?refuse⟩, fun w v s c hf hc => ⟨swrRefusal_cause hc, ?swrTrap⟩⟩
  case srd => exact exec_of_fire rfl rfl
  case swr =>
    refine exec_of_fire rfl ?_ hf
    simp only [hok]
    rfl
  case swrTrap =>
    refine exec_of_fire rfl ?_ hf
    simp only [hc]
  case trapRet => exact exec_of_fire rfl (if_pos hvalid) hf
  case noTrapRet => exact exec_of_fire rfl (if_neg (Bool.eq_false_iff.mp hvalid)) hf
  case trapSub =>
    refine exec_of_fire rfl ((if_neg (not_not.mpr hzero)).trans (if_neg ?_)) hf
    rintro (hinvalid | hfull | hdouble)
    · exact Bool.false_ne_true (hinvalid.symm.trans hvalid)
    · exact absurd hroom (Nat.not_lt.mpr hfull)
    · exact Bool.false_ne_true (hnew.symm.trans hdouble)
  case enRead =>
    refine exec_of_fire rfl (if_neg ?_) hf
    rintro (hreserved | hdead | hforeign | hcounter)
    · exact hreserved hzero
    · exact Bool.false_ne_true (hdead.symm.trans hlive)
    · exact Bool.false_ne_true (hforeign.symm.trans hsub)
    · exact absurd hb (Nat.not_le.mpr hcounter)
  case retry => exact exec_of_fire rfl (if_neg (not_not.mpr hzero)) hf
  case refuse => exact exec_of_fire rfl (if_neg (not_not.mpr hzero)) hf

section
variable {i : Instr} {w : Fields} {s : State} {v : PortVals} {func : BitVec 8}

/-- A context operation whose descriptor and object stand is captured for the context controller (R403). -/
theorem exec_ctxFire (hexec : exec i s = .next (s.ctxFire i w func)) (hroot : func = 0x90 → s.pass.ctx = 0)
    (h : ContextFires i w v s) : exec i s = .next (contextCaptured i func w v s) := by
  obtain ⟨hf, halign, hend, p, hobject⟩ := h
  have hobject' : ObjectAt v.b p (s.chargeFiring i) := hobject
  have hroot' : ¬(func = 0x90 ∧ s.pass.ctx ≠ 0) := fun h => h.2 (hroot h.1)
  refine exec_of_fire hexec ?_ hf
  simp only [State.chargeFiring_pass, hroot', if_false, halign, ne_eq, not_true, gt_iff_lt, Nat.not_lt.mpr hend,
    State.objectPlace_of_objectAt hobject', Got.done_ok]
  rfl

/-- A frame operand that names an aligned offset of a vault the context holds (R339, R340). -/
theorem State.gotFrame_of_aligned {f : Word} {n q off : Nat} (hoperand : s.vaultOperand f s.pass.quay s.pass.ctx n = .ok q off)
    (halign : off % 32 = 0) : s.gotFrame i w f n = .ok (q, off) s := by
  simp only [State.gotFrame, hoperand, halign, ne_eq, not_true, if_false]

/-- A place of a vault that may be stored to lets a write pass. -/
theorem State.vaultReady_of_writeReady {q off n : Nat} {l : Loc} {gen : BitVec 8} (h : WriteReady (.vault q off) n l gen s) :
    s.vaultReady i w q off n true = .ok () s := by
  obtain ⟨⟨hfree, hheld, rfl, rfl⟩, -⟩ := h
  exact State.vaultReady_of_free hfree fun _ => hheld

end

/-- Settles O27: the context operations are one form with a function number; the task forms check frame, scope and place. -/
theorem contextAndTaskFormsFire : Obligations.ContextAndTaskFormsFire := by
  unfold Obligations.ContextAndTaskFormsFire
  refine ⟨fun w v s => ?operations, fun w v q off s hscope => ⟨fun hf hlow hhigh hcode hreserved halign hoperand h => ?spawn,
    fun hf halign hend hoperand h => ?joinPut, fun hf halign hcanon => ?launch⟩⟩
  case operations =>
    have hother : ∀ {func : BitVec 8}, func ≠ 0x90 → func = 0x90 → s.pass.ctx = 0 := fun hne h => absurd h hne
    exact ⟨exec_ctxFire rfl (hother (by decide)), exec_ctxFire rfl (hother (by decide)), exec_ctxFire rfl (hother (by decide)),
      exec_ctxFire rfl (hother (by decide)), exec_ctxFire rfl (hother (by decide)), exec_ctxFire rfl (hother (by decide)),
      exec_ctxFire rfl (hother (by decide)), exec_ctxFire rfl (hother (by decide)), exec_ctxFire rfl (hother (by decide)),
      fun hroot => exec_ctxFire rfl fun _ => hroot, fun hf hroot => exec_of_fire rfl (if_pos ⟨rfl, hroot⟩) hf⟩
  case spawn =>
    have hoperand' : (s.chargeFiring (.spawn w)).vaultOperand v.a (s.chargeFiring (.spawn w)).pass.quay
      (s.chargeFiring (.spawn w)).pass.ctx 32 = .ok q off := hoperand
    have hscope' : (s.chargeFiring (.spawn w)).scopeOk (s.chargeFiring (.spawn w)).pass.ctx (Fields.scope w) = true := hscope
    have hnone : ¬((v.g.extractLsb' 32 11).toNat = 0 ∨ (v.g.extractLsb' 32 11).toNat > 1024 ∨ v.b.extractLsb' 0 6 ≠ 0 ∨
        spawnReserved v.g = false) := by
      rintro (hzero | hmany | hbits | hbad)
      · omega
      · omega
      · exact hbits hcode
      · exact Bool.false_ne_true (hbad.symm.trans hreserved)
    have hstore := State.vaultStore_of_ready (i := .spawn w) (w := w)
      (bs := leBytes 32 (spawnRecord s.pass.ctx q off v.b v.g).toNat)
      (writeReady_chargeFiring (.spawn w) ((leBytes_length 32 _).symm ▸ h))
    refine exec_of_fire rfl ((if_neg hnone).trans ?_) hf
    rw [State.gotFrame_of_aligned hoperand' halign, Got.andThen_ok, State.gotScope_of_ok hscope', Got.andThen_ok,
      State.chargeFiring_pass, hstore, Got.done_ok]
    rfl
  case joinPut =>
    have hoperand' : (s.chargeFiring (.joinPut w)).vaultOperand v.a (s.chargeFiring (.joinPut w)).pass.quay
      (s.chargeFiring (.joinPut w)).pass.ctx 32 = .ok q off := hoperand
    have hscope' : (s.chargeFiring (.joinPut w)).scopeOk (s.chargeFiring (.joinPut w)).pass.ctx (Fields.scope w) = true := hscope
    have hin : ¬(off + 36 + 4 * (v.b.extractLsb' 0 16).toNat > vaultEnd) := by omega
    have hjoin := State.vaultReady_of_writeReady (i := .joinPut w) (w := w)
      (writeReady_chargeFiring (.joinPut w) (h (off + 16) (.inl rfl)))
    have hslot := State.vaultReady_of_writeReady (i := .joinPut w) (w := w)
      (writeReady_chargeFiring (.joinPut w) (h (off + 32 + 4 * (v.b.extractLsb' 0 16).toNat) (.inr rfl)))
    refine exec_of_fire rfl ?_ hf
    dsimp only
    rw [State.gotFrame_of_aligned hoperand' halign, Got.andThen_ok, if_neg hin, State.gotScope_of_ok hscope', Got.andThen_ok,
      hjoin, Got.andThen_ok, hslot, Got.andThen_ok, Got.done_ok]
    rfl
  case launch =>
    have hscope' : (s.chargeFiring (.launch w)).scopeOk (s.chargeFiring (.launch w)).pass.ctx (Fields.scope w) = true := hscope
    refine exec_of_fire rfl ((if_neg (not_not.mpr halign)).trans ((if_neg (not_not.mpr hcanon)).trans ?_)) hf
    rw [State.gotScope_of_ok hscope', Got.done_ok]
    rfl

end Sys2Proof.Machine

namespace Sys2Proof.Machine
open Sys2Proof.Safety

/-! ### Messages of the control node (R445 to R448) -/

section
variable {n op : Nat} {m : BMsg} {s t : State} {act : BMsg → State → Asked State}

/-- What a message that has its turn comes to: it is taken, waits, or fails (R446). -/
theorem State.takeMessage_of_received (h : Received n op m s) :
    s.takeMessage n op act = match act m s with
      | .ok s _ => taken n s
      | .wait s => s
      | .fail k s => if k < 256 then ((taken n s).dropFar (.node m.fn m.tag)).status m k 0 0
        else ((taken n s).dropFar (.node m.fn m.tag)).status m 3 0 (k - 256) := by
  obtain ⟨hmsg, hop, hform, hfail, hboot, hord, hlive⟩ := h
  have hturn : ¬(m.op ≠ op ∨ m.malformed = true ∨ s.dev.failStep ≠ 0 ∨ s.dev.bootStep < 6 ∨
      (m.ord = true ∧ s.earlierDone n m = false)) := by
    rintro (hop' | hbad | hfail' | hboot' | ⟨hm, hearly⟩)
    · exact hop' hop
    · exact Bool.false_ne_true (hform.symm.trans hbad)
    · exact hfail' hfail
    · omega
    · exact Bool.false_ne_true (hearly.symm.trans (hord hm))
  simp only [State.takeMessage, hmsg, if_neg hturn, hlive, Bool.true_eq_false, if_false]
  rfl

theorem State.takeMessage_of_ok {u : State} (h : Received n op m s) (hact : act m s = .ok t u) :
    s.takeMessage n op act = taken n t := by rw [State.takeMessage_of_received h, hact]

theorem State.takeMessage_of_wait (h : Received n op m s) (hact : act m s = .wait t) : s.takeMessage n op act = t := by
  rw [State.takeMessage_of_received h, hact]

@[simp] theorem Asked.andThen_ok {α β : Type} (v : α) (u : State) (k : α → State → Asked β) :
    (Asked.ok v u).andThen k = k v u := rfl

@[simp] theorem Asked.andThen_wait {α β : Type} (u : State) (k : α → State → Asked β) :
    (Asked.wait u : Asked α).andThen k = .wait u := rfl

/-- A range inside one line is one piece (R447). -/
theorem piecesLeft_of_line {pa k : Nat} (hpos : m.pos = 0) (hk : 0 < k) (hline : pa % 128 + k ≤ 128) :
    m.piecesLeft pa k = [(0, k)] := by
  have hone : cutAt 128 pa 0 k (k + 1) = [(0, k)] := by
    obtain ⟨j, rfl⟩ := Nat.exists_eq_add_of_lt hk
    have hmin : min (0 + j + 1) (128 - pa % 128) = 0 + j + 1 := by omega
    simp only [cutAt, hmin, Nat.sub_self]
  rw [BMsg.piecesLeft, hone, hpos]
  rfl

theorem setAt_eraseIdx {α : Type} (l : List α) (k : Nat) (f : α → α) : (setAt l k f).eraseIdx k = l.eraseIdx k := by
  apply List.ext_getElem?
  intro j
  simp only [setAt, List.getElem?_eraseIdx, List.getElem?_map, List.getElem?_zipIdx]
  split
  · next h =>
    cases l[j]? with
    | none => rfl
    | some x => simp [Nat.ne_of_lt h]
  · next h =>
    cases l[j + 1]? with
    | none => rfl
    | some x =>
      have hne : ¬(j + 1 = k) := by omega
      simp [hne]

/-- An address that a home serves is one of memory or of a view (R56, R70). -/
theorem paKind_of_nodeServes {pa k : Nat} {write : Bool} (h : NodeServes pa k write s) :
    (∃ sl off, s.paKind pa = .hbm sl off) ∨ ∃ d r off, s.paKind pa = .view d r off := by
  obtain ⟨-, -, -, hlocal, hserve⟩ := h
  rcases paKind_of_local hlocal with hk | hk | hk
  · exact .inl hk
  · exact .inr hk
  · rw [State.homeCheck, hk] at hserve
    cases hserve

/-- A physical address that its home serves the control node (R447). -/
theorem State.nodePa_of_serves {pa k : Nat} {write : Bool} (h : NodeServes pa k write s) :
    s.nodePa m true pa write = .ok (pa, 0, none) s := by
  have hkind := paKind_of_nodeServes h
  obtain ⟨-, hpa, -, -, hserve⟩ := h
  simp only [State.nodePa, if_true, ge_iff_le, Nat.not_le.mpr hpa, if_false]
  rcases hkind with ⟨sl, off, hk⟩ | ⟨d, r, off, hk⟩ <;> simp only [hk, hserve]

/-- States that agree on every byte agree on every range. -/
theorem State.gbytes_congr (hbyte : ∀ pa, t.gbyte pa = s.gbyte pa) : ∀ pa k, t.gbytes pa k = s.gbytes pa k
  | _, 0 => rfl
  | pa, k + 1 => by rw [State.gbytes, State.gbytes, hbyte, State.gbytes_congr hbyte (pa + 1) k]

@[simp] theorem State.gbytes_payBy (c pa k : Nat) : (s.payBy c).gbytes pa k = s.gbytes pa k :=
  State.gbytes_congr (t := s.payBy c) (s := s) (fun _ => rfl) pa k

theorem State.nodeRead_of_serves {pa k : Nat} (h : NodeServes pa k false s) (hheld : s.heldAny (.glob pa) = false)
    (hown : (s.dirOf (pa / 128)).ownh = true) (hpoison : (s.gmeta (pa / 128)).poison = false) :
    s.nodeRead m true pa k = .ok (s.gbytes pa k) (s.payBy m.fn) := by
  have hwant : (s.payBy m.fn).wantOwner (pa / 128) = (true, s.payBy m.fn) := if_pos hown
  have hpoison' : ((s.payBy m.fn).gmeta (pa / 128)).poison = false := hpoison
  rw [State.nodeRead, State.nodePa_of_serves h, Asked.andThen_ok]
  rcases paKind_of_nodeServes h with ⟨sl, off, hk⟩ | ⟨d, r, off, hk⟩ <;>
    simp only [hk, hheld, Bool.false_eq_true, if_false, State.nodeOwned, if_true, hwant, Bool.and_self, hpoison',
      Bool.true_eq_false, State.gbytes_payBy]

theorem nodeServes_payBy {pa k c : Nat} {write : Bool} (h : NodeServes pa k write s) : NodeServes pa k write (s.payBy c) := h

theorem State.nodeCharge_of_serves {pa k : Nat} (h : NodeServes pa k false s) :
    s.nodeCharge m true pa = reachCharged (agentPlace 0) (pa / 128) m.fn s := by
  rw [State.nodeCharge, State.nodePa_of_serves h]
  rcases paKind_of_nodeServes h with ⟨sl, off, hk⟩ | ⟨d, r, off, hk⟩ <;> simp only [hk] <;> rfl

theorem State.nodeReady_of_serves {pa : Nat} {bs : List Byte} (h : NodeServes pa bs.length true s)
    (hheld : s.heldAny (.glob pa) = false) (hdir : s.hasDir (pa / 128) = false) (hcollecting : s.collecting = []) :
    s.nodeReady m true pa bs = .ok pa (s.payBy m.fn) := by
  have hwant : (s.payBy m.fn).wantAll (pa / 128) = (true, s.payBy m.fn) := by
    refine (if_pos hdir).trans ?_
    simp only [State.payBy, hcollecting, List.filter_nil]
  rw [State.nodeReady, State.nodePa_of_serves h, Asked.andThen_ok]
  rcases paKind_of_nodeServes h with ⟨sl, off, hk⟩ | ⟨d, r, off, hk⟩ <;>
    simp only [hk, hheld, Bool.false_eq_true, if_false, State.nodeOwned, if_true, hwant, Bool.and_self,
      Bool.true_eq_false, State.nodeLog, Asked.andThen_ok]

theorem State.nodeWrite_of_serves {pa k : Nat} {bs : List Byte} (h : NodeServes pa k true s) :
    s.nodeWrite m pa bs = reachCharged (agentPlace 0) (pa / 128) m.fn (s.gwrite pa bs false) := by
  rw [State.nodeWrite]
  rcases paKind_of_nodeServes h with ⟨sl, off, hk⟩ | ⟨d, r, off, hk⟩ <;> simp only [hk] <;> rfl

/-- A write of bytes in one line that its home serves (R447). -/
theorem State.nodeStore_of_serves {pa : Nat} {bs : List Byte} (hpos : m.pos = 0) (h : NodeServes pa bs.length true s)
    (hheld : s.heldAny (.glob pa) = false) (hdir : s.hasDir (pa / 128) = false) (hcollecting : s.collecting = []) :
    s.nodeStore n m true pa bs = .ok () (((reachCharged (agentPlace 0) (pa / 128) m.fn
      ((s.payBy m.fn).gwrite pa bs false)).nodeDone m).messagePos n 0 []) := by
  have hready := State.nodeReady_of_serves (m := m) h hheld hdir hcollecting
  have hpieces := piecesLeft_of_line hpos h.1 h.2.2.1
  simp only [State.nodeStore, hpieces, State.nodePieces, List.drop_zero, List.take_length, Nat.add_zero, hready,
    Asked.andThen_ok, State.nodeWalk, if_true, State.nodeWrite_of_serves (nodeServes_payBy h)]

theorem taken_messagePos (pos : Nat) (data : List Byte) : taken n (s.messagePos n pos data) = taken n s := by
  simp only [taken, State.messagePos, setAt_eraseIdx]

theorem taken_status_messagePos (pos : Nat) (data : List Byte) (code count cause : Nat) :
    taken n ((s.messagePos n pos data).status m code count cause) = taken n (s.status m code count cause) := by
  have hcomm : (s.messagePos n pos data).status m code count cause = (s.status m code count cause).messagePos n pos data := rfl
  rw [hcomm, taken_messagePos]

/-- Eight messages sent leave the outbox eight longer, and everything else but the meters as it was. -/
theorem send_foldl (op fn tag : Nat) (body : Nat → List Byte) (l : List Nat) (s : State) :
    ∃ ms out, l.foldl (fun s k => s.send op fn tag (body k)) s = { s with meters := ms, outbox := s.outbox ++ out } ∧
      out.length = l.length := by
  induction l generalizing s with
  | nil => exact ⟨s.meters, [], by simp, rfl⟩
  | cons k ks ih =>
    obtain ⟨ms, out, heq, hlen⟩ := ih (s.send op fn tag (body k))
    refine ⟨ms, { hdr := BitVec.ofNat 64 (op % 256 + fn % 4096 * 2 ^ 8 + tag % 65536 * 2 ^ 20 + (body k).length * 2 ^ 36),
                  body := body k } :: out, ?_, congrArg (· + 1) hlen⟩
    rw [List.foldl_cons, heq]
    simp only [State.send, State.charge, State.chargeFj, List.append_assoc, List.singleton_append]

end

/-- Settles O28: a message that has its turn does what its form does, and leaves the inbox unless it waits. -/
theorem beaconMessagesComplete : Obligations.BeaconMessagesComplete := by
  unfold Obligations.BeaconMessagesComplete
  intro n m s
  refine ⟨fun h hphys hpos hdata hserves hheld hown hpoison => ?mrd, fun h hphys hpos hserves hheld hdir hcoll => ?mwr,
    fun head claim s1 s2 h hq hen hphase hhead hclaim => ?claim, fun s1 h hq hen hphase hstore => ?slot,
    fun s1 s2 h hq hen hphase hnotify htail hstore => ?tail, fun h hroot => ?ctxop, fun h => ?pgack,
    fun h hc hlive hsub hk => ?enread, fun h hfirst => ?attest, fun hmsg hbad => ?malformed⟩
  case mrd =>
    have hpieces := piecesLeft_of_line hpos hserves.1 hserves.2.2.1
    refine congrArg Host.Outcome.next (State.takeMessage_of_ok
      (u := reachCharged (agentPlace 0) (m.word 0 / 128) m.fn (s.payBy m.fn)) h ?_)
    simp only [hphys, hdata, hpieces, State.nodePieces, Nat.add_zero, State.nodeRead_of_serves hserves hheld hown hpoison,
      Asked.andThen_ok, State.nodeCharge_of_serves (nodeServes_payBy hserves), List.nil_append]
  case mwr =>
    refine congrArg Host.Outcome.next ((State.takeMessage_of_ok (u := ((reachCharged (agentPlace 0) (m.word 0 / 128) m.fn
      ((s.payBy m.fn).gwrite (m.word 0) (m.body.drop 8) false)).nodeDone m).messagePos n 0 []) h ?_).trans
        (taken_status_messagePos 0 [] 0 0 0))
    rw [hphys, State.nodeStore_of_serves hpos hserves hheld hdir hcoll, Asked.andThen_ok]
  case claim =>
    have hqueue : ¬(m.word 0 ≥ 64 ∨ (s.queue m.fn (m.word 0)).en = false) := by
      rintro (hge | hoff)
      · omega
      · exact Bool.false_ne_true (hoff.symm.trans hen)
    refine ⟨fun hroom => ?_, fun hfull => ?_⟩
    · refine congrArg Host.Outcome.next (State.takeMessage_of_wait h ?_)
      simp only [if_neg hqueue, hphase, hhead, Asked.andThen_ok, hclaim, Nat.not_le.mpr hroom, if_false]
    · exact congrArg Host.Outcome.next (State.takeMessage_of_ok h (by
        simp only [if_neg hqueue, hphase, hhead, Asked.andThen_ok, hclaim, hfull, if_true]
        rfl))
  case slot =>
    have hqueue : ¬(m.word 0 ≥ 64 ∨ (s.queue m.fn (m.word 0)).en = false) := by
      rintro (hge | hoff)
      · omega
      · exact Bool.false_ne_true (hoff.symm.trans hen)
    refine congrArg Host.Outcome.next (State.takeMessage_of_wait h ?_)
    simp only [if_neg hqueue, hphase, hstore, Asked.andThen_ok]
  case tail =>
    have hqueue : ¬(m.word 0 ≥ 64 ∨ (s.queue m.fn (m.word 0)).en = false) := by
      rintro (hge | hoff)
      · omega
      · exact Bool.false_ne_true (hoff.symm.trans hen)
    exact congrArg Host.Outcome.next (State.takeMessage_of_ok h (by
      simp only [if_neg hqueue, hphase, htail, ne_eq, not_true, if_false, hstore, Asked.andThen_ok, hnotify, Bool.false_eq_true]
      rfl))
  case ctxop =>
    have hallowed : ¬(m.word 0 = 0x90 ∧ m.fn ≠ 0) := fun h => h.2 (hroot h.1)
    exact congrArg Host.Outcome.next (State.takeMessage_of_ok h (if_neg hallowed))
  case pgack => exact congrArg Host.Outcome.next (State.takeMessage_of_ok h rfl)
  case enread =>
    have hcounter : ¬(m.word 0 ≥ 4096 ∨ s.ctxLive (m.word 0) = false ∨ s.inSubtree m.fn (m.word 0) = false ∨ m.word 1 > 1) := by
      rintro (hge | hdead | hforeign | hgt)
      · omega
      · exact Bool.false_ne_true (hdead.symm.trans hlive)
      · exact Bool.false_ne_true (hforeign.symm.trans hsub)
      · omega
    exact congrArg Host.Outcome.next (State.takeMessage_of_ok h (if_neg hcounter))
  case attest =>
    obtain ⟨hmsg, hop, hform, hfail, hboot, hord, hlive⟩ := h
    have hturn : ¬(m.op ≠ 7 ∨ m.malformed = true ∨ ((s.inbox.take n).any fun x => x.op == 7) = true ∨
        (s.dev.bootStep < 6 ∧ s.dev.failStep = 0) ∨ (m.ord = true ∧ s.earlierDone n m = false)) := by
      rintro (hop' | hbad | hother | ⟨hboot', -⟩ | ⟨hm, hearly⟩)
      · exact hop' hop
      · exact Bool.false_ne_true (hform.symm.trans hbad)
      · exact Bool.false_ne_true (hfirst.symm.trans hother)
      · omega
      · exact Bool.false_ne_true (hearly.symm.trans (hord hm))
    have hlive' : (taken n s).ctxLive m.fn = true := hlive
    obtain ⟨ms, out, hsent, hlen⟩ := send_foldl 0x87 m.fn m.tag (fun k => leBytes 8 (k + 8 * 256) ++
      (((taken n s).attestation m.body).drop (4096 * k)).take 4096) (List.range 8) (taken n s)
    refine ⟨{ taken n s with meters := ms, outbox := s.outbox ++ out }, ?_, ?_, rfl, rfl, rfl, rfl⟩
    · refine congrArg Host.Outcome.next ?_
      simp only [hmsg, if_neg hturn]
      exact (if_neg (Bool.ne_false_iff.mpr hlive')).trans hsent
    · simp only [List.length_append, hlen, List.length_range]
  case malformed =>
    refine congrArg Host.Outcome.next ?_
    simp only [hmsg, hbad, Bool.true_or, if_true]
    rfl

end Sys2Proof.Machine

namespace Sys2Proof.Machine
open Sys2Proof.Safety

/-! ### Coherence: homes and caches (R76 to R97) -/

section
variable {n : Nat} {m : NetMsg} {s r : State}

theorem State.takeMsg_of_inFlight (h : InFlight n m s r) : s.takeMsg n = some (m, r) := by
  obtain ⟨hmsg, rfl⟩ := h
  simp only [State.takeMsg, hmsg, Option.map_some]

/-- A home that serves goes on, charged with the access of the line (R81, R436). -/
theorem State.checked_of_serves {write : Bool} {gen : BitVec 8} {c q : Nat} {k : State → State}
    (h : HomeServes m write gen c q r) : r.checked m write gen c q k = k (homeCharged m.line c r) := by
  obtain ⟨hbusy, hheld, hserve, hroom⟩ := h
  simp only [State.checked, hbusy, hheld, Bool.or_self, Bool.false_eq_true, if_false, hserve, hroom]
  rfl

theorem State.wantOwner_of_home {line : Nat} (h : (s.dirOf line).ownh = true) : s.wantOwner line = (true, s) := if_pos h

theorem State.sendTokens_of_cache {line src h k : Nat} {own : Bool} {md : LineMeta} (hk : 0 < k) (hh : h < homeHolder) :
    s.sendTokens line src h k own md = s.post { line := line, holder := h, body := if own then .data k true md else .tok k } := by
  simp only [State.sendTokens, if_neg (Nat.pos_iff_ne_zero.mp hk), if_neg (Nat.not_le.mpr hh)]

/-- Tokens that nobody else waits for stay at their home (R77, R79). -/
theorem State.tokensHome_of_kept {line src k : Nat} {own : Bool} {md : LineMeta} (hpers : r.activePers line = none)
    (hwip : (r.dirOf line).wip = false) :
    r.tokensHome line src k own md = (((r.takeData line own md).setDir
      { (r.dirOf line) with htok := (r.dirOf line).htok + k, ownh := (r.dirOf line).ownh || own }).unpark) := by
  simp only [State.tokensHome, hpers, hwip, Bool.false_eq_true, if_false]

theorem State.tokensHome_of_writer {line src k h : Nat} {own : Bool} {md : LineMeta} (hpers : r.activePers line = none)
    (hwip : (r.dirOf line).wip = true) (hslot : (r.dirOf line).slot 0 = some h) :
    r.tokensHome line src k own md = r.sendTokens line src h k own md := by
  simp only [State.tokensHome, hpers, hwip, if_true, hslot]

end

/-- Settles O29: a request that its home serves gets its tokens; tokens that come home stay, or go on to the writer. -/
theorem homesServeRequests : Obligations.HomesServeRequests := by
  unfold Obligations.HomesServeRequests
  intro n m gen c q k own md s r hin
  have htake := State.takeMsg_of_inFlight hin
  refine ⟨fun hbody hserves hown htok => ?getsOne, fun hbody hserves hown htok => ?getsNone, fun hbody hserves hown => ?getm,
    fun cause hbody hbusy hheld hrefuse => ?refused, fun hbody hpers hwip => ?put, fun h hbody hpers hwip hslot hh hk => ?forwarded,
    fun hbody hpers hwip => ?wb, fun hbody => ?done⟩
  all_goals refine congrArg Host.Outcome.next ?_
  all_goals simp only [htake, hbody]
  case getsOne =>
    have hown' : ((homeCharged m.line c r).dirOf m.line).ownh = true := hown
    have htok' : ((homeCharged m.line c r).dirOf m.line).htok ≥ 2 := htok
    simp only [State.checked_of_serves hserves, State.serveGets, State.wantOwner_of_home hown', if_pos htok']
    rfl
  case getsNone =>
    have hown' : ((homeCharged m.line c r).dirOf m.line).ownh = true := hown
    have htok' : ¬((homeCharged m.line c r).dirOf m.line).htok ≥ 2 := Nat.not_le.mpr htok
    simp only [State.checked_of_serves hserves, State.serveGets, State.wantOwner_of_home hown', if_neg htok']
    rfl
  case getm =>
    have hown' : ((homeCharged m.line c r).dirOf m.line).ownh = true := hown
    simp only [State.checked_of_serves hserves, hown', if_true]
    rfl
  case refused =>
    simp only [State.checked, hbusy, hheld, Bool.or_self, Bool.false_eq_true, if_false, hrefuse]
    rfl
  case put => exact State.tokensHome_of_kept hpers hwip
  case forwarded => rw [State.tokensHome_of_writer hpers hwip hslot, State.sendTokens_of_cache hk hh]
  case wb => rw [State.tokensHome_of_kept hpers hwip, Bool.or_true]

section
variable {n : Nat} {m : NetMsg} {s r : State}

theorem State.copyOf_holder (s : State) (h line : Nat) : (s.copyOf h line).holder = h := by
  have hkey := tget_key (fun c : Copy => c.holder == h && c.line == line) { holder := h, line := line, tokens := 0 } (by simp) s.copies
  exact beq_iff_eq.mp (Bool.and_eq_true_iff.mp hkey).1

theorem State.copyOf_line (s : State) (h line : Nat) : (s.copyOf h line).line = line := by
  have hkey := tget_key (fun c : Copy => c.holder == h && c.line == line) { holder := h, line := line, tokens := 0 } (by simp) s.copies
  exact beq_iff_eq.mp (Bool.and_eq_true_iff.mp hkey).2

@[simp] theorem Copy.join_holder (c : Copy) (k : Nat) (own : Bool) (md : LineMeta) : (c.join k own md).holder = c.holder := rfl
@[simp] theorem Copy.join_line (c : Copy) (k : Nat) (own : Bool) (md : LineMeta) : (c.join k own md).line = c.line := rfl
@[simp] theorem Copy.join_tokens (c : Copy) (k : Nat) (own : Bool) (md : LineMeta) : (c.join k own md).tokens = c.tokens + k := rfl

end

/-- Settles O30: tokens are counted for the request they end; a cache that gives a line up gives every token of it. -/
theorem cachesAnswerMessages : Obligations.CachesAnswerMessages := by
  unfold Obligations.CachesAnswerMessages
  intro n m w k own md req s r hin
  have htake := State.takeMsg_of_inFlight hin
  refine ⟨fun hbody hpers hreq hwrite hk hinv halloc => ?data, fun hbody hpers hwrite hall => ?tokAll,
    fun hbody hpers hwrite hsome => ?tokSome, fun hbody hne hw hkeeps htokens => ?inv, fun hbody hown htokens hkeeps => ?fwds,
    fun hbody hcoming hkeeps htokens => ?collect, fun write cause stale gen hbody hreq => ?refuse⟩
  all_goals refine congrArg Host.Outcome.next ?_
  all_goals simp only [htake, hbody]
  case data =>
    simp only [State.tokensArrive, hpers, State.countTokens, if_true, hreq, if_neg (Nat.pos_iff_ne_zero.mp hk), hinv, hwrite,
      Option.isSome_none, Bool.false_eq_true, if_false, halloc]
  case tokAll =>
    simp only [State.tokensArrive, hpers, State.countTokens, Bool.false_eq_true, if_false, hwrite, Option.isSome_some, if_true,
      State.countWrite, Copy.join_tokens, hall, Copy.join_holder, Copy.join_line, State.copyOf_holder, State.copyOf_line]
  case tokSome =>
    simp only [State.tokensArrive, hpers, State.countTokens, Bool.false_eq_true, if_false, hwrite, Option.isSome_some, if_true,
      State.countWrite, Copy.join_tokens, Nat.ne_of_lt hsome]
  case inv =>
    have hsome : ((r.reqOf m.holder m.line false).isSome && (r.copyOf m.holder m.line).tokens == 0) = false := by
      rw [beq_eq_false_iff_ne.mpr (Nat.pos_iff_ne_zero.mp htokens), Bool.and_false]
    simp only [if_neg hne, hkeeps, Bool.false_eq_true, if_false, hsome, State.giveTo, State.sendTokens_of_cache htokens hw]
  case fwds =>
    have hfull : ¬((r.copyOf m.holder m.line).owner = false ∨ (r.copyOf m.holder m.line).tokens < 512) := by
      rintro (hnone | hfew)
      · exact Bool.false_ne_true (hnone.symm.trans hown)
      · omega
    simp only [if_neg hfull, hkeeps, Bool.false_eq_true, if_false]
  case collect =>
    have hnone : (r.net.any fun x => x.line == m.line && x.holder == m.holder &&
        match x.body with | .data _ _ _ | .tok _ => true | _ => false) = false := by
      rw [List.any_eq_false]
      intro x hx htokens
      simp only [Bool.and_eq_true, beq_iff_eq] at htokens
      obtain ⟨⟨hline, hholder⟩, hcarries⟩ := htokens
      have hother := hcoming x hx hline hholder
      split at hcarries
      · next hbody => exact (hother _ _ _).1 hbody
      · next hbody => exact (hother _ false {}).2 hbody
      · exact Bool.false_ne_true hcarries
    refine (if_neg (Bool.eq_false_iff.mp ?_)).trans (if_neg (Nat.pos_iff_ne_zero.mp htokens))
    rw [hkeeps, Bool.or_false]
    exact hnone
  case refuse => simp only [hreq]

end Sys2Proof.Machine

namespace Sys2Proof.Machine
open Sys2Proof.Safety

/-! ### Persistent requests (R81, R86) -/

section
variable {n : Nat} {m : NetMsg} {s r : State}

/-- A persistent request that enters the table as the first of its line is looked at (R86). -/
theorem State.servePers_of_first {req : CohReq} {line holder : Nat}
    (hfirst : ∀ p ∈ r.pers, p.line ≠ line) (hheld : r.heldRemotely line = false) (hcache : holder < homeHolder)
    (hreq : r.reqs.find? (fun x => x.holder == holder && x.line == line && x.pers) = some req) :
    let entered : State := { r with pers := r.pers ++ [{ line := line, holder := holder }] }
    (r.homeCheck (line * 128) req.write req.gen req.ctx req.quay = .serve → r.dirVictim line = none →
      (req.write = true ∨ r.readOnlyLine line = false) →
      entered.servePers line = entered.activate { line := line, holder := holder }) ∧
    (r.persCheck line req = .hold → entered.servePers line = entered) := by
  intro entered
  have hnone : r.pers.find? (fun p => p.line == line) = none := by
    rw [List.find?_eq_none]
    intro p hp
    simp [hfirst p hp]
  have hnoneActive : r.pers.find? (fun p => p.line == line && p.active) = none := by
    rw [List.find?_eq_none]
    intro p hp
    simp [hfirst p hp]
  have hfound : entered.pers.find? (fun p => p.line == line) = some { line := line, holder := holder } := by
    simp [entered, List.find?_append, hnone]
  have hactive : entered.activePers line = none := by
    simp [entered, State.activePers, List.find?_append, hnoneActive]
  have hheld' : entered.heldRemotely line = false := hheld
  have hreq' : entered.reqs.find? (fun x => x.holder == holder && x.line == line && x.pers) = some req := hreq
  have hfuel : entered.pers.length = r.pers.length + 1 := by simp [entered]
  refine ⟨fun hserve hroom hread => ?_, fun hhold => ?_⟩
  · have hcheck : entered.persCheck line req = .serve := by
      have hserve' : entered.homeCheck (line * 128) req.write req.gen req.ctx req.quay = .serve := hserve
      simp only [State.persCheck, hserve']
    have hroom' : entered.dirVictim line = none := hroom
    have hread' : (!req.write && entered.readOnlyLine line) = false := by
      rcases hread with hwrite | hplain
      · simp [hwrite]
      · have hplain' : entered.readOnlyLine line = false := hplain
        simp [hplain']
    simp only [State.servePers, hfuel, State.nextPers, hactive, Option.isSome_none, hheld', Bool.or_self, Bool.false_eq_true,
      if_false, hfound, Nat.not_le.mpr hcache, hreq', hcheck, hroom', hread']
  · have hcheck : entered.persCheck line req = .hold := hhold
    simp only [State.servePers, hfuel, State.nextPers, hactive, Option.isSome_none, hheld', Bool.or_self, Bool.false_eq_true,
      if_false, hfound, Nat.not_le.mpr hcache, hreq', hcheck]

theorem State.post_only (s : State) (x : NetMsg) : ∃ ms net, s.post x = { s with meters := ms, net := net } := ⟨_, _, rfl⟩

/-- Messages sent one after another change only the meters and what is in flight. -/
theorem State.foldl_post_only {α : Type} (f : α → NetMsg) (l : List α) (s : State) :
    ∃ ms net, l.foldl (fun s x => s.post (f x)) s = { s with meters := ms, net := net } := by
  induction l generalizing s with
  | nil => exact ⟨_, _, rfl⟩
  | cons x xs ih =>
    obtain ⟨a, b, hpost⟩ := s.post_only (f x)
    obtain ⟨ms, net, heq⟩ := ih { s with meters := a, net := b }
    exact ⟨ms, net, by rw [List.foldl_cons, hpost, heq]⟩

theorem State.setDir_of_out {e : DirEntry} (h : e.htok ≠ 512) :
    s.setDir e = { s with dir := tset (fun x => x.line == e.line) e s.dir } := if_neg fun hall => h hall.1

theorem State.dirOf_line (s : State) (line : Nat) : (s.dirOf line).line = line :=
  beq_iff_eq.mp (tget_key (fun e : DirEntry => e.line == line) { line := line } (by simp) s.dir)

/-- The entry of a line whose persistent request has ended: its requester is the one holder (R86). -/
def endedEntry (e : DirEntry) (h : Nat) : DirEntry := ({ e with htok := 0, ownh := false, wip := false } : DirEntry).only h

/-- The end of the one persistent request there is (R86). -/
theorem State.endPers_of_only {line holder : Nat} (hpers : s.pers = [{ line := line, holder := holder, active := true }]) :
    ∃ ms net, s.endPers line holder = { s with pers := [], meters := ms, net := net } := by
  have hgone : s.pers.filter (fun p => !(p.line == line && p.holder == holder)) = [] := by simp [hpers]
  obtain ⟨ms, net, heq⟩ := State.foldl_post_only (fun c => ({ line := line, holder := c, body := .pdeact } : NetMsg))
    (({ s with pers := [] } : State).cachesOf line holder) { s with pers := [] }
  refine ⟨ms, net, ?_⟩
  simp only [State.endPers, hgone, heq]
  rfl

/-- An entry with one holder names that holder (R79). -/
theorem DirEntry.holders_only (e : DirEntry) {h : Nat} (hh : h < 1024) : (e.only h).holders = [h] := by
  have hslot : ∀ k, (e.only h).slot k = if (BitVec.ofNat 48 (2048 + h)).extractLsb' (12 * k) 12 |>.getLsbD 11 then
      some (((BitVec.ofNat 48 (2048 + h)).extractLsb' (12 * k) 12).extractLsb' 0 10).toNat else none := fun _ => rfl
  have hfirst : (e.only h).slot 0 = some h := by
    have hvalid : ((BitVec.ofNat 48 (2048 + h)).extractLsb' 0 12).getLsbD 11 = true := by
      simp [BitVec.getLsbD, Nat.testBit_eq_decide_div_mod_eq]
      omega
    have hnumber : (((BitVec.ofNat 48 (2048 + h)).extractLsb' 0 12).extractLsb' 0 10).toNat = h := by
      simp
      omega
    simp only [hslot, Nat.mul_zero, hvalid, if_true, hnumber]
  have hothers : ∀ k, 0 < k → k < 4 → (e.only h).slot k = none := by
    intro k hpos hlt
    have hfree : ((BitVec.ofNat 48 (2048 + h)).extractLsb' (12 * k) 12).getLsbD 11 = false := by
      have hzero : (2048 + h) / 2 ^ (12 * k) = 0 := by
        apply Nat.div_eq_of_lt
        calc 2048 + h < 2 ^ 12 := by omega
          _ ≤ 2 ^ (12 * k) := Nat.pow_le_pow_right (by decide) (by omega)
      simp only [BitVec.getLsbD, BitVec.extractLsb'_toNat, BitVec.toNat_ofNat, Nat.shiftRight_eq_div_pow]
      rw [Nat.mod_eq_of_lt (by omega : 2048 + h < 2 ^ 48), hzero]
      rfl
    simp only [hslot, hfree, Bool.false_eq_true, if_false]
  have hmode : (e.only h).mode = false := rfl
  simp only [DirEntry.holders, hmode, Bool.false_eq_true, if_false]
  have hrange : List.range 4 = [0, 1, 2, 3] := rfl
  simp only [hrange, List.filterMap_cons, hfirst, hothers 1 (by decide) (by decide), hothers 2 (by decide) (by decide),
    hothers 3 (by decide) (by decide), List.filterMap_nil]

/-- The line a cache neither holds nor owes is held by no pass of its quay (R272). -/
theorem State.not_holds_of_cacheHolds {h line : Nat} (hfree : r.cacheHolds h line = false) :
    ∀ p ∈ r.passes, (p.live && p.quay == h && p.holds.any fun l => l.sameUnit (.glob (line * 128))) = false := by
  intro p hp
  have hpasses := (Bool.or_eq_false_iff.mp hfree).1
  have hp' := List.any_eq_false.mp hpasses p hp
  rw [Bool.and_assoc, Bool.eq_false_iff.mpr hp', Bool.and_false]

end

/-- Settles O31: each message of a persistent request, at its home and at the caches. -/
theorem persistentRequestsComplete : Obligations.PersistentRequestsComplete := by
  unfold Obligations.PersistentRequestsComplete
  intro n m w req s r
  refine ⟨fun hold => ?issued, fun ⟨hin, hbody, hreq, hroom, hheld, hfirst, hcache⟩ hserve hset hread => ?served,
    fun ⟨hin, hbody, hreq, hroom, hheld, hfirst, hcache⟩ hhold => ?waits, fun hin hbody hfree hdue => ?pact,
    fun hin hbody hpers => ?pdone, fun hin hbody hreqs hholder hline hpers hquiet => ?pdeact⟩
  case issued => exact congrArg Host.Outcome.next (if_pos (List.any_eq_true.mpr hold))
  case served =>
    refine congrArg Host.Outcome.next ?_
    simp only [State.takeMsg_of_inFlight hin, hbody, hreq, ge_iff_le, Nat.not_le.mpr hroom, if_false]
    exact (State.servePers_of_first hfirst hheld hcache hreq).1 hserve hset hread
  case waits =>
    refine congrArg Host.Outcome.next ?_
    simp only [State.takeMsg_of_inFlight hin, hbody, hreq, ge_iff_le, Nat.not_le.mpr hroom, if_false]
    exact (State.servePers_of_first hfirst hheld hcache hreq).2 hhold
  case pact =>
    have hmiss := State.not_holds_of_cacheHolds hfree
    have hnone : (r.passes.filter fun p => p.live && p.quay == m.holder && p.holds.any fun l => l.sameUnit (.glob (m.line * 128))) = [] := by
      rw [List.filter_eq_nil_iff]
      exact fun p hp => Bool.eq_false_iff.mp (hmiss p hp)
    have hpass : (r.pass.live && r.pass.quay == m.holder && r.pass.holds.any fun l => l.sameUnit (.glob (m.line * 128))) = false := by
      cases hlive : r.pass.live with
      | false => rfl
      | true => rw [← hmiss r.pass (by simp [State.passes, hlive]), hlive]
    have hparked : (r.parked.map fun p => if (p.live && p.quay == m.holder && p.holds.any fun l => l.sameUnit (.glob (m.line * 128))) = true
        then p.break else p) = r.parked := by
      conv_rhs => rw [← List.map_id r.parked]
      apply List.map_congr_left
      intro p hp
      rw [hmiss p (List.mem_append_right _ hp)]
      rfl
    refine congrArg Host.Outcome.next ?_
    simp only [State.takeMsg_of_inFlight hin, hbody, hnone, List.foldl_nil, hpass, Bool.false_eq_true, if_false, hparked, hfree,
      hdue, Bool.or_self]
  case pdone =>
    have hset : r.setDir (endedEntry (r.dirOf m.line) m.holder) =
        { r with dir := tset (fun x => x.line == (r.dirOf m.line).line) (endedEntry (r.dirOf m.line) m.holder) r.dir } :=
      State.setDir_of_out (by simp [endedEntry, DirEntry.only])
    obtain ⟨ms, net, hend⟩ := State.endPers_of_only (s := r.setDir (endedEntry (r.dirOf m.line) m.holder)) (line := m.line)
      (holder := m.holder) (by rw [hset]; exact hpers)
    have hentry : ((r.setDir (endedEntry (r.dirOf m.line) m.holder)).endPers m.line m.holder).unpark.dirOf m.line =
        endedEntry (r.dirOf m.line) m.holder := by
      rw [hend, hset]
      simp only [State.unpark, State.dirOf]
      rw [show (tget (fun e : DirEntry => e.line == m.line) { line := m.line } r.dir).line = m.line from r.dirOf_line m.line]
      exact tget_tset (fun e : DirEntry => e.line == m.line) _ (endedEntry (r.dirOf m.line) m.holder)
        (beq_iff_eq.mpr (r.dirOf_line m.line)) _
    obtain ⟨-, hr⟩ := id hin
    refine ⟨((r.setDir (endedEntry (r.dirOf m.line) m.holder)).endPers m.line m.holder).unpark, congrArg Host.Outcome.next ?_,
      ?_, rfl, ?_, fun hlt => ?_, ?_, ?_⟩
    · simp only [State.takeMsg_of_inFlight hin, hbody]
      rfl
    · rw [hend]
      rfl
    · rw [hentry]
      rfl
    · rw [hentry]
      exact DirEntry.holders_only _ hlt
    · rw [hend, hset, hr]
      rfl
    · rw [hend, hset, hr]
      rfl
  case pdeact =>
    have hnone : ∀ f : NetMsg → Bool,
        ((r.net ++ r.homeWait).any fun x => x.line == m.line && x.holder == m.holder && f x) = false := by
      intro f
      rw [List.any_eq_false]
      intro x hx h
      simp only [Bool.and_eq_true, beq_iff_eq] at h
      exact hquiet x hx h.1.1 h.1.2
    refine congrArg Host.Outcome.next ?_
    simp only [State.takeMsg_of_inFlight hin, hbody]
    refine (if_neg (Bool.eq_false_iff.mp (hnone _))).trans ?_
    rw [hreqs, List.filter_cons_of_pos]
    · rfl
    · rw [hnone]
      simp [hholder, hline, hpers]

end Sys2Proof.Machine

namespace Sys2Proof.Machine
open Sys2Proof.Safety

/-! ### Replicas, sweeps and other modules (R88 to R94, R449, R450) -/

section
variable {n : Nat} {m : NetMsg} {s r : State}

theorem State.charge_only (s : State) (meter c cls k : Nat) : ∃ ms, s.charge meter c cls k = { s with meters := ms } := ⟨_, rfl⟩

/-- Two charges one after the other are charges. -/
theorem State.charge_charge_only (s : State) (meter c cls k meter' c' cls' k' : Nat) :
    ∃ ms, (s.charge meter c cls k).charge meter' c' cls' k' = { s with meters := ms } := by
  obtain ⟨a, ha⟩ := s.charge_only meter c cls k
  obtain ⟨b, hb⟩ := State.charge_only { s with meters := a } meter' c' cls' k'
  exact ⟨b, by rw [ha, hb]⟩

theorem State.chargeSlice_only (s : State) (sl line c : Nat) : ∃ ms, s.chargeSlice sl line c = { s with meters := ms } :=
  s.charge_charge_only ..

theorem State.chargeWay_only (s : State) (c source dest flits : Nat) :
    ∃ ms, s.chargeWay c source dest flits = { s with meters := ms } := s.charge_charge_only ..

theorem State.chargeHome_only (s : State) (line c : Nat) : ∃ ms, s.chargeHome line c = { s with meters := ms } :=
  s.chargeSlice_only ..

theorem State.chargeAt_only (s : State) (place line c : Nat) : ∃ ms, s.chargeAt place line c = { s with meters := ms } := by
  obtain ⟨a, ha⟩ := s.chargeWay_only c place (256 + s.homeSlice (line * 128)) 1
  obtain ⟨b, hb⟩ := State.chargeWay_only { s with meters := a } c (256 + s.homeSlice (line * 128)) place
    (1 + Config.uncachedFlits line s.clock)
  obtain ⟨d, hd⟩ := State.chargeSlice_only { s with meters := b } (s.homeSlice (line * 128)) line c
  refine ⟨d, ?_⟩
  rw [State.chargeAt, State.chargeUncached, ha, hb, hd]

theorem State.gbytes_chargeAt (place line c pa k : Nat) : (s.chargeAt place line c).gbytes pa k = s.gbytes pa k := by
  obtain ⟨ms, h⟩ := s.chargeAt_only place line c
  rw [h]
  exact State.gbytes_congr (t := { s with meters := ms }) (s := s) (fun _ => rfl) pa k

theorem State.gmeta_chargeAt (place line c line' : Nat) : (s.chargeAt place line c).gmeta line' = s.gmeta line' := by
  obtain ⟨ms, h⟩ := s.chargeAt_only place line c
  rw [h]
  rfl

/-- Nothing of a line that is not busy has an active persistent request (R86). -/
theorem State.activePers_of_not_busy {line : Nat} (h : r.lineBusy line = false) : r.activePers line = none := by
  have hpers : (r.pers.any fun p => p.line == line) = false := by
    simp only [State.lineBusy, Bool.or_eq_false_iff] at h
    exact h.1.2
  simp only [State.activePers, Option.map_eq_none_iff, List.find?_eq_none]
  intro p hp hboth
  exact List.any_eq_false.mp hpers p hp (Bool.and_eq_true_iff.mp hboth).1

theorem State.not_ownHold {line : Nat} (h : r.heldRemotely line = false) (src tag : Nat) :
    (r.remoteHolds.any fun x => x.line == line && x.src == src && x.tag == tag) = false := by
  rw [List.any_eq_false]
  intro x hx hall
  simp only [Bool.and_eq_true] at hall
  exact List.any_eq_false.mp h x hx hall.1.1

theorem State.not_active {line : Nat} (h : r.lineBusy line = false) (holder : Nat) :
    (r.activePers line == some holder) = false := by
  rw [State.activePers_of_not_busy h]
  rfl

/-- A load of another module that the home serves is performed there, under the owner token (R88). -/
theorem exec_uncached_load {size pa src tag since : Nat} {gen : BitVec 8} (hin : InFlight n m s r)
    (hbody : m.body = .uncached (.load size) pa src tag gen since) (hserves : RemoteServes m pa src false gen r)
    (hown : (r.dirOf m.line).ownh = true) :
    exec (.uncachedAccess n) s =
      .next ((r.uncachedDone m.line (.load size) pa src tag).leavePers m.line (homeAgent src tag)) := by
  obtain ⟨hbusy, hheld, hserve, hmask⟩ := hserves
  refine congrArg Host.Outcome.next ?_
  simp only [State.takeMsg_of_inFlight hin, hbody, State.not_ownHold hheld, Bool.false_eq_true, if_false, State.not_active hbusy,
    hserve, hmask, false_and, Bool.true_eq_false, reduceCtorEq, hbusy, Bool.false_and, Bool.or_self, and_false,
    State.wantOwner_of_home hown]

/-- A store of another module that the home serves is performed there, with every token at home (R88). -/
theorem exec_uncached_store {bs : List Byte} {p : Bool} {pa src tag since : Nat} {gen : BitVec 8} (hin : InFlight n m s r)
    (hbody : m.body = .uncached (.store bs p) pa src tag gen since) (hserves : RemoteServes m pa src true gen r)
    (hdir : r.hasDir m.line = false) (hcollecting : r.collecting = []) :
    exec (.uncachedAccess n) s =
      .next ((r.uncachedDone m.line (.store bs p) pa src tag).leavePers m.line (homeAgent src tag)) := by
  obtain ⟨hbusy, hheld, hserve, hmask⟩ := hserves
  have hwant : r.wantAll m.line = (true, { r with collecting := [] }) := by
    simp only [State.wantAll, hdir, if_true, hcollecting, List.filter_nil]
  have hsame : ({ r with collecting := [] } : State) = r := by rw [← hcollecting]
  refine congrArg Host.Outcome.next ?_
  simp only [State.takeMsg_of_inFlight hin, hbody, State.not_ownHold hheld, Bool.false_eq_true, if_false, State.not_active hbusy,
    hserve, hmask, false_and, Bool.true_eq_false, reduceCtorEq, hbusy, hheld, Bool.and_false, Bool.or_self, and_false,
    if_true, hwant, hcollecting, List.filter_nil, hsame]

end

/-- Settles O32: replicas come and go with their messages; an access of another module is one at its home. -/
theorem replicasAndRemoteAccessesComplete : Obligations.ReplicasAndRemoteAccessesComplete := by
  unfold Obligations.ReplicasAndRemoteAccessesComplete
  intro n m gen md die size pa src tag since req s r
  refine ⟨fun hin hbody hreq halloc hholder => ?fdata, fun hin hbody hcoming => ?sweep, fun hin hbody hsweeps hthaw => ?swack,
    fun hin hbody hserves hown => ?load, fun bs p hin hbody hserves hdir hcoll => ?store, fun q hask hmod => ?request,
    fun q hask hmod => ⟨fun hreach => ?forward, fun hreach => ?refuse⟩,
    fun q ws line hask hmod hholds hnet hwait hpers => ?endHold⟩
  case fdata =>
    refine congrArg Host.Outcome.next ?_
    simp only [State.takeMsg_of_inFlight hin, hbody, hreq, halloc, Nat.not_le.mpr hholder, decide_false, Bool.or_self,
      Bool.false_eq_true, if_false]
  case sweep =>
    have hnone : (r.net.any fun x => x.line / 512 == m.line && holderDie x.holder == die &&
        match x.body with | .fdata _ _ => true | _ => false) = false := by
      rw [List.any_eq_false]
      intro x hx hall
      simp only [Bool.and_eq_true, beq_iff_eq] at hall
      obtain ⟨⟨hline, hdie⟩, hfdata⟩ := hall
      split at hfdata
      · next hx' => exact hcoming x hx hline hdie _ _ hx'
      · exact Bool.false_ne_true hfdata
    refine congrArg Host.Outcome.next ?_
    simp only [State.takeMsg_of_inFlight hin, hbody]
    exact if_neg (Bool.eq_false_iff.mp hnone)
  case swack =>
    have hmod : tmod (fun w : Sweep => w.page == m.line) (fun w => { w with dies := w.dies.filter (· != die) }) r.sweeps =
        [{ page := m.line, gen := gen, dies := [], peers := [] }] := by simp [hsweeps, tmod]
    have hthaw' : ((r.frzOf m.line).st == .thawing) = true := beq_iff_eq.mpr hthaw
    refine congrArg Host.Outcome.next ?_
    simp only [State.takeMsg_of_inFlight hin, hbody, hmod, State.sweepEnd, List.any_cons, beq_self_eq_true, List.isEmpty_nil,
      Bool.and_self, Bool.true_or, if_true, List.filter_cons, bne_self_eq_false, Bool.false_eq_true, if_false, List.filter_nil]
    exact congrArg State.unpark (if_pos hthaw')
  case load =>
    rw [exec_uncached_load hin hbody hserves hown]
    simp only [State.uncachedDone, State.gbytes_chargeAt, State.gmeta_chargeAt, reachCharged]
  case store => exact exec_uncached_store hin hbody hserves hdir hcoll
  case request =>
    refine congrArg Host.Outcome.next ?_
    simp only [State.requestMod, hask, hmod, ne_eq, not_true, if_false]
  case forward =>
    refine congrArg Host.Outcome.next ?_
    simp only [State.requestMod, hask, ne_eq, hmod, not_false_eq_true, if_true, State.forwardReq, hreach]
  case refuse =>
    refine congrArg Host.Outcome.next ?_
    simp only [State.requestMod, hask, ne_eq, hmod, not_false_eq_true, if_true, State.forwardReq, hreach, Bool.false_eq_true,
      if_false]
    rfl
  case endHold =>
    refine congrArg Host.Outcome.next ?_
    simp only [State.requestMod, hask, hmod, ne_eq, not_true, if_false, hnet, hwait, hpers, List.filter_nil,
      List.map_nil, List.foldl_nil, hholds, List.any_cons, beq_self_eq_true, Bool.and_self, Bool.true_or, if_true,
      List.filter_cons, Bool.not_true, Bool.false_eq_true, if_false]

end Sys2Proof.Machine

namespace Sys2Proof.Machine
open Sys2Proof.Safety

/-! ### Translation (R103 to R112, R510) -/

section
variable {n c die : Nat} {s : State} {r : PgReq} {w : Walk} {m : Miss}

/-- A request that is first of those for its queue, or for the control node, takes its step (R111). -/
theorem exec_pgreqAppend_of_first {target : Option Nat} (h : FirstAppend n r target s) :
    exec (.pgreqAppend n) s = .next (target.elim (s.appendNode r) fun c => s.appendStep c r) := by
  obtain ⟨hreq, hqueue, rfl, hstopped, hothers, hearlier⟩ := h
  have hahead : (s.openAppends.any fun x => x.queue == s.pgTarget (some r.owner) 9 && (s.pgTarget (some r.owner) 9).isSome) = false := by
    rw [List.any_eq_false]
    intro x hx hboth
    simp only [Bool.and_eq_true, beq_iff_eq] at hboth
    exact hothers x hx (Option.isSome_iff_ne_none.mp hboth.2) hboth.1
  have hbefore : ((s.openAppends.take n).any fun x => x.queue.isNone && s.pgTarget (some x.owner) 9 == s.pgTarget (some r.owner) 9) =
      false := by
    rw [List.any_eq_false]
    intro x hx hboth
    simp only [Bool.and_eq_true, beq_iff_eq, Option.isNone_iff_eq_none] at hboth
    exact hearlier x hx hboth.1 hboth.2
  refine congrArg Host.Outcome.next ?_
  simp only [hreq, hqueue, hahead, hbefore, hstopped, Bool.or_self, Bool.false_eq_true, if_false]
  cases s.pgTarget (some r.owner) 9 <;> rfl

/-- An append that has begun takes its next step at its queue (R510). -/
theorem exec_pgreqAppend_of_begun (hreq : s.openAppends[n]? = some r) (hqueue : r.queue = some c) :
    exec (.pgreqAppend n) s = .next (s.appendStep c r) := by
  refine congrArg Host.Outcome.next ?_
  simp only [hreq, hqueue]

/-- A walk of one miss whose entries are at their homes ends (R107). -/
theorem exec_walkComplete_of_owned (hw : s.runningWalk die n = some w) (hm : w.misses = [m])
    (howned : (s.walkOwned w.ctx m.va).1 = true) (hnear : ∀ k a g, s.walk w.ctx m.va false false ≠ .far k a g) :
    exec (.walkComplete die n) s = .next (s.endWalk w) := by
  refine congrArg Host.Outcome.next ?_
  simp only [hw, hm, List.headD_cons, howned, Bool.true_eq_false, false_and, if_false]

/-- The end of a walk of one miss that is served (R108 to R110). -/
theorem State.endWalk_of_served {u s1 : State} (hm : w.misses = [m])
    (hu : u = ({ s with walks := s.walks.erase w } : State).chargeWalk (32 * w.die) w.ctx w.ctx m.va)
    (hserved : State.serveMiss w.ctx (u, []) m = (s1, [])) :
    s.endWalk w = (s1.dropFar (.tables w.ctx)).wakePasses := by
  subst hu
  simp only [State.endWalk, hm, List.foldl_cons, List.foldl_nil, hserved, List.isEmpty_nil, if_true]

/-- A record set under one key leaves what another key finds. -/
theorem tget_tset_other {α : Type} (p p' : α → Bool) (d v : α) (hv : p' v = false) (hdisj : ∀ x, p x = true → p' x = false) :
    ∀ l : List α, tget p' d (tset p v l) = tget p' d l
  | [] => by simp [tget, tset, hv]
  | x :: xs => by
    have hrest := tget_tset_other p p' d v hv hdisj xs
    unfold tset
    split
    · next hx => simp [tget, hv, hdisj x hx]
    · unfold tget at hrest ⊢
      rw [List.find?_cons, List.find?_cons]
      cases p' x with
      | true => rfl
      | false => exact hrest

end

/-- Settles O33: walks, appends, expiry and increments each step as their form says. -/
theorem translationStepsComplete : Obligations.TranslationStepsComplete := by
  unfold Obligations.TranslationStepsComplete
  intro s die n quay
  refine ⟨fun w hfree hw => ?start, fun w m => ?complete, fun r c tb hb d1 d2 s1 s2 s3 hfirst hstep => ?record,
    fun r c s1 hreq hqueue => ?later, fun r hfirst hroom => ?node, fun e he hold => ?expiry, fun p hp hready => ?increment⟩
  case start =>
    refine congrArg Host.Outcome.next ?_
    simp only [ge_iff_le, Nat.not_le.mpr hfree, if_false, hw]
  case complete =>
    intro u hw hm howned hnear
    refine ⟨fun x s1 hend hgo => ?_, fun f s1 hend hopen => ?_⟩
    · rw [exec_walkComplete_of_owned hw hm howned hnear, State.endWalk_of_served (s1 := s1) hm rfl ?_]
      change State.serveMiss w.ctx (u, []) m = _
      simp only [State.serveMiss, hend, hgo]
    · rw [exec_walkComplete_of_owned hw hm howned hnear, State.endWalk_of_served (s1 := s1.bubble m) hm rfl ?_]
      change State.serveMiss w.ctx (u, []) m = _
      simp only [State.serveMiss, hend, hopen]
  case record =>
    intro base slots tail htail hhead hroom hwrite
    rw [exec_pgreqAppend_of_first hfirst]
    have hreg : r.register s c = (s.ctx c).pgreq := if_pos hstep
    have hslots : 0 < slots := Nat.two_pow_pos _
    have hspace : ¬(tail - leNat hb ≥ slots) := by omega
    refine congrArg Host.Outcome.next ?_
    simp only [Option.elim_some, State.appendStep, hstep, hreg, base, htail, hhead]
    refine (if_neg hspace).trans ?_
    rw [hwrite]
    rfl
  case later =>
    intro base
    rw [exec_pgreqAppend_of_begun hreq hqueue]
    refine ⟨fun hstep hdone => congrArg Host.Outcome.next ?_, fun hstep hacked hdone => congrArg Host.Outcome.next ?_⟩
    · have hreg : r.register s c = r.pgreg := if_neg (by omega)
      simp only [State.appendStep, hstep, hreg, base, hdone]
    · have hreg : r.register s c = r.pgreg := if_neg (by omega)
      simp only [State.appendStep, hstep, hreg, base, hdone, hacked, Bool.false_eq_true, if_false]
  case node =>
    intro u
    rw [exec_pgreqAppend_of_first hfirst]
    exact congrArg Host.Outcome.next (if_neg (Nat.not_le.mpr hroom))
  case expiry =>
    refine congrArg Host.Outcome.next ?_
    simp only [he]
    exact if_pos hold
  case increment =>
    refine ⟨({ s with genWait := s.genWait.eraseIdx n } : State).applyBump p, congrArg Host.Outcome.next ?_, ?_, rfl, fun p' hne => ?_,
      rfl⟩
    · simp only [hp, hready, if_true]
    · exact congrArg GenEntry.gen (tget_tset (fun g : GenEntry => g.page == p) _ _ (beq_self_eq_true p) _)
    · refine congrArg GenEntry.gen (tget_tset_other (fun g : GenEntry => g.page == p) (fun g : GenEntry => g.page == p') _ _
        (beq_eq_false_iff_ne.mpr (Ne.symm hne)) (fun x hx => ?_) _)
      rw [beq_iff_eq.mp hx]
      exact beq_eq_false_iff_ne.mpr (Ne.symm hne)

end Sys2Proof.Machine

namespace Sys2Proof.Machine
open Sys2Proof.Safety

/-! ### Planes, block fetch and configuration (R184, R356 to R364, R375) -/

section
variable {s t : State} {e : WvEntry} {y : Waiter} {x : Xlate} {c q : Nat}

theorem State.plane_key (s : State) (q p : Nat) : (s.plane q p).quay = q ∧ (s.plane q p).plane = p := by
  have hkey := tget_key (fun x : Plane => x.quay == q && x.plane == p) { quay := q, plane := p } (by simp) s.planes
  exact ⟨beq_iff_eq.mp (Bool.and_eq_true_iff.mp hkey).1, beq_iff_eq.mp (Bool.and_eq_true_iff.mp hkey).2⟩

theorem State.entry_key (s : State) (q k : Nat) : (s.entry q k).quay = q ∧ (s.entry q k).e = k := by
  have hkey := tget_key (fun x : WvEntry => x.quay == q && x.e == k) { quay := q, e := k } (by simp) s.entries
  exact ⟨beq_iff_eq.mp (Bool.and_eq_true_iff.mp hkey).1, beq_iff_eq.mp (Bool.and_eq_true_iff.mp hkey).2⟩

/-- An entry in use that is changed reads as changed. -/
theorem State.entry_modEntry {k : Nat} (f : WvEntry → WvEntry) (hf : ∀ x, (f x).quay = x.quay ∧ (f x).e = x.e)
    (hvalid : s.entryValid q k = true) : (s.modEntry q k f).entry q k = f (s.entry q k) := by
  have hkey : ((fun x : WvEntry => x.quay == q && x.e == k) ∘ fun x => if (x.quay == q && x.e == k) = true then f x else x) =
      fun x : WvEntry => x.quay == q && x.e == k := by
    funext x
    simp only [Function.comp]
    split
    · rw [(hf x).1, (hf x).2]
    · rfl
  have hfound : ∃ x, s.entries.find? (fun x => x.quay == q && x.e == k) = some x :=
    Option.isSome_iff_exists.mp (by rw [List.find?_isSome]; exact List.any_eq_true.mp hvalid)
  obtain ⟨x, hx⟩ := hfound
  have hx' := List.find?_some hx
  simp only [State.entry, State.modEntry, tget, tmod, List.find?_map, hkey, hx, Option.map_some, Option.getD_some, hx', if_true]

/-- A home that has the owner token of a line changes nothing to have it (R83). -/
theorem State.wantOwner_snd {line : Nat} (h : (s.wantOwner line).1 = true) : (s.wantOwner line).2 = s := by
  unfold State.wantOwner at h ⊢
  dsimp only at h ⊢
  split at h
  · next hown => rw [if_pos hown]
  · split at h
    · cases h
    · split at h
      · cases h
      · cases h

/-- What another module has answered is taken as it came (R450). -/
theorem State.askFar_ok {mod pa size : Nat} {gen : BitVec 8} {write : Bool} {tag : Option Nat} {ask : RemoteAsk} {bs : List Byte}
    {md : LineMeta} (h : s.askFar y mod pa size gen write tag ask = .ok bs md t) : t = s := by
  unfold State.askFar at h
  split at h
  · dsimp only at h
    split at h
    · cases h
      rfl
    · cases h
    · cases h
    · cases h
  · split at h
    · cases h
    · cases h

/-- Bytes of a block in one line come without a change of the entries (R56, R450). -/
theorem State.fetchLine_entries {n : Nat} {bs : List Byte} {md : LineMeta} (h : s.fetchLine y x c q n = .ok bs md t) :
    t.entries = s.entries := by
  have hserved : ∀ {u : State}, (if s.heldLine (.glob x.pa) = true then LineSays.wait (s.waitHeld y (.glob x.pa))
      else if ((s.payBy c).wantOwner (x.pa / 128)).1 = true then
        .ok (((s.payBy c).wantOwner (x.pa / 128)).2.gbytes x.pa n) (((s.payBy c).wantOwner (x.pa / 128)).2.gmeta (x.pa / 128))
          (((s.payBy c).wantOwner (x.pa / 128)).2.chargeAt q (x.pa / 128) c)
      else .wait ((s.payBy c).wantOwner (x.pa / 128)).2) = .ok bs md u → u.entries = s.entries := by
    intro u hu
    split at hu
    · cases hu
    · split at hu
      · next hown =>
        rw [State.wantOwner_snd hown] at hu
        obtain ⟨ms, hcharged⟩ := (s.payBy c).chargeAt_only q (x.pa / 128) c
        rw [← (LineSays.ok.inj hu).2.2, hcharged]
        rfl
      · cases hu
  unfold State.fetchLine at h
  split at h
  · rw [State.askFar_ok h]
  · split at h
    · cases h
    · cases h
    · cases h
    · exact hserved h
    · exact hserved h

theorem State.fetchUse_entries (va : Nat) : (s.fetchUse q c va).entries = s.entries := by
  unfold State.fetchUse
  split <;> rfl

/-- A block is fetched without a change of the entries (R356). -/
theorem State.fetchBytes_entries (fuel : Nat) :
    ∀ {s : State} {va n : Nat} {bs : List Byte}, s.fetchBytes e va n fuel = .ok bs t → t.entries = s.entries := by
  induction fuel with
  | zero =>
    intro s va n bs h
    cases n <;> cases h <;> rfl
  | succ fuel ih =>
    intro s va n bs h
    cases n with
    | zero =>
      cases h
      rfl
    | succ n =>
      rw [State.fetchBytes] at h
      case x_2 => exact Nat.succ_ne_zero n
      dsimp only at h
      split at h
      · split at h
        · cases h
        · cases h
      · split at h
        · cases h
        · cases h
        · next hline =>
          split at h
          · cases h
          · split at h
            · next hrest =>
              cases h
              rw [ih hrest, State.fetchLine_entries hline, State.fetchUse_entries]
            · next hnot =>
              exact absurd h (hnot _ _)
        · split at h <;> cases h

/-- A block that lies in one line at a home that serves it is fetched at once (R56, R81, R88). -/
theorem State.fetchBytes_of_serves (hva : e.ba.toNat < 2 ^ 56) (hx : s.fetchXlate e.quay e.fctx e.ba.toNat = some x)
    (hline : e.ba.toNat % 128 + 12 ≤ 128) (hlocal : Local x.pa s) (hown : (s.dirOf (x.pa / 128)).ownh = true)
    (hserve : s.homeCheck x.pa false x.gen e.fctx e.quay = .serve) (hheld : s.heldLine (.glob x.pa) = false)
    (hpoison : (s.gmeta (x.pa / 128)).poison = false) :
    s.fetchBytes e e.ba.toNat 12 2 = .ok (s.gbytes x.pa 12)
      (reachCharged e.quay (x.pa / 128) e.fctx ((s.fetchUse e.quay e.fctx e.ba.toNat).payBy e.fctx)) := by
  have hmin : min 12 (128 - e.ba.toNat % 128) = 12 := by omega
  have hbytes : ((s.fetchUse e.quay e.fctx e.ba.toNat).payBy e.fctx).gbytes x.pa 12 = s.gbytes x.pa 12 := by
    refine (State.gbytes_payBy ..).trans (State.gbytes_congr (fun a => ?_) _ _)
    unfold State.fetchUse
    split <;> rfl
  have hfetched : (s.fetchUse e.quay e.fctx e.ba.toNat).fetchLine (.fetch e.quay e.e) x e.fctx e.quay 12 =
      .ok (s.gbytes x.pa 12) (((s.fetchUse e.quay e.fctx e.ba.toNat).payBy e.fctx).gmeta (x.pa / 128))
        (reachCharged e.quay (x.pa / 128) e.fctx ((s.fetchUse e.quay e.fctx e.ba.toNat).payBy e.fctx)) := by
    have huse : ∀ {α : Type} (f : State → α), (∀ e, f (s.touch e) = f s) → f (s.fetchUse e.quay e.fctx e.ba.toNat) = f s := by
      intro α f hf
      unfold State.fetchUse
      split
      · exact hf _
      · rfl
    have hserve' := (huse (fun u => u.homeCheck x.pa false x.gen e.fctx e.quay) fun _ => rfl).trans hserve
    have hheld' := (huse (fun u => u.heldLine (.glob x.pa)) fun _ => rfl).trans hheld
    have hown' : (((s.fetchUse e.quay e.fctx e.ba.toNat).payBy e.fctx).dirOf (x.pa / 128)).ownh = true :=
      (huse (fun u => (u.dirOf (x.pa / 128)).ownh) fun _ => rfl).trans hown
    have hkind := huse (fun u => u.paKind x.pa) fun _ => rfl
    unfold State.fetchLine
    rcases paKind_of_local hlocal with ⟨sl, off, hk⟩ | ⟨d, r, off, hk⟩ | hk <;>
      simp only [hkind, hk, hserve', hheld', Bool.false_eq_true, if_false, State.wantOwner_of_home hown', if_true, hbytes] <;> rfl
  have hpoison' : (((s.fetchUse e.quay e.fctx e.ba.toNat).payBy e.fctx).gmeta (x.pa / 128)).poison = false := by
    refine Eq.trans ?_ hpoison
    unfold State.fetchUse
    split <;> rfl
  rw [State.fetchBytes]
  case x_2 => decide
  simp only [if_pos hva, hx, hmin, hfetched, hpoison', Bool.false_eq_true, if_false, Nat.sub_self, State.fetchBytes,
    List.append_nil]

/-- The thread that is oldest among those of a vector, the first of them where several are (R438). -/
def State.oldestOf (s : State) (q sl : Nat) (sls : List Nat) : Thread :=
  sls.foldl (fun b u => if s.ageOf (s.thread q u) > s.ageOf b then s.thread q u else b) (s.thread q sl)

theorem State.oldestOf_spec (s : State) (q sl : Nat) (sls : List Nat) :
    ∃ u ∈ sl :: sls, s.oldestOf q sl sls = s.thread q u ∧ ∀ v ∈ sl :: sls, s.ageOf (s.thread q v) ≤ s.ageOf (s.thread q u) := by
  induction sls generalizing sl with
  | nil => exact ⟨sl, by simp, rfl, by simp⟩
  | cons x xs ih =>
    by_cases h : s.ageOf (s.thread q x) > s.ageOf (s.thread q sl)
    · obtain ⟨u, hu, heq, hmax⟩ := ih x
      refine ⟨u, List.mem_cons_of_mem _ hu, ?_, fun v hv => ?_⟩
      · rw [← heq, State.oldestOf, List.foldl_cons, if_pos h]
        rfl
      · rcases List.mem_cons.mp hv with rfl | hv
        · exact Nat.le_trans (Nat.le_of_lt h) (hmax x (by simp))
        · exact hmax v hv
    · obtain ⟨u, hu, heq, hmax⟩ := ih sl
      have hfirst := hmax sl (by simp)
      refine ⟨u, ?_, ?_, fun v hv => ?_⟩
      · rcases List.mem_cons.mp hu with rfl | hu
        · exact List.mem_cons_self
        · exact List.mem_cons_of_mem _ (List.mem_cons_of_mem _ hu)
      · rw [← heq, State.oldestOf, List.foldl_cons, if_neg h]
        rfl
      · rcases List.mem_cons.mp hv with rfl | hv
        · exact hfirst
        · rcases List.mem_cons.mp hv with rfl | hv
          · omega
          · exact hmax v (List.mem_cons_of_mem _ hv)

theorem State.closeOne_dev (s : State) (q : Nat) : (s.closeOne q).dev = s.dev := by
  unfold State.closeOne
  dsimp only
  split
  · rfl
  · split <;> rfl

theorem State.tidy_dev (s : State) (q : Nat) : (s.tidy q).dev = s.dev := by
  unfold State.tidy
  dsimp only
  rw [State.closeOne_dev]
  unfold State.rebuild
  split <;> rfl

theorem mem_tset {α : Type} (p : α → Bool) (v : α) : ∀ l : List α, v ∈ tset p v l
  | [] => by simp [tset]
  | x :: xs => by
    unfold tset
    split
    · exact List.mem_cons_self
    · exact List.mem_cons_of_mem _ (mem_tset p v xs)

end

theorem bollard_key (q k : Nat) (l : List Bollard) :
    (tget (fun x : Bollard => x.quay == q && x.n == k) { quay := q, n := k } l).quay = q ∧
      (tget (fun x : Bollard => x.quay == q && x.n == k) { quay := q, n := k } l).n = k := by
  have hkey := tget_key (fun x : Bollard => x.quay == q && x.n == k) { quay := q, n := k } (by simp) l
  exact ⟨beq_iff_eq.mp (Bool.and_eq_true_iff.mp hkey).1, beq_iff_eq.mp (Bool.and_eq_true_iff.mp hkey).2⟩

/-- A free plane whose quay's intake is open opens the chosen entry (R358). -/
theorem execPlaneChoose_of_free {q p : Nat} {s : State} {e : WvEntry} {aged : Bool} (hfree : (s.plane q p).st = .free)
    (hopen : s.fabricHalted q = false) (hchosen : s.chooseEntry q = some (e, aged)) :
    execPlaneChoose q p s = .next ((s.setPlane
      { quay := q, plane := p, st := if aged then .aged else .admitting, entry := e.e, ba := e.ba, fctx := e.fctx,
        opened := s.clock, mustAdmit := if aged then s.waiting e else [] }).tidy q) := by
  have hgo : ¬((s.plane q p).st ≠ .free ∨ s.fabricHalted q = true) := by
    rintro (hbusy | hhalted)
    · exact hbusy hfree
    · exact Bool.false_ne_true (hopen.symm.trans hhalted)
  simp only [execPlaneChoose, if_neg hgo, hchosen]

/-- A plane whose block awaits its check reaches the check (R184). -/
theorem execBlockConfigure_of_placeable {q p : Nat} {s : State} (h : Placeable q p s) :
    execBlockConfigure q p s = .next (match checkBlock (s.entry q (s.plane q p).entry).bytes with
      | some k => (s.setPlane { quay := q, plane := p }).trapEntry (s.entry q (s.plane q p).entry)
          { cause := 0x01, addr := (s.entry q (s.plane q p).entry).ba, word := BitVec.ofNat 8 k }
      | none => (s.setPlane { s.plane q p with
          configured := true, block := parseBlock (s.entry q (s.plane q p).entry).bytes }).charge (meterQuay q)
            (match (s.entry q (s.plane q p).entry).vec with
              | [] => (s.entry q (s.plane q p).entry).fctx
              | sl :: sls => (s.oldestOf q sl sls).runCtx) 14 (parseBlock (s.entry q (s.plane q p).entry).bytes).words.length) := by
  obtain ⟨hopen, hconf, hpinned, hplaced⟩ := h
  have hbusy : ¬((s.plane q p).st = .free ∨ (s.plane q p).configured = true) := by
    rintro (hfree | hdone)
    · rw [Plane.isOpen, hfree] at hopen
      exact absurd hopen (by decide)
    · exact Bool.false_ne_true (hconf.symm.trans hdone)
  have hready : ¬((s.plane q p).isOpen = false ∨ (s.entry q (s.plane q p).entry).pinned = false) := by
    rw [hopen, hpinned]
    simp
  simp only [execBlockConfigure, if_neg hbusy, hplaced, Bool.false_eq_true, if_false, if_neg hready]
  cases checkBlock (s.entry q (s.plane q p).entry).bytes with
  | some k => rfl
  | none => cases (s.entry q (s.plane q p).entry).vec <;> rfl

/-- A step of the fetch that brings the rest of a block pins it (R356). -/
theorem execBlockPinned_of_fetched {q k : Nat} {s s1 s2 : State} {h rest : List Byte} (hvalid : s.entryValid q k = true)
    (hpinned : (s.entry q k).pinned = false) (hcanon : (s.entry q k).ba.extractLsb' 56 8 = 0)
    (hwaits : s.fetchWaits (.fetch q k) = false)
    (hhead : s.fetchBytes (s.entry q k) (s.entry q k).ba.toNat 12 2 = .ok h s1)
    (hroom : s1.pinnedBytes q + 12 * blockWords (wordOfBytes h) ≤ 65536)
    (hrest : s1.fetchBytes (s.entry q k) ((s.entry q k).ba.toNat + 12) (12 * blockWords (wordOfBytes h) - 12) 40 = .ok rest s2) :
    execBlockPinned q k s = .next { (s2.dropFar (.fetch q k)).modEntry q k (fun e =>
      { e with pinned := true, bytes := h ++ rest, arrived := [] }) with
        threads := tmod (fun t => t.quay == q && (s.entry q k).vec.contains t.slot && !(s.entry q k).arrived.contains t.slot)
          (fun t => { t with stamp := s2.stamp }) s2.threads } := by
  have hgo : ¬(s.entryValid q k = false ∨ (s.entry q k).pinned = true ∨ s.fetchWaits (.fetch q k) = true) := by
    rw [hvalid, hpinned, hwaits]
    simp
  refine congrArg Host.Outcome.next ?_
  simp only [if_neg hgo, hcanon, ne_eq, not_true, if_false, hhead, gt_iff_lt, Nat.not_lt.mpr hroom, hrest]
  rfl

/-- A state that counts one more error that cannot be corrected (R376). -/
def State.countUecc (s : State) : State :=
  { s with dev := { s.dev with err := { s.dev.err with uecc := s.dev.err.uecc + 1 } } }

/-- A placed bollard of a quay with a spare left turns back what runs on it, and moves to the spare (R375). -/
theorem execBollardUncorrectable_of_spare {q k : Nat} {s v : State} (hk : k < 64) (hspare : s.spq q < 4)
    (hv : v = ((s.countUecc.passes.filter fun x => x.quay == q && x.block.onBollard x.blk.toNat k).foldl State.turnBack
      s.countUecc).tidy q) :
    let b := tget (fun x => x.quay == q && x.n == k) { quay := q, n := k } v.bollards
    execBollardUncorrectable q k s = .next { v with
      bollards := tset (fun x => x.quay == q && x.n == k) { b with spare := some (64 + s.spq q), used := b.used + 1 } v.bollards,
      dev := { v.dev with err := { v.dev.err with spares := v.dev.err.spares + 1 } } } := by
  have hplaced : s.countUecc.bollardAt q k = some k := if_pos hk
  have hcount : s.countUecc.spq q = s.spq q := rfl
  subst hv
  refine congrArg Host.Outcome.next ?_
  rw [State.countUecc] at hplaced hcount ⊢
  simp only [hplaced, hspare, if_true, Option.getD_some, Option.any_some, hcount]

/-- Settles O34: the events of a harbourmaster, each with what its form says. -/
theorem planesOpenStopAndDrain : Obligations.PlanesOpenStopAndDrain := by
  unfold Obligations.PlanesOpenStopAndDrain
  refine ⟨fun q p s => ⟨fun e aged hfree hopen hchosen => execPlaneChoose_of_free hfree hopen hchosen,
    fun k e aged hvalid hpinned hwait hheld hclosed hplane hopen hchosen => ?hold, fun k h rest s1 s2 => ?pinned, fun k x => ?fetched,
    fun h hok hvec => ?configured, fun k h hbad => ?illegal⟩,
    fun q p k s => ⟨fun haged => congrArg Host.Outcome.next (if_pos haged), fun x hx hst hold hq hne hwait => ?runOpen,
      fun hst hold => congrArg Host.Outcome.next (if_pos ⟨hst, hold⟩), fun ws => ?weights, fun hpasses hk hspare => ?spare,
      fun x hpasses hk hspare hq => ?turned⟩⟩
  case hold =>
    have hgo : (s.entryValid q k && (s.entry q k).pinned && !(s.waiting (s.entry q k)).isEmpty && !s.heldEntry (s.entry q k) &&
        !s.openEntry q k) = true := by
      simp [hvalid, hpinned, hheld, hclosed, hwait]
    have hfree : (s.plane q p).st = .free := beq_iff_eq.mp (List.find?_some (p := fun p => (s.plane q p).st == .free) hplane)
    refine (if_pos hgo).trans ?_
    simp only [hplane]
    exact execPlaneChoose_of_free hfree hopen hchosen
  case pinned =>
    intro e len hvalid hpinned hcanon hwaits hhead hroom hrest
    have hexec := execBlockPinned_of_fetched hvalid hpinned hcanon hwaits hhead hroom hrest
    have hentries : (s2.dropFar (.fetch q k)).entries = s.entries :=
      (State.fetchBytes_entries _ hrest).trans (State.fetchBytes_entries _ hhead)
    have hvalid' : (s2.dropFar (.fetch q k)).entryValid q k = true := by
      rw [State.entryValid, hentries]
      exact hvalid
    have hentry := State.entry_modEntry (s := s2.dropFar (.fetch q k)) (q := q) (k := k) (fun e =>
      { e with pinned := true, bytes := h ++ rest, arrived := [] }) (fun _ => ⟨rfl, rfl⟩) hvalid'
    refine ⟨_, hexec, ?_, ?_, rfl⟩
    · exact (congrArg WvEntry.pinned hentry).trans rfl
    · exact (congrArg WvEntry.bytes hentry).trans rfl
  case fetched =>
    intro e hva hx hline hlocal hown hserve hheld hpoison
    have hkey : e.quay = q := (s.entry_key q k).1
    exact State.fetchBytes_of_serves hva (by rw [hkey]; exact hx) hline hlocal hown hserve hheld hpoison
  case configured =>
    obtain ⟨sl, sls, hcons⟩ := List.exists_cons_of_ne_nil hvec
    obtain ⟨u, hu, holdest, hmax⟩ := s.oldestOf_spec q sl sls
    refine ⟨u, hcons ▸ hu, fun v hv => hmax v (hcons ▸ hv), (execBlockConfigure_of_placeable h).trans ?_⟩
    simp only [hok, hcons, holdest]
  case illegal =>
    refine (execBlockConfigure_of_placeable h).trans ?_
    simp only [hbad]
  case runOpen =>
    have hkey := s.plane_key q p
    have hothers : s.othersWait (s.plane q p) = true := by
      rw [State.othersWait, List.any_eq_true]
      refine ⟨x, hx, ?_⟩
      simp [hkey.1, hq, hne, hwait]
    have hlong : s.openTooLong (s.plane q p) = true := by
      simp [State.openTooLong, hst, hold, hothers]
    exact congrArg Host.Outcome.next (if_pos hlong)
  case weights =>
    have hkey := bollard_key q k s.bollards
    exact ⟨_, rfl, rfl, _, mem_tset _ _ _, hkey.1, hkey.2, rfl⟩
  case spare =>
    have hnone : s.countUecc.passes = [] := hpasses
    refine ⟨_, execBollardUncorrectable_of_spare hk hspare rfl, ?_, ?_, _, mem_tset _ _ _, ?_, ?_, rfl⟩
    · rw [hnone]
      exact (congrArg (fun d : Device => d.err.uecc) (State.tidy_dev s.countUecc q)).trans rfl
    · rw [hnone]
      exact (congrArg (fun d : Device => d.err.spares + 1) (State.tidy_dev s.countUecc q)).trans rfl
    · exact (bollard_key q k _).1
    · exact (bollard_key q k _).2
  case turned =>
    intro u v
    have hone : s.countUecc.passes = [x] := hpasses
    have hv : v = ((s.countUecc.passes.filter fun x => x.quay == q && x.block.onBollard x.blk.toNat k).foldl State.turnBack
        s.countUecc).tidy q := by
      rw [hone]
      cases hon : x.block.onBollard x.blk.toNat k with
      | true => simp [v, u, hon, hq, State.countUecc]
      | false => simp [v, u, hon, hq, State.countUecc]
    exact ⟨_, execBollardUncorrectable_of_spare hk hspare hv, rfl⟩

end Sys2Proof.Machine

namespace Sys2Proof.Machine
open Sys2Proof.Safety

/-! ### Admission (R160 to R165, R185) -/

/-- What a pass is of: its tag, its thread's slot and context, its block. -/
def Pass.origin (p : Pass) : Nat × Nat × Nat × Word × Block := (p.tag, p.slot, p.ctx, p.blk, p.block)

@[simp] theorem Pass.note_origin (p : Pass) (n : TrapNote) : (p.note n).origin = p.origin := by
  unfold Pass.note
  split
  · split <;> rfl
  · rfl

@[simp] theorem Pass.toPort_origin (p : Pass) (idx : Nat) (port : Port) (t : Tok) : (p.toPort idx port t).origin = p.origin := by
  unfold Pass.toPort
  dsimp only
  split
  · rfl
  · split
    · rfl
    · exact Pass.note_origin ..

theorem foldl_origin {α : Type} (f : Pass → α → Pass) (hf : ∀ p x, (f p x).origin = p.origin) (l : List α) (p : Pass) :
    (l.foldl f p).origin = p.origin := by
  induction l generalizing p with
  | nil => rfl
  | cons x xs ih => rw [List.foldl_cons, ih, hf]

theorem deliverRead_origin (t : Thread) (p : Pass) (e : BitVec 32) : (deliverRead t p e).origin = p.origin := by
  refine foldl_origin _ (fun p x => ?_) _ p
  split
  · exact Pass.toPort_origin ..
  · rfl

theorem State.newPass_origin (s : State) (pl : Plane) (t : Thread) (tag : Nat) :
    (s.newPass pl t tag).origin = (tag, t.slot, t.runCtx, pl.ba, pl.block) :=
  foldl_origin _ (deliverRead_origin t) _ _

section
variable {s : State} {q p sl : Nat}

/-- The plane of an admission, without the thread among those it must still let in (R359). -/
def State.admitted (s : State) (q p sl : Nat) : Plane :=
  { s.plane q p with mustAdmit := (s.plane q p).mustAdmit.filter (· != sl) }

theorem State.plane_setPlane_of_key {x : Plane} (hq : x.quay = q) (hp : x.plane = p) : (s.setPlane x).plane q p = x := by
  subst hq hp
  exact tget_tset (fun y : Plane => y.quay == x.quay && y.plane == x.plane) _ x (by simp) s.planes

theorem State.plane_admitted : (s.setPlane (s.admitted q p sl)).plane q p = s.admitted q p sl :=
  State.plane_setPlane_of_key (s.plane_key q p).1 (s.plane_key q p).2

theorem State.plane_addPass (x : Pass) : (s.addPass x).plane q p = s.plane q p := by
  unfold State.addPass
  split <;> rfl

theorem State.thread_addPass (x : Pass) : (s.addPass x).thread q sl = s.thread q sl := by
  unfold State.addPass
  split <;> rfl

theorem State.pass_addPass {x : Pass} (h : s.pass.live = false) : (s.addPass x).pass = x := by
  rw [State.addPass, h]
  rfl

/-- A thread that a plane admits: its admission, by what its block's entries name (R162, R374). -/
theorem execThreadAdmit_of_admits (h : Admits q p sl s) :
    let pl := s.plane q p
    let t := s.thread q sl
    let u := s.setPlane (s.admitted q p sl)
    execThreadAdmit q p sl s = .next (match overBudget pl.block t, poisonedRead pl.block t with
      | some r, _ => (u.trapAtEntry q sl (s.entry q pl.entry).ba { cause := 0x04, code := BitVec.ofNat 16 r }).tidy q
      | none, some r => (u.trapAtEntry q sl (s.entry q pl.entry).ba { cause := 0x24, code := BitVec.ofNat 16 r }).tidy q
      | none, none =>
        if pl.tags.length ≥ (if (pl.block.h1.extractLsb' 88 8).toNat = 0 then 256 else (pl.block.h1.extractLsb' 88 8).toNat) then s
        else
          match (List.range 256).find? fun n => !pl.tags.any (·.1 == n) with
          | none => s
          | some tag => ((((u.leaveEntries q sl).setThread { t with st := .active }).setPlane
              { s.admitted q p sl with tags := pl.tags ++ [(tag, sl)] }).addPass
                ((u.leaveEntries q sl).newPass (s.admitted q p sl) t tag)).tidy q) := by
  obtain ⟨hst, hconf, hin, hopen, haged, hlong, hcoop, hlate⟩ := h
  intro pl t u
  have hrun : (pl.st == PlaneSt.aged) = false := by rw [hst]; rfl
  have hadmits : pl.isOpen = true := by rw [Plane.isOpen, hst]; rfl
  have hplane : u.plane q p = s.admitted q p sl := State.plane_admitted
  refine congrArg Host.Outcome.next ((if_neg ?_).trans ?_)
  · rw [hin, hopen, hcoop, haged]
    change ¬(pl.isOpen = false ∨ pl.configured = false ∨ _ ∨ _ ∨ _ ∨ ((pl.st == PlaneSt.aged) = true ∧ _) ∨
      ((pl.st == PlaneSt.aged) = false ∧ (_ ∨ s.openTooLong pl = true)))
    rw [hadmits, hrun, hlong]
    simp
    exact hconf
  · have hmine : (s.setPlane { s.plane q p with mustAdmit := (s.plane q p).mustAdmit.filter (· != sl) }).plane q p =
        s.admitted q p sl := hplane
    have hrun' : ((s.plane q p).st == PlaneSt.aged) = false := hrun
    have hlate' : (s.thread q sl).late = [] := hlate
    have htags : (s.admitted q p sl).tags = (s.plane q p).tags := rfl
    simp only [hlate', hrun', Bool.false_eq_true, if_false, or_true, if_true, hmine, htags, pl, t, u]
    cases overBudget (s.plane q p).block (s.thread q sl) with
    | some r => rfl
    | none =>
      cases poisonedRead (s.plane q p).block (s.thread q sl) with
      | some r => rfl
      | none =>
        refine if_congr Iff.rfl rfl ?_
        cases List.find? (fun n => !(s.plane q p).tags.any (·.1 == n)) (List.range 256) <;> rfl

end

/-- Settles O35: what an admission makes of plane, thread and pass, and its two traps. -/
theorem threadsEnterBlocks : Obligations.ThreadsEnterBlocks := by
  unfold Obligations.ThreadsEnterBlocks
  intro q p sl tag s h pl t
  have hexec := execThreadAdmit_of_admits h
  refine ⟨fun hbudget hpoison hroom htag => ?_, fun r hbudget => ?_, fun r hbudget hpoison => ?_⟩
  · have hfull : ¬(pl.tags.length ≥ (if (pl.block.h1.extractLsb' 88 8).toNat = 0 then 256 else (pl.block.h1.extractLsb' 88 8).toNat)) :=
      Nat.not_le.mpr hroom
    simp only [pl, t] at hbudget hpoison hfull htag
    simp only [hbudget, hpoison, hfull, if_false, htag] at hexec
    refine ⟨_, hexec, ?_, ?_, fun hnone => ?_⟩
    · rw [State.plane_addPass]
      exact State.plane_setPlane_of_key (s.plane_key q p).1 (s.plane_key q p).2
    · rw [State.thread_addPass]
      exact State.thread_setThread_of_key (s.thread_key q sl).1 (s.thread_key q sl).2
    · rw [State.pass_addPass]
      · have horigin := State.newPass_origin ((s.setPlane (s.admitted q p sl)).leaveEntries q sl) (s.admitted q p sl)
          (s.thread q sl) tag
        simp only [Pass.origin, Prod.mk.injEq] at horigin
        obtain ⟨htag, hslot, hctx, hblk, hblock⟩ := horigin
        exact ⟨htag, hslot.trans (s.thread_key q sl).2, hctx, hblk, hblock⟩
      · exact hnone
  · refine hexec.trans ?_
    simp only [pl, t] at hbudget
    simp only [hbudget]
    rfl
  · refine hexec.trans ?_
    simp only [pl, t] at hbudget hpoison
    simp only [hbudget, hpoison]
    rfl

end Sys2Proof.Machine

namespace Sys2Proof.Machine
open Sys2Proof.Safety

/-! ### Resolution and commit (R191 to R193, R271, R328) -/

section
variable {s : State} {f : Fired}

/-- A pass with everything resolved, and no token not ready and no poison, takes its trap or may commit (R191). -/
theorem execBlockResolve_of_ends (h : Ends s) :
    execBlockResolve s = .next (match s.pass.recorded with
      | some n => s.trapPass s.pass (s.pass.withOperands n)
      | none => if s.pass.fired.length ≠ 1 then s.trapPass s.pass (s.pass.withOperands { cause := 0x03, idx := s.pass.conflictIdx })
          else { s with pass := { s.pass with resolved := true } }) := by
  obtain ⟨hlive, hopen, hdone, hready, hclean⟩ := h
  simp only [execBlockResolve, hlive, hopen, hdone, hready, hclean, Bool.true_eq_false, Bool.false_eq_true, or_self, if_false] <;> rfl

/-- A pass that has resolved with one branch and nothing before it to wait for goes on to its commit (R192). -/
theorem execCommit_of_commits (h : Commits f s) :
    execCommit s = .next (if f.exits then s.commitExit s.pass f else s.commitPass s.pass f) := by
  obtain ⟨hlive, hresolved, hfired, hleaving, hout, hlate, hgred, hentries, hremote, hyes⟩ := h
  have hwaits : ((f.exits || !s.pass.shadows.isEmpty) && (s.thread s.pass.quay s.pass.slot).writesOut) = false := by
    by_cases hheld : f.exits = true ∨ s.pass.shadows ≠ []
    · have hperformed : (s.thread s.pass.quay s.pass.slot).writesOut = false := hout hheld
      rw [hperformed, Bool.and_false]
    · obtain ⟨hexits, hshadows⟩ := not_or.mp hheld
      rw [Bool.eq_false_iff.mpr hexits, not_not.mp hshadows]
      rfl
  have hnone : (if f.exits = true then (s.thread s.pass.quay s.pass.slot).late else []) = [] := by
    split
    · next hexits => exact hlate hexits
    · rfl
  have hgred' : s.gredReady s.pass (s.thread s.pass.quay s.pass.slot).group = true := hgred
  simp only [execCommit, hfired, hlive, hresolved, Bool.true_eq_false, or_self, if_false, hleaving, hwaits, Bool.false_eq_true,
    hnone, hgred', hentries, hremote, hyes]

end

/-- Settles O36: resolution by what the pass recorded, commit by what may hold it back. -/
theorem passesResolveAndCommit : Obligations.PassesResolveAndCommit := by
  unfold Obligations.PassesResolveAndCommit
  refine ⟨fun s => ⟨fun f h hrec hfired => ?mayCommit, fun n h hrec => ?recorded, fun h hrec hfired => ?conflict,
      fun hlive hopen hdone hready hpoison hblk hruns => ?poisoned⟩,
    fun f s => ⟨fun h hexits => ?whole, fun h hexits => ⟨fun hout => ?sends, fun hout hlate => ?performed⟩,
      fun n ns hlive hresolved hfired hleaving hexits hout hlate => ?late,
      fun hlive hresolved hfired hleaving hshadows hout => ?holds, fun hlive hresolved hfired hleaving => ?left⟩⟩
  case mayCommit =>
    refine (execBlockResolve_of_ends h).trans ?_
    have hone : ¬(s.pass.fired.length ≠ 1) := by simp [hfired]
    simp only [hrec, if_neg hone]
  case recorded =>
    refine (execBlockResolve_of_ends h).trans ?_
    simp only [hrec]
  case conflict =>
    refine (execBlockResolve_of_ends h).trans ?_
    simp only [hrec, if_pos hfired]
  case poisoned =>
    have hblk' : (s.thread s.pass.quay s.pass.slot).poisonBlk = s.pass.blk := hblk
    have hruns' : (s.thread s.pass.quay s.pass.slot).poisonRuns + 1 ≥ 4 := Nat.succ_le_succ hruns
    refine congrArg Host.Outcome.next ?_
    simp only [hlive, hopen, hdone, hready, hpoison, Bool.true_eq_false, Bool.false_eq_true, or_self, if_false, if_true, hblk',
      hruns', mine]
  case whole =>
    refine (execCommit_of_commits h).trans ?_
    rw [hexits]
    rfl
  case sends =>
    refine (execCommit_of_commits h).trans ?_
    rw [hexits]
    exact congrArg Host.Outcome.next (if_pos hout)
  case performed =>
    refine (execCommit_of_commits h).trans ?_
    rw [hexits]
    refine congrArg Host.Outcome.next ((if_neg (Bool.eq_false_iff.mp hout)).trans ?_)
    simp only [hlate]
  case late =>
    have hout' : (s.thread s.pass.quay s.pass.slot).writesOut = false := hout
    have hlate' : (s.thread s.pass.quay s.pass.slot).late = n :: ns := hlate
    refine congrArg Host.Outcome.next ?_
    simp only [hfired, hlive, hresolved, Bool.true_eq_false, or_self, if_false, hleaving, hout', Bool.and_false,
      Bool.false_eq_true, hexits, if_true, hlate', mine]
  case holds =>
    have hout' : (s.thread s.pass.quay s.pass.slot).writesOut = true := hout
    have hheld : (f.exits || !s.pass.shadows.isEmpty) = true := by simp [hshadows]
    refine congrArg Host.Outcome.next ?_
    simp only [hfired, hlive, hresolved, Bool.true_eq_false, or_self, if_false, hleaving, hout', hheld, Bool.and_self, if_true]
  case left =>
    refine congrArg Host.Outcome.next ?_
    simp only [hfired, hlive, hresolved, Bool.true_eq_false, or_self, if_false, hleaving, if_true]
    rfl

end Sys2Proof.Machine

namespace Sys2Proof.Machine
open Sys2Proof.Safety

/-! ### Arrivals at a barrier (R332, R333) -/

/-- A state in which two group records have one number: the first knows barrier 0, the second does not; an arrival of the
group's thread at barrier 0 has been released. -/
def twiceGrouped : State :=
  { threads := [{ quay := 0, slot := 0, released := [{ kind := .barArrive 0 }] }],
    groups := [{ id := 0, bars := [{ b := 0 }] }, { id := 0 }] }

/-- The barriers that each group record of an outcome knows. -/
def barsKnown : Out → List Nat
  | .next s => s.groups.map (·.bars.length)
  | _ => []

/-- Refutes O38: of two group records with one number, an arrival opens the barrier in the one that does not know it, which the
statement says only of a group that knows no such barrier. -/
theorem not_releasedWritesComplete : ¬ Obligations.ReleasedWritesComplete := by
  unfold Obligations.ReleasedWritesComplete
  intro h
  obtain ⟨-, -, -, harrival, -⟩ := h 0 0 { kind := .barArrive 0 } [] twiceGrouped
  have hout := congrArg barsKnown (harrival 0 rfl rfl)
  exact absurd hout (by decide)

end Sys2Proof.Machine

namespace Sys2Proof.Machine
open Sys2Proof.Safety

/-! ### Collectives and sequences (R127, R128, R290, R291) -/

/-- A collective whose list is not read yet reads it. -/
theorem exec_collChunkReduce_list {op : Nat} {o : EngOp} {s s1 : State} {g : Nat × List Nat × Bool}
    (ho : s.op? op = some o) (hruns : s.opRuns o = true) (hkind : o.kind.isColl = true) (hst : o.status ≤ 1)
    (hphase : o.phase = 0) (hg : s.groupList o = .ok g s1) :
    exec (.collChunkReduce op) s = .next (
      let s2 := (s1.dropRemotes o).returnLines o
      let me := s2.rankEntry o.quay
      if g.2.1.isEmpty ∨ g.2.1.eraseDups ≠ g.2.1 ∨ g.2.1.contains me = false then
        ((s2.tell o.ctx s2.peers (.bad me g.2.1)).doomBad o.ctx me g.2.1).endOp op 9
      else if g.2.1.any fun e => entryMod e != s2.domain.mod.toNat && !s2.reachable (entryMod e) then s2.endOp op 7
      else s2.collAnnounce o g.2.1 g.2.2) := by
  have hnot : ¬ (s.opRuns o = false ∨ o.kind.isColl = false) := by simp [hruns, hkind]
  refine congrArg Host.Outcome.next ?_
  simp only [ho, if_neg hnot, if_neg (Nat.not_lt.mpr hst), if_pos hphase, hg]

/-- A rank of another module that no route reaches: none of the list, where each is here or reachable. -/
theorem no_rank_unreachable {l : List Nat} {s : State}
    (h : ∀ e ∈ l, entryMod e = s.domain.mod.toNat ∨ s.reachable (entryMod e) = true) :
    (l.any fun e => entryMod e != s.domain.mod.toNat && !s.reachable (entryMod e)) = false := by
  rw [List.any_eq_false]
  intro e he
  rcases h e he with hmod | hreach
  · simp [hmod]
  · simp [hreach]

/-- A collective whose every rank has issued and runs, and whose descriptors agree, takes its chunk. -/
theorem exec_collChunkReduce_chunk {op : Nat} {o : EngOp} {s : State} {os : List (EngOp × Nat)} {fs : List FarRank}
    (ho : s.op? op = some o) (hruns : s.opRuns o = true) (hkind : o.kind.isColl = true) (hst : o.status ≤ 1)
    (hphase : o.phase ≠ 0) (hdoom : s.doomOf (s.rankEntry o.quay) o.idxs = none)
    (hranks : s.collRanks o.idxs = some (os, fs)) (hall : ∀ x ∈ os, s.opRuns x.1 = true)
    (hcheck : s.collCheck o.idxs.length
      (os.map (fun x => collDesc x.1 (s.rankEntry x.1.quay) o.idxs) ++ fs.map (·.desc))
      (os.map fun x => (x.1, collDesc x.1 (s.rankEntry x.1.quay) o.idxs)) = none) :
    exec (.collChunkReduce op) s = .next (s.collChunk o.idxs os o fs) := by
  have hnot : ¬ (s.opRuns o = false ∨ o.kind.isColl = false) := by simp [hruns, hkind]
  have hrun : (os.any fun x => !s.opRuns x.1) = false := by
    rw [List.any_eq_false]
    intro x hx
    simp [hall x hx]
  refine congrArg Host.Outcome.next ?_
  simp only [ho, if_neg hnot, if_neg (Nat.not_lt.mpr hst), if_neg hphase, hdoom, hranks, hrun, hcheck,
    Bool.false_eq_true, if_false]

/-- A sequence of products that may take a step takes it. -/
theorem exec_seqStep_gemm {op : Nat} {o : EngOp} {s : State} (h : OpActs op .seqGemm o s) :
    exec (.seqStep op) s = .next (s.gemmStep o) := by
  obtain ⟨ho, hruns, hkind, hst⟩ := h
  refine congrArg Host.Outcome.next ?_
  simp only [ho, hruns, Bool.true_eq_false, if_false, if_neg (Nat.not_lt.mpr hst), hkind]

/-- A step of a sequence that keeps to R291 and has K left to issue. -/
theorem gemmStep_issue {o : EngOp} {s s' : State} (hok : s.seqOk o (dAux o.desc % 4) = true)
    (hk : o.next < mmaK (seqMd o.ext)) (hlow : 1 ≤ o.phase) (hhigh : o.phase ≤ 64)
    (hissue : s.seqIssue o (seqCopy o
        (seqBg o.ext + (o.phase - 1) * seqStride o.ext + o.next * (s.seqSizes o (dAux o.desc % 4)).2.1)
        (seqScr o.ext (o.next / seqKc o.ext % 2) + (o.phase - 1) * seqKc o.ext * (s.seqSizes o (dAux o.desc % 4)).2.1 +
          (o.next - o.next / seqKc o.ext * seqKc o.ext) * (s.seqSizes o (dAux o.desc % 4)).2.1)
        (((o.next / seqKc o.ext + 1) * seqKc o.ext - o.next) * (s.seqSizes o (dAux o.desc % 4)).2.1)) = some s') :
    s.gemmStep o = s'.modOp o.id fun o => { o with phase := o.phase + 1 } := by
  have hzero : o.phase ≠ 0 := by omega
  simp only [State.gemmStep, hok, Bool.true_eq_false, if_false, if_neg (Nat.not_le.mpr hk), ge_iff_le, if_neg hzero,
    if_pos hhigh, hissue]

/-- Settles O40: each clause is one branch of the collective's or the sequence's step. -/
theorem collectivesAndSequencesStep : Obligations.CollectivesAndSequencesStep := by
  unfold Obligations.CollectivesAndSequencesStep
  intro op o s
  refine ⟨?_, ?_, ?_, ?_, ?_⟩
  · intro g s1 ho hruns hkind hst hphase hg s2 me
    rw [exec_collChunkReduce_list ho hruns hkind hst hphase hg]
    constructor
    · intro hne hdup hme hreach
      refine congrArg Host.Outcome.next ?_
      have hgood : ¬ (g.2.1.isEmpty = true ∨ g.2.1.eraseDups ≠ g.2.1 ∨ g.2.1.contains me = false) := by
        rintro (h | h | h)
        · exact hne (List.isEmpty_iff.mp h)
        · exact h hdup
        · exact Bool.false_ne_true (h.symm.trans hme)
      exact (if_neg hgood).trans (if_neg (by rw [no_rank_unreachable hreach]; simp))
    · intro hbad
      refine congrArg Host.Outcome.next (if_pos ?_)
      exact hbad.imp_left List.isEmpty_iff.mpr
  · intro os fs ho hruns hkind hst hphase hdoom hranks hall mine hcheck
    exact exec_collChunkReduce_chunk ho hruns hkind hst hphase hdoom hranks hall hcheck
  · intro hacts hok hk hsteps
    rw [exec_seqStep_gemm hacts]
    refine congrArg Host.Outcome.next ?_
    simp only [State.gemmStep, hok, Bool.true_eq_false, if_false, ge_iff_le, if_pos hk, if_pos hsteps]
  · intro hacts hok hk hphase hsteps
    rw [exec_seqStep_gemm hacts]
    refine congrArg Host.Outcome.next ?_
    simp only [State.gemmStep, hok, Bool.true_eq_false, if_false, ge_iff_le, if_neg (Nat.not_le.mpr hk), if_pos hphase,
      if_pos hsteps]
  · intro s' hacts hok hk hlow hhigh sb kc c hissue
    rw [exec_seqStep_gemm hacts]
    exact congrArg Host.Outcome.next (gemmStep_issue hok hk hlow hhigh hissue)

end Sys2Proof.Machine

namespace Sys2Proof.Machine
open Sys2Proof.Safety

/-! ### A vault that no region covers -/

/-- No region meets a range of such a vault. -/
theorem regionsOver_of_open {s : State} {q : Nat} (h : (s.regions.all fun r => r.quay != q) = true) (off n : Nat) :
    s.regionsOver q off n = [] := by
  rw [List.all_eq_true] at h
  refine List.filter_eq_nil_iff.mpr fun r hr => ?_
  have hq := h r hr
  simp_all

/-- No region stands at an offset of such a vault. -/
theorem regionAt_of_open {s : State} {q : Nat} (h : (s.regions.all fun r => r.quay != q) = true) (off : Nat) :
    s.regionAt q off = none := by
  rw [List.all_eq_true] at h
  refine List.find?_eq_none.mpr fun r hr => ?_
  have hq := h r hr
  simp_all

/-- Nothing of such a vault has to be filled. -/
theorem lineToFill_of_open {s : State} {q : Nat} (h : (s.regions.all fun r => r.quay != q) = true) (off n : Nat) :
    s.lineToFill q off n = none := by
  simp only [State.lineToFill, regionAt_of_open h]

/-- The bank of such a vault takes a write where nothing is held. -/
theorem bankWrite_of_open {s : State} {q off n : Nat} (h : VaultOpen q off n s) (fabric refs : Bool) :
    s.bankWrite q off n fabric refs (s.heldRange q off n) = .go := by
  obtain ⟨hregions, hheld⟩ := h
  simp only [State.bankWrite, regionsOver_of_open hregions, lineToFill_of_open hregions, hheld, List.filter_nil,
    List.any_nil, Bool.and_false, Bool.or_false, Bool.false_eq_true, if_false]

/-- An operation may write there. -/
theorem opBank_of_open {s : State} {q off n : Nat} (h : VaultOpen q off n s) (o : EngOp) : s.opBank o q off n = .ok () s := by
  simp only [State.opBank, bankWrite_of_open h]

/-- An operation may read there. -/
theorem opFill_of_open {s : State} {q : Nat} (h : (s.regions.all fun r => r.quay != q) = true) (o : EngOp) (off n : Nat) :
    s.opFill o q off n = .ok () s := by
  simp only [State.opFill, lineToFill_of_open h]

/-! ### The end of an operation (R121, R122, R147, R150) -/

/-- An operation that has had its work and report behind it is at its raise. -/
theorem exec_completionRaise_of_raises {op st : Nat} {o : EngOp} {s : State} (h : OpRaises op st o s) :
    exec (.completionRaise op) s = .next (match s.raiseAt o st with
      | .ok s _ => s.joinOp o st false
      | .wait s => s
      | .fail _ s => s.joinOp o st true) := by
  obtain ⟨ho, hfin, hwait, hhalt, hpend, hscore, hphase, hstatus⟩ := h
  have hlow : ¬ (100 + st < 100) := by omega
  refine congrArg Host.Outcome.next ?_
  simp only [ho, hfin, hwait, hhalt, hpend, hscore, hphase, hstatus, Bool.true_eq_false, Bool.false_eq_true, or_self,
    if_false, if_neg hlow, ne_eq, not_true_eq_false, Nat.add_sub_cancel_left] <;> rfl

/-- An object of an open vault is raised at once. -/
theorem raiseAt_vault {o : EngOp} {q off st : Nat} {s : State} (hco : o.co.getLsbD 63 = true)
    (hat : s.vaultOperand ((o.co.extractLsb' 0 36).zeroExtend 64) o.quay o.ctx 16 = .ok q off)
    (hopen : VaultOpen q off 16 s) :
    s.raiseAt o st = .ok (s.vRaise q off o.ctx st) s := by
  have hne : o.co ≠ 0 := by
    intro hzero
    simp [hzero] at hco
  simp only [State.raiseAt, if_neg hne, hco, if_true, hat, opBank_of_open hopen, Asked.andThen]

/-- Settles O41: each clause is one branch of the retirement or of the raise. -/
theorem operationsRaiseAndRetire : Obligations.OperationsRaiseAndRetire := by
  unfold Obligations.OperationsRaiseAndRetire
  intro op st o s
  refine ⟨?_, ?_, ?_, ?_⟩
  · intro e he hover
    have hall : (s.op? e.op).all (fun o => o.finished) = true := by
      cases hop : s.op? e.op with
      | none => rfl
      | some x => exact hover x hop
    have hany : (s.scores.any fun x => (x.quay == e.quay && x.n == e.n) && (s.op? x.op).all fun o => o.finished) = true :=
      List.any_eq_true.mpr ⟨e, he, by simp [hall]⟩
    exact congrArg Host.Outcome.next (if_pos hany)
  · intro s1 ho hfin hwait hhalt hpend hscore hphase hreport
    refine congrArg Host.Outcome.next ?_
    simp only [ho, hfin, hwait, hhalt, hpend, hscore, Bool.true_eq_false, Bool.false_eq_true, or_self, if_false,
      if_pos hphase, hreport]
  · intro hraises hco
    rw [exec_completionRaise_of_raises hraises]
    simp only [State.raiseAt, if_pos hco]
  · intro q off hraises hco hat hopen
    rw [exec_completionRaise_of_raises hraises, raiseAt_vault hco hat hopen]

end Sys2Proof.Machine

namespace Sys2Proof.Machine
open Sys2Proof.Safety

/-! ### Mapped regions and seals (R141, R143, R144, R146) -/

/-- Nothing goes to another module for a line of this one. -/
theorem opSend_of_local {o : EngOp} {q c va : Nat} {x : Xlate} {bs : List Byte} {poison : Bool} {s : State}
    (h : Local x.pa s) : s.opSend o q c va x bs poison = .ok () s := by
  rcases paKind_of_local h with ⟨sl, off, hkind⟩ | ⟨die, r, off, hkind⟩ | hkind <;> simp only [State.opSend, hkind]

/-- A write-back at work on a region that it has taken, no line of it in hand: the next dirty line, or the end. -/
theorem writeBack_next {o : EngOp} {st : RegionSt} {after : State → Region → State} {r : Region} {s : State}
    (hregion : s.regionOf o true = some r) (hphase : o.phase ≠ 0) (hclaimed : o.claimed = none) (hline : o.lineAt = none) :
    s.writeBack o st after = ((s.dirtyLine r o.next).map fun l => s.writeBackLine o r l).getD
      ((after s r).endOp o.id o.report).wakePasses := by
  simp only [State.writeBack, hregion, if_neg hphase, hclaimed, hline, Option.or_none]
  cases s.dirtyLine r o.next <;> rfl

/-- A line that may be written is read at the bank, written, and its tokens go home. -/
theorem writeBackLine_written {o : EngOp} {r : Region} {l : VLine} {x : Xlate} {s s1 : State} (hstatus : o.status = 0)
    (hclaimed : o.claimed = none) (hx : s.opLine o r.quay r.ctx (r.vaOf (lineOff l.key)) = .ok x s1) (hlocal : Local x.pa s1) :
    s.writeBackLine o r l =
      let s2 := s1.chargeVault r.quay o.ctx 128
      ((s2.opWrite r.quay x (s2.vread r.quay (lineOff l.key) 128) l.poison).putBack
        (copyHolder r.quay) (x.pa / 128)).lineRead o r l.key none := by
  have hzero : ¬ o.status ≠ 0 := by simp [hstatus]
  simp only [State.writeBackLine, if_neg hzero, hx, hclaimed, Option.isSome_none, opSend_of_local hlocal,
    Bool.false_eq_true, if_false]

/-- A `vflush` that may take a step is a write-back. -/
theorem exec_vflushDone {op : Nat} {o : EngOp} {s : State} (h : OpActs op .vflush o s) :
    exec (.vflushDone op) s = .next (s.writeBack o .flushing fun s r =>
      if o.ended then s else s.modRegion r.key fun r => { r with st := .active }) := by
  obtain ⟨ho, hruns, hkind, -⟩ := h
  refine congrArg Host.Outcome.next ?_
  simp only [ho, hruns, hkind, BEq.rfl, Bool.and_self, if_true]

/-- A `vunmap` that may take a step is a write-back. -/
theorem exec_vunmapDone {op : Nat} {o : EngOp} {s : State} (h : OpActs op .vunmap o s) :
    exec (.vunmapDone op) s = .next (s.writeBack o .unmapping fun s r =>
      { s with regions := s.regions.filter fun x => x.key != r.key }) := by
  obtain ⟨ho, hruns, hkind, -⟩ := h
  refine congrArg Host.Outcome.next ?_
  simp only [ho, hruns, hkind, BEq.rfl, Bool.and_self, if_true]

/-- An operation that takes a step is awake, and no earlier store of its thread is still to come. -/
theorem awake_of_opRuns {o : EngOp} {s : State} (h : s.opRuns o = true) :
    s.opAwake o = true ∧ s.storesPending o = false := by
  simpa [State.opRuns] using h

/-- Settles O43: each clause is one branch of the fill, the write-back, the seal or the unseal. -/
theorem regionsFillAndFree : Obligations.RegionsFillAndFree := by
  unfold Obligations.RegionsFillAndFree
  intro op o r s
  refine ⟨?_, ?_, ?_, ?_, ?_, ?_, ?_⟩
  · intro q line f e bs md s1 off x hfill hregion hmapped hst hv htlb hread s2 s3
    have hgo : (!r.mapped || r.st == .unmapping || (s.vmeta line).v) = false := by simp [hmapped, hst, hv]
    have hregion' : s.regionAt q (lineOff line) = some r := hregion
    have htlb' : s.tlbHit q r.ctx (r.vaOf (lineOff line)) false = some e := htlb
    have hread' : ((s.touch e).payBy r.ctx).readLine (.fill q line) (copyHolder q) q r.ctx
      (e.xlate (r.vaOf (lineOff line))) 128 = .ok bs md s1 := hread
    refine congrArg Host.Outcome.next ?_
    simp only [hfill, hregion', hgo, Bool.false_eq_true, if_false, htlb', hread']
    rfl
  · intro hacts hregion hphase hclaimed hline hended hdirty
    rw [exec_vflushDone hacts, writeBack_next hregion hphase hclaimed hline, hdirty]
    simp only [Option.map_none, Option.getD_none, hended, Bool.false_eq_true, if_false]
  · intro hacts hregion hphase hclaimed hline hdirty
    rw [exec_vunmapDone hacts, writeBack_next hregion hphase hclaimed hline, hdirty]
    rfl
  · intro l x s1 hacts hregion hphase hclaimed hline hdirty hstatus hx hlocal s2
    rw [exec_vflushDone hacts, writeBack_next hregion hphase hclaimed hline, hdirty]
    exact congrArg Host.Outcome.next (writeBackLine_written hstatus hclaimed hx hlocal)
  · intro s1 ho hawake hkind hphase hadd
    refine congrArg Host.Outcome.next ?_
    simp only [ho, hawake, hkind, Bool.true_eq_false, ne_eq, not_true_eq_false, or_self, if_false, if_pos hphase, hadd]
  · intro hacts hregion hphase hscored
    obtain ⟨ho, hruns, hkind, -⟩ := hacts
    obtain ⟨hawake, hpend⟩ := awake_of_opRuns hruns
    refine congrArg Host.Outcome.next ?_
    simp only [ho, hawake, hkind, Bool.true_eq_false, ne_eq, not_true_eq_false, or_self, if_false, if_neg hphase, hpend,
      hscored, Bool.or_self, Bool.false_eq_true, hregion]
  · intro hacts hregion hphase hrefs
    obtain ⟨ho, hruns, hkind, -⟩ := hacts
    refine congrArg Host.Outcome.next ?_
    simp only [ho, hruns, hkind, Bool.true_eq_false, ne_eq, not_true_eq_false, or_self, if_false, if_neg hphase, hregion,
      if_pos hrefs]

end Sys2Proof.Machine

namespace Sys2Proof.Machine
open Sys2Proof.Safety

/-! ### Freezes and thaws (R90, R91, R94, R293) -/

/-- A `frz` that may take a step is at a page. -/
theorem exec_freezePage {op : Nat} {o : EngOp} {s : State} (h : OpActs op .frz o s) :
    exec (.freezePage op) s = .next (s.pageStep o fun s page => s.freezeAt page op o.phase) := by
  obtain ⟨ho, hruns, hkind, -⟩ := h
  refine congrArg Host.Outcome.next ?_
  simp only [ho, hruns, hkind, Bool.true_eq_false, ne_eq, not_true_eq_false, or_self, if_false]

/-- A `thaw` that may take a step is at a page. -/
theorem exec_thawPage {op : Nat} {o : EngOp} {s : State} (h : OpActs op .thaw o s) :
    exec (.thawPage op) s = .next (s.pageStep o fun s page => s.thawAt o.ctx page op o.phase) := by
  obtain ⟨ho, hruns, hkind, -⟩ := h
  refine congrArg Host.Outcome.next ?_
  simp only [ho, hruns, hkind, Bool.true_eq_false, ne_eq, not_true_eq_false, or_self, if_false]

/-- A page of this module, just translated, is handled at its home. -/
theorem pageStep_of_local {o : EngOp} {page : Nat} {s s1 : State} {home : State → Nat → PageSays} (hstatus : o.status = 0)
    (hclaimed : o.claimed = none) (hpage : s.frzPage o = .ok page s1) (hlocal : Local (page * 65536) s1) :
    s.pageStep o home = (home s1 page).settle o page := by
  have hzero : ¬ o.status ≠ 0 := by simp [hstatus]
  rcases paKind_of_local hlocal with ⟨sl, off, hkind⟩ | ⟨die, r, off, hkind⟩ | hkind <;>
    simp only [State.pageStep, if_neg hzero, hclaimed, hpage, hkind]

/-- A page in the operation's hand is handled again at its home. -/
theorem pageStep_of_claimed {o : EngOp} {page : Nat} {s : State} {home : State → Nat → PageSays} (hstatus : o.status = 0)
    (hclaimed : o.claimed = some page) : s.pageStep o home = (home s page).settle o page := by
  have hzero : ¬ o.status ≠ 0 := by simp [hstatus]
  simp only [State.pageStep, if_neg hzero, hclaimed]

/-- A normal page starts to freeze for the operation whose turn it is. -/
theorem freezeAt_normal {page id : Nat} {s s2 : State} (hturn : s.pageTurn id page = (true, s2))
    (hst : (s.frzOf page).st = .normal) :
    s.freezeAt page id 0 = .at 1 (s2.setFrz { s.frzOf page with st := .freezing }) := by
  simp only [State.freezeAt, hturn, hst, Nat.zero_ne_one, Bool.true_eq_false, if_false]

/-- A frozen page counts up. -/
theorem freezeAt_frozen {page id : Nat} {s s2 : State} (hturn : s.pageTurn id page = (true, s2))
    (hst : (s.frzOf page).st = .frozen) (hcount : (s.frzOf page).count ≠ 255) :
    s.freezeAt page id 0 = .done (s2.setFrz { s.frzOf page with count := (s.frzOf page).count + 1 }) := by
  simp only [State.freezeAt, hturn, hst, Nat.zero_ne_one, Bool.true_eq_false, if_false, if_neg hcount]

/-- The last freeze of a page starts to thaw. -/
theorem thawAt_last {c page id : Nat} {s s2 : State} (hturn : s.pageTurn id page = (true, s2))
    (hcount : (s.frzOf page).count = 1) :
    s.thawAt c page id 0 = .at 2 (s2.setFrz { s.frzOf page with count := 0, st := .thawing }) := by
  have hone : ¬ (1 : BitVec 8) = 0 := by decide
  simp only [State.thawAt, hturn, hcount, if_neg hone, Nat.reduceEqDiff, Nat.zero_ne_one, Bool.true_eq_false, if_false,
    if_true]

/-- A page frozen more than once counts down. -/
theorem thawAt_frozen {c page id : Nat} {s s2 : State} (hturn : s.pageTurn id page = (true, s2))
    (hcount : 2 ≤ (s.frzOf page).count.toNat) :
    s.thawAt c page id 0 = .done (s2.setFrz { s.frzOf page with count := (s.frzOf page).count - 1 }) := by
  have hzero : (s.frzOf page).count ≠ 0 := by bv_omega
  have hone : (s.frzOf page).count ≠ 1 := by bv_omega
  simp only [State.thawAt, hturn, if_neg hzero, if_neg hone, Nat.reduceEqDiff, Nat.zero_ne_one, Bool.true_eq_false,
    if_false]

/-- No line of a page is away from its home, and no atomic of another module holds one: all of the page is there. -/
theorem wantRange_of_home {page : Nat} {s : State} (hdir : ∀ e ∈ s.dir, e.line / 512 ≠ page)
    (hhold : ∀ h ∈ s.remoteHolds, h.line / 512 ≠ page) : s.wantRange (page * 512) 512 = (true, s) := by
  have hout : ∀ l : Nat, l / 512 ≠ page → (decide (page * 512 ≤ l) && decide (l < page * 512 + 512)) = false := by
    intro l hl
    rw [← Bool.not_eq_true, Bool.and_eq_true, decide_eq_true_iff, decide_eq_true_iff]
    omega
  have hnone : (s.dir.filter fun e => decide (page * 512 ≤ e.line) && decide (e.line < page * 512 + 512)) = [] :=
    List.filter_eq_nil_iff.mpr fun e he => by simpa using hout e.line (hdir e he)
  have hheld : (s.remoteHolds.any fun h => decide (page * 512 ≤ h.line) && decide (h.line < page * 512 + 512)) = false :=
    List.any_eq_false.mpr fun h hh => by simpa using hout h.line (hhold h hh)
  simp only [State.wantRange, hnone, hheld, List.foldl_nil, Bool.not_false]

/-- Settles O44: each clause is what a page meets at its home. -/
theorem pagesFreezeAndThaw : Obligations.PagesFreezeAndThaw := by
  unfold Obligations.PagesFreezeAndThaw
  intro op page o s s1 s2 f c turn
  refine ⟨?_, ?_, ?_, ?_, ?_, ?_⟩
  · rintro hacts ⟨hpage, hlocal, hturn, hstatus, hphase, hclaimed⟩ hst
    rw [exec_freezePage hacts, pageStep_of_local hstatus hclaimed hpage hlocal, hphase, freezeAt_normal hturn hst]
    rfl
  · rintro hacts ⟨hpage, hlocal, hturn, hstatus, hphase, hclaimed⟩ hst hcount
    rw [exec_freezePage hacts, pageStep_of_local hstatus hclaimed hpage hlocal, hphase, freezeAt_frozen hturn hst hcount]
    rfl
  · intro hst hmoving hdir hhold
    have hgo : ¬ ((s.frzOf page).st ≠ .freezing ∨ s.regionMoving (page * 65536) = true) := by simp [hst, hmoving]
    have hall : (s.payBy c).wantRange (page * 512) 512 = (true, s.payBy c) := wantRange_of_home hdir hhold
    refine congrArg Host.Outcome.next ?_
    simp only [if_neg hgo]
    exact (congrArg (fun r : Bool × State =>
      if r.1 then (r.2.setFrz { s.frzOf page with st := .frozen, count := 1 }).unpark else r.2) hall).trans rfl
  · rintro hacts ⟨hpage, hlocal, hturn, hstatus, hphase, hclaimed⟩ hcount
    rw [exec_thawPage hacts, pageStep_of_local hstatus hclaimed hpage hlocal, hphase, thawAt_last hturn hcount]
    rfl
  · rintro hacts ⟨hpage, hlocal, hturn, hstatus, hphase, hclaimed⟩ hcount
    rw [exec_thawPage hacts, pageStep_of_local hstatus hclaimed hpage hlocal, hphase, thawAt_frozen hturn hcount]
    rfl
  · intro hacts hstatus hclaimed hphase hready
    have hthaw : s.thawAt o.ctx page op 2 = .at 1 (s.startSweep o.ctx page) := by
      simp only [State.thawAt, hready, if_true]
    rw [exec_thawPage hacts, pageStep_of_claimed hstatus hclaimed, hphase, hthaw]
    rfl

end Sys2Proof.Machine

namespace Sys2Proof.Machine
open Sys2Proof.Safety

/-! ### Nodes and units as they are written -/

/-- The unit that is looked up by a pair is of that pair. -/
theorem unit_pair (p : Nat) (s : State) : (s.unit p).pair = p := by
  unfold State.unit tget
  cases h : s.units.find? (fun u => u.pair == p) with
  | none => rfl
  | some u => exact eq_of_beq (List.find?_some (p := fun u : MatrixUnit => u.pair == p) h)

/-- The node that is looked up by a quay and a number is of them. -/
theorem node_key (q n : Nat) (s : State) : (s.node q n).quay = q ∧ (s.node q n).n = n := by
  unfold State.node tget
  cases h : s.nodes.find? (fun x => x.quay == q && x.n == n) with
  | none => exact ⟨rfl, rfl⟩
  | some x => simpa using List.find?_some h

/-- A unit that was set is read back. -/
theorem unit_setUnit {p : Nat} {u : MatrixUnit} (h : u.pair = p) (s : State) : (s.setUnit u).unit p = u := by
  subst h
  exact tget_tset (fun x : MatrixUnit => x.pair == u.pair) _ u (by simp) s.units

/-- A node that was set is read back. -/
theorem node_setNode {q n : Nat} {x : Node} (hq : x.quay = q) (hn : x.n = n) (s : State) : (s.setNode x).node q n = x := by
  subst hq hn
  exact tget_tset (fun y : Node => y.quay == x.quay && y.n == x.n) _ x (by simp) s.nodes

/-- A node of another quay stays. -/
theorem node_setNode_other {q n : Nat} {x : Node} (hq : x.quay ≠ q) (s : State) : (s.setNode x).node q n = s.node q n := by
  refine tget_tset_other (fun y : Node => y.quay == x.quay && y.n == x.n) (fun y : Node => y.quay == q && y.n == n) _ x
    (by simp [hq]) ?_ s.nodes
  intro y hy
  have hquay : y.quay = x.quay := by simpa using (Bool.and_eq_true_iff.mp hy).1
  simp [hquay, hq]

/-- The end of an operation leaves nodes and units as they are. -/
theorem joinOp_nodes_units (o : EngOp) (st : Nat) (failed : Bool) (s : State) :
    (s.joinOp o st failed).nodes = s.nodes ∧ (s.joinOp o st failed).units = s.units := by
  unfold State.joinOp
  cases o.group <;> cases o.parent <;> exact ⟨rfl, rfl⟩

/-! ### The matrix unit of a pair (R244, R250, R251, R255, R256) -/

/-- What `mma.clr` leaves as it begins: both nodes cleared, the unit at its end. -/
def clearedPair (o : EngOp) (u : MatrixUnit) (s : State) : State :=
  ((s.setNode (s.node o.quay o.nodeNo).clear).setNode (s.node (o.quay + 1) o.nodeNo).clear).setUnit
    { u with busy := true, endDue := true }

/-- The nodes of both quays are those cleared. -/
theorem clearedPair_node {o : EngOp} {u : MatrixUnit} {s : State} {q : Nat} (hq : q = o.quay ∨ q = o.quay + 1) :
    (clearedPair o u s).node q o.nodeNo = (s.node q o.nodeNo).clear := by
  have hkey : ∀ k, ((s.node k o.nodeNo).clear).quay = k ∧ ((s.node k o.nodeNo).clear).n = o.nodeNo :=
    fun k => node_key k o.nodeNo s
  rcases hq with rfl | rfl
  · have hother : ((s.node (o.quay + 1) o.nodeNo).clear).quay ≠ o.quay := by
      rw [(hkey (o.quay + 1)).1]
      omega
    exact (node_setNode_other hother _).trans (node_setNode (hkey o.quay).1 (hkey o.quay).2 s)
  · exact node_setNode (hkey (o.quay + 1)).1 (hkey (o.quay + 1)).2 _

/-- `mma.cfg` installs its words in the node of both quays. -/
theorem installNode_node {o : EngOp} {s : State} {q : Nat} (hq : q = o.quay ∨ q = o.quay + 1) :
    (s.installNode o).node q o.nodeNo = { quay := q, n := o.nodeNo, cfg := o.a, tgt := o.co } := by
  rcases hq with rfl | rfl
  · have hother : o.quay + 1 ≠ o.quay := by omega
    exact (node_setNode_other hother _).trans (node_setNode rfl rfl s)
  · exact node_setNode rfl rfl _

/-- Settles O45: each clause is one branch of the unit's step. -/
theorem matrixUnitsStep : Obligations.MatrixUnitsStep := by
  unfold Obligations.MatrixUnitsStep
  intro p o s u begins
  refine ⟨?_, ?_, ?_, ?_, ?_, ?_, ?_⟩
  · rintro t s' ⟨hbusy, hhead, hruns, hhalt, hstatus⟩ hkind hstart
    change (s.unit p).busy = false at hbusy
    change s.headOp (s.unit p) = some o at hhead
    change s.mmaStart (s.unit p) o = .ok t s' at hstart
    refine congrArg Host.Outcome.next ?_
    simp only [hbusy, hhead, hruns, hhalt, if_neg (Nat.not_lt.mpr hstatus), hkind, hstart, Bool.true_eq_false,
      Bool.false_eq_true, or_self, if_false]
  · rintro ⟨hbusy, hhead, hruns, hhalt, hstatus⟩ hkind
    change (s.unit p).busy = false at hbusy
    change s.headOp (s.unit p) = some o at hhead
    refine congrArg Host.Outcome.next ?_
    simp only [hbusy, hhead, hruns, hhalt, if_neg (Nat.not_lt.mpr hstatus), hkind, Bool.true_eq_false,
      Bool.false_eq_true, or_self, if_false]
    rfl
  · rintro ⟨hbusy, hhead, hruns, hhalt, hstatus⟩ hkind -
    change (s.unit p).busy = false at hbusy
    change s.headOp (s.unit p) = some o at hhead
    have hstep : exec (.matrixQueueHead p) s = .next (clearedPair o u s) := by
      refine congrArg Host.Outcome.next ?_
      simp only [hbusy, hhead, hruns, hhalt, if_neg (Nat.not_lt.mpr hstatus), hkind, Bool.true_eq_false,
        Bool.false_eq_true, or_self, if_false]
      rfl
    have hunit : (clearedPair o u s).unit p = { u with busy := true, endDue := true } :=
      unit_setUnit (u := { u with busy := true, endDue := true }) (unit_pair p s) _
    refine ⟨_, hstep, congrArg MatrixUnit.busy hunit, congrArg MatrixUnit.endDue hunit, ?_, rfl⟩
    intro q hq
    rw [clearedPair_node hq]
    exact ⟨rfl, rfl, rfl⟩
  · intro u' s' hrunning htile hend hhead hwait hhalt hstatus hgroups
    change (s.unit p).running = true at hrunning
    change (s.unit p).tileDue = none at htile
    change (s.unit p).endDue = false at hend
    change s.headOp (s.unit p) = some o at hhead
    change s.runGroups o (s.unit p) _ 16 = .ok u' s' at hgroups
    refine congrArg Host.Outcome.next ?_
    simp only [hrunning, htile, hend, hhead, hwait, hhalt, if_neg (Nat.not_lt.mpr hstatus), hgroups, Option.isSome_none,
      Bool.true_eq_false, Bool.false_eq_true, Bool.or_self, or_self, if_false]
  · intro n reason s1 t s2 htile hhead hwait hready hrelease
    change (s.unit p).tileDue = some (n, reason) at htile
    change s.headOp (s.unit p) = some o at hhead
    refine congrArg Host.Outcome.next ?_
    simp only [htile, hhead, hwait, hready, hrelease, Bool.false_eq_true, if_false]
    rfl
  · intro hbusy hend htile hhead hkind _ hstatus
    change (s.unit p).busy = true at hbusy
    change (s.unit p).endDue = true at hend
    change (s.unit p).tileDue = none at htile
    change s.headOp (s.unit p) = some o at hhead
    change (s.unit p).status = 0 at hstatus
    have hstep : exec (.endOfOperation p) s =
        .next (((s.installNode o).setUnit { pair := p, queue := u.queue.drop 1 }).joinOp o 0 false) := by
      refine congrArg Host.Outcome.next ?_
      simp only [hbusy, hend, htile, hhead, hkind, hstatus, Option.isSome_none, Bool.true_eq_false, Bool.false_eq_true,
        or_self, if_false, if_true]
      rfl
    obtain ⟨hnodes, hunits⟩ := joinOp_nodes_units o 0 false ((s.installNode o).setUnit { pair := p, queue := u.queue.drop 1 })
    have hunit : (((s.installNode o).setUnit { pair := p, queue := u.queue.drop 1 }).joinOp o 0 false).unit p =
        { pair := p, queue := u.queue.drop 1 } := by
      unfold State.unit
      rw [hunits]
      exact unit_setUnit (u := { pair := p, queue := u.queue.drop 1 }) rfl (s.installNode o)
    have hnode : ∀ q, q = o.quay ∨ q = o.quay + 1 →
        (((s.installNode o).setUnit { pair := p, queue := u.queue.drop 1 }).joinOp o 0 false).node q o.nodeNo =
          { quay := q, n := o.nodeNo, cfg := o.a, tgt := o.co } := by
      intro q hq
      unfold State.node
      rw [hnodes]
      exact installNode_node hq
    refine ⟨_, hstep, congrArg MatrixUnit.queue hunit, congrArg MatrixUnit.busy hunit, ?_⟩
    intro q hq
    rw [hnode q hq]
    exact ⟨rfl, rfl, rfl⟩
  · intro hbusy hend htile hhead hkind hco
    change (s.unit p).busy = true at hbusy
    change (s.unit p).endDue = true at hend
    change (s.unit p).tileDue = none at htile
    change s.headOp (s.unit p) = some o at hhead
    have hoff : (if o.parent.isSome then 0 else mmaOpco (s.unit p).desc) = 0 := by
      rcases hco with hparent | hzero
      · exact if_pos hparent
      · exact (congrArg (fun k => if o.parent.isSome then 0 else k) hzero).trans (ite_self 0)
    refine congrArg Host.Outcome.next ?_
    simp only [hbusy, hend, htile, hhead, hkind, hoff, State.raiseOwn, Option.isSome_none, Bool.true_eq_false,
      Bool.false_eq_true, or_self, if_false, if_true, Bool.not_true]
    rfl

end Sys2Proof.Machine

namespace Sys2Proof.Machine
open Sys2Proof.Safety

/-! ### Bits of CTL (R63, R64) -/

/-- EN is bit 63. -/
theorem getLsbD_enMask (i : Nat) : (1#64 <<< 63).getLsbD i = decide (i = 63) := by
  rw [show (1#64 <<< 63) = BitVec.twoPow 64 63 from rfl, BitVec.getLsbD_twoPow]
  by_cases hi : i = 63
  · simp [hi]
  · simp [hi, Ne.symm hi]

/-- Bits below 63 stay where EN is asked for. -/
theorem extractLsb'_setEn (v : Word) {a n : Nat} (h : a + n ≤ 63) : (v ||| 1#64 <<< 63).extractLsb' a n = v.extractLsb' a n := by
  ext i hi
  have hlow : ¬ a + i = 63 := by omega
  simp only [BitVec.getElem_extractLsb', BitVec.getLsbD_or, getLsbD_enMask, hlow, decide_false, Bool.or_false]

/-- Bits below 63 stay where EN is withdrawn. -/
theorem extractLsb'_clearEn (v : Word) {a n : Nat} (h : a + n ≤ 63) :
    (v &&& ~~~(1#64 <<< 63)).extractLsb' a n = v.extractLsb' a n := by
  ext i hi
  have hlow : ¬ a + i = 63 := by omega
  have hin : a + i < 64 := by omega
  simp only [BitVec.getElem_extractLsb', BitVec.getLsbD_and, BitVec.getLsbD_not, getLsbD_enMask, hlow, hin, decide_false,
    decide_true, Bool.not_false, Bool.and_true]

/-- CTL as a write leaves it: EN, FMT and GS are those written, ERR is 0. -/
def ctlWritten (c v : Word) : Word := (c &&& ~~~ctlMask &&& ~~~(0x3F#64 <<< 56)) ||| (v &&& ctlMask)

/-- CTL while an enable or disable is under way: BUSY is set, EN keeps its value. -/
def ctlHeld (c v : Word) : Word := (ctlWritten c v &&& ~~~(1#64 <<< 63)) ||| (1#64 <<< 62) ||| (c &&& (1#64 <<< 63))

/-- FMT and GS are those written. -/
theorem ctlWritten_fields (c v : Word) : (ctlWritten c v).extractLsb' 4 8 = v.extractLsb' 4 8 := by
  ext i hi
  simp only [ctlWritten, ctlMask, BitVec.getElem_extractLsb', BitVec.getLsbD_or, BitVec.getLsbD_and, BitVec.getLsbD_not]
  interval_cases i <;> simp

/-- BUSY is set and EN keeps its value. -/
theorem ctlHeld_busy_en (c v : Word) : (ctlHeld c v).getLsbD 62 = true ∧ (ctlHeld c v).getLsbD 63 = c.getLsbD 63 := by
  simp [ctlHeld]

/-- CTL once an enable or disable is over. -/
def ctlSettled (c : Word) (on : Bool) : Word :=
  if on then c &&& ~~~(3#64 <<< 62) ||| (1#64 <<< 63) else c &&& ~~~(3#64 <<< 62)

/-- BUSY is cleared and EN takes its new value. -/
theorem ctlSettled_busy_en (c : Word) (on : Bool) : (ctlSettled c on).getLsbD 62 = false ∧ (ctlSettled c on).getLsbD 63 = on := by
  cases on <;> simp [ctlSettled]

/-! ### Format regions as they are written -/

/-- The region that is looked up by a die and a number is of them. -/
theorem region_key (die r : Nat) (s : State) : (s.region die r).die = die ∧ (s.region die r).r = r := by
  unfold State.region tget
  cases h : s.fmt.find? (fun x => x.die == die && x.r == r) with
  | none => exact ⟨rfl, rfl⟩
  | some x => simpa using List.find?_some h

/-- A region that was set is read back. -/
theorem region_setRegion {die r : Nat} {g : FmtRegion} (hdie : g.die = die) (hr : g.r = r) (s : State) :
    (s.setRegion g).region die r = g := by
  subst hdie hr
  exact tget_tset (fun x : FmtRegion => x.die == g.die && x.r == g.r) _ g (by simp) s.fmt

/-- A write of CTL that names the formats it may name, on a region at rest. -/
theorem ctlWrite_of_fields {g : FmtRegion} {v : Word} {s : State} (hbusy : g.busy = false) (hres : v.extractLsb' 12 44 = 0)
    (hlow : v.extractLsb' 0 4 = 0) (hsame : g.en = true → (v.extractLsb' 8 4).toNat = g.fmtc ∧ (v.extractLsb' 4 4).toNat = g.gs)
    (hfmt : (v.extractLsb' 8 4).toNat ≤ 6) (hgs : (v.extractLsb' 4 4).toNat ≤ 8) :
    s.ctlWrite g v =
      if v.getLsbD 63 = true ∧ g.en = false then
        match s.enableErr { g with ctl := ctlWritten g.ctl v } with
        | some c => s.setRegion (g.withErr c)
        | none => s.setRegion { g with ctl := ctlHeld g.ctl v, turningOn := true }
      else if v.getLsbD 63 = false ∧ g.en = true then
        if s.viewFrozen g then s.setRegion (g.withErr 9) else s.setRegion { g with ctl := ctlHeld g.ctl v, turningOn := false }
      else s.setRegion { g with ctl := ctlWritten g.ctl v } := by
  have hreserved : ¬ (v.extractLsb' 12 44 ≠ 0 ∨ v.extractLsb' 0 4 ≠ 0) := by simp [hres, hlow]
  have hkept : ¬ (g.en = true ∧ ((v.extractLsb' 8 4).toNat ≠ g.fmtc ∨ (v.extractLsb' 4 4).toNat ≠ g.gs)) := by
    rintro ⟨hen, hdiff⟩
    obtain ⟨hf, hg⟩ := hsame hen
    exact hdiff.elim (· hf) (· hg)
  simp only [State.ctlWrite, hbusy, Bool.false_eq_true, if_false, if_neg hreserved, if_neg hkept,
    if_neg (Nat.not_lt.mpr hfmt), if_neg (Nat.not_lt.mpr hgs)]
  rfl

/-- With every line at home a range is there. -/
theorem wantRange_of_empty {lo n : Nat} {s : State} (hdir : s.dir = []) (hhold : s.remoteHolds = []) :
    s.wantRange lo n = (true, s) := by
  simp only [State.wantRange, hdir, hhold, List.filter_nil, List.foldl_nil, List.any_nil, Bool.not_false]

/-- An enable or disable whose lines are home. -/
theorem exec_fmtRegionBusyClear {die r : Nat} {s : State} (hbusy : (s.region die r).busy = true) (hdir : s.dir = [])
    (hhold : s.remoteHolds = []) :
    exec (.fmtRegionBusyClear die r) s = .next
      ((({ s with paying := 0, frz := if (s.region die r).turningOn then s.frz else (s.dropViewFrz (s.region die r)).frz } :
        State).setRegion
        { s.region die r with ctl := ctlSettled (s.region die r).ctl (s.region die r).turningOn }).unpark) := by
  have hwant : ∀ lo n, (s.payBy 0).wantRange lo n = (true, s.payBy 0) := fun lo n => wantRange_of_empty hdir hhold
  refine congrArg Host.Outcome.next ?_
  simp only [hbusy, Bool.true_eq_false, if_false, hwant, Bool.and_self, ite_self, if_true]
  cases (s.region die r).turningOn <;> rfl

/-! ### Memory under another module number (R56, R449) -/

/-- An address below every listed one is not listed. -/
theorem Mem.not_listed_of_above : ∀ (m : Mem) {b k : Nat}, Mem.above b m = true → k < b → (m.any fun c => c.1 == k) = false
  | [], _, _, _, _ => rfl
  | (k0, v) :: t, b, k, h, hlt => by
    simp only [Mem.above, Bool.and_eq_true, decide_eq_true_eq] at h
    obtain ⟨⟨hb, -⟩, ht⟩ := h
    rw [List.any_cons, Mem.not_listed_of_above t ht (by omega), Bool.or_false, beq_eq_false_iff_ne]
    omega

/-- An address that is not listed reads 0. -/
theorem Mem.read_of_not_listed : ∀ (m : Mem) {k : Nat}, (m.any fun c => c.1 == k) = false → Mem.read m k = 0
  | [], _, _ => rfl
  | (k0, v) :: t, k, h => by
    rw [List.any_cons, Bool.or_eq_false_iff, beq_eq_false_iff_ne] at h
    obtain ⟨hne, ht⟩ := h
    rw [Mem.read, if_neg hne, Mem.read_of_not_listed t ht]

/-- Cells written one by one at new addresses: an address that only its own cell goes to reads as that cell. -/
theorem Mem.read_moved {f : Nat → Nat} {k : Nat} : ∀ (l m : Mem) {b : Nat}, Mem.above b l = true → m.wf = true →
    (∀ c ∈ l, f c.1 = f k → c.1 = k) →
    Mem.read (l.foldl (fun m c => Mem.write m (f c.1) c.2) m) (f k) =
      if l.any (fun c => c.1 == k) then Mem.read l k else Mem.read m (f k)
  | [], _, _, _, _, _ => rfl
  | (k0, v) :: t, m, b, hl, hm, hinj => by
    simp only [Mem.above, Bool.and_eq_true, decide_eq_true_eq] at hl
    obtain ⟨-, ht⟩ := hl
    have hrest := Mem.read_moved t (Mem.write m (f k0) v) ht (Mem.wf_write m (f k0) v hm)
      fun c hc => hinj c (List.mem_cons_of_mem _ hc)
    rw [List.foldl_cons, hrest, Mem.read_write m (f k0) (f k) v hm, List.any_cons, Mem.read]
    by_cases hk : k0 = k
    · subst hk
      simp [Mem.not_listed_of_above t ht (Nat.lt_succ_self k0)]
    · have hf : ¬ f k0 = f k := fun h => hk (hinj (k0, v) List.mem_cons_self h)
      simp [hk, hf]

/-- A memory whose every cell is of the module reads under the new number as it read under the old. -/
theorem moveMod_read {new a : Nat} {s : State} (hwf : s.mem.wf = true)
    (hown : ∀ c ∈ s.mem, c.1 / 2 ^ 44 = s.domain.mod.toNat) (ha : a < 2 ^ 44) :
    Mem.read (s.moveMod new).mem (new * 2 ^ 44 + a) = Mem.read s.mem (s.domain.mod.toNat * 2 ^ 44 + a) := by
  have hat : ∀ k, k / 2 ^ 44 = s.domain.mod.toNat → atMod s.domain.mod.toNat new 0 k = k % 2 ^ 44 + new * 2 ^ 44 :=
    fun k hk => if_pos hk
  have hdiv : (s.domain.mod.toNat * 2 ^ 44 + a) / 2 ^ 44 = s.domain.mod.toNat := by omega
  have hmoved : atMod s.domain.mod.toNat new 0 (s.domain.mod.toNat * 2 ^ 44 + a) = new * 2 ^ 44 + a := by
    rw [hat _ hdiv]
    omega
  have hread := Mem.read_moved (f := atMod s.domain.mod.toNat new 0) (k := s.domain.mod.toNat * 2 ^ 44 + a) s.mem [] hwf rfl
    fun c hc heq => by
      rw [hmoved, hat _ (hown c hc)] at heq
      have := hown c hc
      omega
  rw [hmoved] at hread
  refine hread.trans ?_
  split
  · rfl
  · next hnone => exact (Mem.read_of_not_listed s.mem (Bool.eq_false_iff.mpr hnone)).symm

/-- Settles O46: what each write leaves in the region, the register or the memory that it names. -/
theorem controlWindowWritesComplete : Obligations.ControlWindowWritesComplete := by
  unfold Obligations.ControlWindowWritesComplete
  intro die r part off v s g
  obtain ⟨hdie, hr⟩ := region_key die r s
  refine ⟨?_, ?_, ?_, ?_, ?_, ?_⟩
  · intro hbusy hres hlow hfmt hgs hen henable
    have hoff : ¬ g.en = true := by simp [hen]
    have henable' : s.enableErr { g with ctl := ctlWritten g.ctl (v ||| 1#64 <<< 63) } = none :=
      henable _ ((ctlWritten_fields _ _).trans (extractLsb'_setEn v (by decide)))
    have hwrite : s.ctlWrite g (v ||| 1#64 <<< 63) =
        s.setRegion { g with ctl := ctlHeld g.ctl (v ||| 1#64 <<< 63), turningOn := true } := by
      rw [ctlWrite_of_fields hbusy (by rw [extractLsb'_setEn v (by decide), hres]) (by rw [extractLsb'_setEn v (by decide), hlow])
        (absurd · hoff) (by rwa [extractLsb'_setEn v (by decide)]) (by rwa [extractLsb'_setEn v (by decide)]),
        if_pos ⟨by simp, hen⟩, henable']
    obtain ⟨hheld, hkept⟩ := ctlHeld_busy_en g.ctl (v ||| 1#64 <<< 63)
    refine ⟨_, congrArg Host.Outcome.next hwrite, ?_⟩
    rw [region_setRegion (g := { g with ctl := _, turningOn := true }) hdie hr]
    exact ⟨hheld, hkept.trans hen, rfl, rfl⟩
  · intro hbusy hres hlow hen hfmt hgs hfmtc hgsc hfrozen
    have hsame : ((v &&& ~~~(1#64 <<< 63)).extractLsb' 8 4).toNat = g.fmtc ∧
        ((v &&& ~~~(1#64 <<< 63)).extractLsb' 4 4).toNat = g.gs := by
      rw [extractLsb'_clearEn v (by decide), extractLsb'_clearEn v (by decide)]
      exact ⟨hfmt, hgs⟩
    have hwrite : s.ctlWrite g (v &&& ~~~(1#64 <<< 63)) =
        s.setRegion { g with ctl := ctlHeld g.ctl (v &&& ~~~(1#64 <<< 63)), turningOn := false } := by
      rw [ctlWrite_of_fields hbusy (by rw [extractLsb'_clearEn v (by decide), hres])
        (by rw [extractLsb'_clearEn v (by decide), hlow]) (fun _ => hsame) (by rw [hsame.1]; exact hfmtc)
        (by rw [hsame.2]; exact hgsc), if_neg (by simp), if_pos ⟨by simp, hen⟩, hfrozen, if_neg Bool.false_ne_true]
    obtain ⟨hheld, hkept⟩ := ctlHeld_busy_en g.ctl (v &&& ~~~(1#64 <<< 63))
    refine ⟨_, congrArg Host.Outcome.next hwrite, ?_⟩
    rw [region_setRegion (g := { g with ctl := _, turningOn := false }) hdie hr]
    exact ⟨hheld, hkept.trans hen, rfl, rfl⟩
  · intro hbusy hdir hhold
    obtain ⟨hclear, hen⟩ := ctlSettled_busy_en g.ctl g.turningOn
    refine ⟨_, exec_fmtRegionBusyClear hbusy hdir hhold, ?_⟩
    have hregion : ∀ u : State, (u.setRegion { g with ctl := ctlSettled g.ctl g.turningOn }).unpark.region die r =
        { g with ctl := ctlSettled g.ctl g.turningOn } :=
      fun u => region_setRegion (g := { g with ctl := ctlSettled g.ctl g.turningOn }) hdie hr u
    exact ⟨(congrArg FmtRegion.busy (hregion _)).trans hclear, (congrArg FmtRegion.en (hregion _)).trans hen, fun hon => if_pos hon, rfl⟩
  · intro hres hpreset hpart
    have hgood : ¬ (v.extractLsb' 24 40 ≠ 0 ∨ (v.extractLsb' 20 4).toNat > 3 ∨ part ≥ 32) := by
      rintro (h | h | h)
      · exact h hres
      · exact absurd hpreset (Nat.not_le.mpr h)
      · exact absurd hpart (Nat.not_lt.mpr h)
    exact congrArg Host.Outcome.next (if_neg hgood)
  · intro new u
    refine ⟨?_, ?_, ?_⟩
    · rfl
    · intro hen
      by_cases hsame : new = s.domain.mod.toNat
      · have hu : u = s := if_pos (.inr hsame)
        rw [hu]
        exact BitVec.eq_of_toNat_eq hsame.symm
      · have hu : u = s.moveMod new := if_neg (by simp [hen, hsame])
        rw [hu]
        exact BitVec.ofNat_toNat _ _
    · intro hen hwf hown a ha
      by_cases hsame : new = s.domain.mod.toNat
      · have hu : u = s := if_pos (.inr hsame)
        rw [hu, hsame]
      · have hu : u = s.moveMod new := if_neg (by simp [hen, hsame])
        rw [hu, moveMod_read hwf hown ha]
  · intro hoff
    refine congrArg Host.Outcome.next ?_
    unfold State.controlWrite
    rw [if_neg (by omega), if_neg (by omega), if_neg (by omega), if_neg (by omega), if_neg (by omega)]

end Sys2Proof.Machine

namespace Sys2Proof.Machine
open Sys2Proof.Safety

/-! ### A command that has its turn (R350, R351) -/

/-- A command that is due is run. -/
theorem runCommand_of_due {c q op sub : Nat} {x : Queue} {m : BitVec 1024} {s : State}
    (h : CommandDue c q op sub x m s) (f : Queue → BitVec 1024 → State → State) : s.runCommand c q op sub f = f x m s := by
  obtain ⟨hsettled, rfl, hcmd, hturn, hop, hsub, hwait, hrefused, hcheck⟩ := h
  simp only [State.runCommand, hsettled, hcmd, hturn, hop, hsub, hwait, hrefused, hcheck, Option.isSome_none, ne_eq,
    not_true_eq_false, Bool.true_eq_false, Bool.false_eq_true, or_self, if_false]

/-- SUB of a command that is due. -/
theorem cmdSub_of_due {c q op sub : Nat} {x : Queue} {m : BitVec 1024} {s : State} (h : CommandDue c q op sub x m s) :
    cmdBits m 13 3 = sub := by
  obtain ⟨-, -, -, -, -, hsub, -⟩ := h
  exact hsub

/-- SUB as it is read off the command in hand. -/
theorem sub_of_due {c q op sub : Nat} {x : Queue} {m : BitVec 1024} {s : State} (h : CommandDue c q op sub x m s) :
    ((s.queue c q).cmd.map fun m => cmdBits m 13 3).getD 0 = sub := by
  have hsub := cmdSub_of_due h
  obtain ⟨-, rfl, hcmd, -⟩ := h
  rw [hcmd]
  exact hsub

/-! ### LAUNCH (R350, R353, R355) -/

/-- A launch as it starts from its record (R155). -/
def begun (c prio die : Nat) (queue : Option (Nat × Nat)) (r : BitVec 1024) (s : State) : Launch :=
  { id := s.nextId, ctx := c, prio := prio, die := die, queue := queue, record := r, check := s.checkRecord c r
    total := if s.checkRecord c r = 0 then recGroups r else 0, bindRead := s.checkRecord c r != 0 || recBind r == 0 }

/-- A launch starts with the next number. -/
theorem startLaunch_eq (c prio die : Nat) (queue : Option (Nat × Nat)) (r : BitVec 1024) (s : State) :
    s.startLaunch c prio die queue r =
      (s.nextId, { s with nextId := s.nextId + 1, launches := s.launches ++ [begun c prio die queue r s] }) := rfl

/-- A launch that has just started is found by its number. -/
theorem launch?_begun {c prio die : Nat} {queue : Option (Nat × Nat)} {r : BitVec 1024} {s t : State}
    (hnew : ∀ l ∈ s.launches, l.id ≠ s.nextId) (ht : t.launches = s.launches ++ [begun c prio die queue r s]) :
    t.launch? s.nextId = some (begun c prio die queue r s) := by
  have hnone : s.launches.find? (fun l => l.id == s.nextId) = none :=
    List.find?_eq_none.mpr fun l hl => by simpa using hnew l hl
  unfold State.launch?
  rw [ht, List.find?_append, hnone, Option.none_or]
  exact List.find?_cons_of_pos (beq_self_eq_true s.nextId)

/-- A launch whose record holds up and names no binding table has nothing more to read. -/
theorem begun_ready {c prio die : Nat} {queue : Option (Nat × Nat)} {r : BitVec 1024} {s t : State}
    (hcheck : s.checkRecord c r = 0) (hbind : recBind r = 0) :
    (begun c prio die queue r s).check = 0 ∧ t.bindTurn (begun c prio die queue r s) = t := by
  refine ⟨hcheck, if_pos ?_⟩
  simp [begun, hbind]

/-- A LAUNCH that is due, its record read and found good: the launch starts, and the queue has it running. -/
theorem exec_cmdLaunch_of_read {c q : Nat} {x : Queue} {m : BitVec 1024} {bs : List Byte} {s s1 : State}
    (hdue : CommandDue c q 1 0 x m s) (hread : s.procRead (.queue c q) x.die c (cmdWord m 8).toNat 128 = .ok bs s1)
    (hrunning : x.running = []) (hnew : ∀ l ∈ s1.launches, l.id ≠ s1.nextId)
    (hcheck : s1.checkRecord c (BitVec.ofNat 1024 (leNat bs)) = 0) (hbind : recBind (BitVec.ofNat 1024 (leNat bs)) = 0) :
    exec (.cmdLaunch c q) s = .next (
      let r := s1.startLaunch c x.prio x.die (some (c, q)) (BitVec.ofNat 1024 (leNat bs))
      (r.2.setQueue c { r.2.queue c q with
        cmd := none, started := false, running := (r.2.queue c q).running ++ [(r.1, x.cmdSlot)] }).dropFar (.queue c q)) := by
  have hlaunch := fun y : Queue => launch?_begun (c := c) (prio := x.prio) (die := x.die) (queue := some (c, q))
    (r := BitVec.ofNat 1024 (leNat bs)) (t := ({ s1 with
      nextId := s1.nextId + 1,
      launches := s1.launches ++ [begun c x.prio x.die (some (c, q)) (BitVec.ofNat 1024 (leNat bs)) s1] } : State).setQueue c y)
    hnew rfl
  have hready := fun t => begun_ready (prio := x.prio) (die := x.die) (queue := some (c, q)) (t := t) hcheck hbind
  refine congrArg Host.Outcome.next ((runCommand_of_due hdue _).trans ?_)
  simp only [hrunning, List.isEmpty_nil, Bool.true_eq_false, false_and, if_false, hread, Asked.andThen, startLaunch_eq,
    hlaunch, (hready _).2, (hready s).1, ne_eq, not_true_eq_false, settleCmd]

/-! ### WAIT (R350) -/

/-- What an acquire read of a WAIT leaves: the command complete, or its next read set. -/
def waitedFor (c q sub v : Nat) (bs : List Byte) (s : State) : State :=
  (if waitHolds sub (leNat bs) v then s.commandDone c q
    else s.setQueue c { s.queue c q with started := true, nextRead := s.clock + 256 }).dropFar (.queue c q)

/-- An acquire read whose value comes. -/
theorem waitRead_of_ok {c q : Nat} {x : Queue} {m : BitVec 1024} {bs : List Byte} {s s1 : State}
    (hread : s.procLine (.queue c q) x.die c (cmdWord m 8).toNat (if m.getLsbD 16 then 8 else 4) true = .ok bs s1) :
    s.waitRead c q x m =
      waitedFor c q (cmdBits m 13 3) ((cmdWord m 16).toNat % 2 ^ (8 * if m.getLsbD 16 then 8 else 4)) bs s1 := by
  simp only [State.waitRead, hread, Asked.andThen, waitedFor]
  cases waitHolds (cmdBits m 13 3) (leNat bs) ((cmdWord m 16).toNat % 2 ^ (8 * if m.getLsbD 16 then 8 else 4)) <;> rfl

/-! ### SIGNAL (R350) -/

/-- A change of bytes that the place lets happen at once. -/
theorem procChange_of_done {y : Waiter} {die c va : Nat} {f : State → HwDone} {h : HwSays} {s s1 s2 : State}
    (hpa : s.procPa y die c va true = .ok h s1) (hdone : f s1 = .done s2) : s.procChange y die c va f = .ok () s2 := by
  simp only [State.procChange, hpa, Asked.andThen, hdone]

/-- A SIGNAL that is performed at once. -/
theorem signal_of_done {c q : Nat} {x : Queue} {m : BitVec 1024} {add : Bool} {s s2 : State}
    (hdone : (s.procChange (.queue c q) x.die c (cmdWord m 8).toNat fun s =>
      if add then s.hwUpdate (.queue c q) c (cmdWord m 8).toNat (if m.getLsbD 16 then 8 else 4) (fun old =>
        leBytes (if m.getLsbD 16 then 8 else 4) ((leNat old + (cmdWord m 16).toNat) % 2 ^ (8 * if m.getLsbD 16 then 8 else 4))) true
      else s.hwWrite (.queue c q) c (cmdWord m 8).toNat
        (leBytes (if m.getLsbD 16 then 8 else 4) ((cmdWord m 16).toNat % 2 ^ (8 * if m.getLsbD 16 then 8 else 4)))) = .ok () s2) :
    s.signal c q x m add = (s2.commandDone c q).dropFar (.queue c q) := by
  simp only [State.signal, hdone, Asked.andThen, settleCmd]

/-! ### Engine commands (R350) -/

/-- An engine command issues its operation as a thread of its quay would. -/
def engineIssued (c q : Nat) (k : OpKind) (x : Queue) (m : BitVec 1024) (s : State) : State :=
  (({ s with nextId := s.nextId + 1 } : State).issueOp {
    id := s.nextId, quay := cmdBits m 17 8, kind := k, ctx := c, desc := cmdDesc m, co := cmdWord m 8
    scope := BitVec.ofNat 3 (cmdBits m 10 3), queue := some (c, q) }).setQueue c
      { x with started := true, waitOp := some s.nextId }

/-- An engine command that is due, where the tables have room. -/
theorem cmdEngine_of_due {c q op sub : Nat} {k : OpKind} {x : Queue} {m : BitVec 1024} {s : State}
    (h : CommandDue c q op sub x m s) (hkind : cmdKind op sub = some k)
    (hroom : s.roomNow (cmdBits m 17 8) 1 (s.scoredDests (cmdBits m 17 8) c k (cmdDesc m)) = true) :
    s.cmdEngine c q op sub = engineIssued c q k x m s := by
  unfold State.cmdEngine
  rw [runCommand_of_due h]
  simp only [hkind, hroom, Bool.true_eq_false, if_false]
  rfl

/-! ### A queue that is awake (R348, R352) -/

/-- ERR of a halted queue is written at once where its place lets it. -/
theorem writeErr_of_done {c q code : Nat} {x : Queue} {h : HwSays} {s s1 u : State} (hx : s.queue c q = x)
    (hdue : x.errDue = some code) (hrefused : x.refused = false)
    (hpa : s.procPa (.queue c q) x.die c (x.base + 0x180) true = .ok h s1)
    (hwrite : s1.hwWrite (.queue c q) c (x.base + 0x180) (leBytes 8 (x.cmdSlot % 2 ^ 32 + code * 2 ^ 32)) = .done u) :
    s.writeErr c q = (u.dropFar (.queue c q)).setQueue c { s.queue c q with errDue := none } := by
  have hchange : s.procChange (.queue c q) x.die c (x.base + 0x180)
      (fun s => s.hwWrite (.queue c q) c (x.base + 0x180) (leBytes 8 (x.cmdSlot % 2 ^ 32 + code * 2 ^ 32))) = .ok () u :=
    procChange_of_done hpa hwrite
  simp only [State.writeErr, hx, hdue, hrefused, Bool.false_eq_true, if_false, hchange]

/-- A command that fails a check at its turn halts the queue. -/
theorem exec_queueWake_halt {c q : Nat} {x : Queue} {m : BitVec 1024} {s : State} (hsettled : s.settleQueue c q = s)
    (hx : x = s.queue c q) (hcmd : x.cmd = some m) (hserves : s.serves c q = true) (hstarted : x.started = false)
    (hrunning : x.running = []) (hdue : x.errDue = none) (hcheck : s.checkCommand c m ≠ 0) :
    exec (.queueWake c q) s = .next (s.haltQueue c q (s.checkCommand c m)) := by
  subst hx
  have hturn : (s.queue c q).started = false ∧ (s.queue c q).running.isEmpty = true ∧ s.checkCommand c m ≠ 0 :=
    ⟨hstarted, List.isEmpty_iff.mpr hrunning, hcheck⟩
  refine congrArg Host.Outcome.next ?_
  simp only [hsettled, hdue, Option.isSome_none, Bool.false_eq_true, if_false, hserves, Bool.true_eq_false, hcmd, if_pos hturn]

/-- A queue that is awake with no command in hand copies its next slot and moves HEAD. -/
theorem exec_queueWake_copy {c q : Nat} {x : Queue} {tb hb bs : List Byte} {h : HwSays} {s s1 s2 s3 s4 s5 : State}
    (hsettled : s.settleQueue c q = s) (hx : x = s.queue c q) (hserves : s.serves c q = true) (hcmd : x.cmd = none)
    (hrefused : x.refused = false) (hdue : x.errDue = none)
    (htail : s.procLine (.queue c q) x.die c x.base 8 true = .ok tb s1)
    (hhead : s1.procLine (.queue c q) x.die c (x.base + 0x100) 8 false = .ok hb s2) (hlt : leNat hb < leNat tb)
    (hslot : s2.procRead (.queue c q) x.die c (x.base + 0x200 + 128 * (leNat hb % x.slots)) 128 = .ok bs s3)
    (hpa : s3.procPa (.queue c q) x.die c (x.base + 0x100) true = .ok h s4)
    (hwrite : s4.hwWrite (.queue c q) c (x.base + 0x100) (leBytes 8 (leNat hb + 1)) = .done s5) :
    exec (.queueWake c q) s = .next ((s5.setQueue c { s5.queue c q with
      cmd := some (BitVec.ofNat 1024 (leNat bs)), cmdSlot := leNat hb, started := false }).dropFar (.queue c q)) := by
  subst hx
  have hchange : s3.procChange (.queue c q) (s.queue c q).die c ((s.queue c q).base + 0x100)
      (fun s' => s'.hwWrite (.queue c q) c ((s.queue c q).base + 0x100) (leBytes 8 (leNat hb + 1))) = .ok () s5 :=
    procChange_of_done hpa hwrite
  refine congrArg Host.Outcome.next ?_
  simp only [hsettled, hdue, Option.isSome_none, Bool.false_eq_true, if_false, hserves, Bool.true_eq_false, hcmd, hrefused,
    htail, hhead, Asked.andThen, ge_iff_le, if_neg (Nat.not_le.mpr hlt), hslot, hchange]

/-- Settles O47: a command that is due is run, and each kind does its work; a queue that is awake copies or halts. -/
theorem queueCommandsCompleteOrHalt : Obligations.QueueCommandsCompleteOrHalt := by
  unfold Obligations.QueueCommandsCompleteOrHalt
  refine ⟨?_, ?_⟩
  · intro c q sub x m s va n y waited issued fits
    have hengine : ∀ (op sub : Nat) (k : OpKind), cmdKind op sub = some k → CommandDue c q op sub x m s → fits k →
        Host.Outcome.next (s.cmdEngine c q op sub) = (.next (issued k) : Out) :=
      fun op sub k hkind hdue hroom => congrArg Host.Outcome.next (cmdEngine_of_due hdue hkind hroom)
    refine ⟨?_, ?_, ?_, ?_, ?_, ?_, hengine 4 0 _ rfl, hengine 4 1 _ rfl, hengine 4 2 _ rfl, hengine 4 3 _ rfl,
      hengine 5 0 _ rfl, hengine 5 1 _ rfl, hengine 5 2 _ rfl, hengine 5 3 _ rfl, hengine 5 4 _ rfl, hengine 5 5 _ rfl,
      hengine 6 0 _ rfl, hengine 7 0 _ rfl, ?_⟩
    · intro bs s1 hdue hread hrunning hnew hcheck hbind r
      exact exec_cmdLaunch_of_read hdue hread hrunning hnew hcheck hbind
    · intro bs s1 hdue hstarted hread
      have hfirst : (if x.started then s else s.waitRead c q x m) = s.waitRead c q x m := by simp [hstarted]
      refine congrArg Host.Outcome.next ?_
      rw [sub_of_due hdue, runCommand_of_due hdue, hfirst, waitRead_of_ok hread, cmdSub_of_due hdue]
      rfl
    · intro bs s1 hdue hstarted hagain hread
      have hagain' : (x.started && (decide (s.clock ≥ x.nextRead) || s.tokenTaken x.die c (cmdWord m 8).toNat)) = true := by
        rw [hstarted, Bool.true_and, Bool.or_eq_true, decide_eq_true_iff]
        exact hagain
      refine congrArg Host.Outcome.next ?_
      rw [sub_of_due hdue, runCommand_of_due hdue, if_pos hagain', waitRead_of_ok hread, cmdSub_of_due hdue]
      rfl
    · intro hdue hstarted hearly hheld
      have hnot : ¬ (x.started && (decide (s.clock ≥ x.nextRead) || s.tokenTaken x.die c (cmdWord m 8).toNat)) = true := by
        rw [hstarted, Bool.true_and, Bool.or_eq_true, decide_eq_true_iff]
        exact not_or_intro (Nat.not_le.mpr hearly) (by rw [hheld]; exact Bool.false_ne_true)
      refine congrArg Host.Outcome.next ?_
      rw [sub_of_due hdue, runCommand_of_due hdue, if_neg hnot]
    · intro h s1 s2 hdue hpa hwrite
      exact congrArg Host.Outcome.next ((runCommand_of_due hdue _).trans
        (signal_of_done (add := false) (procChange_of_done hpa hwrite)))
    · intro h s1 s2 hdue hpa hupdate
      exact congrArg Host.Outcome.next ((runCommand_of_due hdue _).trans
        (signal_of_done (add := true) (procChange_of_done hpa hupdate)))
    · intro tb hb bs h s1 s2 s3 s4 s5 hsettled hx hserves hcmd hrefused hdue htail hhead hlt hslot hpa hwrite
      exact exec_queueWake_copy hsettled hx hserves hcmd hrefused hdue htail hhead hlt hslot hpa hwrite
  · intro c q x m h s t1 u hsettled hx hcmd hserves hstarted hrunning hdue hcheck t ht hpa hwrite
    rw [exec_queueWake_halt hsettled hx hcmd hserves hstarted hrunning hdue hcheck]
    subst hx
    exact congrArg Host.Outcome.next (writeErr_of_done (s := t) ht rfl rfl hpa hwrite)

end Sys2Proof.Machine

namespace Sys2Proof.Machine
open Sys2Proof.Safety

/-! ### Work placed and completed (R152, R166, R169, R353, R354) -/

/-- A launch whose record is written leaves; it belongs to no queue. -/
theorem finishLaunch_of_written {l : Launch} {s s1 : State} (hqueue : l.queue = none)
    (hwrite : s.recordWrite (.launch l.id) l.ctx (recDone l.record) (leBytes 32 (l.doneRecord s.clock).toNat) = .ok () s1) :
    s.finishLaunch l = { s1 with launches := tdel (fun x => x.id == l.id) s1.launches } := by
  simp only [State.finishLaunch, hwrite, hqueue]

/-- Settles O48: each clause is one branch of the dispatch or of the completion. -/
theorem workIsPlacedAndCompleted : Obligations.WorkIsPlacedAndCompleted := by
  unfold Obligations.WorkIsPlacedAndCompleted
  intro n q s
  refine ⟨?_, ?_, ?_, ?_, ?_⟩
  · intro k hready htakes hhigher
    have hgo : [q].length = 1 ∧ s.taskTakes k ([q].headD 0) = true ∧
        s.higherWork ([q].headD 0) k.prio none (s.ready.take n) = false := ⟨rfl, htakes, hhigher⟩
    refine congrArg Host.Outcome.next ?_
    simp only [hready, if_pos hgo]
    rfl
  · intro l qs hready hlaunch hbind htakes hhigher hqueue
    have hnone : s.ready[n]? = none := by simp [hready]
    have hl : s.launches[n - s.ready.length]? = some l := by simpa [hready] using hlaunch
    have hgo : s.launchTakes l (q :: qs) = true ∧
        (q :: qs).all (fun x => !s.higherWork x l.prio (some (s.turnRank ((q :: qs).headD 0) l)) []) = true :=
      ⟨htakes, List.all_eq_true.mpr fun x hx => by simpa using hhigher x hx⟩
    refine congrArg Host.Outcome.next ?_
    simp only [hnone, hl, hbind, Bool.true_eq_false, if_false, if_pos hgo, hqueue]
    rfl
  · intro g hg hended hlaunch
    refine congrArg Host.Outcome.next ?_
    simp only [hg, hended, Bool.true_eq_false, if_false, hlaunch, Option.bind_none, State.countGroup]
    rfl
  · intro g id l s1 hg hended hlaunch hl hcomp hwrite
    refine congrArg Host.Outcome.next ?_
    simp only [hg, hended, Bool.true_eq_false, if_false, hlaunch, Option.bind_some, hl, if_neg hcomp, hwrite]
  · intro l s1 hlaunch hbind hcount hqueue hwrite
    have hgo : l.bindRead = true ∧ l.completed ≥ l.total := ⟨hbind, hcount⟩
    refine congrArg Host.Outcome.next ?_
    simp only [hlaunch, if_pos hgo, finishLaunch_of_written hqueue hwrite]

end Sys2Proof.Machine

namespace Sys2Proof.Machine
open Sys2Proof.Safety

/-! ### What stays when a save area is written (R381) -/

/-- The state without memory's bytes and what the coherence hardware, the meters and the due writes of save areas hold. -/
def State.control (s : State) : State :=
  { s with mem := [], poisoned := [], net := [], collecting := [], paying := 0, meters := [], areaDue := [] }

/-- What each of several steps keeps they keep together. -/
theorem foldl_keeps_mem {σ α β : Type} (g : σ → β) (f : σ → α → σ) (l : List α) (hf : ∀ s, ∀ x ∈ l, g (f s x) = g s) (s : σ) :
    g (l.foldl f s) = g s := by
  induction l generalizing s with
  | nil => rfl
  | cons x xs ih =>
    exact (ih (fun s y hy => hf s y (List.mem_cons_of_mem _ hy)) (f s x)).trans (hf s x List.mem_cons_self)

theorem foldl_keeps {σ α β : Type} (g : σ → β) (f : σ → α → σ) (hf : ∀ s x, g (f s x) = g s) (l : List α) (s : σ) :
    g (l.foldl f s) = g s := foldl_keeps_mem g f l (fun s x _ => hf s x) s

theorem post_control (s : State) (m : NetMsg) : (s.post m).control = s.control := by
  obtain ⟨ms, net, h⟩ := s.post_only m
  rw [h]
  rfl

/-- Calling a line home keeps the rest. -/
theorem wantAll_control (s : State) (line : Nat) : (s.wantAll line).2.control = s.control := by
  unfold State.wantAll
  split
  · rfl
  · split
    · rfl
    · exact foldl_keeps State.control _ (fun s h => post_control s _) (s.dirOf line).holders s

theorem chargeAt_control (s : State) (place line c : Nat) : (s.chargeAt place line c).control = s.control := by
  obtain ⟨ms, h⟩ := s.chargeAt_only place line c
  rw [h]
  rfl

/-- A write of unpoisoned bytes keeps the rest. -/
theorem gwrite_control (s : State) (pa : Nat) (bs : List Byte) : (s.gwrite pa bs false).control = s.control := by
  unfold State.gwrite
  dsimp only
  split <;> rfl

/-- The due writes of save areas keep the rest. -/
theorem areaTurn_control (s : State) : s.areaTurn.control = s.control := by
  refine (foldl_keeps State.control _ (fun s x => ?_) s.areaDue { s with areaDue := [] }).trans rfl
  dsimp only
  split
  · rfl
  · split
    · rw [gwrite_control, chargeAt_control, wantAll_control]
      rfl
    · exact (wantAll_control _ _).trans rfl

theorem areaWrite_control (s : State) (pa : Nat) (bs : List Byte) : (s.areaWrite pa bs).control = s.control :=
  (areaTurn_control _).trans rfl

/-- A write of a context's header keeps the rest. -/
theorem header_control (s : State) (c : Ctx) (off : Nat) (bs : List Byte) : (s.header c off bs).control = s.control := by
  unfold State.header
  split
  · rfl
  · exact areaWrite_control s _ bs

/-- The start of a pre-emption takes a number and notes itself; the headers apart, nothing else changes. -/
theorem beginPreempt_control (s : State) (root : Nat) (qs : List Nat) (drain only : Bool) :
    ∃ n ps, (s.beginPreempt root qs drain only).2.control = { s.control with nextId := n, preempts := ps } := by
  refine ⟨_, _, (foldl_keeps State.control _ (fun s c => ?_) _ _).trans rfl⟩
  dsimp only
  split
  · rfl
  · rw [header_control, header_control]

/-- It keeps the contexts and the controller's operations. -/
theorem beginPreempt_keeps (s : State) (root : Nat) (qs : List Nat) (drain only : Bool) :
    ((s.beginPreempt root qs drain only).2.ctxs, (s.beginPreempt root qs drain only).2.ctxq) = (s.ctxs, s.ctxq) := by
  obtain ⟨n, ps, h⟩ := beginPreempt_control s root qs drain only
  show ((s.beginPreempt root qs drain only).2.control.ctxs, (s.beginPreempt root qs drain only).2.control.ctxq) = (s.ctxs, s.ctxq)
  rw [h]
  rfl

/-- The end of an operation keeps the contexts and the controller's operations. -/
theorem endOp_keeps (s : State) (id st : Nat) : ((s.endOp id st).ctxs, (s.endOp id st).ctxq) = (s.ctxs, s.ctxq) := by
  have hrefs : ((s.dropRefs id).ctxs, (s.dropRefs id).ctxq) = (s.ctxs, s.ctxq) := by
    unfold State.dropRefs State.keepRefs
    cases s.op? id with
    | none => rfl
    | some o =>
      exact foldl_keeps (fun u : State => (u.ctxs, u.ctxq)) (fun u k => u.modRegion k fun r => { r with refs := r.refs - 1 })
        (fun u k => rfl) _ s
  exact hrefs

/-- So does the withdrawal of operations. -/
theorem revoke_keeps (s : State) (root : Nat) (hit : EngOp → Bool) :
    ((s.revoke root hit).ctxs, (s.revoke root hit).ctxq) = (s.ctxs, s.ctxq) := by
  refine foldl_keeps (fun u : State => (u.ctxs, u.ctxq)) _ (fun u o => ?_) _ s
  dsimp only
  split
  · rfl
  · exact endOp_keeps _ o.id 11

/-! ### Contexts as they are written -/

theorem ctxLive_setCtx (s : State) (x : Ctx) (t : Nat) : (s.setCtx x).ctxLive t = s.ctxLive t := by
  have hmap : ∀ l : List Ctx, (tmod (fun y => y.num == x.num) (fun _ => x) l).any (fun y => y.num == t) =
      l.any fun y => y.num == t := by
    intro l
    rw [tmod, List.any_map]
    refine congrArg (List.any l) (funext fun y => ?_)
    by_cases hy : y.num = x.num <;> simp [hy]
  exact hmap s.ctxs

/-- A live context's record that was replaced is read back. -/
theorem ctx_setCtx {s : State} {x : Ctx} {t : Nat} (hx : x.num = t) (hlive : s.ctxLive t = true) : (s.setCtx x).ctx t = x := by
  subst hx
  have hfind : ∀ l : List Ctx, (l.any fun y => y.num == x.num) = true →
      tget (fun y : Ctx => y.num == x.num) { num := x.num } (tmod (fun y => y.num == x.num) (fun _ => x) l) = x := by
    intro l hl
    induction l with
    | nil => cases hl
    | cons y ys ih =>
      by_cases hy : y.num = x.num
      · simp [tget, tmod, hy]
      · have hrest := ih (by simpa [hy] using hl)
        simpa [tget, tmod, hy] using hrest
  exact hfind s.ctxs hlive

/-- Nothing is replaced where no context of the number lives. -/
theorem ctx_setCtx_dead {s : State} {x : Ctx} {t : Nat} (hx : x.num = t) (hdead : s.ctxLive t = false) :
    (s.setCtx x).ctx t = s.ctx t := by
  have hsame : (s.setCtx x).ctxs = s.ctxs := by
    refine (List.map_congr_left fun y hy => ?_).trans (List.map_id s.ctxs)
    have hy' : ¬ (y.num == x.num) = true := hx ▸ List.any_eq_false.mp hdead y hy
    exact if_neg hy'
  exact congrArg (tget (fun x : Ctx => x.num == t) { num := t }) hsame

/-- Another context's record stays. -/
theorem ctx_setCtx_other {s : State} {x : Ctx} {t : Nat} (hx : x.num ≠ t) : (s.setCtx x).ctx t = s.ctx t := by
  have hfind : ∀ l : List Ctx, tget (fun y : Ctx => y.num == t) { num := t } (tmod (fun y => y.num == x.num) (fun _ => x) l) =
      tget (fun y : Ctx => y.num == t) { num := t } l := by
    intro l
    induction l with
    | nil => rfl
    | cons y ys ih =>
      by_cases hy : y.num = x.num
      · have hyt : y.num ≠ t := hy ▸ hx
        simpa [tget, tmod, hy, hx, hyt] using ih
      · by_cases hyt : y.num = t
        · simp [tget, tmod, hyt, Ne.symm hx]
        · simpa [tget, tmod, hy, hyt] using ih
  exact hfind s.ctxs

/-- The record that is looked up by a number is of that number. -/
theorem ctx_num (s : State) (c : Nat) : (s.ctx c).num = c := by
  unfold State.ctx tget
  cases h : s.ctxs.find? (fun x => x.num == c) with
  | none => rfl
  | some x => exact eq_of_beq (List.find?_some (p := fun x : Ctx => x.num == c) h)

/-- States whose rest agrees have the same contexts. -/
theorem ctxs_of_control {s t : State} (h : t.control = s.control) : t.ctxs = s.ctxs :=
  show t.control.ctxs = s.control.ctxs by rw [h]

theorem ctx_of_control {s t : State} (h : t.control = s.control) (c : Nat) : t.ctx c = s.ctx c :=
  congrArg (tget (fun x : Ctx => x.num == c) { num := c }) (ctxs_of_control h)

theorem ctxLive_of_control {s t : State} (h : t.control = s.control) (c : Nat) : t.ctxLive c = s.ctxLive c :=
  congrArg (List.any · fun x : Ctx => x.num == c) (ctxs_of_control h)

/-- They have the same hand-overs, threads and holders of quays. -/
theorem holders_of_control {s t : State} (h : t.control = s.control) :
    (t.handovers, t.threads, t.quayCtx) = (s.handovers, s.threads, s.quayCtx) :=
  show (t.control.handovers, t.control.threads, t.control.quayCtx) = (s.control.handovers, s.control.threads, s.control.quayCtx)
    by rw [h]

/-- They have the same operations of the controller. -/
theorem ctxq_of_control {s t : State} (h : t.control = s.control) : t.ctxq = s.ctxq :=
  show t.control.ctxq = s.control.ctxq by rw [h]

/-! ### An operation of the controller at its turn (R403, R405) -/

/-- An operation at its turn is performed. -/
theorem ctxPerform_of_turn {n : Nat} {func : BitVec 8} {sel : CtxOp → Bool} {o : CtxOp} {s : State}
    (h : ContextTurn n func o s) (hsel : sel o = true) (body : CtxOp → State → State) :
    s.ctxPerform n func sel body = body o s := by
  obtain ⟨ho, hfunc, hphase, hreach, hblocked⟩ := h
  have hread : ¬ o.reach = 0 := Nat.ne_of_gt hreach
  have hopen : ¬ (o.func ≠ func ∨ o.phase ≠ 0) := by simp [hfunc, hphase]
  have hgo : ¬ (o.src ≠ o.src ∨ o.func ≠ func ∨ o.reach = 0 ∨ sel o = false ∨ s.ctxBlocked o = true) := by
    simp [hfunc, hread, hsel, hblocked]
  simp only [State.ctxPerform, ho, if_neg hopen, if_neg hread, if_neg hgo]

@[simp] theorem State.modCtxOp_ctxs (s : State) (n : Nat) (f : CtxOp → CtxOp) : (s.modCtxOp n f).ctxs = s.ctxs := rfl
@[simp] theorem State.ctxEnd_ctxs (s : State) (n code count : Nat) : (s.ctxEnd n code count).ctxs = s.ctxs := rfl
@[simp] theorem State.ctxAwait_ctxs (s : State) (n : Nat) (f : CtxOp → CtxOp) : (s.ctxAwait n f).ctxs = s.ctxs := rfl

/-- The `n`-th record of a list after a change of it. -/
theorem getElem?_setAt {α : Type} (l : List α) (n : Nat) (f : α → α) : (setAt l n f)[n]? = l[n]?.map f := by
  simp only [setAt, List.getElem?_map, List.getElem?_zipIdx]
  cases l[n]? with
  | none => rfl
  | some x => simp

theorem setAt_congr {α : Type} {l : List α} {n : Nat} {f g : α → α} (h : ∀ x, l[n]? = some x → f x = g x) :
    setAt l n f = setAt l n g := by
  refine List.map_congr_left fun x hx => ?_
  split
  · next hn => exact h x.1 (hn ▸ List.mem_zipIdx_iff_getElem?.mp hx)
  · rfl

/-- The `n`-th operation waits for what it began: what counts is its own record. -/
theorem ctxAwait_congr {n : Nat} {f g : CtxOp → CtxOp} {o : CtxOp} {s : State} (ho : s.ctxq[n]? = some o) (h : f o = g o) :
    s.ctxAwait n f = s.ctxAwait n g := by
  unfold State.ctxAwait State.modCtxOp
  rw [setAt_congr fun x hx => ?_]
  obtain rfl : o = x := Option.some.inj (ho.symm.trans hx)
  rw [h]

/-- An operation that ends has its code and count. -/
theorem ctxEnded_ctxEnd {n code count : Nat} {s : State} {o : CtxOp} (h : s.ctxq[n]? = some o) :
    CtxEnded n code count (s.ctxEnd n code count) := by
  have hget : (s.ctxEnd n code count).ctxq[n]? =
      s.ctxq[n]?.map fun o => { o with phase := 9, code := code, count := count } :=
    getElem?_setAt s.ctxq n fun o => { o with phase := 9, code := code, count := count }
  exact ⟨{ o with phase := 9, code := code, count := count }, hget.trans (congrArg _ h), rfl, rfl, rfl⟩

end Sys2Proof.Machine

namespace Sys2Proof.Machine
open Sys2Proof.Safety

/-! ### `ctx.new` (R406) -/

/-- The record of a context that `ctx.new` makes. -/
def childOf (o : CtxOp) (c pa : Nat) (s : State) : Ctx :=
  { num := c, parent := o.issuer, depth := (s.ctx o.issuer).depth + 1, vf := (o.word 3).testBit 24
    invf := (o.word 3).testBit 24 || (s.ctx o.issuer).invf
    vfctx := if (o.word 3).testBit 24 then c else (s.ctx o.issuer).vfctx, allow := BitVec.ofNat 8 (o.word 3 / 2 ^ 16) ||| 1
    caps := BitVec.ofNat 64 (2 ^ 56 + o.word 5), ownRoot := o.word 4, save := pa, maxq := o.word 3 % 512
    qtab := List.replicate (o.word 3 % 512) none }

/-- The state that `ctx.new` leaves. -/
def madeChild (n : Nat) (o : CtxOp) (c pa : Nat) (s : State) : State :=
  let x := childOf o c pa s
  (((({ s.dropFar (.tables o.issuer) with ctxs := s.ctxs ++ [x] } : State).areaWrite pa
    (leBytes 8 2 ++ leBytes 248 0 ++ x.qtabBytes ++ leBytes 3584 0)).modCtxOp n fun o => { o with target := c })).ctxEnd n 0 0

/-- The contexts that a state with one more context knows. -/
theorem madeChild_ctxs (n : Nat) (o : CtxOp) (c pa : Nat) (s : State) :
    (madeChild n o c pa s).ctxs = s.ctxs ++ [childOf o c pa s] := by
  rw [madeChild, State.ctxEnd_ctxs, State.modCtxOp_ctxs]
  exact ctxs_of_control (areaWrite_control _ _ _)

/-- A free number is no live context's. -/
theorem not_live_of_freeContext {c : Nat} {s : State} (h : s.freeContext = some c) : s.ctxLive c = false := by
  simpa using List.find?_some h

/-- The context made is found by its number, the others stay. -/
theorem madeChild_ctx {n c pa : Nat} {o : CtxOp} {s : State} (hfree : s.freeContext = some c) :
    (madeChild n o c pa s).ctxLive c = true ∧ (madeChild n o c pa s).ctx c = childOf o c pa s ∧
      ∀ d, s.ctxLive d = true → (madeChild n o c pa s).ctx d = s.ctx d := by
  have hnew : s.ctxs.find? (fun x => x.num == c) = none := by
    refine List.find?_eq_none.mpr fun x hx => ?_
    have hdead := List.any_eq_false.mp (not_live_of_freeContext hfree) x hx
    exact hdead
  unfold State.ctxLive State.ctx tget
  rw [madeChild_ctxs]
  refine ⟨by simp [childOf], ?_, ?_⟩
  · rw [List.find?_append, hnew, Option.none_or, List.find?_cons_of_pos (by simp [childOf])]
    rfl
  · intro d hd
    obtain ⟨x, hx⟩ := Option.isSome_iff_exists.mp (List.find?_isSome (p := fun x : Ctx => x.num == d) |>.mpr
      (List.any_eq_true.mp hd))
    rw [List.find?_append, hx, Option.some_or]

/-- The operation that made it has ended. -/
theorem madeChild_ended {n c pa : Nat} {o : CtxOp} {s : State} (ho : s.ctxq[n]? = some o) : CtxEnded n 0 0 (madeChild n o c pa s) := by
  refine ctxEnded_ctxEnd (o := { o with target := c }) ?_
  refine (getElem?_setAt _ n fun o : CtxOp => { o with target := c }).trans ?_
  rw [ctxq_of_control (areaWrite_control _ _ _)]
  exact congrArg (Option.map fun o : CtxOp => { o with target := c }) ho

/-- `ctx.new` on operands that pass its checks, with the save area pinned. -/
theorem ctxNewAt_made {n c pa : Nat} {o : CtxOp} {s : State} (htop : o.word 0 / 4096 = 0)
    (hunused : o.unused [2, 3, 4, 5] = true) (hpage : o.word 2 % 65536 = 0)
    (hend : o.word 2 + 4096 + 17825792 * (o.word 3 % 512) ≤ 2 ^ 56) (hone : 1 ≤ o.word 3 % 512) (hmax : o.word 3 % 512 ≤ 256)
    (hres : bitsOf (o.word 3) 9 7 = 0) (hhigh : o.word 3 / 2 ^ 25 = 0) (hvf : (o.word 3).testBit 24 = true → o.issuer = 0)
    (hroot : o.word 4 % 2048 = 0) (hroot' : o.word 4 < 2 ^ 52) (hcaps : o.word 5 < 2 ^ 56) (hfree : s.freeContext = some c)
    (hdepth : (s.ctx o.issuer).depth < 7)
    (hwait : s.walksWait o.issuer (o.word 2) ((4096 + 17825792 * (o.word 3 % 512) + 65535) / 65536) true = none)
    (hpinned : s.pinned o.issuer (o.word 2) ((4096 + 17825792 * (o.word 3 % 512) + 65535) / 65536) = some pa)
    (hallow : BitVec.ofNat 8 (o.word 3 / 2 ^ 16) &&& ~~~(s.ctx o.issuer).allow = 0) :
    s.ctxNewAt n o = madeChild n o c pa s := by
  have hgood : ¬ (o.word 0 / 4096 ≠ 0 ∨ o.unused [2, 3, 4, 5] = false ∨ o.word 2 % 65536 ≠ 0 ∨ o.word 2 ≥ 2 ^ 56 ∨
      o.word 3 % 512 = 0 ∨ o.word 3 % 512 > 256 ∨ bitsOf (o.word 3) 9 7 ≠ 0 ∨ o.word 3 / 2 ^ 25 ≠ 0 ∨
      ((o.word 3).testBit 24 = true ∧ o.issuer ≠ 0) ∨ o.word 4 % 2048 ≠ 0 ∨ o.word 4 ≥ 2 ^ 52 ∨ o.word 5 ≥ 2 ^ 56) := by
    rintro (h | h | h | h | h | h | h | h | ⟨hbit, h⟩ | h | h | h)
    case inr.inl => exact Bool.false_ne_true (h.symm.trans hunused)
    case inr.inr.inr.inr.inr.inr.inr.inr.inl => exact h (hvf hbit)
    all_goals omega
  have hfits : ¬ o.word 2 + (4096 + 17825792 * (o.word 3 % 512)) > 2 ^ 56 := by omega
  have hall : ¬ BitVec.ofNat 8 (o.word 3 / 2 ^ 16) &&& ~~~(s.ctx o.issuer).allow ≠ 0 := fun h => h hallow
  simp only [State.ctxNewAt, if_neg hgood, hfree, ge_iff_le, if_neg (Nat.not_le.mpr hdepth), if_neg hfits, hwait, hpinned,
    if_neg hall]
  rfl

/-! ### `ctx.give` (R407) -/

/-- A quay newly given takes an empty slot of the child's quay table. -/
def slotGiven (t : Nat) (s : State) (q : Nat) : State :=
  match (s.ctx t).qtab.findIdx? (·.isNone) with
  | some j =>
    let u := s.setCtx { s.ctx t with qtab := (s.ctx t).qtab.set j (some q) }
    if u.holdsSect (s.ctx t) j then u else u.areaWrite ((s.ctx t).save + sectOff j + 0x4A0) (leBytes 384 0)
  | none => s

/-- That leaves hand-overs, threads and the holders of quays. -/
theorem slotGiven_keeps (t : Nat) (s : State) (q : Nat) :
    ((slotGiven t s q).handovers, (slotGiven t s q).threads, (slotGiven t s q).quayCtx) = (s.handovers, s.threads, s.quayCtx) := by
  unfold slotGiven
  cases (s.ctx t).qtab.findIdx? (·.isNone) with
  | none => rfl
  | some j =>
    dsimp only
    split
    · rfl
    · exact (holders_of_control (areaWrite_control _ _ _)).trans rfl

theorem assignee_congr {s u : State} (h : u.quayCtx = s.quayCtx) (q : Nat) : u.assignee q = s.assignee q :=
  congrArg (kvGet q 0) h

/-- `ctx.give` of quays on operands that pass its checks. -/
theorem giveQuays_given {n : Nat} {o : CtxOp} {s : State} (hcode : s.childCode o false = 0) (hflags : o.word 2 ≤ 3)
    (hunused : o.unused [2, 4, 5, 6, 7] = true)
    (hslots : ((o.quays.filter fun q => !s.holdsQuay o.targetOf q).filter fun q => ((s.ctx o.targetOf).slotOf q).isNone).length ≤
      (s.ctx o.targetOf).qtab.countP (·.isNone))
    (hgood : ∀ q ∈ o.quays, s.absent.contains q = false ∧ s.holdsQuay o.issuer q = true ∧ (∀ h ∈ s.handovers, h.quay ≠ q) ∧
      kvGet (s.partOfQuay q) 0 s.partOwner = s.functionOf o.targetOf ∧
        (s.holdsQuay o.targetOf q = true ∨ s.assignee q = o.issuer)) :
    s.giveQuays n o =
      let new := o.quays.filter fun q => !s.holdsQuay o.targetOf q
      let u := (new.filter fun q => ((s.ctx o.targetOf).slotOf q).isNone).foldl (slotGiven o.targetOf) s
      ({ u with handovers := u.handovers ++ new.map fun q => { quay := q, old := u.assignee q, new := o.targetOf } } :
        State).ctxAwait n fun x => { x with hands := new, count := o.quays.length } := by
  have hnone : (o.quays.any fun q => s.absent.contains q || !s.holdsQuay o.issuer q || (s.handovers.any fun h => h.quay == q) ||
      kvGet (s.partOfQuay q) 0 s.partOwner != s.functionOf o.targetOf ||
        (!s.holdsQuay o.targetOf q && s.assignee q != o.issuer)) = false := by
    refine List.any_eq_false.mpr fun q hq => ?_
    obtain ⟨habsent, hheld, hhand, howner, hfree⟩ := hgood q hq
    have hhand' : (s.handovers.any fun h => h.quay == q) = false :=
      List.any_eq_false.mpr fun h hh => by simpa using hhand h hh
    rcases hfree with hchild | hfree
    · simp only [habsent, hheld, hhand', howner, hchild, bne_self_eq_false, Bool.not_true, Bool.or_self, Bool.false_and,
        Bool.false_eq_true, not_false_eq_true]
    · simp only [habsent, hheld, hhand', howner, hfree, bne_self_eq_false, Bool.not_true, Bool.or_self, Bool.and_false,
        Bool.false_eq_true, not_false_eq_true]
  have hcode' : ¬ s.childCode o false ≠ 0 := fun h => h hcode
  have hform : ¬ (o.word 2 > 3 ∨ o.unused [2, 4, 5, 6, 7] = false ∨
      ((o.quays.filter fun q => !s.holdsQuay o.targetOf q).filter fun q => ((s.ctx o.targetOf).slotOf q).isNone).length >
        (s.ctx o.targetOf).qtab.countP (·.isNone)) := by
    rintro (h | h | h)
    · omega
    · exact Bool.false_ne_true (h.symm.trans hunused)
    · omega
  simp only [State.giveQuays, if_neg hcode', if_neg hform, hnone, Bool.false_eq_true, if_false]
  rfl

/-- `ctx.give` of memory on operands that pass its checks. -/
theorem giveMemory_given {n : Nat} {o : CtxOp} {g : Grant} {s : State} (hcode : s.childCode o false = 0) (hflags : o.word 2 ≤ 3)
    (hunused : o.unused [2, 3, 4, 5, 6] = true) (hlen : o.word 5 % 65536 = 0) (hlen0 : o.word 5 ≠ 0)
    (hva : o.word 3 % 65536 = 0) (hipa : o.word 4 % 65536 = 0) (hvaEnd : o.word 3 + o.word 5 ≤ 2 ^ 56)
    (hipaEnd : o.word 4 + o.word 5 ≤ 2 ^ 52) (hperm : o.word 6 ≤ 3)
    (hdisj : ∀ h ∈ (s.ctx o.targetOf).grants, overlaps (o.word 4) (o.word 5) h.ipa h.len = false)
    (hcount : (s.ctx o.targetOf).grants.length < 64) (hlim : s.bmlim o o.targetOf = .ok none s)
    (hg : g = { idx := g.idx, va := o.word 3, ipa := o.word 4, len := o.word 5, w := (o.word 6).testBit 1,
                x := (o.word 6).testBit 0 })
    (hidx : (List.range 64).find? (fun k => !(s.ctx o.targetOf).grants.any (·.idx == k)) = some g.idx) :
    s.giveMemory n o =
      (s.setCtx { s.ctx o.targetOf with grants := (s.ctx o.targetOf).grants ++ [g] }).ctxEnd n 0 g.idx := by
  have hcode' : ¬ s.childCode o false ≠ 0 := fun h => h hcode
  have hmeets : ((s.ctx o.targetOf).grants.any fun g => overlaps (o.word 4) (o.word 5) g.ipa g.len) = false :=
    List.any_eq_false.mpr fun h hh => by simp [hdisj h hh]
  have hform : ¬ (o.word 2 > 3 ∨ o.unused [2, 3, 4, 5, 6] = false ∨ o.word 5 % 65536 ≠ 0 ∨ o.word 5 = 0 ∨
      o.word 3 % 65536 ≠ 0 ∨ o.word 4 % 65536 ≠ 0 ∨ o.word 3 + o.word 5 > 2 ^ 56 ∨ o.word 4 + o.word 5 > 2 ^ 52 ∨
      o.word 6 > 3 ∨ ((s.ctx o.targetOf).grants.any fun g => overlaps (o.word 4) (o.word 5) g.ipa g.len) = true ∨
      (s.ctx o.targetOf).grants.length ≥ 64) := by
    rintro (h | h | h | h | h | h | h | h | h | h | h)
    case inr.inl => exact Bool.false_ne_true (h.symm.trans hunused)
    case inr.inr.inr.inr.inr.inr.inr.inr.inr.inl => exact Bool.false_ne_true (hmeets.symm.trans h)
    all_goals omega
  simp only [State.giveMemory, if_neg hcode', if_neg hform, hlim, Option.any_none, Bool.false_eq_true, if_false, hidx,
    Option.getD_some]
  rw [← hg]

/-- `ctx.give` of a queue on operands that pass its checks. -/
theorem giveQueue_given {n : Nat} {o : CtxOp} {s : State} (hcode : s.childCode o false = 0) (hroot : o.nodeOnRoot = false)
    (hflags : o.word 2 ≤ 3) (hunused : o.unused [2, 3, 4] = true) (hbits : bitsOf (o.word 3) 6 2 = 0) (hhigh : o.word 3 / 2 ^ 14 = 0)
    (hd : descriptorOk (BitVec.ofNat 64 (o.word 4)) = true) (hen : (s.queue o.issuer (o.word 3 % 64)).en = true)
    (hprio : ({ n := bitsOf (o.word 3) 8 6, desc := BitVec.ofNat 64 (o.word 4) } : Queue).prio ≤
      (s.queue o.issuer (o.word 3 % 64)).prio)
    (hfree : (s.queue o.targetOf (bitsOf (o.word 3) 8 6)).en = false)
    (hlent : (s.queue o.targetOf (bitsOf (o.word 3) 8 6)).lentTo = none) :
    s.giveQueue n o = (((s.setQueue o.issuer { s.queue o.issuer (o.word 3 % 64) with
      desc := (s.queue o.issuer (o.word 3 % 64)).desc &&& ~~~(1#64 <<< 63),
      withdrawn := some (s.queue o.issuer (o.word 3 % 64)).desc, lentTo := some (o.targetOf, bitsOf (o.word 3) 8 6) }).setQueue
        o.targetOf { n := bitsOf (o.word 3) 8 6, desc := BitVec.ofNat 64 (o.word 4) }).revokePosts o.issuer
          (o.word 3 % 64)).ctxEnd n 0 0 := by
  have hcode' : ¬ s.childCode o false ≠ 0 := fun h => h hcode
  have hform : ¬ (o.word 2 > 3 ∨ o.unused [2, 3, 4] = false ∨ bitsOf (o.word 3) 6 2 ≠ 0 ∨ o.word 3 / 2 ^ 14 ≠ 0 ∨
      descriptorOk (BitVec.ofNat 64 (o.word 4)) = false) := by
    rintro (h | h | h | h | h)
    · exact absurd hflags (Nat.not_le.mpr h)
    · exact Bool.false_ne_true (h.symm.trans hunused)
    · exact h hbits
    · exact h hhigh
    · exact Bool.false_ne_true (h.symm.trans hd)
  have hserved : ¬ (({ n := bitsOf (o.word 3) 8 6, desc := BitVec.ofNat 64 (o.word 4) } : Queue).prio >
      (s.queue o.issuer (o.word 3 % 64)).prio ∨ (s.queue o.targetOf (bitsOf (o.word 3) 8 6)).en = true ∨
      (s.queue o.targetOf (bitsOf (o.word 3) 8 6)).lentTo.isSome = true) := by
    simp [hfree, hlent, Nat.not_lt.mpr hprio]
  simp only [State.giveQueue, hroot, Bool.false_eq_true, if_false, if_neg hcode', if_neg hform, hen, Bool.true_eq_false,
    if_neg hserved]

/-- `ctx.give` of energy on operands that pass its checks. -/
theorem giveEnergy_given {n : Nat} {o : CtxOp} {s : State} (hcode : s.childCode o false = 0) (hflags : o.word 2 ≤ 3)
    (hunused : o.unused [2, 3] = true) (hexpl : (s.quotaAfter o.targetOf).1 = true)
    (hsum : (s.quotaAfter o.targetOf).2 + o.word 3 < 2 ^ 63) :
    s.giveEnergy n o = ({ s with quota := s.quota ++ [.grow o.targetOf (o.word 3)] } : State).ctxEnd n 0 0 := by
  have hcode' : ¬ s.childCode o false ≠ 0 := fun h => h hcode
  have hform : ¬ (o.word 2 > 3 ∨ o.unused [2, 3] = false ∨ (s.quotaAfter o.targetOf).1 = false ∨
      (s.quotaAfter o.targetOf).2 + o.word 3 > 2 ^ 63 - 1) := by
    rintro (h | h | h | h)
    · omega
    · exact Bool.false_ne_true (h.symm.trans hunused)
    · exact Bool.false_ne_true (h.symm.trans hexpl)
    · omega
  simp only [State.giveEnergy, if_neg hcode', if_neg hform]

/-! ### `ctx.take` (R408) -/

/-- `ctx.take` of quays on operands that pass its checks. -/
theorem takeQuays_taken {n : Nat} {o : CtxOp} {s : State} (hcode : s.childCode o false = 0) (hflags : o.word 2 / 4 % 64 = 0)
    (hhigh : o.word 2 / 2 ^ 9 = 0) (hunused : o.unused [2, 4, 5, 6, 7] = true)
    (hheld : ∀ q ∈ o.quays, s.holdsQuay o.targetOf q = true) :
    s.takeQuays n o =
      let r := ((s.markNonres o.quays).revoke o.targetOf (s.opTouches o.quays)).beginPreempt o.targetOf o.quays
        ((o.word 2).testBit 8) true
      r.2.ctxAwait n fun x => { x with waits := [r.1], hands := o.quays, count := o.quays.length } := by
  have hcode' : ¬ s.childCode o false ≠ 0 := fun h => h hcode
  have hform : ¬ (o.word 2 / 4 % 64 ≠ 0 ∨ o.word 2 / 2 ^ 9 ≠ 0 ∨ o.unused [2, 4, 5, 6, 7] = false) := by
    simp only [hflags, hhigh, hunused, ne_eq, not_true_eq_false, Bool.true_eq_false, or_self, not_false_eq_true]
  have hall : (o.quays.any fun q => !s.holdsQuay o.targetOf q) = false :=
    List.any_eq_false.mpr fun q hq => by simp [hheld q hq]
  simp only [State.takeQuays, if_neg hcode', if_neg hform, hall, Bool.false_eq_true, if_false]

theorem Leaf.grant_of_mem_halves {l p : Leaf} {size : Nat} (h : p ∈ l.halves size) : p.grant = l.grant := by
  obtain ⟨k, -, rfl⟩ := List.mem_map.mp h
  rfl

theorem Leaf.halves_ne_nil (l : Leaf) (size : Nat) : l.halves size ≠ [] := by
  simp [Leaf.halves]

/-- A leaf that a grant made is cut where that grant's parts go: a part of a non-empty list of them goes. -/
theorem any_of_grant {ps : List Leaf} {k : Nat} (hne : ps ≠ []) (hps : ∀ p ∈ ps, p.grant = k) :
    (ps.any fun p => p.grant == k) = true := by
  obtain ⟨p, hp⟩ := List.exists_mem_of_ne_nil ps hne
  exact List.any_eq_true.mpr ⟨p, hp, by simp [hps p hp]⟩

/-- Nothing that a grant made is left of a leaf of 64 KiB or 2 MiB. -/
theorem Leaf.rest21_not_grant {l p : Leaf} {k : Nat} (h : p ∈ l.rest21 fun x => x.grant == k) : p.grant ≠ k := by
  intro hk
  have hparts : ∀ x ∈ (if l.size = 16 then [l] else l.halves 16), x.grant = l.grant := by
    intro x hx
    split at hx
    · rw [List.mem_singleton.mp hx]
    · exact Leaf.grant_of_mem_halves hx
  have hne : (if l.size = 16 then [l] else l.halves 16) ≠ [] := by
    split
    · exact List.cons_ne_nil _ _
    · exact l.halves_ne_nil 16
  unfold Leaf.rest21 at h
  generalize (if l.size = 16 then [l] else l.halves 16) = ps at h hparts hne
  dsimp only at h
  split at h
  · have hgood := (List.mem_filter.mp h).2
    simp [hk] at hgood
  · next hnone =>
    have hl : l.grant = k := by rw [← hk, List.mem_singleton.mp h]
    exact hnone (any_of_grant hne fun x hx => (hparts x hx).trans hl)

/-- Nothing that a grant made is left of any leaf. -/
theorem Leaf.rest_not_grant {l p : Leaf} {k : Nat} (h : p ∈ l.rest fun x => x.grant == k) : p.grant ≠ k := by
  unfold Leaf.rest at h
  split at h
  · dsimp only at h
    split at h
    · obtain ⟨x, -, hx⟩ := List.mem_flatMap.mp h
      exact Leaf.rest21_not_grant hx
    · next hnone =>
      intro hk
      have hl : l.grant = k := by rw [← hk, List.mem_singleton.mp h]
      obtain ⟨x, hx⟩ := List.exists_mem_of_ne_nil _ (l.halves_ne_nil 21)
      have hxk : x.grant = k := (Leaf.grant_of_mem_halves hx).trans hl
      exact hnone (List.any_eq_true.mpr ⟨x, hx,
        any_of_grant (x.halves_ne_nil 16) fun y hy => (Leaf.grant_of_mem_halves hy).trans hxk⟩)
  · exact Leaf.rest21_not_grant h

/-- The parts of a context's leaves on withdrawn pages go. -/
def leavesCut (onPage : Leaf → Bool) (s : State) (d : Nat) : State :=
  s.setCtx { s.ctx d with leaves := (s.ctx d).leaves.flatMap fun l => l.rest onPage }

/-- Another context stays. -/
theorem leavesCut_other {onPage : Leaf → Bool} {c d : Nat} (hne : d ≠ c) (u : State) :
    ((leavesCut onPage u d).ctx c, (leavesCut onPage u d).ctxLive c) = (u.ctx c, u.ctxLive c) := by
  have hnum : (u.ctx d).num ≠ c := by rwa [ctx_num]
  exact Prod.ext (ctx_setCtx_other hnum) (ctxLive_setCtx ..)

/-- The leaves that one context keeps where parts of its leaves go; the descendants' records are others. -/
theorem clearLeaves_leaves {c : Nat} {bad : Leaf → Bool} {s : State} (hlive : s.ctxLive c = true) :
    ((s.clearLeaves c bad).2.ctx c).leaves = (s.ctx c).leaves.flatMap (·.rest bad) ∧
      (s.clearLeaves c bad).2.ctxLive c = true := by
  have hnum := ctx_num s c
  have hset := ctx_setCtx (s := s) (x := { s.ctx c with leaves := (s.ctx c).leaves.flatMap (·.rest bad) }) hnum hlive
  have hlive' : (s.setCtx { s.ctx c with leaves := (s.ctx c).leaves.flatMap (·.rest bad) }).ctxLive c = true :=
    (ctxLive_setCtx ..).trans hlive
  unfold State.clearLeaves
  dsimp only
  split
  · exact ⟨congrArg Ctx.leaves hset, hlive'⟩
  · have hkept := foldl_keeps_mem (fun u : State => (u.ctx c, u.ctxLive c)) (leavesCut fun l =>
        (((s.ctx c).leaves.flatMap fun l => l.bad bad).map fun l => l.pa / 65536).contains (l.pa / 65536))
      ((s.setCtx { s.ctx c with leaves := (s.ctx c).leaves.flatMap (·.rest bad) }).below c)
      (fun u d hd => leavesCut_other (by simpa using (Bool.and_eq_true_iff.mp (List.mem_filter.mp hd).2).1) u)
      (s.setCtx { s.ctx c with leaves := (s.ctx c).leaves.flatMap (·.rest bad) })
    simp only [Prod.mk.injEq] at hkept
    obtain ⟨hctx, hlive''⟩ := hkept
    exact ⟨(congrArg Ctx.leaves hctx).trans (congrArg Ctx.leaves hset), hlive''.trans hlive'⟩

/-- A record of the context without its run bit: what the grants and leaves are does not change. -/
theorem stopped_keeps (t : Nat) (s : State) (d : Nat) :
    (((s.setCtx { s.ctx d with run := false }).ctx t).grants, ((s.setCtx { s.ctx d with run := false }).ctx t).leaves) =
      ((s.ctx t).grants, (s.ctx t).leaves) := by
  by_cases hd : d = t
  · subst hd
    cases hlive : s.ctxLive d with
    | true => rw [ctx_setCtx (x := { s.ctx d with run := false }) (ctx_num s d) hlive]
    | false => rw [ctx_setCtx_dead (x := { s.ctx d with run := false }) (ctx_num s d) hlive]
  · rw [ctx_setCtx_other (x := { s.ctx d with run := false }) (by rwa [show (s.ctx d).num = d from ctx_num s d])]

/-- A grant leaves a context's record. -/
def grantCut (t k : Nat) (s : State) : State :=
  s.setCtx { s.ctx t with grants := (s.ctx t).grants.filter fun g => g.idx != k }

/-- Contexts whose save areas went are stopped. -/
def lostStopped (lost : List Nat) (s : State) : State := lost.foldl (fun s d => s.setCtx { s.ctx d with run := false }) s

/-- Their pre-emptions begin. -/
def lostBegun (lost : List Nat) (s : State) : List Nat × State :=
  lost.foldl (fun a d => (a.1 ++ [(a.2.beginPreempt d (a.2.subtreeQuays d) true false).1],
    (a.2.beginPreempt d (a.2.subtreeQuays d) true false).2)) ([], s)

theorem lostBegun_ctxs (lost : List Nat) (s : State) : (lostBegun lost s).2.ctxs = s.ctxs :=
  foldl_keeps (fun a : List Nat × State => a.2.ctxs) _ (fun a d => congrArg Prod.fst (beginPreempt_keeps a.2 d _ true false)) lost
    ([], s)

/-- `ctx.take` of a grant: operations end, leaves go, the grant goes, and contexts whose areas lay there stop. -/
theorem takeMemory_eq {n : Nat} {o : CtxOp} {g : Grant} {s : State} (hcode : s.childCode o false = 0)
    (hflags : o.word 2 / 4 % 64 = 0) (hhigh : o.word 2 / 2 ^ 9 = 0) (hunused : o.unused [2, 3] = true)
    (hg : (s.ctx o.targetOf).grants.find? (fun g => g.idx == o.word 3) = some g) :
    ∃ hit lost f, s.takeMemory n o = (lostBegun lost (lostStopped lost (grantCut o.targetOf g.idx
      ((s.revoke o.targetOf hit).clearLeaves o.targetOf fun l => l.grant == g.idx).2))).2.ctxAwait n f := by
  have hcode' : ¬ s.childCode o false ≠ 0 := fun h => h hcode
  have hform : ¬ (o.word 2 / 4 % 64 ≠ 0 ∨ o.word 2 / 2 ^ 9 ≠ 0 ∨ o.unused [2, 3] = false) := by
    simp only [hflags, hhigh, hunused, ne_eq, not_true_eq_false, Bool.true_eq_false, or_self, not_false_eq_true]
  simp only [State.takeMemory, if_neg hcode', if_neg hform, hg]
  exact ⟨_, _, _, rfl⟩

/-- Once the leaves of a grant and the grant have gone, neither comes back. -/
theorem grant_gone {t k : Nat} {r : State} (lost : List Nat) (hlive : r.ctxLive t = true)
    (hleaves : ∀ l ∈ (r.ctx t).leaves, l.grant ≠ k) :
    (∀ h ∈ ((lostStopped lost (grantCut t k r)).ctx t).grants, h.idx ≠ k) ∧
      ∀ l ∈ ((lostStopped lost (grantCut t k r)).ctx t).leaves, l.grant ≠ k := by
  have hcut : (grantCut t k r).ctx t = { r.ctx t with grants := (r.ctx t).grants.filter fun g => g.idx != k } :=
    ctx_setCtx (x := { r.ctx t with grants := (r.ctx t).grants.filter fun g => g.idx != k }) (ctx_num r t) hlive
  have hkept := foldl_keeps (fun u : State => ((u.ctx t).grants, (u.ctx t).leaves)) _ (stopped_keeps t) lost (grantCut t k r)
  simp only [Prod.mk.injEq, hcut] at hkept
  obtain ⟨hgrants, hleft⟩ := hkept
  unfold lostStopped
  rw [hgrants, hleft]
  refine ⟨fun h hh => ?_, hleaves⟩
  simpa using (List.mem_filter.mp hh).2

/-- Neither the grant nor a leaf that it made is left. -/
theorem takeMemory_taken {n : Nat} {o : CtxOp} {g : Grant} {s : State} (hcode : s.childCode o false = 0)
    (hlive : s.ctxLive o.targetOf = true) (hflags : o.word 2 / 4 % 64 = 0) (hhigh : o.word 2 / 2 ^ 9 = 0)
    (hunused : o.unused [2, 3] = true) (hg : (s.ctx o.targetOf).grants.find? (fun g => g.idx == o.word 3) = some g) :
    (∀ h ∈ ((s.takeMemory n o).ctx o.targetOf).grants, h.idx ≠ o.word 3) ∧
      ∀ l ∈ ((s.takeMemory n o).ctx o.targetOf).leaves, l.grant ≠ o.word 3 := by
  have hidx : g.idx = o.word 3 := by simpa using List.find?_some hg
  obtain ⟨hit, lost, f, heq⟩ := takeMemory_eq (n := n) hcode hflags hhigh hunused hg
  have hrevoked : (s.revoke o.targetOf hit).ctxLive o.targetOf = true :=
    (congrArg (List.any · fun x : Ctx => x.num == o.targetOf) (congrArg Prod.fst (revoke_keeps s o.targetOf hit))).trans hlive
  obtain ⟨hleaves, hcleared⟩ := clearLeaves_leaves (bad := fun l => l.grant == g.idx) hrevoked
  have hgone := grant_gone (k := g.idx) lost hcleared fun l hl => by
    rw [hleaves] at hl
    obtain ⟨x, -, hx⟩ := List.mem_flatMap.mp hl
    exact Leaf.rest_not_grant hx
  have hctx : (s.takeMemory n o).ctx o.targetOf = (lostStopped lost (grantCut o.targetOf g.idx
      ((s.revoke o.targetOf hit).clearLeaves o.targetOf fun l => l.grant == g.idx).2)).ctx o.targetOf := by
    rw [heq]
    exact congrArg (tget (fun x : Ctx => x.num == o.targetOf) { num := o.targetOf }) (lostBegun_ctxs lost _)
  rw [hctx, ← hidx]
  exact hgone

/-- A child that passes the checks of TARGET is live. -/
theorem ctxLive_of_childCode {o : CtxOp} {lost : Bool} {s : State} (h : s.childCode o lost = 0) : s.ctxLive o.targetOf = true := by
  by_contra hdead
  have hcode : s.childCode o lost = 1 := if_pos (.inl (Bool.eq_false_iff.mpr hdead))
  exact absurd (h.symm.trans hcode) (by decide)

/-- `ctx.take` of a queue that the child has not given on. -/
theorem takeQueue_taken {n : Nat} {o : CtxOp} {k : Queue} {s : State} (hcode : s.childCode o false = 0)
    (hroot : o.nodeOnRoot = false) (hflags : o.word 2 / 4 % 64 = 0) (hhigh : o.word 2 / 2 ^ 9 = 0)
    (hunused : o.unused [2, 3] = true) (hlow : o.word 3 % 256 = 0) (htop : o.word 3 / 2 ^ 14 = 0)
    (hen : (s.queue o.targetOf (bitsOf (o.word 3) 8 6)).en = true)
    (hlent : (s.queue o.targetOf (bitsOf (o.word 3) 8 6)).lentTo = none)
    (hwait : (s.queue o.targetOf (bitsOf (o.word 3) 8 6)).waitOp = none)
    (hback : (((s.setQueue o.targetOf { n := bitsOf (o.word 3) 8 6 }).revokePosts o.targetOf (bitsOf (o.word 3) 8 6)).ctx
      o.issuer).queues.find? (fun k => k.lentTo == some (o.targetOf, bitsOf (o.word 3) 8 6)) = some k) :
    s.takeQueue n o =
      (((s.setQueue o.targetOf { n := bitsOf (o.word 3) 8 6 }).revokePosts o.targetOf (bitsOf (o.word 3) 8 6)).setQueue o.issuer
        { k with desc := k.withdrawn.getD 0, withdrawn := none, lentTo := none }).ctxEnd n 0 0 := by
  have hform : ¬ (o.word 2 / 4 % 64 ≠ 0 ∨ o.word 2 / 2 ^ 9 ≠ 0 ∨ o.unused [2, 3] = false ∨ o.word 3 % 256 ≠ 0 ∨
      o.word 3 / 2 ^ 14 ≠ 0) := by simp only [hflags, hhigh, hunused, hlow, htop, ne_eq, not_true_eq_false, Bool.true_eq_false, or_self, not_false_eq_true]
  have hchain : s.queueChain o.targetOf (bitsOf (o.word 3) 8 6) 8 = [(o.targetOf, bitsOf (o.word 3) 8 6)] := by
    simp only [State.queueChain, hlent]
  simp only [State.takeQueue, hroot, hcode, Bool.false_eq_true, if_false, ne_eq, not_true_eq_false, if_neg hform, hen,
    Bool.true_eq_false, false_and, hchain, List.any_cons, List.any_nil, hwait, Option.isSome_none, Bool.or_self,
    List.foldl_cons, List.foldl_nil, hback]

/-- `ctx.take` of energy on operands that pass its checks. -/
theorem takeEnergy_taken {n : Nat} {o : CtxOp} {s : State} (hcode : s.childCode o false = 0) (hflags : o.word 2 / 4 % 64 = 0)
    (hhigh : o.word 2 / 2 ^ 9 = 0) (hunused : o.unused [2, 3] = true) :
    s.takeEnergy n o = ({ s with quota := s.quota ++ [.shrink o.targetOf (o.word 3)] } : State).ctxEnd n 0 0 := by
  have hcode' : ¬ s.childCode o false ≠ 0 := fun h => h hcode
  have hform : ¬ (o.word 2 / 4 % 64 ≠ 0 ∨ o.word 2 / 2 ^ 9 ≠ 0 ∨ o.unused [2, 3] = false) := by
    simp only [hflags, hhigh, hunused, ne_eq, not_true_eq_false, Bool.true_eq_false, or_self, not_false_eq_true]
  simp only [State.takeEnergy, if_neg hcode', if_neg hform]

/-- Settles O49: each operation passes its checks, and what it leaves is read off its equation. -/
theorem contextsAreMadeAndGivenTo : Obligations.ContextsAreMadeAndGivenTo := by
  unfold Obligations.ContextsAreMadeAndGivenTo
  intro n o s t x
  refine ⟨?_, ?_, ?_, ?_, ?_, ?_, ?_, ?_, ?_⟩
  · intro c pa w3 hturn htop hunused hpage hend hone hmax hres hhigh hvf hroot hroot' hcaps hfree hdepth hwait hpinned hallow
    obtain ⟨hlive, hctx, hothers⟩ := madeChild_ctx (n := n) (pa := pa) (o := o) hfree
    have hmade := ctxNewAt_made (n := n) htop hunused hpage hend hone hmax hres hhigh hvf hroot hroot' hcaps hfree hdepth
      hwait hpinned hallow
    have ho : s.ctxq[n]? = some o := by
      obtain ⟨ho, -⟩ := hturn
      exact ho
    refine ⟨_, congrArg Host.Outcome.next ((ctxPerform_of_turn hturn rfl _).trans hmade), madeChild_ended ho, hlive, ?_⟩
    rw [hctx]
    exact ⟨rfl, rfl, rfl, rfl, rfl, hothers⟩
  · rintro new ⟨hturn, hcode⟩ hkind hflags hunused hslots hgood
    have hgiven := giveQuays_given (n := n) hcode hflags hunused hslots hgood
    have hkept := foldl_keeps (fun u : State => (u.handovers, u.threads, u.quayCtx)) (slotGiven o.targetOf)
      (slotGiven_keeps o.targetOf) (new.filter fun q => (x.slotOf q).isNone) s
    simp only [Prod.mk.injEq] at hkept
    obtain ⟨hhand, hthreads, hquay⟩ := hkept
    refine ⟨_, congrArg Host.Outcome.next ((ctxPerform_of_turn hturn (by simpa using hkind) _).trans hgiven), ?_, hthreads, hquay⟩
    refine congrArg₂ (· ++ ·) hhand (List.map_congr_left fun q hq => ?_)
    rw [assignee_congr hquay]
  · rintro g ⟨hturn, hcode⟩ hkind hflags hunused hlen hlen0 hva hipa hvaEnd hipaEnd hperm hdisj hcount hlim hg hidx
    exact congrArg Host.Outcome.next ((ctxPerform_of_turn hturn (by simpa using hkind) _).trans
      (giveMemory_given hcode hflags hunused hlen hlen0 hva hipa hvaEnd hipaEnd hperm hdisj hcount hlim hg hidx))
  · rintro mine d new ⟨hturn, hcode⟩ hkind hroot hflags hunused hbits hhigh hd hen hprio hfree hlent
    exact congrArg Host.Outcome.next ((ctxPerform_of_turn hturn (by simpa using hkind) _).trans
      (giveQueue_given hcode hroot hflags hunused hbits hhigh hd hen hprio hfree hlent))
  · rintro ⟨hturn, hcode⟩ hkind hflags hunused hexpl hsum
    exact congrArg Host.Outcome.next ((ctxPerform_of_turn hturn (by simpa using hkind) _).trans
      (giveEnergy_given hcode hflags hunused hexpl hsum))
  · intro s1 r hchild hkind hflags hhigh hunused hheld
    obtain ⟨hturn, hcode⟩ := hchild
    have hsel : (o.kind == 0) = true := by simpa using hkind
    have hexec : exec (.ctxTakeQuays (.perform n)) s = .next (s.takeQuays n o) :=
      congrArg Host.Outcome.next (ctxPerform_of_turn hturn hsel fun o s => s.takeQuays n o)
    have hq : r.2.ctxq = s.ctxq := congrArg Prod.snd ((beginPreempt_keeps s1 t o.quays _ true).trans
      ((revoke_keeps (s.markNonres o.quays) t _).trans rfl))
    have ho : r.2.ctxq[n]? = some o := by
      obtain ⟨ho, -⟩ := hturn
      rw [hq, ho]
    rw [hexec, takeQuays_taken hcode hflags hhigh hunused hheld]
    exact congrArg Host.Outcome.next (ctxAwait_congr ho rfl)
  · rintro g hg ⟨hturn, hcode⟩ hkind hflags hhigh hunused hidx
    obtain ⟨g', hg'⟩ := Option.isSome_iff_exists.mp (List.find?_isSome (p := fun g : Grant => g.idx == o.word 3) |>.mpr
      ⟨g, hg, beq_iff_eq.mpr hidx⟩)
    exact ⟨_, congrArg Host.Outcome.next (ctxPerform_of_turn hturn (by simpa using hkind) _),
      takeMemory_taken hcode (ctxLive_of_childCode hcode) hflags hhigh hunused hg'⟩
  · rintro k cq s1 ⟨hturn, hcode⟩ hkind hroot hflags hhigh hunused hlow htop hen hlent hwait hback
    exact congrArg Host.Outcome.next ((ctxPerform_of_turn hturn (by simpa using hkind) _).trans
      (takeQueue_taken hcode hroot hflags hhigh hunused hlow htop hen hlent hwait hback))
  · rintro ⟨hturn, hcode⟩ hkind hflags hhigh hunused
    exact congrArg Host.Outcome.next ((ctxPerform_of_turn hturn (by simpa using hkind) _).trans
      (takeEnergy_taken hcode hflags hhigh hunused))

end Sys2Proof.Machine

namespace Sys2Proof.Machine
open Sys2Proof.Safety

/-! ### `ctx.map` and renewals (R409, R410) -/

theorem genOf_applyBump (s : State) (p : Nat) : (s.applyBump p).genOf p = s.genOf p + 1 :=
  congrArg GenEntry.gen (tget_tset (fun g : GenEntry => g.page == p) _ _ (beq_self_eq_true p) _)

theorem foldl_add_mono : ∀ (l : List Nat) {a b : Nat}, a ≤ b → l.foldl (· + ·) a ≤ l.foldl (· + ·) b
  | [], _, _, h => h
  | x :: xs, _, _, h => foldl_add_mono xs (Nat.add_le_add_right h x)

/-- Tables that hold leaves have room for none. -/
theorem stageRoom_nil {s : State} {t : Nat} {ls : List Leaf} (h : s.stageRoom t ls = true) : s.stageRoom t [] = true := by
  have hbytes : tableBytes [] ≤ tableBytes ls := by
    change 2048 + 0 + 0 ≤ _
    unfold tableBytes
    dsimp only
    omega
  unfold State.stageRoom at h ⊢
  simp only [decide_eq_true_eq] at h ⊢
  exact (foldl_add_mono _ hbytes).trans h

/-- A context that holds no leaf has none cleared. -/
theorem clearLeaves_of_none {s : State} {c : Nat} {bad : Leaf → Bool} (h : (s.ctx c).leaves = []) :
    s.clearLeaves c bad = ([], s.setCtx { s.ctx c with leaves := [] }) := by
  simp only [State.clearLeaves, h, List.flatMap_nil, List.map_nil, List.isEmpty_nil, if_true]

/-- The end of the recalls of a `ctx.map` keeps contexts and generations. -/
theorem keptEnd_keeps (s : State) (n : Nat) (o : CtxOp) (kept : List Nat) :
    ((s.keptEnd n o kept).ctxs, (s.keptEnd n o kept).gens) = (s.ctxs, s.gens) :=
  foldl_keeps (fun u : State => (u.ctxs, u.gens)) (fun u pg => u.recallEnd (pg * 65536) 65536) (fun _ _ => rfl)
    (o.hands.map (· / 2) ++ kept) s

/-- One 64 KiB page mapped into an empty stage, before the leaf is written. -/
def pageEmptied (n : Nat) (o : CtxOp) (pa : Nat) (s : State) : State :=
  ((s.dropFar (.tables o.issuer)).applyBump (pa / 65536)).keptEnd n o []

/-- The leaf of a page mapped, before it takes its generation. -/
def mappedLeaf (o : CtxOp) (g : Grant) (pa : Nat) : Leaf :=
  { ipa := o.word 2, size := 16, pa := pa, w := (o.word 4).testBit 9, x := (o.word 4).testBit 8, gen := 0, grant := g.idx }

/-- The state with the leaf written, once the parts that it replaces have gone. -/
def leafMapped (n : Nat) (o : CtxOp) (g : Grant) (pa : Nat) (bad : Leaf → Bool) (s : State) : State :=
  let r := (pageEmptied n o pa s).clearLeaves o.targetOf bad
  r.2.setCtx { r.2.ctx o.targetOf with
    leaves := (r.2.ctx o.targetOf).leaves ++ [{ mappedLeaf o g pa with gen := r.2.genOf (pa / 65536) }] }

/-- `ctx.map` of one 64 KiB page on operands that pass its checks. -/
theorem ctxMapAt_of_page {n : Nat} {o : CtxOp} {s : State} (hcode : s.childCode o false = 0)
    (hunused : o.unused [2, 3, 4] = true) (hlow : o.word 4 % 256 = 0) (hhigh : o.word 4 < 1024) (hpage : o.word 2 % 65536 = 0)
    (hlen : o.word 3 = 65536) (hend : o.word 2 + 65536 ≤ 2 ^ 52) (hcount : o.count = 0)
    (hlim : s.bmlim o o.targetOf = .ok none s) :
    s.ctxMapAt n o = s.mapPages n o none 16 ((o.word 4).testBit 9) ((o.word 4).testBit 8) 1 0 := by
  have hcode' : ¬ s.childCode o false ≠ 0 := fun h => h hcode
  have hsize : o.word 4 % 4 = 0 := by omega
  have hshift : mapShift (o.word 4 % 4) = 16 := by rw [hsize]; rfl
  have hbits : bitsOf (o.word 4) 2 6 = 0 := by unfold bitsOf; omega
  have hform : ¬ (o.word 4 % 4 = 3 ∨ o.unused [2, 3, 4] = false ∨ bitsOf (o.word 4) 2 6 ≠ 0 ∨ o.word 4 / 2 ^ 10 ≠ 0 ∨
      o.word 2 % 2 ^ 16 ≠ 0 ∨ 65536 % 2 ^ 16 ≠ 0 ∨ o.word 2 + 65536 > 2 ^ 52) := by
    rintro (h | h | h | h | h | h | h)
    · omega
    · exact Bool.false_ne_true (h.symm.trans hunused)
    · exact h hbits
    · omega
    · exact h hpage
    · exact h rfl
    · omega
  simp only [State.ctxMapAt, if_neg hcode', hshift, if_neg hform, hlim, hlen, hcount, show 65536 / 2 ^ 16 - 0 = 1 from rfl]

/-- A permission asked for that the source and the grant allow. -/
theorem permission_of_allowed {asked source grant : Bool} (h : asked = true → source = true ∧ grant = true) :
    (asked && !(source && grant)) = false := by
  cases asked with
  | false => rfl
  | true =>
    obtain ⟨hs, hg⟩ := h rfl
    rw [hs, hg]
    rfl

/-- The page is mapped: its source is present, no leaf stands there, the tables have room and its generation may move on. -/
theorem mapPages_of_page {n pa : Nat} {o : CtxOp} {pw px : Bool} {g : Grant} {s : State}
    (hgrants : (s.ctx o.targetOf).grants = [g])
    (hlo : g.ipa ≤ o.word 2) (hhi : o.word 2 + 65536 ≤ g.ipa + g.len)
    (hwait : s.walksWait o.issuer (g.va + (o.word 2 - g.ipa)) 1 false = none)
    (hsource : s.mapSource o.issuer (g.va + (o.word 2 - g.ipa)) 16 = some (pa, pw, px))
    (hw : (o.word 4).testBit 9 = true → pw = true ∧ g.w = true) (hx : (o.word 4).testBit 8 = true → px = true ∧ g.x = true)
    (hleaves : (s.ctx o.targetOf).leaves = []) (hready : s.bumpReady (pa / 65536) = true)
    (hroom : ∀ l : Leaf, l.ipa = o.word 2 → l.size = 16 → s.stageRoom o.targetOf [l] = true) :
    ∃ f h, s.mapPages n o none 16 ((o.word 4).testBit 9) ((o.word 4).testBit 8) 1 0 =
      ((leafMapped n o g pa f s).modCtxOp n h).ctxAwait n fun o => { o with count := 1 } := by
  have hgrant : [g].find? (fun g => decide (g.ipa ≤ o.word 2) && decide (o.word 2 + 2 ^ 16 ≤ g.ipa + g.len)) = some g :=
    List.find?_cons_of_pos (by simp [hlo, hhi])
  have hallowed : ((o.word 4).testBit 9 && !(pw && g.w) || (o.word 4).testBit 8 && !(px && g.x)) = false := by
    rw [permission_of_allowed hw, permission_of_allowed hx, Bool.or_self]
  have hpages : (List.range 1).map (pa / 65536 + ·) = [pa / 65536] := rfl
  have hone : (2 : Nat) ^ (16 - 16) = 1 := rfl
  have hempty : (s.dropFar (.tables o.issuer)).stageRoom o.targetOf [] = true :=
    stageRoom_nil (hroom (mappedLeaf o g pa) rfl rfl)
  have hleaf : (s.dropFar (.tables o.issuer)).stageRoom o.targetOf [mappedLeaf o g pa] = true := hroom _ rfl rfl
  have hready' : (s.dropFar (.tables o.issuer)).bumpReady (pa / 65536) = true := hready
  unfold mappedLeaf at hleaf
  simp only [State.mapPages, Nat.zero_mul, Nat.add_zero, hgrants, hgrant, hone, hwait, hsource, hallowed, hleaves, Option.any_none,
    Bool.false_eq_true, if_false, List.flatMap_nil, List.any_nil, List.filter_nil, List.map_nil, List.append_nil, List.nil_append,
    hempty, hleaf, Bool.true_eq_false, State.emptyKept, List.foldl_nil, hpages, List.any_cons, hready', Bool.not_true, decide_false, Bool.or_self, List.foldl_cons]
  exact ⟨_, _, rfl⟩

end Sys2Proof.Machine

namespace Sys2Proof.Machine
open Sys2Proof.Safety

/-! ### What a `ctx.map` leaves (R409) -/

/-- A leaf written into an empty stage stands alone there. -/
theorem leaves_of_appended {u : State} {t : Nat} {bad : Leaf → Bool} (l : State → Leaf)
    (hlive : u.ctxLive t = true) (hnone : (u.ctx t).leaves = []) :
    (((u.clearLeaves t bad).2.setCtx { (u.clearLeaves t bad).2.ctx t with
      leaves := ((u.clearLeaves t bad).2.ctx t).leaves ++ [l (u.clearLeaves t bad).2] }).ctx t).leaves =
        [l (u.clearLeaves t bad).2] := by
  have hcleared : (u.clearLeaves t bad).2 = u.setCtx { u.ctx t with leaves := [] } :=
    congrArg Prod.snd (clearLeaves_of_none hnone)
  generalize (u.clearLeaves t bad).2 = v at hcleared ⊢
  have hctx : v.ctx t = { u.ctx t with leaves := [] } :=
    hcleared ▸ ctx_setCtx (x := { u.ctx t with leaves := [] }) (ctx_num u t) hlive
  have hlive' : v.ctxLive t = true := hcleared ▸ (ctxLive_setCtx u _ t).trans hlive
  have hwritten := ctx_setCtx (s := v) (x := { v.ctx t with leaves := (v.ctx t).leaves ++ [l v] }) (ctx_num v t) hlive'
  rw [hwritten]
  exact congrArg (· ++ [l v]) (congrArg Ctx.leaves hctx)

theorem clearLeaves_genOf {u : State} {t p : Nat} {bad : Leaf → Bool} (hnone : (u.ctx t).leaves = []) :
    (u.clearLeaves t bad).2.genOf p = u.genOf p :=
  congrArg (fun r : List Nat × State => r.2.genOf p) (clearLeaves_of_none (bad := bad) hnone)

/-- The page moves on by one, and its leaf stands alone in the child's stage with the new generation. -/
theorem leafMapped_leaf {n pa : Nat} {o : CtxOp} {g : Grant} {bad : Leaf → Bool} {s : State}
    (hlive : s.ctxLive o.targetOf = true) (hleaves : (s.ctx o.targetOf).leaves = []) :
    (leafMapped n o g pa bad s).genOf (pa / 65536) = s.genOf (pa / 65536) + 1 ∧
      ((leafMapped n o g pa bad s).ctx o.targetOf).leaves =
        [{ mappedLeaf o g pa with gen := s.genOf (pa / 65536) + 1 }] := by
  have hkept := keptEnd_keeps ((s.dropFar (.tables o.issuer)).applyBump (pa / 65536)) n o []
  simp only [Prod.mk.injEq] at hkept
  obtain ⟨hctxs, hgens⟩ := hkept
  have hgen : (pageEmptied n o pa s).genOf (pa / 65536) = s.genOf (pa / 65536) + 1 :=
    (congrArg (fun l => (tget (fun x : GenEntry => x.page == pa / 65536) { page := pa / 65536 } l).gen) hgens).trans
      (genOf_applyBump _ _)
  have hctx : (pageEmptied n o pa s).ctx o.targetOf = s.ctx o.targetOf :=
    congrArg (tget (fun x : Ctx => x.num == o.targetOf) { num := o.targetOf }) hctxs
  have hlive' : (pageEmptied n o pa s).ctxLive o.targetOf = true :=
    (congrArg (List.any · fun x : Ctx => x.num == o.targetOf) hctxs).trans hlive
  have hnone : ((pageEmptied n o pa s).ctx o.targetOf).leaves = [] := by rw [hctx, hleaves]
  unfold leafMapped
  generalize pageEmptied n o pa s = u at *
  have hgen' := (clearLeaves_genOf (p := pa / 65536) (bad := bad) hnone).trans hgen
  exact ⟨hgen', (leaves_of_appended (bad := bad) (fun v => { mappedLeaf o g pa with gen := v.genOf (pa / 65536) })
    hlive' hnone).trans (congrArg (fun k => [{ mappedLeaf o g pa with gen := k }]) hgen')⟩

@[simp] theorem State.modCtxOp_genOf (s : State) (n p : Nat) (f : CtxOp → CtxOp) : (s.modCtxOp n f).genOf p = s.genOf p := rfl
@[simp] theorem State.modCtxOp_ctx (s : State) (n c : Nat) (f : CtxOp → CtxOp) : (s.modCtxOp n f).ctx c = s.ctx c := rfl

/-- `ctx.map` of one page: its generation moves on and its leaf stands in the child's stage. -/
theorem ctxMapAt_maps {n pa : Nat} {o : CtxOp} {pw px : Bool} {g : Grant} {s : State} (hcode : s.childCode o false = 0)
    (hunused : o.unused [2, 3, 4] = true) (hlow : o.word 4 % 256 = 0) (hhigh : o.word 4 < 1024) (hpage : o.word 2 % 65536 = 0)
    (hlen : o.word 3 = 65536) (hend : o.word 2 + 65536 ≤ 2 ^ 52) (hcount : o.count = 0)
    (hlim : s.bmlim o o.targetOf = .ok none s) (hgrants : (s.ctx o.targetOf).grants = [g])
    (hlo : g.ipa ≤ o.word 2) (hhi : o.word 2 + 65536 ≤ g.ipa + g.len)
    (hwait : s.walksWait o.issuer (g.va + (o.word 2 - g.ipa)) 1 false = none)
    (hsource : s.mapSource o.issuer (g.va + (o.word 2 - g.ipa)) 16 = some (pa, pw, px))
    (hw : (o.word 4).testBit 9 = true → pw = true ∧ g.w = true) (hx : (o.word 4).testBit 8 = true → px = true ∧ g.x = true)
    (hleaves : (s.ctx o.targetOf).leaves = []) (hready : s.bumpReady (pa / 65536) = true)
    (hroom : ∀ l : Leaf, l.ipa = o.word 2 → l.size = 16 → s.stageRoom o.targetOf [l] = true) :
    (s.ctxMapAt n o).genOf (pa / 65536) = s.genOf (pa / 65536) + 1 ∧
      ((s.ctxMapAt n o).ctx o.targetOf).leaves = [{ mappedLeaf o g pa with gen := s.genOf (pa / 65536) + 1 }] := by
  obtain ⟨f, h, hmap⟩ := mapPages_of_page (n := n) hgrants hlo hhi hwait hsource hw hx hleaves hready hroom
  have hat := (ctxMapAt_of_page (n := n) hcode hunused hlow hhigh hpage hlen hend hcount hlim).trans hmap
  rw [hat]
  unfold State.ctxAwait
  rw [State.modCtxOp_genOf, State.modCtxOp_genOf, State.modCtxOp_ctx, State.modCtxOp_ctx]
  exact leafMapped_leaf (ctxLive_of_childCode hcode) hleaves

/-! ### `ctx.unmap` and the renewal (R410) -/

/-- A child's range without a leaf whose split finds no room is cleared whole. -/
theorem ctxUnmapAt_of_whole {n : Nat} {o : CtxOp} {s : State} (hcode : s.childCode o false = 0)
    (hunused : o.unused [2, 3] = true) (hpage : o.word 2 % 65536 = 0) (hlen : o.word 3 % 65536 = 0)
    (hend : o.word 2 + o.word 3 ≤ 2 ^ 52) (hstop : s.splitStop o.targetOf (o.word 2) (o.word 2 + o.word 3) = none) :
    s.ctxUnmapAt n o =
      let r := s.clearLeaves o.targetOf fun l => decide (o.word 2 ≤ l.ipa) && decide (l.ipa < o.word 2 + o.word 3)
      r.2.ctxAwait n fun o => { o with code := 0, count := r.1.length, pages := r.1.map fun k => (k, false) } := by
  have hcode' : ¬ s.childCode o false ≠ 0 := fun h => h hcode
  have hform : ¬ (o.unused [2, 3] = false ∨ o.word 2 % 65536 ≠ 0 ∨ o.word 3 % 65536 ≠ 0 ∨ o.word 2 + o.word 3 > 2 ^ 52) := by
    rintro (h | h | h | h)
    · exact Bool.false_ne_true (h.symm.trans hunused)
    all_goals omega
  simp only [State.ctxUnmapAt, if_neg hcode', if_neg hform, hstop, Option.getD_none, Option.isSome_none, Bool.false_eq_true, if_false]

/-- A context's renewal of one of its own pages. -/
theorem ctxRenewAt_renews {n : Nat} {o : CtxOp} {l : Leaf} {s : State} (hissuer : o.issuer ≠ 0) (htop : o.word 0 / 4096 = 0)
    (hunused : o.unused [2, 3] = true) (hpage : o.word 2 % 65536 = 0) (hlen : o.word 3 = 65536) (hend : o.word 2 < 2 ^ 52)
    (hleaf : (s.ctx o.issuer).leafAt (o.word 2) = some l)
    (hready : s.bumpReady ((l.pa + (o.word 2 - l.ipa)) / 65536) = true)
    (hroom : s.stageRoom o.issuer ((s.ctx o.issuer).renewed (o.word 2) 0) = true) :
    s.ctxRenewAt n o =
      let u := s.applyBump ((l.pa + (o.word 2 - l.ipa)) / 65536)
      let g := u.genOf ((l.pa + (o.word 2 - l.ipa)) / 65536)
      (u.setCtx { u.ctx o.issuer with leaves := (u.ctx o.issuer).renewed (o.word 2) g }).ctxEnd n 0 g.toNat := by
  have hform : ¬ (o.word 0 / 4096 ≠ 0 ∨ o.unused [2, 3] = false ∨ o.word 2 % 65536 ≠ 0 ∨ o.word 3 ≠ 65536 ∨ o.word 2 ≥ 2 ^ 52) := by
    rintro (h | h | h | h | h)
    case inr.inl => exact Bool.false_ne_true (h.symm.trans hunused)
    all_goals omega
  simp only [State.ctxRenewAt, if_neg hform, if_neg hissuer, hleaf, Option.map_some, hroom, hready, Bool.true_eq_false, if_false]

theorem ctxRenewAt_gen {n : Nat} {o : CtxOp} {l : Leaf} {s : State} (ho : s.ctxq[n]? = some o) (hissuer : o.issuer ≠ 0)
    (htop : o.word 0 / 4096 = 0)
    (hunused : o.unused [2, 3] = true) (hpage : o.word 2 % 65536 = 0) (hlen : o.word 3 = 65536) (hend : o.word 2 < 2 ^ 52)
    (hleaf : (s.ctx o.issuer).leafAt (o.word 2) = some l)
    (hready : s.bumpReady ((l.pa + (o.word 2 - l.ipa)) / 65536) = true)
    (hroom : s.stageRoom o.issuer ((s.ctx o.issuer).renewed (o.word 2) 0) = true) :
    (s.ctxRenewAt n o).genOf ((l.pa + (o.word 2 - l.ipa)) / 65536) = s.genOf ((l.pa + (o.word 2 - l.ipa)) / 65536) + 1 ∧
      CtxEnded n 0 (s.genOf ((l.pa + (o.word 2 - l.ipa)) / 65536) + 1).toNat (s.ctxRenewAt n o) := by
  rw [ctxRenewAt_renews hissuer htop hunused hpage hlen hend hleaf hready hroom]
  have hgen := genOf_applyBump s ((l.pa + (o.word 2 - l.ipa)) / 65536)
  dsimp only
  rw [hgen]
  exact ⟨hgen, ctxEnded_ctxEnd (by exact ho)⟩

/-! ### `ctx.run` and `ctx.stop` (R411, R412) -/

/-- One context of the subtree whose header is written. -/
def headerZeroed (s : State) (d : Nat) : State := s.header (s.ctx d) 0 (leBytes 8 0)

/-- Ordering restores changes nothing but the list of saves. -/
theorem restores_keep {l : List (Nat × Nat × Nat)} {owner : Nat} {held : Option Nat} (s : State) :
    ((l.foldl (fun s y => s.addRestore y.1 y.2.1 y.2.2 owner held) s).ctxs,
      (l.foldl (fun s y => s.addRestore y.1 y.2.1 y.2.2 owner held) s).threads) = (s.ctxs, s.threads) :=
  foldl_keeps (fun u : State => (u.ctxs, u.threads)) (fun s y => s.addRestore y.1 y.2.1 y.2.2 owner held) (fun _ _ => rfl) l s

/-- A child that `ctx.run` starts without a map of its vaults runs; its threads stay as they are. -/
theorem ctxRunAt_runs {n : Nat} {o : CtxOp} {s : State} (hcode : s.childCode o false = 0) (hunused : o.unused [2] = true)
    (hmap : o.word 2 = 0) (hfresh : (s.ctx o.targetOf).exhausted = false) (hstopped : (s.ctx o.targetOf).run = false)
    (honly : ∀ p ∈ s.preempts, p.only = true) :
    ((s.ctxRunAt n o).ctx o.targetOf).run = true ∧ (s.ctxRunAt n o).threads = s.threads := by
  have hcode' : ¬ s.childCode o false ≠ 0 := fun h => h hcode
  have hform : ¬ (o.unused [2] = false ∨ (0 : Nat) ≥ 2 ^ 56) := by
    rintro (h | h)
    · exact Bool.false_ne_true (h.symm.trans hunused)
    · omega
  have hpre : (s.preempts.any fun p => s.related p.root o.targetOf && !p.only) = false := by
    refine List.any_eq_false.mpr fun p hp => ?_
    rw [honly p hp]
    simp
  have hstate : ∃ (k : CtxOp → CtxOp) (ds : List Nat) (plan : List (Nat × Nat × Nat)) (held : Option Nat), s.ctxRunAt n o =
      (plan.foldl (fun s y => s.addRestore y.1 y.2.1 y.2.2 o.reach held)
        (ds.foldl headerZeroed ((s.dropFar o.waiter).setCtx { s.ctx o.targetOf with run := true }))).ctxAwait n k := by
    simp only [State.ctxRunAt, if_neg hcode', hmap, if_neg hform, hfresh, hstopped, hpre, Bool.false_eq_true, if_false, if_true]
    exact ⟨_, _, _, _, rfl⟩
  obtain ⟨k, ds, plan, held, hstate⟩ := hstate
  rw [hstate]
  have hheads := foldl_keeps State.control headerZeroed (fun s d => header_control s _ 0 _) ds
    ((s.dropFar o.waiter).setCtx { s.ctx o.targetOf with run := true })
  have hrest := restores_keep (l := plan) (owner := o.reach) (held := held)
    (ds.foldl headerZeroed ((s.dropFar o.waiter).setCtx { s.ctx o.targetOf with run := true }))
  simp only [Prod.mk.injEq] at hrest
  obtain ⟨hctxs, hthreads⟩ := hrest
  have hwritten := ctx_setCtx (s := s.dropFar o.waiter) (x := { s.ctx o.targetOf with run := true }) (ctx_num s o.targetOf)
    (ctxLive_of_childCode hcode)
  have hctx := (congrArg (tget (fun x : Ctx => x.num == o.targetOf) { num := o.targetOf }) hctxs).trans
    ((ctx_of_control hheads o.targetOf).trans hwritten)
  refine ⟨congrArg Ctx.run hctx, hthreads.trans ?_⟩
  have hh := holders_of_control hheads
  simp only [Prod.mk.injEq] at hh
  exact hh.2.1

theorem childCode_of_kept {o : CtxOp} {s : State} (h : s.childCode o false = 0) (lost : Bool) : s.childCode o lost = 0 := by
  unfold State.childCode at h ⊢
  dsimp only at h ⊢
  split at h
  · cases h
  · next hlive =>
    split at h
    · cases h
    · next hlost =>
      rw [if_neg hlive, if_neg (fun hl => hlost ⟨hl.1, rfl⟩)]
      exact h

/-- `ctx.stop` on operands that pass its checks. -/
theorem ctxStopAt_stops {n : Nat} {o : CtxOp} {s : State} (hcode : s.childCode o false = 0) (hunused : o.unused [2] = true)
    (hmode : o.word 2 ≤ 3) :
    s.ctxStopAt n o =
      let u := s.setCtx { s.ctx o.targetOf with run := false }
      let r := u.beginPreempt o.targetOf (u.subtreeQuays o.targetOf) (o.word 2 != 0) false
      r.2.ctxAwait n fun o => { o with waits := [r.1] } := by
  have hcode' : ¬ s.childCode o (o.word 2 == 3) ≠ 0 := fun h => h (childCode_of_kept hcode _)
  have hform : ¬ (o.unused [2] = false ∨ o.word 2 > 3) := by
    rintro (h | h)
    · exact Bool.false_ne_true (h.symm.trans hunused)
    · omega
  have hlow : o.word 2 % 4 = o.word 2 := Nat.mod_eq_of_lt (by omega)
  simp only [State.ctxStopAt, hlow, if_neg hcode', if_neg hform]

/-! ### `en.quota` and `dlog` (R413, R415) -/

theorem enQuotaAt_queued {n : Nat} {o : CtxOp} {s : State} (hcode : s.childCode o false = 0) (hunused : o.unused [2, 3] = true)
    (hflag : o.word 2 ≤ 1) (hzero : o.word 2 = 0 → o.word 3 = 0) (hmax : o.word 3 < 2 ^ 63) :
    s.enQuotaAt n o = ({ s with quota := s.quota ++ [.set o.targetOf ((o.word 2).testBit 0) (o.word 3)] } : State).ctxEnd n 0 0 := by
  have hcode' : ¬ s.childCode o false ≠ 0 := fun h => h hcode
  have hform : ¬ (o.unused [2, 3] = false ∨ o.word 2 > 1 ∨ ((o.word 2).testBit 0 = false ∧ o.word 3 ≠ 0) ∨ o.word 3 > 2 ^ 63 - 1) := by
    rintro (h | h | ⟨hbit, h⟩ | h)
    · exact Bool.false_ne_true (h.symm.trans hunused)
    · omega
    · refine h (hzero ?_)
      have hlow : (o.word 2).testBit 0 = decide (o.word 2 % 2 = 1) := Nat.testBit_zero _
      have heven := of_decide_eq_false (hlow.symm.trans hbit)
      omega
    · omega
  simp only [State.enQuotaAt, if_neg hcode', if_neg hform]

/-- `dlog` START as it is performed. -/
theorem dlogStartAt_starts {n : Nat} {o : CtxOp} {bs : List Byte} {s s1 s2 : State} (hcode : s.childCode o false = 0)
    (hunused : o.unused [2, 3] = true) (hon : o.word 3 = 1) (hline : o.word 2 % 64 = 0) (hend : o.word 2 < 2 ^ 56)
    (hread : s.ctxLine o o.issuer (o.word 2) 64 = .ok bs s1)
    (hgrants : ∀ g ∈ (s.ctx o.targetOf).grants, g.ipa + g.len ≤ leNat (bs.drop 56))
    (hleaves : ∀ l ∈ (s.ctx o.targetOf).leaves, l.ipa + 2 ^ l.size ≤ leNat (bs.drop 56))
    (hwrite : s1.hwWrite o.waiter o.issuer (o.word 2) (leBytes 8 (leNat (bs.take 8) / 4 * 4 + 1)) = .done s2) :
    s.dlogStartAt n o =
      let u := (s2.dropFar o.waiter).setCtx { s2.ctx o.targetOf with dlog := BitVec.ofNat 64 (o.word 2 + 1) }
      ({ u with tlb := (u.tlb.filter fun e => e.ctx != o.targetOf || e.size == 16).map fun e =>
        if e.ctx = o.targetOf then { e with seen := false } else e } : State).ctxEnd n 0 0 := by
  have hcode' : ¬ s.childCode o false ≠ 0 := fun h => h hcode
  have hform : ¬ (o.unused [2, 3] = false ∨ o.word 3 ≠ 1 ∨ o.word 2 % 64 ≠ 0 ∨ o.word 2 ≥ 2 ^ 56) := by
    rintro (h | h | h | h)
    · exact Bool.false_ne_true (h.symm.trans hunused)
    all_goals omega
  have hgrants' : ((s.ctx o.targetOf).grants.any fun g => decide (g.ipa + g.len > leNat (bs.drop 56))) = false :=
    List.any_eq_false.mpr fun g hg => by simpa using hgrants g hg
  have hleaves' : ((s.ctx o.targetOf).leaves.any fun l => decide (l.ipa + 2 ^ l.size > leNat (bs.drop 56))) = false :=
    List.any_eq_false.mpr fun l hl => by simpa using hleaves l hl
  simp only [State.dlogStartAt, if_neg hcode', if_neg hform, hread, hgrants', hleaves', Bool.or_self, Bool.false_eq_true,
    if_false, hwrite]

/-- What `dlog` START leaves: the new descriptor, and cached translations that note their next write. -/
theorem dlogStartAt_leaves {n : Nat} {o : CtxOp} {bs : List Byte} {s s1 s2 : State} (ho : s.ctxq[n]? = some o)
    (hcode : s.childCode o false = 0)
    (hunused : o.unused [2, 3] = true) (hon : o.word 3 = 1) (hline : o.word 2 % 64 = 0) (hend : o.word 2 < 2 ^ 56)
    (hread : s.ctxLine o o.issuer (o.word 2) 64 = .ok bs s1)
    (hgrants : ∀ g ∈ (s.ctx o.targetOf).grants, g.ipa + g.len ≤ leNat (bs.drop 56))
    (hleaves : ∀ l ∈ (s.ctx o.targetOf).leaves, l.ipa + 2 ^ l.size ≤ leNat (bs.drop 56))
    (hwrite : s1.hwWrite o.waiter o.issuer (o.word 2) (leBytes 8 (leNat (bs.take 8) / 4 * 4 + 1)) = .done s2) :
    (s.dlogStartAt n o).mem = s2.mem ∧
      (s2.ctxLive o.targetOf = true → ((s.dlogStartAt n o).ctx o.targetOf).dlog = BitVec.ofNat 64 (o.word 2 + 1)) ∧
      (∀ e ∈ (s.dlogStartAt n o).tlb, e.ctx = o.targetOf → e.size = 16 ∧ e.seen = false) ∧
      (s2.ctxq = s.ctxq → CtxEnded n 0 0 (s.dlogStartAt n o)) := by
  rw [dlogStartAt_starts (n := n) hcode hunused hon hline hend hread hgrants hleaves hwrite]
  refine ⟨rfl, fun hlive => ?_, fun e he hctx => ?_, fun hq => ?_⟩
  · exact congrArg Ctx.dlog (ctx_setCtx (s := s2.dropFar o.waiter)
      (x := { s2.ctx o.targetOf with dlog := BitVec.ofNat 64 (o.word 2 + 1) }) (ctx_num s2 o.targetOf) hlive)
  · obtain ⟨e', he', rfl⟩ := List.mem_map.mp he
    have hkept := (List.mem_filter.mp he').2
    by_cases hctx' : e'.ctx = o.targetOf
    · rw [if_pos hctx']
      exact ⟨by simpa [hctx'] using hkept, rfl⟩
    · rw [if_neg hctx'] at hctx
      exact absurd hctx hctx'
  · exact ctxEnded_ctxEnd (o := o) (by exact (congrArg (·[n]?) hq).trans ho)

/-- The state once a child's log is off. -/
def dlogOff (n : Nat) (o : CtxOp) (s : State) : State :=
  ((s.dropFar o.waiter).setCtx { s.ctx o.targetOf with dlog := (s.ctx o.targetOf).dlog &&& ~~~1#64 }).ctxEnd n 0 0

theorem dlogStopAt_off {n : Nat} {o : CtxOp} {s : State} (hcode : s.childCode o false = 0)
    (hunused : o.unused [2, 3] = true) (hoff : o.word 3 = 0) (hline : o.word 2 % 64 = 0) (hend : o.word 2 < 2 ^ 56) :
    ((s.ctx o.targetOf).dlog.getLsbD 0 = false → s.dlogStopAt n o = dlogOff n o s) ∧
      ∀ bs s1 s2, (s.ctx o.targetOf).dlog.getLsbD 0 = true →
        s.ctxLine o o.issuer (((s.ctx o.targetOf).dlog.extractLsb' 6 50).toNat * 64) 8 = .ok bs s1 →
        s1.hwWrite o.waiter o.issuer (((s.ctx o.targetOf).dlog.extractLsb' 6 50).toNat * 64) (leBytes 8 (leNat bs / 2 * 2)) =
          .done s2 →
        s.dlogStopAt n o = dlogOff n o s2 := by
  have hcode' : ¬ s.childCode o false ≠ 0 := fun h => h hcode
  have hform : ¬ (o.unused [2, 3] = false ∨ o.word 3 ≠ 0 ∨ o.word 2 % 64 ≠ 0 ∨ o.word 2 ≥ 2 ^ 56) := by
    rintro (h | h | h | h)
    · exact Bool.false_ne_true (h.symm.trans hunused)
    all_goals omega
  refine ⟨fun hen => ?_, fun bs s1 s2 hen hread hwrite => ?_⟩
  · simp only [State.dlogStopAt, if_neg hcode', if_neg hform, hen, if_true]
    rfl
  · simp only [State.dlogStopAt, if_neg hcode', if_neg hform, hen, Bool.true_eq_false, if_false, hread, hwrite]
    rfl

/-! ### `part.chg` and the report (R404, R428) -/

/-- A change list that passes its check. -/
theorem partChgAt_of_checked {n : Nat} {o : CtxOp} {bs : List (BitVec 256)} {s s1 : State} (htarget : o.targetOf = 0)
    (hissuer : o.issuer = 0) (htop : o.word 0 / 4096 = 0) (hunused : o.unused [2, 3] = true) (hline : o.word 2 % 32 = 0)
    (hend : o.word 2 < 2 ^ 56) (hone : 1 ≤ o.word 3) (hmax : o.word 3 ≤ 256)
    (hread : s.changeList o (o.word 2) (o.word 3) = .ok bs s1)
    (hcheck : (s1.dropFar o.waiter).checkList (s1.dropFar o.waiter).partState (bs.map changeEntry) 0 = none) :
    s.partChgAt n o = (s1.dropFar o.waiter).modCtxOp n fun o =>
      { o with phase := 2, hands := (bs.map changeEntry).flatMap fun e => e.elim [] (·.quays), count := 0, list := bs } := by
  have hroot : ¬ (o.targetOf ≠ 0 ∨ o.issuer ≠ 0) := by omega
  have hform : ¬ (o.word 0 / 4096 ≠ 0 ∨ o.unused [2, 3] = false ∨ o.word 2 % 32 ≠ 0 ∨ o.word 2 ≥ 2 ^ 56 ∨ o.word 3 = 0 ∨
      o.word 3 > 256) := by
    rintro (h | h | h | h | h | h)
    case inr.inl => exact Bool.false_ne_true (h.symm.trans hunused)
    all_goals omega
  simp only [State.partChgAt, if_neg hroot, if_neg hform, hread, hcheck]

/-- The report to the control node. -/
theorem ctxReport_node {n : Nat} {tag : BitVec 16} {o : CtxOp} {s : State} (hsrc : o.src = .node tag) :
    s.ctxReport n o = (s.dropCtxOp n).send 0x82 o.issuer tag.toNat
      (leBytes 8 0 ++ leBytes 8 o.count ++ leBytes 4 o.code ++ leBytes 4 (if o.func = 0x20 then o.target else o.targetOf)) := by
  simp only [State.ctxReport, hsrc]

/-- The report in a vault that is open. -/
theorem ctxReport_op {n id : Nat} {o : CtxOp} {e : EngOp} {s : State} (hsrc : o.src = .op id) (hop : s.op? id = some e)
    (hawake : s.opAwake e = true) (hstatus : e.status ≤ 1) (hopen : VaultOpen e.quay e.a.toNat 16 s) :
    s.ctxReport n o =
      let s1 := (s.chargeVault e.quay e.ctx 16).vstore e.quay (e.a.toNat + 8) (leBytes 4 o.code ++ leBytes 4 o.count) false
      ((if o.func = 0x20 ∧ o.code = 0 then
        s1.vstore e.quay e.a.toNat (leBytes 8 (if o.func = 0x20 then o.target else o.targetOf)) false else s1).dropCtxOp n).endOp id 0 := by
  have hrunning : e.finished = false := by
    cases hfin : e.finished with
    | false => rfl
    | true => exact absurd hawake (by simp [State.opAwake, hfin])
  simp only [State.ctxReport, hsrc, hop, hrunning, hawake, if_neg (Nat.not_lt.mpr hstatus), opBank_of_open hopen,
    Bool.false_eq_true, Bool.true_eq_false, if_false]

/-- Settles O50. -/
theorem contextsAreMappedAndRun : Obligations.ContextsAreMappedAndRun := by
  unfold Obligations.ContextsAreMappedAndRun
  intro n o s
  dsimp only
  refine ⟨?map, ?unmap, ?renew, ?run, ?stop, ?quota, ?dlogStart, ?dlogStop, ?part, ?node, ?op⟩
  case map =>
    intro pa pw px g _ hturn hunused hlow hhigh hpage hlen hend hcount hgrants hlo hhi hwait hsource hw hx hlim hleaves hready hroom
    obtain ⟨hturn, hcode⟩ := hturn
    exact ⟨_, congrArg Host.Outcome.next (ctxPerform_of_turn hturn rfl fun o s => s.ctxMapAt n o),
      ctxMapAt_maps hcode hunused hlow hhigh hpage hlen hend hcount hlim hgrants hlo hhi hwait hsource hw hx hleaves hready hroom⟩
  case unmap =>
    rintro ⟨hturn, hcode⟩ hother hunused hpage hlen hend hstop
    exact congrArg Host.Outcome.next
      ((ctxPerform_of_turn (sel := fun o => o.targetOf != o.issuer) hturn (bne_iff_ne.mpr hother) fun o s => s.ctxUnmapAt n o).trans
        (ctxUnmapAt_of_whole hcode hunused hpage hlen hend hstop))
  case renew =>
    intro l hturn hself hissuer htop hunused hpage hlen hend hleaf hready hroom
    rw [hself] at hleaf hroom
    exact ⟨_, congrArg Host.Outcome.next (ctxPerform_of_turn (sel := fun o => o.targetOf == o.issuer) hturn (beq_iff_eq.mpr hself) fun o s => s.ctxRenewAt n o),
      ctxRenewAt_gen hturn.1 hissuer htop hunused hpage hlen hend hleaf hready hroom⟩
  case run =>
    rintro ⟨hturn, hcode⟩ hunused hmap hfresh hstopped honly
    exact ⟨_, congrArg Host.Outcome.next (ctxPerform_of_turn hturn rfl fun o s => s.ctxRunAt n o),
      ctxRunAt_runs hcode hunused hmap hfresh hstopped honly⟩
  case stop =>
    rintro ⟨hturn, hcode⟩ hunused
    have hstop : ∀ sel : CtxOp → Bool, sel o = true → o.word 2 ≤ 3 →
        s.ctxPerform n 0x50 sel (fun o s => s.ctxStopAt n o) = _ := fun sel hsel hmode =>
      (ctxPerform_of_turn hturn hsel fun o s => s.ctxStopAt n o).trans (ctxStopAt_stops hcode hunused hmode)
    refine ⟨fun hmode => ?_, fun hmode => ?_, fun hmode => ?_⟩
    · exact congrArg Host.Outcome.next (hstop (fun o => decide (o.word 2 % 4 < 2)) (by simp; omega) (by omega))
    · refine congrArg Host.Outcome.next ((hstop (fun o => o.word 2 % 4 == 2) (by simp [hmode]) (by omega)).trans ?_)
      rw [hmode]
      rfl
    · refine congrArg Host.Outcome.next ((hstop (fun o => o.word 2 % 4 == 3) (by simp [hmode]) (by omega)).trans ?_)
      rw [hmode]
      rfl
  case quota =>
    rintro ⟨hturn, hcode⟩ hunused hflag hzero hmax
    exact congrArg Host.Outcome.next ((ctxPerform_of_turn hturn rfl fun o s => s.enQuotaAt n o).trans
      (enQuotaAt_queued hcode hunused hflag hzero hmax))
  case dlogStart =>
    rintro bs s1 s2 ⟨hturn, hcode⟩ hunused hon hline hend hread hgrants hleaves hwrite
    exact ⟨_, congrArg Host.Outcome.next (ctxPerform_of_turn (sel := fun o => (o.word 3).testBit 0) hturn (by simp [hon]) fun o s => s.dlogStartAt n o),
      dlogStartAt_leaves hturn.1 hcode hunused hon hline hend hread hgrants hleaves hwrite⟩
  case dlogStop =>
    rintro ⟨hturn, hcode⟩ hunused hoff hline hend
    have hperform := ctxPerform_of_turn (sel := fun o => !(o.word 3).testBit 0) hturn (by simp [hoff]) fun o s => s.dlogStopAt n o
    obtain ⟨hdark, hlit⟩ := dlogStopAt_off (n := n) hcode hunused hoff hline hend
    exact ⟨fun hen => congrArg Host.Outcome.next (hperform.trans (hdark hen)),
      fun bs s1 s2 hen hread hwrite => congrArg Host.Outcome.next (hperform.trans (hlit bs s1 s2 hen hread hwrite))⟩
  case part =>
    intro bs s1 hturn htarget hissuer htop hunused hline hend hone hmax hread hcheck
    exact congrArg Host.Outcome.next ((ctxPerform_of_turn hturn rfl fun o s => s.partChgAt n o).trans
      (partChgAt_of_checked htarget hissuer htop hunused hline hend hone hmax hread hcheck))
  case node =>
    intro tag ho hphase hareas hsrc
    refine congrArg Host.Outcome.next ?_
    simp only [ho, hphase, hareas, Bool.false_eq_true, if_false]
    exact ctxReport_node hsrc
  case op =>
    intro id e ho hphase hareas hsrc hop hawake hstatus hopen
    refine congrArg Host.Outcome.next ?_
    simp only [ho, hphase, hareas, Bool.false_eq_true, if_false]
    refine (ctxReport_op hsrc hop hawake hstatus hopen).trans ?_
    by_cases hnew : o.func = 0x20
    · simp only [if_pos hnew]
    · simp only [hnew, false_and, if_false]

end Sys2Proof.Machine

namespace Sys2Proof.Machine
open Sys2Proof.Safety

/-! ### The tick and its charges (R437, R440, R441) -/

/-- A tick that is due. -/
theorem tick_of_due {s : State} (h : tickCycles * (s.dev.ticks + 1) ≤ s.clock) :
    exec .tick s = .next (s.quota.foldl State.applyQuota
      { s with dev := { s.dev with ticks := s.dev.ticks + 1 }, quota := [] }).staticCharges.applyCharges :=
  congrArg Host.Outcome.next (if_neg (Nat.not_lt.mpr h))

theorem tick_of_early {s : State} (h : s.clock < tickCycles * (s.dev.ticks + 1)) : exec .tick s = .next s :=
  congrArg Host.Outcome.next (if_pos h)

/-- The record of a context after a charge of whole nanojoules. -/
def Ctx.charged (x : Ctx) (nj : Nat) : Ctx :=
  { x with used := x.used + BitVec.ofNat 64 nj, remain := if x.expl then x.remain - nj else x.remain }

/-- A charge goes on to the parent. -/
theorem chargeUp_of_child {s : State} {c nj k : Nat} (hc : c ≠ 0) :
    s.chargeUp c nj (k + 1) = (s.setCtx ((s.ctx c).charged nj)).chargeUp (s.ctx c).parent nj k := if_neg hc

/-- It ends at context 0. -/
theorem chargeUp_of_root (s : State) (nj k : Nat) : s.chargeUp 0 nj (k + 1) = s.setCtx ((s.ctx 0).charged nj) := rfl

theorem charged_ctx {s : State} {c : Nat} (nj : Nat) (hlive : s.ctxLive c = true) :
    (s.setCtx ((s.ctx c).charged nj)).ctx c = (s.ctx c).charged nj :=
  ctx_setCtx (ctx_num s c) hlive

theorem charged_other {s : State} {c d : Nat} (nj : Nat) (h : d ≠ c) :
    (s.setCtx ((s.ctx c).charged nj)).ctx d = s.ctx d :=
  ctx_setCtx_other fun hnum => h (hnum.symm.trans (ctx_num s c))

theorem Ctx.charged_remain {x : Ctx} (nj : Nat) (h : x.expl = true) : (x.charged nj).remain = x.remain - nj := if_pos h

theorem Ctx.charged_remain_free {x : Ctx} (nj : Nat) (h : x.expl = false) : (x.charged nj).remain = x.remain :=
  if_neg (Bool.eq_false_iff.mp h)

theorem applyQuota_set {s : State} {c : Nat} (hlive : s.ctxLive c = true) (e : Bool) (r : Nat) :
    (s.applyQuota (.set c e r)).ctx c = { s.ctx c with expl := e, remain := r } := by
  have happlied : s.applyQuota (.set c e r) = s.setCtx { s.ctx c with expl := e, remain := r } := if_pos hlive
  rw [happlied]
  exact ctx_setCtx (x := { s.ctx c with expl := e, remain := r }) (ctx_num s c) hlive

/-! ### Power and temperature (R24, R463) -/

/-- A window of 1 ms with its mean power adds a step, removes one, or keeps them. -/
theorem powerWindow_steps (x : Nat) (s : State) :
    let d := { s.dev with thrcyc := (s.dev.thrcyc + s.dev.throttle * 206250 * 256) % 2 ^ 64 }
    (3000000 < x → exec (.powerWindow x) s = .next { s with dev := { d with throttle := min 4 (d.throttle + 1) } }) ∧
    (x < 2900000 → s.dev.hot = [] → exec (.powerWindow x) s = .next { s with dev := { d with throttle := d.throttle - 1 } }) ∧
    (2900000 ≤ x → x ≤ 3000000 → s.dev.hot = [] → exec (.powerWindow x) s = .next { s with dev := d }) := by
  intro d
  refine ⟨fun h => congrArg Host.Outcome.next ?_, fun h hcold => congrArg Host.Outcome.next ?_,
    fun hlo hhi hcold => congrArg Host.Outcome.next ?_⟩
  · simp only [gt_iff_lt, h, true_or, if_true, d]
  · have hbelow : ¬ (x > 3000000 ∨ d.hot.isEmpty = false) := by simp [d, hcold]; omega
    simp only [d] at hbelow
    simp only [d, if_neg hbelow, if_pos h]
  · have hbelow : ¬ (x > 3000000 ∨ d.hot.isEmpty = false) := by simp [d, hcold]; omega
    simp only [d] at hbelow
    simp only [d, if_neg hbelow, if_neg (Nat.not_lt.mpr hlo)]

/-- A hot die adds a step, a die that has cooled takes its mark and the last mark its step away. -/
theorem thermalThrottle_steps (die x : Nat) (s : State) :
    (95 ≤ x → exec (.thermalThrottle die x) s = .next { s with dev := { s.dev with
      hot := addOnce die s.dev.hot, throttle := min 4 (s.dev.throttle + 1) } }) ∧
    (x < 90 → s.dev.hot = [die] → exec (.thermalThrottle die x) s =
      .next { s with dev := { s.dev with hot := [], throttle := s.dev.throttle - 1 } }) ∧
    (x < 90 → s.dev.hot.contains die = false → exec (.thermalThrottle die x) s = .next s) ∧
    (90 ≤ x → x < 95 → exec (.thermalThrottle die x) s = .next s) := by
  have hcool : x < 95 → ¬ x ≥ 95 := Nat.not_le.mpr
  refine ⟨fun h => congrArg Host.Outcome.next (if_pos h), fun h hhot => congrArg Host.Outcome.next ?_,
    fun h hhot => congrArg Host.Outcome.next ?_, fun hlo hhi => congrArg Host.Outcome.next ?_⟩
  · have hmarked : x < 90 ∧ s.dev.hot.contains die = true := ⟨h, by simp [hhot]⟩
    have hnone : [die].filter (· != die) = [] := by simp
    rw [if_neg (hcool (by omega)), if_pos hmarked]
    simp only [hhot, hnone, List.isEmpty_nil, if_true]
  · rw [if_neg (hcool (by omega)), if_neg fun hm => Bool.false_ne_true (hhot.symm.trans hm.2)]
  · rw [if_neg (hcool hhi), if_neg fun hm => Nat.not_lt.mpr hlo hm.1]

/-- A die at 110 °C stops every context and tells the control node; once all is saved the module is held in reset. -/
theorem thermalTrip_steps (die x : Nat) (s : State) :
    (110 ≤ x → s.dev.tripped = false →
      let t : State := { s with dev := { s.dev with tripped := true } }
      let u := (t.beginPreempt 0 (List.range 256) true false).2
      exec (.thermalTrip die x) s = .next (u.send 0x86 0 0
        (leBytes 8 0 ++ leBytes 8 (u.ctx 0).used.toNat ++ leBytes 8 u.clock))) ∧
    (110 ≤ x → s.dev.tripped = true → s.preempts = [] → s.saves = [] →
      exec (.thermalTrip die x) s = .next { s with dev := { s.dev with inReset := true } }) ∧
    (x < 110 → exec (.thermalTrip die x) s = .next s) := by
  refine ⟨fun h hfirst => congrArg Host.Outcome.next ?_, fun h htripped hpre hsaves => congrArg Host.Outcome.next ?_,
    fun h => congrArg Host.Outcome.next (if_pos h)⟩
  · rw [if_neg (Nat.not_lt.mpr h), if_neg (Bool.eq_false_iff.mp hfirst)]
  · rw [if_neg (Nat.not_lt.mpr h), if_pos htripped]
    simp only [State.tripTurn, htripped, hpre, hsaves, List.isEmpty_nil, Bool.and_self, if_true]

/-- Settles O54. -/
theorem ticksPowerAndHeat : Obligations.TicksPowerAndHeat := by
  unfold Obligations.TicksPowerAndHeat
  refine ⟨fun s c nj k => ⟨tick_of_due, tick_of_early, fun hlive hc hexpl => ?_, fun hlive hfree => ?_, fun e r hlive => ?_⟩,
    fun x die s => ?_⟩
  · have hctx := charged_ctx nj hlive
    exact ⟨_, chargeUp_of_child hc, congrArg Ctx.used hctx, (congrArg Ctx.remain hctx).trans (Ctx.charged_remain nj hexpl),
      fun d hd => charged_other nj hd⟩
  · rw [chargeUp_of_root, charged_ctx nj hlive]
    exact ⟨rfl, Ctx.charged_remain_free nj hfree⟩
  · rw [applyQuota_set hlive]
    exact ⟨rfl, rfl⟩
  · obtain ⟨hadd, hremove, hkeep⟩ := powerWindow_steps x s
    obtain ⟨hhot, hcool, hunmarked, hbetween⟩ := thermalThrottle_steps die x s
    obtain ⟨htrip, hreset, hbelow⟩ := thermalTrip_steps die x s
    exact ⟨hadd, hremove, hkeep, hhot, hcool, hunmarked, hbetween, htrip, hreset, hbelow⟩

end Sys2Proof.Machine

namespace Sys2Proof.Machine
open Sys2Proof.Safety

/-! ### Frames of a peer (R71, R450, R451) -/

/-- A cached line that goes back keeps memory and the accesses of other modules. -/
theorem putBack_keeps (s : State) (h line : Nat) :
    ((s.putBack h line).mem, (s.putBack h line).remotes) = (s.mem, s.remotes) := by
  unfold State.putBack
  dsimp only
  split
  · rfl
  · rfl

theorem fitL1_keeps (s : State) (h : Nat) : ((s.fitL1 h).mem, (s.fitL1 h).remotes) = (s.mem, s.remotes) := by
  unfold State.fitL1
  dsimp only
  split
  · rfl
  · split
    · exact putBack_keeps s h _
    · split <;> rfl

theorem addReplica_keeps (s : State) (r : Replica) : ((s.addReplica r).mem, (s.addReplica r).remotes) = (s.mem, s.remotes) := by
  unfold State.addReplica
  split <;> rfl

/-- So does a replica that is installed. -/
theorem installReplica_keeps (s : State) (r : Replica) (q : Nat) :
    ((s.installReplica r q).mem, (s.installReplica r q).remotes) = (s.mem, s.remotes) := by
  unfold State.installReplica
  dsimp only
  rw [fitL1_keeps]
  split
  · exact (addReplica_keeps _ _).trans (addReplica_keeps s r)
  · exact addReplica_keeps s r

/-- One access of this module to which another module's frozen line comes. -/
def replicaFor (gen : BitVec 8) (bs : List Byte) (md : LineMeta) (s : State) (r : Remote) : State :=
  match if r.noalloc then none else s.cacheOf r.who with
  | some (h, q) => s.installReplica { holder := h, line := r.pa / 128, gen := gen, md := md, bytes := bs } q
  | none => s

theorem replicaFor_keeps (gen : BitVec 8) (bs : List Byte) (md : LineMeta) (s : State) (r : Remote) :
    ((replicaFor gen bs md s r).mem, (replicaFor gen bs md s r).remotes) = (s.mem, s.remotes) := by
  unfold replicaFor
  split
  · exact installReplica_keeps s _ _
  · rfl

/-- A frozen line that comes reaches the accesses that asked for it. -/
theorem farReplica_reaches (s : State) (peer tag : Nat) (gen : BitVec 8) (bs : List Byte) (md : LineMeta) :
    (s.farReplica peer tag gen bs md).mem = s.mem ∧ (s.farReplica peer tag gen bs md).remotes =
      tmod (fun r => r.peer == peer && r.tag == tag && r.answer.isNone)
        (fun r => { r with answer := some ((bs.drop (r.pa % 128)).take r.size), md := md }) s.remotes := by
  have hkept := foldl_keeps (fun u : State => (u.mem, u.remotes)) (replicaFor gen bs md) (replicaFor_keeps gen bs md)
    (s.remotes.filter fun r => r.peer == peer && r.tag == tag && r.answer.isNone) s
  simp only [Prod.mk.injEq] at hkept
  obtain ⟨hmem, hremotes⟩ := hkept
  exact ⟨hmem, congrArg (tmod _ _) hremotes⟩

/-! ### Sweeps (R94) -/

/-- A sweep that has ended leaves the list; the others stay. -/
theorem sweepEnd_subset (s : State) (page : Nat) : ∀ w ∈ (s.sweepEnd page).sweeps, w ∈ s.sweeps := by
  intro w hw
  unfold State.sweepEnd at hw
  split at hw
  · have hkept : w ∈ s.sweeps.filter fun w => w.page != page := by
      dsimp only at hw
      split at hw <;> exact hw
    exact (List.mem_filter.mp hkept).1
  · exact hw

/-- A sweep whose answers of a peer count as given waits for that peer no more. -/
theorem sweeps_without {s : State} {page peer : Nat} {drop : Nat × Nat → Bool}
    (hdrop : ∀ w ∈ s.sweeps, ∀ p ∈ w.peers, p.1 = peer → drop p = true) (t : State)
    (ht : t.sweeps = tmod (fun w => w.page == page) (fun w => { w with peers := w.peers.filter fun p => !drop p }) s.sweeps) :
    ∀ w ∈ (t.sweepEnd page).sweeps, w.page = page → ∀ p ∈ w.peers, p.1 ≠ peer := by
  intro w hw hpage p hp hpeer
  obtain ⟨w', hw', rfl⟩ := List.mem_map.mp (ht ▸ sweepEnd_subset t page w hw)
  by_cases hpage' : (w'.page == page) = true
  · rw [if_pos hpage'] at hp
    obtain ⟨hp', hkept⟩ := List.mem_filter.mp hp
    rw [hdrop w' hw' p hp' hpeer] at hkept
    cases hkept
  · rw [if_neg hpage'] at hpage
    exact hpage' (beq_iff_eq.mpr hpage)

/-! ### A peer that is lost (R451) -/

/-- Route words of a peer with V cleared. -/
theorem routes_cleared (routes : List (Nat × BitVec 64)) (peer : Nat) :
    ∀ r ∈ routes.map (fun r => if r.1 = peer then (r.1, r.2 &&& ~~~(1#64 <<< 63)) else r), r.1 = peer →
      r.2.getLsbD 63 = false := by
  intro r hr hpeer
  obtain ⟨r', -, rfl⟩ := List.mem_map.mp hr
  by_cases hr' : r'.1 = peer
  · rw [if_pos hr']
    have hv : (~~~(1#64 <<< 63)).getLsbD 63 = false := by decide
    simp only [BitVec.getLsbD_and, hv, Bool.and_false]
  · rw [if_neg hr'] at hpeer
    exact absurd hpeer hr'

/-- Its accesses without an answer are refused. -/
theorem remotes_refused (remotes : List Remote) (peer : Nat) :
    ∀ r ∈ tmod (fun r => r.peer == peer && r.answer.isNone) (fun r : Remote => { r with cause := some cNoMem }) remotes,
      r.peer = peer → r.answer.isSome = true ∨ r.cause = some cNoMem := by
  intro r hr hpeer
  obtain ⟨r', -, rfl⟩ := List.mem_map.mp hr
  by_cases hr' : (r'.peer == peer && r'.answer.isNone) = true
  · rw [if_pos hr']
    exact .inr rfl
  · rw [if_neg hr'] at hpeer ⊢
    left
    simpa [hpeer, Option.isSome_iff_ne_none] using hr'

/-- A peer that was silent for 50 µs is lost: its route, its replicas and its accesses go. -/
theorem peerLost_clears {s : State} {peer : Nat} (hpeer : s.peers.contains peer = true)
    (hsilent : kvGet peer 0 s.domain.lastFrame + 50 * usCycles ≤ s.clock) :
    ∃ u, exec (.peerLost peer) s = .next u ∧ (∀ r ∈ u.domain.routes, r.1 = peer → r.2.getLsbD 63 = false) ∧
      (∀ r ∈ u.replicas, bitsOf (r.line * 128) 44 8 ≠ peer) ∧
      (∀ r ∈ u.remotes, r.peer = peer → r.answer.isSome = true ∨ r.cause = some cNoMem) := by
  have hlost : ¬ (s.peers.contains peer = false ∨ s.clock < kvGet peer 0 s.domain.lastFrame + 50 * usCycles) := by
    rintro (h | h)
    · exact Bool.false_ne_true (h.symm.trans hpeer)
    · omega
  refine ⟨_, congrArg Host.Outcome.next (if_neg hlost), routes_cleared s.domain.routes peer, fun r hr => ?_,
    remotes_refused s.remotes peer⟩
  exact bne_iff_ne.mp (List.mem_filter.mp hr).2

/-- Settles O55. -/
theorem scrubAndLinksComplete : Obligations.ScrubAndLinksComplete := by
  unfold Obligations.ScrubAndLinksComplete
  intro x peer tag s
  dsimp only
  refine ⟨rfl, rfl, rfl, rfl, rfl, ⟨_, rfl, rfl, rfl, rfl, rfl⟩, fun bs md => ⟨_, rfl, rfl, rfl⟩,
    fun gen bs md => ⟨_, rfl, farReplica_reaches _ peer tag gen bs md⟩, fun k g => ⟨_, rfl, rfl, ?refusal⟩, fun q op dd => rfl,
    fun dst bs hreach => congrArg Host.Outcome.next (if_pos hreach), fun page => ⟨_, rfl, ?swack⟩, rfl, peerLost_clears,
    fun page hunreach hlate => ⟨_, rfl, ?late⟩⟩
  case refusal =>
    cases g <;> rfl
  case swack =>
    exact sweeps_without (s := s) (drop := fun p => p.1 == peer) (fun w _ p _ hp => beq_iff_eq.mpr hp) _ rfl
  case late =>
    refine sweeps_without (s := s)
      (drop := fun p => p.1 == peer && decide (s.clock ≥ p.2 + 100 * usCycles) && !s.reachable peer) (fun w hw p hp hpeer => ?_) _ rfl
    simp only [hpeer, beq_self_eq_true, ge_iff_le, hlate w hw p hp, decide_true, hunreach, Bool.not_false, Bool.and_self]

end Sys2Proof.Machine

namespace Sys2Proof.Machine
open Sys2Proof.Safety

/-! ### Bytes written one behind the other -/

/-- Bytes outside those written stay. -/
theorem Mem.read_writeN_outside : ∀ (bs : List Byte) {m : Mem} {a q : Nat}, m.wf = true → q < a ∨ a + bs.length ≤ q →
    Mem.read (Mem.writeN m a bs) q = Mem.read m q
  | [], _, _, _, _, _ => rfl
  | b :: bs, m, a, q, hwf, hq => by
    rw [List.length_cons] at hq
    rw [Mem.writeN, Mem.read_writeN_outside bs (Mem.wf_write m a b hwf) (by omega), Mem.read_write m a q b hwf, if_neg (by omega)]

/-- The bytes written read back. -/
theorem Mem.readN_writeN : ∀ (bs : List Byte) {m : Mem} {a : Nat}, m.wf = true →
    Mem.readN (Mem.writeN m a bs) a bs.length = bs
  | [], _, _, _ => rfl
  | b :: bs, m, a, hwf => by
    rw [List.length_cons, Mem.readN, Mem.writeN, Mem.readN_writeN bs (Mem.wf_write m a b hwf),
      Mem.read_writeN_outside bs (Mem.wf_write m a b hwf) (.inl (Nat.lt_succ_self a)), Mem.read_write m a a b hwf, if_pos rfl]

/-- Memories that agree on a range read alike there. -/
theorem Mem.readN_congr {m m' : Mem} : ∀ (n a : Nat), (∀ q, a ≤ q → q < a + n → Mem.read m q = Mem.read m' q) →
    Mem.readN m a n = Mem.readN m' a n
  | 0, _, _ => rfl
  | n + 1, a, h => by
    rw [Mem.readN, Mem.readN, h a (Nat.le_refl a) (by omega), Mem.readN_congr n (a + 1) fun q hlo hhi => h q (by omega) (by omega)]

/-! ### Table entries (R100) -/

/-- Memory with entries of 8 bytes written, each an address and its value. -/
def entriesIn (es : List (Nat × Nat)) (m : Mem) : Mem := es.foldl (fun m e => Mem.writeN m e.1 (leBytes 8 e.2)) m

theorem entriesIn_wf : ∀ (es : List (Nat × Nat)) {m : Mem}, m.wf = true → (entriesIn es m).wf = true
  | [], _, h => h
  | e :: es, m, h => entriesIn_wf es (Mem.wf_writeN (leBytes 8 e.2) m e.1 h)

/-- A byte of no entry stays. -/
theorem read_entriesIn_outside : ∀ (es : List (Nat × Nat)) {m : Mem} {q : Nat}, m.wf = true →
    (∀ e ∈ es, q < e.1 ∨ e.1 + 8 ≤ q) → Mem.read (entriesIn es m) q = Mem.read m q
  | [], _, _, _, _ => rfl
  | e :: es, m, q, hwf, hq => by
    have hstays := read_entriesIn_outside es (Mem.wf_writeN (leBytes 8 e.2) m e.1 hwf) fun x hx => hq x (List.mem_cons_of_mem _ hx)
    refine hstays.trans (Mem.read_writeN_outside _ hwf ?_)
    rw [leBytes_length]
    exact hq e List.mem_cons_self

/-- Entries that lie one behind the other read back. -/
theorem readN_entriesIn : ∀ (es : List (Nat × Nat)) {m : Mem}, m.wf = true → es.Pairwise (fun x y => x.1 + 8 ≤ y.1) →
    ∀ e ∈ es, Mem.readN (entriesIn es m) e.1 8 = leBytes 8 e.2
  | [], _, _, _, _, he => by cases he
  | x :: es, m, hwf, hpair, e, he => by
    obtain ⟨hbehind, hrest⟩ := List.pairwise_cons.mp hpair
    have hwf' := Mem.wf_writeN (leBytes 8 x.2) m x.1 hwf
    rcases List.mem_cons.mp he with rfl | he
    · have hstays : Mem.readN (entriesIn (e :: es) m) e.1 8 = Mem.readN (Mem.writeN m e.1 (leBytes 8 e.2)) e.1 8 :=
        Mem.readN_congr 8 e.1 fun q _ hhi => read_entriesIn_outside es hwf' fun y hy => .inl (by have := hbehind y hy; omega)
      have hback := Mem.readN_writeN (leBytes 8 e.2) (m := m) (a := e.1) hwf
      rw [leBytes_length] at hback
      exact hstays.trans hback
    · exact readN_entriesIn es hwf' hrest e he

/-- An entry written in global memory changes memory alone. -/
theorem gwrite_entry (s : State) (a v : Nat) :
    s.gwrite a (leBytes 8 v) false = { s with mem := Mem.writeN s.mem a (leBytes 8 v) } := by
  simp only [State.gwrite, leBytes_length, show (8 == 128) = false from rfl, Bool.false_and, Bool.false_eq_true, if_false]

theorem foldl_gwrite_entries : ∀ (es : List (Nat × Nat)) (s : State),
    es.foldl (fun s e => s.gwrite e.1 (leBytes 8 e.2) false) s = { s with mem := entriesIn es s.mem }
  | [], _ => rfl
  | e :: es, s => by
    rw [List.foldl_cons, gwrite_entry, foldl_gwrite_entries es]
    rfl

/-! ### Where the boot tables lie (R455) -/

theorem softEnd_eq : softEnd = 5905580032 := by
  unfold softEnd
  norm_num

/-- Physical address of the page of software memory that `capsBase` counts as number `c` (R57), in stacks of `stack` bytes
and slices of `slice`: open numbers keep the kernel from evaluating products by powers of two. -/
def pageAddress (stack slice c : Nat) : Nat :=
  let perSlice := softEnd / 65536 - 1
  let n := c % (128 * perSlice)
  let sl := n / perSlice
  sl / 16 * stack + sl % 16 * slice + n % perSlice * 65536

theorem capsBase_eq : ∃ stack slice, capsBase = pageAddress stack slice Config.capsPage ∧ stack = 2 ^ 37 ∧ slice = 2 ^ 33 :=
  ⟨_, _, rfl, rfl, rfl⟩

theorem pageAddress_lt (c : Nat) : pageAddress (2 ^ 37) (2 ^ 33) c + 131072 ≤ 2 ^ 40 := by
  unfold pageAddress
  rw [softEnd_eq]
  dsimp only
  omega

theorem capsBase_lt : capsBase + 131072 ≤ 2 ^ 40 := by
  obtain ⟨stack, slice, hbase, rfl, rfl⟩ := capsBase_eq
  rw [hbase]
  exact pageAddress_lt _

/-- A table of a level has its entry in the page of 4 KiB that is its own. -/
theorem levelEntries_le (l : Nat) : 0 < levelEntries l ∧ levelEntries l ≤ 512 := by
  unfold levelEntries
  split <;> decide

/-- The address of the entry of one of the boot tables. -/
def bootEntry (k : Nat) : Nat := bootRoot + 4096 * k + 8 * (capsVirtual / 2 ^ levelShift (4 - k) % levelEntries (4 - k))

theorem bootEntry_bounds (k : Nat) : bootRoot + 4096 * k ≤ bootEntry k ∧ bootEntry k + 8 ≤ bootRoot + 4096 * (k + 1) := by
  obtain ⟨hpos, hle⟩ := levelEntries_le (4 - k)
  have hmod := Nat.mod_lt (capsVirtual / 2 ^ levelShift (4 - k)) hpos
  unfold bootEntry
  omega

theorem bootTables_pairwise : bootTables.Pairwise fun x y => x.1 + 8 ≤ y.1 := by
  refine List.pairwise_map.mpr (List.pairwise_lt_range.imp fun {j k} hjk => ?_)
  have hj := (bootEntry_bounds j).2
  have hk := (bootEntry_bounds k).1
  change bootEntry j + 8 ≤ bootEntry k
  omega

/-- The page behind the list's, from the list's own address: a name that the kernel unfolds together with `bootRoot`. -/
def rootBehind (base : Nat) (_ : base = capsBase) : Nat := base + 65536

theorem rootBehind_eq (base : Nat) (h : base = capsBase) : rootBehind base h = base + 65536 := rfl

theorem bootRoot_eq_rootBehind : bootRoot = rootBehind capsBase rfl := rfl

theorem bootRoot_eq : bootRoot = capsBase + 65536 := bootRoot_eq_rootBehind.trans (rootBehind_eq capsBase rfl)

theorem bootEntry_of_mem {e : Nat × Nat} (he : e ∈ bootTables) : ∃ k < 5, e.1 = bootEntry k := by
  obtain ⟨k, hk, rfl⟩ := List.mem_map.mp he
  exact ⟨k, List.mem_range.mp hk, rfl⟩

/-- Each entry lies behind the list, in the lowest 2 ^ 40 bytes. -/
theorem bootTables_bounds {e : Nat × Nat} (he : e ∈ bootTables) : capsBase + capsLen ≤ e.1 ∧ e.1 + 8 ≤ 2 ^ 40 := by
  obtain ⟨k, hk, hentry⟩ := bootEntry_of_mem he
  have hbounds := bootEntry_bounds k
  have hend := capsBase_lt
  have hlen : capsLen = 1104 := rfl
  rw [bootRoot_eq] at hbounds
  rw [hentry, hlen]
  generalize bootEntry k = a, capsBase = c at hbounds hend ⊢
  omega

/-- An address that low is in no view. -/
theorem paKind_ne_view {s : State} {pa : Nat} (h : pa < 2 ^ 40) (die r off : Nat) : s.paKind pa ≠ .view die r off := by
  have hkind : bitsOf pa 40 4 = 0 := by unfold bitsOf; omega
  unfold State.paKind
  dsimp only
  rw [hkind]
  split <;> exact fun h => by cases h

/-- A byte there outside the list is memory's. -/
theorem gbyte_of_low {s : State} {pa p : Nat} (hcaps : s.dev.capsAt = some p) (hpa : pa < 2 ^ 40) (hout : p + capsLen ≤ pa) :
    s.gbyte pa = Mem.read s.mem pa := by
  have hlist : ¬ (p ≤ pa ∧ pa < p + capsLen) := by omega
  unfold State.gbyte
  cases hkind : s.paKind pa with
  | view die r off => exact absurd hkind (paKind_ne_view hpa die r off)
  | _ => simp only [hcaps, if_neg hlist]

theorem gbytes_of_low {s : State} {p : Nat} (hcaps : s.dev.capsAt = some p) : ∀ (n pa : Nat), pa + n ≤ 2 ^ 40 →
    p + capsLen ≤ pa → s.gbytes pa n = Mem.readN s.mem pa n
  | 0, _, _, _ => rfl
  | n + 1, pa, hpa, hout => by
    rw [State.gbytes, Mem.readN, gbyte_of_low hcaps (by omega) hout, gbytes_of_low hcaps n (pa + 1) (by omega) (by omega)]

/-! ### The boot order (R454 to R457) -/

/-- The state from which a power-on reset boots. -/
def afterReset (s : State) : State :=
  { State.reset with agenda := s.agenda, freeCtr := s.freeCtr, inbox := s.inbox, outbox := s.outbox, links := s.links,
                     dev := { fuses := s.dev.fuses } }

/-- The state before the last step of the boot order. -/
def bootedToLast (s : State) : State := [1, 2, 3, 4, 5, 6].foldl State.bootStep (afterReset s)

/-- What the steps before the last keep. -/
def bootKept (u : State) : State × Nat × Fuses := ({ u with dev := {} }, u.dev.failStep, u.dev.fuses)

theorem bootStep_keeps (s : State) {k : Nat} (hk : k ≠ 7) : bootKept (s.bootStep k) = bootKept s := by
  unfold State.bootStep
  dsimp only
  split
  case h_4 => exact absurd rfl hk
  all_goals rfl

/-- They change what the device tells of itself alone. -/
theorem bootedToLast_kept (s : State) : bootKept (bootedToLast s) = bootKept (afterReset s) :=
  foldl_keeps_mem bootKept State.bootStep [1, 2, 3, 4, 5, 6]
    (fun u _ hk => bootStep_keeps u fun h7 => absurd (h7 ▸ hk) (by decide)) (afterReset s)

/-- The state once the last step has written the tables `m`, for a list at a physical and at a first address of
context 0. -/
def bootedWith (base : Nat) (first : Word) (root : Nat) (m : Mem) (s : State) : State :=
  let t : State := { bootedToLast s with dev := { (bootedToLast s).dev with bootStep := 7, capsAt := some base }, mem := m }
  (t.setFrz { page := base / 65536, st := .frozen, count := 1 }).setCtx
    { t.ctx 0 with caps := first, ownRoot := root, run := true }

/-- The last step of the boot order. -/
theorem bootStep_last (s : State) :
    ∃ first, (bootedToLast s).bootStep 7 = bootedWith capsBase first bootRoot (entriesIn bootTables []) s ∧
      first = BitVec.ofNat 64 (2 ^ 56 + capsVirtual) := by
  have htables := foldl_gwrite_entries bootTables
    { bootedToLast s with dev := { (bootedToLast s).dev with bootStep := 7, capsAt := some capsBase } }
  unfold State.bootStep
  dsimp only
  rw [htables]
  exact ⟨_, rfl, by with_reducible rfl⟩

/-- A reset with no failing step boots through. -/
theorem powerOnReset_boots (s : State) :
    ∃ first, exec (.powerOnReset 0) s = .next (bootedWith capsBase first bootRoot (entriesIn bootTables []) s) ∧
      first = BitVec.ofNat 64 (2 ^ 56 + capsVirtual) := by
  have hsteps : (List.range 7).map (· + 1) = [1, 2, 3, 4, 5, 6] ++ [7] := rfl
  have hall : exec (.powerOnReset 0) s = .next (((List.range 7).map (· + 1)).foldl State.bootStep (afterReset s)) :=
    congrArg Host.Outcome.next (if_pos (.inl rfl))
  obtain ⟨first, hlast, hfirst⟩ := bootStep_last s
  refine ⟨first, ?_, hfirst⟩
  rw [hall, hsteps, List.foldl_append, List.foldl_cons, List.foldl_nil]
  exact congrArg Host.Outcome.next hlast

theorem bootedWith_ctx (base : Nat) (first : Word) (root : Nat) (m : Mem) (s : State) :
    ((bootedWith base first root m s).ctx 0).run = true ∧ ((bootedWith base first root m s).ctx 0).caps = first := ⟨rfl, rfl⟩

theorem bootedWith_frz (base : Nat) (first : Word) (root : Nat) (m : Mem) (s : State) :
    ((bootedWith base first root m s).frzOf (base / 65536)).st = .frozen :=
  congrArg FrzEntry.st (tget_tset (fun x : FrzEntry => x.page == base / 65536) _ _ (beq_self_eq_true _) _)

/-- What the boot leaves apart from contexts and pages. -/
theorem bootedWith_rest (base : Nat) (first : Word) (root : Nat) (m : Mem) (s : State) :
    let u := bootedWith base first root m s
    u.mem = m ∧ u.vmem = [] ∧ u.threads = [] ∧ u.dev.bootStep = 7 ∧ u.dev.failStep = 0 ∧ u.dev.capsAt = some base ∧
      u.agenda = s.agenda ∧ u.dev.fuses = s.dev.fuses := by
  have hkept := bootedToLast_kept s
  simp only [bootKept, Prod.mk.injEq] at hkept
  obtain ⟨hstate, hfail, hfuses⟩ := hkept
  have hagenda : ({ bootedToLast s with dev := {} } : State).agenda = ({ afterReset s with dev := {} } : State).agenda := by
    rw [hstate]
  have hvmem : (bootedToLast s).vmem = [] := congrArg State.vmem hstate
  have hthreads : (bootedToLast s).threads = [] := congrArg State.threads hstate
  unfold bootedWith
  generalize bootedToLast s = t at *
  exact ⟨rfl, hvmem, hthreads, rfl, hfail.trans rfl, rfl, hagenda, hfuses⟩

/-- The first `j` steps of the boot order. -/
def bootedBy (j : Nat) (s : State) : State := ((List.range j).map (· + 1)).foldl State.bootStep (afterReset s)

theorem bootStep_number (s : State) (k : Nat) : (s.bootStep k).dev.bootStep = k := by
  unfold State.bootStep
  dsimp only
  split
  case h_4 => rw [foldl_gwrite_entries]; rfl
  all_goals rfl

/-- The device names the last step done. -/
theorem bootedBy_number (j : Nat) (s : State) : (bootedBy j s).dev.bootStep = j := by
  cases j with
  | zero => rfl
  | succ j =>
    unfold bootedBy
    rw [List.range_succ, List.map_append, List.foldl_append]
    exact bootStep_number _ (j + 1)

theorem bootedBy_kept {j : Nat} (hj : j < 7) (s : State) : bootKept (bootedBy j s) = bootKept (afterReset s) := by
  refine foldl_keeps_mem bootKept State.bootStep _ (fun u k hk => bootStep_keeps u ?_) (afterReset s)
  obtain ⟨i, hi, rfl⟩ := List.mem_map.mp hk
  have := List.mem_range.mp hi
  omega

/-- A step that fails stops the boot there. -/
theorem powerOnReset_stops {k : Nat} (s : State) (hone : 1 ≤ k) (hseven : k ≤ 7) :
    ∃ u, exec (.powerOnReset k) s = .next u ∧ u.dev.bootStep = k - 1 ∧ u.dev.failStep = k ∧
      (u.ctx 0).run = false ∧ u.mem = [] ∧ u.threads = [] := by
  have hfails : ¬ (k = 0 ∨ k > 7) := by omega
  have hsteps : ((List.range 7).map (· + 1)).filter (· < k) = (List.range (k - 1)).map (· + 1) := by
    interval_cases k <;> decide
  have hstopped : exec (.powerOnReset k) s =
      .next { bootedBy (k - 1) s with dev := { (bootedBy (k - 1) s).dev with failStep := k } } := by
    refine congrArg Host.Outcome.next ((if_neg hfails).trans ?_)
    rw [hsteps]
    rfl
  have hkept := bootedBy_kept (show k - 1 < 7 by omega) s
  simp only [bootKept, Prod.mk.injEq] at hkept
  obtain ⟨hstate, -, -⟩ := hkept
  exact ⟨_, hstopped, bootedBy_number (k - 1) s, rfl, congrArg (fun u : State => (u.ctx 0).run) hstate,
    congrArg State.mem hstate, congrArg State.threads hstate⟩

/-- Settles O57. -/
theorem powerOnResetBoots : Obligations.PowerOnResetBoots := by
  unfold Obligations.PowerOnResetBoots
  intro k s
  have hempty : Mem.wf [] = true := rfl
  obtain ⟨first, hboots, hfirst⟩ := powerOnReset_boots s
  obtain ⟨hmem, hvmem, hthreads, hstep, hfail, hcaps, hagenda, hfuses⟩ :=
    bootedWith_rest capsBase first bootRoot (entriesIn bootTables []) s
  obtain ⟨hrun, hlist⟩ := bootedWith_ctx capsBase first bootRoot (entriesIn bootTables []) s
  refine ⟨⟨_, hboots, hstep, hfail, hrun, fun e he => ?_, fun a ha => ?_, by rw [hlist, hfirst], hvmem, hthreads, hcaps,
    bootedWith_frz .., hagenda, hfuses⟩, powerOnReset_stops s⟩
  · obtain ⟨hout, hend⟩ := bootTables_bounds he
    rw [gbytes_of_low hcaps 8 e.1 hend hout, hmem]
    exact readN_entriesIn bootTables hempty bootTables_pairwise e he
  · rw [hmem]
    exact read_entriesIn_outside bootTables hempty ha

end Sys2Proof.Machine

namespace Sys2Proof.Machine
open Sys2Proof.Safety

/-! ### A range that lies in one line -/

/-- Such a range is cut into one part. -/
theorem cutAt_of_line {unit a k : Nat} (pos fuel : Nat) (hk : 0 < k) (hline : a % unit + k ≤ unit) :
    cutAt unit a pos k (fuel + 1) = [(pos, k)] := by
  obtain ⟨j, rfl⟩ := Nat.exists_eq_add_of_lt hk
  have hmin : min (0 + j + 1) (unit - a % unit) = 0 + j + 1 := by omega
  simp only [cutAt, hmin, Nat.sub_self]
  cases fuel <;> rfl

theorem Mem.readN_length (m : Mem) : ∀ n a : Nat, (Mem.readN m a n).length = n
  | 0, _ => rfl
  | n + 1, a => congrArg (· + 1) (Mem.readN_length m n (a + 1))

theorem vread_length (s : State) (q off n : Nat) : (s.vread q off n).length = n := Mem.readN_length ..

/-! ### What the upkeep of an operation leaves (R119, R122, R132) -/

/-- Bytes of memory and of vaults with their metadata, and the threads. -/
def State.stored (s : State) : Mem × Mem × List VLine × List Thread := (s.mem, s.vmem, s.vlines, s.threads)

theorem post_stored (s : State) (m : NetMsg) : (s.post m).stored = s.stored ∧ (s.post m).ops = s.ops := by
  obtain ⟨ms, net, h⟩ := s.post_only m
  rw [h]
  exact ⟨rfl, rfl⟩

theorem putBack_stored (s : State) (h line : Nat) : (s.putBack h line).stored = s.stored ∧ (s.putBack h line).ops = s.ops := by
  unfold State.putBack
  dsimp only
  split
  · exact ⟨rfl, rfl⟩
  · exact post_stored _ _

theorem returnLines_stored (s : State) (o : EngOp) :
    (s.returnLines o).stored = s.stored ∧ (s.returnLines o).ops = s.ops :=
  ⟨foldl_keeps State.stored (fun u l => u.putBack (copyHolder o.quay) l) (fun u l => (putBack_stored u _ l).1) _ (s.payBy o.ctx),
    foldl_keeps State.ops (fun u l => u.putBack (copyHolder o.quay) l) (fun u l => (putBack_stored u _ l).2) _ (s.payBy o.ctx)⟩

theorem chargeMove_stored (s : State) (c source dest n : Nat) :
    (s.chargeMove c source dest n).stored = s.stored ∧ (s.chargeMove c source dest n).ops = s.ops := by
  have h := s.chargeMove_only c source dest n
  rw [h]
  exact ⟨rfl, rfl⟩

/-- Charging a chunk for its way changes the meters. -/
theorem chargeChunk_stored (s : State) (o : EngOp) (dests : List Nat) (n : Nat) :
    (s.chargeChunk o dests n).stored = s.stored ∧ (s.chargeChunk o dests n).ops = s.ops := by
  cases dests with
  | nil => exact ⟨rfl, rfl⟩
  | cons q rest =>
    have hway := chargeMove_stored s o.ctx (s.sourceQuay o) q n
    exact ⟨(foldl_keeps State.stored (fun u d => u.chargeMove o.ctx q d n) (fun u d => (chargeMove_stored u _ _ _ _).1) rest _).trans
      hway.1,
      (foldl_keeps State.ops (fun u d => u.chargeMove o.ctx q d n) (fun u d => (chargeMove_stored u _ _ _ _).2) rest _).trans hway.2⟩

theorem keepRefs_stored (s : State) (id : Nat) (left : List (Nat × Nat × Nat)) : (s.keepRefs id left).stored = s.stored := by
  unfold State.keepRefs
  cases s.op? id with
  | none => rfl
  | some o => exact foldl_keeps State.stored (fun u k => u.modRegion k fun r => { r with refs := r.refs - 1 }) (fun _ _ => rfl) _ s

theorem endOp_stored (s : State) (id st : Nat) : (s.endOp id st).stored = s.stored := keepRefs_stored s id []

/-! ### An operation's record as it is changed -/

/-- The record of an operation that is changed and keeps its number. -/
theorem op_modOp {s : State} {id : Nat} {o : EngOp} {f : EngOp → EngOp} (h : s.op? id = some o) (hf : ∀ x, (f x).id = x.id) :
    (s.modOp id f).op? id = some (f o) := by
  have hsame : ((fun o : EngOp => o.id == id) ∘ fun o => if o.id == id then f o else o) = fun o => o.id == id := by
    funext x
    by_cases hx : x.id = id <;> simp [hx, hf]
  have hmatch : (o.id == id) = true := List.find?_some (p := fun o : EngOp => o.id == id) h
  change List.find? _ (tmod (fun o => o.id == id) f s.ops) = _
  rw [tmod, List.find?_map, hsame]
  refine (congrArg (Option.map _) h).trans ?_
  rw [Option.map_some, if_pos hmatch]

theorem op_id {s : State} {id : Nat} {o : EngOp} (h : s.op? id = some o) : o.id = id :=
  beq_iff_eq.mp (List.find?_some (p := fun o : EngOp => o.id == id) h)

/-- Its references change nothing else of it. -/
theorem op_keepRefs {s : State} {id : Nat} {o : EngOp} (h : s.op? id = some o) (left : List (Nat × Nat × Nat)) :
    ∃ refs, (s.keepRefs id left).op? id = some { o with refsAt := refs } := by
  have hregions : ∀ (l : List Nat) (u : State),
      (l.foldl (fun u k => u.modRegion k fun r => { r with refs := r.refs - 1 }) u).ops = u.ops := fun l =>
    foldl_keeps State.ops (fun u k => u.modRegion k fun r => { r with refs := r.refs - 1 }) (fun _ _ => rfl) l
  unfold State.keepRefs
  rw [h]
  refine ⟨_, op_modOp ?_ fun _ => rfl⟩
  unfold State.op?
  rw [hregions]
  exact h

/-- An operation that ends is finished. -/
theorem op_endOp {s : State} {id : Nat} {o : EngOp} (h : s.op? id = some o) (st : Nat) :
    ∃ o', (s.endOp id st).op? id = some o' ∧ o'.finished = true ∧ o'.next = o.next := by
  obtain ⟨refs, hrefs⟩ := op_keepRefs h []
  exact ⟨_, op_modOp hrefs fun _ => rfl, rfl, rfl⟩

/-! ### Copies (R123 to R125) -/

/-- A chunk that ends keeps the bytes; the last one ends the operation. -/
theorem chunkEnd_last {s : State} {o : EngOp} {n vb : Nat} {poison : Bool} (ho : s.op? o.id = some o)
    (hlast : o.next + n ≥ dLen o.desc) :
    (s.chunkEnd o n poison vb).stored = s.stored ∧ ∃ o', (s.chunkEnd o n poison vb).op? o.id = some o' ∧ o'.finished = true := by
  have hreturned := returnLines_stored (s.dropRemotes o) o
  unfold State.chunkEnd
  dsimp only
  rw [if_pos hlast]
  generalize (s.dropRemotes o).returnLines o = u at *
  obtain ⟨hstored, hops⟩ := hreturned
  have hop : u.op? o.id = some o := by
    unfold State.op?
    rw [hops]
    exact ho
  have hop' : ∃ o', (if poison then (u.charge (meterQuay o.quay) o.ctx 8 vb).markPoison o.id
      else u.charge (meterQuay o.quay) o.ctx 8 vb).op? o.id = some o' := by
    cases poison with
    | false => exact ⟨o, hop⟩
    | true => exact ⟨_, op_modOp (s := u.charge (meterQuay o.quay) o.ctx 8 vb) hop fun _ => rfl⟩
  have hstored' : (if poison then (u.charge (meterQuay o.quay) o.ctx 8 vb).markPoison o.id
      else u.charge (meterQuay o.quay) o.ctx 8 vb).stored = s.stored := by
    cases poison <;> exact hstored
  obtain ⟨o', hop'⟩ := hop'
  obtain ⟨o'', hend, hfin, -⟩ := op_endOp (op_modOp (f := fun o => { o with next := o.next + n }) hop' fun _ => rfl) 0
  exact ⟨(endOp_stored _ _ _).trans hstored', o'', hend, hfin⟩

/-- One part of a line is written: its bytes, and the metadata where it is a whole line of one source. -/
theorem vaultPart_bytes (s : State) (q off n : Nat) (ps : List Piece) (all : List Byte) (hlen : all.length = n) :
    (s.vaultPart q off ps all (0, n)).vmem = Mem.writeN s.vmem (vkey q off) all ∧
      (s.vaultPart q off ps all (0, n)).mem = s.mem ∧ (s.vaultPart q off ps all (0, n)).threads = s.threads ∧
      (s.vaultPart q off ps all (0, n)).ops = s.ops := by
  have hall : (all.drop 0).take n = all := by rw [List.drop_zero, ← hlen, List.take_length]
  unfold State.vaultPart
  dsimp only
  rw [hall]
  split
  · split <;> exact ⟨rfl, rfl, rfl, rfl⟩
  · exact ⟨rfl, rfl, rfl, rfl⟩

/-- One part of a vault line as an operation reads it where no region stands. -/
def vaultPiece (s : State) (q off n pos : Nat) : Piece :=
  { pos := pos, bytes := s.vread q off n
    md := ⟨(s.vmeta (vline q off)).lam, (s.vmeta (vline q off)).tag, (s.vmeta (vline q off)).poison⟩ }

theorem opVault_of_open {s : State} {q : Nat} (h : (s.regions.all fun r => r.quay != q) = true) (o : EngOp) (off n pos : Nat) :
    s.opVault o q off n pos = .ok (vaultPiece s q off n pos) s := by
  simp only [State.opVault, opFill_of_open h, Asked.andThen_ok]
  rfl

/-- A part that one piece fills, asked for. -/
theorem askEach_one {α β : Type} {f : State → β → Asked α} {p : β} {v : α} {s u : State} (h : f s p = .ok v u) :
    askEach f [p] s = .ok [v] u := by
  simp only [askEach, h, Asked.andThen_ok]

theorem piecesBytes_one (p : Piece) : piecesBytes [p] = p.bytes := List.append_nil _

/-- The chunk of a copy from vault to vault that lies in one line on both sides. -/
theorem chunkToVaults_of_line {a f b g : Nat} {o : EngOp} {s : State} (hkind : o.kind = .cpV2v) (hnext : o.next = 0)
    (hsrc : s.vaultOperand (dSrc o.desc) o.quay o.ctx (dLen o.desc) = .ok a f)
    (hdst : s.vaultOperand (dDst o.desc) o.quay o.ctx (dLen o.desc) = .ok b g) (hlen : 0 < dLen o.desc)
    (hf : f % 128 + dLen o.desc ≤ 128) (hg : g % 128 + dLen o.desc ≤ 128) (hopen : VaultOpen b g (dLen o.desc) s)
    (hregions : (s.regions.all fun r => r.quay != a) = true) :
    s.chunkToVaults o =
      let p := vaultPiece s a f (dLen o.desc) 0
      let u := s.vaultPart b g [p] p.bytes (0, dLen o.desc)
      .ok ((u.chargeChunk o [b] (dLen o.desc)).chunkEnd o (dLen o.desc) ([p].any (·.md.poison)) (dLen o.desc * 2)) u := by
  have hchunk : chunkLen o g = dLen o.desc := by
    unfold chunkLen
    rw [hnext]
    omega
  have hsource := cutAt_of_line (unit := 128) 0 39 hlen hf
  have hdest := cutAt_of_line (unit := 128) 0 39 hlen hg
  have hread : s.readChunk o (dLen o.desc) = .ok [vaultPiece s a f (dLen o.desc) 0] s := by
    simp only [State.readChunk, hkind, if_true, hsrc, hnext, Nat.add_zero, hsource]
    exact askEach_one (opVault_of_open hregions o f (dLen o.desc) 0)
  simp only [State.chunkToVaults, State.copyVaults, hkind, hdst, hchunk, hnext, Nat.add_zero, hdest, hread, Asked.andThen_ok,
    List.flatMap_cons, List.flatMap_nil, List.map_cons, List.map_nil, List.append_nil, List.foldl_cons, List.foldl_nil,
    opBank_of_open hopen, piecesBytes_one, List.length_cons, List.length_nil]

/-- A copy that lies in one line moves its bytes. -/
theorem copied_of_line {op a f b g : Nat} {o : EngOp} {s : State} (hcanon : Canonical s) (hacts : OpActs op .cpV2v o s)
    (hnext : o.next = 0)
    (hsrc : s.vaultOperand (dSrc o.desc) o.quay o.ctx (dLen o.desc) = .ok a f)
    (hdst : s.vaultOperand (dDst o.desc) o.quay o.ctx (dLen o.desc) = .ok b g) (hlen : 0 < dLen o.desc)
    (hf : f % 128 + dLen o.desc ≤ 128) (hg : g % 128 + dLen o.desc ≤ 128) (hopen : VaultOpen b g (dLen o.desc) s)
    (hregions : (s.regions.all fun r => r.quay != a) = true) :
    ∃ t, exec (.copyChunkDone op) s = .next t ∧ t.vread b g (dLen o.desc) = s.vread a f (dLen o.desc) ∧
      (∀ x, x < vkey b g ∨ vkey b g + dLen o.desc ≤ x → Mem.read t.vmem x = Mem.read s.vmem x) ∧ t.mem = s.mem ∧
      t.threads = s.threads ∧ ∃ o', t.op? op = some o' ∧ o'.finished = true := by
  obtain ⟨ho, hruns, hkind, hstatus⟩ := hacts
  obtain rfl := op_id ho
  have hbytes : (vaultPiece s a f (dLen o.desc) 0).bytes.length = dLen o.desc := vread_length s a f (dLen o.desc)
  obtain ⟨hvmem, hmem, hthreads, hops⟩ := vaultPart_bytes s b g (dLen o.desc) [vaultPiece s a f (dLen o.desc) 0] _ hbytes
  have hchunk := chunkToVaults_of_line hkind hnext hsrc hdst hlen hf hg hopen hregions
  dsimp only at hchunk
  generalize s.vaultPart b g [vaultPiece s a f (dLen o.desc) 0] (vaultPiece s a f (dLen o.desc) 0).bytes (0, dLen o.desc) = u at *
  have hway := chargeChunk_stored u o [b] (dLen o.desc)
  have hop : (u.chargeChunk o [b] (dLen o.desc)).op? o.id = some o := by
    unfold State.op?
    rw [hway.2, hops]
    exact ho
  obtain ⟨hstored, o', ho', hfin⟩ := chunkEnd_last (n := dLen o.desc) (vb := dLen o.desc * 2)
    (poison := [vaultPiece s a f (dLen o.desc) 0].any (·.md.poison)) hop (by omega)
  replace hstored := hstored.trans hway.1
  have hexec : exec (.copyChunkDone o.id) s = .next ((s.chunkToVaults o).settle o) := by
    refine congrArg Host.Outcome.next ?_
    simp only [ho, hruns, hkind, if_neg (Nat.not_lt.mpr hstatus), Bool.true_eq_false, if_false]
  rw [hchunk] at hexec
  refine ⟨_, hexec, ?_⟩
  dsimp only [Asked.settle]
  generalize (u.chargeChunk o [b] (dLen o.desc)).chunkEnd o (dLen o.desc) ([vaultPiece s a f (dLen o.desc) 0].any (·.md.poison))
    (dLen o.desc * 2) = t at *
  simp only [State.stored, Prod.mk.injEq] at hstored
  obtain ⟨hmem', hvmem', -, hthreads'⟩ := hstored
  refine ⟨?_, fun x hx => ?_, hmem'.trans hmem, hthreads'.trans hthreads, o', ho', hfin⟩
  · have hback := Mem.readN_writeN (vaultPiece s a f (dLen o.desc) 0).bytes (a := vkey b g) hcanon.2
    rw [hbytes, ← hvmem, ← hvmem'] at hback
    exact hback
  · rw [hvmem', hvmem]
    refine Mem.read_writeN_outside _ hcanon.2 ?_
    rw [hbytes]
    exact hx

/-! ### Gathers (R126, R289) -/

/-- The row that an index in range names, read in one line. -/
theorem gatherSource_of_row {q off k a : Nat} {o : EngOp} {s : State} (hlen : dLen o.desc = 128)
    (hsrc : s.vaultOperand (dSrc o.desc) o.quay o.ctx 0 = .ok q off)
    (hio : ((dXtra o.desc).extractLsb' 0 24).toNat + 2 * o.next + 2 ≤ vaultEnd)
    (hk : k = leNat (s.vread o.quay (((dXtra o.desc).extractLsb' 0 24).toNat + 2 * o.next) 2)) (hrow : k < dAux o.desc / 65536)
    (hpad : k ≠ 0xFFFF) (ha : a = off + k * ((dXtra o.desc).extractLsb' 32 24).toNat) (haline : a % 128 = 0)
    (haend : a + 128 ≤ vaultEnd) (hindex : (s.regions.all fun r => r.quay != o.quay) = true)
    (hregions : (s.regions.all fun r => r.quay != q) = true) :
    s.gatherSource o o.next = .ok ([vaultPiece s q a 128 0], false,
      (vaultPiece s o.quay (((dXtra o.desc).extractLsb' 0 24).toNat + 2 * o.next) 2 0).md.poison) s := by
  have hcut := cutAt_of_line (unit := 128) (a := a) 0 7 (show 0 < 128 by decide) (by omega)
  have hindexed : leNat (vaultPiece s o.quay (((dXtra o.desc).extractLsb' 0 24).toNat + 2 * o.next) 2 0).bytes = k := hk.symm
  have hrow' : ¬ k ≥ dAux o.desc / 65536 := Nat.not_le.mpr hrow
  have hread := askEach_one (f := fun s (p : Nat × Nat) => s.opVault o q (a + p.1) p.2 p.1) (p := (0, 128))
    (opVault_of_open hregions o a 128 0)
  simp only [State.gatherSource, gt_iff_lt, if_neg (Nat.not_lt.mpr hio), opVault_of_open hindex, Asked.andThen_ok, hindexed,
    if_neg hpad, if_neg hrow', hsrc, hlen, ← ha, if_neg (Nat.not_lt.mpr haend), hcut, hread]

/-- A quay that an operand gives is the one that it names. -/
theorem operandQuay_of_ok {v : Word} {q c n tq off : Nat} {s : State} (h : s.vaultOperand v q c n = .ok tq off) :
    operandQuay v q = tq := by
  unfold State.vaultOperand at h
  unfold operandQuay
  dsimp only at h ⊢
  generalize (if (v.extractLsb' 32 4).toNat = 0 then dieOf q else (v.extractLsb' 32 4).toNat - 8) = die at h ⊢
  split at h
  · cases h
  · split at h
    · cases h
    · split at h
      · cases h
      · exact (VaultOperand.ok.inj h).1

/-- The row stands in the latch buffer that the array does not drain. -/
def rowLatched (o : EngOp) (p : Piece) (u : State) : State :=
  let buf := u.gatherBuf (pairOf o.quay)
  let key := fun (y : LatchRow) => y.quay == o.quay && y.buf == buf && y.row == o.next
  { u with latch := tset key { quay := o.quay, buf := buf, row := o.next, bytes := p.bytes } u.latch }

/-- What a row leaves once it is written: its latch, its cost, and the operation's place. -/
def rowDone (o : EngOp) (p : Piece) (poison : Bool) (u : State) : State :=
  let i := o.next
  let s := ((rowLatched o p u).chargeVault o.quay o.ctx (2 * 128 + 2)).chargeChunk o [o.quay] 128
  let s := if poison then s.markPoison o.id else s
  let s := s.modOp o.id fun o => { o with next := i + 1 }
  if i + 1 ≥ dAux o.desc % 65536 then s.endOp o.id (if o.report == 8 then 8 else 0) else s.keepRefs o.id (s.gatherLeft o (i + 1))

/-- A row is written over one line. -/
theorem gatherStep_of_row {q a : Nat} {poison : Bool} {o : EngOp} {s : State} (hlen : dLen o.desc = 128)
    (hbasin : basinOf (operandQuay (dSrc o.desc) o.quay) = basinOf o.quay)
    (hsource : s.gatherSource o o.next = .ok ([vaultPiece s q a 128 0], false, poison) s)
    (hdline : ((dDst o.desc).toNat + o.next * 128) % 128 = 0) (hdend : (dDst o.desc).toNat + o.next * 128 + 128 ≤ vaultEnd)
    (hopen : VaultOpen o.quay ((dDst o.desc).toNat + o.next * 128) 128 s) :
    ∃ u, s.gatherStep o = .ok (rowDone o (vaultPiece s q a 128 0) (poison || (vaultPiece s q a 128 0).md.poison)
      (s.vaultPart o.quay ((dDst o.desc).toNat + o.next * 128) [vaultPiece s q a 128 0] (vaultPiece s q a 128 0).bytes (0, 128))) u := by
  have hcut := cutAt_of_line (unit := 128) (a := (dDst o.desc).toNat + o.next * 128) 0 7 (show 0 < 128 by decide) (by omega)
  have hbasin' : ¬ basinOf (operandQuay (dSrc o.desc) o.quay) ≠ basinOf o.quay := fun h => h hbasin
  simp only [State.gatherStep, if_neg hbasin', hsource, Asked.andThen_ok, hlen, gt_iff_lt, if_neg (Nat.not_lt.mpr hdend), hcut,
    List.foldl_cons, List.foldl_nil, Nat.add_zero, opBank_of_open hopen, piecesBytes_one, List.any_cons, List.any_nil,
    Bool.or_false, Bool.false_or, Bool.false_eq_true, if_false]
  exact ⟨_, rfl⟩

/-- The row done keeps the bytes and moves the operation on by one row. -/
theorem rowDone_moves {o : EngOp} {p : Piece} {poison : Bool} {u : State} (ho : u.op? o.id = some o) :
    (rowDone o p poison u).stored = u.stored ∧ ∃ o', (rowDone o p poison u).op? o.id = some o' ∧ o'.next = o.next + 1 := by
  have hlatched : ∀ v : State, v.stored = u.stored → v.op? o.id = some o →
      (if poison then v.markPoison o.id else v).stored = u.stored ∧
        ∃ o', (if poison then v.markPoison o.id else v).op? o.id = some o' := by
    intro v hv hop
    cases poison with
    | false => exact ⟨hv, o, hop⟩
    | true => exact ⟨hv, _, op_modOp hop fun _ => rfl⟩
  unfold rowDone
  dsimp only
  have hwops : (rowLatched o p u).ops = u.ops := rfl
  have hwstored : (rowLatched o p u).stored = u.stored := rfl
  generalize rowLatched o p u = w at hwops hwstored ⊢
  have hway := chargeChunk_stored (w.chargeVault o.quay o.ctx (2 * 128 + 2)) o [o.quay] 128
  have hop : ((w.chargeVault o.quay o.ctx (2 * 128 + 2)).chargeChunk o [o.quay] 128).op? o.id = some o := by
    unfold State.op?
    rw [hway.2]
    exact (congrArg (List.find? _) hwops).trans ho
  obtain ⟨hstored, o1, ho1⟩ := hlatched _ (hway.1.trans hwstored) hop
  generalize (if poison then ((w.chargeVault o.quay o.ctx (2 * 128 + 2)).chargeChunk o [o.quay] 128).markPoison o.id
    else (w.chargeVault o.quay o.ctx (2 * 128 + 2)).chargeChunk o [o.quay] 128) = v at *
  have hmoved := op_modOp (f := fun x => { x with next := o.next + 1 }) ho1 fun _ => rfl
  split
  · obtain ⟨o', ho', -, hnext⟩ := op_endOp hmoved (if o.report == 8 then 8 else 0)
    exact ⟨(endOp_stored _ _ _).trans hstored, o', ho', hnext⟩
  · obtain ⟨refs, hrefs⟩ := op_keepRefs hmoved
      ((v.modOp o.id fun x => { x with next := o.next + 1 }).gatherLeft o (o.next + 1))
    exact ⟨(keepRefs_stored _ _ _).trans hstored, _, hrefs, rfl⟩

theorem vmeta_key (s : State) (key : Nat) : (s.vmeta key).key = key := by
  unfold State.vmeta tget
  cases h : s.vlines.find? (fun x => x.key == key) with
  | none => rfl
  | some x => exact eq_of_beq (List.find?_some (p := fun x : VLine => x.key == key) h)

theorem vmeta_setVmeta (s : State) {l : VLine} {key : Nat} (h : l.key = key) : (s.setVmeta l).vmeta key = l := by
  subst h
  exact tget_tset (fun x : VLine => x.key == l.key) _ l (beq_self_eq_true _) s.vlines

/-- A line written whole has the metadata given. -/
theorem vstoreLine_meta (s : State) (q off : Nat) (bs : List Byte) (lam : BitVec 8) (tag : BitVec 4) (poison : Bool) :
    ((s.vstoreLine q off bs lam tag poison).vmeta (vline q off)).lam = lam ∧
      ((s.vstoreLine q off bs lam tag poison).vmeta (vline q off)).tag = tag := by
  have hback := fun (l : VLine) (h : l.key = vline q off) => vmeta_setVmeta (s.vtouch q off 128) h
  have hmeta := hback { (s.vtouch q off 128).vmeta (vline q off) with
    lam := lam, tag := tag, poison := poison
    v := ((s.vtouch q off 128).vmeta (vline q off)).v || ((s.vtouch q off 128).regionAt q off).any (·.mapped)
    d := ((s.vtouch q off 128).vmeta (vline q off)).d || ((s.vtouch q off 128).regionAt q off).any (·.mapped) } (vmeta_key _ _)
  exact ⟨congrArg VLine.lam hmeta, congrArg VLine.tag hmeta⟩

/-- A vault line written whole has the metadata of its source. -/
theorem vaultPart_line_meta (s : State) (q off : Nat) (p : Piece) (all : List Byte) (hpos : p.pos = 0) (hlen : p.bytes.length = 128) :
    ((s.vaultPart q off [p] all (0, 128)).vmeta (vline q off)).lam = p.md.lam ∧
      ((s.vaultPart q off [p] all (0, 128)).vmeta (vline q off)).tag = p.md.tag := by
  have hfind : [p].find? (fun x => x.pos == 0 && x.bytes.length == 128) = some p :=
    List.find?_cons_of_pos (by simp [hpos, hlen])
  have hpart : s.vaultPart q off [p] all (0, 128) =
      s.vstoreLine q off ((all.drop 0).take 128) p.md.lam p.md.tag (poisonedPart [p] 0 128) := by
    simp only [State.vaultPart, if_true, hfind]
  rw [hpart]
  exact vstoreLine_meta s q off _ _ _ _

/-- A gathered row moves its bytes and its metadata. -/
theorem gathered_of_row {op q off k a : Nat} {o : EngOp} {s : State} (hcanon : Canonical s) (hacts : OpActs op .gath o s)
    (hleader : o.quay % 2 = 0) (hlen : dLen o.desc = 128)
    (hsrc : s.vaultOperand (dSrc o.desc) o.quay o.ctx 0 = .ok q off) (hbasin : basinOf q = basinOf o.quay)
    (hio : ((dXtra o.desc).extractLsb' 0 24).toNat + 2 * o.next + 2 ≤ vaultEnd)
    (hk : k = leNat (s.vread o.quay (((dXtra o.desc).extractLsb' 0 24).toNat + 2 * o.next) 2)) (hrow : k < dAux o.desc / 65536)
    (hpad : k ≠ 0xFFFF) (ha : a = off + k * ((dXtra o.desc).extractLsb' 32 24).toNat) (haline : a % 128 = 0)
    (haend : a + 128 ≤ vaultEnd) (hdline : ((dDst o.desc).toNat + o.next * 128) % 128 = 0)
    (hdend : (dDst o.desc).toNat + o.next * 128 + 128 ≤ vaultEnd)
    (hopen : VaultOpen o.quay ((dDst o.desc).toNat + o.next * 128) 128 s)
    (hregions : (s.regions.all fun r => r.quay != q) = true) :
    ∃ t, exec (.gatherRow op) s = .next t ∧
      t.vread o.quay ((dDst o.desc).toNat + o.next * 128) 128 = s.vread q a 128 ∧
      (t.vmeta (vline o.quay ((dDst o.desc).toNat + o.next * 128))).lam = (s.vmeta (vline q a)).lam ∧
      (t.vmeta (vline o.quay ((dDst o.desc).toNat + o.next * 128))).tag = (s.vmeta (vline q a)).tag ∧ t.mem = s.mem ∧
      ∃ o', t.op? op = some o' ∧ o'.next = o.next + 1 := by
  obtain ⟨ho, hruns, hkind, hstatus⟩ := hacts
  obtain rfl := op_id ho
  have hbasin' : basinOf (operandQuay (dSrc o.desc) o.quay) = basinOf o.quay := by rw [operandQuay_of_ok hsrc, hbasin]
  have hsource := gatherSource_of_row hlen hsrc hio hk hrow hpad ha haline haend hopen.1 hregions
  obtain ⟨w, hstep⟩ := gatherStep_of_row hlen hbasin' hsource hdline hdend hopen
  have hexec : exec (.gatherRow o.id) s = .next ((s.gatherStep o).settle o) := by
    have hgoes : ¬ (s.opRuns o = false ∨ o.kind ≠ .gath ∨
        (o.quay % 2 = 1 ∧ (s.units.any fun u => u.pair == pairOf o.quay && u.running) = true)) := by
      rintro (h | h | ⟨h, -⟩)
      · exact Bool.false_ne_true (h.symm.trans hruns)
      · exact h hkind
      · omega
    refine congrArg Host.Outcome.next ?_
    simp only [ho, if_neg hgoes, gt_iff_lt, if_neg (Nat.not_lt.mpr hstatus)]
  rw [hstep] at hexec
  refine ⟨_, hexec, ?_⟩
  dsimp only [Asked.settle]
  have hbytes : (vaultPiece s q a 128 0).bytes.length = 128 := vread_length s q a 128
  have hmeta := vaultPart_line_meta s o.quay ((dDst o.desc).toNat + o.next * 128) (vaultPiece s q a 128 0)
    (vaultPiece s q a 128 0).bytes rfl hbytes
  obtain ⟨hvmem, hmem, -, hops⟩ := vaultPart_bytes s o.quay ((dDst o.desc).toNat + o.next * 128) 128
    [vaultPiece s q a 128 0] _ hbytes
  have hback := Mem.readN_writeN (vaultPiece s q a 128 0).bytes
    (a := vkey o.quay ((dDst o.desc).toNat + o.next * 128)) hcanon.2
  rw [hbytes, ← hvmem] at hback
  generalize s.vaultPart o.quay ((dDst o.desc).toNat + o.next * 128) [vaultPiece s q a 128 0] (vaultPiece s q a 128 0).bytes
    (0, 128) = u at *
  have hop : u.op? o.id = some o := by
    unfold State.op?
    rw [hops]
    exact ho
  obtain ⟨hstored, hmoved⟩ := rowDone_moves (p := vaultPiece s q a 128 0) (poison :=
    (vaultPiece s o.quay (((dXtra o.desc).extractLsb' 0 24).toNat + 2 * o.next) 2 0).md.poison ||
      (vaultPiece s q a 128 0).md.poison) hop
  generalize rowDone o (vaultPiece s q a 128 0) _ u = t at *
  simp only [State.stored, Prod.mk.injEq] at hstored
  obtain ⟨hmem', hvmem', hvlines', -⟩ := hstored
  have hvmeta : ∀ key, t.vmeta key = u.vmeta key := fun key =>
    congrArg (tget (fun x : VLine => x.key == key) { key := key }) hvlines'
  rw [hvmeta]
  rw [← hvmem'] at hback
  exact ⟨hback, hmeta.1, hmeta.2, hmem'.trans hmem, hmoved⟩

/-- Settles O39. -/
theorem copiesAndGathersMoveTheirBytes : Obligations.CopiesAndGathersMoveTheirBytes := by
  unfold Obligations.CopiesAndGathersMoveTheirBytes
  refine ⟨fun op a f b g o s hcanon hacts hnext hsrc hdst hlen hf hg hopen hregions =>
    copied_of_line hcanon hacts hnext hsrc hdst hlen hf hg hopen hregions, ?_⟩
  intro op q off k a o s hcanon hacts hleader hlen hsrc hbasin
  dsimp only
  intro hio hk hrow hpad ha haline haend hdline hdend hopen hregions
  exact gathered_of_row hcanon hacts hleader hlen hsrc hbasin hio hk hrow hpad ha haline haend hdline hdend hopen hregions

end Sys2Proof.Machine

namespace Sys2Proof.Machine
open Sys2Proof.Safety

/-! ### Charges change the meters alone (R435, R438) -/

/-- The state without its meters. -/
def State.unmetered (s : State) : State := { s with meters := [] }

theorem chargeWay_unmetered (s : State) (c source dest flits : Nat) :
    (s.chargeWay c source dest flits).unmetered = s.unmetered := by
  obtain ⟨ms, h⟩ := State.chargeWay_only s c source dest flits
  rw [h]
  rfl

theorem chargeUncached_unmetered (s : State) (place sl line c : Nat) :
    (s.chargeUncached place sl line c).unmetered = s.unmetered := by
  have hways := (chargeWay_unmetered (s.chargeWay c place (256 + sl) 1) c (256 + sl) place (1 + Config.uncachedFlits line s.clock)).trans
    (chargeWay_unmetered s c place (256 + sl) 1)
  unfold State.chargeUncached
  generalize (s.chargeWay c place (256 + sl) 1).chargeWay c (256 + sl) place (1 + Config.uncachedFlits line s.clock) = u at hways ⊢
  obtain ⟨ms, h⟩ := u.chargeSlice_only sl line c
  rw [h]
  exact hways

theorem chargeAt_unmetered (s : State) (place line c : Nat) : (s.chargeAt place line c).unmetered = s.unmetered := by
  obtain ⟨ms, h⟩ := s.chargeAt_only place line c
  rw [h]
  rfl

theorem chargeStage_unmetered (s : State) (place c payer ipa : Nat) :
    (s.chargeStage place c payer ipa).unmetered = s.unmetered := by
  unfold State.chargeStage
  dsimp only
  split
  · rfl
  · exact foldl_keeps State.unmetered _ (fun u k => chargeUncached_unmetered u place _ _ payer) _ s

/-- What a walk reads at one level and below. -/
theorem chargeLevel_unmetered (s : State) (place c payer va tbl level : Nat) {down : Nat → State → State}
    (hdown : ∀ next u, (down next u).unmetered = u.unmetered) :
    (s.chargeLevel place c payer va tbl level down).unmetered = s.unmetered := by
  have hlines : ∀ u : State, ((u.entryLine c va tbl level).foldl (fun s line => s.chargeAt place line payer) u).unmetered =
      u.unmetered := fun u =>
    foldl_keeps State.unmetered (fun s line => s.chargeAt place line payer) (fun u l => chargeAt_unmetered u place l payer) _ u
  have hread := (hlines _).trans
    (chargeStage_unmetered s place c payer (tbl + 8 * (va / 2 ^ levelShift level % levelEntries level)))
  unfold State.chargeLevel
  dsimp only
  split
  · exact (hdown _ _).trans hread
  · exact (chargeStage_unmetered _ _ _ _ _).trans hread
  · split
    · exact (chargeStage_unmetered _ _ _ _ _).trans hread
    · exact hread
  · exact hread

theorem chargeFrom_unmetered (place c payer va : Nat) : ∀ (l tbl : Nat) (s : State),
    (State.chargeFrom place c payer va tbl l s).unmetered = s.unmetered
  | 0, tbl, s => chargeLevel_unmetered s place c payer va tbl 0 fun _ _ => rfl
  | l + 1, tbl, s => chargeLevel_unmetered s place c payer va tbl (l + 1) fun next u =>
      chargeFrom_unmetered place c payer va l next u

theorem chargeWalk_unmetered (s : State) (place c payer va : Nat) :
    (s.chargeWalk place c payer va).unmetered = s.unmetered := chargeFrom_unmetered place c payer va 4 _ s

/-- The search for a handler is charged, and changes nothing else. -/
theorem chargeSearch_unmetered (y : Waiter) (cause : BitVec 8) (payer : Nat) : ∀ (fuel : Nat) (start : Option Nat) (s : State),
    (s.chargeSearch y cause payer start fuel).unmetered = s.unmetered
  | 0, none, _ => rfl
  | 0, some _, _ => rfl
  | _ + 1, none, _ => rfl
  | fuel + 1, some c, s => by
    have hnext : (match s.handler y c cause with
        | some _ => s
        | none => s.chargeSearch y cause payer (s.parentOf c) fuel).unmetered = s.unmetered := by
      split
      · rfl
      · exact chargeSearch_unmetered y cause payer fuel _ s
    unfold State.chargeSearch
    dsimp only
    split
    · exact (chargeAt_unmetered _ _ _ _).trans ((chargeWalk_unmetered _ _ _ _ _).trans hnext)
    · exact hnext

/-! ### The record of a trap (R367) -/

theorem trapRecord_fields (n : TrapNote) (sub : BitVec 8) (levels orig hctx clock : Nat) (blk : Word) (nsub : Nat) :
    let r := trapRecord n sub levels orig hctx clock blk nsub
    r.extractLsb' 0 8 = n.cause ∧ r.extractLsb' 80 8 = sub ∧ r.extractLsb' 93 3 = BitVec.ofNat 3 levels ∧
      r.extractLsb' 96 16 = BitVec.ofNat 16 hctx ∧ r.extractLsb' 112 16 = BitVec.ofNat 16 orig ∧ r.extractLsb' 192 64 = blk := by
  unfold trapRecord
  dsimp only
  refine ⟨?_, ?_, ?_, ?_, ?_, ?_⟩ <;>
    simp (disch := decide) only [BitVec.extractLsb'_append_eq_of_add_le, BitVec.extractLsb'_append_eq_of_le, Nat.reduceSub,
      BitVec.extractLsb'_eq_self]

/-! ### Where a trap goes (R370, R371) -/

/-- The context from which the search for a handler starts. -/
def trapStart (t : Thread) (s : State) : Option Nat := if t.ih then s.parentOf t.hctx else some t.ctx

/-- The cause that is recorded. -/
def trapCause (t : Thread) (n : TrapNote) : BitVec 8 := if t.ih then 0x26 else n.cause

/-- The state in which the search has been charged. -/
def searchPaid (t : Thread) (n : TrapNote) (s : State) : State :=
  (s.chargeSearch (.handler t.quay t.slot) (trapCause t n) t.runCtx (trapStart t s) 9).dropFar (.handler t.quay t.slot)

/-- The thread at its handler. -/
def handled (t : Thread) (n : TrapNote) (blk : Word) (c : Nat) (h : Word) (levels : Nat) (s : State) : Thread :=
  let keep := if t.subBlk == blk then t.subs else []
  { t with
    st := .waiting, on := .none, nba := h, ih := true, hctx := c, stamp := s.stamp, drift := false
    traprec := trapRecord { n with cause := trapCause t n } (if t.ih then n.cause else 0) levels t.ctx c s.clock blk keep.length
    subs := keep, subBlk := blk }

/-- A trap that finds a handler. -/
theorem takeTrap_handled {t : Thread} {n : TrapNote} {blk : Word} {s s1 : State} {c levels : Nat} {h : Word}
    (hs1 : s1 = (s.leaveEntries t.quay t.slot).dropWaits t.quay t.slot)
    (hask : s1.searchAsk (.handler t.quay t.slot) (trapCause t n) (trapStart t s1) 9 = none)
    (hfound : s1.findHandler (.handler t.quay t.slot) (trapCause t n) (trapStart t s1) (if t.ih then 1 else 0) 9 =
      some (c, h, levels)) :
    s.takeTrap t n blk = (searchPaid t n s1).setThread (handled t n blk c h levels (searchPaid t n s1)) := by
  have hstart : (if t.ih then s.parentOf t.hctx else some t.ctx) = trapStart t s1 := by rw [hs1]; rfl
  unfold State.takeTrap
  dsimp only
  rw [hstart, ← hs1]
  change s1.searchAsk _ (if t.ih then 0x26 else n.cause) _ _ = none at hask
  change s1.findHandler _ (if t.ih then 0x26 else n.cause) _ _ _ = _ at hfound
  rw [hask, hfound]
  rfl

/-- A trap that waits for an entry on the way. -/
theorem takeTrap_blocked {t : Thread} {n : TrapNote} {blk : Word} {s s1 s2 : State}
    (hs1 : s1 = (s.leaveEntries t.quay t.slot).dropWaits t.quay t.slot)
    (hask : s1.searchAsk (.handler t.quay t.slot) (trapCause t n) (trapStart t s1) 9 = some s2) :
    s.takeTrap t n blk = s2.setThread { t with st := .blocked, on := .delivery n blk, drift := false } := by
  have hstart : (if t.ih then s.parentOf t.hctx else some t.ctx) = trapStart t s1 := by rw [hs1]; rfl
  unfold State.takeTrap
  dsimp only
  rw [hstart, ← hs1]
  change s1.searchAsk _ (if t.ih then 0x26 else n.cause) _ _ = some s2 at hask
  rw [hask]

/-- A trap without a handler up to the root. -/
theorem takeTrap_lost {t : Thread} {n : TrapNote} {blk : Word} {s s1 : State}
    (hs1 : s1 = (s.leaveEntries t.quay t.slot).dropWaits t.quay t.slot)
    (hask : s1.searchAsk (.handler t.quay t.slot) (trapCause t n) (trapStart t s1) 9 = none)
    (hfound : s1.findHandler (.handler t.quay t.slot) (trapCause t n) (trapStart t s1) (if t.ih then 1 else 0) 9 = none) :
    ∃ r, s.takeTrap t n blk = (searchPaid t n s1).lose t r true := by
  have hstart : (if t.ih then s.parentOf t.hctx else some t.ctx) = trapStart t s1 := by rw [hs1]; rfl
  unfold State.takeTrap
  dsimp only
  rw [hstart, ← hs1]
  change s1.searchAsk _ (if t.ih then 0x26 else n.cause) _ _ = none at hask
  change s1.findHandler _ (if t.ih then 0x26 else n.cause) _ _ _ = none at hfound
  rw [hask, hfound]
  exact ⟨_, rfl⟩

/-! ### A thread that is lost (R168, R371) -/

/-- A thread that stands at no barrier is not released. -/
theorem releaseBar_of_none {t : Thread} (h : t.bars = List.replicate 16 0) (g b : Nat) (stamp : BitVec 16) :
    releaseBar g b stamp t = t := by
  have hzero : t.bars.getD b 0 = 0 := by
    rw [h, List.getD_eq_getElem?_getD, List.getElem?_replicate]
    split <;> rfl
  unfold releaseBar
  rw [hzero]
  simp

theorem releaseBar_key (g b : Nat) (stamp : BitVec 16) (t : Thread) :
    (releaseBar g b stamp t).quay = t.quay ∧ (releaseBar g b stamp t).slot = t.slot := by
  unfold releaseBar
  split
  · split <;> exact ⟨rfl, rfl⟩
  · exact ⟨rfl, rfl⟩

/-- A slot's thread after each thread has changed but for where it stands. -/
theorem thread_map {s : State} {f : Thread → Thread} (hkey : ∀ t, (f t).quay = t.quay ∧ (f t).slot = t.slot) {q sl : Nat}
    (hsame : f (s.thread q sl) = s.thread q sl) :
    ({ s with threads := s.threads.map f } : State).thread q sl = s.thread q sl := by
  have hpred : ((fun t : Thread => t.quay == q && t.slot == sl) ∘ f) = fun t => t.quay == q && t.slot == sl := by
    funext t
    obtain ⟨hq, hsl⟩ := hkey t
    simp [hq, hsl]
  unfold State.thread tget at hsame ⊢
  dsimp only
  rw [List.find?_map, hpred]
  cases hfind : s.threads.find? (fun t => t.quay == q && t.slot == sl) with
  | none => rfl
  | some t =>
    rw [hfind] at hsame
    exact hsame

/-- A thread that stands at no barrier stays while barriers are settled, and nothing is sent. -/
theorem settleBars_thread {q sl : Nat} : ∀ (bs : List Barrier) (gid : Nat) (s : State),
    (s.thread q sl).bars = List.replicate 16 0 →
      (s.settleBars gid bs).thread q sl = s.thread q sl ∧ (s.settleBars gid bs).outbox = s.outbox
  | [], _, _, _ => ⟨rfl, rfl⟩
  | b :: bs, gid, s, hbars => by
    unfold State.settleBars
    dsimp only
    split
    · have hthread := thread_map (s := s.modGroup gid fun g =>
        { g with bars := tmod (fun x => x.b == b.b) (fun x => { x with count := 0, phase := x.phase + 1 }) g.bars })
        (releaseBar_key gid b.b s.stamp) (q := q) (sl := sl) (releaseBar_of_none hbars gid b.b s.stamp)
      have hrest := settleBars_thread bs gid _ ((congrArg Thread.bars hthread).trans hbars)
      exact ⟨hrest.1.trans hthread, hrest.2⟩
    · exact settleBars_thread bs gid s hbars

/-- The record of a thread that has ended: IDLE, at no barrier, outside any handler. -/
def Thread.atEnd (t : Thread) : Thread :=
  { t with
    st := .idle, on := .none, drift := false, bars := List.replicate 16 0, traprec := 0, subs := [], ih := false, late := []
    released := t.released.filter fun r => match r.kind with | .barArrive _ => false | _ => true }

theorem endThread_settles (s : State) (t : Thread) : ∃ bs, s.endThread t =
    ((((s.leaveEntries t.quay t.slot).dropWaits t.quay t.slot).modGroup t.group fun g => g.withdraw t).setThread
      t.atEnd).settleBars t.group bs := ⟨_, rfl⟩

/-- The slot of a thread that ends is IDLE. -/
theorem endThread_idle (s : State) (t : Thread) :
    ((s.endThread t).thread t.quay t.slot).st = .idle ∧ ((s.endThread t).thread t.quay t.slot).ih = false ∧
      (s.endThread t).outbox = s.outbox := by
  obtain ⟨bs, hend⟩ := endThread_settles s t
  have hset := State.thread_setThread_of_key (q := t.quay) (sl := t.slot)
    (s := ((s.leaveEntries t.quay t.slot).dropWaits t.quay t.slot).modGroup t.group fun g => g.withdraw t)
    (t := t.atEnd) rfl rfl
  obtain ⟨hthread, hout⟩ := settleBars_thread (q := t.quay) (sl := t.slot) bs t.group _ (congrArg Thread.bars hset)
  rw [hend, hthread, hout, hset]
  exact ⟨rfl, rfl, rfl⟩

/-- A thread that is lost leaves an IDLE slot, and its record is sent. -/
theorem lose_reported (s : State) (t : Thread) (r : BitVec 512) :
    ((s.lose t r true).thread t.quay t.slot).st = .idle ∧ ((s.lose t r true).thread t.quay t.slot).ih = false ∧
      (s.lose t r true).outbox.length = s.outbox.length + 1 := by
  obtain ⟨hst, hih, hout⟩ := endThread_idle (s.modGroup t.group fun g => { g with nlost := g.nlost + 1 }) t
  unfold State.lose
  dsimp only
  rw [if_pos rfl]
  generalize (s.modGroup t.group fun g => { g with nlost := g.nlost + 1 }).endThread t = u at *
  refine ⟨hst, hih, ?_⟩
  exact (List.length_append ..).trans (congrArg (· + 1) (congrArg List.length hout))

/-! ### Settling O51 -/

/-- The search for a handler keeps the memories and what was sent. -/
theorem searchPaid_keeps (t : Thread) (n : TrapNote) (s : State) :
    (searchPaid t n s).mem = s.mem ∧ (searchPaid t n s).vmem = s.vmem ∧ (searchPaid t n s).outbox = s.outbox := by
  have h := chargeSearch_unmetered (.handler t.quay t.slot) (trapCause t n) t.runCtx 9 (trapStart t s) s
  unfold searchPaid
  generalize s.chargeSearch (.handler t.quay t.slot) (trapCause t n) t.runCtx (trapStart t s) 9 = u at h ⊢
  have hmem : u.unmetered.mem = s.unmetered.mem := by rw [h]
  have hvmem : u.unmetered.vmem = s.unmetered.vmem := by rw [h]
  have hout : u.unmetered.outbox = s.unmetered.outbox := by rw [h]
  exact ⟨hmem, hvmem, hout⟩

/-- Settles O51. -/
theorem trapsAreTaken : Obligations.TrapsAreTaken := by
  unfold Obligations.TrapsAreTaken
  refine ⟨fun t n blk s => ⟨?outside, ?inside, ?lost, ?waits⟩, fun s y cause c levels fuel => ⟨?here, ?root, ?above, ?none⟩⟩
  case outside =>
    intro c h levels hih hask hfound
    have hcause : trapCause t n = n.cause := if_neg (Bool.eq_false_iff.mp hih)
    have hstart : ∀ u, trapStart t u = some t.ctx := fun u => if_neg (Bool.eq_false_iff.mp hih)
    have hlevels : (if t.ih then 1 else 0) = 0 := if_neg (Bool.eq_false_iff.mp hih)
    have htaken := takeTrap_handled (t := t) (n := n) (blk := blk) (s := s) rfl (by rw [hcause, hstart]; exact hask)
      (by rw [hcause, hstart, hlevels]; exact hfound)
    obtain ⟨hmem, hvmem, hsent⟩ := searchPaid_keeps t n ((s.leaveEntries t.quay t.slot).dropWaits t.quay t.slot)
    rw [htaken]
    generalize searchPaid t n ((s.leaveEntries t.quay t.slot).dropWaits t.quay t.slot) = v at *
    have hr := State.thread_setThread_of_key (s := v) (q := t.quay) (sl := t.slot) (t := handled t n blk c h levels v) rfl rfl
    rw [hr]
    obtain ⟨hc, -, hl, hctx, horig, hblk⟩ := trapRecord_fields { n with cause := trapCause t n } (if t.ih then n.cause else 0)
      levels t.ctx c v.clock blk (if t.subBlk == blk then t.subs else []).length
    exact ⟨rfl, rfl, rfl, rfl, rfl, rfl, rfl, hc.trans hcause, hblk, hl, hctx, horig, hmem, hvmem⟩
  case inside =>
    intro c h levels hih hask hfound
    have hcause : trapCause t n = 0x26 := if_pos hih
    have hstart : ∀ u, trapStart t u = u.parentOf t.hctx := fun u => if_pos hih
    have hlevels : (if t.ih then 1 else 0) = 1 := if_pos hih
    have hsub : (if t.ih then n.cause else 0) = n.cause := if_pos hih
    have htaken := takeTrap_handled (t := t) (n := n) (blk := blk) (s := s) rfl (by rw [hcause, hstart]; exact hask)
      (by rw [hcause, hstart, hlevels]; exact hfound)
    rw [htaken]
    generalize searchPaid t n ((s.leaveEntries t.quay t.slot).dropWaits t.quay t.slot) = v at *
    have hr := State.thread_setThread_of_key (s := v) (q := t.quay) (sl := t.slot) (t := handled t n blk c h levels v) rfl rfl
    rw [hr]
    obtain ⟨hc, hfirst, hl, -, -, -⟩ := trapRecord_fields { n with cause := trapCause t n } (if t.ih then n.cause else 0)
      levels t.ctx c v.clock blk (if t.subBlk == blk then t.subs else []).length
    exact ⟨rfl, rfl, rfl, hc.trans hcause, hfirst.trans hsub, hl⟩
  case lost =>
    intro hih hask hfound
    have hcause : trapCause t n = n.cause := if_neg (Bool.eq_false_iff.mp hih)
    have hstart : ∀ u, trapStart t u = some t.ctx := fun u => if_neg (Bool.eq_false_iff.mp hih)
    have hlevels : (if t.ih then 1 else 0) = 0 := if_neg (Bool.eq_false_iff.mp hih)
    obtain ⟨r, hlost⟩ := takeTrap_lost (t := t) (n := n) (blk := blk) (s := s) rfl (by rw [hcause, hstart]; exact hask)
      (by rw [hcause, hstart, hlevels]; exact hfound)
    obtain ⟨hmem, hvmem, hsent⟩ := searchPaid_keeps t n ((s.leaveEntries t.quay t.slot).dropWaits t.quay t.slot)
    rw [hlost]
    generalize searchPaid t n ((s.leaveEntries t.quay t.slot).dropWaits t.quay t.slot) = v at *
    obtain ⟨hst, hih', hout⟩ := lose_reported v t r
    exact ⟨hst, hih', hout.trans (congrArg (fun l => List.length l + 1) hsent)⟩
  case waits =>
    intro s2 hih hask
    have hcause : trapCause t n = n.cause := if_neg (Bool.eq_false_iff.mp hih)
    have hstart : ∀ u, trapStart t u = some t.ctx := fun u => if_neg (Bool.eq_false_iff.mp hih)
    exact takeTrap_blocked (t := t) (n := n) (blk := blk) (s := s) rfl (by rw [hcause, hstart]; exact hask)
  case here =>
    intro h hhere
    simp only [State.findHandler, hhere]
  case root =>
    intro hhere hc
    simp only [State.findHandler, hhere, State.parentOf, if_pos hc]
  case above =>
    intro hhere hc
    simp only [State.findHandler, hhere, State.parentOf, if_neg hc]
  case none =>
    simp only [State.findHandler]

end Sys2Proof.Machine

namespace Sys2Proof.Machine
open Sys2Proof.Safety

/-! ### What a save takes out of a quay (R377, R378) -/

/-- The threads, and the pre-emptions in progress. -/
def State.stands (s : State) : List Thread × List Preempt := (s.threads, s.preempts)

theorem sendLinks_stands (s : State) (c : Nat) (ms : List LinkOut) : (s.sendLinks c ms).stands = s.stands :=
  foldl_keeps State.stands (fun u (m : LinkOut) => u.charge meterLink c 13 m.bytes) (fun _ _ => rfl) ms s

theorem cutGemm_stands (s : State) (o : EngOp) : (s.cutGemm o).stands = s.stands := by
  unfold State.cutGemm
  dsimp only
  split <;> rfl

theorem withdraw_stands (s : State) (p : Pass) : (s.withdraw p).stands = s.stands := sendLinks_stands _ _ _

theorem withdrawFar_stands (s : State) (mine : Waiter → Bool) : (s.withdrawFar mine).stands = s.stands :=
  foldl_keeps State.stands (fun u (x : Remote × LinkOut) => u.sendLinks (u.waiterCtx x.1.who) [x.2])
    (fun u _ => sendLinks_stands u _ _) _ { s with remotes := s.remotes.filter fun r => !mine r.who }

/-- A quay whose state is captured holds no thread; the section holds those that it had. -/
theorem capture_threads (s : State) (c j q : Nat) (drain : Bool) (since : Nat) :
    (s.capture c j q drain since).2.threads = s.threads.filter (fun t => t.quay != q) ∧
      (s.capture c j q drain since).2.preempts = s.preempts ∧
      (s.capture c j q drain since).1.ctx = c ∧ (s.capture c j q drain since).1.sect = j ∧
      (s.capture c j q drain since).1.quay = q ∧
      (s.capture c j q drain since).1.threads = s.threads.filter fun t => t.quay == q && t.st != .free := by
  have hcut := foldl_keeps State.stands State.cutGemm cutGemm_stands
    (s.ops.filter fun o => o.quay == q && o.kind == .seqGemm && !o.finished) s
  unfold State.capture
  dsimp only
  generalize (s.ops.filter fun o => o.quay == q && o.kind == .seqGemm && !o.finished).foldl State.cutGemm s = u at hcut ⊢
  have hleft := fun mine => (withdrawFar_stands ((u.passes.filter fun p => p.live && p.quay == q).foldl State.withdraw u) mine).trans
    ((foldl_keeps State.stands State.withdraw withdraw_stands (u.passes.filter fun p => p.live && p.quay == q) u).trans hcut)
  have hthreads := fun mine => congrArg Prod.fst (hleft mine)
  have hpreempts := fun mine => congrArg Prod.snd (hleft mine)
  exact ⟨congrArg (List.filter fun t => t.quay != q) (hthreads _), hpreempts _, rfl, rfl, rfl,
    congrArg (List.filter fun t => t.quay == q && t.st != .free) (hthreads _)⟩

/-- A busy quay's state goes to its section, and its save is ordered. -/
theorem saveQuay_of_busy {s : State} {p : Preempt} {q j : Nat} (hslot : (s.ctx (s.assignee q)).slotOf q = some j)
    (hbusy : s.quayBusy q = true) :
    (∀ t ∈ (s.saveQuay p q).threads, t.quay ≠ q) ∧ (s.saveQuay p q).preempts = s.preempts ∧
      (∃ x ∈ (s.saveQuay p q).sections, x.ctx = s.assignee q ∧ x.sect = j ∧ x.quay = q ∧
        x.threads = s.threads.filter fun t => t.quay == q && t.st != .free) ∧
      ∃ v ∈ (s.saveQuay p q).saves, v.ctx = s.assignee q ∧ v.quay = q ∧ v.sect = j ∧ v.restore = false ∧ v.owner = p.id := by
  have hslot' : (({ s with saves := s.saves.filter fun v => !(v.restore && v.quay == q) } : State).ctx (s.assignee q)).slotOf q =
      some j := hslot
  have hbusy' : ({ s with saves := s.saves.filter fun v => !(v.restore && v.quay == q) } : State).quayBusy q = true := hbusy
  unfold State.saveQuay
  dsimp only
  rw [hslot']
  dsimp only
  simp only [hbusy', Bool.true_eq_false, decide_false, Bool.false_and, Bool.false_eq_true, if_false]
  obtain ⟨hthreads, hpreempts, hctx, hsect, hquay, htaken⟩ := capture_threads
    { s with saves := s.saves.filter fun v => !(v.restore && v.quay == q), freeCtr := s.freeCtr + 1 } (s.assignee q) j q p.drain
    (((p.since.find? fun x => x.1 == q).map (·.2)).getD s.clock)
  refine ⟨fun t ht => ?_, hpreempts, ⟨_, List.mem_append_right _ (List.mem_singleton_self _), hctx, hsect, hquay, htaken⟩,
    ⟨_, List.mem_append_right _ List.mem_cons_self, rfl, rfl, rfl, rfl, rfl⟩⟩
  have ht' : t ∈ s.threads.filter fun t => t.quay != q := hthreads ▸ ht
  exact bne_iff_ne.mp (List.mem_filter.mp ht').2

/-! ### Agents answer (R378, R379) -/

/-- The pre-emption once an agent of it has answered. -/
def Preempt.answered (p : Preempt) (agent : StopAgent) : Preempt := { p with awaiting := p.awaiting.filter (· != agent) }

theorem preemptStopReached_of_stopped {s : State} {n : Nat} {p : Preempt} {agent : StopAgent} (hp : s.preempts[n]? = some p)
    (hwaits : p.awaiting.contains agent = true) (hstopped : s.agentStopped p agent = true) :
    exec (.preemptStopReached n agent) s =
      .next ((s.modPreempt p.id fun p => p.answered agent).startSaves p.id) := by
  refine congrArg Host.Outcome.next ?_
  simp only [hp, if_pos (And.intro hwaits hstopped)]
  rfl

/-- A change of the one pre-emption in progress. -/
theorem modPreempt_one {s : State} {p : Preempt} (hp : s.preempts = [p]) (f : Preempt → Preempt) :
    s.modPreempt p.id f = { s with preempts := [f p] } := by
  simp only [State.modPreempt, hp, tmod, List.map_cons, List.map_nil, beq_self_eq_true, if_true]

/-- Nothing is saved while agents are waited for, but at a slice's end. -/
theorem startSaves_of_awaiting {s : State} {p : Preempt} (hp : s.preempts = [p]) (hslice : p.slice = false)
    (hwaits : p.awaiting ≠ []) : s.startSaves p.id = s := by
  have hempty : p.awaiting.isEmpty = false := List.isEmpty_eq_false_iff.mpr hwaits
  have hdue : p.due = [] := by
    simp only [Preempt.due, hslice, hempty, Bool.false_eq_true, if_false]
  have hfind : [p].find? (fun x => x.id == p.id) = some p := List.find?_cons_of_pos (beq_self_eq_true _)
  unfold State.startSaves
  rw [hp, hfind]
  dsimp only
  rw [hdue]
  refine (modPreempt_one hp _).trans ?_
  simp only [List.append_nil, hempty, Bool.false_and, Bool.or_false]
  rw [← hp]

/-- The last agent's answer orders the save of the one quay that is pre-empted. -/
theorem startSaves_of_quay {s : State} {p : Preempt} {q : Nat} (hp : s.preempts = [p]) (hslice : p.slice = false)
    (hwaits : p.awaiting = []) (hquays : p.quays = [q]) (hsaved : p.saved = []) :
    s.startSaves p.id = (s.saveQuay p q).modPreempt p.id fun p =>
      { p with saved := p.saved ++ [q], ending := p.ending || (p.awaiting.isEmpty && p.todo.isEmpty) } := by
  have hdue : p.due = [q] := by
    simp [Preempt.due, hslice, hwaits, hquays, hsaved]
  have hfind : [p].find? (fun x => x.id == p.id) = some p := List.find?_cons_of_pos (beq_self_eq_true _)
  unfold State.startSaves
  rw [hp, hfind]
  dsimp only
  rw [hdue, List.foldl_cons, List.foldl_nil, hslice]
  rfl

/-- The last answer of a pre-emption of one busy quay takes its state into its section. -/
theorem stopReached_saves {s : State} {p : Preempt} {agent : StopAgent} {q j : Nat} (hp : s.preempts = [p])
    (hwaits : p.awaiting = [agent]) (hstopped : s.agentStopped p agent = true) (hslice : p.slice = false) (htodo : p.todo = [])
    (hsaved : p.saved = []) (hquays : p.quays = [q]) (hslot : (s.ctx (s.assignee q)).slotOf q = some j)
    (hbusy : s.quayBusy q = true) :
    ∃ u, exec (.preemptStopReached 0 agent) s = .next u ∧ (∀ t ∈ u.threads, t.quay ≠ q) ∧
      (∃ x ∈ u.sections, x.ctx = s.assignee q ∧ x.sect = j ∧ x.quay = q ∧
        x.threads = s.threads.filter fun t => t.quay == q && t.st != .free) ∧
      (∃ v ∈ u.saves, v.ctx = s.assignee q ∧ v.quay = q ∧ v.sect = j ∧ v.restore = false ∧ v.owner = p.id) ∧
      ∃ y ∈ u.preempts, y.id = p.id ∧ y.awaiting = [] ∧ y.ending = true := by
  have hget : s.preempts[0]? = some p := by rw [hp]; rfl
  have hcontains : p.awaiting.contains agent = true := by simp [hwaits]
  have hnone : (p.answered agent).awaiting = [] := by simp [Preempt.answered, hwaits]
  have hexec := preemptStopReached_of_stopped hget hcontains hstopped
  have hstart := startSaves_of_quay (s := { s with preempts := [p.answered agent] }) (p := p.answered agent) rfl hslice hnone hquays hsaved
  obtain ⟨hthreads, hpreempts, hsections, hsaves⟩ := saveQuay_of_busy (s := { s with preempts := [p.answered agent] })
    (p := p.answered agent) hslot hbusy
  rw [modPreempt_one hp] at hexec
  refine ⟨_, hexec.trans (congrArg Host.Outcome.next hstart), hthreads, hsections, hsaves, ?_⟩
  rw [modPreempt_one hpreempts]
  refine ⟨_, List.mem_singleton_self _, rfl, hnone, ?_⟩
  have hdone : (p.answered agent).todo = [] := htodo
  simp only [hnone, hdone, List.isEmpty_nil, Bool.and_self, Bool.or_true]

/-! ### Threads turned back (R377) -/

/-- Memories, passes, the device and a slot's state. -/
def State.slotKept (q sl : Nat) (s : State) : Mem × Mem × Pass × List Pass × Device × SlotSt :=
  (s.mem, s.vmem, s.pass, s.parked, s.dev, (s.thread q sl).st)

/-- A slot's state after each thread has changed but for where it stands and its state. -/
theorem thread_map_st {l : List Thread} {f : Thread → Thread}
    (hkey : ∀ t, (f t).quay = t.quay ∧ (f t).slot = t.slot ∧ (f t).st = t.st) (q sl : Nat) :
    (tget (fun t : Thread => t.quay == q && t.slot == sl) { quay := q, slot := sl } (l.map f)).st =
      (tget (fun t : Thread => t.quay == q && t.slot == sl) { quay := q, slot := sl } l).st := by
  have hpred : ((fun t : Thread => t.quay == q && t.slot == sl) ∘ f) = fun t => t.quay == q && t.slot == sl := by
    funext t
    obtain ⟨hq, hsl, -⟩ := hkey t
    simp [hq, hsl]
  unfold tget
  rw [List.find?_map, hpred]
  cases l.find? (fun t => t.quay == q && t.slot == sl) with
  | none => rfl
  | some t => exact (hkey t).2.2

theorem rebuild_slot (s : State) (r q sl : Nat) : (s.rebuild r).slotKept q sl = s.slotKept q sl := by
  unfold State.rebuild
  split
  · refine congrArg (fun st => (s.mem, s.vmem, s.pass, s.parked, s.dev, st)) (thread_map_st (fun t => ?_) q sl)
    split <;> exact ⟨rfl, rfl, rfl⟩
  · rfl

theorem closeOne_slot (s : State) (r q sl : Nat) : (s.closeOne r).slotKept q sl = s.slotKept q sl := by
  unfold State.closeOne
  dsimp only
  split
  · rfl
  · split <;> rfl

theorem tidy_slot (s : State) (r q sl : Nat) : (s.tidy r).slotKept q sl = s.slotKept q sl := by
  unfold State.tidy
  dsimp only
  rw [closeOne_slot, rebuild_slot]
  rfl

/-- A thread that arrives at its block keeps its state. -/
theorem arrive_slot (s : State) (q sl : Nat) (plane : Option Nat) : (s.arrive q sl plane).slotKept q sl = s.slotKept q sl := by
  have hset : ∀ (u : State) (t : Thread), u.slotKept q sl = s.slotKept q sl → t.quay = q → t.slot = sl → t.st = (s.thread q sl).st →
      (u.setThread t).slotKept q sl = s.slotKept q sl := by
    intro u t hu hq hsl hst
    have hthread := State.thread_setThread_of_key (s := u) hq hsl
    simp only [State.slotKept, Prod.mk.injEq] at hu ⊢
    obtain ⟨hmem, hvmem, hpass, hparked, hdev, -⟩ := hu
    exact ⟨hmem, hvmem, hpass, hparked, hdev, (congrArg Thread.st hthread).trans hst⟩
  obtain ⟨hq, hsl⟩ := s.thread_key q sl
  unfold State.arrive
  dsimp only
  split
  · rfl
  · split
    · split
      · rw [closeOne_slot]
        exact hset s _ rfl hq hsl rfl
      · exact hset _ _ rfl hq hsl rfl
    · split
      · exact hset s _ rfl hq hsl rfl
      · rw [closeOne_slot]
        exact hset s _ rfl hq hsl rfl

theorem endRemote_slot (s : State) (p : Pass) (q sl : Nat) : (s.endRemote p).slotKept q sl = s.slotKept q sl :=
  foldl_keeps (State.slotKept q sl) (fun u (m : LinkOut) => u.charge meterLink p.ctx 13 m.bytes) (fun _ _ => rfl) _
    { s with remotes := _ }

/-- The only pass in flight is turned back: its thread waits again. -/
theorem turnBack_of_only {s : State} {x : Pass} (hpass : s.pass = x) (hlive : x.live = true) (hleaving : x.leaving = 0)
    (hparked : s.parked = []) :
    (s.turnBack x).slotKept x.quay x.slot = (s.mem, s.vmem, {}, [],
      { s.dev with err := { s.dev.err with replays := s.dev.err.replays + 1 } }, .waiting) := by
  have hdrop : s.dropPass x.quay x.plane x.tag = { s with pass := {}, parked := [] } := by
    simp only [State.dropPass, hpass, hparked, hlive, List.filter_nil, beq_self_eq_true, Bool.and_self, if_true]
  have hended := endRemote_slot (({ s with pass := {}, parked := [] } : State).freeTag x.quay x.plane x.tag) x x.quay x.slot
  unfold State.turnBack
  rw [if_neg (not_not.mpr hleaving), hdrop]
  dsimp only
  rw [arrive_slot]
  generalize (({ s with pass := {}, parked := [] } : State).freeTag x.quay x.plane x.tag).endRemote x = u at hended ⊢
  obtain ⟨hq, hsl⟩ := u.thread_key x.quay x.slot
  have hthread := State.thread_setThread_of_key (q := x.quay) (sl := x.slot)
    (s := { u.forget x with dev := { (u.forget x).dev with err := { (u.forget x).dev.err with
      replays := (u.forget x).dev.err.replays + 1 } } })
    (t := { u.thread x.quay x.slot with st := .waiting }) hq hsl
  simp only [State.slotKept, Prod.mk.injEq] at hended ⊢
  obtain ⟨hmem, hvmem, hpass', hparked', hdev, -⟩ := hended
  have hdev' : (u.forget x).dev = s.dev := hdev
  exact ⟨hmem, hvmem, hpass', hparked', congrArg (fun d : Device => { d with err := { d.err with replays := d.err.replays + 1 } }) hdev',
    congrArg Thread.st hthread⟩

theorem preemptDrainLimit_of_drain {s : State} {n : Nat} {p : Preempt} (hp : s.preempts[n]? = some p) (hdrain : p.drain = true) :
    let qs := (p.since.filter fun x => decide (s.clock ≥ x.2 + 1024)).map (·.1)
    exec (.preemptDrainLimit n) s = .next (qs.foldl State.tidy
      ((s.passes.filter fun x => qs.contains x.quay).foldl State.turnBack s)) := by
  refine congrArg Host.Outcome.next ?_
  simp only [hp, hdrain, Bool.true_eq_false, if_false]

/-- The only pass of a quay that has drained for 1,024 cycles. -/
theorem preemptDrainLimit_of_only {s : State} {n t0 : Nat} {p : Preempt} {x : Pass} (hp : s.preempts[n]? = some p)
    (hdrain : p.drain = true) (hsince : p.since = [(x.quay, t0)]) (hlate : t0 + 1024 ≤ s.clock) (hpass : s.pass = x)
    (hlive : x.live = true) (hleaving : x.leaving = 0) (hparked : s.parked = []) :
    ∃ u, exec (.preemptDrainLimit n) s = .next u ∧ u.passes = [] ∧
      (u.thread x.quay x.slot).st = .waiting ∧ u.dev.err.replays = s.dev.err.replays + 1 ∧ u.mem = s.mem ∧ u.vmem = s.vmem := by
  have hqs : (p.since.filter fun x => decide (s.clock ≥ x.2 + 1024)).map (·.1) = [x.quay] := by
    simp [hsince, hlate]
  have hpasses : s.passes.filter (fun y => [x.quay].contains y.quay) = [x] := by
    simp [State.passes, hpass, hlive, hparked]
  have hexec := preemptDrainLimit_of_drain hp hdrain
  dsimp only at hexec
  rw [hqs, hpasses] at hexec
  have hkept := (tidy_slot (s.turnBack x) x.quay x.quay x.slot).trans (turnBack_of_only hpass hlive hleaving hparked)
  refine ⟨_, hexec, ?_⟩
  rw [List.foldl_cons, List.foldl_nil, List.foldl_cons, List.foldl_nil]
  generalize (s.turnBack x).tidy x.quay = u at hkept ⊢
  simp only [State.slotKept, Prod.mk.injEq] at hkept
  obtain ⟨hmem, hvmem, hpass', hparked', hdev, hst⟩ := hkept
  refine ⟨?_, hst, by rw [hdev], hmem, hvmem⟩
  simp only [State.passes, hpass', hparked', List.append_nil]
  rfl

/-! ### The end of a pre-emption (R379, R384) -/

/-- A change of each of several contexts' headers, which a lost context's keeps. -/
theorem headers_of_kept {l : List Nat} {r : State} (hkept : ∀ c ∈ l, (r.ctx c).lost = false) (bs : State → Nat → List Byte) :
    l.foldl (fun s c => if (s.ctx c).lost then s else s.header (s.ctx c) 0 (bs s c)) r =
      l.foldl (fun s c => s.header (s.ctx c) 0 (bs s c)) r := by
  induction l generalizing r with
  | nil => rfl
  | cons c cs ih =>
    have hfirst : (r.ctx c).lost = false := hkept c List.mem_cons_self
    rw [List.foldl_cons, List.foldl_cons, hfirst, if_neg Bool.false_ne_true]
    refine ih fun d hd => ?_
    rw [ctx_of_control (header_control r _ 0 _)]
    exact hkept d (List.mem_cons_of_mem _ hd)

/-- Once every save is written, the pre-emption is over. -/
theorem preemptionComplete_of_written {s : State} {n : Nat} {p : Preempt} :
    let cs := ((p.quays.map s.assignee) ++ (if p.only then [] else [p.root])).eraseDups
    let r : State := { s with
      preempts := s.preempts.filter fun x => x.id != p.id
      absent := if p.retire then p.quays.foldl (fun l q => addOnce q l) s.absent else s.absent
      dev := { s.dev with err := { s.dev.err with
        retired := s.dev.err.retired + if p.retire then p.quays.length else 0 } } }
    s.preempts[n]? = some p → p.ending = true → (∀ v ∈ s.saves, v.owner ≠ p.id) →
    (∀ c ∈ cs, s.areaPending (s.ctx c) = false) → (∀ c ∈ cs, (s.ctx c).lost = false) →
    exec (.preemptionComplete n) s = .next (cs.foldl (fun s c =>
      s.header (s.ctx c) 0 (leBytes 8 (if s.allSaved c then 2 else 0))) r) := by
  intro cs r hp hending hsaves hareas hlost
  have hsaves' : (s.saves.any fun v => v.owner == p.id) = false :=
    List.any_eq_false.mpr fun v hv => by simpa using hsaves v hv
  have hareas' : (cs.any fun c => s.areaPending (s.ctx c)) = false :=
    List.any_eq_false.mpr fun c hc => by simpa using hareas c hc
  have hheads := headers_of_kept (l := cs) (r := r) hlost fun s c => leBytes 8 (if s.allSaved c then 2 else 0)
  refine congrArg Host.Outcome.next ((?_ : _ = _).trans hheads)
  simp only [hp, hending, hsaves', Bool.true_eq_false, Bool.false_eq_true, false_or]
  rw [if_neg (Bool.eq_false_iff.mp hareas')]
  cases hretire : p.retire with
  | false => simp only [r, hretire, Bool.false_eq_true, if_false, Nat.add_zero]; rfl
  | true => simp only [r, hretire, if_true]; rfl

/-! ### A write of a header (R381, R384) -/

/-- A due write whose line is at home is performed. -/
theorem header_of_home {s : State} {c : Ctx} {off : Nat} {bs : List Byte} (hmaxq : c.maxq ≠ 0) (hbs : 0 < bs.length)
    (hline : (c.save + off) % 128 + bs.length ≤ 128) (hdue : s.areaDue = []) (hdir : s.hasDir ((c.save + off) / 128) = false)
    (hheld : s.heldRemotely ((c.save + off) / 128) = false) (hpage : (s.frzOf ((c.save + off) / 65536)).st = .normal)
    (hcollecting : s.collecting = []) :
    s.header c off bs = (reachCharged (s.areaPlace (c.save + off)) ((c.save + off) / 128) (s.areaCtx (c.save + off))
      (s.payBy (s.areaCtx (c.save + off)))).gwrite (c.save + off) bs false := by
  have hclear : ({ s with areaDue := [] } : State) = s := by rw [← hdue]
  unfold State.header
  rw [if_neg hmaxq]
  generalize c.save + off = pa at *
  have hcut := cutAt_of_line (unit := 128) 0 bs.length hbs hline
  have hwant : (s.payBy (s.areaCtx pa)).wantAll (pa / 128) = (true, s.payBy (s.areaCtx pa)) := by
    refine (if_pos hdir).trans ?_
    simp only [State.payBy, hcollecting, List.filter_nil]
  have hturn : s.areaWrite pa bs = [(pa, bs)].foldl (fun s x =>
      let line := x.1 / 128
      let later (s : State) : State := { s with areaDue := s.areaDue ++ [x] }
      if s.areaDue.any (fun y => y.1 / 128 == line) || (s.frzOf (x.1 / 65536)).st != .normal || s.heldRemotely line then later s
      else
        let r := (s.payBy (s.areaCtx x.1)).wantAll line
        if r.1 then (r.2.chargeAt (s.areaPlace x.1) line (s.areaCtx x.1)).gwrite x.1 x.2 false else later r.2) s := by
    simp only [State.areaWrite, State.areaTurn, hdue, hcut, List.nil_append, List.map_cons, List.map_nil, Nat.add_zero,
      List.drop_zero, List.take_length]
    rw [hclear]
  rw [hturn]
  simp only [List.foldl_cons, List.foldl_nil, hdue, List.any_nil, hpage, bne_self_eq_false, hheld, Bool.or_self,
    Bool.false_eq_true, if_false, hwant, if_true]
  rfl

/-! ### The lamplighter token (R391) -/

/-- The quays of a partition over which the token sets out. -/
def sliceQuays (s : State) (part : Nat) : List Nat :=
  (List.range 256).filter fun q => s.partOfQuay q == part && s.assignee q != 0 && !s.absent.contains q && !s.exchanging q &&
    !s.preempts.any (fun p => p.quays.contains q || p.todo.contains q)

theorem timeSliceEnd_sets_out (s : State) (part : Nat) :
    (sliceQuays s part ≠ [] → exec (.timeSliceEnd part) s = .next { s with
      nextId := s.nextId + 1
      preempts := s.preempts ++ [{ id := s.nextId, root := 0, todo := sliceQuays s part, only := true, slice := true }] }) ∧
    (sliceQuays s part = [] → exec (.timeSliceEnd part) s = .next s) := by
  refine ⟨fun h => congrArg Host.Outcome.next (if_neg ?_), fun h => congrArg Host.Outcome.next (if_pos ?_)⟩
  · exact fun hempty => h (List.isEmpty_iff.mp hempty)
  · exact List.isEmpty_iff.mpr h

/-- The token reaches the next quay. -/
theorem lamplighterArrival_stops {s : State} {p : Preempt} {q : Nat} {rest : List Nat}
    (hp : s.preempts.find? (fun p => !p.todo.isEmpty) = some p) (htodo : p.todo = q :: rest) (hfree : s.exchanging q = false)
    (hlost : (s.ctx (s.assignee q)).lost = false) :
    let x := s.ctx (s.assignee q)
    let t := (s.header x 0 (leBytes 8 1)).header x 8 (leBytes 8 1)
    let agents := (stopAgents [q]).filter fun a => !p.awaiting.contains a
    exec .lamplighterArrival s = .next (t.modPreempt p.id fun p => { p with
      quays := p.quays ++ [q], todo := rest, since := p.since ++ [(q, t.clock)], awaiting := p.awaiting ++ agents }) := by
  refine congrArg Host.Outcome.next ?_
  simp only [hp, htodo, hfree, hlost, Bool.false_eq_true, if_false]

/-! ### Exhaustion (R442) -/

/-- The pre-emption that begins is in progress. -/
theorem beginPreempt_mem (s : State) (root : Nat) (qs : List Nat) (drain only : Bool) :
    ∃ p ∈ (s.beginPreempt root qs drain only).2.preempts, p.root = root ∧ p.quays = qs ∧ p.drain = drain ∧
      p.awaiting = stopAgents qs := by
  let p : Preempt := { id := s.nextId, root := root, quays := qs, drain := drain, only := only
                       since := qs.map fun q => (q, s.clock), awaiting := stopAgents qs }
  have hkept : (s.beginPreempt root qs drain only).2.control =
      ({ s with nextId := s.nextId + 1, preempts := s.preempts ++ [p] } : State).control := by
    refine foldl_keeps State.control _ (fun s c => ?_) _ _
    dsimp only
    split
    · rfl
    · rw [header_control, header_control]
  have hpreempts : (s.beginPreempt root qs drain only).2.preempts = s.preempts ++ [p] := by
    show (s.beginPreempt root qs drain only).2.control.preempts = s.preempts ++ [p]
    rw [hkept]
    rfl
  rw [hpreempts]
  exact ⟨p, List.mem_append_right _ (List.mem_singleton_self _), rfl, rfl, rfl, rfl⟩

/-- A context that is exhausted is stopped in drain mode, and the control node is told. -/
theorem exhaustionPreempt_stops {s : State} {c : Nat} (hc : c ≠ 0) (hlive : s.ctxLive c = true)
    (hexhausted : (s.ctx c).exhausted = true) (hrun : (s.ctx c).run = true) :
    let t := s.setCtx { s.ctx c with run := false }
    let u := (t.beginPreempt c (t.subtreeQuays c) true false).2
    exec (.exhaustionPreempt c) s = .next (u.send 0x86 c 0
        (leBytes 8 c ++ leBytes 8 (s.ctx c).used.toNat ++ leBytes 8 u.clock)) ∧
      (u.ctx c).run = false ∧
      ∃ p ∈ u.preempts, p.root = c ∧ p.quays = t.subtreeQuays c ∧ p.drain = true ∧ p.awaiting = stopAgents p.quays := by
  intro t u
  have hstops : ¬ (c = 0 ∨ s.ctxLive c = false ∨ (s.ctx c).exhausted = false ∨ (s.ctx c).run = false) := by
    rw [hlive, hexhausted, hrun]
    simp [hc]
  have hctxs : u.ctxs = t.ctxs := congrArg Prod.fst (beginPreempt_keeps t c (t.subtreeQuays c) true false)
  have hwritten : t.ctx c = { s.ctx c with run := false } := ctx_setCtx (ctx_num s c) hlive
  have hctx : u.ctx c = t.ctx c := congrArg (tget (fun x : Ctx => x.num == c) { num := c }) hctxs
  obtain ⟨p, hp, hroot, hquays, hdrain, hawaiting⟩ := beginPreempt_mem t c (t.subtreeQuays c) true false
  refine ⟨congrArg Host.Outcome.next (if_neg hstops), ?_, p, hp, hroot, hquays, hdrain, hquays ▸ hawaiting⟩
  rw [hctx, hwritten]

/-- Settles O52. -/
theorem preemptionsComplete : Obligations.PreemptionsComplete := by
  unfold Obligations.PreemptionsComplete
  intro n s
  refine ⟨fun p agent hp hwaits hstopped => preemptStopReached_of_stopped hp hwaits hstopped, ?others,
    fun p agent q j hp hwaits hstopped hslice htodo hsaved hquays hslot hbusy =>
      stopReached_saves hp hwaits hstopped hslice htodo hsaved hquays hslot hbusy,
    fun p hp hdrain => preemptDrainLimit_of_drain hp hdrain,
    fun p x t0 hp hdrain hsince hlate hpass hlive hleaving hparked =>
      preemptDrainLimit_of_only hp hdrain hsince hlate hpass hlive hleaving hparked,
    fun p => preemptionComplete_of_written,
    fun c off bs hmaxq hbs hline hdue hdir hheld hpage hcollecting =>
      header_of_home hmaxq hbs hline hdue hdir hheld hpage hcollecting,
    fun part => timeSliceEnd_sets_out s part,
    fun p q rest hp htodo hfree hlost => lamplighterArrival_stops hp htodo hfree hlost,
    fun c hc hlive hexhausted hrun => exhaustionPreempt_stops hc hlive hexhausted hrun⟩
  case others =>
    intro p agent hp hwaits hstopped hslice hmore
    have hget : s.preempts[0]? = some p := by rw [hp]; rfl
    have hexec := preemptStopReached_of_stopped hget hwaits hstopped
    rw [modPreempt_one hp] at hexec
    exact hexec.trans (congrArg Host.Outcome.next
      (startSaves_of_awaiting (s := { s with preempts := [p.answered agent] }) (p := p.answered agent) rfl hslice hmore))

end Sys2Proof.Machine

namespace Sys2Proof.Machine
open Sys2Proof.Safety

/-! ### Saves (R382, R384, R393) -/

/-- A chunk of a save once its bytes are written and charged. -/
def chunkWritten (v : SaveOp) (s : State) : State :=
  ((firstChunk v.frags).1.foldl (fun u g => u.areaWrite ((s.ctx v.ctx).save + sectOff v.sect + g.1) g.2) s).charge
    (meterQuay v.quay) v.ctx 15 (((firstChunk v.frags).1.map fun g => g.2.length).foldl (· + ·) 0)

theorem saveChunk_writes {n : Nat} {v : SaveOp} {s : State} (hv : s.saves[n]? = some v) (hsave : v.restore = false)
    (hgoes : s.saveStopped v = false) :
    let base := (s.ctx v.ctx).save + sectOff v.sect
    let now := (firstChunk v.frags).1
    let rest := (firstChunk v.frags).2
    let t := chunkWritten v s
    let last := (t.dropSave n).markSect v.ctx v.sect true
    (s.badWrite base now = none → rest ≠ [] → exec (.saveChunk n) s = .next (t.setSave n { v with frags := rest })) ∧
    (s.badWrite base now = none → rest = [] → v.bad = [] → exec (.saveChunk n) s = .next (last.saveEnded v)) ∧
    (∀ o os, s.badWrite base now = none → rest = [] → v.bad = o :: os →
      exec (.saveChunk n) s = .next (((v.bad.foldl (fun (s : State) o => s.setPoison ((base + o) / 128) true) last).loseContext
        v.ctx v.quay o 1).saveEnded v)) ∧
    (∀ l, s.badWrite base now = some l →
      exec (.saveChunk n) s = .next ((((t.setPoison l true).dropSave n).loseContext v.ctx v.quay (l * 128 - base) 2).saveEnded v)) := by
  have hopen : ¬ (v.restore = true ∨ s.saveStopped v = true) := by simp [hsave, hgoes]
  intro base now rest t last
  refine ⟨fun hfine hmore => ?_, fun hfine hend hbad => ?_, fun o os hfine hend hbad => ?_, fun l hfail => ?_⟩
  all_goals refine congrArg Host.Outcome.next ?_
  · have hrest : rest.isEmpty = false := List.isEmpty_eq_false_iff.mpr hmore
    simp only [hv, if_neg hopen]
    simp only [base, now, rest] at hfine hrest
    simp only [hfine, hrest, Bool.false_eq_true, if_false]
    rfl
  · simp only [hv, if_neg hopen]
    simp only [base, now, rest] at hfine hend
    simp only [hfine, hend, List.isEmpty_nil, if_true, hbad]
    rfl
  · simp only [hv, if_neg hopen]
    simp only [base, now, rest] at hfine hend
    simp only [hfine, hend, List.isEmpty_nil, if_true, hbad]
    rfl
  · simp only [hv, if_neg hopen]
    simp only [base, now] at hfail
    simp only [hfail]
    rfl

/-! ### Restores (R382, R390) -/

/-- A restore that may go on. -/
theorem restore_of_open {v : SaveOp} {s : State} (hrestore : v.restore = true) (hgoes : s.saveStopped v = false)
    (hwritten : s.areaPending (s.ctx v.ctx) = false) :
    ¬ (v.restore = false ∨ s.saveStopped v = true ∨ s.areaPending (s.ctx v.ctx) = true) := by
  simp [hrestore, hgoes, hwritten]

/-- Its parts are taken from the section. -/
theorem restore_begins {n : Nat} {v : SaveOp} {s : State} (hv : s.saves[n]? = some v) (hrestore : v.restore = true)
    (hgoes : s.saveStopped v = false) (hwritten : s.areaPending (s.ctx v.ctx) = false) (hruns : s.runs v.ctx 9 = true)
    (hbegun : v.begun = false) (hholds : s.holdsSect (s.ctx v.ctx) v.sect = true) :
    exec (.restore n) s = .next (s.setSave n { v with
      begun := true
      chunks := chunkedParts (s.sectionParts (s.sectionOf v) ((s.ctx v.ctx).save + sectOff v.sect) (v.loadsVault (s.sectionOf v))) }) := by
  refine congrArg Host.Outcome.next ?_
  simp only [hv, if_neg (restore_of_open hrestore hgoes hwritten), hruns, hbegun, hholds, Bool.true_eq_false, if_false, if_true]

/-- The owner tokens of a chunk's lines as they are asked for. -/
def chunkOwned (v : SaveOp) (s : State) : Bool × State :=
  (firstChunk v.chunks).1.foldl (fun r p =>
    let o := r.2.areaOwned ((s.ctx v.ctx).save + sectOff v.sect + p.1) p.2; (r.1 && o.1, o.2)) (true, s)

/-- The state once a chunk's reads are charged. -/
def chunkRead (v : SaveOp) (s : State) : State :=
  (firstChunk v.chunks).1.foldl (fun u p => u.chargeLines v.quay ((s.ctx v.ctx).save + sectOff v.sect + p.1) p.2 v.ctx)
    ((chunkOwned v s).2.charge (meterQuay v.quay) v.ctx 15 (((firstChunk v.chunks).1.map (·.2)).foldl (· + ·) 0))

/-- A chunk that is not empty begins with its first part. -/
theorem firstChunk_cons {α : Type} {x : Nat × α} {xs : List (Nat × α)} : ∃ ys, (firstChunk (x :: xs)).1 = x :: ys := by
  refine ⟨xs.filter fun y => y.1 / 4096 == x.1 / 4096, ?_⟩
  show ((x :: xs).partition fun y => y.1 / 4096 == x.1 / 4096).1 = _
  rw [List.partition_eq_filter_filter]
  exact List.filter_cons_of_pos (p := fun y : Nat × α => y.1 / 4096 == x.1 / 4096) (beq_self_eq_true (x.1 / 4096))

theorem handed_of_none {q : Nat} {s : State} (h : ∀ h ∈ s.handovers, h.quay ≠ q) :
    (s.handovers.any fun h => h.quay == q) = false :=
  List.any_eq_false.mpr fun x hx => by simpa using h x hx

/-- A chunk whose lines are at home, none of them poisoned, is read. -/
theorem restore_reads {n : Nat} {v : SaveOp} {s : State} {c : Nat × Nat} (hv : s.saves[n]? = some v) (hrestore : v.restore = true)
    (hgoes : s.saveStopped v = false) (hwritten : s.areaPending (s.ctx v.ctx) = false) (hruns : s.runs v.ctx 9 = true)
    (hc : c ∈ v.chunks) (hbegun : v.begun = true) (hfree : ∀ h ∈ s.handovers, h.quay ≠ v.quay)
    (howned : (chunkOwned v s).1 = true)
    (hclean : ∀ p ∈ (firstChunk v.chunks).1,
      (chunkRead v s).areaPoison ((s.ctx v.ctx).save + sectOff v.sect + p.1) p.2 = []) :
    exec (.restore n) s = .next ((chunkRead v s).setSave n { v with
      frags := v.frags ++ (firstChunk v.chunks).1.map fun p =>
        (p.1, (chunkRead v s).areaRead ((s.ctx v.ctx).save + sectOff v.sect + p.1) p.2)
      chunks := (firstChunk v.chunks).2 }) := by
  obtain ⟨x, xs, hchunks⟩ := List.exists_cons_of_ne_nil (List.ne_nil_of_mem hc)
  obtain ⟨ys, hnow⟩ := firstChunk_cons (x := x) (xs := xs)
  rw [← hchunks] at hnow
  have hpoison : ((firstChunk v.chunks).1.flatMap fun p =>
      (chunkRead v s).areaPoison ((s.ctx v.ctx).save + sectOff v.sect + p.1) p.2) = [] :=
    List.flatMap_eq_nil_iff.mpr hclean
  refine congrArg Host.Outcome.next ?_
  simp only [hv, if_neg (restore_of_open hrestore hgoes hwritten), hruns, hbegun, handed_of_none hfree, Bool.true_eq_false,
    Bool.false_eq_true, and_false, if_false]
  unfold chunkRead chunkOwned at *
  generalize firstChunk v.chunks = chunk at *
  obtain ⟨now, rest⟩ := chunk
  obtain rfl : now = x :: ys := hnow
  simp only [howned, hpoison, Bool.true_eq_false, if_false, List.min?_nil]

/-! ### What a section brings to its quay (R390) -/

/-- What of a thread's record its slot shows. -/
def Thread.shown (t : Thread) :
    Nat × Nat × Word × List Word × BitVec 48 × Word × List Word × Nat × BitVec 512 × Bool :=
  (t.quay, t.slot, t.nba, t.x, t.p, t.fpctl, t.stack, t.csd, t.traprec, t.ih)

/-- A list whose first match is replaced by one that shows the same shows all that it showed. -/
theorem shown_of_tset {α β : Type} (f : α → β) (p : α → Bool) (d v : α) {k : β} : ∀ l : List α, f v = f (tget p d l) →
    (∃ x ∈ l, f x = k) → ∃ x ∈ tset p v l, f x = k
  | [], _, ⟨_, hx, _⟩ => by cases hx
  | y :: ys, hv, ⟨x, hx, hk⟩ => by
    unfold tset
    by_cases hy : p y = true
    · rw [if_pos hy]
      have hfirst : tget p d (y :: ys) = y := by simp [tget, hy]
      rcases List.mem_cons.mp hx with rfl | hx
      · exact ⟨v, List.mem_cons_self, (hv.trans (congrArg f hfirst)).trans hk⟩
      · exact ⟨x, List.mem_cons_of_mem _ hx, hk⟩
    · rw [if_neg hy]
      have hrest : tget p d (y :: ys) = tget p d ys := by simp [tget, hy]
      rcases List.mem_cons.mp hx with rfl | hx
      · exact ⟨x, List.mem_cons_self, hk⟩
      · obtain ⟨z, hz, hzk⟩ := shown_of_tset f p d v ys (hv.trans (congrArg f hrest)) ⟨x, hx, hk⟩
        exact ⟨z, List.mem_cons_of_mem _ hz, hzk⟩

/-- Saves, the holders of quays and the sections. -/
def State.held (s : State) : List SaveOp × List (Nat × Nat) × List Section := (s.saves, s.quayCtx, s.sections)

/-- A step that keeps these and what threads show. -/
def ShowsStill (s u : State) : Prop :=
  u.held = s.held ∧ ∀ k, (∃ x ∈ s.threads, x.shown = k) → ∃ x ∈ u.threads, x.shown = k

theorem ShowsStill.refl (s : State) : ShowsStill s s := ⟨rfl, fun _ h => h⟩

theorem ShowsStill.trans {s t u : State} (hst : ShowsStill s t) (htu : ShowsStill t u) : ShowsStill s u :=
  ⟨htu.1.trans hst.1, fun k h => htu.2 k (hst.2 k h)⟩

/-- A step that keeps the threads. -/
theorem ShowsStill.of_threads {s u : State} (hheld : u.held = s.held) (hthreads : u.threads = s.threads) : ShowsStill s u :=
  ⟨hheld, fun _ h => hthreads ▸ h⟩

theorem ShowsStill.foldl {α : Type} (f : State → α → State) (hf : ∀ s x, ShowsStill s (f s x)) : ∀ (l : List α) (s : State),
    ShowsStill s (l.foldl f s)
  | [], s => .refl s
  | x :: xs, s => (hf s x).trans (ShowsStill.foldl f hf xs (f s x))

/-- A thread's record set anew that shows the same. -/
theorem setThread_shows {s : State} {q sl : Nat} {t : Thread} (h : t.shown = (s.thread q sl).shown) : ShowsStill s (s.setThread t) := by
  obtain ⟨hq, hsl⟩ := s.thread_key q sl
  have hkey : t.quay = q ∧ t.slot = sl := by
    simp only [Thread.shown, Prod.mk.injEq] at h
    exact ⟨h.1.trans hq, h.2.1.trans hsl⟩
  obtain ⟨rfl, rfl⟩ := hkey
  exact ⟨rfl, fun k => shown_of_tset Thread.shown (fun u : Thread => u.quay == t.quay && u.slot == t.slot) _ t s.threads h⟩

theorem closeOne_shows (s : State) (q : Nat) : ShowsStill s (s.closeOne q) := by
  unfold State.closeOne
  dsimp only
  split
  · exact .refl s
  · split
    · exact .refl s
    · exact .of_threads rfl rfl

/-- A thread that arrives at its block shows the same. -/
theorem arrive_shows (s : State) (q sl : Nat) (plane : Option Nat) : ShowsStill s (s.arrive q sl plane) := by
  unfold State.arrive
  dsimp only
  split
  · exact .refl s
  · split
    · split
      · refine ShowsStill.trans ?_ (closeOne_shows _ q)
        exact setThread_shows (q := q) (sl := sl) rfl
      · exact ShowsStill.trans (.of_threads rfl rfl) (setThread_shows (q := q) (sl := sl) rfl)
    · split
      · refine ShowsStill.trans (t := s.setThread { s.thread q sl with drift := false, stamp := s.stamp }) ?_ (.of_threads rfl rfl)
        exact setThread_shows (q := q) (sl := sl) rfl
      · refine ShowsStill.trans ?_ (closeOne_shows _ q)
        exact setThread_shows (q := q) (sl := sl) rfl

theorem unblock_shows (s : State) (q sl : Nat) : ShowsStill s (s.unblock q sl) := by
  unfold State.unblock
  dsimp only
  split
  · refine ShowsStill.trans ?_ (arrive_shows _ q sl none)
    exact setThread_shows (q := q) (sl := sl) rfl
  · exact .refl s

theorem unblockAll_shows (s : State) (q : Nat) : ShowsStill s (s.unblockAll q) :=
  ShowsStill.foldl (fun u (t : Thread) => u.unblock q t.slot) (fun u t => unblock_shows u q t.slot) _ s

/-- Where no pass is current, the first of those set aside is. -/
def passPicked (s : State) : State :=
  if s.pass.live then s else
    match s.parked with
    | p :: ps => { s with pass := p, parked := ps }
    | [] => s

theorem passPicked_shows (s : State) : ShowsStill s (passPicked s) := by
  unfold passPicked
  split
  · exact .refl s
  · split
    · exact .of_threads rfl rfl
    · exact .refl s

/-- A thread of a section as its record brings it back. -/
def Section.thread (x : Section) (c sl : Nat) : Thread := tget (fun t : Thread => t.slot == sl) { slot := sl, ctx := c } x.threads

def Section.restored (x : Section) (c b now : Nat) (rd : Nat → Nat → List Byte) (sl : Nat) : Thread :=
  { (x.thread c sl).fromRecord (rd (0xD0000 + 768 * sl) (256 + 8 * (x.thread c sl).budget)) (now - x.since) with quay := b }

/-- The threads that a section brings, each in its slot. -/
theorem install_lands (s : State) (x : Section) (b : Nat) (rd : Nat → Nat → List Byte) :
    ∃ u th, s.install x b rd = ((passPicked u).unblockAll b).wakePasses ∧ u.held = s.held ∧
      u.threads = s.threads ++ ((List.range 4096).filter (leNat (rd 0xA0 512)).testBit).map th ∧
      ∀ sl, (th sl).shown = (x.restored (s.ctx x.ctx).num b s.clock rd sl).shown :=
  ⟨_, _, rfl, rfl, rfl, fun _ => rfl⟩

theorem install_shows (s : State) (x : Section) (b : Nat) (rd : Nat → Nat → List Byte) :
    (s.install x b rd).held = s.held ∧ ∀ sl, sl < 4096 → (leNat (rd 0xA0 512)).testBit sl = true →
      ∃ y ∈ (s.install x b rd).threads, y.shown = (x.restored (s.ctx x.ctx).num b s.clock rd sl).shown := by
  obtain ⟨u, th, hinstall, hheld, hthreads, hth⟩ := install_lands s x b rd
  have hshows : ShowsStill u (s.install x b rd) := by
    rw [hinstall]
    exact ((passPicked_shows u).trans (unblockAll_shows _ b)).trans (.of_threads rfl rfl)
  refine ⟨hshows.1.trans hheld, fun sl hsl hbit => hshows.2 _ ⟨th sl, ?_, hth sl⟩⟩
  rw [hthreads]
  exact List.mem_append_right _ (List.mem_map_of_mem (List.mem_filter.mpr ⟨List.mem_range.mpr hsl, hbit⟩))

/-- One line's metadata as a restore brings it. -/
def metaLoaded (q : Nat) (rd : Nat → Nat → List Byte) (u : Nat) (s : State) (k : Nat) : State :=
  let key := vline q (4096 * u) + k
  let w := leNat (rd (0x3D0000 + 256 * u + 8 * k) 8)
  let s := s.setVmeta { key := key, lam := BitVec.ofNat 8 w, tag := BitVec.ofNat 4 (w / 2 ^ 8), poison := w.testBit 12,
                        v := w.testBit 13, d := w.testBit 14 }
  { s with presence := s.presence ++ ((List.range 32).filter fun i => w.testBit (32 + i)).map (key * 32 + ·) }

/-- One unit of a vault as a restore brings it. -/
def unitLoaded (q : Nat) (rd : Nat → Nat → List Byte) (s : State) (u : Nat) : State :=
  (List.range 32).foldl (metaLoaded q rd u)
    { s with vmem := Mem.writeN s.vmem (vkey q (4096 * u)) (rd (0x490000 + 4096 * u) 4096) }

theorem unitLoaded_shows (q : Nat) (rd : Nat → Nat → List Byte) (s : State) (u : Nat) : ShowsStill s (unitLoaded q rd s u) :=
  ShowsStill.trans (.of_threads rfl rfl) (ShowsStill.foldl (metaLoaded q rd u) (fun _ _ => .of_threads rfl rfl) (List.range 32) _)

theorem loadVault_shows (s : State) (q : Nat) (rd : Nat → Nat → List Byte) : ShowsStill s (s.loadVault q rd) := by
  have hunits := fun us => ShowsStill.foldl (unitLoaded q rd) (unitLoaded_shows q rd) us { s.vzero q with regions := s.regions }
  have hloaded : ∃ (us w : List Nat), s.loadVault q rd = { us.foldl (unitLoaded q rd) { s.vzero q with regions := s.regions } with vwritten := w } :=
    ⟨(List.range 3072).filter (leNat (rd 0x4A0 384)).testBit, _, rfl⟩
  obtain ⟨us, w, hloaded⟩ := hloaded
  rw [hloaded]
  have hall := ShowsStill.trans (.of_threads rfl rfl) (hunits us)
  generalize us.foldl (unitLoaded q rd) { s.vzero q with regions := s.regions } = u at hall
  exact hall.trans (.of_threads rfl rfl)

/-- States whose rest agrees show the same. -/
theorem ShowsStill.of_control {s u : State} (h : u.control = s.control) : ShowsStill s u := by
  have hheld : u.control.held = s.control.held := by rw [h]
  have hthreads : u.control.threads = s.control.threads := by rw [h]
  exact .of_threads hheld hthreads

theorem markSect_shows (s : State) (c j : Nat) (on : Bool) : ShowsStill s (s.markSect c j on) :=
  .of_control ((header_control _ _ _ _).trans (header_control _ _ _ _))

/-- The vault of a restore that brings one. -/
def vaultRestored (v : SaveOp) (sec : Section) (s : State) : State :=
  if v.loadsVault sec then
    (({ s with regions := s.regions.filter (fun r => r.quay != v.quay) ++
                            sec.regions.map fun r => { r with quay := v.quay } } : State).loadVault v.quay v.read).chargeVault
      v.quay v.ctx vaultEnd
  else s

theorem vaultRestored_shows (v : SaveOp) (sec : Section) (s : State) : ShowsStill s (vaultRestored v sec s) := by
  unfold vaultRestored
  split
  · have hloaded := ShowsStill.trans (s := s) (.of_threads rfl rfl) (loadVault_shows { s with
      regions := s.regions.filter (fun r => r.quay != v.quay) ++ sec.regions.map fun r => { r with quay := v.quay } } v.quay v.read)
    generalize State.loadVault _ v.quay v.read = u at hloaded ⊢
    exact hloaded.trans (.of_threads rfl rfl)
  · exact .refl s

/-- The section of a restore is one of its context. -/
theorem sectionOf_ctx (s : State) (v : SaveOp) : (s.sectionOf v).ctx = v.ctx := by
  have hkey := tget_key (fun y : Section => y.ctx == v.ctx && y.sect == v.sect)
    { ctx := v.ctx, sect := v.sect, quay := v.quay, since := s.clock, hasVault := true } (by simp) s.sections
  exact beq_iff_eq.mp (Bool.and_eq_true_iff.mp hkey).1

/-- The last read of a restore takes the section to its quay. -/
theorem restoreEnd_lands (s : State) (v : SaveOp) :
    (s.restoreEnd v).held = (s.saves, s.quayCtx, s.sections.filter fun y => !(y.ctx == v.ctx && y.sect == v.sect)) ∧
      ∀ sl, sl < 4096 → (leNat (v.read 0xA0 512)).testBit sl = true →
        ∃ y ∈ (s.restoreEnd v).threads,
          y.shown = ((s.sectionOf v).restored (s.ctx v.ctx).num v.quay s.clock v.read sl).shown := by
  let t : State := { s with sections := s.sections.filter fun y => !(y.ctx == v.ctx && y.sect == v.sect) }
  let w : State := t.setCtx { s.ctx v.ctx with qtab := (s.ctx v.ctx).qtab.set v.sect (some v.quay) }
  obtain ⟨hheld, hthreads⟩ := install_shows w (s.sectionOf v) v.quay v.read
  have hrest : ShowsStill (w.install (s.sectionOf v) v.quay v.read) (s.restoreEnd v) :=
    ((vaultRestored_shows v (s.sectionOf v) _).trans (markSect_shows _ v.ctx v.sect false)).trans
      (.of_control (header_control _ _ 0 _))
  have hnum : (w.ctx (s.sectionOf v).ctx).num = (s.ctx v.ctx).num := by
    rw [sectionOf_ctx, ctx_num, ctx_num]
  rw [hnum] at hthreads
  exact ⟨hrest.1.trans hheld, fun sl hsl hbit => hrest.2 _ (hthreads sl hsl hbit)⟩

/-- A restore that has read everything ends. -/
theorem restore_ends {n : Nat} {v : SaveOp} {s : State} (hv : s.saves[n]? = some v) (hrestore : v.restore = true)
    (hgoes : s.saveStopped v = false) (hwritten : s.areaPending (s.ctx v.ctx) = false) (hruns : s.runs v.ctx 9 = true)
    (hbegun : v.begun = true) (hchunks : v.chunks = []) (hfree : ∀ h ∈ s.handovers, h.quay ≠ v.quay)
    (hidle : s.quayBusy v.quay = false) : exec (.restore n) s = .next ((s.dropSave n).restoreEnd v) := by
  refine congrArg Host.Outcome.next ?_
  simp only [hv, if_neg (restore_of_open hrestore hgoes hwritten), hruns, hbegun, handed_of_none hfree, hchunks, firstChunk, hidle,
    Bool.true_eq_false, Bool.false_eq_true, if_false]

/-! ### The hand-over of a vault (R151) -/

/-- A hand-over's phase is changed. -/
def handPhase (h : Handover) (u : State) (k : Nat) : State :=
  { u with handovers := tmod (fun x => x.quay == h.quay) (fun x => { x with phase := k }) u.handovers }

theorem opsAway_of_none {q : Nat} {s : State} (h : ∀ o ∈ s.ops, o.quay ≠ q) : (s.ops.any fun o => o.quay == q) = false :=
  List.any_eq_false.mpr fun o ho => by simpa using h o ho

theorem regionsAway_of_unreferenced {q : Nat} {s : State}
    (h : ∀ r ∈ s.regions, r.quay = q → r.mapped = true ∨ r.refs = 0) :
    (s.regions.any fun r => r.quay == q && !r.mapped && r.refs != 0) = false :=
  List.any_eq_false.mpr fun r hr => by
    intro hhit
    simp only [Bool.and_eq_true, beq_iff_eq, Bool.not_eq_true', bne_iff_ne] at hhit
    obtain ⟨⟨hq, hmapped⟩, hrefs⟩ := hhit
    rcases h r hr hq with h | h
    · exact Bool.false_ne_true (hmapped.symm.trans h)
    · exact hrefs h

/-- The vault of a quay that is handed over is noted in its old holder's section, and its save ordered. -/
def vaultSaved (h : Handover) (j : Nat) (s : State) : State :=
  let regs := s.regions.filter fun r => r.quay == h.quay
  { s.chargeVault h.quay h.old (4096 * (s.writtenUnits h.quay).length) with
    sections := tmod (fun y => y.ctx == h.old && y.sect == j) (fun y : Section => { y with regions := regs, hasVault := true }) s.sections
    saves := s.saves ++
      [{ ctx := h.old, quay := h.quay, sect := j, restore := false, held := s.handHeld h.quay
         frags := chunked (s.vaultFrags h.quay ((s.ctx h.old).save + sectOff j)) }] }

/-- The steps of a hand-over before the vault is zeroed. -/
theorem vaultHandover_steps {n : Nat} {h : Handover} {s : State} (hh : s.handovers[n]? = some h)
    (hops : ∀ o ∈ s.ops, o.quay ≠ h.quay) :
    (h.phase = 0 → (∀ g ∈ s.groups, g.quay ≠ h.quay) → s.handoverWaits h = false →
      exec (.vaultHandover n) s = .next (handPhase h (s.flushQuay h.quay) 1)) ∧
    (h.phase = 1 → (∀ r ∈ s.regions, r.quay = h.quay → r.mapped = true ∨ r.refs = 0) →
      ((s.ctx h.old).slotOf h.quay = none ∨
        ∃ j, (s.ctx h.old).slotOf h.quay = some j ∧ s.holdsSect (s.ctx h.old) j = false) →
      exec (.vaultHandover n) s = .next (handPhase h s 3)) ∧
    (∀ j, h.phase = 1 → (∀ r ∈ s.regions, r.quay = h.quay → r.mapped = true ∨ r.refs = 0) →
      (s.ctx h.old).slotOf h.quay = some j → s.holdsSect (s.ctx h.old) j = true →
      ∃ u, exec (.vaultHandover n) s = .next u ∧ u.mem = s.mem ∧ u.vmem = s.vmem ∧
        u.handovers = (handPhase h s 2).handovers ∧ u.saves = s.saves ++
        [{ ctx := h.old, quay := h.quay, sect := j, restore := false, held := s.handHeld h.quay,
           frags := chunked (s.vaultFrags h.quay ((s.ctx h.old).save + sectOff j)) }]) ∧
    (h.phase = 2 → (∀ v ∈ s.saves, v.quay = h.quay → v.restore = true) →
      exec (.vaultHandover n) s = .next (handPhase h s 3)) := by
  have hops' := opsAway_of_none hops
  refine ⟨fun hphase hgroups hready => ?_, fun hphase hrefs hslot => ?_, fun j hphase hrefs hslot hholds => ?_, fun hphase hsaves => ?_⟩
  · have hgroups' : (s.groups.any fun g => g.quay == h.quay) = false :=
      List.any_eq_false.mpr fun g hg => by simpa using hgroups g hg
    refine congrArg Host.Outcome.next ?_
    simp only [hh, hphase, hgroups', hops', hready, Bool.false_eq_true, or_self, if_false]
    rfl
  · refine congrArg Host.Outcome.next ?_
    simp only [hh, hphase, hops', regionsAway_of_unreferenced hrefs, Bool.or_self, Bool.false_eq_true, if_false]
    rcases hslot with hslot | ⟨j, hslot, hholds⟩
    · simp only [hslot]
      rfl
    · simp only [hslot, hholds, if_true]
      rfl
  · have hexec : exec (.vaultHandover n) s = .next (handPhase h (vaultSaved h j s) 2) := by
      refine congrArg Host.Outcome.next ?_
      simp only [hh, hphase, hops', regionsAway_of_unreferenced hrefs, Bool.or_self, Bool.false_eq_true, if_false, hslot, hholds,
        Bool.true_eq_false]
      rfl
    exact ⟨_, hexec, rfl, rfl, rfl, rfl⟩
  · have hsaves' : (s.saves.any fun v => v.quay == h.quay && !v.restore) = false :=
      List.any_eq_false.mpr fun v hv => by
        intro hhit
        simp only [Bool.and_eq_true, beq_iff_eq, Bool.not_eq_true'] at hhit
        exact Bool.false_ne_true (hhit.2.symm.trans (hsaves v hv hhit.1))
    refine congrArg Host.Outcome.next ?_
    simp only [hh, hphase, hsaves', Bool.false_eq_true, if_false]
    rfl

/-- Bytes that are dropped read 0, the others stay. -/
theorem Mem.read_filter (f : Nat → Bool) (a : Nat) : ∀ m : Mem,
    Mem.read (m.filter fun c => f c.1) a = if f a then Mem.read m a else 0
  | [] => by split <;> rfl
  | (k, v) :: t => by
    have hrest := Mem.read_filter f a t
    rw [List.filter_cons]
    by_cases hk : k = a
    · subst hk
      by_cases hf : f k = true
      · simp only [hf, if_true, Mem.read]
      · rw [if_neg hf, hrest, if_neg hf, if_neg hf]
    · have hlater : Mem.read ((k, v) :: t) a = Mem.read t a := if_neg hk
      rw [hlater]
      split
      · rw [Mem.read, if_neg hk, hrest]
      · exact hrest

theorem kvGet_kvSet (k d v : Nat) (l : List (Nat × Nat)) : kvGet k d (kvSet k v l) = v := by
  have hset := tget_tset (fun x : Nat × Nat => x.1 == k) (k, d) (k, v) (beq_self_eq_true k) l
  unfold tget at hset
  unfold kvGet kvSet
  have hsome : ∀ o : Option (Nat × Nat), (o.map (·.2)).getD d = (o.getD (k, d)).2 := by
    intro o
    cases o <;> rfl
  rw [hsome, hset]

/-- The state once the vault of a quay is zeroed and the quay is its new holder's. -/
def handedOver (h : Handover) (s : State) : State :=
  let s := (s.vzero h.quay).charge (meterQuay h.quay) h.new 8 vaultEnd
  { s with
    nodes := s.nodes.filter fun n => n.quay != h.quay, latch := s.latch.filter fun l => l.quay != h.quay
    quayCtx := kvSet h.quay h.new s.quayCtx, handovers := s.handovers.filter fun x => x.quay != h.quay
    quayPart := match h.part with | some p => kvSet h.quay p s.quayPart | none => s.quayPart }

/-- Memories, the holders of quays and the hand-overs in progress. -/
def State.quayed (s : State) : Mem × Mem × List (Nat × Nat) × List Handover := (s.mem, s.vmem, s.quayCtx, s.handovers)

theorem orderRestore_quayed (s : State) (c q : Nat) : (s.orderRestore c q).quayed = s.quayed := by
  unfold State.orderRestore
  split
  · split <;> rfl
  · rfl

/-- The last phase of a hand-over. -/
theorem vaultHandover_ends {n : Nat} {h : Handover} {s : State} (hh : s.handovers[n]? = some h) (hphase : 3 ≤ h.phase) :
    ∃ u, exec (.vaultHandover n) s = .next u ∧ u.quayed = (handedOver h s).quayed := by
  obtain ⟨k, hk⟩ := Nat.exists_eq_add_of_le hphase
  have hexec : exec (.vaultHandover n) s = .next
      (if ((handedOver h s).freeSlotsOf h.old).saves.any fun v => v.quay == h.quay && v.restore then (handedOver h s).freeSlotsOf h.old
        else ((handedOver h s).freeSlotsOf h.old).orderRestore h.new h.quay) := by
    refine congrArg Host.Outcome.next ?_
    simp only [hh, hk, Nat.add_comm 3 k]
    rfl
  refine ⟨_, hexec, ?_⟩
  split
  · rfl
  · exact orderRestore_quayed _ _ _

/-- What the hand-over of a zeroed vault leaves. -/
theorem vaultHandover_hands {n : Nat} {h : Handover} {s : State} (hh : s.handovers[n]? = some h) (hphase : 3 ≤ h.phase) :
    ∃ u, exec (.vaultHandover n) s = .next u ∧ u.assignee h.quay = h.new ∧ (∀ x ∈ u.handovers, x.quay ≠ h.quay) ∧
      (∀ off, off < vaultEnd → Mem.read u.vmem (vkey h.quay off) = 0) ∧
      (∀ q off, q ≠ h.quay → off < vaultEnd →
        Mem.read u.vmem (vkey q off) = Mem.read s.vmem (vkey q off)) ∧ u.mem = s.mem := by
  obtain ⟨u, hexec, hkept⟩ := vaultHandover_ends hh hphase
  simp only [State.quayed, Prod.mk.injEq] at hkept
  obtain ⟨hmem, hvmem, hquayCtx, hhandovers⟩ := hkept
  have hread : ∀ a, Mem.read u.vmem a = if a / 2 ^ 24 != h.quay then Mem.read s.vmem a else 0 := fun a =>
    (congrArg (Mem.read · a) hvmem).trans (Mem.read_filter (fun k => k / 2 ^ 24 != h.quay) a s.vmem)
  have hkey : ∀ q off, off < vaultEnd → vkey q off / 2 ^ 24 = q := by
    intro q off hoff
    have hend : vaultEnd = 12582912 := rfl
    unfold vkey
    omega
  refine ⟨u, hexec, ?_, fun x hx => ?_, fun off hoff => ?_, fun q off hq hoff => ?_, hmem⟩
  · unfold State.assignee
    rw [hquayCtx]
    exact kvGet_kvSet h.quay 0 h.new _
  · have hx' : x ∈ s.handovers.filter fun x => x.quay != h.quay := by
      rw [hhandovers] at hx
      exact hx
    exact bne_iff_ne.mp (List.mem_filter.mp hx').2
  · rw [hread, hkey h.quay off hoff, bne_self_eq_false, if_neg Bool.false_ne_true]
  · rw [hread, hkey q off hoff, if_pos (bne_iff_ne.mpr hq)]

/-- Settles O53. -/
theorem savesAndHandoversComplete : Obligations.SavesAndHandoversComplete := by
  unfold Obligations.SavesAndHandoversComplete
  intro n s
  refine ⟨fun v hv hsave hgoes => saveChunk_writes hv hsave hgoes, ?restore, ?steps, fun h hh hphase => vaultHandover_hands hh hphase⟩
  case restore =>
    intro v hv hrestore hgoes hwritten hruns
    refine ⟨fun hbegun hholds => restore_begins hv hrestore hgoes hwritten hruns hbegun hholds,
      fun c hc hbegun hfree howned hclean => restore_reads hv hrestore hgoes hwritten hruns hc hbegun hfree howned hclean,
      fun hbegun hchunks hfree hidle => ?_⟩
    obtain ⟨hheld, hthreads⟩ := restoreEnd_lands (s.dropSave n) v
    simp only [State.held, Prod.mk.injEq] at hheld
    obtain ⟨hsaves, hquayCtx, hsections⟩ := hheld
    refine ⟨_, restore_ends hv hrestore hgoes hwritten hruns hbegun hchunks hfree hidle, hsaves, hquayCtx, hsections,
      fun sl hsl hbit => ?_⟩
    obtain ⟨x, hx, hshown⟩ := hthreads sl hsl hbit
    simp only [Thread.shown, Prod.mk.injEq] at hshown
    obtain ⟨hq, hslot, hnba, hregs, hp, hfpctl, hstack, hcsd, htraprec, hih⟩ := hshown
    exact ⟨x, hx, hq, hslot, hnba, hregs, hp, hfpctl, hstack, hcsd, htraprec, hih⟩
  case steps =>
    intro h step hh hops
    exact vaultHandover_steps hh hops

end Sys2Proof.Machine


/-! ## Every step keeps both memories in their one form (O59)

`Canonical s` speaks of two fields, `mem` and `vmem`, so an operation that writes neither keeps it by definition, and one
that calls others keeps it because they do.  The few operations that write bytes come down to `Mem.write`, `Mem.writeN` and
`List.filter`, which keep the form (Laws/Memory).  The lemmas below say it once for each operation of the model, in the
model's order: `f_canonical` says that what `f` gives stands in the one form where the state it starts from does. -/

namespace Sys2Proof.Machine
open Sys2Proof.Safety

variable {s : State}

-- Many of these proofs wait for the same facts about `State`; one after the other they need no waiting threads.
set_option Elab.async false

/-! ### What an outcome holds

Outcomes that carry a state, each with the claim that every state it carries stands in the one form. -/

/-- The state an outcome goes on with stands in the one form. -/
def Reaches : Out → Prop
  | .next t => Canonical t
  | _ => True

/-- The state of a step of an access stands in the one form. -/
def Got.Kept : Got α → Prop
  | .ok _ s | .stop s => Canonical s

/-- The state of what was asked stands in the one form. -/
def Asked.Kept : Asked α → Prop
  | .ok _ s | .wait s | .fail _ s => Canonical s

/-- As `Asked.Kept`, where what was asked for is a state too. -/
def Asked.KeptBoth : Asked State → Prop
  | .ok t s => Canonical t ∧ Canonical s
  | .wait s | .fail _ s => Canonical s

/-- The state of an asked line stands in the one form. -/
def LineSays.Kept : LineSays → Prop
  | .ok _ _ s | .wait s | .refused _ s | .stale _ s => Canonical s

/-- The state of a write by the hardware stands in the one form. -/
def HwDone.Kept : HwDone → Prop
  | .done s | .wait s => Canonical s
  | .fault => True

/-- The state of a performed write stands in the one form. -/
def Perf.Kept : Perf → Prop
  | .done s | .wait s | .refused _ _ s | .stale _ s => Canonical s

/-- The state of a page's answer stands in the one form. -/
def PageSays.Kept : PageSays → Prop
  | .done s | .wait s | .at _ s | .stop _ s => Canonical s

/-- The state of a fetch stands in the one form. -/
def Fetched.Kept : Fetched → Prop
  | .ok _ s | .refused _ s | .stop s => Canonical s

/-- The state of a read of a completion object stands in the one form. -/
def CoRead.Kept : CoRead → Prop
  | .value _ s | .trap _ s | .wait s => Canonical s

/-- The state in which the writes of a commit wait stands in the one form. -/
def CanPerform.Kept : CanPerform → Prop
  | .wait s => Canonical s
  | _ => True

/-! ### Branches, folds and what goes on after an outcome -/

theorem ite_canonical {c : Prop} [Decidable c] {t u : State} (ht : Canonical t) (hu : Canonical u) :
    Canonical (if c then t else u) := by
  split
  · exact ht
  · exact hu

theorem ite_snd_canonical {c : Prop} [Decidable c] {p q : β × State} (hp : Canonical p.2) (hq : Canonical q.2) :
    Canonical (if c then p else q).2 := by
  split
  · exact hp
  · exact hq

theorem getD_canonical {o : Option State} (ho : ∀ t, o = some t → Canonical t) (h : Canonical s) :
    Canonical (o.getD s) := by
  cases o with
  | none => exact h
  | some t => exact ho t rfl

theorem foldl_canonical {f : State → α → State} (hf : ∀ t x, Canonical t → Canonical (f t x)) (h : Canonical s)
    (l : List α) : Canonical (l.foldl f s) :=
  List.foldlRecOn (motive := Canonical) l f h fun t ht x _ => hf t x ht

theorem foldl_snd_canonical {f : β × State → α → β × State} (hf : ∀ r x, Canonical r.2 → Canonical (f r x).2)
    {r : β × State} (h : Canonical r.2) (l : List α) : Canonical (l.foldl f r).2 :=
  List.foldlRecOn (motive := fun r : β × State => Canonical r.2) l f h fun r hr x _ => hf r x hr

theorem foldl_fst_canonical {f : State × β → α → State × β} (hf : ∀ r x, Canonical r.1 → Canonical (f r x).1)
    {r : State × β} (h : Canonical r.1) (l : List α) : Canonical (l.foldl f r).1 :=
  List.foldlRecOn (motive := fun r : State × β => Canonical r.1) l f h fun r hr x _ => hf r x hr

theorem Asked.andThen_keptBoth {a : Asked α} {k : α → State → Asked State} (ha : a.Kept)
    (hk : ∀ v s, Canonical s → (k v s).KeptBoth) : (a.andThen k).KeptBoth := by
  cases a with
  | ok v s => exact hk v s ha
  | wait s => exact ha
  | fail st s => exact ha

/-- One thing asked for after the other. -/
theorem Asked.foldl_andThen_kept {k : α → β → State → Asked β} (hk : ∀ x v t, Canonical t → (k x v t).Kept)
    {a : Asked β} (ha : a.Kept) (l : List α) : (l.foldl (fun a x => a.andThen (k x)) a).Kept := by
  refine List.foldlRecOn (motive := Asked.Kept) l _ ha fun a ha x _ => ?_
  cases a with
  | ok v t => exact hk x v t ha
  | wait t => exact ha
  | fail st t => exact ha

theorem State.dropMessage_canonical (h : Canonical s) (n : Nat) : Canonical { s with inbox := s.inbox.eraseIdx n } := h

theorem State.dropRemote_canonical (h : Canonical s) (r : Remote) : Canonical { s with remotes := s.remotes.erase r } := h

theorem State.vwritten_canonical (h : Canonical s) (v : List Nat) : Canonical { s with vwritten := v } := h

/-! ### Machine/State -/

theorem State.reset_canonical : Canonical State.reset := ⟨rfl, rfl⟩

/-! ### Machine/Ops -/

theorem State.fresh_canonical (h : Canonical s) : Canonical s.fresh.2 := h

theorem State.choose_canonical (h : Canonical s) : Canonical s.choose.2 := h

theorem State.setCtx_canonical (h : Canonical s) (c : Ctx) : Canonical (s.setCtx c) := h

theorem State.setQueue_canonical (h : Canonical s) (c : Nat) (q : Queue) : Canonical (s.setQueue c q) := h

theorem State.setThread_canonical (h : Canonical s) (t : Thread) : Canonical (s.setThread t) := h

theorem State.modGroup_canonical (h : Canonical s) (g : Nat) (f : Machine.Group → Machine.Group) :
    Canonical (s.modGroup g f) := h

theorem State.chargeFj_canonical (h : Canonical s) (meter c fj : Nat) : Canonical (s.chargeFj meter c fj) := h

theorem State.charge_canonical (h : Canonical s) (meter c cls n : Nat) :
    Canonical (s.charge meter c cls n) := h

theorem State.chargeWay_canonical (h : Canonical s) (c source dest flits : Nat) :
    Canonical (s.chargeWay c source dest flits) := h

theorem State.chargeMove_canonical (h : Canonical s) (c source dest n : Nat) :
    Canonical (s.chargeMove c source dest n) := by
  unfold State.chargeMove
  grind [State.chargeWay_canonical]

theorem State.payBy_canonical (h : Canonical s) (c : Nat) : Canonical (s.payBy c) := h

theorem State.countPoison_canonical (h : Canonical s) (p : Bool) : Canonical (s.countPoison p) := by
  unfold State.countPoison
  grind [Canonical]

theorem State.setPoison_canonical (h : Canonical s) (line : Nat) (p : Bool) :
    Canonical (s.setPoison line p) := by
  unfold State.setPoison
  grind [State.countPoison_canonical, Canonical]

theorem State.gwrite_canonical (h : Canonical s) (pa : Nat) (bs : List Byte) (poison : Bool) :
    Canonical (s.gwrite pa bs poison) := State.gwrite_wf s pa bs poison h

theorem State.chargeSlice_canonical (h : Canonical s) (sl line c : Nat) :
    Canonical (s.chargeSlice sl line c) := by
  unfold State.chargeSlice
  grind [State.charge_canonical]

theorem State.chargeHome_canonical (h : Canonical s) (line c : Nat) : Canonical (s.chargeHome line c) :=
  State.chargeSlice_canonical h ..

theorem State.chargeUncached_canonical (h : Canonical s) (place sl line c : Nat) :
    Canonical (s.chargeUncached place sl line c) :=
  State.chargeSlice_canonical (State.chargeWay_canonical (State.chargeWay_canonical h ..) ..) ..

theorem State.chargeAt_canonical (h : Canonical s) (place line c : Nat) :
    Canonical (s.chargeAt place line c) :=
  State.chargeUncached_canonical h ..

theorem State.chargeLines_canonical (h : Canonical s) (place pa n c : Nat) :
    Canonical (s.chargeLines place pa n c) := by
  unfold State.chargeLines
  grind [State.chargeAt_canonical, foldl_canonical]

theorem State.chargeVault_canonical (h : Canonical s) (q c n : Nat) : Canonical (s.chargeVault q c n) := h

theorem State.setFrz_canonical (h : Canonical s) (e : FrzEntry) : Canonical (s.setFrz e) := h

theorem State.setVmeta_canonical (h : Canonical s) (l : VLine) : Canonical (s.setVmeta l) := h

theorem State.wakeWaits_canonical (h : Canonical s) (sel : WaitEntry → Bool) : Canonical (s.wakeWaits sel) := h

theorem State.vstore_canonical (h : Canonical s) (q off : Nat) (bs : List Byte) (poison : Bool) :
    Canonical (s.vstore q off bs poison) := State.vstore_wf s q off bs poison h

theorem State.vstoreLine_canonical (h : Canonical s) (q off : Nat) (bs : List Byte) (lam : BitVec 8)
    (tag : BitVec 4) (poison : Bool) : Canonical (s.vstoreLine q off bs lam tag poison) :=
  State.vstoreLine_wf s q off bs lam tag poison h

theorem State.vzero_canonical (h : Canonical s) (q : Nat) : Canonical (s.vzero q) := State.vzero_wf s q h

theorem State.chargeStage_canonical (h : Canonical s) (place c payer ipa : Nat) :
    Canonical (s.chargeStage place c payer ipa) := by
  unfold State.chargeStage
  grind [State.chargeUncached_canonical, foldl_canonical]

theorem State.chargeLevel_canonical {down : Nat → State → State} (h : Canonical s)
    (hdown : ∀ v t, Canonical t → Canonical (down v t)) (place c payer va tbl level : Nat) :
    Canonical (s.chargeLevel place c payer va tbl level down) := by
  unfold State.chargeLevel
  grind [State.chargeStage_canonical, State.chargeAt_canonical, foldl_canonical]

theorem State.chargeFrom_canonical {u : State} (hu : Canonical u) (place c payer va tbl level : Nat) :
    Canonical (State.chargeFrom place c payer va tbl level u) := by
  induction level generalizing tbl u with
  | zero => exact State.chargeLevel_canonical hu (fun _ t ht => ht) ..
  | succ l ih => exact State.chargeLevel_canonical hu (fun next t ht => ih ht next) ..

theorem State.chargeWalk_canonical (h : Canonical s) (place c payer va : Nat) :
    Canonical (s.chargeWalk place c payer va) :=
  State.chargeFrom_canonical h ..

theorem State.sendLinks_canonical (h : Canonical s) (c : Nat) (ms : List LinkOut) :
    Canonical (s.sendLinks c ms) := by
  unfold State.sendLinks
  grind [State.charge_canonical, foldl_canonical, Canonical]

theorem State.send_canonical (h : Canonical s) (op fn tag : Nat) (body : List Byte) :
    Canonical (s.send op fn tag body) := h

theorem State.waitHeld_canonical (h : Canonical s) (y : Waiter) (l : Loc) : Canonical (s.waitHeld y l) := h

theorem State.askFar_canonical (h : Canonical s) (y : Waiter) (mod pa size : Nat) (gen : BitVec 8)
    (write : Bool) (tag? : Option Nat) (ask : RemoteAsk) :
    (s.askFar y mod pa size gen write tag? ask).Kept := by
  unfold State.askFar
  grind [State.fresh_canonical, State.sendLinks_canonical, LineSays.Kept, Canonical]

theorem State.dropFar_canonical (h : Canonical s) (y : Waiter) : Canonical (s.dropFar y) := h

theorem State.askTable_canonical (h : Canonical s) (c mod pa : Nat) (gen : BitVec 8) :
    Canonical (s.askTable c mod pa gen) := by
  unfold State.askTable
  grind [State.askFar_canonical, LineSays.Kept, Canonical]

theorem State.farAgain_canonical {ask : State → BitVec 8 → LineSays}
    (hask : ∀ t v, Canonical t → (ask t v).Kept) (h : Canonical s) (gen stale : BitVec 8) :
    (State.farAgain ask s gen stale).Kept := by
  unfold State.farAgain
  grind [LineSays.Kept]

theorem State.leaveEntries_canonical (h : Canonical s) (q sl : Nat) : Canonical (s.leaveEntries q sl) := h

theorem State.handlerAsk_canonical (h : Canonical s) (y : Waiter) (c : Nat) (cause : BitVec 8) :
    ∀ t, s.handlerAsk y c cause = some t → Canonical t := by
  unfold State.handlerAsk
  grind [State.waitHeld_canonical, State.farAgain_canonical, State.askFar_canonical, State.askTable_canonical,
    LineSays.Kept]

theorem State.searchAsk_canonical (h : Canonical s) (y : Waiter) (cause : BitVec 8) (start : Option Nat)
    (fuel : Nat) : ∀ t, s.searchAsk y cause start fuel = some t → Canonical t := by
  induction fuel generalizing start with
  | zero => cases start <;> exact fun t ht => nomatch ht
  | succ fuel ih =>
    cases start with
    | none => exact fun t ht => nomatch ht
    | some c =>
      unfold State.searchAsk
      grind [State.handlerAsk_canonical]

theorem State.chargeLook_canonical (h : Canonical s) (y : Waiter) (c va : Nat) :
    Canonical (s.chargeLook y c va) := by
  unfold State.chargeLook
  grind [State.chargeAt_canonical, State.chargeWalk_canonical]

theorem State.chargeSearch_canonical (h : Canonical s) (y : Waiter) (cause : BitVec 8) (payer : Nat)
    (start : Option Nat) (fuel : Nat) : Canonical (s.chargeSearch y cause payer start fuel) := by
  induction fuel generalizing start with
  | zero => cases start <;> exact h
  | succ fuel ih =>
    cases start with
    | none => exact h
    | some c =>
      unfold State.chargeSearch
      grind [State.chargeWalk_canonical, State.chargeAt_canonical]

theorem State.settleBars_canonical (h : Canonical s) (gid : Nat) (bars : List Barrier) :
    Canonical (s.settleBars gid bars) := by
  induction bars generalizing s with
  | nil => exact h
  | cons b bs ih =>
    unfold State.settleBars
    dsimp only
    split
    · exact ih h
    · exact ih h

theorem State.dropWaits_canonical (h : Canonical s) (q sl : Nat) : Canonical (s.dropWaits q sl) := h

theorem State.endThread_canonical (h : Canonical s) (t : Thread) : Canonical (s.endThread t) := by
  unfold State.endThread
  grind [State.dropWaits_canonical, State.leaveEntries_canonical, State.modGroup_canonical,
    State.setThread_canonical, State.settleBars_canonical]

theorem State.lose_canonical (h : Canonical s) (t : Thread) (r : BitVec 512) (report : Bool) :
    Canonical (s.lose t r report) := by
  unfold State.lose
  grind [State.modGroup_canonical, State.endThread_canonical, State.send_canonical]

theorem State.takeTrap_canonical (h : Canonical s) (t : Thread) (n : TrapNote) (blk : Word) :
    Canonical (s.takeTrap t n blk) := by
  unfold State.takeTrap
  grind [State.dropWaits_canonical, State.leaveEntries_canonical, State.searchAsk_canonical,
    State.setThread_canonical, State.dropFar_canonical, State.chargeSearch_canonical, State.lose_canonical]

/-! ### Machine/Operands -/

theorem State.emitNull_canonical (h : Canonical s) (i : Instr) (w : Fields) : Canonical (s.emitNull i w) := h

theorem State.emitNotReady_canonical (h : Canonical s) (i : Instr) (w : Fields) :
    Canonical (s.emitNotReady i w) := h

theorem State.emitVal_canonical (h : Canonical s) (i : Instr) (w : Fields) (v : Word) :
    Canonical (s.emitVal i w v) := h

theorem State.trapHere_canonical (h : Canonical s) (i : Instr) (w : Fields) (cause : BitVec 8) (addr : Word) :
    Canonical (s.trapHere i w cause addr) := h

theorem State.chargeFiring_canonical (h : Canonical s) (i : Instr) : Canonical (s.chargeFiring i) := h

theorem State.stall_canonical (h : Canonical s) : Canonical s.stall := h

theorem State.fire_canonical {act : PortVals → State → State} (h : Canonical s)
    (hact : ∀ v t, Canonical t → Canonical (act v t)) (i : Instr) (w : Fields) :
    Canonical (s.fire i w act) := by
  unfold State.fire
  grind [State.stall_canonical, State.emitNull_canonical, State.emitNotReady_canonical, State.emitVal_canonical,
    State.trapHere_canonical, State.chargeFiring_canonical]

theorem State.fireValue_canonical (h : Canonical s) (i : Instr) (w : Fields) (f : PortVals → Word) :
    Canonical (s.fireValue i w f) := by
  unfold State.fireValue
  grind [State.fire_canonical, State.emitVal_canonical]

theorem State.emitFp_canonical (h : Canonical s) (i : Instr) (w : Fields) (r : Word) (e : Exc) :
    Canonical (s.emitFp i w r e) := by
  unfold State.emitFp
  grind [State.emitVal_canonical, State.emitNull_canonical, Canonical]

theorem State.fireFp_canonical (h : Canonical s) (i : Instr) (w : Fields) (f : Block → PortVals → Word × Exc) :
    Canonical (s.fireFp i w f) := by
  unfold State.fireFp
  grind [State.fire_canonical, State.emitFp_canonical]

theorem State.branch_canonical (h : Canonical s) (i : Instr) (w : Fields) (target : Word) (k : BranchKind) :
    Canonical (s.branch i w target k) := h

/-! ### Machine/Homes -/

theorem State.setDir_canonical (h : Canonical s) (e : DirEntry) : Canonical (s.setDir e) := by
  unfold State.setDir
  grind [Canonical]

theorem State.setCopy_canonical (h : Canonical s) (c : Copy) : Canonical (s.setCopy c) := by
  unfold State.setCopy
  grind [State.wakeWaits_canonical, Canonical]

theorem State.cacheWrite_canonical (hs : Canonical s) (h pa : Nat) (bs : List Byte) (poison : Bool) :
    Canonical (s.cacheWrite h pa bs poison) := by
  have hw : Canonical { s with mem := Mem.writeN s.mem pa bs } := ⟨Mem.wf_writeN bs s.mem pa hs.1, hs.2⟩
  exact State.countPoison_canonical (State.setCopy_canonical hw _) _

theorem State.takeData_canonical (h : Canonical s) (line : Nat) (owner : Bool) (md : LineMeta) :
    Canonical (s.takeData line owner md) := by
  unfold State.takeData
  grind [State.chargeHome_canonical, Canonical]

theorem State.post_canonical (h : Canonical s) (m : NetMsg) : Canonical (s.post m) := h

theorem State.wantAll_canonical (h : Canonical s) (line : Nat) : Canonical (s.wantAll line).2 := by
  unfold State.wantAll
  grind [State.post_canonical, foldl_canonical, Canonical]

theorem State.wantOwner_canonical (h : Canonical s) (line : Nat) : Canonical (s.wantOwner line).2 := by
  unfold State.wantOwner
  grind [State.post_canonical]

theorem State.walkOwned_canonical (h : Canonical s) (c va payer : Nat) :
    Canonical (s.walkOwned c va payer).2 := by
  unfold State.walkOwned
  grind [State.wantOwner_canonical, State.payBy_canonical, foldl_snd_canonical]

theorem State.wantRange_canonical (h : Canonical s) (lo n : Nat) : Canonical (s.wantRange lo n).2 := by
  unfold State.wantRange
  grind [State.wantAll_canonical, foldl_snd_canonical]

theorem State.putBack_canonical (hs : Canonical s) (h line : Nat) : Canonical (s.putBack h line) := by
  unfold State.putBack
  grind [State.post_canonical, State.setCopy_canonical]

theorem State.unpark_canonical (h : Canonical s) : Canonical s.unpark := h

theorem State.parkMsg_canonical (h : Canonical s) (m : NetMsg) : Canonical (s.parkMsg m) := h

theorem State.applyBump_canonical (h : Canonical s) (page : Nat) : Canonical (s.applyBump page) := h

/-! ### Machine/Access -/

theorem Got.andThen_canonical {α : Type} {β : Type} {g : Got α} {k : α → State → Got β} (hg : g.Kept)
    (hk : ∀ v t, Canonical t → (k v t).Kept) : (g.andThen k).Kept := by
  cases g with
  | ok v t => exact hk v t hg
  | stop t => exact hg

theorem Got.done_canonical {α : Type} {g : Got α} {k : α → State → State} (hg : g.Kept)
    (hk : ∀ v t, Canonical t → Canonical (k v t)) : Canonical (g.done k) := by
  cases g with
  | ok v t => exact hk v t hg
  | stop t => exact hg

theorem State.gotPlace_canonical (h : Canonical s) (i : Instr) (w : Fields) (r : Except (BitVec 8 × Word) Place) :
    (s.gotPlace i w r).Kept := by
  unfold State.gotPlace
  grind [State.trapHere_canonical, Got.Kept]

theorem HwDone.andThen_canonical {d : HwDone} {k : State → HwDone} (hd : d.Kept)
    (hk : ∀ t, Canonical t → (k t).Kept) : (d.andThen k).Kept := by
  cases d with
  | done t => exact hk t hd
  | wait t => exact hd
  | fault => trivial

theorem State.hwLook_canonical (h : Canonical s) (y : Waiter) (c va n : Nat) : (s.hwLook y c va n).Kept := by
  unfold State.hwLook
  grind [State.waitHeld_canonical, State.walkOwned_canonical, State.wantOwner_canonical,
    State.dropFar_canonical, State.farAgain_canonical, State.askFar_canonical, State.askTable_canonical,
    LineSays.Kept]

theorem State.hwLoad_canonical (h : Canonical s) (y : Waiter) (c va n : Nat) : (s.hwLoad y c va n).Kept := by
  unfold State.hwLoad
  grind [State.hwLook_canonical, State.chargeLook_canonical, LineSays.Kept]

theorem State.hwPut_canonical {log : State → Nat → HwDone} {here : State → Nat → State}
    {far : State → Nat → Nat → BitVec 8 → LineSays} (h : Canonical s)
    (hlog : ∀ t v, Canonical t → (log t v).Kept) (hhere : ∀ t v, Canonical t → Canonical (here t v))
    (hfar : ∀ t v x y, Canonical t → (far t v x y).Kept) (y : Waiter) (c va : Nat) (strict : Bool) :
    (s.hwPut y c va log here far strict).Kept := by
  unfold State.hwPut
  grind [State.waitHeld_canonical, State.walkOwned_canonical, State.wantAll_canonical, HwDone.andThen_canonical,
    State.dropFar_canonical, State.chargeLook_canonical, State.farAgain_canonical, State.askTable_canonical,
    HwDone.Kept, LineSays.Kept]

theorem State.logRead_canonical {k : Nat → State → HwDone} (h : Canonical s)
    (hk : ∀ v t, Canonical t → (k v t).Kept) (y : Waiter) (p va : Nat) : (s.logRead y p va k).Kept := by
  unfold State.logRead
  grind [State.hwLook_canonical, HwDone.Kept, LineSays.Kept]

theorem State.logPoke_canonical {k : State → HwDone} (h : Canonical s) (hk : ∀ t, Canonical t → (k t).Kept)
    (y : Waiter) (p va v : Nat) : (s.logPoke y p va v k).Kept := by
  unfold State.logPoke
  grind [State.hwPut_canonical, State.gwrite_canonical, State.askFar_canonical, HwDone.Kept]

theorem State.logPage_canonical (h : Canonical s) (c ipa : Nat) : (s.logPage c ipa).Kept := by
  unfold State.logPage
  dsimp only
  split
  · exact h
  split
  · exact h
  refine State.logRead_canonical h (fun w0 s h => ?_) ..
  refine State.logRead_canonical h (fun ln s h => ?_) ..
  refine State.logRead_canonical h (fun ring s h => ?_) ..
  refine State.logRead_canonical h (fun head s h => ?_) ..
  refine State.logRead_canonical h (fun tail s h => ?_) ..
  split
  · refine State.logPoke_canonical h (fun s h => ?_) ..
    refine State.logPoke_canonical h (fun s h => ?_) ..
    exact State.dropFar_canonical (State.chargeLook_canonical h ..) _
  · refine State.logRead_canonical h (fun map s h => ?_) ..
    refine State.logPoke_canonical h (fun s h => ?_) ..
    refine State.logRead_canonical h (fun bits s h => ?_) ..
    refine State.logPoke_canonical h (fun s h => ?_) ..
    exact State.dropFar_canonical (State.chargeLook_canonical (State.chargeLook_canonical h ..) ..) _

theorem State.hwChange_canonical {here : State → Nat → State} {far : State → Nat → Nat → BitVec 8 → LineSays}
    (h : Canonical s) (hhere : ∀ t v, Canonical t → Canonical (here t v))
    (hfar : ∀ t v x y, Canonical t → (far t v x y).Kept) (y : Waiter) (c va : Nat) (strict : Bool) :
    (s.hwChange y c va here far strict).Kept := by
  unfold State.hwChange
  grind [State.hwPut_canonical, State.logPage_canonical]

theorem State.touch_canonical (h : Canonical s) (e : TlbEntry) : Canonical (s.touch e) := h

theorem State.addMiss_canonical (h : Canonical s) (c : Nat) (m : Miss) : Canonical (s.addMiss c m) := by
  unfold State.addMiss
  grind [Canonical]

theorem State.sawWrite_canonical (h : Canonical s) (q c : Nat) (e : TlbEntry) (va : Nat) :
    (s.sawWrite q c e va).Kept := by
  unfold State.sawWrite
  grind [HwDone.andThen_canonical, State.logPage_canonical, HwDone.Kept, Canonical]

theorem State.portAt_canonical (h : Canonical s) (i : Instr) (w : Fields) (q c va : Nat) (needW : Bool)
    (kind : AccKind) : (s.portAt i w q c va needW kind).Kept := by
  unfold State.portAt
  grind [State.emitNotReady_canonical, State.stall_canonical, State.touch_canonical, State.sawWrite_canonical,
    State.addMiss_canonical, Got.Kept, HwDone.Kept]

theorem State.port_canonical (h : Canonical s) (i : Instr) (w : Fields) (c va : Nat) (needW : Bool)
    (kind : AccKind) : (s.port i w c va needW kind).Kept :=
  State.portAt_canonical h ..

theorem State.request_canonical (h : Canonical s) (r : CohReq) : Canonical (s.request r) := by
  unfold State.request
  grind [State.post_canonical, Canonical]

theorem State.clearAnswer_canonical (h : Canonical s) (a : CohAns) : Canonical (s.clearAnswer a) := h

theorem State.dropTlb_canonical (h : Canonical s) (q c va : Nat) : Canonical (s.dropTlb q c va) := h

theorem State.rewalkFor_canonical (h : Canonical s) (y : Waiter) (q c va : Nat) (kind : AccKind)
    (gen : BitVec 8) : Canonical (s.rewalkFor y q c va kind gen) := by
  unfold State.rewalkFor
  grind [State.addMiss_canonical, State.dropTlb_canonical]

theorem State.rewalk_canonical (h : Canonical s) (c va : Nat) (kind : AccKind) (gen : BitVec 8) :
    Canonical (s.rewalk c va kind gen) :=
  State.rewalkFor_canonical h ..

theorem State.acquire_canonical (hs : Canonical s) (i : Instr) (w : Fields) (c va : Nat) (x : Xlate) (h : Nat)
    (write alloc : Bool) (kind : AccKind) : (s.acquire i w c va x h write alloc kind).Kept := by
  unfold State.acquire
  grind [State.clearAnswer_canonical, State.stall_canonical, State.rewalk_canonical, State.trapHere_canonical,
    State.request_canonical, Got.Kept]

theorem State.stallOn_canonical (h : Canonical s) (l : Loc) : Canonical (s.stallOn l) := h

theorem State.noteRead_canonical (h : Canonical s) (j : Nat) (l : Loc) (n : Nat) :
    Canonical (s.noteRead j l n) := by
  unfold State.noteRead
  grind [Canonical]

theorem State.askFill_canonical (h : Canonical s) (q line : Nat) (y : Waiter) :
    Canonical (s.askFill q line y) := by
  unfold State.askFill
  grind [Canonical]

theorem State.needFill_canonical (h : Canonical s) (i : Instr) (w : Fields) (q off : Nat) :
    (s.needFill i w q off).Kept := by
  unfold State.needFill
  grind [Got.andThen_canonical, State.portAt_canonical, State.trapHere_canonical, State.clearAnswer_canonical,
    State.stall_canonical, State.askFill_canonical, Got.Kept]

theorem State.vaultReady_canonical (h : Canonical s) (i : Instr) (w : Fields) (q off n : Nat) (write : Bool) :
    (s.vaultReady i w q off n write).Kept := by
  unfold State.vaultReady
  grind [State.stall_canonical, State.trapHere_canonical, State.stallOn_canonical, Got.andThen_canonical,
    State.needFill_canonical, Got.Kept]

theorem State.remoteSend_canonical (h : Canonical s) (mod idx pa size : Nat) (gen : BitVec 8) (ask : RemoteAsk)
    (nc : Bool) : Canonical (s.remoteSend mod idx pa size gen ask nc) := by
  unfold State.remoteSend
  grind [State.fresh_canonical, State.sendLinks_canonical, Canonical]

theorem State.remoteAsk_canonical (h : Canonical s) (i : Instr) (w : Fields) (mod : Nat) (x : Xlate) (va : Word)
    (size : Nat) (kind : AccKind) (ask : RemoteAsk) (nc : Bool) :
    (s.remoteAsk i w mod x va size kind ask nc).Kept := by
  unfold State.remoteAsk
  grind [State.trapHere_canonical, State.stall_canonical, State.rewalk_canonical, State.remoteSend_canonical,
    Got.Kept, Canonical]

theorem State.noteUnit_canonical (h : Canonical s) (j : Nat) (u : Loc) (bs : List Byte) :
    Canonical (s.noteUnit j u bs) := h

theorem State.remoteLoad_canonical (h : Canonical s) (i : Instr) (w : Fields) (mod : Nat) (x : Xlate)
    (va : Word) (n : Nat) (nc : Bool) : (s.remoteLoad i w mod x va n nc).Kept := by
  unfold State.remoteLoad
  grind [State.noteUnit_canonical, State.trapHere_canonical, Got.andThen_canonical, State.remoteAsk_canonical,
    Got.Kept]

theorem State.farUpdate_canonical (h : Canonical s) (y : Waiter) (mod pa n : Nat) (gen : BitVec 8)
    (f : List Byte → List Byte) (strict : Bool) : (s.farUpdate y mod pa n gen f strict).Kept := by
  unfold State.farUpdate
  grind [State.askFar_canonical, LineSays.Kept]

theorem State.readLine_canonical (hs : Canonical s) (y : Waiter) (h q c : Nat) (x : Xlate) (n : Nat) :
    (s.readLine y h q c x n).Kept := by
  unfold State.readLine
  grind [State.askFar_canonical, State.clearAnswer_canonical, State.request_canonical, LineSays.Kept]

/-! ### Machine/Memory -/

theorem State.globalBytes_canonical (h : Canonical s) (i : Instr) (w : Fields) (va : Word) (n : Nat)
    (nc single : Bool) : (s.globalBytes i w va n nc single).Kept := by
  unfold State.globalBytes
  grind [Got.andThen_canonical, State.port_canonical, State.trapHere_canonical, State.stall_canonical,
    State.remoteLoad_canonical, State.acquire_canonical, State.noteRead_canonical, Got.Kept]

theorem State.vaultBytes_canonical (h : Canonical s) (i : Instr) (w : Fields) (q off n : Nat) :
    (s.vaultBytes i w q off n).Kept := by
  unfold State.vaultBytes
  grind [Got.andThen_canonical, State.vaultReady_canonical, State.trapHere_canonical,
    State.chargeMove_canonical, State.charge_canonical, State.noteRead_canonical, Got.Kept]

theorem State.placeBytes_canonical (h : Canonical s) (i : Instr) (w : Fields) (p : Place) (n : Nat)
    (nc single : Bool) : (s.placeBytes i w p n nc single).Kept := by
  unfold State.placeBytes
  grind [State.globalBytes_canonical, State.vaultBytes_canonical]

theorem State.load_canonical {k : List Byte → State → State} (h : Canonical s)
    (hk : ∀ v t, Canonical t → Canonical (k v t)) (i : Instr) (w : Fields) (sp : Space) (a : Word) (n al : Nat)
    (nc : Bool) : Canonical (s.load i w sp a n al nc k) := by
  unfold State.load
  grind [State.emitNotReady_canonical, Got.done_canonical, Got.andThen_canonical, State.gotPlace_canonical,
    State.placeBytes_canonical, Got.Kept]

theorem execLd_canonical (h : Canonical s) (t : LdTy) (sp : Space) (w : Fields) :
    Reaches (execLd t sp w s) := by
  unfold execLd
  grind [State.fire_canonical, State.load_canonical, State.emitVal_canonical, Reaches]

theorem execLdNc_canonical (h : Canonical s) (n : Size) (w : Fields) : Reaches (execLdNc n w s) := by
  unfold execLdNc
  grind [State.fire_canonical, State.load_canonical, State.emitVal_canonical, Reaches]

theorem State.emitPair_canonical (h : Canonical s) (i : Instr) (w : Fields) (lo hi : Word) :
    Canonical (s.emitPair i w lo hi) := h

theorem execLdv_canonical (h : Canonical s) (sp : Space) (w : Fields) : Reaches (execLdv sp w s) := by
  unfold execLdv
  grind [State.fire_canonical, State.load_canonical, State.emitPair_canonical, Reaches]

theorem State.globalStore_canonical (h : Canonical s) (i : Instr) (w : Fields) (va : Word) (bs : List Byte)
    (single : Bool) : (s.globalStore i w va bs single).Kept := by
  unfold State.globalStore
  grind [Got.andThen_canonical, State.port_canonical, State.trapHere_canonical, State.stall_canonical,
    State.acquire_canonical, Got.Kept]

theorem State.vaultStore_canonical (h : Canonical s) (i : Instr) (w : Fields) (q off : Nat) (bs : List Byte) :
    (s.vaultStore i w q off bs).Kept := by
  unfold State.vaultStore
  grind [Got.andThen_canonical, State.vaultReady_canonical, Got.Kept]

theorem State.placeStore_canonical (h : Canonical s) (i : Instr) (w : Fields) (p : Place) (bs : List Byte)
    (single : Bool) : (s.placeStore i w p bs single).Kept := by
  unfold State.placeStore
  grind [State.globalStore_canonical, State.vaultStore_canonical]

theorem State.buffer_canonical (h : Canonical s) (i : Instr) (w : Fields) (rs : List PendWrite) :
    Canonical (s.buffer i w rs) := h

theorem execSt_canonical (h : Canonical s) (n : Size) (sp : StSpace) (w : Fields) :
    Reaches (execSt n sp w s) := by
  unfold execSt
  grind [State.fire_canonical, Got.done_canonical, Got.andThen_canonical, State.gotPlace_canonical,
    State.placeStore_canonical, State.buffer_canonical, Reaches]

theorem execStv_canonical (h : Canonical s) (sp : StSpace) (w : Fields) : Reaches (execStv sp w s) := by
  unfold execStv
  grind [State.fire_canonical, Got.done_canonical, Got.andThen_canonical, State.gotPlace_canonical,
    State.placeStore_canonical, State.buffer_canonical, Reaches, Got.Kept]

theorem execPf_canonical (h : Canonical s) (w : Fields) : Reaches (execPf w s) := by
  unfold execPf
  grind [State.fire_canonical, State.touch_canonical, State.request_canonical, Reaches, Canonical]

/-! ### Machine/Atomics -/

theorem State.gotScope_canonical (h : Canonical s) (i : Instr) (w : Fields) (sc : BitVec 3) :
    (s.gotScope i w sc).Kept := by
  unfold State.gotScope
  grind [State.trapHere_canonical, Got.Kept]

theorem State.remoteOld_canonical (h : Canonical s) (i : Instr) (w : Fields) (mod : Nat) (x : Xlate) (va : Word)
    (n : Nat) : (s.remoteOld i w mod x va n).Kept := by
  unfold State.remoteOld
  grind [Got.andThen_canonical, State.remoteAsk_canonical, State.noteUnit_canonical, Got.Kept]

theorem State.globalOld_canonical (h : Canonical s) (i : Instr) (w : Fields) (va : Word) (n : Nat) :
    (s.globalOld i w va n).Kept := by
  unfold State.globalOld
  grind [Got.andThen_canonical, State.port_canonical, State.stall_canonical, State.stallOn_canonical,
    State.trapHere_canonical, State.remoteOld_canonical, State.acquire_canonical, State.noteRead_canonical,
    Got.Kept]

theorem State.vaultOld_canonical (h : Canonical s) (i : Instr) (w : Fields) (q off n : Nat) :
    (s.vaultOld i w q off n).Kept := by
  unfold State.vaultOld
  grind [Got.andThen_canonical, State.vaultReady_canonical, State.trapHere_canonical,
    State.chargeMove_canonical, State.charge_canonical, State.noteRead_canonical, Got.Kept]

theorem State.atomicOld_canonical (h : Canonical s) (i : Instr) (w : Fields) (sp : AtSpace) (a : Word) (n : Nat) :
    (s.atomicOld i w sp a n).Kept := by
  unfold State.atomicOld
  grind [Got.andThen_canonical, State.gotScope_canonical, State.gotPlace_canonical, State.globalOld_canonical,
    State.vaultOld_canonical, Got.Kept]

theorem State.shadow_canonical (h : Canonical s) (w : Fields) (p : Place) (l : Loc) (gen : BitVec 8)
    (bs : List Byte) : Canonical (s.shadow w p l gen bs) := h

theorem State.atomic_canonical (h : Canonical s) (i : Instr) (w : Fields) (sp : AtSpace) (n : Nat)
    (f : Word → Word → Word) : Canonical (s.atomic i w sp n f) := by
  unfold State.atomic
  grind [State.fire_canonical, Got.done_canonical, State.atomicOld_canonical, State.emitVal_canonical,
    State.shadow_canonical]

theorem State.noHold_canonical (h : Canonical s) (l : Loc) : Canonical (s.noHold l) := by
  unfold State.noHold
  grind [State.sendLinks_canonical, Canonical]

theorem execCas_canonical (h : Canonical s) (n : Width) (sp : AtSpace) (w : Fields) :
    Reaches (execCas n sp w s) := by
  unfold execCas
  grind [State.fire_canonical, Got.done_canonical, State.atomicOld_canonical, State.shadow_canonical,
    State.noHold_canonical, State.emitVal_canonical, Reaches]

theorem State.casBlock_canonical (h : Canonical s) (i : Instr) (w : Fields) (b : Word) :
    (s.casBlock i w b).Kept := by
  unfold State.casBlock
  grind [State.trapHere_canonical, State.vaultBytes_canonical, Got.Kept]

theorem execCasB128_canonical (h : Canonical s) (sp : AtSpace) (w : Fields) : Reaches (execCasB128 sp w s) := by
  refine State.fire_canonical h (fun v s h => ?_) ..
  refine Got.done_canonical (Got.andThen_canonical (State.gotScope_canonical h ..)
    fun _ s h => State.casBlock_canonical h ..) (fun blk s h => ?_)
  refine Got.done_canonical (State.atomicOld_canonical h ..) (fun r s h => ?_)
  refine State.emitVal_canonical ?_ ..
  change Canonical (if _ then _ else _)
  grind [State.shadow_canonical, State.noHold_canonical]

theorem execFence_canonical (h : Canonical s) (w : Fields) : Reaches (execFence w s) := by
  unfold execFence
  grind [State.fire_canonical, Got.done_canonical, State.gotScope_canonical, Reaches, Canonical]

/-! ### Machine/Control -/

theorem execBr_canonical (h : Canonical s) (w : Fields) : Reaches (execBr w s) := by
  unfold execBr
  grind [State.fire_canonical, State.branch_canonical, Reaches]

theorem execBri_canonical (h : Canonical s) (w : Fields) : Reaches (execBri w s) := by
  unfold execBri
  grind [State.fire_canonical, State.trapHere_canonical, State.branch_canonical, Reaches]

theorem execCall_canonical (h : Canonical s) (w : Fields) : Reaches (execCall w s) := by
  unfold execCall
  grind [State.fire_canonical, State.trapHere_canonical, State.branch_canonical, Reaches]

theorem execRet_canonical (h : Canonical s) (w : Fields) : Reaches (execRet w s) := by
  unfold execRet
  grind [State.fire_canonical, State.trapHere_canonical, State.branch_canonical, Reaches]

theorem execExit_canonical (h : Canonical s) (w : Fields) : Reaches (execExit w s) := by
  unfold execExit
  grind [State.fire_canonical, State.branch_canonical, Reaches]

theorem execTrap_canonical (h : Canonical s) (w : Fields) : Reaches (execTrap w s) := by
  unfold execTrap
  grind [State.fire_canonical, State.emitNull_canonical, Reaches, Canonical]

theorem State.barrier_canonical {k : Nat → State → State} (h : Canonical s)
    (hk : ∀ v t, Canonical t → Canonical (k v t)) (i : Instr) (w : Fields) (v : PortVals)
    (accept : BitVec 2 → Bool) : Canonical (s.barrier i w v accept k) := by
  unfold State.barrier
  grind [State.trapHere_canonical]

theorem execBar_canonical (h : Canonical s) (w : Fields) : Reaches (execBar w s) := by
  unfold execBar
  grind [State.fire_canonical, State.barrier_canonical, State.branch_canonical, Reaches]

theorem execBarArrive_canonical (h : Canonical s) (w : Fields) : Reaches (execBarArrive w s) := by
  unfold execBarArrive
  grind [State.fire_canonical, State.barrier_canonical, State.emitVal_canonical, Reaches, Canonical]

theorem execBarWait_canonical (h : Canonical s) (w : Fields) : Reaches (execBarWait w s) := by
  unfold execBarWait
  grind [State.fire_canonical, State.barrier_canonical, State.branch_canonical, Reaches]

theorem State.objectPlace_canonical (h : Canonical s) (i : Instr) (w : Fields) (o : Word) (held : Bool) :
    (s.objectPlace i w o held).Kept := by
  unfold State.objectPlace
  grind [State.trapHere_canonical, Got.Kept]

theorem State.gotObject_canonical (h : Canonical s) (i : Instr) (w : Fields) (o : Word) :
    (s.gotObject i w o).Kept :=
  State.objectPlace_canonical h ..

theorem State.objectWrite_canonical (h : Canonical s) (i : Instr) (w : Fields) (p : Place) (kind : WriteKind)
    (bs : List Byte) : (s.objectWrite i w p kind bs).Kept := by
  unfold State.objectWrite
  grind [Got.andThen_canonical, State.globalStore_canonical, State.vaultStore_canonical, Got.Kept]

theorem execCoInit_canonical (h : Canonical s) (w : Fields) : Reaches (execCoInit w s) := by
  unfold execCoInit
  grind [State.fire_canonical, State.trapHere_canonical, Got.done_canonical, Got.andThen_canonical,
    State.gotObject_canonical, State.gotScope_canonical, State.objectWrite_canonical, State.emitVal_canonical,
    Reaches, Canonical]

theorem execCoArrive_canonical (h : Canonical s) (w : Fields) : Reaches (execCoArrive w s) := by
  unfold execCoArrive
  grind [State.fire_canonical, State.trapHere_canonical, Got.done_canonical, Got.andThen_canonical,
    State.gotObject_canonical, State.gotScope_canonical, State.objectWrite_canonical, State.emitVal_canonical,
    Reaches, Canonical]

theorem execCoWait_canonical (h : Canonical s) (w : Fields) : Reaches (execCoWait w s) := by
  unfold execCoWait
  grind [State.fire_canonical, Got.done_canonical, Got.andThen_canonical, State.gotObject_canonical,
    State.gotScope_canonical, State.branch_canonical, Reaches, Got.Kept]

theorem execElect_canonical (h : Canonical s) (w : Fields) : Reaches (execElect w s) := by
  unfold execElect
  grind [State.fire_canonical, State.emitVal_canonical, Reaches]

theorem State.gred_canonical (h : Canonical s) (i : Instr) (w : Fields) (op : Nat) (t : GredTy) :
    Canonical (s.gred i w op t) := by
  unfold State.gred
  grind [State.fire_canonical, State.trapHere_canonical, State.emitVal_canonical, Canonical]

theorem State.gotFrame_canonical (h : Canonical s) (i : Instr) (w : Fields) (f : Word) (n : Nat) :
    (s.gotFrame i w f n).Kept := by
  unfold State.gotFrame
  grind [State.trapHere_canonical, Got.Kept]

theorem execSpawn_canonical (h : Canonical s) (w : Fields) : Reaches (execSpawn w s) := by
  unfold execSpawn
  grind [State.fire_canonical, State.trapHere_canonical, Got.done_canonical, Got.andThen_canonical,
    State.gotFrame_canonical, State.gotScope_canonical, State.vaultStore_canonical, State.emitVal_canonical,
    Reaches, Canonical]

theorem execJoinPut_canonical (h : Canonical s) (w : Fields) : Reaches (execJoinPut w s) := by
  unfold execJoinPut
  grind [State.fire_canonical, Got.done_canonical, Got.andThen_canonical, State.gotFrame_canonical,
    State.trapHere_canonical, State.gotScope_canonical, State.vaultReady_canonical, State.emitVal_canonical,
    Reaches, Got.Kept, Canonical]

theorem execLaunch_canonical (h : Canonical s) (w : Fields) : Reaches (execLaunch w s) := by
  unfold execLaunch
  grind [State.fire_canonical, State.trapHere_canonical, Got.done_canonical, State.gotScope_canonical,
    State.emitVal_canonical, Reaches, Canonical]

/-! ### Machine/Engine -/

theorem State.engine_canonical (h : Canonical s) (i : Instr) (w : Fields) (k : OpKind) :
    Canonical (s.engine i w k) := by
  refine State.fire_canonical h (fun v s h => ?_) ..
  dsimp only
  split
  · exact State.trapHere_canonical h ..
  split
  · exact State.trapHere_canonical h ..
  split
  · exact State.trapHere_canonical h ..
  refine Got.done_canonical (Got.andThen_canonical (State.gotScope_canonical h ..) fun _ s h =>
    Got.andThen_canonical (State.vaultBytes_canonical h ..) fun bs s h => ?_) (fun r s h => ?_)
  · grind [Got.andThen_canonical, State.vaultBytes_canonical, Got.Kept]
  · grind [State.trapHere_canonical, State.emitVal_canonical, Canonical]

/-! ### Machine/Matrix -/

theorem State.matrix_canonical (h : Canonical s) (i : Instr) (w : Fields) (k : OpKind)
    (check : PortVals → Option (BitVec 8 × Word)) : Canonical (s.matrix i w k check) := by
  unfold State.matrix
  grind [State.fire_canonical, State.trapHere_canonical, State.emitVal_canonical, Canonical]

/-! ### Machine/Harbour -/

theorem State.modEntry_canonical (h : Canonical s) (q e : Nat) (f : WvEntry → WvEntry) :
    Canonical (s.modEntry q e f) := h

theorem State.setPlane_canonical (h : Canonical s) (p : Plane) : Canonical (s.setPlane p) := h

theorem State.closeOne_canonical (h : Canonical s) (q : Nat) : Canonical (s.closeOne q) := by
  unfold State.closeOne
  grind [State.modEntry_canonical]

theorem State.arrive_canonical (h : Canonical s) (q sl : Nat) (plane : Option Nat) :
    Canonical (s.arrive q sl plane) := by
  unfold State.arrive
  grind [State.closeOne_canonical, State.setThread_canonical, State.modEntry_canonical, Canonical]

theorem State.rebuild_canonical (h : Canonical s) (q : Nat) : Canonical (s.rebuild q) := by
  unfold State.rebuild
  grind [Canonical]

theorem State.tidy_canonical (h : Canonical s) (q : Nat) : Canonical (s.tidy q) := by
  unfold State.tidy
  grind [State.closeOne_canonical, State.rebuild_canonical, Canonical]

theorem execPlaneChoose_canonical (h : Canonical s) (quay plane : Nat) :
    Reaches (execPlaneChoose quay plane s) := by
  unfold execPlaneChoose
  grind [State.tidy_canonical, State.setPlane_canonical, Reaches]

theorem State.fetchUse_canonical (h : Canonical s) (q c va : Nat) : Canonical (s.fetchUse q c va) := by
  unfold State.fetchUse
  grind [State.touch_canonical]

theorem State.trapAtEntry_canonical (h : Canonical s) (q sl : Nat) (blk : Word) (n : TrapNote) :
    Canonical (s.trapAtEntry q sl blk n) := by
  unfold State.trapAtEntry
  grind [State.leaveEntries_canonical, State.takeTrap_canonical, State.arrive_canonical]

theorem State.trapEntry_canonical (h : Canonical s) (e : WvEntry) (n : TrapNote) :
    Canonical (s.trapEntry e n) := by
  unfold State.trapEntry
  grind [State.tidy_canonical, State.trapAtEntry_canonical, foldl_canonical]

theorem State.fetchLine_canonical (h : Canonical s) (y : Waiter) (x : Xlate) (c q n : Nat) :
    (s.fetchLine y x c q n).Kept := by
  unfold State.fetchLine
  grind [State.askFar_canonical, State.waitHeld_canonical, State.wantOwner_canonical, State.payBy_canonical,
    State.chargeAt_canonical, LineSays.Kept]

theorem State.fetchBytes_canonical (h : Canonical s) (e : WvEntry) (va n fuel : Nat) :
    (s.fetchBytes e va n fuel).Kept := by
  induction fuel generalizing s va n with
  | zero => cases n <;> exact h
  | succ fuel ih =>
    cases n with
    | zero => exact h
    | succ n =>
      have hf := fun x k => State.fetchLine_canonical (State.fetchUse_canonical h e.quay e.fctx va) (.fetch e.quay e.e) x
        e.fctx e.quay k
      rw [State.fetchBytes]
      swap
      · exact Nat.succ_ne_zero n
      dsimp only
      split
      · split
        · exact State.addMiss_canonical (State.dropFar_canonical h _) ..
        · exact State.dropFar_canonical h _
      next x hx =>
      have hl := hf x (min (n + 1) (128 - va % 128))
      split
      next hs => rw [hs] at hl; exact State.dropFar_canonical hl _
      next hs => rw [hs] at hl; exact State.addMiss_canonical (State.dropFar_canonical (State.dropTlb_canonical hl ..) _) ..
      next bs md t hs =>
        rw [hs] at hl
        have hi := ih hl (va := va + min (n + 1) (128 - va % 128)) (n := n + 1 - min (n + 1) (128 - va % 128))
        split
        · exact State.dropFar_canonical hl _
        split
        next hs => rw [hs] at hi; exact hi
        · exact hi
      next t hs =>
        rw [hs] at hl
        have hi := ih hl (va := va + min (n + 1) (128 - va % 128)) (n := n + 1 - min (n + 1) (128 - va % 128))
        split
        next hs => rw [hs] at hi; exact hi
        next hs => rw [hs] at hi; exact hi
        next hs => rw [hs] at hi; exact hi

theorem execBlockPinned_canonical (h : Canonical s) (quay entry : Nat) :
    Reaches (execBlockPinned quay entry s) := by
  unfold execBlockPinned
  grind [State.trapEntry_canonical, State.fetchBytes_canonical, State.modEntry_canonical,
    State.dropFar_canonical, Reaches, Fetched.Kept, Canonical]

theorem State.addPass_canonical (h : Canonical s) (p : Pass) : Canonical (s.addPass p) := by
  unfold State.addPass
  grind [Canonical]

theorem State.dropPass_canonical (h : Canonical s) (q pl tag : Nat) : Canonical (s.dropPass q pl tag) := by
  unfold State.dropPass
  grind [Canonical]

theorem State.freeTag_canonical (h : Canonical s) (q pl tag : Nat) : Canonical (s.freeTag q pl tag) := h

theorem State.endRemote_canonical (h : Canonical s) (p : Pass) : Canonical (s.endRemote p) := by
  unfold State.endRemote
  grind [State.sendLinks_canonical, Canonical]

theorem State.forget_canonical (h : Canonical s) (p : Pass) : Canonical (s.forget p) := h

theorem State.turnBack_canonical (h : Canonical s) (p : Pass) : Canonical (s.turnBack p) := by
  unfold State.turnBack
  grind [State.freeTag_canonical, State.dropPass_canonical, State.forget_canonical, State.endRemote_canonical,
    State.arrive_canonical, State.setThread_canonical, Canonical]

theorem State.unplane_canonical (h : Canonical s) (q p : Nat) : Canonical (s.unplane q p) := by
  unfold State.unplane
  grind [State.tidy_canonical, State.setPlane_canonical, State.turnBack_canonical, foldl_canonical]

theorem State.replace_canonical (h : Canonical s) (q p : Nat) (b : Block) : Canonical (s.replace q p b) := h

theorem State.refetch_canonical (h : Canonical s) (p : Plane) : Canonical (s.refetch p) := by
  unfold State.refetch
  grind [State.fetchBytes_canonical, State.unplane_canonical, State.dropFar_canonical, State.charge_canonical,
    State.replace_canonical, State.setPlane_canonical, Fetched.Kept]

theorem execBlockConfigure_canonical (h : Canonical s) (quay plane : Nat) :
    Reaches (execBlockConfigure quay plane s) := by
  unfold execBlockConfigure
  grind [State.refetch_canonical, State.trapEntry_canonical, State.setPlane_canonical, State.charge_canonical,
    Reaches]

theorem execThreadAdmit_canonical (h : Canonical s) (quay plane slot : Nat) :
    Reaches (execThreadAdmit quay plane slot s) := by
  unfold execThreadAdmit
  grind [State.setPlane_canonical, State.tidy_canonical, State.trapAtEntry_canonical, State.setThread_canonical,
    State.turnBack_canonical, State.leaveEntries_canonical, State.addPass_canonical, Reaches]

theorem execEntryAged_canonical (h : Canonical s) (quay entry : Nat) :
    Reaches (execEntryAged quay entry s) := by
  unfold execEntryAged
  grind [State.tidy_canonical, Reaches]

theorem execCoalesceHoldEnd_canonical (h : Canonical s) (quay entry : Nat) :
    Reaches (execCoalesceHoldEnd quay entry s) := by
  unfold execCoalesceHoldEnd
  grind [execPlaneChoose_canonical, Reaches]

theorem execRunOpenTimeout_canonical (h : Canonical s) (quay plane : Nat) :
    Reaches (execRunOpenTimeout quay plane s) := by
  unfold execRunOpenTimeout
  grind [State.tidy_canonical, State.setPlane_canonical, Reaches]

theorem execDrainTimeout_canonical (h : Canonical s) (quay plane : Nat) :
    Reaches (execDrainTimeout quay plane s) := by
  unfold execDrainTimeout
  grind [State.tidy_canonical, State.turnBack_canonical, foldl_canonical, Reaches]

theorem execBollardWeightUpdate_canonical (h : Canonical s) (quay bollard : Nat) (waiting : List Nat) :
    Reaches (execBollardWeightUpdate quay bollard waiting s) := h

/-! ### Machine/Window -/

theorem State.setRegion_canonical (h : Canonical s) (g : FmtRegion) : Canonical (s.setRegion g) := h

theorem State.dropViewFrz_canonical (h : Canonical s) (g : FmtRegion) : Canonical (s.dropViewFrz g) := h

theorem State.ctlWrite_canonical (h : Canonical s) (g : FmtRegion) (v : Word) : Canonical (s.ctlWrite g v) := by
  unfold State.ctlWrite
  grind [State.setRegion_canonical]

theorem State.regionWrite_canonical (h : Canonical s) (g : FmtRegion) (k : Nat) (v : Word) :
    Canonical (s.regionWrite g k v) := by
  unfold State.regionWrite
  grind [State.setRegion_canonical]

theorem execFmtRegionBusyClear_canonical (h : Canonical s) (die region : Nat) :
    Reaches (execFmtRegionBusyClear die region s) := by
  unfold execFmtRegionBusyClear
  grind [State.wantRange_canonical, State.payBy_canonical, State.dropViewFrz_canonical, State.unpark_canonical,
    State.setRegion_canonical, Reaches]

theorem execNetpolWrite_canonical (h : Canonical s) (part : Nat) (v : Word) :
    Reaches (execNetpolWrite part v s) := by
  unfold execNetpolWrite
  grind [Reaches, Canonical]

theorem State.moveMod_canonical (h : Canonical s) (new : Nat) : Canonical (s.moveMod new) := by
  refine ⟨?_, h.2⟩
  exact List.foldlRecOn (motive := fun m => Mem.wf m = true) s.mem _ rfl fun m hm c _ => Mem.wf_write m _ c.2 hm

theorem State.domainWrite_canonical (h : Canonical s) (v : Word) : Canonical (s.domainWrite v) := by
  unfold State.domainWrite
  grind [State.moveMod_canonical, Canonical]

theorem State.routeWrite_canonical (h : Canonical s) (m : Nat) (v : Word) : Canonical (s.routeWrite m v) := h

theorem State.controlWrite_canonical (h : Canonical s) (die off : Nat) (v : Word) :
    Canonical (s.controlWrite die off v) := by
  unfold State.controlWrite
  grind [State.ctlWrite_canonical, State.regionWrite_canonical, State.domainWrite_canonical,
    State.routeWrite_canonical, Canonical]

/-! ### Machine/Banks -/

theorem State.vRaise_canonical (h : Canonical s) (q off c st : Nat) : Canonical (s.vRaise q off c st) :=
  State.vstore_canonical (State.charge_canonical h ..) ..

theorem State.hwWrite_canonical (h : Canonical s) (y : Waiter) (c va : Nat) (bs : List Byte) :
    (s.hwWrite y c va bs).Kept := by
  unfold State.hwWrite
  grind [State.hwChange_canonical, State.gwrite_canonical, State.askFar_canonical]

theorem State.hwUpdate_canonical (h : Canonical s) (y : Waiter) (c va n : Nat) (f : List Byte → List Byte)
    (strict : Bool) : (s.hwUpdate y c va n f strict).Kept := by
  unfold State.hwUpdate
  grind [State.hwChange_canonical, State.gwrite_canonical, State.farUpdate_canonical]

theorem State.hwRaise_canonical (h : Canonical s) (y : Waiter) (c va st : Nat) :
    (s.hwRaise y c va st).Kept :=
  State.hwUpdate_canonical h ..

/-! ### Machine/Translation -/

theorem State.fillFor_canonical (h : Canonical s) (y : Waiter) (line : Nat) (g : Region) :
    Canonical (s.fillFor y line g).2 := by
  unfold State.fillFor
  grind [State.clearAnswer_canonical, State.askFill_canonical, State.touch_canonical, State.addMiss_canonical]

theorem State.unblock_canonical (h : Canonical s) (q sl : Nat) : Canonical (s.unblock q sl) := by
  unfold State.unblock
  grind [State.arrive_canonical, State.setThread_canonical]

theorem State.wakePasses_canonical (h : Canonical s) : Canonical s.wakePasses := h

theorem State.modPass_canonical (h : Canonical s) (q sl : Nat) (f : Pass → Pass) :
    Canonical (s.modPass q sl f) := h

theorem State.modHead_canonical (h : Canonical s) (q sl : Nat) (f : PendWrite → PendWrite) :
    Canonical (s.modHead q sl f) := by
  unfold State.modHead
  grind [State.setThread_canonical]

theorem State.modOp_canonical (h : Canonical s) (id : Nat) (f : EngOp → EngOp) : Canonical (s.modOp id f) := h

theorem execWalkStart_canonical (h : Canonical s) (die : Nat) : Reaches (execWalkStart die s) := by
  unfold execWalkStart
  grind [Reaches, Canonical]

theorem State.fillTlb_canonical (h : Canonical s) (q c va : Nat) (x : Xlate) :
    Canonical (s.fillTlb q c va x) := h

theorem State.relocate_canonical {k : State → State} (h : Canonical s) (hk : ∀ t, Canonical t → Canonical (k t))
    (c : Nat) (m : Miss) : (s.relocate c m k).Kept := by
  unfold State.relocate
  refine HwDone.andThen_canonical ?_ hk
  cases s.tlbHit m.quay c m.va true with
  | none => exact h
  | some e => exact State.sawWrite_canonical h ..

theorem State.goOn_canonical (h : Canonical s) (c : Nat) (m : Miss) (x : Xlate) : (s.goOn c m x).Kept := by
  unfold State.goOn
  grind [State.unblock_canonical, State.relocate_canonical, State.modPass_canonical, State.modHead_canonical,
    State.modOp_canonical, HwDone.Kept]

theorem State.openRequest_canonical (h : Canonical s) (c : Nat) (m : Miss) (f : WalkFail) :
    ∀ t, s.openRequest c m f = some t → Canonical t := by
  unfold State.openRequest
  grind [State.fresh_canonical, Canonical]

theorem State.bubble_canonical (h : Canonical s) (m : Miss) : Canonical (s.bubble m) := by
  unfold State.bubble
  grind [State.modPass_canonical]

theorem State.serveMiss_canonical {r : State × List Miss} (hr : Canonical r.1) (c : Nat) (m : Miss) :
    Canonical (State.serveMiss c r m).1 := by
  have hg := fun x => State.goOn_canonical (State.fillTlb_canonical hr m.quay c m.va x) c m x
  unfold State.serveMiss
  split
  · exact hr
  · exact hr
  next x hx =>
    have hx := hg x
    split
    next hs => rw [hs] at hx; exact hx
    next hs => rw [hs] at hx; exact hx
    · exact hr
  next f hf =>
    split
    next t ht => exact State.bubble_canonical (State.openRequest_canonical hr c m f t ht) m
    · exact hr

theorem State.endWalk_canonical (h : Canonical s) (w : Walk) : Canonical (s.endWalk w) := by
  have hf : ∀ r m, Canonical r.1 → Canonical (State.serveMiss w.ctx r m).1 :=
    fun r m hr => State.serveMiss_canonical hr w.ctx m
  unfold State.endWalk
  grind [foldl_fst_canonical, State.chargeWalk_canonical, State.dropFar_canonical, State.wakePasses_canonical,
    Canonical]

theorem execWalkComplete_canonical (h : Canonical s) (die n : Nat) : Reaches (execWalkComplete die n s) := by
  unfold execWalkComplete
  grind [State.walkOwned_canonical, State.endWalk_canonical, State.askTable_canonical, Reaches]

theorem State.setReq_canonical (h : Canonical s) (r : PgReq) : Canonical (s.setReq r) := h

theorem State.appendFault_canonical (h : Canonical s) (c : Nat) (r : PgReq) :
    Canonical (s.appendFault c r) := h

theorem State.appendStep_canonical (h : Canonical s) (c : Nat) (r : PgReq) : Canonical (s.appendStep c r) := by
  unfold State.appendStep
  grind [State.setReq_canonical, State.dropFar_canonical, State.appendFault_canonical, State.hwLook_canonical,
    HwDone.andThen_canonical, State.hwWrite_canonical, State.chargeLook_canonical, State.hwUpdate_canonical,
    State.hwRaise_canonical, LineSays.Kept, HwDone.Kept, Canonical]

theorem State.appendNode_canonical (h : Canonical s) (r : PgReq) : Canonical (s.appendNode r) := by
  unfold State.appendNode
  grind [State.setReq_canonical, State.send_canonical, Canonical]

theorem execPgreqAppend_canonical (h : Canonical s) (n : Nat) : Reaches (execPgreqAppend n s) := by
  unfold execPgreqAppend
  grind [State.appendStep_canonical, State.appendNode_canonical, Reaches]

theorem State.refuseWaiter_canonical (h : Canonical s) (r : PgReq) (y : Waiter × Word) :
    Canonical (s.refuseWaiter r y) := by
  unfold State.refuseWaiter
  grind [State.dropWaits_canonical, State.setThread_canonical, State.arrive_canonical, State.takeTrap_canonical,
    State.trapEntry_canonical, State.unplane_canonical, State.modOp_canonical, State.setQueue_canonical,
    Canonical]

theorem State.retryWaiter_canonical (h : Canonical s) (y : Waiter) : Canonical (s.retryWaiter y) := by
  unfold State.retryWaiter
  grind [State.unblock_canonical, State.addMiss_canonical, State.modHead_canonical, State.modOp_canonical]

theorem State.ackSaved_canonical (h : Canonical s) (sel : PgReq → Bool) (refuse : Bool) :
    Canonical (s.ackSaved sel refuse) := h

theorem State.ackRequest_canonical (h : Canonical s) (sel : PgReq → Bool) (refuse : Bool) :
    Canonical (s.ackRequest sel refuse) := by
  unfold State.ackRequest
  grind [State.ackSaved_canonical, State.wakePasses_canonical, State.refuseWaiter_canonical,
    State.retryWaiter_canonical, foldl_canonical, Canonical]

theorem execTranslationExpiry_canonical (h : Canonical s) (quay n : Nat) :
    Reaches (execTranslationExpiry quay n s) := by
  unfold execTranslationExpiry
  grind [Reaches, Canonical]

theorem execGenerationIncrement_canonical (h : Canonical s) (n : Nat) :
    Reaches (execGenerationIncrement n s) := by
  unfold execGenerationIncrement
  grind [State.applyBump_canonical, Reaches, Canonical]

/-! ### Machine/Perform -/

theorem State.rewalkWrite_canonical (h : Canonical s) (q sl : Nat) (r : PendWrite) (gen : BitVec 8) :
    Canonical (s.rewalkWrite q sl r gen) := by
  unfold State.rewalkWrite
  grind [State.dropTlb_canonical, State.addMiss_canonical, State.modHead_canonical]

theorem State.performRemote_canonical (h : Canonical s) (y : Waiter) (r : PendWrite) (pa mod : Nat) :
    (s.performRemote y r pa mod).Kept := by
  unfold State.performRemote
  grind [State.farUpdate_canonical, State.askFar_canonical, State.dropFar_canonical, Perf.Kept, LineSays.Kept]

theorem State.performGlobal_canonical (h : Canonical s) (y : Waiter) (q sl : Nat) (r : PendWrite) (pa : Nat) :
    (s.performGlobal y q sl r pa).Kept := by
  unfold State.performGlobal
  grind [State.controlWrite_canonical, State.performRemote_canonical, State.clearAnswer_canonical,
    State.cacheWrite_canonical, State.request_canonical, Perf.Kept]

theorem State.joinAt_canonical (h : Canonical s) (q sl tq off k : Nat) (v : Half) (r : PendWrite) :
    (s.joinAt q sl tq off k v r).Kept := by
  unfold State.joinAt
  grind [State.vstore_canonical, State.chargeVault_canonical, Perf.Kept, Canonical]

theorem State.performVault_canonical (h : Canonical s) (y : Waiter) (q sl : Nat) (r : PendWrite) (tq off : Nat) :
    (s.performVault y q sl r tq off).Kept := by
  unfold State.performVault
  grind [State.fillFor_canonical, State.joinAt_canonical, State.chargeMove_canonical, State.vstore_canonical,
    State.chargeVault_canonical, State.charge_canonical, Perf.Kept, Canonical]

theorem State.perform_canonical (h : Canonical s) (y : Waiter) (q sl : Nat) (r : PendWrite) :
    (s.perform y q sl r).Kept := by
  unfold State.perform
  grind [State.fresh_canonical, State.ackRequest_canonical, State.performGlobal_canonical,
    State.performVault_canonical, Perf.Kept, Canonical]

/-! ### Machine/System -/

theorem execSrd_canonical (h : Canonical s) (w : Fields) : Reaches (execSrd w s) := by
  unfold execSrd
  grind [State.fire_canonical, State.emitVal_canonical, Reaches]

theorem execSwr_canonical (h : Canonical s) (w : Fields) : Reaches (execSwr w s) := by
  unfold execSwr
  grind [State.fire_canonical, State.trapHere_canonical, State.emitVal_canonical, Reaches, Canonical]

theorem execTrapRet_canonical (h : Canonical s) (w : Fields) : Reaches (execTrapRet w s) := by
  unfold execTrapRet
  grind [State.fire_canonical, State.branch_canonical, State.trapHere_canonical, Reaches]

theorem execTrapSub_canonical (h : Canonical s) (w : Fields) : Reaches (execTrapSub w s) := by
  unfold execTrapSub
  grind [State.fire_canonical, State.trapHere_canonical, State.emitVal_canonical, Reaches, Canonical]

theorem execEnRead_canonical (h : Canonical s) (w : Fields) : Reaches (execEnRead w s) := by
  unfold execEnRead
  grind [State.fire_canonical, State.trapHere_canonical, State.emitVal_canonical, Reaches]

theorem State.pgreqAck_canonical (h : Canonical s) (i : Instr) (w : Fields) : Canonical (s.pgreqAck i w) := by
  unfold State.pgreqAck
  grind [State.fire_canonical, State.trapHere_canonical, State.emitVal_canonical, Canonical]

theorem State.ctxFire_canonical (h : Canonical s) (i : Instr) (w : Fields) (func : BitVec 8) :
    Canonical (s.ctxFire i w func) := by
  unfold State.ctxFire
  grind [State.fire_canonical, State.trapHere_canonical, Got.done_canonical, State.objectPlace_canonical,
    State.emitVal_canonical, Canonical]

/-! ### Machine/Commit -/

theorem State.gredArrive_canonical (h : Canonical s) (p : Pass) (g : Nat) (a : GredArrive) :
    Canonical (s.gredArrive p g a) := h

theorem State.gredFinish_canonical (h : Canonical s) (c : GredCell) : Canonical (s.gredFinish c) := by
  unfold State.gredFinish
  grind [State.vRaise_canonical, State.vstore_canonical, State.charge_canonical, State.modGroup_canonical,
    State.fillFor_canonical, Canonical]

theorem State.settleGreds_canonical (h : Canonical s) : Canonical s.settleGreds := by
  unfold State.settleGreds
  grind [State.gredFinish_canonical, foldl_canonical]

theorem State.modRegion_canonical (h : Canonical s) (key : Nat) (f : Region → Region) :
    Canonical (s.modRegion key f) := h

theorem State.addRegion_canonical (h : Canonical s) (r : Region) (off len : Nat) :
    ∀ t, s.addRegion r off len = some t → Canonical t := by
  unfold State.addRegion
  grind [Canonical]

theorem State.issueOp_canonical (h : Canonical s) (base : EngOp) : Canonical (s.issueOp base) := by
  have hk : ∀ (t : State), Canonical t → ∀ ks : List Nat,
      Canonical (ks.foldl (fun s k => s.modRegion k fun r => { r with refs := r.refs + 1 }) t) :=
    fun t ht ks => foldl_canonical (fun t k ht => State.modRegion_canonical ht ..) ht ks
  unfold State.issueOp
  dsimp only
  generalize hg : List.foldl _ _ _ = t
  have ht : Canonical t := by
    rw [← hg]
    exact hk _ (by exact h) _
  split
  · split
    next u hu =>
      have hc : Canonical u := by grind [State.addRegion_canonical]
      exact hc
    · exact ht
  · split
    · split
      · exact ht
      · exact ht
    · exact ht
  · exact ht
  · exact ht
  · exact ht
  · exact ht
  · exact ht
  · exact ht

theorem State.issue_canonical (h : Canonical s) (p : Pass) (t : Thread) (base : Nat) (x : Captured) :
    Canonical (s.issue p t base x) :=
  State.issueOp_canonical h ..

theorem State.applySwr_canonical (h : Canonical s) (q sl c code : Nat) (v : Word) :
    Canonical (s.applySwr q sl c code v) := by
  unfold State.applySwr
  grind [State.setCtx_canonical, State.setThread_canonical]

theorem State.watch_canonical (h : Canonical s) (q sl : Nat) (l : Loc) : Canonical (s.watch q sl l) := by
  unfold State.watch
  grind [Canonical]

theorem State.exitThread_canonical (h : Canonical s) (q sl : Nat) (st : BitVec 8) :
    Canonical (s.exitThread q sl st) := by
  unfold State.exitThread
  grind [State.modGroup_canonical, State.endThread_canonical]

theorem State.takeBranch_canonical (h : Canonical s) (p : Pass) (f : Fired) : Canonical (s.takeBranch p f) := by
  unfold State.takeBranch
  grind [State.setThread_canonical, State.exitThread_canonical, State.fresh_canonical, State.watch_canonical]

theorem State.asked_canonical (h : Canonical s) (p : Pass) (r : PendWrite) : Canonical (s.asked p r) := by
  unfold State.asked
  grind [State.perform_canonical, State.rewalkFor_canonical, Perf.Kept]

theorem State.canPerform_canonical {acc : State} (h : Canonical s) (hacc : Canonical acc) (p : Pass)
    (exits : Bool) (ws : List (PendWrite × Option Shadow)) : (s.canPerform p exits acc ws).Kept := by
  induction ws generalizing acc with
  | nil => trivial
  | cons w rest ih =>
    unfold State.canPerform
    have hp := State.perform_canonical hacc (p.waiter w.1) p.quay p.slot w.1
    grind [State.asked_canonical, CanPerform.Kept, Perf.Kept]

theorem State.performAll_canonical (h : Canonical s) (p : Pass) (ws : List (PendWrite × Option Shadow)) :
    Canonical (s.performAll p ws) := by
  unfold State.performAll
  grind [State.perform_canonical, State.setThread_canonical, foldl_canonical, Perf.Kept]

theorem State.releaseAll_canonical (h : Canonical s) (p : Pass) (base : Nat)
    (ws : List (PendWrite × Option Shadow)) : Canonical (s.releaseAll p base ws) := h

theorem State.discard_canonical (h : Canonical s) (p : Pass) : Canonical (s.discard p) := by
  unfold State.discard
  grind [State.freeTag_canonical, State.dropPass_canonical, State.wakePasses_canonical, State.forget_canonical,
    State.endRemote_canonical]

theorem State.trapPass_canonical (h : Canonical s) (p : Pass) (n : TrapNote) : Canonical (s.trapPass p n) :=
  State.settleGreds_canonical (State.tidy_canonical (State.arrive_canonical
    (State.takeTrap_canonical (State.discard_canonical h p) ..) ..) _)

theorem State.countReplay_canonical (h : Canonical s) : Canonical s.countReplay := h

theorem execBlockResolve_canonical (h : Canonical s) : Reaches (execBlockResolve s) := by
  unfold execBlockResolve
  grind [State.discard_canonical, State.tidy_canonical, State.setThread_canonical, State.arrive_canonical,
    State.countReplay_canonical, State.trapPass_canonical, Reaches, Canonical]

theorem State.queueCommit_canonical (h : Canonical s) : Canonical s.queueCommit := by
  unfold State.queueCommit
  grind [State.stall_canonical, State.fresh_canonical, Canonical]

theorem State.endPass_canonical (h : Canonical s) (p : Pass) (f : Fired) : Canonical (s.endPass p f) := by
  unfold State.endPass
  grind [State.freeTag_canonical, State.dropPass_canonical, State.takeBranch_canonical,
    State.wakePasses_canonical, State.settleGreds_canonical, State.tidy_canonical, State.arrive_canonical,
    State.forget_canonical]

theorem State.commitPass_canonical (h : Canonical s) (p : Pass) (f : Fired) : Canonical (s.commitPass p f) := by
  unfold State.commitPass
  grind [State.setThread_canonical, State.applySwr_canonical, State.performAll_canonical,
    State.releaseAll_canonical, State.issue_canonical, State.gredArrive_canonical, State.fresh_canonical,
    State.stall_canonical, State.endPass_canonical, foldl_canonical, Canonical]

theorem State.sendWrites_canonical (h : Canonical s) (p : Pass) : Canonical (s.sendWrites p) := by
  unfold State.sendWrites
  grind [State.performAll_canonical, State.releaseAll_canonical, Canonical]

theorem State.commitExit_canonical (h : Canonical s) (p : Pass) (f : Fired) : Canonical (s.commitExit p f) := by
  unfold State.commitExit
  grind [State.sendWrites_canonical, State.stall_canonical, State.trapPass_canonical, State.setThread_canonical,
    State.commitPass_canonical]

theorem State.holdRemote_canonical (h : Canonical s) (p : Pass) :
    ∀ t, s.holdRemote p = some t → Canonical t := by
  intro t ht
  unfold State.holdRemote at ht
  split at ht
  · cases ht
  split at ht
  · cases ht
  dsimp only at ht
  split at ht
  · grind [State.stall_canonical]
  split at ht
  · grind [State.stall_canonical, State.remoteSend_canonical, State.trapPass_canonical]
  next x hx =>
  have hd := State.dropRemote_canonical h x
  split at ht
  · cases ht
    exact h
  · cases ht
    exact State.stall_canonical (State.rewalkFor_canonical hd ..)
  · cases ht
    exact State.trapPass_canonical hd ..
  · cases ht
    exact State.stall_canonical h

theorem execCommit_canonical (h : Canonical s) : Reaches (execCommit s) := by
  refine (?_ : Canonical _)
  dsimp only
  split
  next f hf =>
    split
    · exact h
    split
    · split
      · exact State.stall_canonical h
      · exact State.endPass_canonical h ..
    split
    · exact State.stall_canonical h
    split
    · exact State.trapPass_canonical (State.setThread_canonical h _) ..
    split
    · exact State.stall_canonical h
    split
    · exact State.queueCommit_canonical h
    split
    next t ht => exact State.holdRemote_canonical h _ t ht
    have hc := State.canPerform_canonical h h s.pass f.exits (s.atOnce s.pass f.exits)
    split
    next t ht => rw [ht] at hc; exact State.stall_canonical hc
    · exact State.trapPass_canonical h ..
    split
    · exact State.commitExit_canonical h ..
    · exact State.commitPass_canonical h ..
  · exact h

theorem execStorePerform_canonical (h : Canonical s) (quay slot : Nat) :
    Reaches (execStorePerform quay slot s) := by
  unfold execStorePerform
  grind [State.perform_canonical, State.rewalkWrite_canonical, State.wakePasses_canonical,
    State.setThread_canonical, Reaches, Perf.Kept]

theorem State.breakPass_canonical (h : Canonical s) (p : Pass) : Canonical (s.breakPass p) := by
  unfold State.breakPass
  grind [State.wakePasses_canonical, State.unpark_canonical, State.modPass_canonical, State.endRemote_canonical]

theorem State.homeBreak_canonical (hs : Canonical s) (h : RemoteHold) : Canonical (s.homeBreak h) := by
  unfold State.homeBreak
  grind [State.sendLinks_canonical, Canonical]

theorem execHoldBreak_canonical (h : Canonical s) (n : Nat) : Reaches (execHoldBreak n s) := by
  unfold execHoldBreak
  grind [State.homeBreak_canonical, State.breakPass_canonical, Reaches, Canonical]

theorem State.brokenHold_canonical (h : Canonical s) (peer tag : Nat) : Canonical (s.brokenHold peer tag) := by
  unfold State.brokenHold
  grind [State.breakPass_canonical]

theorem execBarrierArrival_canonical (h : Canonical s) (quay slot : Nat) :
    Reaches (execBarrierArrival quay slot s) := by
  unfold execBarrierArrival
  grind [State.setThread_canonical, State.modGroup_canonical, State.wakePasses_canonical,
    State.settleBars_canonical, Reaches]

theorem State.coRead_canonical (h : Canonical s) (t : Thread) (va : Word) (l : Loc) :
    (s.coRead t va l).Kept := by
  unfold State.coRead
  grind [State.fillFor_canonical, State.chargeVault_canonical, State.addMiss_canonical,
    State.readLine_canonical, State.touch_canonical, State.dropFar_canonical, State.rewalkFor_canonical,
    CoRead.Kept, LineSays.Kept]

theorem State.coTurn_canonical (h : Canonical s) (q sl : Nat) : Canonical (s.coTurn q sl) := by
  unfold State.coTurn
  grind [State.coRead_canonical, State.arrive_canonical, State.takeTrap_canonical, State.dropFar_canonical,
    State.setThread_canonical, State.leaveEntries_canonical, CoRead.Kept]

theorem execCoWaitWake_canonical (h : Canonical s) (quay slot : Nat) :
    Reaches (execCoWaitWake quay slot s) := by
  unfold execCoWaitWake
  grind [State.coTurn_canonical, State.setThread_canonical, Reaches, Canonical]

theorem execCoWaitPoll_canonical (h : Canonical s) (quay slot : Nat) :
    Reaches (execCoWaitPoll quay slot s) := by
  unfold execCoWaitPoll
  grind [State.coTurn_canonical, Reaches]

/-! ### Machine/Engines -/

theorem State.withdrawFar_canonical (h : Canonical s) (mine : Waiter → Bool) :
    Canonical (s.withdrawFar mine) := by
  unfold State.withdrawFar
  grind [State.sendLinks_canonical, foldl_canonical, Canonical]

theorem State.keepRefs_canonical (h : Canonical s) (id : Nat) (left : List (Nat × Nat × Nat)) :
    Canonical (s.keepRefs id left) := by
  unfold State.keepRefs
  grind [State.modOp_canonical, State.modRegion_canonical, foldl_canonical]

theorem State.dropRefs_canonical (h : Canonical s) (id : Nat) : Canonical (s.dropRefs id) :=
  State.keepRefs_canonical h ..

theorem State.endOp_canonical (h : Canonical s) (id st : Nat) : Canonical (s.endOp id st) := by
  unfold State.endOp
  grind [State.modOp_canonical, State.dropRefs_canonical]

theorem State.markPoison_canonical (h : Canonical s) (id : Nat) : Canonical (s.markPoison id) := h

theorem Asked.andThen_canonical {α : Type} {β : Type} {a : Asked α} {k : α → State → Asked β} (ha : a.Kept)
    (hk : ∀ v t, Canonical t → (k v t).Kept) : (a.andThen k).Kept := by
  cases a with
  | ok v t => exact hk v t ha
  | wait t => exact ha
  | fail st t => exact ha

theorem State.opXlate_canonical (h : Canonical s) (o : EngOp) (q c va : Nat) (write : Bool)
    (refused : Option (BitVec 8)) : (s.opXlate o q c va write refused).Kept := by
  unfold State.opXlate
  grind [State.payBy_canonical, State.modOp_canonical, State.addMiss_canonical, State.dropTlb_canonical,
    State.touch_canonical, State.sawWrite_canonical, Asked.Kept, HwDone.Kept]

theorem LineSays.asked_canonical {r : LineSays} (hr : r.Kept) (o : EngOp) (q c va : Nat) (write : Bool) :
    (r.asked o q c va write).Kept := by
  cases r with
  | ok bs md t => exact hr
  | wait t => exact hr
  | refused k t => exact hr
  | stale g t => exact Asked.andThen_canonical (State.opXlate_canonical hr ..) fun _ t ht => ht

theorem State.dropRemotes_canonical (h : Canonical s) (o : EngOp) : Canonical (s.dropRemotes o) := h

theorem State.opRead_canonical (h : Canonical s) (o : EngOp) (q c va n pos : Nat) :
    (s.opRead o q c va n pos).Kept := by
  unfold State.opRead
  grind [Asked.andThen_canonical, State.opXlate_canonical, LineSays.asked_canonical, State.readLine_canonical,
    Asked.Kept]

theorem State.opLine_canonical (h : Canonical s) (o : EngOp) (q c va : Nat) : (s.opLine o q c va).Kept := by
  unfold State.opLine
  grind [Asked.andThen_canonical, State.opXlate_canonical, State.clearAnswer_canonical,
    State.waitHeld_canonical, State.request_canonical, Asked.Kept]

theorem State.opSend_canonical (h : Canonical s) (o : EngOp) (q c va : Nat) (x : Xlate) (bs : List Byte)
    (poison : Bool) : (s.opSend o q c va x bs poison).Kept := by
  unfold State.opSend
  grind [Asked.andThen_canonical, LineSays.asked_canonical, State.askFar_canonical, Asked.Kept]

theorem State.opWrite_canonical (h : Canonical s) (q : Nat) (x : Xlate) (bs : List Byte) (poison : Bool) :
    Canonical (s.opWrite q x bs poison) := by
  unfold State.opWrite
  grind [State.cacheWrite_canonical]

theorem askEach_canonical {β : Type} {α : Type} {f : State → β → Asked α} {u : State}
    (hf : ∀ t v, Canonical t → (f t v).Kept) (hu : Canonical u) (l : List β) : (askEach f l u).Kept := by
  induction l generalizing u with
  | nil => exact hu
  | cons p ps ih =>
    have hp := hf u p hu
    unfold askEach
    split
    next v t ht =>
      rw [ht] at hp
      exact Asked.andThen_canonical (ih hp) fun vs t ht => ht
    next st t ht =>
      rw [ht] at hp
      exact hp
    next t ht =>
      rw [ht] at hp
      have hi := ih hp
      split
      next hs => rw [hs] at hi; exact hi
      next hs => rw [hs] at hi; exact hi
      next hs => rw [hs] at hi; exact hi

theorem State.opFill_canonical (h : Canonical s) (o : EngOp) (q off n : Nat) : (s.opFill o q off n).Kept := by
  unfold State.opFill
  grind [Asked.andThen_canonical, State.opXlate_canonical, State.clearAnswer_canonical, State.askFill_canonical,
    Asked.Kept]

theorem State.opVault_canonical (h : Canonical s) (o : EngOp) (q off n pos : Nat) :
    (s.opVault o q off n pos).Kept := by
  unfold State.opVault
  grind [Asked.andThen_canonical, State.opFill_canonical, Asked.Kept]

theorem State.noteHeld_canonical (h : Canonical s) (o : EngOp) (q off n : Nat) :
    Canonical (s.noteHeld o q off n) := by
  unfold State.noteHeld
  grind [State.waitHeld_canonical]

theorem State.opBank_canonical (h : Canonical s) (o : EngOp) (q off n : Nat) : (s.opBank o q off n).Kept := by
  unfold State.opBank
  grind [State.noteHeld_canonical, State.opFill_canonical, Asked.Kept]

theorem State.vaultPart_canonical (h : Canonical s) (q off : Nat) (ps : List Piece) (all : List Byte)
    (p : Nat × Nat) : Canonical (s.vaultPart q off ps all p) := by
  unfold State.vaultPart
  grind [State.vstoreLine_canonical, State.vstore_canonical]

theorem State.readChunk_canonical (h : Canonical s) (o : EngOp) (n : Nat) : (s.readChunk o n).Kept := by
  unfold State.readChunk
  grind [askEach_canonical, State.opVault_canonical, State.opRead_canonical, Asked.Kept]

theorem State.returnLines_canonical (h : Canonical s) (o : EngOp) : Canonical (s.returnLines o) := by
  unfold State.returnLines
  grind [State.putBack_canonical, State.payBy_canonical, foldl_canonical]

theorem State.chargeChunk_canonical (h : Canonical s) (o : EngOp) (dests : List Nat) (n : Nat) :
    Canonical (s.chargeChunk o dests n) := by
  unfold State.chargeChunk
  grind [State.chargeMove_canonical, foldl_canonical]

theorem State.chunkEnd_canonical (h : Canonical s) (o : EngOp) (n : Nat) (poison : Bool) (vaultBytes : Nat) :
    Canonical (s.chunkEnd o n poison vaultBytes) := by
  unfold State.chunkEnd
  grind [State.returnLines_canonical, State.dropRemotes_canonical, State.charge_canonical,
    State.markPoison_canonical, State.modOp_canonical, State.endOp_canonical]

theorem Asked.settle_canonical {a : Asked State} (ha : a.KeptBoth) (o : EngOp) : Canonical (a.settle o) := by
  cases a with
  | ok t u => exact ha.1
  | wait t => exact ha
  | fail st t => exact State.endOp_canonical (State.returnLines_canonical (State.dropRemotes_canonical ha o) o) ..

theorem State.chunkToVaults_canonical (h : Canonical s) (o : EngOp) : (s.chunkToVaults o).KeptBoth := by
  unfold State.chunkToVaults
  split
  · exact h
  refine Asked.andThen_keptBoth (State.readChunk_canonical h ..) (fun ps t ht => ?_)
  refine Asked.andThen_keptBoth (Asked.foldl_andThen_kept (fun x _ t ht => State.opBank_canonical ht ..) (by exact ht) _)
    (fun _ t ht => ⟨?_, ?_⟩)
  · refine State.chunkEnd_canonical (State.chargeChunk_canonical ?_ ..) ..
    exact foldl_canonical (fun t x ht => State.vaultPart_canonical ht ..) ht _
  · exact foldl_canonical (fun t x ht => State.vaultPart_canonical ht ..) ht _

theorem State.chunkToGlobal_canonical (h : Canonical s) (o : EngOp) : (s.chunkToGlobal o).KeptBoth := by
  unfold State.chunkToGlobal
  grind [Asked.andThen_canonical, State.readChunk_canonical, askEach_canonical, State.opLine_canonical,
    State.opSend_canonical, State.opWrite_canonical, State.chunkEnd_canonical, State.chargeChunk_canonical,
    foldl_canonical, Asked.andThen_keptBoth, Asked.KeptBoth, Asked.Kept]

theorem execCopyChunkDone_canonical (h : Canonical s) (op : Nat) : Reaches (execCopyChunkDone op s) := by
  unfold execCopyChunkDone
  grind [State.endOp_canonical, Asked.settle_canonical, State.chunkToVaults_canonical,
    State.chunkToGlobal_canonical, Reaches]

theorem execScoreboardRetire_canonical (h : Canonical s) (quay n : Nat) :
    Reaches (execScoreboardRetire quay n s) := by
  unfold execScoreboardRetire
  grind [State.wakePasses_canonical, Reaches, Canonical]

theorem State.joinOp_canonical (h : Canonical s) (o : EngOp) (st : Nat) (failed : Bool) :
    Canonical (s.joinOp o st failed) := by
  unfold State.joinOp
  grind [State.modGroup_canonical, State.modOp_canonical, State.wakePasses_canonical, Canonical]

theorem State.raiseAt_canonical (h : Canonical s) (o : EngOp) (st : Nat) : (s.raiseAt o st).KeptBoth := by
  unfold State.raiseAt
  grind [State.opBank_canonical, State.vRaise_canonical, State.opLine_canonical, LineSays.asked_canonical,
    State.farUpdate_canonical, State.dropRemotes_canonical, State.cacheWrite_canonical, State.putBack_canonical,
    Asked.andThen_keptBoth, Asked.KeptBoth]

theorem State.writeReport_canonical (h : Canonical s) (o : EngOp) : (s.writeReport o).Kept := by
  unfold State.writeReport
  grind [Asked.andThen_canonical, State.opBank_canonical, State.vstore_canonical, State.chargeVault_canonical,
    Asked.Kept]

theorem execCompletionRaise_canonical (h : Canonical s) (op : Nat) : Reaches (execCompletionRaise op s) := by
  unfold execCompletionRaise
  grind [State.modOp_canonical, State.writeReport_canonical, State.joinOp_canonical, State.raiseAt_canonical,
    Reaches, Asked.Kept, Asked.KeptBoth]

theorem execMappedFill_canonical (h : Canonical s) (quay line : Nat) :
    Reaches (execMappedFill quay line s) := by
  have hdrop : ∀ (t : State) (f : Fill), Canonical t →
      Canonical (({ t with fills := t.fills.erase f }.dropFar (.fill quay line)).wakePasses) :=
    fun t f ht => State.wakePasses_canonical (State.dropFar_canonical (by exact ht) _)
  refine (?_ : Canonical _)
  split
  · exact h
  next f hf =>
  dsimp only
  split
  · exact hdrop _ f h
  next r hr =>
  refine ite_canonical (hdrop _ f h) ?_
  split
  · exact hdrop _ f h
  next e he =>
  have hl := State.readLine_canonical (State.payBy_canonical (State.touch_canonical h e) r.ctx) (.fill quay line)
    (copyHolder quay) quay r.ctx (e.xlate (r.vaOf (lineOff line))) 128
  split
  next hs => rw [hs] at hl; exact hl
  next hs => rw [hs] at hl; exact hdrop _ f (by exact hl)
  next hs =>
    rw [hs] at hl
    exact hdrop _ f (foldl_canonical (fun t w ht => State.addMiss_canonical ht ..) (State.dropTlb_canonical hl ..) _)
  next hs =>
    rw [hs] at hl
    refine hdrop _ f (State.putBack_canonical (State.setVmeta_canonical (State.vstoreLine_canonical ?_ ..) _) ..)
    exact State.chargeVault_canonical hl ..

theorem State.lineRead_canonical (h : Canonical s) (o : EngOp) (r : Region) (key : Nat) (busy : Option Nat) :
    Canonical (s.lineRead o r key busy) :=
  State.modOp_canonical (State.setVmeta_canonical h _) o.id _

theorem State.lineLost_canonical (h : Canonical s) (o : EngOp) (r : Region) (key st : Nat) :
    Canonical (s.lineLost o r key st) := h

theorem State.writeBackLine_canonical (h : Canonical s) (o : EngOp) (r : Region) (l : VLine) :
    Canonical (s.writeBackLine o r l) := by
  unfold State.writeBackLine
  grind [State.lineLost_canonical, State.opLine_canonical, State.modOp_canonical, State.opSend_canonical,
    State.lineRead_canonical, State.dropRemotes_canonical, State.chargeVault_canonical, State.putBack_canonical,
    State.opWrite_canonical, Asked.Kept]

theorem State.writeBack_canonical {after : State → Region → State} (h : Canonical s)
    (hafter : ∀ t v, Canonical t → Canonical (after t v)) (o : EngOp) (st : RegionSt) :
    Canonical (s.writeBack o st after) := by
  unfold State.writeBack
  grind [State.endOp_canonical, State.modOp_canonical, State.modRegion_canonical, State.writeBackLine_canonical,
    State.wakePasses_canonical]

theorem execVflushDone_canonical (h : Canonical s) (op : Nat) : Reaches (execVflushDone op s) := by
  unfold execVflushDone
  grind [State.writeBack_canonical, State.modRegion_canonical, Reaches]

theorem execVunmapDone_canonical (h : Canonical s) (op : Nat) : Reaches (execVunmapDone op s) := by
  unfold execVunmapDone
  grind [State.writeBack_canonical, Reaches, Canonical]

theorem execSealDone_canonical (h : Canonical s) (op : Nat) : Reaches (execSealDone op s) := by
  unfold execSealDone
  grind [State.addRegion_canonical, State.endOp_canonical, State.modOp_canonical, State.modRegion_canonical,
    Reaches]

theorem execUnsealDone_canonical (h : Canonical s) (op : Nat) : Reaches (execUnsealDone op s) := by
  unfold execUnsealDone
  grind [State.endOp_canonical, State.modOp_canonical, State.modRegion_canonical, State.wakePasses_canonical,
    Reaches, Canonical]

theorem State.gatherSource_canonical (h : Canonical s) (o : EngOp) (i : Nat) : (s.gatherSource o i).Kept := by
  unfold State.gatherSource
  grind [Asked.andThen_canonical, State.opVault_canonical, askEach_canonical, Asked.Kept]

theorem State.gatherStep_canonical (h : Canonical s) (o : EngOp) : (s.gatherStep o).KeptBoth := by
  unfold State.gatherStep
  dsimp only
  split
  · exact h
  refine Asked.andThen_keptBoth (State.gatherSource_canonical h ..) fun r t ht => ?_
  split
  · exact ht
  refine Asked.andThen_keptBoth (Asked.foldl_andThen_kept (fun x _ t ht => State.opBank_canonical ht ..) (by exact ht) _)
    (fun _ t ht => ?_)
  have hv := foldl_canonical (fun t p ht => State.vaultPart_canonical ht o.quay
    ((dDst o.desc).toNat + o.next * dLen o.desc + p.1) r.1 (piecesBytes r.1) p) ht
    (cutAt 128 ((dDst o.desc).toNat + o.next * dLen o.desc) 0 (dLen o.desc) 8)
  refine ⟨ite_canonical (State.endOp_canonical ?_ ..) (State.keepRefs_canonical ?_ ..), ?_⟩
  all_goals
    refine State.modOp_canonical ?_ ..
    refine ite_canonical (State.markPoison_canonical ?_ _) ?_
  all_goals
    refine State.chargeChunk_canonical (State.chargeVault_canonical ?_ ..) ..
    exact hv

theorem execGatherRow_canonical (h : Canonical s) (op : Nat) : Reaches (execGatherRow op s) := by
  unfold execGatherRow
  grind [State.endOp_canonical, Asked.settle_canonical, State.gatherStep_canonical, Reaches]

theorem State.groupList_canonical (h : Canonical s) (o : EngOp) : (s.groupList o).Kept := by
  unfold State.groupList
  grind [Asked.andThen_canonical, State.opRead_canonical, askEach_canonical, Asked.Kept]

theorem State.tell_canonical (h : Canonical s) (c : Nat) (mods : List Nat) (m : CollMsg) :
    Canonical (s.tell c mods m) :=
  State.sendLinks_canonical h ..

theorem State.endAll_canonical (h : Canonical s) (os : List EngOp) (st : Nat) : Canonical (s.endAll os st) := by
  unfold State.endAll
  grind [State.endOp_canonical, foldl_canonical]

theorem State.dropParts_canonical (h : Canonical s) (l : List Nat) : Canonical (s.dropParts l) := h

theorem State.undoom_canonical (h : Canonical s) (me : Nat) (l : List Nat) : Canonical (s.undoom me l) := h

theorem State.dropFars_canonical (h : Canonical s) (fs : List FarRank) : Canonical (s.dropFars fs) := h

theorem State.collCheck_canonical (h : Canonical s) (n : Nat) (ds : List CollDesc)
    (os : List (EngOp × CollDesc)) : ∀ t, s.collCheck n ds os = some t → Canonical t := by
  unfold State.collCheck
  grind [State.endAll_canonical, State.endOp_canonical, foldl_canonical]

theorem State.collWrite_canonical (h : Canonical s) (q off pos n : Nat) (data : List Byte × List Piece) :
    Canonical (s.collWrite q off pos n data) := by
  unfold State.collWrite
  grind [State.vaultPart_canonical, foldl_canonical]

theorem State.collReady_canonical (h : Canonical s) (os : List (EngOp × Nat)) (n a m : Nat) :
    (s.collReady os n a m).Kept := by
  refine Asked.foldl_andThen_kept (fun x _ t ht => ?_) (by exact h) os
  refine Asked.foldl_andThen_kept (fun y _ t ht => ?_) ?_ _
  · exact Asked.foldl_andThen_kept (fun p _ t ht => State.opBank_canonical ht ..) (by exact ht) _
  · refine Asked.foldl_andThen_kept (fun y _ t ht => ?_) (by exact ht) _
    exact Asked.foldl_andThen_kept (fun p _ t ht => State.opFill_canonical ht ..) (by exact ht) _

theorem State.collChunk_canonical (h : Canonical s) (l : List Nat) (os : List (EngOp × Nat)) (o : EngOp)
    (fars : List FarRank) : Canonical (s.collChunk l os o fars) := by
  unfold State.collChunk
  dsimp only
  have hr := State.collReady_canonical h os l.length (65536 * o.next)
    (min 65536 (collTotal o l.length - 65536 * o.next))
  split
  next hs => rw [hs] at hr; exact hr
  next hs =>
    rw [hs] at hr
    exact State.endAll_canonical (State.dropFars_canonical (State.dropParts_canonical (State.tell_canonical hr ..) _) _) ..
  next t hs =>
  rw [hs] at hr
  generalize hc : (if o.claimed = some o.next then t else _) = u
  have hu : Canonical u := by
    rw [← hc]
    refine ite_canonical hr (foldl_canonical (fun t x ht => State.modOp_canonical ht ..) ?_ _)
    exact foldl_canonical (fun t x ht => State.tell_canonical ht ..) hr _
  split
  · exact hu
  have hout : ∀ (t : State) (xs : List (EngOp × Nat)) (f : EngOp × Nat → List (Nat × Nat))
      (pos : EngOp × Nat → Nat × Nat → Nat) (data : List Byte × List Piece), Canonical t →
      Canonical (xs.foldl (fun s x => (f x).foldl (fun s y => s.collWrite x.1.quay y.1 (pos x y) y.2 data) s) t) :=
    fun t xs f pos data ht => foldl_canonical (fun t x ht => foldl_canonical (fun t y ht =>
      State.collWrite_canonical ht ..) ht _) ht xs
  have htell : ∀ (c : Prop) [Decidable c] (t : State) (ms : List Nat) (b : CollMsg), Canonical t →
      Canonical (if c then t.tell o.ctx ms b else t) :=
    fun c _ t ms b ht => ite_canonical (State.tell_canonical ht ..) ht
  refine ite_canonical (State.endAll_canonical (State.dropFars_canonical ?_ _) ..) ?_
  all_goals
    refine foldl_canonical (fun t x ht => State.keepRefs_canonical (State.modOp_canonical ?_ ..) ..) ?_ _
    · refine ite_canonical (State.markPoison_canonical ?_ _) ?_
      · exact State.chargeMove_canonical (State.charge_canonical ht ..) ..
      · exact State.chargeMove_canonical (State.charge_canonical ht ..) ..
    · refine hout _ _ _ _ _ (htell _ _ _ _ ?_)
      exact hu

theorem State.collAnnounce_canonical (h : Canonical s) (o : EngOp) (l : List Nat) (poison : Bool) :
    Canonical (s.collAnnounce o l poison) := by
  unfold State.collAnnounce
  grind [State.markPoison_canonical, State.dropRefs_canonical, State.modOp_canonical, State.tell_canonical,
    Canonical]

theorem State.doomList_canonical (h : Canonical s) (src : Nat) (l : List Nat) (st : Nat) :
    Canonical (s.doomList src l st) := by
  unfold State.doomList
  grind [Canonical]

theorem State.doomAll_canonical (h : Canonical s) (c src : Nat) (l : List Nat) (st : Nat) :
    Canonical (s.doomAll c src l st) := by
  unfold State.doomAll
  grind [State.doomList_canonical, State.tell_canonical]

theorem State.doomBad_canonical (h : Canonical s) (c src : Nat) (l : List Nat) :
    Canonical (s.doomBad c src l) := by
  unfold State.doomBad
  grind [State.doomAll_canonical, Canonical]

theorem State.endDiffering_canonical (h : Canonical s) (o : EngOp) (l : List Nat) :
    Canonical (s.endDiffering o l) := by
  unfold State.endDiffering
  grind [State.doomList_canonical, State.tell_canonical, foldl_canonical]

theorem State.takeDoom_canonical (h : Canonical s) (o : EngOp) (d : Doom) : Canonical (s.takeDoom o d) := by
  unfold State.takeDoom
  grind [State.endOp_canonical, State.tell_canonical, State.doomAll_canonical, Canonical]

theorem execCollChunkReduce_canonical (h : Canonical s) (n : Nat) : Reaches (execCollChunkReduce n s) := by
  refine (?_ : Canonical _)
  split
  · exact h
  next o ho =>
  refine ite_canonical h (ite_canonical (State.endOp_canonical h ..) (ite_canonical ?_ ?_))
  · have hg := State.groupList_canonical h o
    split
    next hs => rw [hs] at hg; exact hg
    next hs =>
      rw [hs] at hg
      exact State.endOp_canonical (State.returnLines_canonical (State.dropRemotes_canonical hg _) _) ..
    next g t hs =>
      rw [hs] at hg
      have ht := State.returnLines_canonical (State.dropRemotes_canonical hg o) o
      refine ite_canonical (State.endOp_canonical (State.doomBad_canonical (State.tell_canonical ht ..) ..) ..) ?_
      exact ite_canonical (State.endOp_canonical ht ..) (State.collAnnounce_canonical ht ..)
  · dsimp only
    split
    · exact State.takeDoom_canonical h ..
    split
    · exact ite_canonical (State.endDiffering_canonical h ..) h
    refine ite_canonical h ?_
    split
    next t ht => exact State.dropFars_canonical (State.collCheck_canonical h _ _ _ t ht) _
    · exact State.collChunk_canonical h ..

theorem State.frzPage_canonical (h : Canonical s) (o : EngOp) : (s.frzPage o).Kept := by
  unfold State.frzPage
  grind [Asked.andThen_canonical, State.opXlate_canonical, State.touch_canonical, Asked.Kept]

theorem State.pageTurn_canonical (h : Canonical s) (id page : Nat) : Canonical (s.pageTurn id page).2 := by
  unfold State.pageTurn
  grind [Canonical]

theorem State.pageNext_canonical (h : Canonical s) (o : EngOp) : Canonical (s.pageNext o) := by
  unfold State.pageNext
  grind [State.modOp_canonical, State.endOp_canonical, Canonical]

theorem State.startSweep_canonical (h : Canonical s) (c page : Nat) : Canonical (s.startSweep c page) := by
  unfold State.startSweep
  grind [State.applyBump_canonical, State.payBy_canonical, State.post_canonical, State.sendLinks_canonical,
    foldl_canonical, Canonical]

theorem State.freezeAt_canonical (h : Canonical s) (page id phase : Nat) : (s.freezeAt page id phase).Kept := by
  unfold State.freezeAt
  grind [State.pageTurn_canonical, State.setFrz_canonical, PageSays.Kept]

theorem State.thawAt_canonical (h : Canonical s) (c page id phase : Nat) : (s.thawAt c page id phase).Kept := by
  unfold State.thawAt
  grind [State.startSweep_canonical, State.pageTurn_canonical, State.setFrz_canonical, PageSays.Kept]

theorem PageSays.settle_canonical {r : PageSays} (hr : r.Kept) (o : EngOp) (page : Nat) :
    Canonical (r.settle o page) := by
  cases r with
  | wait t => exact hr
  | done t => exact State.pageNext_canonical (State.modOp_canonical hr ..) o
  | stop cause t => exact State.endOp_canonical (State.modOp_canonical hr ..) ..
  | _ => exact State.modOp_canonical hr ..

theorem State.pageFar_canonical (h : Canonical s) (o : EngOp) (mod page : Nat) :
    Canonical (s.pageFar o mod page) := by
  unfold State.pageFar
  dsimp only
  split
  · exact h
  next e he =>
  have ha := LineSays.asked_canonical (State.askFar_canonical h (.op o.id) mod (page * 65536) 1
    (e.xlate ((dSrc o.desc).toNat + 65536 * o.next)).gen true none (.page (o.kind == .thaw))) o o.quay o.ctx
    ((dSrc o.desc).toNat + 65536 * o.next) false
  split
  next hs => rw [hs] at ha; exact ha
  next hs => rw [hs] at ha; exact State.endOp_canonical ha ..
  next r t hs =>
    rw [hs] at ha
    have hd := State.dropRemotes_canonical ha o
    split
    · exact State.pageNext_canonical hd o
    · exact PageSays.settle_canonical (by exact hd) ..

theorem State.pageStep_canonical {home : State → Nat → PageSays} (h : Canonical s)
    (hhome : ∀ t v, Canonical t → (home t v).Kept) (o : EngOp) : Canonical (s.pageStep o home) := by
  unfold State.pageStep
  grind [State.endOp_canonical, PageSays.settle_canonical, State.frzPage_canonical, State.pageFar_canonical,
    Asked.Kept]

theorem State.farPageTurn_canonical (h : Canonical s) (id : Nat) : Canonical (s.farPageTurn id) := by
  unfold State.farPageTurn
  grind [State.thawAt_canonical, State.freezeAt_canonical, State.sendLinks_canonical, PageSays.Kept, Canonical]

theorem execFreezePage_canonical (h : Canonical s) (op : Nat) : Reaches (execFreezePage op s) := by
  unfold execFreezePage
  grind [State.farPageTurn_canonical, State.pageStep_canonical, State.freezeAt_canonical, Reaches]

theorem execPageFrozen_canonical (h : Canonical s) (page : Nat) : Reaches (execPageFrozen page s) := by
  unfold execPageFrozen
  grind [State.wantRange_canonical, State.payBy_canonical, State.unpark_canonical, State.setFrz_canonical,
    Reaches]

theorem execThawPage_canonical (h : Canonical s) (op : Nat) : Reaches (execThawPage op s) := by
  unfold execThawPage
  grind [State.farPageTurn_canonical, State.pageStep_canonical, State.thawAt_canonical, Reaches]

/-! ### Machine/Launch -/

theorem State.procPa_canonical (h : Canonical s) (y : Waiter) (die c va : Nat) (write : Bool) :
    (s.procPa y die c va write).Kept := by
  unfold State.procPa
  grind [State.openRequest_canonical, getD_canonical, Asked.Kept]

theorem LineSays.proc_canonical {r : LineSays} (hr : r.Kept) : r.proc.Kept := by
  cases r with
  | ok bs md t =>
    unfold LineSays.proc
    dsimp only
    split
    · exact hr
    · exact hr
  | wait t => exact hr
  | refused k t => exact hr
  | stale g t => exact hr

theorem State.procLine_canonical (h : Canonical s) (y : Waiter) (die c va n : Nat) (watch : Bool) :
    (s.procLine y die c va n watch).Kept := by
  unfold State.procLine
  grind [Asked.andThen_canonical, State.procPa_canonical, State.walkOwned_canonical, LineSays.proc_canonical,
    State.readLine_canonical, State.hwLoad_canonical, Asked.Kept]

theorem State.procRead_canonical (h : Canonical s) (y : Waiter) (die c va n : Nat) :
    (s.procRead y die c va n).Kept := by
  unfold State.procRead
  grind [Asked.andThen_canonical, askEach_canonical, State.procLine_canonical, Asked.Kept]

theorem State.procChange_canonical {f : State → HwDone} (h : Canonical s) (hf : ∀ t, Canonical t → (f t).Kept)
    (y : Waiter) (die c va : Nat) : (s.procChange y die c va f).Kept := by
  refine Asked.andThen_canonical (State.procPa_canonical h ..) (fun _ t ht => ?_)
  have hd := hf t ht
  split
  next hs => rw [hs] at hd; exact hd
  next hs => rw [hs] at hd; exact hd
  · exact ht

theorem State.recordWrite_canonical (h : Canonical s) (y : Waiter) (c va : Nat) (bs : List Byte) :
    (s.recordWrite y c va bs).Kept := by
  unfold State.recordWrite
  grind [State.hwWrite_canonical, State.dropFar_canonical, Asked.Kept, HwDone.Kept]

theorem State.modLaunch_canonical (h : Canonical s) (id : Nat) (f : Launch → Launch) :
    Canonical (s.modLaunch id f) := h

theorem State.startLaunch_canonical (h : Canonical s) (c prio die : Nat) (queue : Option (Nat × Nat))
    (r : BitVec 1024) : Canonical (s.startLaunch c prio die queue r).2 := h

theorem State.bindTurn_canonical (h : Canonical s) (l : Launch) : Canonical (s.bindTurn l) := by
  unfold State.bindTurn
  grind [State.modLaunch_canonical, State.procRead_canonical, State.dropFar_canonical, Asked.Kept]

theorem State.writeErr_canonical (h : Canonical s) (c q : Nat) : Canonical (s.writeErr c q) := by
  unfold State.writeErr
  grind [State.setQueue_canonical, State.dropFar_canonical, State.procChange_canonical, State.hwWrite_canonical,
    Asked.Kept]

theorem State.haltQueue_canonical (h : Canonical s) (c q code : Nat) : Canonical (s.haltQueue c q code) := by
  unfold State.haltQueue
  grind [State.writeErr_canonical, State.setQueue_canonical]

theorem State.haltAtHead_canonical (h : Canonical s) (c q code : Nat) : Canonical (s.haltAtHead c q code) := by
  unfold State.haltAtHead
  grind [State.hwLoad_canonical, State.haltQueue_canonical, State.setQueue_canonical, State.dropFar_canonical,
    LineSays.Kept]

theorem State.notifyDone_canonical (h : Canonical s) (c q slot : Nat) : Canonical (s.notifyDone c q slot) := by
  unfold State.notifyDone
  grind [State.send_canonical, State.setQueue_canonical]

theorem State.commandDone_canonical (h : Canonical s) (c q : Nat) : Canonical (s.commandDone c q) := by
  unfold State.commandDone
  grind [State.notifyDone_canonical, State.setQueue_canonical]

theorem State.settleLaunches_canonical (h : Canonical s) (c q : Nat) (l : List (Nat × Nat)) :
    Canonical (s.settleLaunches c q l) := by
  induction l generalizing s with
  | nil => exact h
  | cons x rest ih =>
    unfold State.settleLaunches
    split
    · exact h
    · exact ih (State.notifyDone_canonical (State.setQueue_canonical h ..) ..)

theorem State.settleQueue_canonical (h : Canonical s) (c q : Nat) : Canonical (s.settleQueue c q) := by
  unfold State.settleQueue
  grind [State.settleLaunches_canonical, State.commandDone_canonical]

theorem execQueueWake_canonical (h : Canonical s) (c q : Nat) : Reaches (execQueueWake c q s) := by
  have hq := State.settleQueue_canonical h c q
  refine (?_ : Canonical _)
  dsimp only
  split
  · exact State.writeErr_canonical hq ..
  split
  · exact hq
  split
  · split
    · exact State.haltQueue_canonical hq ..
    · exact hq
  split
  · exact State.haltAtHead_canonical hq ..
  have hr : ∀ r : Asked State, r.KeptBoth → Canonical (match r with
      | .ok s _ => s.dropFar (.queue c q)
      | .wait s => s
      | .fail _ s => ((s.dropFar (.queue c q)).setQueue c { s.queue c q with refused := true }).haltAtHead c q 4) := by
    intro r hr
    cases r with
    | ok t u => exact State.dropFar_canonical hr.1 _
    | wait t => exact hr
    | fail k t => exact State.haltAtHead_canonical (State.setQueue_canonical (State.dropFar_canonical hr _) ..) ..
  refine hr _ (Asked.andThen_keptBoth (State.procLine_canonical hq ..) fun tb t ht =>
    Asked.andThen_keptBoth (State.procLine_canonical ht ..) fun hb t ht => ?_)
  split
  · exact ⟨ht, ht⟩
  refine Asked.andThen_keptBoth (State.procRead_canonical ht ..) fun bs t ht =>
    Asked.andThen_keptBoth (State.procChange_canonical ht (fun t ht => State.hwWrite_canonical ht ..) ..) fun _ t ht => ?_
  exact ⟨State.setQueue_canonical ht .., State.setQueue_canonical ht ..⟩

theorem State.runCommand_canonical {f : Queue → BitVec 1024 → State → State} (h : Canonical s)
    (hf : ∀ v x t, Canonical t → Canonical (f v x t)) (c q op sub : Nat) :
    Canonical (s.runCommand c q op sub f) := by
  unfold State.runCommand
  grind [State.settleQueue_canonical, State.haltQueue_canonical]

theorem settleCmd_canonical {a : Asked State} (ha : a.KeptBoth) (c q : Nat) : Canonical (settleCmd a c q) := by
  cases a with
  | ok t u => exact State.dropFar_canonical ha.1 _
  | wait t => exact ha
  | fail st t => exact State.haltQueue_canonical (State.dropFar_canonical ha _) ..

theorem State.finishLaunch_canonical (h : Canonical s) (l : Launch) : Canonical (s.finishLaunch l) := by
  unfold State.finishLaunch
  grind [State.recordWrite_canonical, State.settleQueue_canonical, State.haltQueue_canonical,
    State.setQueue_canonical, Asked.Kept, Canonical]

theorem execCmdLaunch_canonical (h : Canonical s) (c q : Nat) : Reaches (execCmdLaunch c q s) := by
  refine State.runCommand_canonical h (fun x m t ht => ?_) ..
  dsimp only
  split
  · exact ht
  refine settleCmd_canonical (Asked.andThen_keptBoth (State.procRead_canonical ht ..) fun bs t ht => ?_) ..
  split
  · exact ht
  have hq := State.setQueue_canonical
    (State.startLaunch_canonical ht c x.prio x.die (some (c, q)) (BitVec.ofNat 1024 (leNat bs))) c
  grind [State.bindTurn_canonical, State.finishLaunch_canonical, Asked.KeptBoth]

theorem State.waitRead_canonical (h : Canonical s) (c q : Nat) (x : Queue) (m : BitVec 1024) :
    Canonical (s.waitRead c q x m) := by
  unfold State.waitRead
  grind [State.procLine_canonical, State.commandDone_canonical, State.setQueue_canonical, settleCmd_canonical,
    Asked.andThen_keptBoth, Asked.KeptBoth]

theorem execCmdWait_canonical (h : Canonical s) (c q : Nat) : Reaches (execCmdWait c q s) := by
  unfold execCmdWait
  grind [State.runCommand_canonical, State.waitRead_canonical, Reaches]

theorem execWaitReread_canonical (h : Canonical s) (c q : Nat) : Reaches (execWaitReread c q s) := by
  unfold execWaitReread
  grind [State.runCommand_canonical, State.waitRead_canonical, Reaches]

theorem State.signal_canonical (h : Canonical s) (c q : Nat) (x : Queue) (m : BitVec 1024) (add : Bool) :
    Canonical (s.signal c q x m add) := by
  unfold State.signal
  grind [State.procChange_canonical, State.hwUpdate_canonical, State.hwWrite_canonical,
    State.commandDone_canonical, settleCmd_canonical, Asked.andThen_keptBoth, Asked.KeptBoth]

theorem execCmdSignalWrite_canonical (h : Canonical s) (c q : Nat) : Reaches (execCmdSignalWrite c q s) := by
  unfold execCmdSignalWrite
  grind [State.runCommand_canonical, State.signal_canonical, Reaches]

theorem execCmdSignalAdd_canonical (h : Canonical s) (c q : Nat) : Reaches (execCmdSignalAdd c q s) := by
  unfold execCmdSignalAdd
  grind [State.runCommand_canonical, State.signal_canonical, Reaches]

theorem State.cmdEngine_canonical (h : Canonical s) (c q op sub : Nat) :
    Canonical (s.cmdEngine c q op sub) := by
  unfold State.cmdEngine
  grind [State.runCommand_canonical, State.fresh_canonical, State.issueOp_canonical, State.setQueue_canonical]

theorem execCmdCopyG2v_canonical (h : Canonical s) (c q : Nat) : Reaches (execCmdCopyG2v c q s) :=
  State.cmdEngine_canonical h ..

theorem execCmdCopyV2g_canonical (h : Canonical s) (c q : Nat) : Reaches (execCmdCopyV2g c q s) :=
  State.cmdEngine_canonical h ..

theorem execCmdCopyV2v_canonical (h : Canonical s) (c q : Nat) : Reaches (execCmdCopyV2v c q s) :=
  State.cmdEngine_canonical h ..

theorem execCmdCopyMc_canonical (h : Canonical s) (c q : Nat) : Reaches (execCmdCopyMc c q s) :=
  State.cmdEngine_canonical h ..

theorem execCmdCollAllredBf16_canonical (h : Canonical s) (c q : Nat) :
    Reaches (execCmdCollAllredBf16 c q s) :=
  State.cmdEngine_canonical h ..

theorem execCmdCollAllredF32_canonical (h : Canonical s) (c q : Nat) :
    Reaches (execCmdCollAllredF32 c q s) :=
  State.cmdEngine_canonical h ..

theorem execCmdCollRedscBf16_canonical (h : Canonical s) (c q : Nat) :
    Reaches (execCmdCollRedscBf16 c q s) :=
  State.cmdEngine_canonical h ..

theorem execCmdCollRedscF32_canonical (h : Canonical s) (c q : Nat) : Reaches (execCmdCollRedscF32 c q s) :=
  State.cmdEngine_canonical h ..

theorem execCmdCollAllgath_canonical (h : Canonical s) (c q : Nat) : Reaches (execCmdCollAllgath c q s) :=
  State.cmdEngine_canonical h ..

theorem execCmdCollBcast_canonical (h : Canonical s) (c q : Nat) : Reaches (execCmdCollBcast c q s) :=
  State.cmdEngine_canonical h ..

theorem execCmdFreeze_canonical (h : Canonical s) (c q : Nat) : Reaches (execCmdFreeze c q s) :=
  State.cmdEngine_canonical h ..

theorem execCmdThaw_canonical (h : Canonical s) (c q : Nat) : Reaches (execCmdThaw c q s) :=
  State.cmdEngine_canonical h ..

theorem State.placeGroup_canonical (h : Canonical s) (g : Machine.Group) (ts : List Thread) :
    Canonical (s.placeGroup g ts) := by
  unfold State.placeGroup
  grind [State.setThread_canonical, State.arrive_canonical, foldl_canonical, Canonical]

theorem State.placeWorkgroup_canonical (h : Canonical s) (l : Launch) (q i : Nat) :
    Canonical (s.placeWorkgroup l q i) := by
  unfold State.placeWorkgroup
  grind [State.fresh_canonical, State.modLaunch_canonical, State.placeGroup_canonical]

theorem State.placeTask_canonical (h : Canonical s) (k : Ready) (q : Nat) : Canonical (s.placeTask k q) := by
  unfold State.placeTask
  grind [State.fresh_canonical, State.placeGroup_canonical]

theorem execWorkgroupDispatch_canonical (h : Canonical s) (n : Nat) (quays : List Nat) :
    Reaches (execWorkgroupDispatch n quays s) := by
  unfold execWorkgroupDispatch
  grind [State.placeTask_canonical, State.bindTurn_canonical, State.placeWorkgroup_canonical,
    State.modLaunch_canonical, foldl_canonical, Reaches, Canonical]

theorem State.freeGroup_canonical (h : Canonical s) (g : Machine.Group) : Canonical (s.freeGroup g) := h

theorem State.countGroup_canonical (h : Canonical s) (g : Machine.Group) (fault : Bool) :
    Canonical (s.countGroup g fault) := by
  unfold State.countGroup
  grind [State.freeGroup_canonical, State.modLaunch_canonical]

theorem execWorkgroupComplete_canonical (h : Canonical s) (n : Nat) : Reaches (execWorkgroupComplete n s) := by
  unfold execWorkgroupComplete
  grind [State.countGroup_canonical, State.recordWrite_canonical, Reaches, Asked.Kept]

theorem execLaunchComplete_canonical (h : Canonical s) (n : Nat) : Reaches (execLaunchComplete n s) := by
  unfold execLaunchComplete
  grind [State.finishLaunch_canonical, Reaches]

theorem State.launchTurn_canonical (h : Canonical s) (o : EngOp) : Canonical (s.launchTurn o) := by
  unfold State.launchTurn
  grind [State.joinOp_canonical, State.procRead_canonical, State.dropRemotes_canonical,
    State.startLaunch_canonical, State.bindTurn_canonical, State.finishLaunch_canonical, Asked.Kept]

theorem State.postChange_canonical (h : Canonical s) (o : EngOp) (va n : Nat) (poison : Bool)
    (f : List Byte → List Byte) : (s.postChange o va n poison f).Kept := by
  unfold State.postChange
  grind [Asked.andThen_canonical, State.opLine_canonical, LineSays.asked_canonical, State.farUpdate_canonical,
    State.dropRemotes_canonical, State.returnLines_canonical, State.opWrite_canonical, Asked.Kept]

theorem State.publishSlot_canonical (h : Canonical s) (o : EngOp) (x : Queue) (n : Nat) :
    (s.publishSlot o x n).KeptBoth := by
  unfold State.publishSlot
  grind [Asked.andThen_canonical, State.opRead_canonical, State.returnLines_canonical,
    State.dropRemotes_canonical, State.modOp_canonical, State.postChange_canonical, State.endOp_canonical,
    Asked.andThen_keptBoth, Asked.KeptBoth, Asked.Kept]

theorem State.qpostTurn_canonical (h : Canonical s) (o : EngOp) : Canonical (s.qpostTurn o) := by
  unfold State.qpostTurn
  grind [State.endOp_canonical, State.withdrawFar_canonical, askEach_canonical, State.opVault_canonical,
    State.markPoison_canonical, State.modOp_canonical, State.chargeVault_canonical, State.postChange_canonical,
    State.publishSlot_canonical, Asked.settle_canonical, Asked.andThen_keptBoth, Asked.Kept, Asked.KeptBoth]

/-! ### Machine/MatrixUnits -/

theorem State.setNode_canonical (h : Canonical s) (x : Node) : Canonical (s.setNode x) := h

theorem State.setUnit_canonical (h : Canonical s) (u : MatrixUnit) : Canonical (s.setUnit u) := h

theorem State.mmaStart_canonical (h : Canonical s) (u : MatrixUnit) (o : EngOp) :
    (s.mmaStart u o).KeptBoth := by
  unfold State.mmaStart
  grind [Asked.andThen_canonical, askEach_canonical, State.opVault_canonical, State.setUnit_canonical,
    State.chargeVault_canonical, Asked.andThen_keptBoth, Asked.KeptBoth, Asked.Kept]

theorem execMatrixQueueHead_canonical (h : Canonical s) (pair : Nat) :
    Reaches (execMatrixQueueHead pair s) := by
  unfold execMatrixQueueHead
  grind [State.modOp_canonical, State.setUnit_canonical, State.mmaStart_canonical, State.setNode_canonical,
    Reaches, Asked.KeptBoth]

theorem State.groupFill_canonical (h : Canonical s) (o : EngOp) (at' : List (Nat × Nat)) (n : Nat) :
    (s.groupFill o at' n).Kept :=
  Asked.foldl_andThen_kept (fun _ _ _ ht => State.opFill_canonical ht ..) (by exact h) at'

theorem State.fillLatch_canonical (h : Canonical s) (o : EngOp) (u : MatrixUnit) (sa kpos : Nat) :
    Canonical (s.fillLatch o u sa kpos) := h

theorem State.groupStep_canonical (h : Canonical s) (o : EngOp) (u : MatrixUnit) : (s.groupStep o u).Kept := by
  unfold State.groupStep
  grind [Asked.andThen_canonical, State.groupFill_canonical, State.setNode_canonical, State.charge_canonical,
    State.fillLatch_canonical, Asked.Kept]

theorem State.runGroups_canonical (h : Canonical s) (o : EngOp) (u : MatrixUnit) (sa n : Nat) :
    (s.runGroups o u sa n).Kept := by
  induction n generalizing s u with
  | zero => exact h
  | succ n ih =>
    unfold State.runGroups
    grind [State.groupStep_canonical, State.setUnit_canonical, Asked.Kept]

theorem execEndOfRow_canonical (h : Canonical s) (pair : Nat) : Reaches (execEndOfRow pair s) := by
  unfold execEndOfRow
  grind [State.modOp_canonical, State.setUnit_canonical, State.runGroups_canonical, Reaches, Asked.Kept]

theorem State.relBank_canonical (h : Canonical s) (o : EngOp) (q off n : Nat) : (s.relBank o q off n).Kept := by
  unfold State.relBank
  grind [State.modOp_canonical, State.opFill_canonical, State.opBank_canonical, Asked.Kept]

theorem State.releaseParts_canonical (h : Canonical s) (o : EngOp) (q off : Nat) (parts : List (Nat × Nat)) :
    (s.releaseParts o q off parts).Kept := by
  refine Asked.foldl_andThen_kept (fun p r t ht => ?_) (by exact h) parts
  grind [State.relBank_canonical, Asked.Kept]

theorem State.releaseWrite_canonical (h : Canonical s) (q off : Nat) (bs : List Byte) (rfmt : Nat)
    (poison : Bool) (p : Nat × Nat) : Canonical (s.releaseWrite q off bs rfmt poison p) := by
  unfold State.releaseWrite
  grind [State.vstoreLine_canonical, State.vstore_canonical, State.setVmeta_canonical]

theorem State.releaseHalf_canonical (h : Canonical s) (o : EngOp) (n : Node) (reason : Nat) :
    (s.releaseHalf o n reason).Kept := by
  unfold State.releaseHalf
  grind [Asked.andThen_canonical, State.releaseParts_canonical, State.releaseWrite_canonical,
    State.charge_canonical, foldl_canonical, Asked.Kept]

theorem State.raiseOwn_canonical (h : Canonical s) (o : EngOp) (off st : Nat) : (s.raiseOwn o off st).Kept := by
  unfold State.raiseOwn
  grind [State.relBank_canonical, State.vRaise_canonical, Asked.Kept]

theorem State.engFault_canonical (h : Canonical s) (o : EngOp) (bad : Bool) : Canonical (s.engFault o bad) := by
  unfold State.engFault
  grind [State.modGroup_canonical]

theorem State.release_canonical (h : Canonical s) (o : EngOp) (n reason : Nat) :
    (s.release o n reason).KeptBoth := by
  unfold State.release
  grind [State.releaseHalf_canonical, State.raiseOwn_canonical, State.setNode_canonical,
    State.engFault_canonical, Asked.andThen_keptBoth, Asked.KeptBoth]

theorem State.releaseReady_canonical (h : Canonical s) (o : EngOp) (n : Nat) : (s.releaseReady o n).Kept := by
  unfold State.releaseReady
  grind [State.releaseParts_canonical, Asked.andThen_canonical, State.relBank_canonical, Asked.Kept]

theorem execNodeRelease_canonical (h : Canonical s) (pair : Nat) : Reaches (execNodeRelease pair s) := by
  unfold execNodeRelease
  grind [State.releaseReady_canonical, State.release_canonical, State.modOp_canonical, State.setUnit_canonical,
    Reaches, Asked.Kept, Asked.KeptBoth]

theorem State.installNode_canonical (h : Canonical s) (o : EngOp) : Canonical (s.installNode o) := h

theorem execEndOfOperation_canonical (h : Canonical s) (pair : Nat) : Reaches (execEndOfOperation pair s) := by
  unfold execEndOfOperation
  grind [State.joinOp_canonical, State.setUnit_canonical, State.raiseOwn_canonical, State.installNode_canonical,
    Reaches, Asked.Kept]

theorem State.seqIssue_canonical (h : Canonical s) (o x : EngOp) :
    ∀ t, s.seqIssue o x = some t → Canonical t := by
  unfold State.seqIssue
  grind [State.fresh_canonical, State.issueOp_canonical]

theorem State.seqEnd_canonical (h : Canonical s) (o : EngOp) (st : Nat) : Canonical (s.seqEnd o st) := by
  unfold State.seqEnd
  grind [State.endOp_canonical, State.modOp_canonical]

theorem State.gemmStep_canonical (h : Canonical s) (o : EngOp) : Canonical (s.gemmStep o) := by
  unfold State.gemmStep
  grind [State.seqEnd_canonical, State.modOp_canonical, State.seqIssue_canonical]

theorem State.attnStep_canonical (h : Canonical s) (o : EngOp) : Canonical (s.attnStep o) := by
  have hi : ∀ (t : State) (x : EngOp), Canonical t → ∀ u, t.seqIssue o x = some u → Canonical u :=
    fun t x ht => State.seqIssue_canonical ht o x
  have hm : ∀ {t : State} (f : EngOp → EngOp), Canonical t → Canonical (t.modOp o.id f) :=
    fun f ht => State.modOp_canonical ht ..
  unfold State.attnStep
  dsimp only
  refine ite_canonical (State.seqEnd_canonical h ..) (ite_canonical (ite_canonical (State.seqEnd_canonical h ..) h) ?_)
  refine ite_canonical (ite_canonical (hm _ h) h) (ite_canonical ?_ (ite_canonical ?_ ?_))
  · split
    next u hu => exact hm _ (hi _ _ h u hu)
    · exact h
  · refine ite_canonical h ?_
    split
    next u hu => exact hm _ (hi _ _ h u hu)
    · exact h
  refine ite_canonical (ite_canonical h (hm _ h)) (ite_canonical (ite_canonical h ?_) (ite_canonical h ?_))
  · split
    next u hu =>
      obtain ⟨v, hv, hu⟩ := Option.bind_eq_some_iff.mp hu
      exact hm _ (hi _ _ (hi _ _ h v hv) u hu)
    · exact h
  · split
    next u hu => exact hm _ (hi _ _ h u hu)
    · exact h

theorem State.cutGemm_canonical (h : Canonical s) (o : EngOp) : Canonical (s.cutGemm o) := by
  unfold State.cutGemm
  grind [State.setUnit_canonical, State.modOp_canonical, Canonical]

theorem execSeqStep_canonical (h : Canonical s) (op : Nat) : Reaches (execSeqStep op s) := by
  unfold execSeqStep
  grind [State.seqEnd_canonical, State.gemmStep_canonical, State.attnStep_canonical, Reaches]

/-! ### Machine/Preempt -/

theorem State.areaTurn_canonical (h : Canonical s) : Canonical s.areaTurn := by
  unfold State.areaTurn
  grind [State.wantAll_canonical, State.payBy_canonical, State.gwrite_canonical, State.chargeAt_canonical,
    foldl_canonical, Canonical]

theorem State.areaWrite_canonical (h : Canonical s) (pa : Nat) (bs : List Byte) :
    Canonical (s.areaWrite pa bs) :=
  State.areaTurn_canonical h ..

theorem State.areaOwned_canonical (h : Canonical s) (pa n : Nat) : Canonical (s.areaOwned pa n).2 := by
  unfold State.areaOwned
  grind [State.wantOwner_canonical, State.payBy_canonical, foldl_snd_canonical]

theorem State.header_canonical (h : Canonical s) (c : Ctx) (off : Nat) (bs : List Byte) :
    Canonical (s.header c off bs) := by
  unfold State.header
  grind [State.areaWrite_canonical]

theorem State.markSect_canonical (h : Canonical s) (c j : Nat) (on : Bool) : Canonical (s.markSect c j on) := by
  unfold State.markSect
  grind [State.header_canonical]

theorem State.freeSlotsOf_canonical (h : Canonical s) (c : Nat) : Canonical (s.freeSlotsOf c) := h

theorem State.withdraw_canonical (h : Canonical s) (p : Pass) : Canonical (s.withdraw p) := by
  unfold State.withdraw
  grind [State.forget_canonical, State.endRemote_canonical]

theorem State.capture_canonical (h : Canonical s) (c j q : Nat) (drain : Bool) (since : Nat) :
    Canonical (s.capture c j q drain since).2 := by
  unfold State.capture
  grind [State.cutGemm_canonical, State.withdrawFar_canonical, State.withdraw_canonical, foldl_canonical,
    Canonical]

theorem State.unblockAll_canonical (h : Canonical s) (q : Nat) : Canonical (s.unblockAll q) := by
  unfold State.unblockAll
  grind [State.unblock_canonical, foldl_canonical]

theorem State.install_canonical (h : Canonical s) (x : Section) (b : Nat) (rd : Nat → Nat → List Byte) :
    Canonical (s.install x b rd) := by
  unfold State.install
  grind [State.wakePasses_canonical, State.unblockAll_canonical, Canonical]

theorem State.loadVault_canonical (h : Canonical s) (q : Nat) (rd : Nat → Nat → List Byte) :
    Canonical (s.loadVault q rd) := by
  refine (?_ : Canonical _)
  refine State.vwritten_canonical (foldl_canonical (fun t u ht => foldl_canonical (fun t k ht => ?_) ?_ _)
    (by exact State.vzero_canonical h q) _) _
  · exact ht
  · exact ⟨ht.1, Mem.wf_writeN _ _ _ ht.2⟩

theorem State.endSection_canonical (h : Canonical s) (x : Section) : Canonical (s.endSection x) := by
  unfold State.endSection
  grind [State.undoom_canonical, State.tell_canonical, State.modRegion_canonical, foldl_canonical, Canonical]

theorem State.loseContext_canonical (h : Canonical s) (c quay off cause : Nat) :
    Canonical (s.loseContext c quay off cause) := by
  unfold State.loseContext
  grind [State.header_canonical, State.setCtx_canonical, State.endSection_canonical, State.lose_canonical,
    foldl_canonical]

theorem State.beginPreempt_canonical (h : Canonical s) (root : Nat) (qs : List Nat) (drain only : Bool) :
    Canonical (s.beginPreempt root qs drain only).2 := by
  unfold State.beginPreempt
  dsimp only
  refine foldl_canonical (fun t c ht => ?_) (by exact State.fresh_canonical h) _
  split
  · exact ht
  · exact State.header_canonical (State.header_canonical ht ..) ..

theorem State.modPreempt_canonical (h : Canonical s) (id : Nat) (f : Preempt → Preempt) :
    Canonical (s.modPreempt id f) := h

theorem State.addRestore_canonical (h : Canonical s) (c j q owner : Nat) (held : Option Nat) :
    Canonical (s.addRestore c j q owner held) := h

theorem State.orderRestore_canonical (h : Canonical s) (c q : Nat) : Canonical (s.orderRestore c q) := by
  unfold State.orderRestore
  grind [State.addRestore_canonical]

theorem State.sliceSaved_canonical (h : Canonical s) (q : Nat) : Canonical (s.sliceSaved q) := by
  unfold State.sliceSaved
  grind [State.orderRestore_canonical, Canonical]

theorem State.saveQuay_canonical (h : Canonical s) (p : Preempt) (q : Nat) : Canonical (s.saveQuay p q) := by
  unfold State.saveQuay
  grind [State.lose_canonical, State.capture_canonical, foldl_canonical, Canonical]

theorem State.startSaves_canonical (h : Canonical s) (id : Nat) : Canonical (s.startSaves id) := by
  unfold State.startSaves
  grind [State.saveQuay_canonical, State.sliceSaved_canonical, State.modPreempt_canonical, foldl_canonical]

theorem execPreemptStopReached_canonical (h : Canonical s) (n : Nat) (agent : StopAgent) :
    Reaches (execPreemptStopReached n agent s) := by
  unfold execPreemptStopReached
  grind [State.startSaves_canonical, State.modPreempt_canonical, Reaches]

theorem execPreemptDrainLimit_canonical (h : Canonical s) (n : Nat) : Reaches (execPreemptDrainLimit n s) := by
  unfold execPreemptDrainLimit
  grind [State.turnBack_canonical, State.tidy_canonical, foldl_canonical, Reaches]

theorem execPreemptionComplete_canonical (h : Canonical s) (n : Nat) :
    Reaches (execPreemptionComplete n s) := by
  refine (?_ : Canonical _)
  split
  · exact h
  refine ite_canonical h (foldl_canonical (fun t c ht => ?_) ?_ _)
  · exact ite_canonical ht (State.header_canonical ht ..)
  · exact ite_canonical (by exact h) (by exact h)

theorem State.dropSave_canonical (h : Canonical s) (n : Nat) : Canonical (s.dropSave n) := h

theorem State.setSave_canonical (h : Canonical s) (n : Nat) (v : SaveOp) : Canonical (s.setSave n v) := h

theorem State.saveEnded_canonical (h : Canonical s) (v : SaveOp) : Canonical (s.saveEnded v) := by
  unfold State.saveEnded
  grind [State.sliceSaved_canonical]

theorem execSaveChunk_canonical (h : Canonical s) (n : Nat) : Reaches (execSaveChunk n s) := by
  unfold execSaveChunk
  grind [State.charge_canonical, State.areaWrite_canonical, State.saveEnded_canonical,
    State.loseContext_canonical, State.dropSave_canonical, State.setPoison_canonical, State.markSect_canonical,
    State.setSave_canonical, foldl_canonical, Reaches]

theorem State.restoreEnd_canonical (h : Canonical s) (v : SaveOp) : Canonical (s.restoreEnd v) := by
  unfold State.restoreEnd
  grind [State.setCtx_canonical, State.install_canonical, State.chargeVault_canonical,
    State.loadVault_canonical, State.header_canonical, State.markSect_canonical, Canonical]

theorem execRestore_canonical (h : Canonical s) (n : Nat) : Reaches (execRestore n s) := by
  refine (?_ : Canonical _)
  split
  · exact h
  next v hv =>
  dsimp only
  refine ite_canonical h (ite_canonical (State.dropSave_canonical h n) (ite_canonical ?_ ?_))
  · exact ite_canonical (State.dropSave_canonical h n) (State.setSave_canonical h ..)
  split
  · refine ite_canonical h (ite_canonical (State.dropSave_canonical h n) ?_)
    exact State.restoreEnd_canonical (State.dropSave_canonical h n) v
  next p ps hp =>
  have hask := foldl_snd_canonical (f := fun (r : Bool × State) (p : Nat × Nat) =>
      (r.1 && (r.2.areaOwned ((s.ctx v.ctx).save + sectOff v.sect + p.1) p.2).1,
        (r.2.areaOwned ((s.ctx v.ctx).save + sectOff v.sect + p.1) p.2).2)) (r := (true, s))
    (fun r p hr => State.areaOwned_canonical hr ..) h (firstChunk v.chunks).1
  refine ite_canonical h (ite_canonical hask ?_)
  have hlines := foldl_canonical (fun t (p : Nat × Nat) ht => State.chargeLines_canonical ht v.quay
      ((s.ctx v.ctx).save + sectOff v.sect + p.1) p.2 v.ctx) (State.charge_canonical hask (meterQuay v.quay) v.ctx 15
      (((firstChunk v.chunks).1.map (·.2)).foldl (· + ·) 0)) (firstChunk v.chunks).1
  split
  · exact State.loseContext_canonical (State.dropSave_canonical hlines n) ..
  · exact State.setSave_canonical hlines ..

theorem State.flushQuay_canonical (h : Canonical s) (q : Nat) : Canonical (s.flushQuay q) := by
  unfold State.flushQuay
  grind [State.fresh_canonical, foldl_canonical, Canonical]

theorem execVaultHandover_canonical (h : Canonical s) (n : Nat) : Reaches (execVaultHandover n s) := by
  unfold execVaultHandover
  grind [State.flushQuay_canonical, State.chargeVault_canonical, State.vzero_canonical, State.charge_canonical,
    State.freeSlotsOf_canonical, State.orderRestore_canonical, Reaches, Canonical]

theorem execTimeSliceEnd_canonical (h : Canonical s) (part : Nat) : Reaches (execTimeSliceEnd part s) := by
  unfold execTimeSliceEnd
  grind [State.fresh_canonical, Reaches, Canonical]

theorem execLamplighterArrival_canonical (h : Canonical s) : Reaches (execLamplighterArrival s) := by
  unfold execLamplighterArrival
  grind [State.startSaves_canonical, State.modPreempt_canonical, State.header_canonical, Reaches]

theorem execBollardUncorrectable_canonical (h : Canonical s) (quay bollard : Nat) :
    Reaches (execBollardUncorrectable quay bollard s) := by
  unfold execBollardUncorrectable
  grind [State.tidy_canonical, State.turnBack_canonical, State.beginPreempt_canonical,
    State.modPreempt_canonical, foldl_canonical, Reaches, Canonical]

theorem execExhaustionPreempt_canonical (h : Canonical s) (c : Nat) : Reaches (execExhaustionPreempt c s) := by
  unfold execExhaustionPreempt
  grind [State.setCtx_canonical, State.beginPreempt_canonical, State.send_canonical, Reaches]

/-! ### Machine/Contexts -/

theorem State.modCtxOp_canonical (h : Canonical s) (n : Nat) (f : CtxOp → CtxOp) :
    Canonical (s.modCtxOp n f) := h

theorem State.ctxEnd_canonical (h : Canonical s) (n code count : Nat) : Canonical (s.ctxEnd n code count) := h

theorem State.ctxAwait_canonical (h : Canonical s) (n : Nat) (f : CtxOp → CtxOp) :
    Canonical (s.ctxAwait n f) := h

theorem State.dropCtxOp_canonical (h : Canonical s) (n : Nat) : Canonical (s.dropCtxOp n) := h

theorem State.ctxRead_canonical (h : Canonical s) (n : Nat) (o : CtxOp) : Canonical (s.ctxRead n o) := by
  unfold State.ctxRead
  grind [State.dropCtxOp_canonical, State.endOp_canonical, State.opVault_canonical, State.fresh_canonical,
    State.chargeVault_canonical, State.modCtxOp_canonical, Asked.Kept]

theorem State.ctxLine_canonical (h : Canonical s) (o : CtxOp) (c va n : Nat) : (s.ctxLine o c va n).Kept := by
  unfold State.ctxLine
  grind [State.hwLoad_canonical, State.dropFar_canonical, Asked.Kept, LineSays.Kept]

theorem State.ctxLoad_canonical (h : Canonical s) (o : CtxOp) (c va n : Nat) : (s.ctxLoad o c va n).Kept := by
  unfold State.ctxLoad
  grind [Asked.andThen_canonical, askEach_canonical, State.ctxLine_canonical, Asked.Kept]

theorem State.ctxPerform_canonical {body : CtxOp → State → State} (h : Canonical s)
    (hbody : ∀ v t, Canonical t → Canonical (body v t)) (n : Nat) (func : BitVec 8) (sel : CtxOp → Bool) :
    Canonical (s.ctxPerform n func sel body) := by
  unfold State.ctxPerform
  grind [State.ctxRead_canonical]

theorem State.walksWait_canonical (h : Canonical s) (c va k : Nat) (needW : Bool) :
    ∀ t, s.walksWait c va k needW = some t → Canonical t := by
  intro t ht
  obtain ⟨j, -, hj⟩ := List.exists_of_findSome?_eq_some ht
  grind [State.askTable_canonical, State.walkOwned_canonical]

theorem State.ctxNewAt_canonical (h : Canonical s) (n : Nat) (o : CtxOp) : Canonical (s.ctxNewAt n o) := by
  unfold State.ctxNewAt
  dsimp only
  split
  · exact State.ctxEnd_canonical h ..
  split
  · exact State.ctxEnd_canonical h ..
  split
  · exact State.ctxEnd_canonical h ..
  split
  · grind [State.walksWait_canonical]
  have hd := State.dropFar_canonical h (.tables o.issuer)
  split
  · exact State.ctxEnd_canonical hd ..
  split
  · exact State.ctxEnd_canonical hd ..
  · refine State.ctxEnd_canonical (State.modCtxOp_canonical (State.areaWrite_canonical ?_ ..) ..) ..
    exact hd

theorem State.giveQuays_canonical (h : Canonical s) (n : Nat) (o : CtxOp) : Canonical (s.giveQuays n o) := by
  unfold State.giveQuays
  grind [State.ctxEnd_canonical, State.setCtx_canonical, State.areaWrite_canonical, State.ctxAwait_canonical,
    foldl_canonical, Canonical]

theorem State.bmlim_canonical (h : Canonical s) (o : CtxOp) (c : Nat) : (s.bmlim o c).Kept := by
  unfold State.bmlim
  grind [State.ctxLine_canonical, State.dropFar_canonical, Asked.Kept]

theorem State.giveMemory_canonical (h : Canonical s) (n : Nat) (o : CtxOp) : Canonical (s.giveMemory n o) := by
  unfold State.giveMemory
  grind [State.ctxEnd_canonical, State.bmlim_canonical, State.setCtx_canonical, Asked.Kept]

theorem State.revokePosts_canonical (h : Canonical s) (c q : Nat) : Canonical (s.revokePosts c q) := h

theorem State.giveQueue_canonical (h : Canonical s) (n : Nat) (o : CtxOp) : Canonical (s.giveQueue n o) := by
  unfold State.giveQueue
  grind [State.ctxEnd_canonical, State.setQueue_canonical, State.revokePosts_canonical]

theorem State.giveEnergy_canonical (h : Canonical s) (n : Nat) (o : CtxOp) : Canonical (s.giveEnergy n o) := by
  unfold State.giveEnergy
  grind [State.ctxEnd_canonical, Canonical]

theorem State.clearLeaves_canonical (h : Canonical s) (c : Nat) (bad : Leaf → Bool) :
    Canonical (s.clearLeaves c bad).2 := by
  unfold State.clearLeaves
  grind [State.setCtx_canonical, foldl_canonical]

theorem State.revoke_canonical (h : Canonical s) (root : Nat) (hit : EngOp → Bool) :
    Canonical (s.revoke root hit) := by
  unfold State.revoke
  grind [State.modOp_canonical, State.endOp_canonical, foldl_canonical]

theorem State.markNonres_canonical (h : Canonical s) (qs : List Nat) : Canonical (s.markNonres qs) := h

theorem State.takeQuays_canonical (h : Canonical s) (n : Nat) (o : CtxOp) : Canonical (s.takeQuays n o) := by
  unfold State.takeQuays
  grind [State.ctxEnd_canonical, State.revoke_canonical, State.markNonres_canonical,
    State.beginPreempt_canonical, State.ctxAwait_canonical]

theorem State.takeMemory_canonical (h : Canonical s) (n : Nat) (o : CtxOp) : Canonical (s.takeMemory n o) := by
  unfold State.takeMemory
  grind [State.ctxEnd_canonical, State.revoke_canonical, State.clearLeaves_canonical, State.setCtx_canonical,
    State.beginPreempt_canonical, State.ctxAwait_canonical, foldl_canonical, foldl_snd_canonical]

theorem State.takeQueue_canonical (h : Canonical s) (n : Nat) (o : CtxOp) : Canonical (s.takeQueue n o) := by
  unfold State.takeQueue
  grind [State.ctxEnd_canonical, State.revokePosts_canonical, State.setQueue_canonical, foldl_canonical]

theorem State.takeEnergy_canonical (h : Canonical s) (n : Nat) (o : CtxOp) : Canonical (s.takeEnergy n o) := by
  unfold State.takeEnergy
  grind [State.ctxEnd_canonical, Canonical]

theorem State.recall_canonical (h : Canonical s) (lo n : Nat) : Canonical (s.recall lo n) := h

theorem State.recallEnd_canonical (h : Canonical s) (lo n : Nat) : Canonical (s.recallEnd lo n) := h

theorem State.emptyPage_canonical (h : Canonical s) (payer p : Nat) (swept : Bool) :
    Canonical (s.emptyPage payer p swept).2 := by
  unfold State.emptyPage
  grind [State.wantRange_canonical, State.payBy_canonical, State.recall_canonical, State.post_canonical,
    State.sendLinks_canonical, foldl_canonical, Canonical]

theorem State.emptyKept_canonical (h : Canonical s) (n : Nat) (o : CtxOp) (kept : List Nat) :
    Canonical (s.emptyKept n o kept).2 := by
  unfold State.emptyKept
  grind [State.modCtxOp_canonical, State.emptyPage_canonical, foldl_snd_canonical]

theorem State.keptEnd_canonical (h : Canonical s) (n : Nat) (o : CtxOp) (kept : List Nat) :
    Canonical (s.keptEnd n o kept) := by
  unfold State.keptEnd
  grind [State.modCtxOp_canonical, State.recallEnd_canonical, foldl_canonical]

theorem State.mapPages_canonical (h : Canonical s) (n : Nat) (o : CtxOp) (lim : Option Nat) (size : Nat)
    (w x : Bool) (fuel k : Nat) : Canonical (s.mapPages n o lim size w x fuel k) := by
  induction fuel generalizing s o k with
  | zero => exact State.ctxAwait_canonical h ..
  | succ fuel ih =>
    have stop : ∀ {t : State} (code : Nat), Canonical t →
        Canonical ((t.keptEnd n o []).ctxAwait n fun o => { o with code := code, count := k }) :=
      fun code ht => State.ctxAwait_canonical (State.keptEnd_canonical ht ..) ..
    have hd := State.dropFar_canonical h (.tables o.issuer)
    have he := fun kept => State.emptyKept_canonical hd n o kept
    unfold State.mapPages
    dsimp only
    split
    · exact stop 2 h
    split
    · exact State.modCtxOp_canonical (State.walksWait_canonical h _ _ _ _ _ ‹_›) ..
    split
    · exact stop 2 hd
    split
    · exact stop 2 hd
    split
    · exact stop 7 hd
    split
    · exact ih hd ..
    split
    · exact stop 6 hd
    split
    · exact ih (State.setCtx_canonical hd _) ..
    split
    · exact stop 6 hd
    split
    · exact State.modCtxOp_canonical (he _) ..
    · refine ih (State.modCtxOp_canonical (State.setCtx_canonical (State.clearLeaves_canonical
        (State.keptEnd_canonical ?_ ..) ..) _) ..) ..
      exact foldl_canonical (fun t p ht => State.applyBump_canonical ht p) (he _) _

theorem State.ctxMapAt_canonical (h : Canonical s) (n : Nat) (o : CtxOp) : Canonical (s.ctxMapAt n o) := by
  unfold State.ctxMapAt
  grind [State.ctxEnd_canonical, State.bmlim_canonical, State.mapPages_canonical, Asked.Kept]

theorem State.ctxUnmapAt_canonical (h : Canonical s) (n : Nat) (o : CtxOp) : Canonical (s.ctxUnmapAt n o) := by
  unfold State.ctxUnmapAt
  grind [State.ctxEnd_canonical, State.clearLeaves_canonical, State.ctxAwait_canonical]

theorem State.ctxRenewAt_canonical (h : Canonical s) (n : Nat) (o : CtxOp) : Canonical (s.ctxRenewAt n o) := by
  unfold State.ctxRenewAt
  grind [State.ctxEnd_canonical, State.applyBump_canonical, State.setCtx_canonical]

theorem State.ctxRunAt_canonical (h : Canonical s) (n : Nat) (o : CtxOp) : Canonical (s.ctxRunAt n o) := by
  unfold State.ctxRunAt
  grind [State.ctxEnd_canonical, State.ctxLoad_canonical, State.dropFar_canonical, State.setCtx_canonical,
    State.header_canonical, State.addRestore_canonical, State.ctxAwait_canonical, foldl_canonical, Asked.Kept]

theorem State.ctxStopAt_canonical (h : Canonical s) (n : Nat) (o : CtxOp) : Canonical (s.ctxStopAt n o) := by
  unfold State.ctxStopAt
  grind [State.ctxEnd_canonical, State.setCtx_canonical, State.beginPreempt_canonical, State.ctxAwait_canonical]

theorem State.giveBack_canonical (h : Canonical s) (n : Nat) (o : CtxOp) : Canonical (s.giveBack n o) := by
  unfold State.giveBack
  grind [State.setCtx_canonical, State.modCtxOp_canonical, foldl_canonical, Canonical]

theorem State.releaseSubtree_canonical (h : Canonical s) (n : Nat) (o : CtxOp) :
    Canonical (s.releaseSubtree n o) := by
  unfold State.releaseSubtree
  grind [State.giveBack_canonical, State.recordWrite_canonical, Asked.Kept, Canonical]

theorem State.enQuotaAt_canonical (h : Canonical s) (n : Nat) (o : CtxOp) : Canonical (s.enQuotaAt n o) := by
  unfold State.enQuotaAt
  grind [State.ctxEnd_canonical, Canonical]

theorem State.dlogStartAt_canonical (h : Canonical s) (n : Nat) (o : CtxOp) :
    Canonical (s.dlogStartAt n o) := by
  unfold State.dlogStartAt
  grind [State.ctxEnd_canonical, State.ctxLine_canonical, State.dropFar_canonical, State.hwWrite_canonical,
    State.setCtx_canonical, Asked.Kept, HwDone.Kept, Canonical]

theorem State.dlogStopAt_canonical (h : Canonical s) (n : Nat) (o : CtxOp) : Canonical (s.dlogStopAt n o) := by
  unfold State.dlogStopAt
  grind [State.ctxEnd_canonical, State.setCtx_canonical, State.dropFar_canonical, State.ctxLine_canonical,
    State.hwWrite_canonical, Asked.Kept, HwDone.Kept]

theorem State.changeList_canonical (h : Canonical s) (o : CtxOp) (va count : Nat) :
    (s.changeList o va count).Kept := by
  unfold State.changeList
  grind [askEach_canonical, Asked.andThen_canonical, State.ctxLine_canonical, Asked.Kept]

theorem State.partChgAt_canonical (h : Canonical s) (n : Nat) (o : CtxOp) : Canonical (s.partChgAt n o) := by
  unfold State.partChgAt
  grind [State.ctxEnd_canonical, State.changeList_canonical, State.dropFar_canonical, State.modCtxOp_canonical,
    Asked.Kept]

theorem State.applyQuay_canonical (h : Canonical s) (n part : Nat) (drain : Bool) (q : Nat) :
    Canonical (s.applyQuay n part drain q).2 := by
  unfold State.applyQuay
  grind [State.modCtxOp_canonical, State.markNonres_canonical, State.beginPreempt_canonical, Canonical]

theorem State.applySlice_canonical (h : Canonical s) (e : ChangeEntry) : Canonical (s.applySlice e).2 := by
  have hr := State.wantRange_canonical (State.payBy_canonical (State.recall_canonical h
    (s.domain.mod.toNat * 2 ^ 44 + e.slice / 16 * 2 ^ 37 + e.slice % 16 * 2 ^ 33) softEnd) 0)
    ((s.domain.mod.toNat * 2 ^ 44 + e.slice / 16 * 2 ^ 37 + e.slice % 16 * 2 ^ 33) / 128) (softEnd / 128)
  unfold State.applySlice
  generalize softEnd = n at *
  grind [foldl_canonical, State.applyBump_canonical, State.charge_canonical, State.recallEnd_canonical,
    Mem.wf_filter, Canonical]

theorem State.applyEntry_canonical (h : Canonical s) (n : Nat) (e : ChangeEntry) :
    Canonical (s.applyEntry n e).2 := by
  unfold State.applyEntry
  grind [State.applyQuay_canonical, State.applySlice_canonical, foldl_snd_canonical, Canonical]

theorem State.partChgTurn_canonical (h : Canonical s) (n : Nat) (o : CtxOp) :
    Canonical (s.partChgTurn n o) := by
  unfold State.partChgTurn
  grind [State.ctxEnd_canonical, State.applyEntry_canonical, State.modCtxOp_canonical]

theorem State.withdrawPage_canonical (h : Canonical s) (n : Nat) (o : CtxOp) :
    Canonical (s.withdrawPage n o) := by
  unfold State.withdrawPage
  grind [State.emptyPage_canonical, State.modCtxOp_canonical, State.recallEnd_canonical,
    State.applyBump_canonical]

theorem State.endSaved_canonical (h : Canonical s) (t : Nat) : Canonical (s.endSaved t) := by
  unfold State.endSaved
  grind [State.endSection_canonical, State.freeSlotsOf_canonical, State.header_canonical, foldl_canonical]

theorem State.ctxContinue_canonical (h : Canonical s) (n : Nat) (o : CtxOp) :
    Canonical (s.ctxContinue n o) := by
  have hf : Canonical (o.hands.foldl (fun s d => (s.endSaved d).loseContext d 0 0 0) s) :=
    foldl_canonical (fun t d ht => State.loseContext_canonical (State.endSaved_canonical ht d) ..) h _
  unfold State.ctxContinue
  dsimp only
  split
  · exact State.modCtxOp_canonical (by exact h) ..
  · exact State.modCtxOp_canonical hf ..
  · split
    · exact State.ctxEnd_canonical h ..
    · exact State.modCtxOp_canonical (State.endSaved_canonical h _) ..
  · exact State.ctxEnd_canonical h ..
  · exact State.ctxEnd_canonical h ..

theorem State.ctxEnded_canonical (h : Canonical s) (n : Nat) (o : CtxOp) : Canonical (s.ctxEnded n o) := by
  unfold State.ctxEnded
  grind [State.ctxEnd_canonical, State.modCtxOp_canonical]

theorem State.freeNumbers_canonical (h : Canonical s) (n : Nat) (o : CtxOp) :
    Canonical (s.freeNumbers n o) := by
  unfold State.freeNumbers
  grind [State.ctxEnd_canonical, Canonical]

theorem State.ctxReport_canonical (h : Canonical s) (n : Nat) (o : CtxOp) : Canonical (s.ctxReport n o) := by
  unfold State.ctxReport
  grind [State.dropCtxOp_canonical, State.send_canonical, State.endOp_canonical, State.engFault_canonical,
    State.opBank_canonical, State.vstore_canonical, State.chargeVault_canonical, Asked.Kept]

theorem execContextOpDone_canonical (h : Canonical s) (n : Nat) : Reaches (execContextOpDone n s) := by
  unfold execContextOpDone
  grind [State.ctxReport_canonical, State.partChgTurn_canonical, State.withdrawPage_canonical,
    State.ctxEnded_canonical, State.releaseSubtree_canonical, State.freeNumbers_canonical,
    State.ctxContinue_canonical, Reaches]

theorem execCtxNew_canonical (h : Canonical s) (site : CtxSite) : Reaches (execCtxNew site s) := by
  unfold execCtxNew
  grind [State.ctxFire_canonical, State.ctxPerform_canonical, State.ctxNewAt_canonical, Reaches]

theorem execCtxGiveQuays_canonical (h : Canonical s) (site : CtxSite) : Reaches (execCtxGiveQuays site s) := by
  unfold execCtxGiveQuays
  grind [State.ctxFire_canonical, State.ctxPerform_canonical, State.giveQuays_canonical, Reaches]

theorem execCtxGiveMemory_canonical (h : Canonical s) (site : CtxSite) :
    Reaches (execCtxGiveMemory site s) := by
  unfold execCtxGiveMemory
  grind [State.ctxFire_canonical, State.ctxPerform_canonical, State.giveMemory_canonical, Reaches]

theorem execCtxGiveQueue_canonical (h : Canonical s) (site : CtxSite) : Reaches (execCtxGiveQueue site s) := by
  unfold execCtxGiveQueue
  grind [State.ctxFire_canonical, State.ctxPerform_canonical, State.giveQueue_canonical, Reaches]

theorem execCtxGiveEnergy_canonical (h : Canonical s) (site : CtxSite) :
    Reaches (execCtxGiveEnergy site s) := by
  unfold execCtxGiveEnergy
  grind [State.ctxFire_canonical, State.ctxPerform_canonical, State.giveEnergy_canonical, Reaches]

theorem execCtxTakeQuays_canonical (h : Canonical s) (site : CtxSite) : Reaches (execCtxTakeQuays site s) := by
  unfold execCtxTakeQuays
  grind [State.ctxFire_canonical, State.ctxPerform_canonical, State.takeQuays_canonical, Reaches]

theorem execCtxTakeMemory_canonical (h : Canonical s) (site : CtxSite) :
    Reaches (execCtxTakeMemory site s) := by
  unfold execCtxTakeMemory
  grind [State.ctxFire_canonical, State.ctxPerform_canonical, State.takeMemory_canonical, Reaches]

theorem execCtxTakeQueue_canonical (h : Canonical s) (site : CtxSite) : Reaches (execCtxTakeQueue site s) := by
  unfold execCtxTakeQueue
  grind [State.ctxFire_canonical, State.ctxPerform_canonical, State.takeQueue_canonical, Reaches]

theorem execCtxTakeEnergy_canonical (h : Canonical s) (site : CtxSite) :
    Reaches (execCtxTakeEnergy site s) := by
  unfold execCtxTakeEnergy
  grind [State.ctxFire_canonical, State.ctxPerform_canonical, State.takeEnergy_canonical, Reaches]

theorem execCtxMap_canonical (h : Canonical s) (site : CtxSite) : Reaches (execCtxMap site s) := by
  unfold execCtxMap
  grind [State.ctxFire_canonical, State.ctxPerform_canonical, State.ctxMapAt_canonical, Reaches]

theorem execCtxUnmap_canonical (h : Canonical s) (site : CtxSite) : Reaches (execCtxUnmap site s) := by
  unfold execCtxUnmap
  grind [State.ctxFire_canonical, State.ctxPerform_canonical, State.ctxUnmapAt_canonical, Reaches]

theorem execCtxUnmapRenewal_canonical (h : Canonical s) (site : CtxSite) :
    Reaches (execCtxUnmapRenewal site s) := by
  unfold execCtxUnmapRenewal
  grind [State.ctxFire_canonical, State.ctxPerform_canonical, State.ctxRenewAt_canonical, Reaches]

theorem execCtxRun_canonical (h : Canonical s) (site : CtxSite) : Reaches (execCtxRun site s) := by
  unfold execCtxRun
  grind [State.ctxFire_canonical, State.ctxPerform_canonical, State.ctxRunAt_canonical, Reaches]

theorem execCtxStop_canonical (h : Canonical s) (site : CtxSite) : Reaches (execCtxStop site s) := by
  unfold execCtxStop
  grind [State.ctxFire_canonical, State.ctxPerform_canonical, State.ctxStopAt_canonical, Reaches]

theorem execCtxStopEnd_canonical (h : Canonical s) (site : CtxSite) : Reaches (execCtxStopEnd site s) := by
  unfold execCtxStopEnd
  grind [State.ctxFire_canonical, State.ctxPerform_canonical, State.ctxStopAt_canonical, Reaches]

theorem execCtxStopRelease_canonical (h : Canonical s) (site : CtxSite) :
    Reaches (execCtxStopRelease site s) := by
  unfold execCtxStopRelease
  grind [State.ctxFire_canonical, State.ctxPerform_canonical, State.ctxStopAt_canonical, Reaches]

theorem execEnQuota_canonical (h : Canonical s) (site : CtxSite) : Reaches (execEnQuota site s) := by
  unfold execEnQuota
  grind [State.ctxFire_canonical, State.ctxPerform_canonical, State.enQuotaAt_canonical, Reaches]

theorem execDlogStart_canonical (h : Canonical s) (site : CtxSite) : Reaches (execDlogStart site s) := by
  unfold execDlogStart
  grind [State.ctxFire_canonical, State.ctxPerform_canonical, State.dlogStartAt_canonical, Reaches]

theorem execDlogStop_canonical (h : Canonical s) (site : CtxSite) : Reaches (execDlogStop site s) := by
  unfold execDlogStop
  grind [State.ctxFire_canonical, State.ctxPerform_canonical, State.dlogStopAt_canonical, Reaches]

theorem execPartChg_canonical (h : Canonical s) (site : CtxSite) : Reaches (execPartChg site s) := by
  unfold execPartChg
  grind [State.ctxFire_canonical, State.ctxPerform_canonical, State.partChgAt_canonical, Reaches]

/-! ### Machine/Beacon -/

theorem State.status_canonical (h : Canonical s) (m : BMsg) (code count cause : Nat) :
    Canonical (s.status m code count cause) := h

theorem State.takeMessage_canonical {act : BMsg → State → Asked State} (h : Canonical s)
    (hact : ∀ v t, Canonical t → (act v t).KeptBoth) (n op : Nat) : Canonical (s.takeMessage n op act) := by
  unfold State.takeMessage
  dsimp only
  split
  · exact h
  next m hm =>
  split
  · exact h
  split
  · exact State.status_canonical (State.dropMessage_canonical h n) ..
  have ha := hact m s h
  split
  next t u hs => rw [hs] at ha; exact ha.1
  next t hs => rw [hs] at ha; exact ha
  next k t hs =>
    rw [hs] at ha
    have hd := State.dropFar_canonical (State.dropMessage_canonical ha n) (.node m.fn m.tag)
    split
    · exact State.status_canonical hd ..
    · exact State.status_canonical hd ..

theorem State.nodeDone_canonical (h : Canonical s) (m : BMsg) : Canonical (s.nodeDone m) := h

theorem State.nodePa_canonical (h : Canonical s) (m : BMsg) (phys : Bool) (va : Nat) (write : Bool) :
    (s.nodePa m phys va write).Kept := by
  unfold State.nodePa
  grind [State.askTable_canonical, Asked.Kept]

theorem State.nodeFar_canonical (h : Canonical s) (m : BMsg) (mod pa n : Nat) (gen : BitVec 8)
    (phys write : Bool) (ask : RemoteAsk) : (s.nodeFar m mod pa n gen phys write ask).Kept := by
  unfold State.nodeFar
  grind [State.askFar_canonical, Asked.Kept, LineSays.Kept]

theorem State.nodeOwned_canonical (h : Canonical s) (m : BMsg) (phys : Bool) (va : Nat) :
    Canonical (s.nodeOwned m phys va).2 := by
  unfold State.nodeOwned
  grind [State.payBy_canonical, State.walkOwned_canonical]

theorem State.nodeRead_canonical (h : Canonical s) (m : BMsg) (phys : Bool) (va n : Nat) :
    (s.nodeRead m phys va n).Kept := by
  unfold State.nodeRead
  grind [Asked.andThen_canonical, State.nodePa_canonical, State.nodeFar_canonical, State.waitHeld_canonical,
    State.nodeOwned_canonical, State.wantOwner_canonical, Asked.Kept]

theorem State.nodeWalk_canonical (h : Canonical s) (m : BMsg) (phys : Bool) (va : Nat) :
    Canonical (s.nodeWalk m phys va) := by
  unfold State.nodeWalk
  grind [State.chargeWalk_canonical]

theorem State.nodeCharge_canonical (h : Canonical s) (m : BMsg) (phys : Bool) (va : Nat) :
    Canonical (s.nodeCharge m phys va) := by
  unfold State.nodeCharge
  grind [State.nodePa_canonical, State.chargeAt_canonical, State.nodeWalk_canonical]

theorem State.nodeLog_canonical (h : Canonical s) (m : BMsg) (ipa : Option Nat) : (s.nodeLog m ipa).Kept := by
  unfold State.nodeLog
  grind [State.logPage_canonical, Asked.Kept, HwDone.Kept]

theorem State.nodeReady_canonical (h : Canonical s) (m : BMsg) (phys : Bool) (va : Nat) (bs : List Byte) :
    (s.nodeReady m phys va bs).Kept := by
  unfold State.nodeReady
  grind [Asked.andThen_canonical, State.nodePa_canonical, State.nodeLog_canonical, State.nodeFar_canonical,
    State.waitHeld_canonical, State.nodeOwned_canonical, State.wantAll_canonical, Asked.Kept]

theorem State.nodeWrite_canonical (h : Canonical s) (m : BMsg) (pa : Nat) (bs : List Byte) :
    Canonical (s.nodeWrite m pa bs) := by
  unfold State.nodeWrite
  grind [State.controlWrite_canonical, State.chargeAt_canonical, State.gwrite_canonical]

theorem State.messagePos_canonical (h : Canonical s) (n pos : Nat) (data : List Byte) :
    Canonical (s.messagePos n pos data) := h

theorem State.nodePieces_canonical {one : State → Nat × Nat → Asked (List Byte)} {u : State}
    (hone : ∀ t v, Canonical t → (one t v).Kept) (hu : Canonical u) (n : Nat) (ps : List (Nat × Nat))
    (got : List Byte) : (State.nodePieces n one ps got u).Kept := by
  induction ps generalizing got u with
  | nil => exact hu
  | cons p ps ih =>
    have hp := hone u p hu
    unfold State.nodePieces
    split
    next bs t ht =>
      rw [ht] at hp
      exact ih hp _
    next t ht =>
      rw [ht] at hp
      exact State.messagePos_canonical hp ..
    next k t ht =>
      rw [ht] at hp
      exact hp

theorem State.nodeStore_canonical (h : Canonical s) (n : Nat) (m : BMsg) (phys : Bool) (va : Nat)
    (bs : List Byte) : (s.nodeStore n m phys va bs).Kept := by
  unfold State.nodeStore
  grind [Asked.andThen_canonical, State.nodePieces_canonical, State.nodeReady_canonical,
    State.nodeWrite_canonical, State.nodeWalk_canonical, State.messagePos_canonical, State.nodeDone_canonical,
    Asked.Kept]

theorem State.nodeUpdate_canonical (h : Canonical s) (m : BMsg) (va : Nat) (f : Nat → Nat) :
    (s.nodeUpdate m va f).Kept := by
  unfold State.nodeUpdate
  grind [Asked.andThen_canonical, State.nodePa_canonical, State.nodeLog_canonical, State.farUpdate_canonical,
    State.waitHeld_canonical, State.nodeOwned_canonical, State.wantAll_canonical, State.chargeAt_canonical,
    State.gwrite_canonical, State.nodeWalk_canonical, Asked.Kept, LineSays.Kept]

theorem execMrd_canonical (h : Canonical s) (n : Nat) : Reaches (execMrd n s) := by
  unfold execMrd
  grind [State.takeMessage_canonical, Asked.andThen_canonical, State.nodePieces_canonical,
    State.nodeRead_canonical, State.nodeCharge_canonical, State.send_canonical, State.nodeDone_canonical,
    Asked.andThen_keptBoth, Reaches, Asked.Kept, Asked.KeptBoth]

theorem execMwr_canonical (h : Canonical s) (n : Nat) : Reaches (execMwr n s) := by
  unfold execMwr
  grind [State.takeMessage_canonical, State.nodeStore_canonical, State.status_canonical, Asked.andThen_keptBoth,
    Reaches, Asked.KeptBoth]

theorem State.messageAt_canonical (h : Canonical s) (n phase claimed : Nat) :
    Canonical (s.messageAt n phase claimed) := h

theorem State.nodeWord_canonical (h : Canonical s) (m : BMsg) (va : Nat) : (s.nodeWord m va).Kept := by
  unfold State.nodeWord
  grind [Asked.andThen_canonical, State.nodeRead_canonical, Asked.Kept]

theorem execQpostMessage_canonical (h : Canonical s) (n : Nat) : Reaches (execQpostMessage n s) := by
  unfold execQpostMessage
  grind [State.takeMessage_canonical, State.nodeWord_canonical, State.nodeUpdate_canonical,
    State.nodeDone_canonical, State.nodeCharge_canonical, State.status_canonical, State.messageAt_canonical,
    State.nodeStore_canonical, State.setQueue_canonical, Asked.andThen_keptBoth, Reaches, Asked.KeptBoth]

theorem execCtxop_canonical (h : Canonical s) (n : Nat) : Reaches (execCtxop n s) := by
  unfold execCtxop
  grind [State.takeMessage_canonical, State.fresh_canonical, Reaches, Canonical, Asked.KeptBoth]

theorem execPgack_canonical (h : Canonical s) (n : Nat) : Reaches (execPgack n s) := by
  unfold execPgack
  grind [State.takeMessage_canonical, State.status_canonical, State.ackRequest_canonical, Reaches,
    Asked.KeptBoth]

theorem execEnread_canonical (h : Canonical s) (n : Nat) : Reaches (execEnread n s) := by
  unfold execEnread
  grind [State.takeMessage_canonical, State.send_canonical, Reaches, Asked.KeptBoth]

theorem execAttest_canonical (h : Canonical s) (n : Nat) : Reaches (execAttest n s) := by
  unfold execAttest
  grind [State.status_canonical, State.send_canonical, foldl_canonical, Reaches, Canonical]

theorem execMalformedMessage_canonical (h : Canonical s) (n : Nat) : Reaches (execMalformedMessage n s) := by
  unfold execMalformedMessage
  grind [State.status_canonical, Reaches, Canonical]

/-! ### Machine/Coherence -/

theorem State.takeMsg_canonical (h : Canonical s) (n : Nat) :
    ∀ m t, s.takeMsg n = some (m, t) → Canonical t := by
  unfold State.takeMsg
  grind [Canonical]

theorem State.refuseMsg_canonical (h : Canonical s) (line holder : Nat) (write : Bool) (cause : BitVec 8)
    (stale : Bool) (gen : BitVec 8) : Canonical (s.refuseMsg line holder write cause stale gen) := h

theorem State.sendReplica_canonical (h : Canonical s) (line holder c : Nat) :
    Canonical (s.sendReplica line holder c) :=
  State.post_canonical (State.chargeHome_canonical h ..) _

theorem State.checked_canonical {k : State → State} (h : Canonical s) (hk : ∀ t, Canonical t → Canonical (k t))
    (m : NetMsg) (write : Bool) (gen : BitVec 8) (c q : Nat) : Canonical (s.checked m write gen c q k) := by
  unfold State.checked
  grind [State.parkMsg_canonical, State.refuseMsg_canonical, State.sendReplica_canonical,
    State.wantAll_canonical, State.chargeHome_canonical]

theorem State.serveGets_canonical (h : Canonical s) (m : NetMsg) : Canonical (s.serveGets m) := by
  unfold State.serveGets
  grind [State.wantOwner_canonical, State.parkMsg_canonical, State.post_canonical, State.setDir_canonical]

theorem execGets_canonical (h : Canonical s) (n : Nat) : Reaches (execGets n s) := by
  unfold execGets
  grind [State.takeMsg_canonical, State.checked_canonical, State.serveGets_canonical, Reaches]

theorem execGetm_canonical (h : Canonical s) (n : Nat) : Reaches (execGetm n s) := by
  unfold execGetm
  grind [State.takeMsg_canonical, State.checked_canonical, State.post_canonical, State.setDir_canonical,
    foldl_canonical, Reaches]

theorem State.sendTokens_canonical (hs : Canonical s) (line src h n : Nat) (owner : Bool) (md : LineMeta) :
    Canonical (s.sendTokens line src h n owner md) := by
  unfold State.sendTokens
  grind [State.post_canonical]

theorem State.tokensHome_canonical (h : Canonical s) (line src k : Nat) (owner : Bool) (md : LineMeta) :
    Canonical (s.tokensHome line src k owner md) := by
  unfold State.tokensHome
  grind [State.unpark_canonical, State.setDir_canonical, State.takeData_canonical, State.sendTokens_canonical]

theorem execPut_canonical (h : Canonical s) (n : Nat) : Reaches (execPut n s) := by
  unfold execPut
  grind [State.takeMsg_canonical, State.tokensHome_canonical, Reaches]

theorem execWb_canonical (h : Canonical s) (n : Nat) : Reaches (execWb n s) := by
  unfold execWb
  grind [State.takeMsg_canonical, State.tokensHome_canonical, Reaches]

theorem execDone_canonical (h : Canonical s) (n : Nat) : Reaches (execDone n s) := by
  unfold execDone
  grind [State.takeMsg_canonical, State.unpark_canonical, State.setDir_canonical, Reaches]

theorem State.dropReq_canonical (hs : Canonical s) (h line : Nat) (write : Bool) :
    Canonical (s.dropReq h line write) := by
  unfold State.dropReq
  grind [Canonical]

theorem State.answer_canonical (h : Canonical s) (r : CohReq) (a : CohAns) : Canonical (s.answer r a) := h

theorem State.oneUse_canonical (h : Canonical s) (r : CohReq) (md : LineMeta) : Canonical (s.oneUse r md) := h

theorem State.giveTo_canonical (hs : Canonical s) (h line dest : Nat) : Canonical (s.giveTo h line dest) := by
  unfold State.giveTo
  grind [State.sendTokens_canonical, State.setCopy_canonical]

theorem State.countWrite_canonical (h : Canonical s) (c : Copy) : Canonical (s.countWrite c) := by
  unfold State.countWrite
  grind [State.dropReq_canonical, State.post_canonical, State.setCopy_canonical]

theorem State.countPers_canonical (h : Canonical s) (c : Copy) : Canonical (s.countPers c) := by
  unfold State.countPers
  grind [State.dropReq_canonical, State.post_canonical, State.setCopy_canonical]

theorem State.countTokens_canonical (hs : Canonical s) (h line k : Nat) (owner data : Bool) (md : LineMeta) :
    Canonical (s.countTokens h line k owner data md) := by
  unfold State.countTokens
  grind [State.dropReq_canonical, State.oneUse_canonical, State.giveTo_canonical, State.setCopy_canonical,
    State.countWrite_canonical, State.post_canonical]

theorem State.tokensArrive_canonical (hs : Canonical s) (h line k : Nat) (owner data : Bool) (md : LineMeta) :
    Canonical (s.tokensArrive h line k owner data md) := by
  unfold State.tokensArrive
  grind [State.sendTokens_canonical, State.countPers_canonical, State.countTokens_canonical]

theorem State.fitL1_canonical (hs : Canonical s) (h : Nat) : Canonical (s.fitL1 h) := by
  unfold State.fitL1
  grind [State.putBack_canonical, Canonical]

theorem execData_canonical (h : Canonical s) (n : Nat) (victim : Option Nat) :
    Reaches (execData n victim s) := by
  unfold execData
  grind [State.takeMsg_canonical, State.putBack_canonical, State.wakePasses_canonical, State.unpark_canonical,
    State.fitL1_canonical, State.tokensArrive_canonical, Reaches]

theorem execTok_canonical (h : Canonical s) (n : Nat) : Reaches (execTok n s) := by
  unfold execTok
  grind [State.takeMsg_canonical, State.wakePasses_canonical, State.unpark_canonical, State.fitL1_canonical,
    State.tokensArrive_canonical, Reaches]

theorem execInv_canonical (h : Canonical s) (n : Nat) : Reaches (execInv n s) := by
  refine (?_ : Canonical _)
  split
  next m t hm =>
    have ht := State.takeMsg_canonical h _ m t hm
    grind [State.takeMsg_canonical, State.parkMsg_canonical, State.giveTo_canonical, Canonical]
  · exact h

theorem execFwds_canonical (h : Canonical s) (n : Nat) : Reaches (execFwds n s) := by
  unfold execFwds
  grind [State.takeMsg_canonical, State.parkMsg_canonical, State.post_canonical, State.setCopy_canonical,
    Reaches]

theorem execCollect_canonical (h : Canonical s) (n : Nat) : Reaches (execCollect n s) := by
  unfold execCollect
  grind [State.takeMsg_canonical, State.parkMsg_canonical, State.putBack_canonical, Reaches]

theorem execRefuse_canonical (h : Canonical s) (n : Nat) : Reaches (execRefuse n s) := by
  unfold execRefuse
  grind [State.takeMsg_canonical, State.dropReq_canonical, State.wakePasses_canonical, State.answer_canonical,
    Reaches]

theorem execPersistentRequest_canonical (h : Canonical s) (holder line : Nat) :
    Reaches (execPersistentRequest holder line s) := by
  unfold execPersistentRequest
  grind [State.post_canonical, Reaches, Canonical]

theorem State.takenOver_canonical (hs : Canonical s) (line h : Nat) : Canonical (s.takenOver line h) := by
  unfold State.takenOver
  grind [Canonical]

theorem State.activate_canonical (h : Canonical s) (p : Pers) : Canonical (s.activate p) := by
  unfold State.activate
  grind [State.takenOver_canonical, State.post_canonical, State.setDir_canonical, State.sendTokens_canonical,
    foldl_canonical, Canonical]

theorem State.nextPers_canonical {u : State} (hu : Canonical u) (line fuel : Nat) :
    Canonical (State.nextPers line fuel u) := by
  induction fuel generalizing u with
  | zero => exact hu
  | succ fuel ih =>
    have gone : ∀ (t : State) (p : Pers), Canonical t →
        Canonical (State.nextPers line fuel { t with pers := t.pers.erase p }) :=
      fun t p ht => ih (by exact ht)
    have hoff := fun h => State.takenOver_canonical hu line h
    unfold State.nextPers
    refine ite_canonical hu ?_
    split
    · exact hu
    next p hp =>
    refine ite_canonical (State.activate_canonical hu p) ?_
    split
    · exact gone _ p hu
    next r hr =>
    dsimp only
    split
    · exact gone _ p (State.refuseMsg_canonical (hoff _) ..)
    · exact gone _ p (State.refuseMsg_canonical (hoff _) ..)
    · exact hu
    · exact gone _ p (State.sendReplica_canonical (hoff _) ..)
    split
    · exact State.wantAll_canonical hu _
    · exact ite_canonical (gone _ p (State.serveGets_canonical (hoff _) _)) (State.activate_canonical hu p)

theorem State.servePers_canonical (h : Canonical s) (line : Nat) : Canonical (s.servePers line) :=
  State.nextPers_canonical h ..

theorem execPreq_canonical (h : Canonical s) (n : Nat) : Reaches (execPreq n s) := by
  refine (?_ : Canonical _)
  split
  next m t hm =>
    have ht := State.takeMsg_canonical h _ m t hm
    grind [State.takeMsg_canonical, State.parkMsg_canonical, State.servePers_canonical, Canonical]
  · exact h

theorem execPact_canonical (h : Canonical s) (n : Nat) : Reaches (execPact n s) := by
  unfold execPact
  grind [State.takeMsg_canonical, State.endRemote_canonical, State.parkMsg_canonical,
    State.wakePasses_canonical, State.giveTo_canonical, foldl_canonical, Reaches, Canonical]

theorem State.endPers_canonical (hs : Canonical s) (line h : Nat) : Canonical (s.endPers line h) := by
  unfold State.endPers
  grind [State.servePers_canonical, State.post_canonical, foldl_canonical, Canonical]

theorem State.leavePers_canonical (hs : Canonical s) (line h : Nat) : Canonical (s.leavePers line h) := by
  unfold State.leavePers
  grind [State.endPers_canonical, Canonical]

theorem execPdone_canonical (h : Canonical s) (n : Nat) : Reaches (execPdone n s) := by
  unfold execPdone
  grind [State.takeMsg_canonical, State.unpark_canonical, State.endPers_canonical, State.setDir_canonical,
    Reaches]

theorem execPdeact_canonical (h : Canonical s) (n : Nat) : Reaches (execPdeact n s) := by
  unfold execPdeact
  grind [State.takeMsg_canonical, State.post_canonical, foldl_canonical, Reaches]

theorem State.addReplica_canonical (h : Canonical s) (r : Replica) : Canonical (s.addReplica r) := by
  unfold State.addReplica
  grind [Canonical]

theorem State.installReplica_canonical (h : Canonical s) (r : Replica) (q : Nat) :
    Canonical (s.installReplica r q) := by
  unfold State.installReplica
  grind [State.addReplica_canonical, State.fitL1_canonical]

theorem execFdata_canonical (h : Canonical s) (n : Nat) : Reaches (execFdata n s) := by
  unfold execFdata
  grind [State.takeMsg_canonical, State.wakePasses_canonical, State.unpark_canonical, State.dropReq_canonical,
    State.oneUse_canonical, State.installReplica_canonical, Reaches]

theorem execSweep_canonical (h : Canonical s) (n : Nat) : Reaches (execSweep n s) := by
  refine (?_ : Canonical _)
  split
  next m t hm =>
    have ht := State.takeMsg_canonical h _ m t hm
    grind [State.takeMsg_canonical, State.parkMsg_canonical, State.sendLinks_canonical, State.post_canonical,
    Canonical]
  · exact h

theorem State.sweepEnd_canonical (h : Canonical s) (page : Nat) : Canonical (s.sweepEnd page) := by
  unfold State.sweepEnd
  grind [State.unpark_canonical, State.setFrz_canonical, Canonical]

theorem execSwack_canonical (h : Canonical s) (n : Nat) : Reaches (execSwack n s) := by
  refine (?_ : Canonical _)
  split
  next m t hm =>
    have ht := State.takeMsg_canonical h _ m t hm
    grind [State.takeMsg_canonical, State.sweepEnd_canonical, Canonical]
  · exact h

theorem State.refuseRemote_canonical (h : Canonical s) (src tag : Nat) (cause : BitVec 8)
    (stale : Option (BitVec 8)) : Canonical (s.refuseRemote src tag cause stale) := h

theorem State.answerRemote_canonical (h : Canonical s) (src tag : Nat) (bs : List Byte) (md : LineMeta) :
    Canonical (s.answerRemote src tag bs md) := h

theorem State.homePers_canonical (hs : Canonical s) (m : NetMsg) (h since : Nat) :
    Canonical (s.homePers m h since) := by
  unfold State.homePers
  grind [State.parkMsg_canonical, State.servePers_canonical, Canonical]

theorem State.uncachedDone_canonical (h : Canonical s) (line : Nat) (body : UncBody) (pa src tag : Nat) :
    Canonical (s.uncachedDone line body pa src tag) := by
  unfold State.uncachedDone
  grind [State.chargeAt_canonical, State.answerRemote_canonical, State.gwrite_canonical, Canonical]

theorem execUncachedAccess_canonical (h : Canonical s) (n : Nat) : Reaches (execUncachedAccess n s) := by
  refine (?_ : Canonical _)
  split
  next m t hm =>
    have ht := State.takeMsg_canonical h _ m t hm
    split
    next body pa src tag gen since hb =>
      have hl := State.leavePers_canonical ht m.line (homeAgent src tag)
      have hr := fun c g => State.refuseRemote_canonical hl src tag c g
      have hp := fun {u : State} (hu : Canonical u) => State.homePers_canonical hu m (homeAgent src tag) since
      have hu := fun {u : State} (hu : Canonical u) => State.uncachedDone_canonical hu m.line body pa src tag
      have hw := State.wantAll_canonical ht m.line
      have ho := State.wantOwner_canonical ht m.line
      dsimp only
      refine ite_canonical (hu ht) ?_
      split
      · exact hr ..
      · exact hr ..
      refine ite_canonical (hr ..) (ite_canonical (State.sendLinks_canonical hl ..) ?_)
      refine ite_canonical (State.parkMsg_canonical ht m) (ite_canonical (hp ht) ?_)
      refine ite_canonical (hp ?_) (State.leavePers_canonical (hu ?_) ..)
      · exact ite_snd_canonical ht (ite_snd_canonical hw ho)
      · exact ite_snd_canonical ht (ite_snd_canonical hw ho)
    · exact h
  · exact h

theorem State.forwardReq_canonical (h : Canonical s) (m : Nat) (r : RemoteReq) :
    Canonical (s.forwardReq m r) := by
  unfold State.forwardReq
  grind [State.sendLinks_canonical, State.refuseRemote_canonical]

theorem execRemoteRequest_canonical (h : Canonical s) (r : RemoteReq) : Reaches (execRemoteRequest r s) := by
  unfold execRemoteRequest
  grind [State.post_canonical, State.forwardReq_canonical, State.leavePers_canonical,
    State.wakePasses_canonical, State.unpark_canonical, State.answerRemote_canonical, State.gwrite_canonical,
    State.fresh_canonical, foldl_canonical, Reaches, Canonical]

/-! ### Machine/Power -/

theorem State.applyQuota_canonical (h : Canonical s) (x : QuotaChange) : Canonical (s.applyQuota x) := by
  unfold State.applyQuota
  grind [State.setCtx_canonical]

theorem State.chargeSplit_canonical (h : Canonical s) (meter a : Nat) (parts : List (Nat × Nat)) :
    Canonical (s.chargeSplit meter a parts) := by
  unfold State.chargeSplit
  grind [State.chargeFj_canonical, foldl_canonical]

theorem State.staticCharges_canonical (h : Canonical s) : Canonical s.staticCharges := by
  refine State.chargeFj_canonical (foldl_canonical (fun t sl ht => State.chargeFj_canonical ht ..)
    (State.chargeSplit_canonical ?_ ..) _) ..
  exact foldl_canonical (fun t q ht => State.chargeSplit_canonical ht ..) h _

theorem State.chargeUp_canonical (h : Canonical s) (c nj fuel : Nat) : Canonical (s.chargeUp c nj fuel) := by
  induction fuel generalizing s c with
  | zero => exact h
  | succ n ih =>
    unfold State.chargeUp
    dsimp only
    split
    · exact State.setCtx_canonical h _
    · exact ih (State.setCtx_canonical h _) _

theorem State.applyCharges_canonical (h : Canonical s) : Canonical s.applyCharges := by
  unfold State.applyCharges
  grind [State.chargeUp_canonical, foldl_canonical, Canonical]

theorem execTick_canonical (h : Canonical s) : Reaches (execTick s) := by
  unfold execTick
  grind [State.applyQuota_canonical, State.applyCharges_canonical, State.staticCharges_canonical,
    foldl_canonical, Reaches, Canonical]

theorem execThermalThrottle_canonical (h : Canonical s) (die celsius : Nat) :
    Reaches (execThermalThrottle die celsius s) := by
  unfold execThermalThrottle
  grind [Reaches, Canonical]

theorem State.tripTurn_canonical (h : Canonical s) : Canonical s.tripTurn := by
  unfold State.tripTurn
  grind [Canonical]

theorem execThermalTrip_canonical (h : Canonical s) (_die celsius : Nat) :
    Reaches (execThermalTrip _die celsius s) := by
  unfold execThermalTrip
  grind [State.tripTurn_canonical, State.beginPreempt_canonical, State.send_canonical, Reaches, Canonical]

theorem State.logErr_canonical (h : Canonical s) (f : ErrLog → ErrLog) : Canonical (s.logErr f) := h

theorem execPatrolScrub_canonical (h : Canonical s) (slice : Nat) (find : ScrubFind) :
    Reaches (execPatrolScrub slice find s) := by
  unfold execPatrolScrub
  grind [State.logErr_canonical, State.setPoison_canonical, Reaches, Canonical]

theorem State.poisonAt_canonical (h : Canonical s) (x : Upset) : Canonical (s.poisonAt x) := by
  unfold State.poisonAt
  grind [State.setPoison_canonical, State.countPoison_canonical, State.setCopy_canonical,
    State.setVmeta_canonical, State.setThread_canonical, Canonical]

theorem State.takeUpset_canonical (h : Canonical s) : Canonical s.takeUpset := by
  unfold State.takeUpset
  grind [State.logErr_canonical, State.poisonAt_canonical, Canonical]

theorem State.farAnswer_canonical (h : Canonical s) (peer tag : Nat) (f : Remote → Remote) :
    Canonical (s.farAnswer peer tag f) := h

theorem State.farReplica_canonical (h : Canonical s) (peer tag : Nat) (gen : BitVec 8) (bs : List Byte)
    (md : LineMeta) : Canonical (s.farReplica peer tag gen bs md) := by
  unfold State.farReplica
  grind [State.installReplica_canonical, State.farAnswer_canonical, foldl_canonical]

theorem State.collFrame_canonical (h : Canonical s) (peer : Nat) (m : CollMsg) :
    Canonical (s.collFrame peer m) := by
  unfold State.collFrame
  grind [State.doomList_canonical, State.dropParts_canonical, State.doomBad_canonical, Canonical]

theorem execLinkFrame_canonical (h : Canonical s) (peer : Nat) (body : LinkBody) :
    Reaches (execLinkFrame peer body s) := by
  unfold execLinkFrame
  grind [State.logErr_canonical, State.farAnswer_canonical, State.brokenHold_canonical,
    State.farReplica_canonical, State.collFrame_canonical, State.sendLinks_canonical, State.sweepEnd_canonical,
    Reaches, Canonical]

theorem execKeepalive_canonical (h : Canonical s) : Reaches (execKeepalive s) := h

theorem execPeerLost_canonical (h : Canonical s) (peer : Nat) : Reaches (execPeerLost peer s) := by
  unfold execPeerLost
  grind [State.wakePasses_canonical, State.unpark_canonical, Reaches, Canonical]

theorem execSwackTimeout_canonical (h : Canonical s) (page peer : Nat) :
    Reaches (execSwackTimeout page peer s) := by
  unfold execSwackTimeout
  grind [State.sweepEnd_canonical, Reaches, Canonical]

theorem State.bootStep_canonical (h : Canonical s) (k : Nat) : Canonical (s.bootStep k) := by
  unfold State.bootStep
  grind [State.gwrite_canonical, State.setCtx_canonical, State.setFrz_canonical, foldl_canonical, Canonical]

theorem execPowerOnReset_canonical (s : State) (failStep : Nat) : Reaches (execPowerOnReset failStep s) := by
  unfold execPowerOnReset
  grind [State.reset_canonical, State.bootStep_canonical, foldl_canonical, Reaches, Canonical]

/-! ### Machine/Background -/

theorem netTurn_canonical (h : Canonical s) : Reaches (netTurn s) := by
  unfold netTurn
  grind [execGets_canonical, execGetm_canonical, execData_canonical, execTok_canonical, execInv_canonical,
    execFwds_canonical, execWb_canonical, execPut_canonical, execCollect_canonical, execDone_canonical,
    execPreq_canonical, execPact_canonical, execPdone_canonical, execPdeact_canonical, execFdata_canonical,
    execRefuse_canonical, execSweep_canonical, execSwack_canonical, execUncachedAccess_canonical, Reaches]

theorem upsetTurn_canonical (h : Canonical s) : Reaches (upsetTurn s) :=
  State.takeUpset_canonical h ..

theorem State.payLine_canonical (h : Canonical s) (line : Nat) : Canonical (s.payLine line) := h

theorem retryTurn_canonical (h : Canonical s) : Reaches (retryTurn s) := by
  unfold retryTurn
  grind [State.wantAll_canonical, State.payLine_canonical, State.servePers_canonical,
    State.wakePasses_canonical, State.unpark_canonical, foldl_canonical, Reaches]

theorem areasTurn_canonical (h : Canonical s) : Reaches (areasTurn s) :=
  State.areaTurn_canonical h ..

theorem arriveTurn_canonical (h : Canonical s) (q sl : Nat) : Reaches (arriveTurn q sl s) := by
  unfold arriveTurn
  grind [State.arrive_canonical, Reaches]

theorem deliverTurn_canonical (h : Canonical s) (q sl : Nat) : Reaches (deliverTurn q sl s) := by
  unfold deliverTurn
  grind [State.settleGreds_canonical, State.tidy_canonical, State.arrive_canonical, State.takeTrap_canonical,
    Reaches]

theorem coopTurn_canonical (h : Canonical s) : Reaches (coopTurn s) := by
  unfold coopTurn
  grind [State.tidy_canonical, State.turnBack_canonical, foldl_canonical, Reaches]

theorem gredTurn_canonical (h : Canonical s) : Reaches (gredTurn s) :=
  State.settleGreds_canonical h ..

theorem launchOpTurn_canonical (h : Canonical s) (id : Nat) : Reaches (launchOpTurn id s) := by
  unfold launchOpTurn
  grind [State.launchTurn_canonical, State.qpostTurn_canonical, Reaches]

theorem commandTurn_canonical (h : Canonical s) (c q : Nat) : Reaches (commandTurn c q s) := by
  unfold commandTurn
  grind [execCmdLaunch_canonical, execWaitReread_canonical, execCmdWait_canonical, execCmdSignalWrite_canonical,
    execCmdSignalAdd_canonical, execCmdCopyG2v_canonical, execCmdCopyV2g_canonical, execCmdCopyV2v_canonical,
    execCmdCopyMc_canonical, execCmdCollAllredBf16_canonical, execCmdCollAllredF32_canonical,
    execCmdCollRedscBf16_canonical, execCmdCollRedscF32_canonical, execCmdCollAllgath_canonical,
    execCmdCollBcast_canonical, execCmdFreeze_canonical, execCmdThaw_canonical, Reaches]

theorem dispatchTurn_canonical (h : Canonical s) : Reaches (dispatchTurn s) := by
  unfold dispatchTurn
  grind [execWorkgroupDispatch_canonical, Reaches]

theorem tripOverTurn_canonical (h : Canonical s) : Reaches (tripOverTurn s) :=
  State.tripTurn_canonical h ..

theorem messageTurn_canonical (h : Canonical s) (n : Nat) : Reaches (messageTurn n s) := by
  unfold messageTurn
  grind [execMalformedMessage_canonical, execMrd_canonical, execMwr_canonical, execQpostMessage_canonical,
    execCtxop_canonical, execPgack_canonical, execEnread_canonical, execAttest_canonical, Reaches]

theorem bootTurn_canonical (h : Canonical s) : Reaches (bootTurn s) := by
  unfold bootTurn
  grind [execPowerOnReset_canonical, Reaches]

theorem weightTurn_canonical (h : Canonical s) : Reaches (weightTurn s) := by
  unfold weightTurn
  grind [State.choose_canonical, execBollardWeightUpdate_canonical, foldl_canonical, foldl_snd_canonical,
    Reaches, Canonical]

theorem keepaliveTurn_canonical (h : Canonical s) : Reaches (keepaliveTurn s) := by
  unfold keepaliveTurn
  grind [execKeepalive_canonical, Reaches, Canonical]

theorem State.turnPass_canonical (h : Canonical s) : Canonical s.turnPass := by
  unfold State.turnPass
  grind [Canonical]

/-! ### Machine/Move -/

theorem execNull_canonical (h : Canonical s) (w : Fields) : Reaches (execNull w s) := by
  unfold execNull
  grind [State.emitVal_canonical, State.emitNull_canonical, State.chargeFiring_canonical, Reaches]

theorem execSreg_canonical (h : Canonical s) (w : Fields) : Reaches (execSreg w s) := by
  unfold execSreg
  grind [State.fire_canonical, State.emitVal_canonical, Reaches]

/-! ### Machine/Dispatch -/

theorem exec_canonical (h : Canonical s) (i : Instr) : Reaches (exec i s) := by
  cases i with
  | iadd | isub | imul | imulhi | imad | idiv | irem | ineg | iabs | imin | imax | lea | iaddc | iaddSat
    | isubSat | and | or | xor | andn | not | shl | shr | sar | rotl | rotr | popc | clz | ctz | brev | bfx
    | bfi | bperm | icmp | isel | pand | por | pxor | pnot | pset | pmov | ppack | fabs | fneg | fsel
    | fclass | fcopysign | dot4 | cvtF32Ds8 | unpack2 | mov | movi | movh | fan =>
    exact State.fireValue_canonical h ..
  | fadd | fsub | fmul | ffma | fmin | fmax | fcmp | frnd | fscale | hadd2 | hmul2 | hfma2 | dot2 | dotds
    | cvt | dsenc | pack2 | rcp | rsq | sqrt | div | exp2 | log2 | sin | cos | tanh =>
    exact State.fireFp_canonical h ..
  | atomAdd | atomSub | atomMin | atomMax | atomAnd | atomOr | atomXor | atomExch | atomInc | atomDec
    | atomFaddF32 | atomFadd2Bf16 =>
    exact State.atomic_canonical h ..
  | gredAdd | gredMin | gredMax =>
    exact State.gred_canonical h ..
  | cpG2v | cpV2g | cpV2v | cpMc | vmap | vunmap | vflush | gath | collAllred | collRedsc | collAllgath
    | collBcast | seqGemm | seqAttn | frz | thaw | qpost =>
    exact State.engine_canonical h ..
  | mmaCfg | mma | mmaRel | mmaClr =>
    exact State.matrix_canonical h ..
  | pgreqAckRetry | pgreqAckRefuse =>
    exact State.pgreqAck_canonical h ..
  | fmtRegionEnable | fmtRegionDisable =>
    exact State.ctlWrite_canonical h ..
  | controlWindowWrite =>
    exact State.controlWrite_canonical h ..
  | powerWindow | flitRetransmit =>
    exact h
  | br w => exact execBr_canonical h w
  | bri w => exact execBri_canonical h w
  | call w => exact execCall_canonical h w
  | ret w => exact execRet_canonical h w
  | exit w => exact execExit_canonical h w
  | trap w => exact execTrap_canonical h w
  | null w => exact execNull_canonical h w
  | sreg w => exact execSreg_canonical h w
  | ld t sp w => exact execLd_canonical h t sp w
  | st n sp w => exact execSt_canonical h n sp w
  | ldv sp w => exact execLdv_canonical h sp w
  | stv sp w => exact execStv_canonical h sp w
  | ldNc n w => exact execLdNc_canonical h n w
  | pf w => exact execPf_canonical h w
  | cas n sp w => exact execCas_canonical h n sp w
  | casB128 sp w => exact execCasB128_canonical h sp w
  | fence w => exact execFence_canonical h w
  | bar w => exact execBar_canonical h w
  | barArrive w => exact execBarArrive_canonical h w
  | barWait w => exact execBarWait_canonical h w
  | coInit w => exact execCoInit_canonical h w
  | coArrive w => exact execCoArrive_canonical h w
  | coWait w => exact execCoWait_canonical h w
  | elect w => exact execElect_canonical h w
  | srd w => exact execSrd_canonical h w
  | swr w => exact execSwr_canonical h w
  | trapRet w => exact execTrapRet_canonical h w
  | trapSub w => exact execTrapSub_canonical h w
  | ctxNew site => exact execCtxNew_canonical h site
  | ctxGiveQuays site => exact execCtxGiveQuays_canonical h site
  | ctxGiveMemory site => exact execCtxGiveMemory_canonical h site
  | ctxGiveQueue site => exact execCtxGiveQueue_canonical h site
  | ctxGiveEnergy site => exact execCtxGiveEnergy_canonical h site
  | ctxTakeQuays site => exact execCtxTakeQuays_canonical h site
  | ctxTakeMemory site => exact execCtxTakeMemory_canonical h site
  | ctxTakeQueue site => exact execCtxTakeQueue_canonical h site
  | ctxTakeEnergy site => exact execCtxTakeEnergy_canonical h site
  | ctxMap site => exact execCtxMap_canonical h site
  | ctxUnmap site => exact execCtxUnmap_canonical h site
  | ctxUnmapRenewal site => exact execCtxUnmapRenewal_canonical h site
  | ctxRun site => exact execCtxRun_canonical h site
  | ctxStop site => exact execCtxStop_canonical h site
  | ctxStopEnd site => exact execCtxStopEnd_canonical h site
  | ctxStopRelease site => exact execCtxStopRelease_canonical h site
  | enRead w => exact execEnRead_canonical h w
  | enQuota site => exact execEnQuota_canonical h site
  | launch w => exact execLaunch_canonical h w
  | spawn w => exact execSpawn_canonical h w
  | joinPut w => exact execJoinPut_canonical h w
  | dlogStart site => exact execDlogStart_canonical h site
  | dlogStop site => exact execDlogStop_canonical h site
  | partChg site => exact execPartChg_canonical h site
  | cmdLaunch c q => exact execCmdLaunch_canonical h c q
  | cmdWait c q => exact execCmdWait_canonical h c q
  | waitReread c q => exact execWaitReread_canonical h c q
  | cmdSignalWrite c q => exact execCmdSignalWrite_canonical h c q
  | cmdSignalAdd c q => exact execCmdSignalAdd_canonical h c q
  | cmdCopyG2v c q => exact execCmdCopyG2v_canonical h c q
  | cmdCopyV2g c q => exact execCmdCopyV2g_canonical h c q
  | cmdCopyV2v c q => exact execCmdCopyV2v_canonical h c q
  | cmdCopyMc c q => exact execCmdCopyMc_canonical h c q
  | cmdCollAllredBf16 c q => exact execCmdCollAllredBf16_canonical h c q
  | cmdCollAllredF32 c q => exact execCmdCollAllredF32_canonical h c q
  | cmdCollRedscBf16 c q => exact execCmdCollRedscBf16_canonical h c q
  | cmdCollRedscF32 c q => exact execCmdCollRedscF32_canonical h c q
  | cmdCollAllgath c q => exact execCmdCollAllgath_canonical h c q
  | cmdCollBcast c q => exact execCmdCollBcast_canonical h c q
  | cmdFreeze c q => exact execCmdFreeze_canonical h c q
  | cmdThaw c q => exact execCmdThaw_canonical h c q
  | queueWake c q => exact execQueueWake_canonical h c q
  | mrd n => exact execMrd_canonical h n
  | mwr n => exact execMwr_canonical h n
  | qpostMessage n => exact execQpostMessage_canonical h n
  | ctxop n => exact execCtxop_canonical h n
  | pgack n => exact execPgack_canonical h n
  | enread n => exact execEnread_canonical h n
  | attest n => exact execAttest_canonical h n
  | gets n => exact execGets_canonical h n
  | getm n => exact execGetm_canonical h n
  | data n victim => exact execData_canonical h n victim
  | tok n => exact execTok_canonical h n
  | inv n => exact execInv_canonical h n
  | fwds n => exact execFwds_canonical h n
  | wb n => exact execWb_canonical h n
  | put n => exact execPut_canonical h n
  | collect n => exact execCollect_canonical h n
  | done n => exact execDone_canonical h n
  | persistentRequest holder line => exact execPersistentRequest_canonical h holder line
  | preq n => exact execPreq_canonical h n
  | pact n => exact execPact_canonical h n
  | pdone n => exact execPdone_canonical h n
  | pdeact n => exact execPdeact_canonical h n
  | fdata n => exact execFdata_canonical h n
  | refuse n => exact execRefuse_canonical h n
  | sweep n => exact execSweep_canonical h n
  | swack n => exact execSwack_canonical h n
  | uncachedAccess n => exact execUncachedAccess_canonical h n
  | remoteRequest r => exact execRemoteRequest_canonical h r
  | walkStart die => exact execWalkStart_canonical h die
  | walkComplete die n => exact execWalkComplete_canonical h die n
  | pgreqAppend n => exact execPgreqAppend_canonical h n
  | translationExpiry quay n => exact execTranslationExpiry_canonical h quay n
  | generationIncrement n => exact execGenerationIncrement_canonical h n
  | planeChoose quay plane => exact execPlaneChoose_canonical h quay plane
  | blockConfigure quay plane => exact execBlockConfigure_canonical h quay plane
  | threadAdmit quay plane slot => exact execThreadAdmit_canonical h quay plane slot
  | blockResolve => exact execBlockResolve_canonical h
  | commit => exact execCommit_canonical h
  | entryAged quay entry => exact execEntryAged_canonical h quay entry
  | coalesceHoldEnd quay entry => exact execCoalesceHoldEnd_canonical h quay entry
  | runOpenTimeout quay plane => exact execRunOpenTimeout_canonical h quay plane
  | drainTimeout quay plane => exact execDrainTimeout_canonical h quay plane
  | bollardWeightUpdate quay bollard waiting => exact execBollardWeightUpdate_canonical h quay bollard waiting
  | bollardUncorrectable quay bollard => exact execBollardUncorrectable_canonical h quay bollard
  | storePerform quay slot => exact execStorePerform_canonical h quay slot
  | holdBreak n => exact execHoldBreak_canonical h n
  | barrierArrival quay slot => exact execBarrierArrival_canonical h quay slot
  | coWaitWake quay slot => exact execCoWaitWake_canonical h quay slot
  | coWaitPoll quay slot => exact execCoWaitPoll_canonical h quay slot
  | workgroupDispatch n quays => exact execWorkgroupDispatch_canonical h n quays
  | workgroupComplete n => exact execWorkgroupComplete_canonical h n
  | launchComplete n => exact execLaunchComplete_canonical h n
  | copyChunkDone op => exact execCopyChunkDone_canonical h op
  | scoreboardRetire quay n => exact execScoreboardRetire_canonical h quay n
  | completionRaise op => exact execCompletionRaise_canonical h op
  | gatherRow op => exact execGatherRow_canonical h op
  | collChunkReduce n => exact execCollChunkReduce_canonical h n
  | seqStep op => exact execSeqStep_canonical h op
  | mappedFill quay line => exact execMappedFill_canonical h quay line
  | vflushDone op => exact execVflushDone_canonical h op
  | vunmapDone op => exact execVunmapDone_canonical h op
  | sealDone op => exact execSealDone_canonical h op
  | unsealDone op => exact execUnsealDone_canonical h op
  | freezePage op => exact execFreezePage_canonical h op
  | pageFrozen page => exact execPageFrozen_canonical h page
  | thawPage op => exact execThawPage_canonical h op
  | matrixQueueHead pair => exact execMatrixQueueHead_canonical h pair
  | endOfRow pair => exact execEndOfRow_canonical h pair
  | nodeRelease pair => exact execNodeRelease_canonical h pair
  | endOfOperation pair => exact execEndOfOperation_canonical h pair
  | fmtRegionBusyClear die region => exact execFmtRegionBusyClear_canonical h die region
  | netpolWrite part v => exact execNetpolWrite_canonical h part v
  | contextOpDone n => exact execContextOpDone_canonical h n
  | vaultHandover n => exact execVaultHandover_canonical h n
  | preemptStopReached n agent => exact execPreemptStopReached_canonical h n agent
  | preemptDrainLimit n => exact execPreemptDrainLimit_canonical h n
  | preemptionComplete n => exact execPreemptionComplete_canonical h n
  | saveChunk n => exact execSaveChunk_canonical h n
  | restore n => exact execRestore_canonical h n
  | timeSliceEnd part => exact execTimeSliceEnd_canonical h part
  | lamplighterArrival => exact execLamplighterArrival_canonical h
  | tick => exact execTick_canonical h
  | exhaustionPreempt c => exact execExhaustionPreempt_canonical h c
  | thermalThrottle die celsius => exact execThermalThrottle_canonical h die celsius
  | thermalTrip die celsius => exact execThermalTrip_canonical h die celsius
  | patrolScrub slice find => exact execPatrolScrub_canonical h slice find
  | linkFrame peer body => exact execLinkFrame_canonical h peer body
  | keepalive => exact execKeepalive_canonical h
  | peerLost peer => exact execPeerLost_canonical h peer
  | swackTimeout page peer => exact execSwackTimeout_canonical h page peer
  | powerOnReset failStep => exact execPowerOnReset_canonical s failStep
  | blockPinned quay entry => exact execBlockPinned_canonical h quay entry
  | malformedMessage n => exact execMalformedMessage_canonical h n
  | _ => exact State.engine_canonical h ..

/-! ### Machine/Step -/

theorem State.later_canonical (h : Canonical s) : Canonical s.later := h

theorem stepInReset_canonical (h : Canonical s) : Reaches (stepInReset s) := by
  unfold stepInReset
  split
  · exact execPowerOnReset_canonical ..
  · exact h
  · exact h

/-! ### The turns of the background -/

/-- A turn of the background keeps the one form of the memories. -/
def Turn.Keeps (f : Turn) : Prop := ∀ t, Canonical t → Reaches (f t)

theorem State.memoryTurns_keep (s : State) : ∀ f ∈ s.memoryTurns, Turn.Keeps f := by
  simp +contextual only [State.memoryTurns, List.forall_mem_append, List.forall_mem_cons, List.forall_mem_map,
    List.forall_mem_flatMap, List.not_mem_nil, false_implies, implies_true, and_self, Turn.Keeps, netTurn_canonical,
    retryTurn_canonical, areasTurn_canonical, execMappedFill_canonical, execWalkStart_canonical,
    execWalkComplete_canonical, execPgreqAppend_canonical, execTranslationExpiry_canonical,
    execGenerationIncrement_canonical, execPersistentRequest_canonical, execPageFrozen_canonical,
    execSwackTimeout_canonical, execFmtRegionBusyClear_canonical, execPeerLost_canonical, upsetTurn_canonical]

theorem State.threadTurns_keep (s : State) : ∀ f ∈ s.threadTurns, Turn.Keeps f := by
  simp +contextual only [State.threadTurns, List.forall_mem_append, List.forall_mem_cons, List.forall_mem_map,
    List.forall_mem_flatMap, List.not_mem_nil, false_implies, implies_true, true_and, and_true, Turn.Keeps,
    gredTurn_canonical, coopTurn_canonical, execBlockPinned_canonical, execEntryAged_canonical,
    execCoalesceHoldEnd_canonical, execBlockConfigure_canonical, execThreadAdmit_canonical,
    execRunOpenTimeout_canonical, execDrainTimeout_canonical, execHoldBreak_canonical]
  refine ⟨fun t _ => ⟨⟨?_, ?_⟩, ?_⟩, fun q _ => ?_⟩
  · split <;> simp +contextual only [List.forall_mem_cons, List.not_mem_nil, false_implies, implies_true, and_self,
      execStorePerform_canonical, execBarrierArrival_canonical]
  · split <;> simp +contextual only [List.forall_mem_cons, List.not_mem_nil, false_implies, implies_true, and_self,
      execCoWaitWake_canonical, execCoWaitPoll_canonical, deliverTurn_canonical]
  · split <;> simp +contextual only [List.forall_mem_cons, List.not_mem_nil, false_implies, implies_true, and_self,
      arriveTurn_canonical]
  · split <;> simp +contextual only [List.forall_mem_cons, List.not_mem_nil, false_implies, implies_true, and_self,
      execPlaneChoose_canonical]

theorem EngOp.turns_keep (o : EngOp) : ∀ f ∈ o.turns, Turn.Keeps f := by
  unfold EngOp.turns
  split <;> simp +contextual only [List.forall_mem_append, List.forall_mem_cons, List.not_mem_nil, false_implies,
      implies_true, and_self, Turn.Keeps,
      execCopyChunkDone_canonical, execSealDone_canonical, execUnsealDone_canonical, execVunmapDone_canonical,
      execVflushDone_canonical, execGatherRow_canonical, execCollChunkReduce_canonical, execSeqStep_canonical,
      execFreezePage_canonical, execThawPage_canonical, launchOpTurn_canonical, execCompletionRaise_canonical]

theorem State.engineTurns_keep (s : State) : ∀ f ∈ s.engineTurns, Turn.Keeps f := by
  have hop : ∀ o ∈ s.ops, ∀ f ∈ o.turns, ∀ t, Canonical t → Reaches (f t) := fun o _ => EngOp.turns_keep o
  simp +contextual only [State.engineTurns, List.forall_mem_append, List.forall_mem_cons, List.forall_mem_map,
    List.forall_mem_flatMap, List.not_mem_nil, false_implies, implies_true, and_self, and_true, Turn.Keeps, execFreezePage_canonical,
    execScoreboardRetire_canonical, execMatrixQueueHead_canonical, execEndOfRow_canonical, execNodeRelease_canonical,
    execEndOfOperation_canonical]
  exact hop

theorem State.launchTurns_keep (s : State) : ∀ f ∈ s.launchTurns, Turn.Keeps f := by
  simp +contextual only [State.launchTurns, List.forall_mem_append, List.forall_mem_cons, List.forall_mem_map,
    List.forall_mem_flatMap, List.not_mem_nil, false_implies, implies_true, and_self, Turn.Keeps, execQueueWake_canonical,
    commandTurn_canonical, dispatchTurn_canonical, execWorkgroupComplete_canonical, execLaunchComplete_canonical]

theorem ctxTurns_keep (n : Nat) : ∀ f ∈ ctxTurns n, Turn.Keeps f := by
  simp +contextual only [ctxTurns, List.forall_mem_cons, List.not_mem_nil, false_implies, implies_true, and_self, Turn.Keeps,
    execCtxNew_canonical, execCtxGiveQuays_canonical, execCtxGiveMemory_canonical, execCtxGiveQueue_canonical,
    execCtxGiveEnergy_canonical, execCtxTakeQuays_canonical, execCtxTakeMemory_canonical, execCtxTakeQueue_canonical,
    execCtxTakeEnergy_canonical, execCtxMap_canonical, execCtxUnmap_canonical, execCtxUnmapRenewal_canonical,
    execCtxRun_canonical, execCtxStop_canonical, execCtxStopEnd_canonical, execCtxStopRelease_canonical,
    execEnQuota_canonical, execDlogStart_canonical, execDlogStop_canonical, execPartChg_canonical,
    execContextOpDone_canonical]

theorem State.contextTurns_keep (s : State) : ∀ f ∈ s.contextTurns, Turn.Keeps f := by
  have hctx : ∀ n ∈ List.range s.ctxq.length, ∀ f ∈ ctxTurns n, ∀ t, Canonical t → Reaches (f t) :=
    fun n _ => ctxTurns_keep n
  simp +contextual only [State.contextTurns, List.forall_mem_append, List.forall_mem_cons, List.forall_mem_map,
    List.forall_mem_flatMap, List.not_mem_nil, false_implies, implies_true, and_self, and_true, Turn.Keeps,
    execPreemptStopReached_canonical, execPreemptDrainLimit_canonical, execPreemptionComplete_canonical,
    execLamplighterArrival_canonical, execSaveChunk_canonical, execRestore_canonical, execVaultHandover_canonical,
    execExhaustionPreempt_canonical, tripOverTurn_canonical]
  exact hctx

theorem State.turns_keep (s : State) : ∀ f ∈ s.turns, Turn.Keeps f := by
  simp only [State.turns, List.forall_mem_cons, List.forall_mem_append, List.forall_mem_map]
  exact ⟨fun t h => bootTurn_canonical h, fun t h => weightTurn_canonical h, fun t h => keepaliveTurn_canonical h,
    ⟨⟨⟨⟨s.memoryTurns_keep, s.threadTurns_keep⟩, s.engineTurns_keep⟩, s.launchTurns_keep⟩, s.contextTurns_keep⟩,
    fun n _ t h => messageTurn_canonical h n⟩

/-- Where every turn of a list keeps the form, the first that is due reaches it. -/
theorem firstDue_reaches (h : Canonical s) {fs : List Turn} (hf : ∀ f ∈ fs, Turn.Keeps f) :
    ∀ o, firstDue s fs = some o → Reaches o := by
  induction fs with
  | nil => exact fun o ho => nomatch ho
  | cons f fs ih =>
    intro o ho
    have hs := hf f (List.mem_cons_self ..) s h
    unfold firstDue at ho
    split at ho
    next t ht =>
      rw [ht] at hs
      split at ho
      · exact ih (fun g hg => hf g (List.mem_cons_of_mem _ hg)) o ho
      · cases ho
        exact hs
    next hn =>
      cases ho
      exact hs

theorem State.background_reaches (h : Canonical s) : ∀ o, s.background = some o → Reaches o := by
  refine firstDue_reaches h fun f hf => ?_
  rcases List.mem_append.mp hf with hd | ht
  · exact s.turns_keep f (List.mem_of_mem_drop hd)
  · exact s.turns_keep f (List.mem_of_mem_take ht)


theorem stepPass_canonical (h : Canonical s) : Reaches (stepPass s) := by
  unfold stepPass
  split
  · dsimp only
    split
    · exact exec_canonical (by exact h) _
    · trivial
  · split
    · exact execCommit_canonical h
    · exact execBlockResolve_canonical h

theorem stepOn_canonical (h : Canonical s) : Reaches (stepOn s) := by
  unfold stepOn
  split
  · exact exec_canonical (by exact h) _
  split
  · exact execTick_canonical h
  have ht := State.turnPass_canonical h
  dsimp only
  split
  · exact stepPass_canonical ht
  split
  next o ho => exact State.background_reaches ht o ho
  · exact ht

theorem step_canonical (h : Canonical s) : Reaches (step s) := by
  unfold step
  split
  · exact stepInReset_canonical (State.later_canonical h)
  · exact stepOn_canonical (State.later_canonical h)

/-- Settles O59: whatever a step takes, an event, the tick, an instruction, a pass or a turn in the background, keeps the
form. -/
theorem memoryStaysCanonical : Obligations.MemoryStaysCanonical := by
  intro s t h hs
  have hr := step_canonical h
  rw [hs] at hr
  exact hr

end Sys2Proof.Machine
